-- ==== Sys2Proof/Word.lean ====
section
/-! DEFINITION. The words, unit numbers and status codes of the Aqler D9 module (00_scope.md, 01_module_anatomy.md, R343). -/

namespace Sys2Proof

abbrev Byte := BitVec 8
abbrev W16 := BitVec 16
abbrev W32 := BitVec 32
abbrev W48 := BitVec 48
abbrev W64 := BitVec 64

/-- Partition numbers P0 to P31, which are also the numbers of their sequencers (R21). -/
abbrev PtnId := Fin 32
abbrev QueueId := Fin 8
/-- Matrix cores MC0 to MC255 (R11). -/
abbrev McId := Fin 256
abbrev TeId := Fin 64
abbrev CgId := Fin 32
abbrev QpId := Fin 48
abbrev UpId := Fin 2
abbrev DieId := Fin 4
/-- MCn.SCs.Tt is thread 256n + 8s + t (R111). -/
abbrev ThreadId := Fin 65536
abbrev SemId := Fin 256

/-- A command or item status (R343). END_ITEM may close an item with any code it names (R347), so a status is its 16-bit code. -/
abbrev Status := BitVec 16

namespace St
def ok : Status := 0x0000
def failedItems : Status := 0x0001
def suspect : Status := 0x0002
def eLength : Status := 0x0101
def eCrc : Status := 0x0102
def eVersion : Status := 0x0103
def eHeader : Status := 0x0104
def ePtnFree : Status := 0x0105
def ePtnReset : Status := 0x0106
def eQueueOff : Status := 0x0107
def eNoCredit : Status := 0x0108
def eSeqReplay : Status := 0x0109
def eOpcode : Status := 0x010A
def eLevel : Status := 0x010B
def eParam : Status := 0x0201
def eFormat : Status := 0x0202
def eBlockShape : Status := 0x0203
def eTileGeom : Status := 0x0204
def eSplitGeom : Status := 0x0205
def eOperandLoc : Status := 0x0206
def eInstr : Status := 0x0207
def eOcAlloc : Status := 0x0208
def eContactDesc : Status := 0x0209
def eGenDesc : Status := 0x020A
def eFootprint : Status := 0x020B
def eTooLong : Status := 0x020C
def eEvalInTrain : Status := 0x020D
def eImage : Status := 0x020E
def eHandle : Status := 0x020F
def eNoVariant : Status := 0x0210
def eBusy : Status := 0x0301
def eErgFull : Status := 0x0302
def eLpFull : Status := 0x0303
def eKvFull : Status := 0x0304
def eStashFull : Status := 0x0305
def eSlots : Status := 0x0306
def eCgBusy : Status := 0x0307
def eSliceBusy : Status := 0x0308
def eWindowBusy : Status := 0x0309
def eGranuleBusy : Status := 0x030A
def eSharedState : Status := 0x030B
def eAccess : Status := 0x0401
def eLocalRange : Status := 0x0402
def eAlign : Status := 0x0403
def eStreamDesc : Status := 0x0404
def eTeDesc : Status := 0x0405
def eIndex : Status := 0x0406
def eTargets : Status := 0x0407
def eMemUncorr : Status := 0x0408
def eIncomplete : Status := 0x0409
def ePairFailed : Status := 0x040A
def eLinkDown : Status := 0x040B
def eItemOpen : Status := 0x040C
def eHwFault : Status := 0x040D
end St

end Sys2Proof
end

