-- ==== Sys2Proof/Syntax.lean ====
section
/-! DEFINITION. The commands of the module: one constructor for each row of spec/opcode_table.json, with its operands, and the descriptors those operands are made of. -/

namespace Sys2Proof

/-- The packet header of R315 with the prefix of R317; the opcode is the constructor's. -/
structure Hdr where
  ptn : PtnId := 0
  queue : QueueId := 0
  steward : Bool := false
  seq : W32 := 0
  /-- The port the packet arrived on. -/
  port : UpId := 0
  /-- LEVEL: true is expert. -/
  expert : Bool := false
  nopreempt : Bool := false
  replyPort : BitVec 2 := 0
  fence : Bool := false
  tag : W32 := 0
  /-- TARGET_PTN (R317). -/
  target : PtnId := 0
deriving DecidableEq, Repr

/-- A scalar-core instruction word without its OP, which is the constructor (R113). -/
structure IWord where
  i : Bool := false
  type : BitVec 4 := 0
  d : BitVec 5 := 0
  a : BitVec 5 := 0
  b : BitVec 5 := 0
  pred : BitVec 3 := 0
  mz : Bool := false
  patch : Bool := false
  imm : W32 := 0
deriving DecidableEq, Repr

/-- Run descriptor (R74). -/
structure RunDesc where
  fmt : BitVec 2 := 0
  passes : BitVec 2 := 1
  turnS : Bool := false
  turnW : Bool := false
  keepW : Bool := false
  /-- ACC_MODE: true is INIT. -/
  accInit : Bool := false
  accBase : BitVec 3 := 0
  tileEnd : Bool := false
  mRows : BitVec 9 := 0
  nCols : BitVec 6 := 0
  kDepth : BitVec 7 := 0
  rsv : BitVec 30 := 0
  sTensor : W16 := 0
  wTensor : W16 := 0
  sRow : W32 := 0
  kOff : W32 := 0
  nOff : W32 := 0
deriving DecidableEq, Repr

/-- The value of a register write, and the W1C bits of the register that hardware sets in the write's cycle, lowest first (R8). -/
structure RegVal where
  v : W64 := 0
  anew : BitVec 2 := 0
deriving DecidableEq, Repr

/-- Tensor descriptor (R345); `rsvBits` holds the reserved bits, which must be zero. -/
structure TensorDesc where
  type : BitVec 4 := 5
  shape : BitVec 3 := 0
  slices : BitVec 2 := 0
  trainable : Bool := false
  bind : Bool := false
  shared : Bool := false
  bindIndex : W16 := 0
  rows : W32 := 0
  cols : W32 := 0
  addr : W48 := 0
  scaleAddr : W48 := 0
  rsvBits : Nat := 0
deriving DecidableEq, Repr

/-- Split descriptor (R107). -/
structure SplitDesc where
  mode : BitVec 2 := 0
  parts : BitVec 2 := 1
  accBase : BitVec 3 := 0
  tiles : BitVec 3 := 0
  rsv : BitVec 54 := 0
  partMc : List Byte := []
deriving DecidableEq, Repr

/-- Table-engine request descriptor (R266). -/
structure TeReq where
  op : BitVec 4 := 0
  type : BitVec 4 := 8
  shape : BitVec 3 := 0
  srcSpace : BitVec 2 := 0
  dstSpace : Bool := false
  poolOp : BitVec 2 := 0
  accDst : Bool := false
  cont : Bool := false
  finish : Bool := false
  order : Bool := false
  post : Bool := false
  sem : Byte := 0
  rowElems : W16 := 1
  kM1 : BitVec 10 := 0
  tableAddr : W48 := 0
  indexAddr : W48 := 0
  dataAddr : W48 := 0
  auxAddr : W48 := 0
  weightAddr : W48 := 0
  tableRows : W32 := 0
  count : W32 := 1
  indexBase : W32 := 0
  scale : W32 := 0
  rsvBits : Nat := 0
deriving DecidableEq, Repr

/-- Contact descriptor (R145). -/
structure ContactDesc where
  family : BitVec 2 := 0
  rankLoss : BitVec 2 := 0
  pointKind : Bool := false
  /-- TSRC: true is STORED. -/
  tsrc : Bool := false
  storeOut : Bool := false
  storeTargets : Bool := false
  taps : BitVec 4 := 0
  kM1 : BitVec 10 := 0
  temp : W32 := 0x3F800000
  klWeight : W32 := 0x3F800000
  vocab : W32 := 0
  tokens : W32 := 0
  lanes : W16 := 0
  tapRows : W16 := 0
  targetAddr : W48 := 0
  maskAddr : W48 := 0
  outAddr : W48 := 0
  tableAddr : W48 := 0
  rsvBits : Nat := 0
deriving DecidableEq, Repr

/-- Qorea endpoint (R363). -/
structure Endpoint where
  node : BitVec 13 := 0
  /-- KIND: 0x01 partition of a module, 0x02 store. -/
  kind : Byte := 2
  ptn : BitVec 5 := 0
  enc : Bool := false
  keyId : Byte := 0
  object : W64 := 0
  rsvBits : Nat := 0
deriving DecidableEq, Repr

/-- Optimiser immediates (R196, R330), each a binary32 pattern. -/
structure Opt where
  gradScale : W32 := 0x3F800000
  b1 : W32 := 0
  c1 : W32 := 0
  b2 : W32 := 0
  c2 : W32 := 0
  eps : W32 := 0
  lrT : W32 := 0
  wd : W32 := 0
deriving DecidableEq, Repr

/-- Request descriptor of a generation request (R199). -/
structure GenReq where
  model : W16 := 0
  draft : W16 := 0xFFFF
  fallback : W16 := 0xFFFF
  /-- SAMPLE: true is SEEDED. -/
  sample : Bool := false
  customerTag : W32 := 0
  temp : W32 := 0x3F800000
  seed : W64 := 0
  maxTokens : W32 := 1
  deadlineUs : W32 := 0
  promptAddr : W48 := 0
  promptLen : W32 := 1
  stopToken : W32 := 0xFFFFFFFF
  rsvBits : Nat := 0
deriving DecidableEq, Repr

/-- The basic-level block of DISTILL_STEP and EVAL (R330). -/
structure StepBlock where
  teacher : W16 := 0xFFFF
  student : W16 := 0
  mbCount : W16 := 1
  update : Bool := false
  adamw : Bool := false
  mbTokens : W32 := 64
  group : W32 := 0xFFFFFFFF
  batchAddr : W64 := 0
  contact : ContactDesc := {}
  opt : Opt := {}
deriving DecidableEq, Repr

/-- The expert-level block shared by DISTILL_STEP, EVAL, PROG_RUN, FWD_MB and BWD_MB (R331). -/
structure ProgBlock where
  program : W16 := 0x8000
  entry : W16 := 0
  /-- SR_STREAM as sent: bit 31 says whether [23:0] replaces the default. -/
  srStream : W32 := 0
  mbId : W32 := 0
  contact : ContactDesc := {}
  opt : Opt := {}
  binds : List W64 := []
deriving DecidableEq, Repr

/-- GROUP_SET parameter block (R370). -/
structure GroupBlock where
  group : W32 := 0
  self : W16 := 0
  epoch : W64 := 1
  bucketLog2 : Byte := 20
  /-- PFORMAT: true is binary16. -/
  pformat : Bool := false
  thin : Bool := false
  feedback : Bool := false
  enc : Bool := false
  rank : Byte := 0
  keyId : Byte := 0
  timeoutMs : W16 := 0
  /-- MEMBER list: node and partition. -/
  members : List (BitVec 13 × BitVec 5) := []
deriving DecidableEq, Repr

/-- BUDGET_SET record (R326, R327). -/
structure BudgetRec where
  tag : W32 := 0
  tokens : W64 := 0
  intervalUs : W64 := 0
deriving DecidableEq, Repr

/-- Unlock token (R461). -/
structure Token where
  magic : W32 := 0x4B535141
  scope : W32 := 0
  ueid : List Byte := []
  challenge : List Byte := []
  ptnMask : W32 := 0
  durationS : W32 := 1
  sig : List Byte := []
deriving DecidableEq, Repr

/-- A link frame from the control node (R312): whether it arrived intact, how many of the module's oldest
unacknowledged messages it acknowledges in full, and the link credits it returns. -/
structure LinkFrame where
  intact : Bool := true
  acks : Nat := 0
  credits : Nat := 0
deriving DecidableEq, Repr

/-- Header fields of a Qorea packet that its receiver uses (R362). -/
structure QHdr where
  dstPtn : PtnId := 0
  srcNode : BitVec 13 := 0
  srcPtn : BitVec 5 := 0
  enc : Bool := false
  last : Bool := false
  xfer : W32 := 0
  keyId : Byte := 0
  offset : W64 := 0
  pktNum : W64 := 0
deriving DecidableEq, Repr

/-- Header of a group packet's payload: GROUP, EPOCH and ROUND (R362). -/
structure GHdr where
  group : W32 := 0
  epoch : W64 := 1
  round : W64 := 1
deriving DecidableEq, Repr

/-- A flit as received (R351): the three words of CTRL that matter, whether its CRC and codewords were good, and its payload. -/
structure Flit where
  good : Bool := true
  fseq : BitVec 12 := 0
  ackSeq : BitVec 12 := 0
  vl : BitVec 4 := 0
  /-- FKIND: 0 DATA, 1 IDLE, 2 NAK, 3 CREDIT. -/
  fkind : BitVec 2 := 0
  /-- Codewords the forward error correction corrected, and found uncorrectable, with this flit (R350). -/
  fecCe : Nat := 0
  fecUe : Nat := 0
deriving DecidableEq, Repr

/-- What a unit's strip gave: none when every signature matched, or the lowest failing signature index (R512). -/
abbrev StripResult := Option (BitVec 32)

/-- A sequencer step's compare operands (R347, CMP). -/
structure CmpStep where
  a : W16 := 0
  slotA : BitVec 4 := 0
  rel : BitVec 3 := 0
  /-- FL bit 3: compare with summary B.SLOT_B instead of IMM. -/
  withB : Bool := false
  b : W16 := 0
  slotB : BitVec 4 := 0
  imm : W32 := 0
deriving DecidableEq, Repr

/-- Readings the platform reports in one DUTY_CONTROL comparison (R476), and in one TEMP_SAMPLE (R479). -/
structure Readings where
  powerW : Nat := 0
  /-- Hottest die sensor, in units of 1/16 degree C. -/
  dies : List (BitVec 16) := []
  ergs : List (BitVec 16) := []
  lpMax : BitVec 16 := 0
  optMax : BitVec 16 := 0
  vIn : BitVec 16 := 0
  vStby : BitVec 16 := 0
  pStby : BitVec 16 := 0
  energyMj : W64 := 0
deriving DecidableEq, Repr

/-- The commands, in the order of spec/opcode_table.json. -/
inductive Instr where
  -- Uapra links and admission
  | packetArrival (port : UpId) (bytes : List Byte)
  | uapraFrame (port : UpId) (f : LinkFrame)
  | uapraFrameRetry (port : UpId)
  | uapraRetrain (port : UpId) (up : Bool)
  -- command packets (R325)
  | nop (h : Hdr)
  | ptnCreate (h : Hdr) (cgMask : W32) (qEnable : Byte) (keyLabel : W64)
  | ptnDestroy (h : Hdr)
  | cgAlloc (h : Hdr) (cgMask : W32)
  | cgRelease (h : Hdr) (cgMask : W32)
  | cgReleaseEffect (p : PtnId) (cg : CgId)
  | ptnReset (h : Hdr)
  | regRead (h : Hdr) (addrs : List W64)
  | regWrite (h : Hdr) (writes : List (W64 × RegVal))
  | acctRead (h : Hdr) (first count : W16)
  | acctClear (h : Hdr) (all : Bool) (tag : W32)
  | attestQuote (h : Hdr) (nonce : List Byte) (chain : Bool)
  | keyExchange (h : Hdr) (mode : Byte) (slot srcSlot : Byte) (data : List Byte)
  | looseGrant (h : Hdr) (slice : W16)
  | looseRelease (h : Hdr) (slice : W16)
  | memGrant (h : Hdr) (w count : W16) (named keep : Bool) (granules : List W16)
  | memRelease (h : Hdr) (w count : W16)
  | sharedMap (h : Hdr) (w : W16)
  | sharedUnmap (h : Hdr)
  | sharedLoad (h : Hdr) (ep : Endpoint) (bytes : W64) (data : List Byte)
  | sharedSeal (h : Hdr)
  | sharedClear (h : Hdr)
  | dataIn (h : Hdr) (ep : Endpoint) (addr bytes : W64)
  | dataOut (h : Hdr) (ep : Endpoint) (addr bytes : W64)
  | modelLoad (h : Hdr) (addr bytes : W64) (flags : W32) (kvPoolGib : W16)
  | modelUnload (h : Hdr) (handle : W16)
  | variantLoad (h : Hdr) (model : W16) (tag : W32) (addr bytes : W64)
  | variantUnload (h : Hdr) (model : W16) (tag : W32)
  | tableOp (h : Hdr) (reqs : List TeReq)
  | distillStep (h : Hdr) (b : StepBlock) (x : ProgBlock)
  | fwdMb (h : Hdr) (x : ProgBlock)
  | bwdMb (h : Hdr) (x : ProgBlock)
  | mbRelease (h : Hdr) (ids : List W32)
  | update (h : Hdr) (model set : W16) (adamw : Bool) (group : W32) (opt : Opt)
  | eval (h : Hdr) (b : StepBlock) (x : ProgBlock)
  | genSubmit (h : Hdr) (program entry : W16) (reqs : List GenReq)
  | genCancel (h : Hdr) (seq : W32) (item : W16)
  | budgetSet (h : Hdr) (recs : List BudgetRec)
  | budgetRead (h : Hdr) (first count : W16)
  | groupSet (h : Hdr) (g : GroupBlock)
  | groupLeave (h : Hdr) (group : W32)
  | routeSet (h : Hdr) (portMask : W64) (first count : W16) (value : Byte)
  | reduce (h : Hdr) (group : W32) (outB16 : Bool) (elems src dst : W64)
  | ckptSave (h : Hdr) (store : Endpoint) (toStore toPartner : Bool) (timeoutMs : W16)
  | ckptRestore (h : Hdr) (source : Endpoint) (num : W32)
  | partnerSet (h : Hdr) (role : Byte) (override : Bool) (peer : Endpoint) (addr bytes : W64)
  | negativeShip (h : Hdr) (model set : W16) (dest : Endpoint)
  | progLoad (h : Hdr) (addr bytes : W64)
  | progUnload (h : Hdr) (handle : W16)
  | progRun (h : Hdr) (x : ProgBlock)
  | pwrState (h : Hdr) (target scope : Byte) (cgMask : W32)
  | telemetryRead (h : Hdr)
  | pwrLimit (h : Hdr) (limitW : W16)
  | stripNow (h : Hdr) (cgMask : W32) (revive cores engines : Bool)
  | faultLogRead (h : Hdr) (firstMen : W64) (count : W16)
  | faultLogClear (h : Hdr) (upToMen : W64)
  | safelightUnlock (h : Hdr) (mode : Byte) (t : Token)
  | echo (h : Hdr) (bytes : List Byte)
  -- register writes with behaviour of their own: the header of the REG_WRITE that carries them, and the value
  | ptnNumModeWrite (h : Hdr) (p : PtnId) (v : W64)
  | ptnStashCfgWrite (h : Hdr) (p : PtnId) (v : W64)
  | ptnSpillBaseWrite (h : Hdr) (p : PtnId) (v : W64)
  | ptnQCfgWrite (h : Hdr) (p : PtnId) (q : QueueId) (v : W64)
  | ptnSchedCfgWrite (h : Hdr) (p : PtnId) (v : W64)
  | ptnServeCfgWrite (h : Hdr) (p : PtnId) (v : W64)
  | ptnReplyCfgWrite (h : Hdr) (p : PtnId) (v : W64)
  | ptnMemSlotsWrite (h : Hdr) (p : PtnId) (v : W64)
  | ptnSemCountWrite (h : Hdr) (p : PtnId) (sem : SemId) (v : RegVal)
  | ptnViolInfoClear (h : Hdr) (p : PtnId) (v : RegVal)
  | modMemCfgWrite (h : Hdr) (v : W64)
  | modSharedLabelWrite (h : Hdr) (v : W64)
  | modFabricWrite (h : Hdr) (v : W64)
  | qlnkEnable (h : Hdr) (qp : QpId) (v : W64)
  | qlnkResWrite (h : Hdr) (qp : QpId) (p : PtnId) (v : W64)
  | qoreaLinkReset (h : Hdr) (qp : QpId) (v : W64)
  | uapraLinkReset (h : Hdr) (up : UpId) (v : W64)
  | pwrCfgWrite (h : Hdr) (v : W64)
  | safStatusClear (h : Hdr) (v : W64) (newFault newAlert : Bool)
  | registerWrite (h : Hdr) (addr v : W64)
  -- scalar-core instructions (R118): the thread that issues, and the word
  | nopInstruction (t : ThreadId) (w : IWord)
  | mov (t : ThreadId) (w : IWord)
  | add (t : ThreadId) (w : IWord)
  | sub (t : ThreadId) (w : IWord)
  | mul (t : ThreadId) (w : IWord)
  | and (t : ThreadId) (w : IWord)
  | or (t : ThreadId) (w : IWord)
  | xor (t : ThreadId) (w : IWord)
  | shl (t : ThreadId) (w : IWord)
  | shr (t : ThreadId) (w : IWord)
  | sra (t : ThreadId) (w : IWord)
  | imin (t : ThreadId) (w : IWord)
  | imax (t : ThreadId) (w : IWord)
  | scl (t : ThreadId) (w : IWord)
  | fadd (t : ThreadId) (w : IWord)
  | fsub (t : ThreadId) (w : IWord)
  | fmul (t : ThreadId) (w : IWord)
  | ffma (t : ThreadId) (w : IWord)
  | fdiv (t : ThreadId) (w : IWord)
  | fsqrt (t : ThreadId) (w : IWord)
  | fmax (t : ThreadId) (w : IWord)
  | fmin (t : ThreadId) (w : IWord)
  | fabs (t : ThreadId) (w : IWord)
  | fneg (t : ThreadId) (w : IWord)
  | exp2 (t : ThreadId) (w : IWord)
  | log2 (t : ThreadId) (w : IWord)
  | ceq (t : ThreadId) (w : IWord)
  | cne (t : ThreadId) (w : IWord)
  | clt (t : ThreadId) (w : IWord)
  | cle (t : ThreadId) (w : IWord)
  | cun (t : ThreadId) (w : IWord)
  | cgt (t : ThreadId) (w : IWord)
  | cge (t : ThreadId) (w : IWord)
  | sel (t : ThreadId) (w : IWord)
  | kand (t : ThreadId) (w : IWord)
  | kor (t : ThreadId) (w : IWord)
  | knot (t : ThreadId) (w : IWord)
  | cvt (t : ThreadId) (w : IWord)
  | ld (t : ThreadId) (w : IWord)
  | st (t : ThreadId) (w : IWord)
  | prom (t : ThreadId) (w : IWord)
  | scvt (t : ThreadId) (w : IWord)
  | sred (t : ThreadId) (w : IWord)
  | smove (t : ThreadId) (w : IWord)
  | atx (t : ThreadId) (w : IWord)
  | tereq (t : ThreadId) (w : IWord)
  | tewait (t : ThreadId) (w : IWord)
  | br (t : ThreadId) (w : IWord)
  | bar (t : ThreadId) (w : IWord)
  | swait (t : ThreadId) (w : IWord)
  | spost (t : ThreadId) (w : IWord)
  | sumry (t : ThreadId) (w : IWord)
  | endThread (t : ThreadId) (w : IWord)
  | loadReturn (t : ThreadId) (k : Fin 8)
  | streamDone (t : ThreadId)
  | barRelease (launch : Nat) (mc : McId)
  | semaphoreAcquire (p : PtnId) (sem : SemId)
  -- table engines (R268): the engine, and the place of the request in its list
  | gather (te : TeId) (k : Nat)
  | pool (te : TeId) (k : Nat)
  | scatterAdd (te : TeId) (k : Nat)
  | topk (te : TeId) (k : Nat)
  | lse (te : TeId) (k : Nat)
  | teRequestComplete (te : TeId) (k : Nat)
  -- sequencer steps (R347) of the command running on queue q of partition p
  | plan (p : PtnId) (q : QueueId) (a : W16) (wait : Bool)
  | launch (p : PtnId) (q : QueueId) (a : W16) (wait : Bool)
  | wait (p : PtnId) (q : QueueId) (a : W16) (isPlan : Bool)
  | cmp (p : PtnId) (q : QueueId) (c : CmpStep)
  | brt (p : PtnId) (q : QueueId) (a : W16)
  | jmp (p : PtnId) (q : QueueId) (a : W16)
  | copy (p : PtnId) (q : QueueId) (a b : W16) (slotA slotB : BitVec 4)
  | setc (p : PtnId) (q : QueueId) (c : BitVec 3) (imm : W32)
  | decb (p : PtnId) (q : QueueId) (c : BitVec 3) (b : W16)
  | endItem (p : PtnId) (q : QueueId) (b : W16) (code : Status)
  | programEnd (p : PtnId) (q : QueueId)
  | launchComplete (launch : Nat)
  -- plan records (R346) executed for a core of the command running on queue q
  | run (p : PtnId) (q : QueueId) (item : W16) (mc : McId) (d : RunDesc) (s w : TensorDesc)
  | runRelease (mc : McId)
  | split (p : PtnId) (q : QueueId) (d : SplitDesc)
  | splitHandoff (p : PtnId) (q : QueueId) (part level : Nat)
  | waitSem (p : PtnId) (q : QueueId) (mc : McId) (sem : SemId)
  | postSem (p : PtnId) (q : QueueId) (mc : McId) (sem : SemId)
  -- scheduling (R291 to R309); ns is the time to charge to the job
  | sliceEnd (p : PtnId) (q : QueueId) (ns : Nat)
  | stopBathHandover (p : PtnId) (q : QueueId) (ns : Nat)
  | restoreComplete (p : PtnId) (q : QueueId) (ns switchUs : Nat)
  | stashFill (p : PtnId) (mb : W32)
  | updateBufferAcquire (p : PtnId) (model set : W16)
  | contactFinalise (p : PtnId) (q : QueueId) (block : Nat)
  | genStep (p : PtnId) (model : W16)
  | stepCommit (p : PtnId) (model : W16) (failed : Option Status) (nowUs : Nat)
  | chunkComplete (p : PtnId) (stream : Nat) (failed : Option Status) (nowUs : Nat)
  | budgetRefill (p : PtnId) (tag : W32)
  -- faults
  | stripDue (mc : McId)
  | stripStart (mc : McId)
  | stripEnd (mc : McId) (r : StripResult) (stamp : W64)
  | teStripEnd (te : TeId) (r : StripResult) (stamp : W64)
  | heartbeatMissed (isTe : Bool) (unit : McId) (stamp : W64)
  | psLockstepMismatch (p : PtnId) (stamp : W64) (within1s : Bool)
  | stewardLockstepMismatch (stamp : W64) (within1s : Bool)
  | stewardRestartComplete
  | descCrcMismatch (p : PtnId) (q : QueueId) (item : W16) (isTe : Bool) (unit : McId) (stamp : W64)
  | windowMismatch (p : PtnId) (q : QueueId) (item : W16) (stamp : W64)
  | dieLinkDown (a b : DieId) (stamp : W64)
  | patrolScrub (addr : W64) (double : Bool) (single : Bool) (passDone : Bool) (stamp : W64)
  | slotWheelBoundary
  -- Qorea (12_qorea_fabric.md)
  | flitReceive (qp : QpId) (f : Flit)
  | nak (qp : QpId) (fseq : BitVec 12) (stamp : W64)
  | qoreaSilentTimeout (qp : QpId) (stamp : W64)
  | trainingStepTimeout (qp : QpId) (lanes : BitVec 8)
  | data (qp : QpId) (h : QHdr) (bytes : List Byte)
  | read (qp : QpId) (h : QHdr) (len : Nat)
  | ack (qp : QpId) (p : PtnId) (cls : Fin 4) (pktNum : W64)
  | join (qp : QpId) (h : QHdr) (g : GHdr) (roundTotal : W64)
  | exp (qp : QpId) (h : QHdr) (g : GHdr) (bucket : Nat) (e : BitVec 16) (nonfinite : Bool)
  | scale (qp : QpId) (h : QHdr) (g : GHdr) (bucket : Nat) (f : BitVec 16) (mark : BitVec 2)
  | grad (qp : QpId) (h : QHdr) (g : GHdr) (bucket : Nat) (vals : List W32)
  | bucketClose (p : PtnId) (group : W32) (bucket : Nat)
  | param (qp : QpId) (h : QHdr) (g : GHdr) (bucket : Nat) (vals : List W32)
  | absent (qp : QpId) (h : QHdr) (g : GHdr)
  | abort (qp : QpId) (h : QHdr) (g : GHdr)
  | groupTimeout (p : PtnId) (group : W32)
  -- Fixer (13_checkpoints_and_recovery.md)
  | ckData (qp : QpId) (h : QHdr) (bytes : List Byte)
  | ckEnd (qp : QpId) (h : QHdr) (num : W32) (total : W64) (digest : List Byte)
  | ckAck (qp : QpId) (h : QHdr) (num : W32) (status : W16) (digest : List Byte)
  | ckRead (qp : QpId) (h : QHdr) (num : W32) (offset : W64) (len : Nat)
  | ckRdata (qp : QpId) (h : QHdr) (bytes : List Byte)
  | hello (qp : QpId) (h : QHdr) (feed : BitVec 4) (size : W64)
  | helloAck (qp : QpId) (h : QHdr) (feed : BitVec 4) (status : W16) (half : W64)
  | helloTimeout (p : PtnId)
  | negData (qp : QpId) (h : QHdr) (bytes : List Byte)
  | negEnd (qp : QpId) (h : QHdr) (total : W64) (sha : List Byte)
  | negAck (qp : QpId) (h : QHdr) (status : W16)
  | copyTimeout (p : PtnId) (partner : Bool)
  | restoreSourceTimeout (p : PtnId)
  -- clocks, power and reset (16_clocks_power_reset.md, 17_module_electrical.md)
  | cgL1Entry (cg : CgId)
  | moduleL1Entry
  | moduleL2Entry
  | moduleL3Entry
  | avsRetry (bus : Fin 5) (stamp : W64)
  | wakeBurst (port : Fin 50)
  | wakeNInput
  | dutyControl (r : Readings) (stamp : W64)
  | tempSample (r : Readings) (stamp : W64)
  | inputLow (stamp : W64)
  | undervoltageLockout
  | railFault (rail : Fin 24) (stamp : W64)
  | refLost (stamp : W64)
  | pllUnlock (stamp : W64)
  | pwrgdInRise
  | pwrgdInFall
  | modRstNFall
  | modRstNRise
  | moduleWarmReset (cause : Byte)
  | coldReset (cause : Byte)
  | safelightChallengeExpiry
  | safelightExpiry
  | drbgReseed
  | i3cRegRead (addr : W64)
  | i3cRegWrite (addr : W64) (v : RegVal)
  | flashRead (off : W32) (len : W16)
  | flashWrite (off : W32) (bytes : List Byte)
  | flashErase (off : W32)
  | i3cStatus
  | bypass
  | idcode
  | samplePreload
  | extest
  | partitionResetComplete (p : PtnId)
  | linkTrained (qp : QpId) (peerNode : BitVec 13)
  | refRestored
  | inputRestored
  | standbyInputLoss
  | standbyInputReturn
  | stashFillComplete (p : PtnId) (mb : W32)
  | regulatorTransitionComplete (bus : Fin 5) (readbackOk : Bool) (last : Bool)
  | flashOperationComplete
  | safelightDebugAccess (scopeBit : Fin 5) (p : PtnId) (mc : McId) (addr : W64) (write : Option W64)
  | setdasa (addr : BitVec 7)
  | entdaa (addr : BitVec 7)
deriving DecidableEq, Repr

end Sys2Proof
end

