-- ==== Sys2Proof/Config.lean ====
section
/-! DEFINITION. What one module fixes and the spec leaves open: free values, constants with no body (DESIGN CHOICE, log entries 3 and 4). -/

namespace Sys2Proof.Config

/-- What a byte of LPDDR5X that nothing has written stores, by device address. -/
opaque dramByte : Nat → Byte

/-- The check byte of a stored word: the spec gives the (72,64) code no matrix (R248, R261). -/
opaque checkByte : W64 → Byte

/-- A payload byte combined with the key stream of a traffic-key slot that holds no key (R389): the slot, PKT_NUM, the place of the byte, and the payload. -/
opaque keylessByte : Nat → W64 → Nat → List Byte → Byte

/-- The module's random generator (R450): 32 bytes for each draw. -/
opaque randomByte : Nat → Fin 32 → Byte

/-- A value the spec leaves open: the number of the draw, and an index within it. -/
opaque free : Nat → Nat → Nat

/-- A compute die's operating point, in millivolts above 700, as its characterisation data gives it (R470). -/
opaque operatingPoint : Nat → Fin 151

/-- Start-up state of a cell of the PUF array at a boot (R448). -/
opaque pufCell : Nat → Nat → Bool

/-- Contents of the boot flash as delivered (R447). -/
opaque flashByte : Nat → Byte

/-- The Synartum firmware root public key in the boot ROM (R452). -/
opaque fwRootKey : Fin 64 → Byte

/-- A value of the firmware's kernels for a model's layers, which the spec does not give: the command's draw, the kind of value, and two indices. -/
opaque kernelWord : Nat → Nat → Nat → Nat → W32

/-- A gated activation, and its derivatives in the gate and in the up value: the operands, and for the derivatives the gradient that arrives. -/
opaque gated : W32 → W32 → W32
opaque gatedGate : W32 → W32 → W32 → W32
opaque gatedUp : W32 → W32 → W32 → W32

/-- A router's j-th expert for a token and its weight, from the token's scores; and the gradient of its scores. -/
opaque routerExpert : List W32 → Nat → Nat
opaque routerWeight : List W32 → Nat → W32
opaque routerGrad : List W32 → Nat → W32

/-- An element of a variant's Q6 working copy, with its scale in [15:8]: the variant's hash, a tensor, and the element. -/
opaque variantElem : List Byte → Nat → Nat → W16

/-- Whether an expert program, by its image's hash, reads a weight set: model and set. -/
opaque readsSet : List Byte → Nat → Nat → Bool

/-- First position of the sequence of a batch's token: the batch, by its command's draw, and the token. -/
opaque seqStart : Nat → Nat → Nat

/-- What an expert program's step kernels give for vocabulary entry v after a sequence of tokens, a function of what R209 names: images, weight versions and the index of a switch; variant version; the chunk cut; the tokens. -/
opaque logit : List Byte → W64 → Nat → List W32 → Nat → W32

/-- Element e of the output of a head's attention in a decode or verify step: the score factor, the query, and the keys and values it sees. -/
opaque decodeAttend : W32 → List W32 → List (List W32) → List (List W32) → Nat → W32

/-- A draft model's proposal from its logits (R207), and a verifier's choice where no entry qualifies (R208). -/
opaque draftToken : List W32 → W32
opaque noToken : List W32 → W32

/-- What BALANCE holds of a sum outside its 64 bits (R217). -/
opaque wideBalance : Int → BitVec 64

/-- TCG DiceTcbInfo as R451 fills it. -/
structure TcbInfo where
  vendor : List Byte
  model : List Byte
  version : W32
  svn : W32
  fwids : List (List Byte)
  deriving DecidableEq, Repr

/-- What R451 says of a certificate that the module issues; keys are X ‖ Y. -/
structure CertInfo where
  subjectKey : List Byte
  serial : List Byte
  notAfter : List Byte
  cn : List Byte
  /-- The serialNumber attribute of the subject. -/
  subjectSerial : Option (List Byte) := none
  /-- basicConstraints: the pathLen of a CA. -/
  caPathLen : Option Nat := none
  keyCertSign : Bool := false
  digitalSignature : Bool := false
  tcbInfo : Option TcbInfo := none
  subjectKeyId : List Byte
  authorityKeyId : List Byte
  deriving DecidableEq, Repr

/-- The DER bytes of a certificate's signed part: R451 gives neither notBefore, the issuer's name nor the order of extensions. -/
opaque tbsCertificate : CertInfo → List Byte

/-- The own number of the signature of a certificate, by the boot in which it was issued and its signed part. -/
opaque certNonce : Nat → List Byte → Nat

end Sys2Proof.Config
end

