-- ==== Sys2Proof/Machine/Tab.lean ====
section
/-! DEFINITION. Tables: finite maps from numbers with a default, kept in one canonical form (keys strictly rising, no entry equal to the default), so that equal tables are equal data. Memory is the table of bytes whose default is zero. -/

namespace Sys2Proof.Machine

/-- A table: what an unlisted key reads as is given where it is read or written. -/
abbrev Tab (α : Type) := List (Nat × α)

/-- The value at key `k`; `d` where the table lists none. -/
def Tab.get {α : Type} (d : α) : Tab α → Nat → α
  | [], _ => d
  | (a, v) :: r, k => if a = k then v else Tab.get d r k

/-- Writes `v` at `k`; writing the default removes the entry. -/
def Tab.put {α : Type} [DecidableEq α] (d : α) : Tab α → Nat → α → Tab α
  | [], k, v => if v = d then [] else [(k, v)]
  | (a, x) :: r, k, v =>
    if k < a then (if v = d then (a, x) :: r else (k, v) :: (a, x) :: r)
    else if k = a then (if v = d then r else (k, v) :: r)
    else (a, x) :: Tab.put d r k v

/-- Every key of the table is above `lo`, the keys rise strictly, and no value is the default. -/
def Tab.wfFrom {α : Type} [DecidableEq α] (d : α) (lo : Option Nat) : Tab α → Bool
  | [] => true
  | (a, v) :: r => (match lo with | none => true | some l => decide (l < a)) && decide (v ≠ d) && Tab.wfFrom d (some a) r

/-- The canonical form of a table. -/
def Tab.wf {α : Type} [DecidableEq α] (d : α) (t : Tab α) : Bool := Tab.wfFrom d none t

/-- Changes the value at `k`. -/
def Tab.upd {α : Type} [DecidableEq α] (d : α) (t : Tab α) (k : Nat) (f : α → α) : Tab α :=
  Tab.put d t k (f (Tab.get d t k))

/-- Removes the keys that `p` holds of. -/
def Tab.dropKeys {α : Type} (p : Nat → Bool) : Tab α → Tab α
  | [] => []
  | (a, v) :: r => if p a then Tab.dropKeys p r else (a, v) :: Tab.dropKeys p r

/-- Changes every value listed; one that becomes the default is no longer listed. -/
def Tab.mapVals {α : Type} [DecidableEq α] (d : α) (f : α → α) : Tab α → Tab α
  | [] => []
  | (a, v) :: r => if f v = d then Tab.mapVals d f r else (a, f v) :: Tab.mapVals d f r

/-- How many values listed `p` holds of. -/
def Tab.count {α : Type} (p : α → Bool) (t : Tab α) : Nat := (t.filter fun kv => p kv.2).length

/-- Writes a list of values at consecutive keys. -/
def Tab.putList {α : Type} [DecidableEq α] (d : α) : Tab α → Nat → List α → Tab α
  | t, _, [] => t
  | t, k, v :: vs => Tab.putList d (Tab.put d t k v) (k + 1) vs

/-- `n` values at consecutive keys from `k`. -/
def Tab.getList {α : Type} (d : α) (t : Tab α) (k : Nat) : Nat → List α
  | 0 => []
  | n + 1 => Tab.get d t k :: Tab.getList d t (k + 1) n

/-- Changes the `n`-th entry of a list, if there is one. -/
def updNth {α : Type} (f : α → α) : List α → Nat → List α
  | [], _ => []
  | a :: r, 0 => f a :: r
  | a :: r, n + 1 => a :: updNth f r n

/-- Changes the first entry that `p` holds of. -/
def updFirst {α : Type} (p : α → Bool) (f : α → α) : List α → List α
  | [] => []
  | a :: r => if p a then f a :: r else a :: updFirst p f r

/-- Removes the first entry that `p` holds of. -/
def dropFirst {α : Type} (p : α → Bool) : List α → List α
  | [] => []
  | a :: r => if p a then r else a :: dropFirst p r

/-- Little-endian bytes to a number (R2). -/
def leNat : List Byte → Nat
  | [] => 0
  | b :: r => b.toNat + 256 * leNat r

/-- A number's `n` little-endian bytes (R2). -/
def leBytes : Nat → Nat → List Byte
  | 0, _ => []
  | n + 1, v => BitVec.ofNat 8 v :: leBytes n (v / 256)

/-- Bits [lo + w - 1 : lo] of a number. -/
def bits (v lo w : Nat) : Nat := (v >>> lo) % 2 ^ w

/-- Bit `i` of a number. -/
def bitAt (v i : Nat) : Bool := (v >>> i) % 2 = 1

/-- `n` placed at bit `lo`. -/
def at' (lo n : Nat) : Nat := n <<< lo

/-- 1 for true. -/
def b2n (b : Bool) : Nat := if b then 1 else 0

/-- The round-up quotient; 0 by 0. -/
def ceilDiv (a b : Nat) : Nat := (a + b - 1) / b

/-- Addition that holds at `2 ^ w - 1` once it is reached. -/
def satAdd (w v n : Nat) : Nat := min (v + n) (2 ^ w - 1)

/-- A saturating register counter. -/
def satInc {w : Nat} (x : BitVec w) (n : Nat := 1) : BitVec w := BitVec.ofNat w (satAdd w x.toNat n)

/-- Number of bits set among the lowest `w`. -/
def popcount (v : Nat) : Nat → Nat
  | 0 => 0
  | w + 1 => b2n (bitAt v w) + popcount v w

/-- The numbers below `w` whose bit is set, ascending. -/
def setBits (v w : Nat) : List Nat := (List.range w).filter (bitAt v ·)

end Sys2Proof.Machine
end

