-- ==== Sys2Proof/Machine/Hash.lean ====
section
/-! DEFINITION. CRC-32C (R316), SHA-256 and SHA-1 (FIPS 180-4), HMAC and HKDF (RFC 5869), over lists of bytes. -/

namespace Sys2Proof.Machine

/-- One bit of the reflected CRC-32C. -/
def crcBit (c : W32) : W32 := if c.getLsbD 0 then (c >>> 1) ^^^ 0x82F63B78 else c >>> 1

def crcByte (c : W32) (b : Byte) : W32 :=
  let c := c ^^^ b.setWidth 32
  crcBit (crcBit (crcBit (crcBit (crcBit (crcBit (crcBit (crcBit c)))))))

/-- CRC-32C (R316). -/
def crc32c (bs : List Byte) : W32 := (bs.foldl crcByte 0xFFFFFFFF) ^^^ 0xFFFFFFFF

/-- The round constants of SHA-256: fractional parts of the cube roots of the first 64 primes. -/
def shaK : List W32 :=
  [0x428a2f98, 0x71374491, 0xb5c0fbcf, 0xe9b5dba5, 0x3956c25b, 0x59f111f1, 0x923f82a4, 0xab1c5ed5] ++
  [0xd807aa98, 0x12835b01, 0x243185be, 0x550c7dc3, 0x72be5d74, 0x80deb1fe, 0x9bdc06a7, 0xc19bf174] ++
  [0xe49b69c1, 0xefbe4786, 0x0fc19dc6, 0x240ca1cc, 0x2de92c6f, 0x4a7484aa, 0x5cb0a9dc, 0x76f988da] ++
  [0x983e5152, 0xa831c66d, 0xb00327c8, 0xbf597fc7, 0xc6e00bf3, 0xd5a79147, 0x06ca6351, 0x14292967] ++
  [0x27b70a85, 0x2e1b2138, 0x4d2c6dfc, 0x53380d13, 0x650a7354, 0x766a0abb, 0x81c2c92e, 0x92722c85] ++
  [0xa2bfe8a1, 0xa81a664b, 0xc24b8b70, 0xc76c51a3, 0xd192e819, 0xd6990624, 0xf40e3585, 0x106aa070] ++
  [0x19a4c116, 0x1e376c08, 0x2748774c, 0x34b0bcb5, 0x391c0cb3, 0x4ed8aa4a, 0x5b9cca4f, 0x682e6ff3] ++
  [0x748f82ee, 0x78a5636f, 0x84c87814, 0x8cc70208, 0x90befffa, 0xa4506ceb, 0xbef9a3f7, 0xc67178f2]

def shaInit : List W32 :=
  [0x6a09e667, 0xbb67ae85, 0x3c6ef372, 0xa54ff53a, 0x510e527f, 0x9b05688c, 0x1f83d9ab, 0x5be0cd19]

/-- Big-endian bytes to a number. -/
def beNat (bs : List Byte) : Nat := bs.foldl (fun a b => a * 256 + b.toNat) 0

/-- A number's `n` big-endian bytes. -/
def beBytes (n v : Nat) : List Byte := (leBytes n v).reverse

/-- Consecutive groups of `k` elements, at most `f` of them. -/
def chunks {α : Type} (k : Nat) : Nat → List α → List (List α)
  | 0, _ => []
  | _ + 1, [] => []
  | f + 1, a :: l => (a :: l).take k :: chunks k f ((a :: l).drop k)

def shaS0 (x : W32) : W32 := x.rotateRight 7 ^^^ x.rotateRight 18 ^^^ (x >>> 3)
def shaS1 (x : W32) : W32 := x.rotateRight 17 ^^^ x.rotateRight 19 ^^^ (x >>> 10)

/-- The next `n` words of the message schedule, newest first. -/
def shaSched : Nat → List W32 → List W32
  | 0, w => w
  | n + 1, w => shaSched n ((shaS1 (w.getD 1 0) + w.getD 6 0 + shaS0 (w.getD 14 0) + w.getD 15 0) :: w)

def shaRound (st : List W32) (kw : W32 × W32) : List W32 :=
  match st with
  | [a, b, c, d, e, f, g, h] =>
    let t1 := h + (e.rotateRight 6 ^^^ e.rotateRight 11 ^^^ e.rotateRight 25) + ((e &&& f) ^^^ (~~~ e &&& g)) + kw.1 + kw.2
    let t2 := (a.rotateRight 2 ^^^ a.rotateRight 13 ^^^ a.rotateRight 22) + ((a &&& b) ^^^ (a &&& c) ^^^ (b &&& c))
    [t1 + t2, a, b, c, d + t1, e, f, g]
  | _ => st

def shaBlock (st : List W32) (blk : List Byte) : List W32 :=
  let w := (chunks 4 16 blk).map fun g => BitVec.ofNat 32 (beNat g)
  let ws := (shaSched 48 w.reverse).reverse
  List.zipWith (· + ·) st ((shaK.zip ws).foldl shaRound st)

/-- A message with the padding that SHA-1 and SHA-256 share, in blocks of 64 bytes. -/
def shaBlocks (m : List Byte) : List (List Byte) :=
  let n := m.length
  let padded := m ++ [0x80] ++ List.replicate ((119 - n % 64) % 64) 0 ++ beBytes 8 (8 * n)
  chunks 64 (padded.length / 64) padded

/-- SHA-256. -/
def sha256 (m : List Byte) : List Byte :=
  ((shaBlocks m).foldl shaBlock shaInit).flatMap fun w => beBytes 4 w.toNat

/-- The next `n` words of SHA-1's message schedule, newest first. -/
def sha1Sched : Nat → List W32 → List W32
  | 0, w => w
  | n + 1, w => sha1Sched n ((w.getD 2 0 ^^^ w.getD 7 0 ^^^ w.getD 13 0 ^^^ w.getD 15 0).rotateLeft 1 :: w)

/-- Round t of SHA-1 with schedule word w. -/
def sha1Round (st : List W32) (e : W32 × Nat) : List W32 :=
  match st with
  | [a, b, c, d, h] =>
    let fk : W32 × W32 :=
      if e.2 < 20 then ((b &&& c) ||| (~~~ b &&& d), 0x5A827999) else if e.2 < 40 then (b ^^^ c ^^^ d, 0x6ED9EBA1)
      else if e.2 < 60 then ((b &&& c) ||| (b &&& d) ||| (c &&& d), 0x8F1BBCDC) else (b ^^^ c ^^^ d, 0xCA62C1D6)
    [a.rotateLeft 5 + fk.1 + h + fk.2 + e.1, a, b.rotateLeft 30, c, d]
  | _ => st

def sha1Block (st : List W32) (blk : List Byte) : List W32 :=
  let w := (chunks 4 16 blk).map fun g => BitVec.ofNat 32 (beNat g)
  List.zipWith (· + ·) st ((sha1Sched 64 w.reverse).reverse.zipIdx.foldl sha1Round st)

/-- SHA-1, which the key hashes of R451 use (FIPS 180-4). -/
def sha1 (m : List Byte) : List Byte :=
  ((shaBlocks m).foldl sha1Block [0x67452301, 0xEFCDAB89, 0x98BADCFE, 0x10325476, 0xC3D2E1F0]).flatMap fun w => beBytes 4 w.toNat

/-- HMAC-SHA-256. -/
def hmac (key m : List Byte) : List Byte :=
  let k0 := if key.length > 64 then sha256 key else key
  let k := k0 ++ List.replicate (64 - k0.length) 0
  sha256 (k.map (· ^^^ 0x5c) ++ sha256 (k.map (· ^^^ 0x36) ++ m))

/-- HKDF-Expand, `n` further blocks. -/
def hkdfExpand (prk info prev : List Byte) (i : Nat) : Nat → List Byte
  | 0 => []
  | n + 1 => let t := hmac prk (prev ++ info ++ [BitVec.ofNat 8 i]); t ++ hkdfExpand prk info t (i + 1) n

/-- HKDF-SHA-256 with `len` output bytes. -/
def hkdf (ikm salt info : List Byte) (len : Nat) : List Byte :=
  (hkdfExpand (hmac (if salt = [] then List.replicate 32 0 else salt) ikm) info [] 1 (ceilDiv len 32)).take len

def ascii (s : String) : List Byte := s.toList.map fun c => BitVec.ofNat 8 c.toNat

end Sys2Proof.Machine
end

