-- ==== Sys2Proof/Machine/Crypto.lean ====
section
/-! DEFINITION. AES-256, its counter mode and key wrap, ECDSA and ECDH on P-256, and DER, as the spec's standards define them (R388, R389, R447 to R462). -/

namespace Sys2Proof.Machine

/-! ## AES-256 -/

def xtime (b : Nat) : Nat := if b ≥ 128 then (2 * b - 256) ^^^ 0x1B else 2 * b

/-- Product in the field of AES. -/
def gmul (a : Nat) : Nat → Nat → Nat
  | _, 0 => 0
  | b, f + 1 => (if b % 2 = 1 then a else 0) ^^^ gmul (xtime a) (b / 2) f

/-- a to the n-th power; the inverse is the 254th. -/
def gpow (a : Nat) : Nat → Nat
  | 0 => 1
  | n + 1 => gmul a (gpow a n) 8

def rotl8 (x n : Nat) : Nat := ((x <<< n) ||| (x >>> (8 - n))) % 256

def sbox (x : Nat) : Nat :=
  let i := gpow x 254
  i ^^^ rotl8 i 1 ^^^ rotl8 i 2 ^^^ rotl8 i 3 ^^^ rotl8 i 4 ^^^ 0x63

def invSbox (y : Nat) : Nat :=
  let a := rotl8 y 1 ^^^ rotl8 y 3 ^^^ rotl8 y 6 ^^^ 0x05
  gpow a 254

def xorL (a b : List Nat) : List Nat := (a.zip b).map fun e => e.1 ^^^ e.2

/-- The expanded key as words of four bytes, newest first. -/
def expandKey (rcon : Nat) : Nat → Nat → List (List Nat) → List (List Nat)
  | 0, _, ws => ws
  | n + 1, i, ws =>
    let t := ws.headD []
    let old := ws.getD 7 []
    let sub := fun (l : List Nat) => l.map sbox
    let k := if i % 8 = 0 then xorL (sub (t.drop 1 ++ t.take 1)) [rcon, 0, 0, 0] else if i % 8 = 4 then sub t else t
    expandKey (if i % 8 = 0 then xtime rcon else rcon) n (i + 1) (xorL old k :: ws)

/-- The fifteen round keys of 16 bytes. -/
def roundKeys (key : List Byte) : List (List Nat) :=
  let ws := (chunks 4 8 (key.map (·.toNat))).reverse
  let all := (expandKey 1 52 8 ws).reverse
  (chunks 4 15 all).map fun l => l.flatten

def shiftRows (s : List Nat) : List Nat := (List.range 16).map fun i => s.getD ((i + 4 * (i % 4)) % 16) 0
def invShiftRows (s : List Nat) : List Nat := (List.range 16).map fun i => s.getD ((i + 16 - 4 * (i % 4)) % 16) 0

def mixCols (m : List Nat) (s : List Nat) : List Nat :=
  (List.range 16).map fun i => (List.range 4).foldl (fun a j => a ^^^ gmul (s.getD (4 * (i / 4) + (i % 4 + j) % 4) 0) (m.getD j 0) 8) 0

def aesRounds : List (List Nat) → List Nat → List Nat
  | [], s => s
  | [k], s => xorL (shiftRows (s.map sbox)) k
  | k :: r, s => aesRounds r (xorL (mixCols [2, 3, 1, 1] (shiftRows (s.map sbox))) k)

def aesEnc (key block : List Byte) : List Byte :=
  match roundKeys key with
  | k :: r => (aesRounds r (xorL (block.map (·.toNat)) k)).map (BitVec.ofNat 8)
  | [] => block

def aesInvRounds : List (List Nat) → List Nat → List Nat
  | [], s => s
  | [k], s => xorL ((invShiftRows s).map invSbox) k
  | k :: r, s => aesInvRounds r (mixCols [14, 11, 13, 9] (xorL ((invShiftRows s).map invSbox) k))

def aesDec (key block : List Byte) : List Byte :=
  match (roundKeys key).reverse with
  | k :: r => (aesInvRounds r (xorL (block.map (·.toNat)) k)).map (BitVec.ofNat 8)
  | [] => block

def xorB (a b : List Byte) : List Byte := (a.zip b).map fun e => e.1 ^^^ e.2

/-! ## AES-256-XTS over lines of 256 bytes (R250, R251) -/

/-- A tweak multiplied by α. -/
def xtsDouble (t : Nat) : Nat := if bitAt t 127 then (2 * t - 2 ^ 128) ^^^ 0x87 else 2 * t

def xtsPow (t : Nat) : Nat → Nat
  | 0 => t
  | j + 1 => xtsDouble (xtsPow t j)

/-- Tweak of AES block j of line L under a 64-byte key. -/
def xtsTweak (key : List Byte) (line j : Nat) : List Byte := leBytes 16 (xtsPow (leNat (aesEnc (key.drop 32) (leBytes 16 line))) j)

def xtsEnc (key : List Byte) (line j : Nat) (block : List Byte) : List Byte :=
  let t := xtsTweak key line j
  xorB (aesEnc (key.take 32) (xorB block t)) t

def xtsDec (key : List Byte) (line j : Nat) (block : List Byte) : List Byte :=
  let t := xtsTweak key line j
  xorB (aesDec (key.take 32) (xorB block t)) t

/-- The 64-byte key of a slot and label under the memory root key: data key, then tweak key (R251). -/
def memKey (root : List Byte) (slot : Nat) (label : W64) : List Byte :=
  hkdf root [] (ascii "AQD9-MEM" ++ leBytes 1 slot ++ leBytes 8 label.toNat) 64

/-- Traffic encryption of a payload under a key, SALT and PKT_NUM, from block j on (R389); the same operation decrypts. -/
def ctrFrom (key salt : List Byte) (num : Nat) : Nat → List (List Byte) → List Byte
  | _, [] => []
  | j, c :: r => xorB c (aesEnc key (salt ++ leBytes 8 num ++ leBytes 4 j)) ++ ctrFrom key salt num (j + 1) r

def ctr (key salt : List Byte) (num : Nat) (bs : List Byte) : List Byte := ctrFrom key salt num 0 (chunks 16 (ceilDiv bs.length 16) bs)

/-- Key wrap of RFC 3394: the six passes over n registers, from step t on. -/
def wrapSteps (kek : List Byte) : List Nat → List Byte × List (List Byte) → List Byte × List (List Byte)
  | [], x => x
  | t :: r, x =>
    let n := x.2.length
    let i := (t - 1) % n
    let b := aesEnc kek (x.1 ++ x.2.getD i [])
    wrapSteps kek r (xorB (b.take 8) (beBytes 8 t), updNth (fun _ => b.drop 8) x.2 i)

def unwrapSteps (kek : List Byte) : List Nat → List Byte × List (List Byte) → List Byte × List (List Byte)
  | [], x => x
  | t :: r, x =>
    let n := x.2.length
    let i := (t - 1) % n
    let b := aesDec kek (xorB x.1 (beBytes 8 t) ++ x.2.getD i [])
    unwrapSteps kek r (b.take 8, updNth (fun _ => b.drop 8) x.2 i)

def wrapIv : List Byte := List.replicate 8 0xA6

def keyWrap (kek key : List Byte) : List Byte :=
  let r := wrapSteps kek ((List.range 24).map (· + 1)) (wrapIv, chunks 8 4 key)
  r.1 ++ r.2.flatten

/-- The key inside 40 wrapped bytes, none where the check value is wrong. -/
def keyUnwrap (kek w : List Byte) : Option (List Byte) :=
  let r := unwrapSteps kek ((List.range 24).map (24 - ·)) (w.take 8, chunks 8 4 ((w.drop 8).take 32))
  if r.1 = wrapIv then some r.2.flatten else none

/-! ## P-256 -/

namespace P256

def p : Nat := 0xFFFFFFFF00000001000000000000000000000000FFFFFFFFFFFFFFFFFFFFFFFF
def b : Nat := 0x5AC635D8AA3A93E7B3EBBD55769886BC651D06B0CC53B0F63BCE3C3E27D2604B
def n : Nat := 0xFFFFFFFF00000000FFFFFFFFFFFFFFFFBCE6FAADA7179E84F3B9CAC2FC632551
def gx : Nat := 0x6B17D1F2E12C4247F8BCE6E563A440F277037D812DEB33A0F4A13945D898C296
def gy : Nat := 0x4FE342E2FE1A7F9B8EE7EB4A7C0F9E162BCE33576B315ECECBB6406837BF51F5

def powMod (m a e : Nat) : Nat → Nat
  | 0 => 1
  | f + 1 => let h := powMod m (a * a % m) (e / 2) f; if e % 2 = 1 then a * h % m else h

def inv (m a : Nat) : Nat := powMod m (a % m) (m - 2) 256

/-- A point; none is the point at infinity. -/
abbrev Pt := Option (Nat × Nat)

def onCurve (x y : Nat) : Bool := decide (x < p) && decide (y < p) && decide (y * y % p = (x * x % p * x + (p - 3) * x + b) % p)

def add (u v : Pt) : Pt :=
  match u, v with
  | none, q => q
  | q, none => q
  | some (x1, y1), some (x2, y2) =>
    if x1 = x2 && (y1 + y2) % p = 0 then none
    else
      let l := if x1 = x2 then (3 * x1 * x1 + p - 3) * inv p (2 * y1) % p else (y2 + p - y1) * inv p (x2 + p - x1) % p
      let x3 := (l * l + 2 * p - x1 - x2) % p
      some (x3, (l * (x1 + p - x3) + p - y1) % p)

def mulAux (q : Pt) (k : Nat) : Nat → Pt
  | 0 => none
  | f + 1 => let h := mulAux (add q q) (k / 2) f; if k % 2 = 1 then add q h else h

def mul (k : Nat) (q : Pt) : Pt := mulAux q k 256

def base : Pt := some (gx, gy)

/-- X and Y, big-endian, 64 bytes. -/
def ptBytes : Pt → List Byte
  | some (x, y) => beBytes 32 x ++ beBytes 32 y
  | none => List.replicate 64 0

def ofBytes (bs : List Byte) : Option (Nat × Nat) :=
  let x := beNat (bs.take 32); let y := beNat ((bs.drop 32).take 32)
  if bs.length = 64 && onCurve x y then some (x, y) else none

/-- keygen of the chapter on identity. -/
def keygen (ikm info : List Byte) : Nat := beNat (hkdf ikm [] info 48) % (n - 1) + 1

def publicKey (d : Nat) : List Byte := ptBytes (mul d base)

/-- ECDSA signature r, s of a digest under a private key and a nonce. -/
def sign (d : Nat) (digest : List Byte) (k : Nat) : List Byte :=
  let r := match mul k base with | some (x, _) => x % n | none => 0
  let s := inv n k * ((beNat digest + r * d) % n) % n
  beBytes 32 r ++ beBytes 32 s

def verify (pub digest sig : List Byte) : Bool :=
  match ofBytes pub with
  | none => false
  | some q =>
    let r := beNat (sig.take 32); let s := beNat ((sig.drop 32).take 32)
    if sig.length ≠ 64 || r = 0 || r ≥ n || s = 0 || s ≥ n then false
    else
      let w := inv n s
      match add (mul (beNat digest * w % n) base) (mul (r * w % n) (some q)) with
      | some (x, _) => x % n = r
      | none => false

/-- X coordinate of the shared point, 32 bytes. -/
def ecdh (d : Nat) (q : Nat × Nat) : List Byte :=
  match mul d (some q) with | some (x, _) => beBytes 32 x | none => List.replicate 32 0

end P256

/-! ## DER (R451) -/

/-- Big-endian bytes without leading zeros; one zero byte for zero. -/
def minBytes (bs : List Byte) : List Byte := match bs.dropWhile (· = 0) with | [] => [0] | r => r

def derLen (n : Nat) : List Byte :=
  if n < 128 then [BitVec.ofNat 8 n] else let b := minBytes (beBytes 8 n); BitVec.ofNat 8 (128 + b.length) :: b

def der (tag : Byte) (body : List Byte) : List Byte := tag :: derLen body.length ++ body

/-- A non-negative INTEGER from big-endian bytes. -/
def derInt (bs : List Byte) : List Byte :=
  let b := minBytes bs
  der 0x02 (if bitAt (b.headD 0).toNat 7 then 0 :: b else b)

/-- A certificate from its signed part and its signature r ‖ s: ecdsa-with-SHA256, and the signature as a BIT STRING. -/
def derCertificate (tbs sig : List Byte) : List Byte :=
  der 0x30 (tbs ++ der 0x30 (der 0x06 [0x2A, 0x86, 0x48, 0xCE, 0x3D, 0x04, 0x03, 0x02]) ++
    der 0x03 (0 :: der 0x30 (derInt (sig.take 32) ++ derInt (sig.drop 32))))

/-- Key identifier of RFC 5280, method 1: over the point as the key's bit string holds it. -/
def keyId (pub : List Byte) : List Byte := sha1 (0x04 :: pub)

end Sys2Proof.Machine
end

