-- ==== Sys2Proof/Machine/Num.lean ====
section
/-! DEFINITION. Exact values, the number formats of 02_number_formats.md and 04_accumulation_and_reduction.md, rounding, the scalar cores' IEEE 754 operations (R39 to R42, R119, R120), A20 addition in the array (R64) and promotion (R87). -/

namespace Sys2Proof.Machine

/-- An exact value: NaN, an infinity, or (-1)^s * m * 2^e. Zeros carry a sign. -/
inductive XVal where
  | nan
  | inf (s : Bool)
  | num (s : Bool) (m : Nat) (e : Int)
deriving DecidableEq, Repr

/-- What an operation adds to the contact sheet: the four counters (R49, R65, R88, R119), and the largest magnitude it converts, as a binary32 pattern without a sign (R51). -/
structure Ev where
  sat : Nat := 0
  flush : Nat := 0
  ovf : Nat := 0
  nan : Nat := 0
  amax : Nat := 0
deriving DecidableEq, Repr

def Ev.add (a b : Ev) : Ev := ⟨a.sat + b.sat, a.flush + b.flush, a.ovf + b.ovf, a.nan + b.nan, max a.amax b.amax⟩
def Ev.none : Ev := {}
def evOvf : Ev := { ovf := 1 }
def evNan : Ev := { nan := 1 }
def evFlush : Ev := { flush := 1 }
def evSat : Ev := { sat := 1 }

namespace XVal

def zero : XVal := .num false 0 0
def one : XVal := .num false 1 0
def ofInt (i : Int) : XVal := .num (i < 0) i.natAbs 0
def ofNat (n : Nat) : XVal := .num false n 0

def isNan : XVal → Bool
  | .nan => true
  | _ => false
def isInf : XVal → Bool
  | .inf _ => true
  | _ => false
def isZero : XVal → Bool
  | .num _ m _ => m = 0
  | _ => false
def sign : XVal → Bool
  | .nan => false
  | .inf s => s
  | .num s _ _ => s
def neg : XVal → XVal
  | .nan => .nan
  | .inf s => .inf !s
  | .num s m e => .num (!s) m e
def abs : XVal → XVal
  | .nan => .nan
  | .inf _ => .inf false
  | .num _ m e => .num false m e

def signed (s : Bool) (m : Nat) : Int := if s then -(m : Int) else m

/-- m * 2^k for k at or above zero. -/
def up (i : Int) (k : Int) : Int := i * 2 ^ k.toNat

/-- Exact addition by IEEE 754-2019's rules for signs, infinities and NaN. -/
def add : XVal → XVal → XVal
  | .nan, _ => .nan
  | _, .nan => .nan
  | .inf s, .inf t => if s = t then .inf s else .nan
  | .inf s, _ => .inf s
  | _, .inf t => .inf t
  | .num s m e, .num t n f =>
    let g := min e f
    let i := up (signed s m) (e - g) + up (signed t n) (f - g)
    if i = 0 then .num (s && t) 0 0 else .num (i < 0) i.natAbs g

def sub (a b : XVal) : XVal := add a (neg b)

/-- Exact multiplication. -/
def mul : XVal → XVal → XVal
  | .nan, _ => .nan
  | _, .nan => .nan
  | .inf s, .inf t => .inf (s != t)
  | .inf s, .num t m _ => if m = 0 then .nan else .inf (s != t)
  | .num s m _, .inf t => if m = 0 then .nan else .inf (s != t)
  | .num s m e, .num t n f => .num (s != t) (m * n) (e + f)

/-- Multiplication by 2^k. -/
def scale (k : Int) : XVal → XVal
  | .num s m e => .num s m (e + k)
  | x => x

/-- The quotient, exact or with a last bit that marks a remainder, in 64 or more bits: every rounding to a format of the module is then the rounding of the exact quotient. -/
def div : XVal → XVal → XVal
  | .nan, _ => .nan
  | _, .nan => .nan
  | .inf _, .inf _ => .nan
  | .inf s, .num t _ _ => .inf (s != t)
  | .num s _ _, .inf t => .num (s != t) 0 0
  | .num s m e, .num t n f =>
    if n = 0 then (if m = 0 then .nan else .inf (s != t))
    else if m = 0 then .num (s != t) 0 0
    else
      let k := n.log2 + 80
      let q := (m <<< k) / n
      let r := (m <<< k) % n
      .num (s != t) (2 * q + b2n (r ≠ 0)) (e - f - k - 1)

/-- Integer square root, one bit a step from bit `i`. -/
def isqrtFrom (n : Nat) : Nat → Nat → Nat
  | 0, r => if (r + 1) * (r + 1) ≤ n then r + 1 else r
  | i + 1, r => let r' := r + 2 ^ (i + 1)
    isqrtFrom n i (if r' * r' ≤ n then r' else r)

def isqrt (n : Nat) : Nat := isqrtFrom n (n.log2 / 2) 0

/-- The square root, exact or with a last bit that marks a remainder. -/
def sqrt : XVal → XVal
  | .nan => .nan
  | .inf s => if s then .nan else .inf false
  | .num s m e =>
    if m = 0 then .num s 0 0
    else if s then .nan
    else
      let odd := (e % 2).toNat
      let n := (m <<< odd) <<< 160
      let r := isqrt n
      .num false (2 * r + b2n (r * r ≠ n)) ((e - odd) / 2 - 81)

/-- -1, 0 or 1 as the first is below, equal to or above the second; neither may be NaN. -/
def cmp (a b : XVal) : Int :=
  match sub a b with
  | .nan => (b2n b.sign : Int) - b2n a.sign      -- both infinite, of one sign or of two
  | .inf s => if s then -1 else 1
  | .num s m _ => if m = 0 then 0 else if s then -1 else 1

def lt (a b : XVal) : Bool := !a.isNan && !b.isNan && cmp a b < 0
def le (a b : XVal) : Bool := !a.isNan && !b.isNan && cmp a b ≤ 0
def eq (a b : XVal) : Bool := !a.isNan && !b.isNan && cmp a b = 0

/-- maximumNumber (R41): NaN operands are ignored, and +0 is above -0. -/
def maxNum (a b : XVal) : XVal :=
  if a.isNan then b else if b.isNan then a
  else if cmp a b > 0 then a else if cmp a b < 0 then b else if a.sign then b else a

/-- minimumNumber (R41). -/
def minNum (a b : XVal) : XVal :=
  if a.isNan then b else if b.isNan then a
  else if cmp a b < 0 then a else if cmp a b > 0 then b else if a.sign then a else b

/-- The exponent of the leading bit of a non-zero finite value. -/
def expo : XVal → Int
  | .num _ m e => m.log2 + e
  | _ => 0

/-- floor of the value as an integer, and whether nothing was lost. -/
def floorInt : XVal → Int
  | .num s m e => if e ≥ 0 then up (signed s m) e else (signed s m).fdiv (2 ^ (-e).toNat)
  | _ => 0

def ceilInt (x : XVal) : Int := -(floorInt x.neg)

end XVal

/-- m shifted right by k > 0 places, to nearest even. -/
def rneShift (m k : Nat) : Nat :=
  let q := m >>> k
  let r := m % 2 ^ k
  let h := 2 ^ (k - 1)
  if r > h || (r = h && q % 2 = 1) then q + 1 else q

/-- The magnitude code of m * 2^e on the grid with f fraction bits and smallest step 2^qmin, rounded to nearest even with the exponent unbounded above. -/
def roundCode (f : Nat) (qmin : Int) (m : Nat) (e : Int) : Nat :=
  if m = 0 then 0
  else
    let q := max qmin (m.log2 + e - f)
    let base := (q - qmin).toNat * 2 ^ f
    if e ≥ q then base + m * 2 ^ (e - q).toNat
    else base + rneShift m (q - e).toNat

/-- The same under stochastic rounding with random word r (R46). -/
def stochCode (f : Nat) (qmin : Int) (r : Nat) (m : Nat) (e : Int) : Nat :=
  if m = 0 then 0
  else
    let q := max qmin (m.log2 + e - f)
    let base := (q - qmin).toNat * 2 ^ f
    if e ≥ q then base + m * 2 ^ (e - q).toNat
    else
      let k := (q - e).toNat
      let d := ((m % 2 ^ k) <<< 32) >>> k
      base + (m >>> k) + b2n (r < d)

/-- A long format (R39, R83): fraction bits, smallest step, the code of infinity, the place of the sign. -/
structure LFmt where
  f : Nat
  qmin : Int
  inf : Nat
  sbit : Nat
deriving DecidableEq, Repr

def b16 : LFmt := ⟨10, -24, 31 * 2 ^ 10, 15⟩
def b32 : LFmt := ⟨23, -149, 255 * 2 ^ 23, 31⟩
def a20 : LFmt := ⟨11, -137, 255 * 2 ^ 11, 19⟩

namespace LFmt

/-- The canonical quiet NaN (R40). -/
def qnan (g : LFmt) : Nat := g.inf + 2 ^ (g.f - 1)

def decode (g : LFmt) (c : Nat) : XVal :=
  let s := bitAt c g.sbit
  let mag := c % 2 ^ g.sbit
  let ec := mag >>> g.f
  let fr := mag % 2 ^ g.f
  if mag ≥ g.inf then (if mag = g.inf then .inf s else .nan)
  else if ec = 0 then .num s fr g.qmin
  else .num s (2 ^ g.f + fr) (g.qmin + ec - 1)

def withSign (g : LFmt) (s : Bool) (mag : Nat) : Nat := b2n s * 2 ^ g.sbit + mag

/-- Rounds an exact value to the format; the event is an overflow or a flush of a finite value. -/
def round (g : LFmt) : XVal → Nat × Ev
  | .nan => (g.qnan, {})
  | .inf s => (g.withSign s g.inf, {})
  | .num s m e =>
    let c := roundCode g.f g.qmin m e
    if c ≥ g.inf then (g.withSign s g.inf, evOvf)
    else if c = 0 && m ≠ 0 then (g.withSign s 0, evFlush)
    else (g.withSign s c, {})

/-- Rounds toward the larger magnitude, to infinity above the range (AMAX, R51). -/
def roundUp (g : LFmt) : XVal → Nat
  | .nan => g.qnan
  | .inf s => g.withSign s g.inf
  | .num s m e =>
    if m = 0 then g.withSign s 0
    else
      let q := max g.qmin (m.log2 + e - g.f)
      let base := (q - g.qmin).toNat * 2 ^ g.f
      let c := if e ≥ q then base + m * 2 ^ (e - q).toNat
        else base + ceilDiv m (2 ^ (q - e).toNat)
      g.withSign s (min c g.inf)

/-- An operation's result and counters from its exact value (R119): a NaN made from operands that are none is counted, `dz` marks divideByZero. -/
def result (g : LFmt) (nanIn dz : Bool) (x : XVal) : Nat × Ev :=
  if nanIn then (g.qnan, {})
  else match x with
    | .nan => (g.qnan, evNan)
    | .inf s => (g.withSign s g.inf, if dz then evOvf else {})
    | y => g.round y

def fadd (g : LFmt) (a b : Nat) : Nat × Ev :=
  let x := g.decode a; let y := g.decode b
  g.result (x.isNan || y.isNan) false (x.add y)
def fsub (g : LFmt) (a b : Nat) : Nat × Ev :=
  let x := g.decode a; let y := g.decode b
  g.result (x.isNan || y.isNan) false (x.sub y)
def fmul (g : LFmt) (a b : Nat) : Nat × Ev :=
  let x := g.decode a; let y := g.decode b
  g.result (x.isNan || y.isNan) false (x.mul y)
/-- a * b + c with one rounding. -/
def ffma (g : LFmt) (a b c : Nat) : Nat × Ev :=
  let x := g.decode a; let y := g.decode b; let z := g.decode c
  g.result (x.isNan || y.isNan || z.isNan) false ((x.mul y).add z)
def fdiv (g : LFmt) (a b : Nat) : Nat × Ev :=
  let x := g.decode a; let y := g.decode b
  g.result (x.isNan || y.isNan) (y.isZero && !x.isZero && !x.isInf) (x.div y)
def fsqrt (g : LFmt) (a : Nat) : Nat × Ev :=
  let x := g.decode a
  g.result x.isNan false x.sqrt
def fmax (g : LFmt) (a b : Nat) : Nat := (g.round ((g.decode a).maxNum (g.decode b))).1
def fmin (g : LFmt) (a b : Nat) : Nat := (g.round ((g.decode a).minNum (g.decode b))).1
/-- The sign turned, and cleared; a NaN is canonical (R40). -/
def fneg (g : LFmt) (a : Nat) : Nat := if (g.decode a).isNan then g.qnan else (a % 2 ^ (g.sbit + 1)) ^^^ 2 ^ g.sbit
def fabs (g : LFmt) (a : Nat) : Nat := if (g.decode a).isNan then g.qnan else a % 2 ^ g.sbit

end LFmt

/-- Fraction bits of the fixed-point numbers inside EXP2 and LOG2. -/
def tP : Nat := 192

/-- 2^(F / 2^64) in fixed point with tP bits, rounded down: the product of the roots 2^(2^-i) over the set bits of F; `c` is the root of the step before. -/
def exp2Frac (F : Nat) : Nat → Nat → Nat → Nat
  | 0, _, acc => acc
  | i + 1, c, acc =>
    let c' := XVal.isqrt (c <<< tP)
    exp2Frac F i c' (if bitAt F i then (acc * c') >>> tP else acc)

/-- 2^x (R120), exact where the power is one of two with integer exponent, and otherwise with a last bit that marks the rest. No other value of 2^x lies on a rounding boundary. -/
def exp2X : XVal → XVal
  | .nan => .nan
  | .inf s => if s then .num false 0 0 else .inf false
  | .num s m e =>
    if m = 0 then .one
    else if m.log2 + e ≥ 10 then .num false 1 (if s then -2000 else 2000)
    else if m.log2 + e < -40 then .num false (if s then 2 ^ 80 - 1 else 2 ^ 80 + 1) (-80)
    else
      let X := (XVal.num s m (e + 64)).floorInt
      let n := X.fdiv (2 ^ 64)
      let F := (X.fmod (2 ^ 64)).toNat
      if F = 0 then .num false 1 n
      else .num false (2 * exp2Frac F 64 (2 <<< tP) (1 <<< tP) + 1) (n - tP - 1)

/-- Bits of the fraction of log2 of a fixed-point y in [1, 2), by repeated squaring. -/
def log2Frac : Nat → Nat → Nat → Nat
  | 0, _, acc => acc
  | i + 1, y, acc =>
    let z := (y * y) >>> tP
    if z ≥ 2 <<< tP then log2Frac i (z >>> 1) (2 * acc + 1) else log2Frac i z (2 * acc)

/-- log2 x (R120) for finite positive x; the other cases follow IEEE 754-2019 (R119). -/
def log2X : XVal → XVal
  | .nan => .nan
  | .inf s => if s then .nan else .inf false
  | .num s m e =>
    if m = 0 then .inf true
    else if s then .nan
    else
      let n := (m.log2 : Int) + e
      if m = 2 ^ m.log2 then XVal.ofInt n
      else
        let F := log2Frac 120 ((m <<< tP) >>> m.log2) 0
        let i := (n * 2 ^ 120 + F) * 2 + 1
        .num (i < 0) i.natAbs (-121)

namespace LFmt
def exp2 (g : LFmt) (a : Nat) : Nat × Ev := let x := g.decode a; g.result x.isNan false (exp2X x)
def log2 (g : LFmt) (a : Nat) : Nat × Ev := let x := g.decode a; g.result x.isNan x.isZero (log2X x)
end LFmt

/-- A short format (R26 to R28): fraction bits, smallest step, largest magnitude code, its exponent and value, the place of the sign. -/
structure SFmt where
  f : Nat
  qmin : Int
  maxCode : Nat
  emax : Int
  maxfin : Nat
  sbit : Nat
deriving DecidableEq, Repr

def q4 : SFmt := ⟨1, -1, 7, 2, 6, 3⟩
def q6 : SFmt := ⟨2, -4, 31, 4, 28, 5⟩
def q8 : SFmt := ⟨3, -10, 127, 7, 240, 7⟩

/-- Q4 has two zeros and no NaN; the negative-zero pattern of Q6 and Q8 is their NaN (R26 to R29). -/
def SFmt.hasNan (g : SFmt) : Bool := g.sbit ≠ 3

/-- The value of an element code, before its block scale. -/
def SFmt.decode (g : SFmt) (c : Nat) : XVal :=
  let s := bitAt c g.sbit
  let mag := c % 2 ^ g.sbit
  let ec := mag >>> g.f
  let fr := mag % 2 ^ g.f
  if g.hasNan && s && mag = 0 then .nan
  else if ec = 0 then .num s fr g.qmin
  else .num s (2 ^ g.f + fr) (g.qmin + ec - 1)

/-- A scale byte as a signed exponent; 0x80 marks a null block (R31, R32). -/
def scaleInt (s : Nat) : Int := if s % 256 ≥ 128 then (s % 256 : Int) - 256 else (s % 256 : Int)

/-- The exact value of an element with its scale byte (R31, R32). -/
def SFmt.value (g : SFmt) (c scale : Nat) : XVal :=
  if scale % 256 = 128 then .num false 0 0 else (g.decode c).scale (scaleInt scale)

/-- Type codes (R114). -/
inductive Ty where
  | int8 | int16 | int32 | uint32 | q4 | q6 | q8 | b16 | b32 | a20
deriving DecidableEq, Repr

namespace Ty
def ofCode : Nat → Option Ty
  | 0 => some .int8 | 1 => some .int16 | 2 => some .int32 | 3 => some .uint32
  | 4 => some .q4 | 5 => some .q6 | 6 => some .q8 | 7 => some .b16 | 8 => some .b32 | 9 => some .a20
  | _ => none
def short : Ty → Option SFmt
  | .q4 => some Machine.q4 | .q6 => some Machine.q6 | .q8 => some Machine.q8
  | _ => none
def isShort (t : Ty) : Bool := t.short.isSome
def long : Ty → Option LFmt
  | .b16 => some Machine.b16 | .b32 => some Machine.b32 | .a20 => some Machine.a20
  | _ => none
/-- Bytes of an element in memory; short formats below a byte answer 1 (R34, R132). -/
def bytes : Ty → Nat
  | .int8 => 1 | .int16 => 2 | .int32 => 4 | .uint32 => 4 | .q4 => 1 | .q6 => 1 | .q8 => 1
  | .b16 => 2 | .b32 => 4 | .a20 => 4
def intRange : Ty → Option (Int × Int)
  | .int8 => some (-128, 127) | .int16 => some (-32768, 32767)
  | .int32 => some (-2 ^ 31, 2 ^ 31 - 1) | .uint32 => some (0, 2 ^ 32 - 1)
  | _ => none
end Ty

/-- A two's-complement number of w bits as an integer. -/
def sInt (w v : Nat) : Int := if v % 2 ^ w ≥ 2 ^ (w - 1) then (v % 2 ^ w : Int) - 2 ^ w else (v % 2 ^ w : Int)

/-- The low w bits of an integer. -/
def uInt (w : Nat) (i : Int) : Nat := (i % 2 ^ w).toNat

/-- The exact value of a register of type t (R114); a short value carries its scale in [15:8]. -/
def regValue (t : Ty) (r : Nat) : XVal :=
  match t with
  | .int8 => .ofInt (sInt 8 r) | .int16 => .ofInt (sInt 16 r) | .int32 => .ofInt (sInt 32 r) | .uint32 => .ofNat (r % 2 ^ 32)
  | .q4 => q4.value (r % 16) (bits r 8 8) | .q6 => q6.value (r % 64) (bits r 8 8) | .q8 => q8.value (r % 256) (bits r 8 8)
  | .b16 => b16.decode (r % 2 ^ 16) | .b32 => b32.decode (r % 2 ^ 32) | .a20 => a20.decode (r % 2 ^ 20)

/-- An accumulator entry (R84). -/
structure Entry where
  sum : W32 := 0
  comp : BitVec 16 := 0
deriving DecidableEq, Repr

namespace Entry

def mk' (sum : Nat) (comp : Int) : Entry := ⟨BitVec.ofNat 32 sum, BitVec.ofNat 16 (uInt 16 comp)⟩

/-- The exponent of ulp(SUM) of a finite SUM (R84). -/
def ulpExp (sum : Nat) : Int := let ec := bits sum 23 8; if ec = 0 then -149 else (ec : Int) - 150

/-- The exact value SUM + COMP * ulp(SUM) * 2^-15; COMP is ignored when SUM is infinite or NaN (R84). -/
def value (a : Entry) : XVal :=
  match b32.decode a.sum.toNat with
  | .num s m e => if a.comp = 0 then .num s m e
      else (XVal.num s m e).add ((XVal.ofInt a.comp.toInt).scale (ulpExp a.sum.toNat - 15))
  | x => x

/-- Promotion of an exact value into an entry, and what it counts (R87, R88). -/
def promote (a : Entry) (x : XVal) : Entry × Ev :=
  let s := b32.decode a.sum.toNat
  if s.isNan || x.isNan then (mk' b32.qnan 0, {})
  else if s.isInf || x.isInf then
    match s.add x with
    | .inf t => (mk' (b32.withSign t b32.inf) 0, {})
    | _ => (mk' b32.qnan 0, evNan)
  else
    match a.value.add x with
    | .num t m e =>
      if m = 0 then
        (mk' (b32.withSign (s.isZero && s.sign && decide (a.comp = 0) && x.isZero && x.sign) 0) 0, {})
      else
        let c := roundCode b32.f b32.qmin m e
        if c ≥ b32.inf then (mk' (b32.withSign t b32.inf) 0, evOvf)
        else if c < 2 ^ 23 then (mk' (b32.withSign t 0) 0, evFlush)
        else
          let sum := b32.withSign t c
          -- the remainder in units of ulp(t) * 2^-15, an integer after rounding to nearest even
          match (XVal.num t m e).sub (b32.decode sum) with
          | .num rs rm re =>
            let k := re - (ulpExp sum - 15)
            let n := if k ≥ 0 then rm * 2 ^ k.toNat else rneShift rm (-k).toNat
            (mk' sum (XVal.signed rs n), {})
          | _ => (mk' sum 0, {})
    | _ => (mk' b32.qnan 0, {})

/-- The merge of two entries (R87). -/
def merge (a b : Entry) : Entry × Ev := promote a b.value

/-- Folds a list of exact values by promotion, in order, from {+0, 0}. -/
def fold (start : Entry) : List XVal → Entry × Ev
  | [] => (start, {})
  | x :: r => let p := promote start x; let q := fold p.1 r; (q.1, p.2.add q.2)

/-- The load rules of R92: a NaN becomes canonical, and COMP is 0 where SUM is NaN or infinite. -/
def loaded (sum comp : Nat) : Entry :=
  match b32.decode sum with
  | .nan => mk' b32.qnan 0
  | .inf s => mk' (b32.withSign s b32.inf) 0
  | _ => ⟨BitVec.ofNat 32 sum, BitVec.ofNat 16 comp⟩

/-- rescale(e, d) of R150 for d at or below 0; `none` is d = -infinity. -/
def rescale (a : Entry) (d : Option Int) : Entry :=
  match d, b32.decode a.sum.toNat with
  | some k, .num s m e =>
    if m ≠ 0 && m.log2 + e + k ≥ -126 && a.sum.toNat % 2 ^ 31 ≥ 2 ^ 23
    then ⟨BitVec.ofNat 32 (b32.withSign s (roundCode b32.f b32.qmin m (e + k))), a.comp⟩ else {}
  | _, _ => {}

end Entry

/-- What one column step did beside its sum (R63 to R65). -/
structure CellEv where
  ovf : Bool := false
  flush : Bool := false
deriving DecidableEq, Repr

/-- A contribution as it enters the column (R63): infinite above exponent +127, +0 below 2^-126. -/
def contribution (q : XVal) : XVal × CellEv :=
  match q with
  | .num s m e =>
    if m = 0 then (.num false 0 0, {})
    else if m.log2 + e > 127 then (.inf s, { ovf := true })
    else if m.log2 + e < -126 then (.num false 0 0, { flush := true })
    else (q, {})
  | _ => (q, {})

/-- Magnitude in units of 2^u, lower bits dropped. -/
def truncUnits (m : Nat) (e u : Int) : Nat := if e ≥ u then m * 2 ^ (e - u).toNat else m >>> (u - e).toNat

/-- One cell step (R64): the incoming A20 partial and the contribution after R63. -/
def cellAdd (p : Nat) (q : XVal) : Nat × CellEv :=
  match a20.decode p, q with
  | .nan, _ => (a20.qnan, {})
  | _, .nan => (a20.qnan, {})
  | .num ps pm pe, .num qs qm qe =>
    if qm = 0 then (p, {})
    else
      let eq := (qm.log2 : Int) + qe
      let e := if pm = 0 then eq else max (max ((pm.log2 : Int) + pe) (-126)) eq
      let u := e - 14
      let t := XVal.signed ps (truncUnits pm pe u) + XVal.signed qs (truncUnits qm qe u)
      if t = 0 then (0, {})
      else
        let c := roundCode a20.f a20.qmin t.natAbs u
        if c ≥ a20.inf then (a20.withSign (t < 0) a20.inf, { ovf := true })
        else if c = 0 then (0, { flush := true })
        else (a20.withSign (t < 0) c, {})
  | x, y => match x.add y with
    | .inf s => (a20.withSign s a20.inf, {})
    | _ => (a20.qnan, {})

/-- A column: the partial enters as +0 and meets the contributions in ascending reduction index (R59, R60). -/
def column (p : Nat) (ev : CellEv) : List XVal → Nat × CellEv
  | [] => (p, ev)
  | q :: r =>
    let c := contribution q
    let a := cellAdd p c.1
    column a.1 { ovf := ev.ovf || c.2.ovf || a.2.ovf, flush := ev.flush || c.2.flush || a.2.flush } r

/-- What a run output adds to the counters (R65). -/
def runOutputEv (out : Nat) (ev : CellEv) : Ev :=
  { ovf := b2n ev.ovf, flush := b2n ev.flush, nan := b2n (a20.decode out).isNan }

end Sys2Proof.Machine
end

