-- ==== Sys2Proof/Machine/Convert.lean ====
section
/-! DEFINITION. Conversion between the number formats (R43 to R52, R505) and the layout of blocked tensors (R33 to R36). -/

namespace Sys2Proof.Machine

/-- The random word of an element (R47). -/
def srWord (seed stream i : Nat) : Nat :=
  let x : W64 := BitVec.ofNat 64 (seed ^^^ ((stream % 2 ^ 24) <<< 40) ^^^ i)
  let x := x + 0x9E3779B97F4A7C15
  let x := (x ^^^ (x >>> 30)) * 0xBF58476D1CE4E5B9
  let x := (x ^^^ (x >>> 27)) * 0x94D049BB133111EB
  let x := x ^^^ (x >>> 31)
  (x >>> 32).toNat

/-- Conversion defaults as a command sampled them, or as an instruction carries them (R53, R121). -/
structure NumMode where
  sat : Bool := true
  rnd : BitVec 2 := 0
  smode : BitVec 2 := 0
  given : Byte := 0
deriving DecidableEq, Repr

/-- The magnitude code of a finite value on a grid: to nearest even, or stochastic with word r (R45, R46). -/
def gridCode (f : Nat) (qmin : Int) (sr : Option Nat) (m : Nat) (e : Int) : Nat :=
  match sr with
  | none => roundCode f qmin m e
  | some r => stochCode f qmin r m e

/-- A value out of the range of a short format (R49). -/
def shortOut (g : SFmt) (sat s : Bool) : Nat × Ev :=
  if g.hasNan && !sat then (2 ^ g.sbit, evNan) else (b2n s * 2 ^ g.sbit + g.maxCode, evSat)

/-- An element converted into a block of a short format with the given scale byte (R43 to R49, R505). -/
def toShort (g : SFmt) (sat : Bool) (sr : Option Nat) (scale : Nat) (v : XVal) : Nat × Ev :=
  if scale % 256 = 128 then
    match v with
    | .nan => (0, evNan)
    | .inf _ => (0, if g.hasNan && !sat then evNan else evSat)
    | .num _ m _ => (0, if m = 0 then {} else evFlush)
  else
    match v with
    | .nan => (if g.hasNan then 2 ^ g.sbit else 0, evNan)
    | .inf s => shortOut g sat s
    | .num s m e =>
      let c := gridCode g.f g.qmin sr m (e - scaleInt scale)
      if c > g.maxCode then shortOut g sat s
      else if c = 0 then (if g.hasNan then 0 else b2n s * 2 ^ g.sbit, if m = 0 then {} else evFlush)
      else (b2n s * 2 ^ g.sbit + c, {})

/-- An element converted into a long format; only binary16 takes stochastic rounding (R45). -/
def toLong (g : LFmt) (sr : Option Nat) (v : XVal) : Nat × Ev :=
  match v with
  | .nan => (g.qnan, evNan)
  | .num s m e =>
    match sr with
    | none => g.round v
    | some r =>
      if g.f = 10 then
        let c := stochCode g.f g.qmin r m e
        if c ≥ g.inf then (g.withSign s g.inf, evOvf)
        else if c = 0 && m ≠ 0 then (g.withSign s 0, evFlush)
        else (g.withSign s c, {})
      else g.round v
  | .inf _ => g.round v

/-- The nearest integer, ties to even. -/
def XVal.nearestInt : XVal → Int
  | .num s m e => XVal.signed s (if e ≥ 0 then m * 2 ^ e.toNat else rneShift m (-e).toNat)
  | _ => 0

/-- An element converted into an integer of the range [lo, hi], as 32 bits (R48, R49). -/
def toInteger (lo hi : Int) (v : XVal) : Nat × Ev :=
  match v with
  | .nan => (0, evNan)
  | .inf s => (uInt 32 (if s then lo else hi), evSat)
  | .num _ _ _ =>
    let i := v.nearestInt
    if i < lo then (uInt 32 lo, evSat) else if i > hi then (uInt 32 hi, evSat) else (uInt 32 i, {})

/-- One element into type t: its code (integers in their 32-bit register form), and what it counts. -/
def convert (t : Ty) (sat : Bool) (sr : Option Nat) (scale : Nat) (v : XVal) : Nat × Ev :=
  match t.short, t.long, t.intRange with
  | some g, _, _ => toShort g sat sr scale v
  | _, some g, _ => toLong g sr v
  | _, _, some (lo, hi) => toInteger lo hi v
  | _, _, none => (0, {})

/-- Step 6 of R43 and R51: AMAX is a binary32 pattern without a sign. -/
def amaxFold (acc : Nat) (v : XVal) : Nat := if v.isNan then acc else max acc (b32.roundUp v.abs)

/-- The scale byte of BLOCK mode for a block's values (R44). -/
def blockScale (g : SFmt) (vs : List XVal) : Nat :=
  let big := vs.foldl (fun a v => if v.isNan || v.isInf then a else if a.lt v.abs then v.abs else a) XVal.zero
  if big.isZero then 128
  else
    let s := big.expo - g.emax
    let s := if (XVal.ofNat g.maxfin).lt (big.scale (-s)) then s + 1 else s
    uInt 8 (max (-127) (min 127 s))

/-- Rows and columns of a block of each shape code (R33, R125). -/
def blockDims (shape : Nat) : Nat × Nat :=
  match shape with
  | 0 => (1, 16) | 1 => (1, 32) | 2 => (16, 1) | 3 => (32, 1) | _ => (4, 4)

/-- A conversion with step 6 of R43: what it counts carries the value's magnitude (R51). -/
def noted (v : XVal) (r : Nat × Ev) : Nat × Ev := (r.1, { r.2 with amax := amaxFold r.2.amax v })

/-- Bits of an element of a short format in memory (R34). -/
def Ty.packBits : Ty → Nat
  | .q4 => 4 | .q6 => 6 | .q8 => 8 | t => 8 * t.bytes

/-- Number of the block that holds element (r, c) of a tensor of `cols` columns (R34). -/
def blockIndex (shape cols r c : Nat) : Nat :=
  let d := blockDims shape
  (r / d.1) * ceilDiv cols d.2 + c / d.2

/-- Place of element (r, c) in the element array, counted in elements (R34). -/
def elemIndex (shape cols r c : Nat) : Nat :=
  let d := blockDims shape
  blockIndex shape cols r c * (d.1 * d.2) + (r % d.1) * d.2 + c % d.2

/-- Number of blocks of a padded tensor (R35). -/
def blockCount (shape rows cols : Nat) : Nat :=
  let d := blockDims shape
  ceilDiv rows d.1 * ceilDiv cols d.2

/-- Bytes of the element array and of the scale array of a tensor (R34, R35). -/
def elemBytes (t : Ty) (shape rows cols : Nat) : Nat :=
  if t.isShort then
    let d := blockDims shape
    blockCount shape rows cols * (d.1 * d.2) * t.packBits / 8
  else rows * cols * t.bytes

def scaleBytes (t : Ty) (shape rows cols : Nat) : Nat :=
  if t.isShort then blockCount shape rows cols else 0

/-- Place of element (r, c) in memory: byte offset of its first byte, and the bit in that byte. -/
def elemPlace (t : Ty) (shape cols r c : Nat) : Nat × Nat :=
  if t.isShort then
    let b := elemIndex shape cols r c * t.packBits
    (b / 8, b % 8)
  else ((r * cols + c) * t.bytes, 0)

/-! ## Whole tensors in a short format (R43, R44, R67) -/

/-- The elements of block b of a tensor, in the order of the block, those of the padding left out (R34, R35). -/
def blockCells (shape rows cols b : Nat) : List (Nat × Nat) :=
  let d := blockDims shape
  let w := ceilDiv cols d.2
  ((List.range (d.1 * d.2)).map fun i => (b / w * d.1 + i / d.2, b % w * d.2 + i % d.2)).filter fun e => e.1 < rows && e.2 < cols

/-- A tensor in a short format: element r * cols + c as its code, with its block's scale in [15:8]. -/
abbrev Short := Tab W16

/-- Converts one block: under a scale given for every block, or in BLOCK mode (R44). -/
def quantBlock (given : Option Nat) (g : SFmt) (sat : Bool) (sr : Nat → Option Nat) (cols : Nat) (v : Nat → XVal) (cells : List (Nat × Nat)) (a : Short × Ev) : Short × Ev :=
  let key := fun (e : Nat × Nat) => e.1 * cols + e.2
  let sc := given.getD (blockScale g (cells.map fun e => v (key e)))
  cells.foldl (fun a e =>
    let r := noted (v (key e)) (toShort g sat (sr (key e)) sc (v (key e)))
    (a.1.put 0 (key e) (BitVec.ofNat 16 (r.1 + 256 * sc)), a.2.add r.2)) a

/-- Converts a tensor, in GIVEN mode where a scale byte is given, else in BLOCK mode; `sr` gives an element's random word under stochastic rounding (R43 to R47). -/
def quantiseAt (given : Option Nat) (g : SFmt) (sat : Bool) (sr : Nat → Option Nat) (shape rows cols : Nat) (v : Nat → XVal) : Short × Ev :=
  (List.range (blockCount shape rows cols)).foldl (fun a b => quantBlock given g sat sr cols v (blockCells shape rows cols b) a) ([], {})

/-- Converts a tensor in BLOCK mode. -/
def quantise (g : SFmt) (sat : Bool) (sr : Nat → Option Nat) (shape rows cols : Nat) (v : Nat → XVal) : Short × Ev := quantiseAt none g sat sr shape rows cols v

/-- Value of an element of a converted tensor. -/
def shortValue (g : SFmt) (t : Short) (i : Nat) : XVal := let w := (t.get 0 i).toNat; g.value (w % 256) (w / 256)

/-- Bytes an element of t spans when its first bit is bit `b` of a byte. -/
def Ty.span (t : Ty) (b : Nat) : Nat := ceilDiv (b + t.packBits) 8

/-- Replaces the w bits at bit lo of a number. -/
def putBits (v lo w x : Nat) : Nat := v - (bits v lo w) <<< lo + (x % 2 ^ w) <<< lo

end Sys2Proof.Machine
end

