-- ==== Sys2Proof/Machine/State.lean ====
section
/-! DEFINITION. The state of the module: every register, memory, queue, counter and mode that the spec gives it (INVENTORY.md, State), and the state right after reset. -/

namespace Sys2Proof.Machine

/-- No command stops the module with a fault: every error the spec describes is a status, an event or a fault record held in State. -/
inductive Fault
deriving DecidableEq, Repr

/-- Reasons to refuse a command. -/
inductive Refusal where
  /-- Raised by an arm of Dispatch.lean whose command has no meaning yet; safe. -/
  | notModelled (mnemonic : String)
deriving DecidableEq, Repr

abbrev Res (σ : Type) := Host.Outcome σ Fault Refusal

/-! ## Messages and fault records -/

/-- A reply or event before it is put into bytes for a port (R333, R337). -/
structure Msg where
  /-- MSG_TYPE: 0 reply, 1 event, 2 port-level reply, 3 steward reply, 4 module event. -/
  type : BitVec 4 := 0
  queue : QueueId := 0
  ptn : PtnId := 0
  evKind : Byte := 0
  opcode : W16 := 0
  status : Status := 0
  seq : W32 := 0
  /-- ORDER: the ESN or the MEN. -/
  order : W64 := 0
  itemCount : W16 := 0
  resent : Bool := false
  /-- The bytes from 32 up to the trailer. -/
  body : List Byte := []
deriving DecidableEq, Repr

/-- A message waiting with both ports down, and the port it asked for: 0b01 UP0, 0b10 UP1, 0b11 both (R341). -/
structure Held where
  ports : BitVec 2 := 1
  msg : Msg := {}
deriving DecidableEq, Repr

/-- A fault record (R436). -/
structure FRec where
  men : W64 := 0
  cls : Byte := 0
  severity : Byte := 1
  unitKind : Byte := 0
  die : Byte := 0
  unit : W16 := 0
  cause : W16 := 0
  ptnMask : W32 := 0
  detail : W32 := 0
  stamp : W64 := 0
deriving DecidableEq, Repr

/-! ## Commands in progress -/

/-- One line of the item ledger (R334, R426, R427): failed takes precedence over suspect, suspect over completed. -/
structure Item where
  closed : Bool := false
  suspect : Bool := false
  failed : Option Status := none
  detail : W32 := 0
  /-- Units that computed the item since their last passing strip: n is MCn, 256 + n is TEn (R425). -/
  units : List Nat := []
  /-- Of a generation item: each of those units with the tokens committed before its first work since then (R225). -/
  ledger : List (Nat × Nat) := []
  /-- A fault that decides the item waits for its record (R431, R438). -/
  waitMen : Bool := false
deriving DecidableEq, Repr

/-- An item that a fault decides, and the SUSPECT event due to it with its FIRST_TOKEN (R427, R337). -/
structure Mark where
  ptn : PtnId := 0
  queue : QueueId := 0
  seq : W32 := 0
  item : Nat := 0
  event : Option W32 := none
deriving DecidableEq, Repr

/-- The contact sheet (R50, R333). -/
structure Sheet where
  sat : W32 := 0
  flush : W32 := 0
  ovf : W32 := 0
  nan : W32 := 0
  amax : W32 := 0
  empty : Bool := false
  splitUnaligned : Bool := false
  waited : Bool := false
deriving DecidableEq, Repr

/-- A summary slot of a launch (R138, R139). -/
structure Slot where
  value : W32 := 0
  kind : BitVec 2 := 0
  written : Bool := false
deriving DecidableEq, Repr

/-- A plan a sequencer program started: its records not yet executed, in record order. -/
structure PlanRun where
  plan : Nat := 0
  /-- Records not yet carried out, by their place in the plan. -/
  left : List Nat := []
deriving DecidableEq, Repr

/-- A split in progress: parts, and the entries each part's cores have handed on (R103 to R110). -/
structure SplitRun where
  desc : SplitDesc := {}
  /-- MC of each part. -/
  mcs : List Nat := []
  /-- Hand-offs done, as (part, level). -/
  done : List (Nat × Nat) := []
  /-- The plan started that holds it, by its place among those started, and each part's RUN records in it. -/
  plan : Nat := 0
  recs : List (List Nat) := []
deriving DecidableEq, Repr

/-- Q6 slices a command formed of a long operand (R67, R71): key (slice * ROWS + row) * COLS + column, as code and scale in [15:8]. -/
structure Formed where
  tensor : TensorDesc := {}
  vals : Tab W16 := []
  /-- How many slices. -/
  k : Nat := 1
deriving DecidableEq, Repr

/-- A re-quantised copy that a basic-level command made of an operand it reads turned (R37, R73): its own descriptor, and its elements under key row * COLS + column, as code and scale in [15:8]. -/
structure TurnCopy where
  src : TensorDesc := {}
  dst : TensorDesc := {}
  vals : Tab W16 := []
deriving DecidableEq, Repr

/-- The sequencer program of an expert command (R347). -/
structure ProgRun where
  prog : Nat := 0
  entry : Nat := 0
  step : Nat := 0
  flag : Bool := false
  /-- The program has ended and its work is over. -/
  ended : Bool := false
  /-- It ends as at END, and open items fail with this code (R134). -/
  endCode : Option Status := none
  /-- A launch or, with true, a plan it waits for. -/
  waiting : Option (Bool × Nat) := none
  counters : Tab W32 := []
  /-- Parameter slots COPY has changed: key 16 * launch + slot, over the launch record's own. -/
  params : Tab (Option W32) := []
  /-- Launch index and identity of the launches started, in order. -/
  started : List (Nat × Nat) := []
  /-- Summaries that have reached the sequencer, by identity of the launch. -/
  arrived : List (Nat × List Slot) := []
  /-- Summaries that are readable, by launch index. -/
  readable : List (Nat × List Slot) := []
  plans : List PlanRun := []
  splits : List SplitRun := []
  /-- Logical core to matrix core (R511). -/
  coreMap : List (Nat × Nat) := []
  binds : List W64 := []
  srStream : W32 := 0
deriving DecidableEq, Repr

/-- An accepted command (R320, R323, R426). -/
structure CmdRec where
  hdr : Hdr := {}
  opcode : W16 := 0
  /-- The command itself, none for a record made without a packet. -/
  cmd : Option Instr := none
  /-- Credits it holds; a record made without a packet holds no slot. -/
  credits : Nat := 0
  slot : Bool := false
  /-- Order of acceptance in the partition. -/
  num : Nat := 0
  immediate : Bool := false
  /-- What R55 samples. -/
  numMode : NumMode := {}
  srSeed : W64 := 0
  started : Bool := false
  items : List Item := []
  sheet : Sheet := {}
  result : List Byte := []
  preempts : W32 := 0
  overrunUs : W32 := 0
  switchUs : W32 := 0
  switches : W16 := 0
  holderRuns : W16 := 0
  prog : Option ProgRun := none
  formed : List Formed := []
  copies : List TurnCopy := []
  /-- Erg bytes kept for its slices and copies from before its first item (R71, R73). -/
  ergKept : Nat := 0
  /-- Models whose slices a generation command has formed and counted (R71). -/
  sliced : List Nat := []
  /-- Its grant found a part of its working set missing, and the time of that switch has not come yet (R309). -/
  switching : Bool := false
deriving DecidableEq, Repr

/-! ## Loaded images (R344 to R348) -/

structure Layer where
  kind : Byte := 0
  flags : Byte := 0
  param : W32 := 0
  tensors : List W16 := []
  fval : W32 := 0
deriving DecidableEq, Repr

structure CoreEntry where
  core : Nat := 0
  entry : Nat := 0
  /-- Bit 8 * SC + T. -/
  mask : BitVec 256 := 0
deriving DecidableEq, Repr

structure LaunchRec where
  kernel : Nat := 0
  ocBase : Nat := 0
  ocKib : Nat := 0
  summaries : Nat := 0
  base : List W48 := []
  param : List W32 := []
  cores : List CoreEntry := []
deriving DecidableEq, Repr

inductive PlanRec where
  | run (core : Nat) (d : RunDesc)
  | split (d : SplitDesc)
  | waitSem (core : Nat) (sem : SemId)
  | postSem (core : Nat) (sem : SemId)
deriving DecidableEq, Repr

structure SeqStep where
  sop : Byte := 0
  fl : Byte := 0
  a : W16 := 0
  b : W16 := 0
  slotA : BitVec 4 := 0
  slotB : BitVec 4 := 0
  imm : W32 := 0
deriving DecidableEq, Repr

structure EntryRec where
  first : Nat := 0
  items : Nat := 1
  fixed : Bool := false
deriving DecidableEq, Repr

/-- An instruction word with its operation code. -/
structure OpWord where
  op : BitVec 7 := 0
  w : IWord := {}
deriving DecidableEq, Repr

structure Image where
  kind : Nat := 2
  vocab : Nat := 0
  tensors : List TensorDesc := []
  layers : List Layer := []
  kernels : List (List OpWord) := []
  launches : List LaunchRec := []
  plans : List (List PlanRec) := []
  steps : List SeqStep := []
  entries : List EntryRec := []
  /-- Section types in the order of the section table. -/
  order : List Nat := []
  /-- Offset and bytes of WEIGHTS, if the image has the section. -/
  weights : Option (Nat × Nat) := none
deriving DecidableEq, Repr

/-- A loaded program (PROG_LOAD). -/
structure Program where
  handle : Nat := 0
  image : Image := {}
  hash : List Byte := []
  /-- Bytes of its image. -/
  bytes : Nat := 0
deriving DecidableEq, Repr

/-! ## Threads -/

/-- A load outstanding: its destination and what it brings (R131). -/
structure Load where
  d : BitVec 5 := 0
  v : W32 := 0
deriving DecidableEq, Repr

/-- What a thread waits for. -/
inductive Wait where
  | none
  | bar
  | sem (s : SemId)
  | te (n : Nat)
  /-- The stream unit works; G[d] receives the result at its end; a grouped SRED takes every unit of the core. -/
  | stream (d : Option (BitVec 5)) (v : W32) (grouped : Bool)
deriving DecidableEq, Repr

/-- A hardware thread (R111, R112). -/
structure Thread where
  running : Bool := false
  launch : Nat := 0
  pc : Nat := 0
  /-- G1 to G31. -/
  g : Tab W32 := []
  /-- K1 to K7 in bits 1 to 7. -/
  k : BitVec 8 := 0
  b : List W48 := []
  loads : List Load := []
  /-- Table-engine requests outstanding. -/
  teOut : Nat := 0
  wait : Wait := .none
deriving DecidableEq, Repr

/-- A matrix core's state in a save area (R290, R298). -/
structure SavedCore where
  mc : Nat := 0
  acc : Tab Entry := []
  oc : Tab Byte := []
  /-- Threads by their number within the core. -/
  ths : Tab Thread := []
  /-- The run of the firmware's that last worked on each tile. -/
  fwLast : Tab (Option (RunDesc × TensorDesc × TensorDesc)) := []
deriving DecidableEq, Repr

/-! ## A partition -/

inductive JobSt where
  | idle | ready | running | stopping | stopped | restoring
deriving DecidableEq, Repr

/-- A queue and its job (R285, R288, R291, R296, R319). ENABLE stands in `Ptn.qEnable`. -/
structure Job where
  share : W16 := 0x0100
  footprint : BitVec 6 := 0
  /-- SHARE and FOOTPRINT as written since the last scheduling decision, at which they take effect (R288). -/
  cfg : Option (W16 × BitVec 6) := none
  /-- MC·ns of test strips on its cores since its last charge, charged to no job (R294). -/
  exempt : Nat := 0
  lastSeq : Option W32 := none
  charge : W64 := 0
  preempts : W32 := 0
  overruns : W16 := 0
  holderRuns : W16 := 0
  vt : BitVec 128 := 0
  st : JobSt := .idle
  /-- Core groups granted. -/
  cgs : BitVec 32 := 0
  /-- What the save areas hold, in ascending core order (R298, R299). -/
  saved : List SavedCore := []
  /-- Core groups it held when it was stopped. -/
  savedCgs : Nat := 0
  /-- A slice of a non-preemptible command has ended while it ran (R302). -/
  overrunning : Bool := false
  /-- The candidate it was pre-empted for, and the core groups that its own pre-emptions of others have reserved for it (R293). -/
  stopFor : Option QueueId := none
  kept : BitVec 32 := 0
deriving DecidableEq, Repr

/-- A holder run in progress (R305): the waiting job, the holders in order of nesting, the semaphore. -/
structure HolderRun where
  waiter : QueueId := 0
  holder : QueueId := 0
  sem : SemId := 0
  /-- Core groups reserved for the holder. -/
  reserved : BitVec 32 := 0
  running : Bool := false
deriving DecidableEq, Repr

/-- A semaphore (R303 to R306). -/
structure Sem where
  count : W32 := 0
  ovf : Bool := false
  /-- Completed SWAITs minus posts, of each job. -/
  balance : List (QueueId × Int) := []
  /-- Waiters in order of arrival: the job, and a thread, or 65536 + n for MCn's plan. -/
  waiters : List (QueueId × Nat) := []
deriving DecidableEq, Repr

/-- An account of a customer tag (R295). -/
structure Acct where
  tag : W32 := 0
  overflow : Bool := false
  mcNs : W64 := 0
deriving DecidableEq, Repr

/-- A window entry (R234). -/
structure Win where
  dev : BitVec 11 := 0
  valid : Bool := false
  ro : Bool := false
  shared : Bool := false
deriving DecidableEq, Repr

/-- Violation capture (R276, R277). -/
structure Viol where
  addr : W48 := 0
  kind : BitVec 4 := 0
  source : BitVec 4 := 0
  unit : Byte := 0
  write : Bool := false
  valid : Bool := false
  count : W32 := 0
deriving DecidableEq, Repr

/-- A partition's memory side (R233, R259, R260). -/
structure PMem where
  loose : BitVec 256 := 0
  wins : Tab Win := []
  keyLabel : W64 := 0
  /-- Key slot loaded (R251). -/
  keyLoaded : Bool := false
  dataSlots : Byte := 0
  fixSlots : Byte := 0
  sharedShare : Byte := 0
  /-- A new SHARED share that the next wheel boundary brings (R255). -/
  sharePending : Option Byte := none
  lend : Bool := false
  borrow : Bool := false
  viol : Viol := {}
deriving DecidableEq, Repr

/-! ## Models, training and serving (R166, R177 to R226) -/

/-- A matrix of binary32 patterns, row by row. -/
structure Mat where
  rows : Nat := 0
  cols : Nat := 0
  v : List Nat := []
deriving DecidableEq, Repr

/-- A trainable weight set: one trainable tensor of a model (R191 to R197, R387, R411). -/
structure WSet where
  tensor : Nat := 0
  version : W64 := 0
  /-- Two version buffers (TWO_VERSIONS). -/
  two : Bool := false
  /-- The buffers hold binary16 values, kept here as their binary32 patterns. -/
  b16 : Bool := false
  /-- Buffers 0 and 1, master weights and moments, by element. -/
  buf0 : Tab W32 := []
  buf1 : Tab W32 := []
  master : Tab W32 := []
  m : Tab W32 := []
  v : Tab W32 := []
  invalid : Bool := false
  /-- It has received an update. -/
  updated : Bool := false
  /-- An update has acquired its target buffer. -/
  writing : Bool := false
  /-- Communication group of its last update (R395). -/
  group : W32 := 0xFFFFFFFF
  /-- Low-rank basis and residual (R387). -/
  basis : Tab W32 := []
  resid : Tab W32 := []
  /-- Gradient area of the set: what BWD_MB commands have folded since its last update, by element (R188, R189). -/
  grad : Tab Entry := []
deriving DecidableEq, Repr

/-- A resident model (R325, R344, R346, R416). -/
structure Model where
  handle : Nat := 0
  image : Image := {}
  hash : List Byte := []
  flags : W32 := 0
  addr : Nat := 0
  bytes : Nat := 0
  /-- Source VERSION of a negative. -/
  version : W64 := 0
  sets : List WSet := []
  /-- Partition granules of its KV pool, and of its buffers and turned copy. -/
  pool : List Nat := []
  areas : List Nat := []
  /-- Pages of the pool in use, by their numbers in it. -/
  pagesUsed : List Nat := []
  /-- Its resident turned copies: tensor, and elements with their scales (R171). -/
  turned : List (Nat × Tab W16) := []
deriving DecidableEq, Repr

/-- A variant: private experts of one customer (R214). -/
structure Variant where
  model : Nat := 0
  tag : W32 := 0
  version : W64 := 0
  addr : Nat := 0
  bytes : Nat := 0
  hash : List Byte := []
  /-- Partition granules of its expert table, which holds the set's bytes. -/
  area : List Nat := []
  /-- Named by the variant table; otherwise open streams still use it. -/
  current : Bool := true
deriving DecidableEq, Repr

inductive MbPlace where
  | resident | spilled | filling
deriving DecidableEq, Repr

/-- What a working-set area of the Erg is a copy of: a tensor of a model's image, the tables, code and plans of a program's, a customer's private experts (R216, R308). -/
inductive WorkKey where
  | tensor (image : List Byte) (index : Nat)
  | program (image : List Byte)
  | experts (model : Nat) (tag : W32) (version : W64)
deriving DecidableEq, Repr

/-- A working-set area (R308). -/
structure WorkArea where
  key : WorkKey
  bytes : Nat := 0
deriving DecidableEq, Repr

/-- A pending micro-batch (R180 to R187). -/
structure Mb where
  id : W32 := 0
  expert : Bool := false
  queue : QueueId := 0
  seq : W32 := 0
  index : Nat := 0
  /-- Model, set and version of the weight sets that its forward used. -/
  versions : List (Nat × Nat × W64) := []
  bytes : Nat := 0
  place : MbPlace := .resident
  /-- ESN standing when its forward item completed, none while it runs. -/
  done : Option W64 := none
  /-- Its forward item failed (R190). -/
  failed : Option Status := none
  suspect : Bool := false
  bwdRunning : Bool := false
  /-- What the region holds of it, in the order of R181's entries; nothing once it is spilled. -/
  stash : List Byte := []
  /-- Where the spill window holds it. -/
  winOff : Nat := 0
  /-- Its tokens, and the experts chosen for each, by layer. -/
  toks : List Nat := []
  routes : List (Nat × List (List (Nat × Nat))) := []
deriving DecidableEq, Repr

/-- What the contact path has found of a token (R148, R156, R163). -/
structure TokRec where
  n : Nat := 0
  masked : Bool := false
  valid : Bool := false
  clipped : Bool := false
  loss : Nat := 0
  tail : Nat := 0
  /-- Terms of its taps. -/
  taps : List Nat := []
deriving DecidableEq, Repr

/-- A teacher row in the tap area: tap, token, and the Q8 elements with their scales (R162). -/
structure TapRow where
  tap : Nat := 0
  tok : Nat := 0
  row : Tab W16 := []
deriving DecidableEq, Repr

/-- A slot of a lane's pairing ring: the teacher's tile of a row block (R159). -/
structure RingSlot where
  lane : Nat := 0
  slot : Nat := 0
  block : Nat := 0
  tile : Nat := 0
  y : Mat := {}
deriving DecidableEq, Repr

/-- The contact buffer's contents (R144, R148, R151 to R153, R159, R162, R166). -/
structure ContactBuf where
  /-- Statistics: token, RHO and L_S. -/
  stats : List (Nat × Nat × Nat) := []
  /-- Target window of FULL, by lane, parity and row: 128 × lane + 64 × parity + row; and the target records of TOPK, by token. -/
  window : List (Nat × List Byte) := []
  records : List Byte := []
  rings : List RingSlot := []
  taps : List TapRow := []
  /-- Rank scratch: words 4 × item for the teacher's score, the student's, and the score gradient. -/
  scratch : Tab W32 := []
deriving DecidableEq, Repr

/-- A training command in progress: its working area, and what its items wait for (R144, R152, R187, R192, R193, R330). -/
structure Train where
  queue : QueueId := 0
  seq : W32 := 0
  expert : Bool := false
  eval : Bool := false
  student : Nat := 0xFFFF
  teacher : Nat := 0xFFFF
  mbCount : Nat := 0
  mbTokens : Nat := 0
  adamw : Bool := false
  group : W32 := 0xFFFFFFFF
  opt : Opt := {}
  contact : ContactDesc := {}
  batchAddr : Nat := 0
  /-- Bytes of its contact buffer (R166), the slices it lies in, and what it holds. -/
  buf : Nat := 0
  slices : List Nat := []
  cb : ContactBuf := {}
  /-- Versions of the weight sets of its models, sampled as its first forward item started: model, set, version. -/
  versions : Option (List (Nat × Nat × W64)) := none
  /-- Stored targets, tap or list table, and token mask, as read when it started. -/
  stored : List Byte := []
  table : List Byte := []
  mask : List Byte := []
  /-- Row blocks of 64 tokens finalised, what was found of their tokens, and the means of the lists (R165). -/
  blocks : List Nat := []
  recs : List TokRec := []
  lists : List (Nat × Option Nat) := []
  /-- The means have been formed and counted. -/
  lossDone : Bool := false
  /-- Cores of the two sides (R143). -/
  tCores : List Nat := []
  sCores : List Nat := []
  /-- The micro-batch that runs forward: tokens, finished hidden states of both sides, and the layer outputs that the taps name. -/
  toks : List Nat := []
  tHid : Mat := {}
  sHid : Mat := {}
  tTap : List Mat := []
  sTap : List Mat := []
  /-- Its head gradient and tap gradients, by row × width + column. -/
  heads : List (Tab W32) := []
  /-- Row blocks whose logit gradients have still to go into dW of the vocabulary projection, ascending: block, X and dY (R188). -/
  late : List (Nat × Mat × Mat) := []
  /-- d_T of an expert program's taps, and Erg bytes of the slices and copies made for the command (R71, R73, R162). -/
  tapCols : List Nat := []
  made : Nat := 0
  /-- K and V of the positions before it, by layer: the teacher's, and the student's where it keeps no stash. -/
  tKv : List (Nat × Mat × Mat) := []
  sKv : List (Nat × Mat × Mat) := []
  /-- Gradient area, by tensor (R188), and the dK and dV handed to earlier micro-batches, by 2 × layer + 0 or 1. -/
  grads : List (Nat × Tab Entry) := []
  dkv : List (Nat × Tab Entry) := []
  /-- Forward item to run next, and whether it has started; backward items still to run; sets whose update items still have to run. -/
  nextFwd : Nat := 0
  fwdOpen : Bool := false
  leftBwd : List Nat := []
  leftUpd : List Nat := []
  /-- Names the free values of its kernels. -/
  seed : Nat := 0
  skipped : W32 := 0
deriving DecidableEq, Repr

/-- A stream (R199 to R221). -/
structure Stream where
  id : Nat := 0
  queue : QueueId := 0
  seq : W32 := 0
  item : Nat := 0
  req : GenReq := {}
  /-- CHUNK_MAX in tokens, and the CTRL time in microseconds at acceptance. -/
  chunkMax : Nat := 2048
  acceptUs : Nat := 0
  /-- Variant version sampled, where the model carries private experts. -/
  variant : Option W64 := none
  /-- Versions of the weight sets of its command's models, sampled as the command's first chunk started: model, set, version (R192). -/
  versions : Option (List (Nat × Nat × W64)) := none
  /-- Image of the program that replaces the step kernels, by its hash. -/
  prog : List Byte := []
  prompt : List W32 := []
  /-- Tokens to prefill, those whose chunks have completed, and those that a fallback computes again without a charge (R218). -/
  toFill : Nat := 0
  filled : Nat := 0
  again : Nat := 0
  /-- Committed positions, the pending token, and the tokens committed. -/
  c : Nat := 0
  pending : W32 := 0
  /-- Its first pending token has been chosen. -/
  primed : Bool := false
  toks : List W32 := []
  /-- Depth, and steps since it last changed (R210). -/
  depth : Nat := 0
  since : Nat := 0
  /-- Seating number, whether a step has it seated, the depth of that step, and DEPTH_MAX as the step sampled it. -/
  seat : Nat := 0
  seated : Bool := false
  stepDepth : Nat := 0
  stepMax : Nat := 8
  /-- Page lists of its model's pool and of its draft's: the pool's page for each 64 positions, one list for each attention layer (R204). -/
  pages : List (List Nat) := []
  dpages : List (List Nat) := []
  /-- The draft's own commit pointer: positions whose K and V it has written and kept (R207). -/
  dc : Nat := 0
  proposed : W32 := 0
  accepted : W32 := 0
  steps : Nat := 0
  /-- Times of its last step commits, newest first, at most 17. -/
  times : List Nat := []
  /-- It has been on hold for its budget. -/
  held : Bool := false
  onFallback : Bool := false
  fallbackFirst : W32 := 0xFFFFFFFF
  /-- Its place among the switches of the streams that wait (R221). -/
  switched : Nat := 0
  cancelled : Bool := false
deriving DecidableEq, Repr

/-- A budget record (R217, R327). -/
structure Budget where
  tag : W32 := 0
  tokens : W64 := 0
  intervalUs : W64 := 0
  balance : BitVec 64 := 0
deriving DecidableEq, Repr

/-- Positions that a stream processed for its customer tag (R295). -/
structure Worked where
  queue : QueueId := 0
  stream : Nat := 0
  tag : W32 := 0
  n : Nat := 0
  /-- When it was seated, in the order of seatings; none of a stream that only chunks have worked on. -/
  seat : Option Nat := none
deriving DecidableEq, Repr

/-- Serving side of a partition (R211, R222, R223). -/
structure Serve where
  maxStreams : BitVec 13 := 0x40
  chunkMax : BitVec 6 := 0x20
  slackUs : BitVec 12 := 0xBB8
  depthInit : BitVec 4 := 4
  depthMax : BitVec 4 := 8
  fallbacks : W16 := 0
  seating : W64 := 0
  nextStream : Nat := 0
  streams : List Stream := []
  budgets : List Budget := []
  variants : List Variant := []
  /-- Models with a step formed and not yet committed. -/
  inStep : List Nat := []
  /-- Positions that streams have processed since their job's last charge, in order of their first seating (R295). -/
  worked : List Worked := []
deriving DecidableEq, Repr

/-- Training side of a partition (R177 to R188). -/
structure Trainer where
  stashMib : W16 := 0
  spillGib : BitVec 11 := 0
  stashQ6 : Bool := false
  spillBase : BitVec 18 := 0
  spills : W32 := 0
  peakSpill : BitVec 11 := 0
  mbs : List Mb := []
  runs : List Train := []
  /-- Units that computed backward items since their last passing strips, and whether one of them has failed a strip since the last update (R428). -/
  bwdUnits : List Nat := []
  bwdBad : Bool := false
  /-- What BWD_MB commands that are over still have to fold into the gradient areas, in the order of acceptance: the command's number, its micro-batch, the seed of its values (R189). -/
  folds : List (Nat × Mb × Nat) := []
deriving DecidableEq, Repr

/-! ## Qorea: packets, groups, rounds (R349 to R390) -/

/-- A Qorea packet (R362). -/
structure QPkt where
  dstNode : BitVec 13 := 0
  dstPtn : BitVec 5 := 0
  srcPtn : PtnId := 0
  vl : BitVec 4 := 0
  kind : Byte := 0
  enc : Bool := false
  last : Bool := false
  xfer : W32 := 0
  keyId : Byte := 0
  offset : W64 := 0
  pktNum : W64 := 0
  payload : List Byte := []
  /-- The job whose transfer or round it belongs to (R297). -/
  job : Option QueueId := none
deriving DecidableEq, Repr

/-- Reservation of a partition on a port (R361). -/
structure QRes where
  weight : Byte := 0
  fixCr : Byte := 0
  bulkCr : Byte := 0
  gradCr : Byte := 0
  paramCr : Byte := 0
  fixPrio : Bool := false
deriving DecidableEq, Repr

/-- A Qorea port (R351 to R361, R365, R481). -/
structure QPort where
  /-- 0 DOWN, 1 TRAINING, 2 UP. -/
  st : BitVec 2 := 0
  half : Bool := false
  laneSet : Bool := false
  downCause : BitVec 4 := 0
  peer : BitVec 13 := 0x1FFF
  retryEvents : W16 := 0
  downCount : W16 := 0
  fecCe : W32 := 0
  fecUe : W16 := 0
  dropped : W16 := 0
  enable : Bool := true
  degradeEn : Bool := false
  rstCause : Byte := 0
  rstCount : W16 := 0
  res : Tab QRes := []
  routes : BitVec 8192 := 0
  /-- Failed training attempts of the training in progress. -/
  attempts : Nat := 0
  /-- Training stands at step 4 while NODE is 0x1FFF (R364). -/
  atStep4 : Bool := false
  fseqTx : BitVec 12 := 0
  fseqRx : BitVec 12 := 0
  /-- Discarding until the expected flit arrives (R352). -/
  discarding : Bool := false
  /-- The flit the peer NAKed last and how often in a row; NAKs sent in a row for the expected flit. -/
  nakFseq : BitVec 12 := 0
  nakRun : Nat := 0
  nakSent : Nat := 0
  /-- Its replay buffer holds a word with an uncorrectable error, and how many errors have been corrected in it (R433). -/
  bufUe : Bool := false
  bufCe : W32 := 0
  /-- Last FSEQ the peer has acknowledged. -/
  acked : BitVec 12 := 0xFFF
  /-- Packets given to the port: in flight, and waiting for a credit. -/
  flight : List QPkt := []
  queue : List QPkt := []
  /-- Acknowledgements of packets that it has sent, each with its flit, until its peer acknowledges that flit (R359, R366). -/
  acks : List (BitVec 12 × QHdr) := []
deriving DecidableEq, Repr

/-- An open transfer (R326, R365, R366, R369). -/
structure Xfer where
  id : W32 := 0
  ptn : PtnId := 0
  hdr : Hdr := {}
  /-- 0 DATA_IN, 1 DATA_OUT, 2 SHARED_LOAD. -/
  dir : BitVec 2 := 0
  ep : Endpoint := {}
  addr : Nat := 0
  bytes : Nat := 0
  /-- Bytes written or read so far. -/
  moved : Nat := 0
  /-- Packets of a DATA_OUT given to ports so far (R365). -/
  sent : Nat := 0
  /-- Packets accepted: source and PKT_NUM. -/
  seen : List (BitVec 13 × BitVec 5 × W64) := []
deriving DecidableEq, Repr

inductive GroupSt where
  | forming | active | restoring
deriving DecidableEq, Repr

/-- A bucket of a round (R375 to R380, R386). -/
structure Bucket where
  start : Nat := 0
  len : Nat := 0
  /-- The tensor thinned, if it is a thinned bucket. -/
  thin : Bool := false
  /-- This member's own elements of the reduction in progress. -/
  vals : List W32 := []
  /-- Reports: member, e, NONFINITE. -/
  exps : List (Nat × BitVec 16 × Bool) := []
  /-- SCALE: F and its mark (0 none, 1 non-finite, 2 zero). -/
  scale : Option (BitVec 16 × BitVec 2) := none
  acc : Tab W32 := []
  /-- Added packets: member and OFFSET, and elements received of each member. -/
  added : List (Nat × Nat) := []
  count : Tab Nat := []
  /-- The owner's result, sent as PARAM once its closing strips have passed (R428). -/
  out : Option (List W32) := none
  sent : Bool := false
  /-- Element offsets of PARAM taken, how many elements they brought, and whether all are there. -/
  params : List Nat := []
  got : Nat := 0
  written : Bool := false
  /-- Reductions of a thinned bucket that are complete: P, then Q′ (R386); the orthonormal P̂ received. -/
  stage : Nat := 0
  phat : List W32 := []
deriving DecidableEq, Repr

/-- What a round reduces. -/
inductive RoundWork where
  | update (model set : Nat) (adamw : Bool) (opt : Opt) (grad : List W32)
  | reduce (outB16 : Bool) (elems src dst : Nat)
deriving DecidableEq, Repr

/-- An open round at this member (R375, R376). -/
structure Round where
  num : W64 := 1
  hdr : Hdr := {}
  item : Nat := 0
  work : RoundWork := .reduce false 0 0 0
  buckets : List Bucket := []
  expSent : Bool := false
  skipped : W32 := 0
  seen : List (BitVec 13 × BitVec 5 × W64) := []
deriving DecidableEq, Repr

/-- A communication group at this member (R370 to R374, R413). -/
structure Group where
  block : GroupBlock := {}
  st : GroupSt := .forming
  epoch : W64 := 0
  roundTotal : W64 := 0
  /-- Round number last opened in this epoch. -/
  opened : W64 := 0
  /-- Members whose JOIN of the epoch has arrived. -/
  joined : List Nat := []
  /-- Conditions of R413: restored since RESTORING, and a GROUP_SET above every epoch held. -/
  restored : Bool := false
  newEpoch : Bool := false
  maxEpoch : W64 := 0
  rounds : List Round := []
  /-- EXP reports held for rounds not yet opened: round, bucket, member, e, NONFINITE. -/
  heldExps : List (W64 × Nat × Nat × BitVec 16 × Bool) := []
  /-- Rounds not yet opened here that a member has ended with ABSENT. -/
  absents : List W64 := []
  /-- Update items that wait for FORMING to end: command and item. -/
  waiting : List (Hdr × Nat) := []
  nRounds : W32 := 0
  stale : W16 := 0
  aborts : W16 := 0
deriving DecidableEq, Repr

/-- A traffic-key slot (R389, R390, R459). -/
structure TKey where
  key : Option (List Byte) := none
  /-- Pending ephemeral private key. -/
  pend : Option Nat := none
  pktNum : W64 := 1
deriving DecidableEq, Repr

/-! ## The Fixer (R391 to R416) -/

/-- SOURCE role (R409). -/
structure Partner where
  node : BitVec 13 := 0x1FFF
  ptn : BitVec 5 := 0
  feed : BitVec 4 := 0
  valid : Bool := false
  nonIndep : Bool := false
  override : Bool := false
deriving DecidableEq, Repr

/-- Half of a holder's area (R408). -/
structure Half where
  num : W32 := 0
  total : Nat := 0
  complete : Bool := false
deriving DecidableEq, Repr

/-- HOLD or NEG_RECV role (R406), and the copy or image that is arriving. -/
structure AreaRole where
  src : Endpoint := {}
  addr : Nat := 0
  bytes : Nat := 0
  half0 : Half := {}
  half1 : Half := {}
  /-- What arrives: its number, its length once known, the bytes of it that are in, and the packets accepted. -/
  cur : Option W32 := none
  total : Option Nat := none
  got : Nat := 0
  seen : List (BitVec 13 × BitVec 5 × W64) := []
  /-- Packets that arrived ahead of the header: offset and bytes. -/
  early : List (Nat × List Byte) := []
  /-- It does not fit: nothing of it is written. -/
  refused : Bool := false
  /-- Digest that its end packet gave. -/
  fin : Option (List Byte) := none
deriving DecidableEq, Repr

/-- An open copy of a CKPT_SAVE, or a shipment: waiting for its acknowledgement (R403, R415). -/
structure Copy where
  hdr : Hdr := {}
  item : Nat := 0
  partner : Bool := false
  num : W32 := 0
  total : Nat := 0
  digest : List Byte := []
  dest : Endpoint := {}
deriving DecidableEq, Repr

/-- A restore in progress (R411). -/
structure Restore where
  hdr : Hdr := {}
  source : Endpoint := {}
  num : W32 := 0
  total : Nat := 0
  /-- Bytes received so far, by OFFSET, and how many have been asked for. -/
  got : Tab (Option Byte) := []
  want : Nat := 160
  /-- Steps 1 to 3 have been passed. -/
  started : Bool := false
  /-- Resident handles that take the place of the saved ones, in record order. -/
  handles : List Nat := []
deriving DecidableEq, Repr

/-- The Fixer's side of a partition. -/
structure FixP where
  ports : BitVec 48 := 0
  nextCkpt : W32 := 1
  lastDurable : W32 := 0
  partner : Partner := {}
  hold : Option AreaRole := none
  neg : Option AreaRole := none
  copies : List Copy := []
  /-- Flags of the checkpoint being saved: STORE_ACKED, PARTNER_ACKED, NON_INDEPENDENT. -/
  acked : BitVec 3 := 0
  /-- Items reported suspect since the previous snapshot point. -/
  suspect : Bool := false
  restore : Option Restore := none
  ship : Option Copy := none
  /-- A SOURCE PARTNER_SET that waits for HELLO_ACK. -/
  hello : Option (Hdr × Endpoint × Bool) := none
  /-- Endpoint of the SOURCE role. -/
  peer : Endpoint := { node := 0x1FFF }
deriving DecidableEq, Repr

/-- Flow, ordering and fault reporting of a partition (R342, R446, R457, R481). -/
structure PFlow where
  esn : W64 := 1
  eventPort : BitVec 2 := 0
  suspectItems : W32 := 0
  faultEvents : W16 := 0
  lastMen : W64 := 0
  createMen : W64 := 0
  slSeen : Bool := false
  rstCause : Byte := 0
  rstCount : W16 := 0
  /-- Accepted commands not yet reported. -/
  cmds : List CmdRec := []
  nextNum : Nat := 0
  /-- Commands accepted before the last partition reset have lower numbers. -/
  resetMark : Nat := 0
  /-- PKT_NUM of the next packet that is not encrypted (R362). -/
  pktNum : W64 := 1
deriving DecidableEq, Repr

/-- Partition. -/
structure Ptn where
  /-- 0 FREE, 1 ACTIVE, 2 RESETTING. -/
  st : BitVec 2 := 0
  cgs : BitVec 32 := 0
  /-- Core groups whose release waits (R281). -/
  releasing : BitVec 32 := 0
  /-- Held core groups in L1 (R469). -/
  l1 : BitVec 32 := 0
  sliceUs : W16 := 0x03E8
  qEnable : BitVec 8 := 1
  jobs : Tab Job := []
  sems : Tab Sem := []
  holders : List HolderRun := []
  accts : List Acct := []
  numMode : NumMode := {}
  srSeed : W64 := 0
  mem : PMem := {}
  flow : PFlow := {}
  progs : List Program := []
  models : List Model := []
  /-- Working-set areas in its Erg, the least recently used first (R308). -/
  work : List WorkArea := []
  train : Trainer := {}
  serve : Serve := {}
  groups : List Group := []
  tkeys : Tab TKey := []
  fix : FixP := {}
deriving DecidableEq, Repr

/-! ## Matrix cores, launches, table engines -/

/-- A weight set (R59, R60, R69): element codes with scales in [15:8], key 8192 * slice + 64 * k + n. -/
structure WTile where
  q4 : Bool := false
  vals : Tab W16 := []
deriving DecidableEq, Repr

inductive StripSt where
  | idle | due | first
  /-- The second strip, with the first failed signature index. -/
  | second (sig : W32)
  /-- A revival: strips passed so far of 8 (R429). -/
  | revive (n : Nat)
deriving DecidableEq, Repr

/-- Strip schedule and state of a core or an engine (R421 to R424, R445). -/
structure Strip where
  strips : W32 := 0
  fails : W16 := 0
  rotation : BitVec 3 := 0
  retired : Bool := false
  st : StripSt := .idle
  /-- STRIP_NOW commands waiting for this unit: partition, queue, SEQ, item. -/
  waiters : List (PtnId × QueueId × W32 × Nat) := []
deriving DecidableEq, Repr

/-- A matrix core (R12, R84, R134). -/
structure MCore where
  /-- Accumulator entries: key 4096 * tile + 64 * row + column. -/
  acc : Tab Entry := []
  oc : Tab Byte := []
  active : WTile := {}
  shadow : WTile := {}
  /-- The turn buffer was filled by the previous run (R72). -/
  turnBusy : Bool := false
  /-- Tiles held by a run (R77, R79). -/
  tiles : BitVec 8 := 0
  /-- The array stands at a tile boundary (R57). -/
  boundary : Bool := true
  /-- The last run issued has TILE_END. -/
  tileEnd : Bool := true
  /-- Tiles of each run that has not made its last promotion, oldest first, and the plan it belongs to; `tiles` is their union (R77, R79). -/
  flight : List (BitVec 8 × Option Nat) := []
  /-- Runs that the firmware has issued since it last closed a tile (R57). -/
  fwTile : List RunDesc := []
  /-- The last run the firmware issued into each accumulator tile, with its operands (R58, R102). -/
  fwLast : Tab (Option (RunDesc × TensorDesc × TensorDesc)) := []
  /-- Words of its local memories with an uncorrectable error, as DETAIL of R512 and a word: 0 the entry, 1 operand-cache address ÷ 8, 2 the thread's number in the core × 32 + register ÷ 2; and how many errors have been corrected in them (R433). -/
  localUe : List (Nat × Nat) := []
  localCe : W32 := 0
  strip : Strip := {}
deriving DecidableEq, Repr

/-- A launch in progress (R112, R134, R139). -/
structure Launch where
  id : Nat := 0
  ptn : PtnId := 0
  queue : QueueId := 0
  seq : W32 := 0
  index : Nat := 0
  code : List OpWord := []
  lr : LaunchRec := {}
  params : List W32 := []
  /-- Matrix cores in the launch's core list order. -/
  mcs : List Nat := []
  slots : List Slot := []
  /-- Every thread named, and those that have ended. -/
  threads : List Nat := []
  ended : List Nat := []
  /-- A fault stops the launch (R141). -/
  failed : Option Status := none
  numMode : NumMode := {}
  srSeed : W64 := 0
  srStream : W32 := 0
deriving DecidableEq, Repr

/-- A table-engine request (R265): from a thread, or from TABLE_OP item `item`. -/
structure TeWork where
  req : TeReq := {}
  ptn : PtnId := 0
  queue : QueueId := 0
  seq : W32 := 0
  /-- Issuing thread and its launch, none for TABLE_OP. -/
  thread : Option (Nat × Nat) := none
  item : Nat := 0
  /-- The effect has taken place. -/
  done : Bool := false
  failed : Option Status := none
deriving DecidableEq, Repr

structure TEng where
  reqs : List TeWork := []
  strip : Strip := {}
deriving DecidableEq, Repr

/-! ## Memory -/

/-- The key a line's bytes were written under: slot and label (R250, R252). -/
abbrev KeyTag := Option (Nat × W64)

/-- ECC counters of an Erg die or an LPDDR5X channel (R264). -/
structure Ecc where
  ce : BitVec 24 := 0
  ue : W16 := 0
  passes : W16 := 0
deriving DecidableEq, Repr

/-- Erg and LPDDR5X in one device address space (R228). -/
structure Mem where
  /-- Bytes by device address, as they stand before encryption; a byte not listed is zero. -/
  bytes : Tab Byte := []
  /-- The memory root key, from the boot on (R251, R448). -/
  root : List Byte := []
  /-- Key of a device granule's bytes, and of 64-byte sectors written since under another. -/
  granKey : Tab KeyTag := []
  sectKey : Tab (Option KeyTag) := []
  /-- Device addresses of the words with an uncorrectable error, ascending. -/
  ue : List Nat := []
  /-- Last holder of each Erg slice: partition, and the MEN of its creation (R236, R280). -/
  lastHolder : Tab (Option (PtnId × W64)) := []
  erg : Tab Ecc := []
  memc : Tab Ecc := []
deriving DecidableEq, Repr

/-! ## Module registers -/

/-- MOD_ (R244, R245, R364, R481). -/
structure ModR where
  base : BitVec 11 := 0
  gib : BitVec 11 := 0
  /-- 0 EMPTY, 1 LOADING, 2 SEALED. -/
  state : BitVec 2 := 0
  sharedSlots : Byte := 0
  lendEn : Bool := false
  label : W64 := 0
  fill : W64 := 0
  hash : List Byte := []
  node : BitVec 13 := 0x1FFF
  rstCause : Byte := 0x01
  rstKind : BitVec 2 := 0
  warmCount : W16 := 0
deriving DecidableEq, Repr

/-- CLK_ (R466). -/
structure Clk where
  refOk : Bool := true
  pllLock : Bool := true
  refLosses : W16 := 0
  unlocks : W16 := 0
deriving DecidableEq, Repr

/-- A Uapra port (R312, R314, R481). -/
structure UPort where
  /-- 0 DOWN, 1 TRAINING, 2 UP. -/
  st : BitVec 2 := 0
  retries : W16 := 0
  rejects : W16 := 0
  resentMsgs : W16 := 0
  rstCause : Byte := 0
  rstCount : W16 := 0
  /-- Link credits the control node has granted. -/
  credits : Nat := 0
  /-- Attempts on the oldest unacknowledged frame. -/
  attempts : Nat := 0
  /-- Messages sent and not acknowledged in full, oldest first, and messages that wait for credits. -/
  unacked : List Msg := []
  unsent : List Msg := []
  /-- Its frame buffer holds a word with an uncorrectable error, and how many errors have been corrected in it (R433). -/
  bufUe : Bool := false
  bufCe : W32 := 0
  /-- Frames received intact. -/
  rxSeq : Nat := 0
deriving DecidableEq, Repr

/-- SAF_, the sticky log and the sequencer and steward pairs (R430, R431, R441 to R444). -/
structure Saf where
  faultPend : Bool := false
  alertPend : Bool := false
  logLost : W16 := 0
  nextMen : W64 := 1
  log : List FRec := []
  /-- Sequencer pairs retired. -/
  psRetired : BitVec 32 := 0
  /-- The steward is restarting, and faults detected meanwhile. -/
  stewRestart : Bool := false
  deferred : List (FRec × List Mark) := []
  /-- Faults of launches after their first, which the log counts; no register shows the count (R141). -/
  laterFaults : Nat := 0
  /-- Names the bytes of the log's save area in the flash once an L3 entry has written it (R441, R447). -/
  logSeed : Option Nat := none
deriving DecidableEq, Repr

/-- The steward channel (R320, R322). -/
structure Stew where
  lastSeq : Option W32 := none
  cmds : List CmdRec := []
  nextNum : Nat := 0
deriving DecidableEq, Repr

/-! ## Power, security and sideband (15, 16, 17) -/

inductive LpMode where
  | normal | powerDown | selfRefresh
deriving DecidableEq, Repr

/-- What holds a warm reset in its first step (R467, R479). -/
inductive RstHold where
  | none | clock | thermal
deriving DecidableEq, Repr

/-- What a logic supply carries (R470). -/
inductive LogicRail where
  | off | retention | operating
deriving DecidableEq, Repr

/-- What an Erg array supply carries (R470): nothing, 0.55 V, 0.80 V. -/
inductive ArrayRail where
  | off | low | full
deriving DecidableEq, Repr

/-- Supplies, body bias and assist circuits of a core group or of the rest of the module, with what the order of R470 moves: retention and isolation, and the clock gates. -/
structure Supply where
  logic : LogicRail := .operating
  /-- Reverse body bias of 0.4 V. -/
  reverse : Bool := false
  array : ArrayRail := .full
  readAssist : Bool := true
  writeAssist : Bool := true
  /-- Retention and isolation are held. -/
  isolated : Bool := false
  clockGated : Bool := false
deriving DecidableEq, Repr

/-- A power transition in progress (R471, R475). -/
structure PTrans where
  /-- 2 L2, 3 L3; 0 an exit to L0. -/
  target : BitVec 2 := 0
  module : Bool := false
  mask : W32 := 0
  /-- The PWR_STATE that asked for it, if one waits for its end. -/
  hdr : Option Hdr := none
deriving DecidableEq, Repr

/-- PWR_, telemetry, regulators (R468 to R479). -/
structure Pwr where
  /-- State of each core group, two bits each. -/
  cg : W64 := 0xAAAAAAAAAAAAAAAA
  st : BitVec 2 := 0
  duty : BitVec 5 := 16
  thrTemp : Bool := false
  thrPower : Bool := false
  lastWake : BitVec 4 := 0
  wakePort : BitVec 6 := 0
  limitW : BitVec 11 := 0x73A
  wakeNEn : Bool := true
  uapWake : BitVec 2 := 3
  wakeQp : BitVec 48 := 0
  /-- What the sensors last read. -/
  tel : Readings := {}
  trans : Option PTrans := none
  /-- Supplies of each core group, free ones being in L2, and of the rest of the module (R470). -/
  cgSup : Tab Supply := []
  modSup : Supply := {}
  /-- AVSBus exchanges failed in a row, by bus. -/
  avs : Tab Nat := []
  /-- The module drives WAKE_N low. -/
  wakeN : Bool := false
  /-- A wake recognised during L3 entry or with PWRGD_IN low: LAST_WAKE and WAKE_PORT. -/
  wakeHeld : Option (BitVec 4 × BitVec 6) := none
  lp : LpMode := .normal
  hold : RstHold := .none
  /-- Rails with a RAIL_FAULT in this start-up. -/
  rails : BitVec 24 := 0
  /-- A module command that begins 1 ms after its reply: 0x02, 0x03, 0x10 or 0x11 (R475). -/
  due : Option Byte := none
  /-- A module reset or an L3 exit that has begun and not reached READY: KIND and CAUSE as MOD_RESET_CAUSE has them (R481). -/
  boot : Option (BitVec 2 × Byte) := none
  /-- LAST_ESN of each partition as a warm reset keeps it (R482). -/
  lastEsn : List W64 := []
deriving DecidableEq, Repr

/-- An unlock in force (R462). -/
structure Unlock where
  /-- Named partitions and their CREATE_MEN. -/
  ptns : List (Nat × W64) := []
  mask : W32 := 0
  scope : BitVec 5 := 0
  /-- DURATION_S, which bounds the seconds left. -/
  remainS : BitVec 17 := 0
deriving DecidableEq, Repr

/-- SEC_, identity, unlock and random generator (R448 to R464). -/
structure Sec where
  slot : Bool := false
  fallback : Bool := false
  bootErr : BitVec 4 := 0
  fwVersion : W32 := 0
  cfgVersion : W32 := 0
  ueid : List Byte := []
  fwDigest : List Byte := []
  cfgDigest : List Byte := []
  /-- SAFELIGHT_KEY and DEBUG_SCOPES of the configuration block. -/
  slKey : List Byte := []
  slScopes : W32 := 0
  uds : List Byte := []
  cdi1 : List Byte := []
  challenge : Option (List Byte) := none
  unlock : Option Unlock := none
  drbgCount : BitVec 20 := 0
  /-- Boots so far: names the PUF response of each. -/
  boots : Nat := 0
deriving DecidableEq, Repr

/-- I3C target (R497, R498). -/
structure I3c where
  dyn : Option (BitVec 7) := none
  err : Bool := false
  busy : Bool := false
  owned : Bool := false
  /-- Flash operation in progress: offset, and the bytes it brings (R497, R498). -/
  op : Option (Nat × List Byte) := none
  /-- Data of the private read that follows. -/
  read : List Byte := []
deriving DecidableEq, Repr

/-- Pins and inputs (R492 to R498), and the JTAG port (R499). -/
structure Pins where
  pwrgd : Bool := true
  rstN : Bool := true
  in54 : Bool := true
  stby12 : Bool := true
  lockout : Bool := false
  feed : BitVec 4 := 0xF
  /-- FEED_ID as sampled at cold reset. -/
  feedId : BitVec 4 := 0xF
  /-- JTAG instruction accepted last: 0 BYPASS, 1 IDCODE, 2 SAMPLE/PRELOAD, 3 EXTEST, 4 debug. -/
  jtag : BitVec 3 := 1
  /-- Data register of the JTAG port. -/
  tdo : W64 := 0
deriving DecidableEq, Repr

/-- What the module is doing as a whole (R480, R486, R493). -/
inductive Phase where
  | off | standby | starting | stopped | ready
deriving DecidableEq, Repr

/-- The module. -/
structure State where
  /-- Commands that wait, first in, first out. -/
  pending : List Instr := []
  /-- The model's own: numbers the free values drawn so far. -/
  fresh : Nat := 0
  phase : Phase := .starting
  ptns : Tab Ptn := []
  mcs : Tab MCore := []
  ths : Tab Thread := []
  tes : Tab TEng := []
  launches : List Launch := []
  nextLaunch : Nat := 0
  ups : Tab UPort := []
  mem : Mem := {}
  mod : ModR := {}
  clk : Clk := {}
  saf : Saf := {}
  stew : Stew := {}
  /-- Messages held while both Uapra ports are down (R341). -/
  held : List Held := []
  /-- Die-to-die links down: bit 4 * lower + upper (R18). -/
  dieLinks : BitVec 16 := 0
  qps : Tab QPort := []
  xfers : List Xfer := []
  nextXfer : W32 := 0
  pwr : Pwr := {}
  sec : Sec := {}
  i3c : I3c := {}
  /-- Boot flash: bytes written or erased since manufacture, by offset (R447). -/
  flash : Tab (Option Byte) := []
  /-- A steward write of the flash is in progress. -/
  flashBusy : Bool := false
  pins : Pins := {}
deriving DecidableEq, Repr

/-- The module right after reset: every field at the value the spec states, or that DESIGN CHOICE, log entry 6 names (DESIGN CHOICE); the start-up of R486 has not run (DESIGN CHOICE, log entry 5). -/
def State.reset : State := {}

end Sys2Proof.Machine
end

