-- ==== Sys2Proof/Machine/Ops.lean ====
section
/-! DEFINITION. Named operations over the state: who holds what, device memory and its keys, window checks and violations, messages and ports, fault records. -/

namespace Sys2Proof.Machine

/-! ## Access to the parts of the state -/

namespace State

def ptn (s : State) (p : PtnId) : Ptn := s.ptns.get {} p
def updPtn (s : State) (p : PtnId) (f : Ptn → Ptn) : State := { s with ptns := s.ptns.upd {} p f }
def mc (s : State) (n : Nat) : MCore := s.mcs.get {} n
def updMc (s : State) (n : Nat) (f : MCore → MCore) : State := { s with mcs := s.mcs.upd {} n f }
def th (s : State) (t : Nat) : Thread := s.ths.get {} t
def updTh (s : State) (t : Nat) (f : Thread → Thread) : State := { s with ths := s.ths.upd {} t f }
def te (s : State) (n : Nat) : TEng := s.tes.get {} n
def updTe (s : State) (n : Nat) (f : TEng → TEng) : State := { s with tes := s.tes.upd {} n f }
def up (s : State) (u : UpId) : UPort := s.ups.get {} u
def updUp (s : State) (u : UpId) (f : UPort → UPort) : State := { s with ups := s.ups.upd {} u f }
def launch? (s : State) (id : Nat) : Option Launch := s.launches.find? (·.id = id)
def updLaunch (s : State) (id : Nat) (f : Launch → Launch) : State :=
  { s with launches := updFirst (fun l => l.id = id) f s.launches }
/-- The launch runs on its cores: it has not failed, and its job is not stopped. -/
def onCores (s : State) (l : Launch) : Bool := l.failed.isNone && (let st := ((s.ptn l.ptn).jobs.get {} l.queue).st; st = .running || st = .stopping)
def updFlow (s : State) (p : PtnId) (f : PFlow → PFlow) : State := s.updPtn p fun x => { x with flow := f x.flow }
def updPMem (s : State) (p : PtnId) (f : PMem → PMem) : State := s.updPtn p fun x => { x with mem := f x.mem }
def job (s : State) (p : PtnId) (q : QueueId) : Job := (s.ptn p).jobs.get {} q
def updJob (s : State) (p : PtnId) (q : QueueId) (f : Job → Job) : State :=
  s.updPtn p fun x => { x with jobs := x.jobs.upd {} q f }
def sem (s : State) (p : PtnId) (n : SemId) : Sem := (s.ptn p).sems.get {} n
def updSem (s : State) (p : PtnId) (n : SemId) (f : Sem → Sem) : State :=
  s.updPtn p fun x => { x with sems := x.sems.upd {} n f }

end State

/-! ## Numbering (R11, R13, R16, R228) -/

def cgOfMc (n : Nat) : Nat := n / 8
def dieOfMc (n : Nat) : Nat := n / 64
def dieOfTe (n : Nat) : Nat := n / 16
/-- Core group of a unit of the ledger: n is MCn, 256 + n is TEn. -/
def cgOfUnit (u : Nat) : Nat := if u < 256 then u / 8 else (u - 256) / 2

def Ptn.cgList (x : Ptn) : List Nat := setBits x.cgs.toNat 32
def Ptn.cgCount (x : Ptn) : Nat := popcount x.cgs.toNat 32
/-- Matrix cores of a set of core groups, ascending. -/
def mcsOf (cgs : BitVec 32) : List Nat := (setBits cgs.toNat 32).flatMap fun k => (List.range 8).map (8 * k + ·)
def tesOf (cgs : BitVec 32) : List Nat := (setBits cgs.toNat 32).flatMap fun k => [2 * k, 2 * k + 1]

/-- The slices a partition holds (R231, R233). -/
def Ptn.slices (x : Ptn) : BitVec 256 :=
  BitVec.ofNat 256 ((mcsOf x.cgs).foldl (fun a n => a ||| 2 ^ n) 0) ||| x.mem.loose

def ptnIds : List PtnId := List.finRange 32

/-- The partition that holds a core group (R14). -/
def State.cgOwner (s : State) (k : Nat) : Option PtnId := ptnIds.find? fun p => bitAt (s.ptn p).cgs.toNat k
/-- The partition in which a slice is loose (R235). -/
def State.looseOwner (s : State) (n : Nat) : Option PtnId := ptnIds.find? fun p => bitAt (s.ptn p).mem.loose.toNat n

def State.mcRetired (s : State) (n : Nat) : Bool := (s.mc n).strip.retired
def State.teRetired (s : State) (n : Nat) : Bool := (s.te n).strip.retired

/-! ## Random values (R450) -/

/-- The next 32 random bytes. -/
def State.draw (s : State) : State × List Byte :=
  ({ s with fresh := s.fresh + 1, sec := { s.sec with drbgCount := s.sec.drbgCount + 1 } }, (List.finRange 32).map (Config.randomByte s.fresh))

/-- A CORE cycle count that no operand gives: a free value (R436). -/
def State.now (s : State) : State × W64 := ({ s with fresh := s.fresh + 1 }, BitVec.ofNat 64 (Config.free s.fresh 0))

/-! ## Device memory (R228, R247 to R252, R261, R262) -/

def ergTop : Nat := 2 ^ 34
def lpBase : Nat := 0x10000000000
def lpTop : Nat := 0x21800000000
def regBase : Nat := 0xF0000000000
def gib : Nat := 2 ^ 30
def sliceBytes : Nat := 2 ^ 26

namespace Mem

/-- The key the bytes of a device address were last written under. -/
def keyAt (m : Mem) (d : Nat) : KeyTag :=
  match m.sectKey.get none (d / 64) with
  | some k => k
  | none => m.granKey.get none ((d - lpBase) / gib)

/-- The AES block that holds an LPDDR5X address, as the DRAM stores it: the ciphertext under the key it was written with (R250); what a block holds that no key has written is a free value. -/
def stored (m : Mem) (d : Nat) : List Byte :=
  let a := d / 16 * 16
  match m.keyAt a with
  | some k => xtsEnc (memKey m.root k.1 k.2) ((a - lpBase) / 256) ((a - lpBase) % 256 / 16) (m.bytes.getList 0 a 16)
  | none => (List.range 16).map fun i => Config.dramByte (a + i)

/-- One byte as read under a key: the block decrypted with that key (R250). The Erg is not encrypted. -/
def read1 (m : Mem) (key : KeyTag) (d : Nat) : Byte :=
  if d < ergTop then m.bytes.get 0 d
  else
    let k := m.keyAt d
    if k = key && k.isSome then m.bytes.get 0 d
    else match key with
      | some q => (xtsDec (memKey m.root q.1 q.2) ((d - lpBase) / 256) ((d - lpBase) % 256 / 16) (m.stored d)).getD (d % 16) 0
      | none => (m.stored d).getD (d % 16) 0

def readN (m : Mem) (key : KeyTag) (d : Nat) : Nat → List Byte
  | 0 => []
  | n + 1 => m.read1 key d :: readN m key (d + 1) n

/-- Makes a 64-byte sector one that was written under `key`: the read-modify-write of R249 reads it under that key. -/
def rekey (m : Mem) (key : KeyTag) (sector : Nat) : Mem :=
  if m.keyAt (sector * 64) = key && key.isSome then m
  else { m with bytes := m.bytes.putList 0 (sector * 64) (m.readN key (sector * 64) 64), sectKey := m.sectKey.put none sector (some key) }

/-- Writes bytes under a key. -/
def writeN (m : Mem) (key : KeyTag) (d : Nat) (bs : List Byte) : Mem :=
  let m := if d < ergTop || bs = [] then m
    else (List.range ((d + bs.length - 1) / 64 + 1 - d / 64)).foldl (fun m i => m.rekey key (d / 64 + i)) m
  { m with bytes := m.bytes.putList 0 d bs }

def zeroRange (m : Mem) (d n : Nat) : Mem :=
  { m with bytes := m.bytes.dropKeys fun k => decide (d ≤ k) && decide (k < d + n), ue := m.ue.filter fun w => !(decide (d ≤ w) && decide (w < d + n)) }

/-- Writes a device granule with zeros under a key (R237). -/
def zeroGranule (m : Mem) (key : KeyTag) (g : Nat) : Mem :=
  let d := lpBase + g * gib
  let m := m.zeroRange d gib
  { m with sectKey := m.sectKey.dropKeys fun k => decide (d ≤ k * 64) && decide (k * 64 < d + gib), granKey := m.granKey.put none g key }

def zeroSlice (m : Mem) (n : Nat) : Mem := m.zeroRange (n * sliceBytes) sliceBytes

/-- The canonical form of device memory: every table in its own, and the words with an error ascending. -/
def wf (m : Mem) : Bool :=
  Tab.wf 0 m.bytes && Tab.wf none m.granKey && Tab.wf none m.sectKey && Tab.wf none m.lastHolder && Tab.wf {} m.erg && Tab.wf {} m.memc &&
    decide (m.ue.Pairwise (· < ·))

/-- LPDDR5X channel of a device address (R247). -/
def channel (d : Nat) : Nat := let l := (d - lpBase) / 256; (l % 128) ^^^ (l / 128 % 128)
/-- Channel line ℓ of a device address (R247). -/
def chanLine (d : Nat) : Nat := (d - lpBase) / 256 / 128

/-- Where a byte of LPDDR5X lies (R247): package, channel of the package, bank group, bank of the group, DRAM row, byte of the row. -/
structure DramPlace where
  package : Nat
  channel : Nat
  group : Nat
  bank : Nat
  row : Nat
  byte : Nat
deriving DecidableEq, Repr

def rowSlot (d : Nat) : Nat := chanLine d / 7

def dramPlace (d : Nat) : DramPlace :=
  let c := channel d; let r := rowSlot d
  ⟨c / 8, c % 8, r % 16 / 4, r % 16 % 4, r / 16, 256 * (chanLine d % 7) + (d - lpBase) % 256⟩

/-- Device address of channel line ℓ of channel c (R247). -/
def lineAddr (c l : Nat) : Nat := lpBase + 256 * (128 * l + (c ^^^ (l % 128)))

/-- What byte b of row slot r of channel c holds (R248): data as stored, then one check byte for each data word; none for the bytes that are not used. -/
def rowByte (m : Mem) (c r b : Nat) : Option Byte :=
  let data := fun i => let d := lineAddr c (7 * r + i / 256) + i % 256; (m.stored d).getD (d % 16) 0
  if b < 1792 then some (data b)
  else if b < 2016 then some (Config.checkByte (BitVec.ofNat 64 (leNat ((List.range 8).map fun i => data (8 * (b - 1792) + i)))))
  else none

/-- The lowest uncorrectable word a read of n bytes meets (R262). -/
def ueRead (m : Mem) (d n : Nat) : Option Nat := m.ue.find? fun w => decide (w < d + n) && decide (d < w + 8)

/-- The lowest uncorrectable word that stops a write of n bytes: in the Erg a word covered in part, in LPDDR5X one in a sector covered in part (R262). -/
def ueWrite (m : Mem) (d n : Nat) : Option Nat :=
  let u := fun w => if w < ergTop then (w, 8) else (w / 64 * 64, 64)
  m.ue.find? fun w => let b := u w
    decide (0 < n) && decide (b.1 < d + n) && decide (d < b.1 + b.2) && !(decide (d ≤ b.1) && decide (b.1 + b.2 ≤ d + n))

/-- Errors a write of n bytes clears (R262). -/
def ueClear (m : Mem) (d n : Nat) : Mem :=
  let u := fun w => if w < ergTop then (w, 8) else (w / 64 * 64, 64)
  { m with ue := m.ue.filter fun w => let b := u w; !(decide (d ≤ b.1) && decide (b.1 + b.2 ≤ d + n)) }

end Mem

def State.updMem (s : State) (f : Mem → Mem) : State := { s with mem := f s.mem }

/-! ## Partition addresses (R230 to R232, R275) -/

def winBase : Nat := 0x010000000000
def winTop : Nat := 0x030000000000

/-- A partition address in the LPDDR5X range. -/
def inLp (a : Nat) : Bool := decide (winBase ≤ a) && decide (a < winTop)
def winOf (a : Nat) : Nat := (a - winBase) / gib

/-- The check of one partition address: the kind of violation (R277), if it is one. -/
def Ptn.check1 (x : Ptn) (a : Nat) (write : Bool) : Option (BitVec 4) :=
  if a < ergTop then (if bitAt x.slices.toNat (a / sliceBytes) then none else some 1)
  else if inLp a then
    let w := x.mem.wins.get {} (winOf a)
    if !w.valid then some 1 else if write && w.ro then some 2 else none
  else if 0x0F0000000000 ≤ a ∧ a ≤ 0x0FFFFFFFFFFF then some 3
  else some 1

/-- The check of a span of n bytes: every slice or granule it touches (R232). -/
def Ptn.check (x : Ptn) (a n : Nat) (write : Bool) : Option (BitVec 4) :=
  if n = 0 then none
  else
    let k := a / sliceBytes
    (List.range ((a + n - 1) / sliceBytes + 1 - k)).findSome? fun i => x.check1 (max a ((k + i) * sliceBytes)) write

/-- Device address of a mapped partition address (R231, R232). -/
def Ptn.dev (x : Ptn) (a : Nat) : Nat :=
  if a < ergTop then a else lpBase + (x.mem.wins.get {} (winOf a)).dev.toNat * gib + a % gib

/-- Key under which a partition's address is read and written (R250). -/
def State.keyFor (s : State) (p : PtnId) (a : Nat) : KeyTag :=
  if ((s.ptn p).mem.wins.get {} (winOf a)).shared then some (32, s.mod.label) else some (p.val, (s.ptn p).mem.keyLabel)

/-- The parts of a span that lie in one granule each: partition address and length. -/
def spanParts (a : Nat) : Nat → Nat → List (Nat × Nat)
  | 0, _ => []
  | f + 1, n => if n = 0 then [] else
    let k := min n (gib - a % gib)
    (a, k) :: spanParts (a + k) f (n - k)

def parts (a n : Nat) : List (Nat × Nat) := spanParts a (n / gib + 2) n

/-- A source of data accesses: SOURCE and UNIT of R277, and the die of the Qorea port that the bytes come in by or leave by. -/
structure Who where
  source : BitVec 4 := 6
  unit : Nat := 0
  port : Option Nat := none
deriving DecidableEq, Repr

namespace Who
def feeder (mc : Nat) : Who := { source := 1, unit := mc }
def scalar (mc : Nat) : Who := { source := 2, unit := mc }
def stream (mc : Nat) : Who := { source := 3, unit := mc }
def te (n : Nat) : Who := { source := 4, unit := n }
def fixer : Who := { source := 5 }
def firmware : Who := {}
/-- The same source, moving bytes of a Qorea port; each compute die carries twelve of the ports. -/
def via (w : Who) (qp : QpId) : Who := { w with port := some (qp.val / 12) }
end Who

/-- Counts a violation and captures it when VALID is 0 (R275 to R277). -/
def State.violate (s : State) (p : PtnId) (who : Who) (a : Nat) (write : Bool) (kind : BitVec 4) : State :=
  s.updPMem p fun m =>
    let v := { m.viol with count := satInc m.viol.count }
    { m with viol := if v.valid then v
      else { v with addr := BitVec.ofNat 48 a, kind := kind, source := who.source, unit := BitVec.ofNat 8 who.unit, write := write, valid := true } }

/-! ## Messages (R316, R333, R337 to R341) -/

/-- The bytes of a message as sent on a port. -/
def Msg.bytes (m : Msg) (onUp1 : Bool) : List Byte :=
  let len := 36 + m.body.length
  let b := leBytes 4 (1 + m.type.toNat * 2 ^ 8 + m.queue.val * 2 ^ 13 + m.ptn.val * 2 ^ 16 + m.evKind.toNat * 2 ^ 24) ++
    leBytes 2 m.opcode.toNat ++ leBytes 2 m.status.toNat ++ leBytes 4 m.seq.toNat ++ leBytes 4 len ++
    leBytes 8 m.order.toNat ++ leBytes 2 m.itemCount.toNat ++ leBytes 6 (b2n onUp1 + 2 * b2n m.resent) ++ m.body
  b ++ leBytes 4 (crc32c b).toNat

def Msg.size (m : Msg) : Nat := 36 + m.body.length
/-- Link frames of a message (R312). -/
def Msg.frames (m : Msg) : Nat := ceilDiv m.size 4096

/-- Sends waiting messages while credits last. -/
def sendSome : Nat → List Msg → List Msg × List Msg × Nat
  | c, [] => ([], [], c)
  | c, m :: r =>
    if m.frames ≤ c then let x := sendSome (c - m.frames) r; (m :: x.1, x.2.1, x.2.2) else ([], m :: r, c)

def UPort.drain (u : UPort) : UPort :=
  let x := sendSome u.credits u.unsent
  { u with unacked := u.unacked ++ x.1, unsent := x.2.1, credits := x.2.2 }

def UPort.isUp (u : UPort) : Bool := u.st = 2

/-- Hands a message to a port. -/
def UPort.push (u : UPort) (m : Msg) : UPort := ({ u with unsent := u.unsent ++ [m] } : UPort).drain

/-- Sends a message on the ports of the mask that are up, or on the other port, or holds it (R339, R341). -/
def State.deliver (s : State) (ports : BitVec 2) (m : Msg) : State :=
  let u0 := (s.up 0).isUp
  let u1 := (s.up 1).isUp
  if !u0 && !u1 then { s with held := s.held ++ [⟨ports, m⟩] }
  else
    let w0 := u0 && (ports.getLsbD 0 || !u1)
    let w1 := u1 && (ports.getLsbD 1 || !u0)
    let s := if w0 then s.updUp 0 (·.push m) else s
    if w1 then s.updUp 1 (·.push m) else s

/-- The ports REPLY_PORT names, for a packet that arrived on `port` (R315). -/
def replyPorts (code : BitVec 2) (port : UpId) : BitVec 2 :=
  match code.toNat with
  | 0 => if port = 0 then 1 else 2
  | 1 => 1
  | 2 => 2
  | _ => 3

/-- The ports EVENT_PORT names (R342). -/
def eventPorts (code : BitVec 2) : BitVec 2 := if code = 0 then 1 else if code = 1 then 2 else 3

/-- Sends a message of a partition under its next ESN (R338). -/
def State.sendPtn (s : State) (p : PtnId) (ports : BitVec 2) (m : Msg) : State :=
  let esn := (s.ptn p).flow.esn
  (s.updFlow p fun f => { f with esn := f.esn + 1 }).deliver ports { m with ptn := p, order := esn }

/-- Sends an event of a partition (R337). -/
def State.sendEvent (s : State) (p : PtnId) (q : QueueId) (kind : Byte) (opcode : W16) (seq : W32) (body : List Byte) : State :=
  s.sendPtn p (eventPorts (s.ptn p).flow.eventPort) { type := 1, queue := q, evKind := kind, opcode := opcode, seq := seq, body := body }

/-- Takes the next MEN (R22; DEDUCED, log entry 11). -/
def State.takeMen (s : State) : State := { s with saf := { s.saf with nextMen := s.saf.nextMen + 1 } }

/-- Sends a module event on both ports under a given MEN (R438, R440). -/
def State.sendModule (s : State) (kind : Byte) (men : W64) (body : List Byte) : State :=
  s.deliver 3 { type := 4, evKind := kind, order := men, body := body }

/-- Bytes of messages held for a partition, or for the steward (R341). -/
def State.heldBytes (s : State) (p : Option PtnId) : Nat :=
  (s.held.filter fun h => match p with
    | some p => h.msg.type.toNat < 2 && h.msg.ptn = p
    | none => !(h.msg.type.toNat < 2)).foldl (fun a h => a + h.msg.size) 0

/-- The outbound store has less than 64 KiB free (R341). -/
def State.storeFull (s : State) (p : Option PtnId) : Bool := s.heldBytes p > 2 ^ 20 - 2 ^ 16

/-! ## Fault records (R436 to R441) -/

def FRec.bytes (r : FRec) : List Byte :=
  leBytes 8 r.men.toNat ++ [r.cls, r.severity, r.unitKind, r.die] ++ leBytes 2 r.unit.toNat ++ leBytes 2 r.cause.toNat ++
  leBytes 4 r.ptnMask.toNat ++ leBytes 4 r.detail.toNat ++ leBytes 8 r.stamp.toNat

/-- Enters a record in the sticky log (R441). -/
def Saf.enter (f : Saf) (r : FRec) : Saf :=
  if f.log.length < 512 then { f with log := f.log ++ [r] }
  else if f.log.any (·.severity = 1) then { f with log := dropFirst (·.severity = 1) f.log ++ [r] }
  else { f with logLost := satInc f.logLost }

/-- Asserts the pin of a record's severity (R439). -/
def Saf.pin (f : Saf) (r : FRec) : Saf :=
  if r.severity = 2 then { f with faultPend := true } else { f with alertPend := true }

/-- The partition's side of a fault: LAST_MEN, FAULT_EVENTS and the PTN_FAULT event (R438, R446). -/
def State.ptnFault (s : State) (p : PtnId) (r : FRec) : State :=
  (s.updFlow p fun f => { f with lastMen := r.men, faultEvents := satInc f.faultEvents }).sendEvent p 0 0x04 0 0 r.bytes

/-- Takes a MEN, logs the fault, asserts its pin, and sends FAULT and PTN_FAULT (R436 to R441); while the steward restarts the fault waits (R431). -/
def State.recordFault (s : State) (r : FRec) : State :=
  if s.saf.stewRestart then { s with saf := { s.saf with deferred := s.saf.deferred ++ [(r, [])] } }
  else
    let r := { r with men := s.saf.nextMen }
    let s := s.takeMen
    let s := { s with saf := (s.saf.enter r).pin r }
    let s := (setBits r.ptnMask.toNat 32).foldl (fun s p => s.ptnFault (Fin.ofNat 32 p) r) s
    s.sendModule 0x10 r.men r.bytes

def ptnBit (p : PtnId) : W32 := BitVec.ofNat 32 (2 ^ p.val)

/-- An uncorrectable word met by an access of partition p, or by a scrub (R262, R512). -/
def State.noteUe (s : State) (mask : W32) (w : Nat) (when' : Option W64) : State :=
  let c := match when' with | some t => (s, t) | none => s.now
  let s := c.1
  let stamp := c.2
  if w < ergTop then
    let n := w / sliceBytes
    (s.updMem fun m => { m with erg := m.erg.upd {} (n / 64) fun e => { e with ue := satInc e.ue } }).recordFault
      { cls := 3, severity := 1, unitKind := 5, die := BitVec.ofNat 8 (n / 64), unit := BitVec.ofNat 16 n, cause := 0x0301, ptnMask := mask,
        detail := BitVec.ofNat 32 (w % sliceBytes / 8), stamp := stamp }
  else
    let c := Mem.channel w
    (s.updMem fun m => { m with memc := m.memc.upd {} c fun e => { e with ue := satInc e.ue } }).recordFault
      { cls := 3, severity := 1, unitKind := 6, die := BitVec.ofNat 8 (c / 32), unit := BitVec.ofNat 16 c, cause := 0x0302, ptnMask := mask,
        detail := BitVec.ofNat 32 (Mem.chanLine w), stamp := stamp }

def ptnMask (ps : List PtnId) : W32 := ps.foldl (fun m p => m ||| ptnBit p) 0

/-- The replay buffer of a Qorea port or the frame buffer of a Uapra port is read and a word of it has an uncorrectable error: LOCAL_UE (R433, R512). -/
def State.notePort (s : State) (kind die : Byte) (port : Nat) (mask : W32) : State :=
  let c := s.now
  c.1.recordFault { cls := 3, severity := 1, unitKind := kind, die := die, unit := BitVec.ofNat 16 port, cause := 0x0303, ptnMask := mask, detail := 3, stamp := c.2 }

/-! ## Accesses of a partition -/

/-- An answer with the state it leaves. -/
abbrev Acc (α : Type) := State × Except Status α

/-- What follows an access that did not fail. -/
def Acc.bind {α β : Type} (a : Acc α) (f : State → α → Acc β) : Acc β :=
  match a.2 with
  | .error c => (a.1, .error c)
  | .ok x => f a.1 x

/-- The die whose side of an access the other end is: that of the matrix core or table engine; for the Fixer and the firmware that of the Qorea port concerned, or else that of the partition's sequencer, which lies on CD(floor(p ÷ 8)) (R16, R18, R21; DEDUCED, log entry 72). -/
def Who.die (w : Who) (p : PtnId) : Nat :=
  match w.source.toNat with
  | 1 => dieOfMc w.unit
  | 2 => dieOfMc w.unit
  | 3 => dieOfMc w.unit
  | 4 => dieOfTe w.unit
  | _ => w.port.getD (p.val / 8)

/-- The direct link between two dies is down (R18). -/
def State.linkDown (s : State) (u v : Nat) : Bool := u ≠ v && bitAt s.dieLinks.toNat (4 * min u v + max u v)

/-- Dies whose Erg slices or LPDDR5X channels hold n bytes at a device address (R228, R247). -/
def homeDies (d n : Nat) : List Nat :=
  if n = 0 then []
  else if d < ergTop then ((List.range ((d + n - 1) / sliceBytes + 1 - d / sliceBytes)).map fun i => (d / sliceBytes + i) / 64).eraseDups
  else if n ≥ 32768 then [0, 1, 2, 3]
  else ((List.range ((d + n - 1) / 256 + 1 - d / 256)).map fun i => Mem.channel ((d / 256 + i) * 256) / 32).eraseDups

/-- An access would cross a die-to-die link that is down (R18). -/
def State.crossesDown (s : State) (p : PtnId) (who : Who) (a n : Nat) : Bool :=
  s.dieLinks ≠ 0 &&
  (parts a n).any fun e => (homeDies ((s.ptn p).dev e.1) e.2).any fun v => s.linkDown (who.die p) v

/-- Lent slots serve a partition: LEND_EN, its BORROW, and another partition with LEND and slots of its own (R258). -/
def State.lent (s : State) (p : PtnId) : Bool :=
  s.mod.lendEn && (s.ptn p).mem.borrow && ptnIds.any fun q => q ≠ p && (s.ptn q).mem.lend && (s.ptn q).mem.dataSlots ≠ 0

/-- No slot serves the partition's private LPDDR5X requests (R510). -/
def State.starved (s : State) (p : PtnId) : Bool := (s.ptn p).mem.dataSlots = 0 && !s.lent p

/-- No slot serves a span, so the request for it waits (R255, R510): neither the partition's own or lent ones nor, for reads of shared entries, its share of the SHARED slots. -/
def State.noSlot (s : State) (p : PtnId) (a n : Nat) : Bool :=
  s.starved p && (parts a n).any fun e =>
    let w := (s.ptn p).mem.wins.get {} (winOf e.1)
    inLp e.1 && w.valid && !(w.shared && (s.ptn p).mem.sharedShare ≠ 0)

/-- Reads n bytes at a partition address (R230 to R232, R262, R275). -/
def State.pRead (s : State) (p : PtnId) (who : Who) (a n : Nat) : Acc (List Byte) :=
  let x := s.ptn p
  match x.check a n false with
  | some k => (s.violate p who a false k, .error St.eAccess)
  | none =>
    if s.crossesDown p who a n then (s, .error St.eLinkDown) else
    match (parts a n).findSome? fun (b, m) => s.mem.ueRead (x.dev b) m with
    | some w => (s.noteUe (ptnBit p) w none, .error St.eMemUncorr)
    | none => (s, .ok ((parts a n).flatMap fun (b, m) => s.mem.readN (s.keyFor p b) (x.dev b) m))

/-- Writes the parts of a checked span. -/
def State.writeParts (s : State) (p : PtnId) : List (Nat × Nat) → List Byte → State
  | [], _ => s
  | (a, n) :: r, bs =>
    let d := (s.ptn p).dev a
    let key := s.keyFor p a
    (s.updMem fun m => (m.ueClear d n).writeN key d (bs.take n)).writeParts p r (bs.drop n)

/-- Writes bytes at a partition address (R230 to R232, R249, R262, R275). -/
def State.pWrite (s : State) (p : PtnId) (who : Who) (a : Nat) (bs : List Byte) : Acc Unit :=
  let x := s.ptn p
  match x.check a bs.length true with
  | some k => (s.violate p who a true k, .error St.eAccess)
  | none =>
    if s.crossesDown p who a bs.length then (s, .error St.eLinkDown) else
    match (parts a bs.length).findSome? fun (b, m) => s.mem.ueWrite (x.dev b) m with
    | some w => (if w < ergTop then s else s.noteUe (ptnBit p) w none, .error St.eMemUncorr)
    | none => (s.writeParts p (parts a bs.length) bs, .ok ())

/-- Whether the span reaches a window mapped to LPDDR5X. -/
def spanInLp (a n : Nat) : Bool := inLp a || (decide (0 < n) && inLp (a + n - 1))

end Sys2Proof.Machine
end

