-- ==== Sys2Proof/Machine/Flags.lean ====
section
/-! DEFINITION. Flag computations: the contact sheet (R49 to R51, R333), item outcomes and command status (R334, R335), and comparison results (R118). -/

namespace Sys2Proof.Machine

namespace Sheet

/-- Counters saturate (R50); AMAX keeps the largest magnitude (R51). -/
def addEv (s : Sheet) (e : Ev) : Sheet :=
  { s with sat := satInc s.sat e.sat, flush := satInc s.flush e.flush, ovf := satInc s.ovf e.ovf, nan := satInc s.nan e.nan,
           amax := BitVec.ofNat 32 (max s.amax.toNat e.amax) }

/-- Folds a value into AMAX (R51). -/
def addAmax (s : Sheet) (v : XVal) : Sheet := { s with amax := BitVec.ofNat 32 (amaxFold s.amax.toNat v) }

/-- Bytes 32 to 63 of a reply (R333). -/
def bytes (s : Sheet) : List Byte :=
  leBytes 4 s.sat.toNat ++ leBytes 4 s.flush.toNat ++ leBytes 4 s.ovf.toNat ++ leBytes 4 s.nan.toNat ++ leBytes 4 s.amax.toNat ++
  leBytes 12 (b2n s.empty + 2 * b2n s.splitUnaligned + 4 * b2n s.waited)

end Sheet

namespace Item

/-- Failed takes precedence over suspect, and suspect over completed (R427). -/
def outcome (i : Item) : Nat := if i.failed.isSome then 1 else if i.suspect then 2 else 0

def status (i : Item) : Status :=
  match i.failed with
  | some c => c
  | none => if i.suspect then St.suspect else St.ok

/-- The 8-byte item record (R334). -/
def bytes (i : Item) : List Byte := leBytes 2 i.outcome ++ leBytes 2 i.status.toNat ++ leBytes 4 i.detail.toNat

/-- Closes an open item; an item already closed keeps its outcome. -/
def close (i : Item) (failed : Option Status) : Item :=
  if i.closed then i else { i with closed := true, failed := failed }

/-- The item's reply waits for a strip (R25), or for the record of a fault that decides it (R438). -/
def held (i : Item) : Bool := i.waitMen || (i.failed.isNone && !i.suspect && !i.units.isEmpty)

end Item

/-- Status of a command that was not rejected (R335). -/
def itemsStatus (is : List Item) : Status :=
  if is.any (·.failed.isSome) then St.failedItems else if is.any (·.suspect) then St.suspect else St.ok

/-- Comparisons of the scalar cores and of CMP, on exact values: EQ, NE, LT, LE, UN, GT, GE (R118, R347). -/
inductive Rel where
  | eq | ne | lt | le | un | gt | ge
deriving DecidableEq, Repr

def Rel.holds (r : Rel) (a b : XVal) : Bool :=
  match r with
  | .eq => a.eq b
  | .ne => !a.eq b
  | .lt => a.lt b
  | .le => a.le b
  | .un => a.isNan || b.isNan
  | .gt => b.lt a
  | .ge => b.le a

end Sys2Proof.Machine
end

