-- ==== Sys2Proof/Machine/Sched.lean ====
section
/-! DEFINITION. The opcode table; jobs, shares, grants and charges (R217, R281, R285 to R295, R299, R300, R305, R325). -/

namespace Sys2Proof.Machine

/-- Every item is closed: for its queue the command is over, reported or held (R285). -/
def CmdRec.isOver (c : CmdRec) : Bool := c.started && c.items.all (·.closed) && c.prog.all (·.ended)

/-! ## Opcodes (R325) -/

structure OpInfo where
  steward : Bool := false
  /-- On both channels: register access. -/
  either : Bool := false
  immediate : Bool := false
  expertOnly : Bool := false
  /-- Non-preemptible (R300). -/
  np : Bool := false
  /-- Names a partition in TARGET_PTN. -/
  target : Bool := false
deriving DecidableEq, Repr

def opInfo (op : Nat) : Option OpInfo :=
  if op = 0x110 || op = 0x111 then some { either := true, immediate := true }
  else if decide (op ∈ [0x101, 0x102, 0x103, 0x104, 0x105, 0x201, 0x202, 0x203, 0x204, 0x205, 0x206]) then some { steward := true, target := true }
  else if decide (op ∈ [0x207, 0x208, 0x209, 0x503, 0x801, 0x803, 0xF02, 0xF03, 0xF04]) then some { steward := true }
  else if decide (op ∈ [0x100, 0x120, 0x121, 0x304, 0x402, 0x403, 0x404, 0x802, 0xF05]) then some { immediate := true }
  else if decide (op ∈ [0x302, 0x303, 0x305, 0x504, 0x701, 0x702, 0x703]) then some { expertOnly := true }
  else if op = 0x230 || op = 0xF01 then some { np := true }
  else if decide (op ∈ [0x130, 0x131, 0x210, 0x211, 0x220, 0x221, 0x222, 0x223, 0x301, 0x306, 0x401, 0x501, 0x502, 0x601, 0x602, 0x603, 0x604]) then some {}
  else none

/-- A non-preemptible command (R300). -/
def CmdRec.np (c : CmdRec) : Bool := c.hdr.nopreempt || (match opInfo c.opcode.toNat with | some i => i.np | none => false)

/-- The command that a queue runs: started, with an open item. -/
def Ptn.runs? (x : Ptn) (q : QueueId) : Option CmdRec :=
  x.flow.cmds.find? fun c => c.hdr.queue = q && c.started && !c.immediate && !c.isOver

/-! ## Budget holds (R217, R218, R287) -/

def Serve.budget? (v : Serve) (tag : W32) : Option Budget := v.budgets.find? (·.tag = tag)
/-- A tag without a record has no limit. -/
def Serve.mayRun (v : Serve) (tag : W32) : Bool := match v.budget? tag with | some b => decide (0 < b.balance.toInt) | none => true

/-- A serving job all of whose open streams are on budget hold, with no chunk or other work pending, is not ready (R287). -/
def Ptn.onHold (x : Ptn) (q : QueueId) : Bool :=
  let ts := x.serve.streams.filter (·.queue = q)
  !ts.isEmpty && ts.all fun t => !t.seated && t.filled = t.toFill && !x.serve.mayRun t.req.customerTag

/-! ## Grants (R288, R291 to R293, R299, R305) -/

/-- Core groups a FOOTPRINT gives (R288), of those that the firmware still grants (R281). -/
def Ptn.footprint (x : Ptn) (q : QueueId) : Nat :=
  let f := (x.jobs.get {} q).footprint.toNat
  let n := popcount (x.cgs &&& ~~~x.releasing).toNat 32
  if f = 0 || f > n then n else f

/-- Core groups that a command's cores are checked against when it is accepted: FOOTPRINT, or all that the partition holds (R288, R511). -/
def Ptn.limitCgs (x : Ptn) (q : QueueId) : Nat :=
  let f := (x.jobs.get {} q).footprint.toNat
  let n := popcount x.cgs.toNat 32
  if f = 0 || f > n then n else f

def Ptn.job (x : Ptn) (q : QueueId) : Job := x.jobs.get {} q
def Ptn.updJob (x : Ptn) (q : QueueId) (f : Job → Job) : Ptn := { x with jobs := x.jobs.upd {} q f }

def queueIds : List QueueId := List.finRange 8

/-- Core groups whose slices hold saved state of the job. -/
def Job.savedMask (j : Job) : BitVec 32 := j.saved.foldl (fun a c => a ||| BitVec.ofNat 32 (2 ^ (c.mc / 8))) 0

/-- Core groups in a release on which a stopped job resumes, since its state is there (R281). -/
def Ptn.stay (x : Ptn) (q : QueueId) : BitVec 32 :=
  if (x.job q).st = .stopped then x.cgs &&& x.releasing &&& (x.job q).savedMask else 0

/-- Core groups a grant of the job takes: as many as it was stopped with, or with FOOTPRINT 0 every one (R299). -/
def Ptn.need (x : Ptn) (q : QueueId) : Nat :=
  let j := x.job q
  let all := popcount ((x.cgs &&& ~~~x.releasing) ||| x.stay q).toNat 32
  if j.st ≠ .stopped then x.footprint q else if j.footprint = 0 then all else min j.savedCgs all

/-- Core groups that jobs or a holder run have, or that a pre-emption has reserved. -/
def Ptn.busyCgs (x : Ptn) : BitVec 32 :=
  (queueIds.foldl (fun a q => a ||| (x.job q).cgs ||| (x.job q).kept) 0) ||| x.holders.foldl (fun a h => a ||| h.reserved) 0

/-- Free core groups that the firmware grants (R281). -/
def Ptn.freeCgs (x : Ptn) : BitVec 32 := x.cgs &&& ~~~ x.releasing &&& ~~~ x.busyCgs

/-- The lowest n bits set in a mask: a grant takes the lowest-numbered core groups (DEDUCED, log entry 16). -/
def lowestBits (m : BitVec 32) (n : Nat) : BitVec 32 :=
  ((setBits m.toNat 32).take n).foldl (fun a k => a ||| BitVec.ofNat 32 (2 ^ k)) 0

/-- The core groups of a grant, from the free ones and those reserved for the job; none where it does not fit. -/
def Ptn.grantOf (x : Ptn) (q : QueueId) (own : BitVec 32) : Option (BitVec 32) :=
  let n := x.need q
  let stay := x.stay q &&& (own ||| ~~~x.busyCgs)
  let open' := (x.freeCgs ||| own) &&& x.cgs &&& ~~~x.releasing
  let k := popcount stay.toNat 32
  if 0 < n && n ≤ k + popcount open'.toNat 32 then some (lowestBits stay n ||| lowestBits open' (n - k)) else none

/-- Candidate order (R291): SHARE above 0 first, then ascending vt, then ascending queue. -/
def Ptn.before (x : Ptn) (a b : QueueId) : Bool :=
  let ja := x.job a; let jb := x.job b
  let ta := b2n (ja.share = 0); let tb := b2n (jb.share = 0)
  if ta ≠ tb then ta < tb
  else if ja.vt ≠ jb.vt then decide (ja.vt.toNat < jb.vt.toNat)
  else decide (a < b)

def insertBy (lt : QueueId → QueueId → Bool) (a : QueueId) : List QueueId → List QueueId
  | [] => [a]
  | b :: r => if lt a b then a :: b :: r else b :: insertBy lt a r

/-- A job a holder run has stopped waits for the run's end and is no candidate (R305). -/
def Ptn.inHolder (x : Ptn) (q : QueueId) : Bool := x.holders.any fun h => h.waiter = q || h.holder = q

/-- The candidates in order: ready or stopped jobs with work that can run (R287, R291). -/
def Ptn.candidates (x : Ptn) : List QueueId :=
  (queueIds.filter fun q => ((x.job q).st = .ready || (x.job q).st = .stopped) && !x.inHolder q && !x.onHold q).foldr (insertBy x.before) []

/-- Gives core groups to a job; a group in L1 returns to L0 (R469). -/
def Ptn.give (x : Ptn) (q : QueueId) (m : BitVec 32) (st : JobSt) : Ptn :=
  ({ x with l1 := x.l1 &&& ~~~m } : Ptn).updJob q fun j => { j with cgs := m, st := st, kept := 0 }

/-- A grant to a job that fits: a stopped job is restored, another runs. -/
def Ptn.grant (x : Ptn) (q : QueueId) : Option Ptn :=
  (x.grantOf q (x.job q).kept).map fun m => x.give q m (if (x.job q).st = .stopped then .restoring else .running)

/-- Grants core groups to candidates in order, without backfill (R292). -/
def Ptn.grants : List QueueId → Ptn → Ptn
  | [], x => x
  | q :: r, x => match x.grant q with | some y => Ptn.grants r y | none => x

/-- Jobs for which core groups of a pre-empted job are reserved have them as soon as they fit (R293; DEDUCED, log entry 84). -/
def Ptn.grantKept (x : Ptn) : Ptn :=
  x.candidates.foldl (fun x q => if (x.job q).kept = 0 then x else (x.grant q).getD x) x

/-- A reservation of R293 ends with its job's candidacy. -/
def Ptn.dropKept (x : Ptn) : Ptn :=
  queueIds.foldl (fun y q => if (y.job q).kept ≠ 0 && !decide (q ∈ x.candidates) then y.updJob q fun j => { j with kept := 0 } else y) x

def Ptn.updHolder (x : Ptn) (q : QueueId) (f : HolderRun → HolderRun) : Ptn := { x with holders := updFirst (fun h => h.holder = q) f x.holders }

/-- A holder that waits for core groups takes every free one, ahead of every candidate, and those of the run that it is nested in; it is restored when it has as many as it was stopped with (R305). -/
def Ptn.feedHolder (x : Ptn) (h : HolderRun) : Ptn :=
  if h.running || (x.job h.waiter).st ≠ .stopped then x
  else
    let outer := match x.holders.find? (·.holder = h.waiter) with | some o => o.reserved | none => 0
    let own := h.reserved ||| outer
    let m := x.grantOf h.holder own
    let got := own ||| x.freeCgs
    let x := (x.updHolder h.waiter fun o => { o with reserved := 0 }).updHolder h.holder fun h => { h with reserved := got, running := m.isSome }
    match m with | some m => x.give h.holder m .restoring | none => x

/-- What has been written to SHARE and FOOTPRINT takes effect (R288). -/
def Job.latch (j : Job) : Job := match j.cfg with | some c => { j with share := c.1, footprint := c.2, cfg := none } | none => j
def Ptn.latch (x : Ptn) : Ptn := { x with jobs := x.jobs.map fun e => (e.1, e.2.latch) }

/-- A scheduling decision (R288, R292). -/
def Ptn.schedule (x : Ptn) : Ptn :=
  let x := x.latch
  let x := (x.holders.foldl Ptn.feedHolder x).dropKept.grantKept
  Ptn.grants x.candidates x

/-- The run of holder q ends: the waiting job is restored on core groups of the run, and the others go back to the run that it is nested in (R305). -/
def Ptn.endHolder (x : Ptn) (q : QueueId) : Ptn :=
  match x.holders.find? (·.holder = q) with
  | none => x
  | some h =>
    let x := ({ x with holders := x.holders.filter (·.holder ≠ q) } : Ptn).updHolder h.waiter fun o => { o with reserved := o.reserved ||| h.reserved }
    match x.grantOf h.waiter h.reserved with | some m => x.give h.waiter m .restoring | none => x

/-- The end of a slice: the running job is stopped for the first candidate if that is of a higher tier, or of its tier with a smaller vt (R293). -/
def Ptn.sliceCompare (x : Ptn) (q : QueueId) : Ptn :=
  match x.candidates with
  | [] => x
  | c :: _ =>
    let a := x.job c; let b := x.job q
    let ta := b2n (a.share = 0); let tb := b2n (b.share = 0)
    if ta < tb || (ta = tb && decide (a.vt.toNat < b.vt.toNat)) then x.updJob q fun j => { j with st := .stopping, stopFor := some c } else x

/-- The catch-up of a job that becomes ready, beside jobs of its tier that are running or ready (R291). -/
def Ptn.catchUp (x : Ptn) (q : QueueId) : Ptn :=
  let tier := decide ((x.job q).share = 0)
  let vts := (queueIds.filter fun r => r ≠ q && decide ((x.job r).share = 0) == tier && (x.job r).st ≠ .idle && !x.onHold r).map fun r => (x.job r).vt.toNat
  match vts with
  | [] => x
  | v :: vs => x.updJob q fun j => { j with vt := BitVec.ofNat 128 (max j.vt.toNat (vs.foldl min v)) }

/-- A queue's job becomes ready if it was idle, and a decision follows (R291, R292). -/
def Ptn.makeReady (x : Ptn) (q : QueueId) : Ptn :=
  if (x.job q).st = .idle then ((x.catchUp q).updJob q fun j => { j with st := .ready }).schedule else x

/-- Jobs that were on budget hold and are no longer become ready, and a decision follows (R287, R291, R292); `x` is the partition before. -/
def Ptn.wake (y x : Ptn) : Ptn :=
  match queueIds.filter fun q => x.onHold q && !y.onHold q with
  | [] => y
  | qs => (qs.foldl Ptn.catchUp y).schedule

/-- A job that leaves its core groups. -/
def Job.left (j : Job) (st : JobSt) : Job := { j with st := st, cgs := 0, saved := [], savedCgs := 0, overrunning := false, stopFor := none, kept := 0 }

/-- The job releases its core groups, and a decision follows (R292, R294). -/
def Ptn.makeIdle (x : Ptn) (q : QueueId) : Ptn := (x.updJob q (·.left .idle)).schedule

/-- A job's next command is not placed on core groups whose release waits (R281). -/
def Ptn.nextPlace (x : Ptn) (q : QueueId) : Ptn :=
  let j := x.job q
  if j.cgs &&& x.releasing = 0 then x
  else if j.cgs &&& ~~~x.releasing = 0 then (x.updJob q (·.left .ready)).schedule
  else x.updJob q fun j => { j with cgs := j.cgs &&& ~~~x.releasing }

/-! ## Charges (R291, R294 to R296, R305) -/

/-- Who pays for the time of job q: the waiting job of the holder run it runs in (R294, R305). -/
def Ptn.payer (x : Ptn) : Nat → QueueId → QueueId
  | 0, q => q
  | f + 1, q => match x.holders.find? (·.holder = q) with
    | some h => x.payer f h.waiter
    | none => q

/-- Adds c MC·ns to a tag's account (R295). -/
def chargeAcct (as : List Acct) (tag : W32) (c : Nat) : List Acct :=
  if as.any (·.tag = tag) then updFirst (fun a => a.tag = tag) (fun a => { a with mcNs := satInc a.mcNs c }) as
  else if as.length < 4096 then as ++ [{ tag := tag, mcNs := BitVec.ofNat 64 (satAdd 64 0 c) }]
  else if as.any (·.tag = 0xFFFFFFFF) then
    updFirst (fun a => a.tag = 0xFFFFFFFF) (fun a => { a with overflow := true, mcNs := satInc a.mcNs c }) as
  else as ++ [{ tag := 0xFFFFFFFF, overflow := true, mcNs := BitVec.ofNat 64 (satAdd 64 0 c) }]

/-- Adds a charge to a job: its counter and its virtual time (R291, R296). -/
def Ptn.chargeJob (x : Ptn) (q : QueueId) (c : Nat) : Ptn :=
  x.updJob q fun j => { j with
    charge := satInc j.charge c
    vt := BitVec.ofNat 128 (j.vt.toNat + if j.share = 0 then c else (c <<< 16) / j.share.toNat) }

/-- Notes positions that a stream has processed (R295). -/
def Serve.process (v : Serve) (t : Stream) (n : Nat) : Serve :=
  { v with worked := if v.worked.any fun w => w.stream = t.id then updFirst (fun w => w.stream = t.id) (fun w => { w with n := w.n + n }) v.worked
                     else v.worked ++ [{ queue := t.queue, stream := t.id, tag := t.req.customerTag, n := n, seat := if t.primed then some t.seat else none }] }

/-- The stream seated first stands in front (R295). -/
def seatedFirst (ws : List Worked) : List Worked :=
  match (ws.filterMap (·.seat)).min? with
  | some k => ws.filter (fun w => w.seat = some k) ++ ws.filter (fun w => w.seat ≠ some k)
  | none => ws

/-- A charge divided by positions; the remainder goes to the stream seated first (R295). -/
def splitCharge (c : Nat) (ws : List Worked) : List (W32 × Nat) :=
  let total := (ws.map (·.n)).sum
  match (seatedFirst ws).map fun w => (w.tag, c * w.n / total) with
  | [] => []
  | e :: r => (e.1, c - (r.map (·.2)).sum) :: r

/-- The tags that a charge goes to: that of the command, or those of a serving job's streams; one that has processed nothing charges its first open stream (R286, R295; DESIGN CHOICE, log entry 13). -/
def Ptn.tagsOf (x : Ptn) (c : Option CmdRec) (n : Nat) : List (W32 × Nat) :=
  match c with
  | none => [(0, n)]
  | some c =>
    if c.opcode ≠ 0x401 then [(c.hdr.tag, n)]
    else
      match splitCharge n (x.serve.worked.filter (·.queue = c.hdr.queue)), x.serve.streams.find? (·.queue = c.hdr.queue) with
      | [], some t => [(t.req.customerTag, n)]
      | [], none => [(0, n)]
      | l, _ => l

/-- A charge of c MC·ns for job q, whose command is `own`, to the job and the account (R295, R305). -/
def Ptn.chargeMc (x : Ptn) (q : QueueId) (own : Option CmdRec) (c : Nat) : Ptn :=
  let pay := x.payer 8 q
  let tags := x.tagsOf (if pay = q then own else x.runs? pay) c
  let x := x.chargeJob pay c
  { x with accts := tags.foldl (fun a e => chargeAcct a e.1 e.2) x.accts
           serve := { x.serve with worked := x.serve.worked.filter (·.queue ≠ pay) } }

/-- A charge of job q, whose command is `own`, for `ns` nanoseconds of the matrix cores it holds, less their test strips (R294, R305); which rows charge is DESIGN CHOICE, log entry 13. -/
def Ptn.chargeTime (x : Ptn) (q : QueueId) (own : Option CmdRec) (ns : Nat) : Ptn :=
  let held := match x.holders.find? (·.holder = q) with | some h => h.reserved ||| (x.job q).cgs | none => (x.job q).cgs
  let own' := (x.job q).exempt
  (x.updJob q fun j => { j with exempt := 0 }).chargeMc q own (popcount held.toNat 32 * 8 * ns - own')

/-! ## Semaphores -/

/-- Job q holds semaphore s (R304). -/
def Sem.bal (m : Sem) (q : QueueId) : Int := ((m.balance.find? (·.1 = q)).map (·.2)).getD 0
def Sem.holds (m : Sem) (q : QueueId) : Bool := m.bal q > 0
def Sem.addBal (m : Sem) (q : QueueId) (d : Int) : Sem :=
  if m.balance.any (·.1 = q) then { m with balance := updFirst (fun e => e.1 = q) (fun e => (e.1, e.2 + d)) m.balance }
  else { m with balance := m.balance ++ [(q, d)] }
/-- HOLD_MASK and WAIT_MASK (R306). -/
def Sem.holdMask (m : Sem) : Nat := queueIds.foldl (fun a q => if m.holds q then a ||| 2 ^ q.val else a) 0
def Sem.waitMask (m : Sem) : Nat := m.waiters.foldl (fun a w => a ||| 2 ^ w.1.val) 0

end Sys2Proof.Machine
end

