-- ==== Sys2Proof/Machine/Cmd.lean ====
section
/-! DEFINITION. Accepted commands: their records, when one may start, their items, and their replies (R25, R285, R320 to R324, R333 to R336, R427). -/

namespace Sys2Proof.Machine

def CmdRec.is (c : CmdRec) (q : QueueId) (seq : W32) : Bool := decide (c.hdr.queue = q) && decide (c.hdr.seq = seq)

namespace State

/-- The commands of a packet's channel: the partition's, or the steward's. -/
def chan (s : State) (h : Hdr) : List CmdRec := if h.steward then s.stew.cmds else (s.ptn h.ptn).flow.cmds

def cmdOf (s : State) (h : Hdr) : Option CmdRec := (s.chan h).find? (·.is h.queue h.seq)

def setChan (s : State) (h : Hdr) (f : List CmdRec → List CmdRec) : State :=
  if h.steward then { s with stew := { s.stew with cmds := f s.stew.cmds } }
  else s.updFlow h.ptn fun x => { x with cmds := f x.cmds }

def updCmd (s : State) (h : Hdr) (f : CmdRec → CmdRec) : State := s.setChan h (updFirst (·.is h.queue h.seq) f)

/-- The command that a queue runs. -/
def running? (s : State) (p : PtnId) (q : QueueId) : Option CmdRec := (s.ptn p).runs? q

end State

/-! ## Streams (R204, R214, R336) -/

/-- The 32-byte result of a request (R336). -/
def Stream.result (t : Stream) (hold nowUs : Nat) : List Byte :=
  let missed := t.req.deadlineUs ≠ 0 && decide (t.acceptUs + t.req.deadlineUs.toNat < nowUs)
  leBytes 4 t.toks.length ++ leBytes 4 t.req.promptLen.toNat ++ leBytes 4 t.proposed.toNat ++ leBytes 4 t.accepted.toNat ++
  leBytes 4 (if t.held then hold else 0) ++ leBytes 4 t.fallbackFirst.toNat ++
  leBytes 4 (b2n t.onFallback + 2 * b2n missed + 4 * b2n t.cancelled) ++ leBytes 4 0

/-- Puts a request's result in its place. -/
def putResult (r : List Byte) (i : Nat) (b : List Byte) : List Byte := r.take (32 * i) ++ b ++ r.drop (32 * (i + 1))

/-- The model a stream's steps run: its verifier, or its fallback. -/
def Stream.model (t : Stream) : Nat := (if t.onFallback then t.req.fallback else t.req.model).toNat

/-- Pages return to a model's pool (R204). -/
def Ptn.freePages (x : Ptn) (model : Nat) (ps : List (List Nat)) : Ptn :=
  { x with models := updFirst (fun m => m.handle = model) (fun m => { m with pagesUsed := m.pagesUsed.filter fun n => !ps.any fun l => decide (n ∈ l) }) x.models }

/-- A version no longer current is released when no open stream refers to it (R214). -/
def Serve.dropOld (v : Serve) : Serve :=
  { v with variants := v.variants.filter fun a => a.current ||
      v.streams.any fun t => t.req.model.toNat = a.model && t.req.customerTag = a.tag && t.variant = some a.version }

/-- Takes a stream out: its pages, and variants that nothing refers to any more, are released. -/
def Ptn.dropStream (x : Ptn) (t : Stream) : Ptn :=
  let x := (x.freePages t.model t.pages).freePages t.req.draft.toNat t.dpages
  { x with serve := Serve.dropOld { x.serve with streams := x.serve.streams.filter (·.id ≠ t.id) } }

/-- Bytes 64 to 79 of a reply (R333). -/
def CmdRec.counters (c : CmdRec) : List Byte :=
  leBytes 4 c.preempts.toNat ++ leBytes 4 c.overrunUs.toNat ++ leBytes 4 c.switchUs.toNat ++ leBytes 2 c.switches.toNat ++ leBytes 2 c.holderRuns.toNat

/-- The reply of a command that ran (R333 to R336). -/
def CmdRec.reply (c : CmdRec) : Msg :=
  { type := if c.hdr.steward then 3 else 0
    queue := c.hdr.queue
    ptn := if c.hdr.steward then c.hdr.target else c.hdr.ptn
    opcode := c.opcode
    status := itemsStatus c.items
    seq := c.hdr.seq
    itemCount := BitVec.ofNat 16 c.items.length
    body := c.sheet.bytes ++ (if c.immediate || c.hdr.steward then List.replicate 16 0 else c.counters) ++ c.items.flatMap Item.bytes ++ c.result }

/-- A rejection: ITEM_COUNT 0, and zeros in bytes 32 to 79 (R318, R333). -/
def rejection (h : Hdr) (opcode : W16) (code : Status) : Msg :=
  { type := if h.steward then 3 else 0, queue := h.queue, ptn := if h.steward then h.target else h.ptn, opcode := opcode, status := code,
    seq := h.seq, body := List.replicate 48 0 }

namespace State

/-- Sends a reply on its channel: under the partition's next ESN, or under the next MEN (R338). -/
def sendReply (s : State) (h : Hdr) (m : Msg) : State :=
  let ports := replyPorts h.replyPort h.port
  if h.steward then (s.takeMen).deliver ports { m with order := s.saf.nextMen }
  else s.sendPtn h.ptn ports m

/-- Removes a command's record, which returns its slot and credits, and releases its contact buffer and gradient area (R144, R188, R320). -/
def dropCmd (s : State) (h : Hdr) : State :=
  let s := s.setChan h (dropFirst (·.is h.queue h.seq))
  if h.steward then s
  else s.updPtn h.ptn fun x => { x with train := { x.train with runs := x.train.runs.filter fun r => !(r.queue = h.queue && r.seq = h.seq) } }

/-- The next of a job whose command is over: the holder of a holder run hands its core groups back at once, a job without a further command ends, a slice end that waited takes effect, and the next command leaves core groups in a release (R281, R285, R292, R302, R305). -/
def advance (s : State) (p : PtnId) (q : QueueId) : State :=
  let x := s.ptn p
  let st := (x.job q).st
  let more := x.flow.cmds.any fun c => c.hdr.queue = q && !c.immediate && !c.isOver
  let next : JobSt := if more then .ready else .idle
  if st = .running && x.holders.any (fun h => h.holder = q && h.running) then s.updPtn p fun x => ((x.updJob q (·.left next)).endHolder q).schedule
  else if x.inHolder q then s
  else if st = .running && !more then s.updPtn p (·.makeIdle q)
  else if st = .running then s.updPtn p fun x =>
    let y := if (x.job q).overrunning then ((x.updJob q fun j => { j with overrunning := false }).latch.sliceCompare q).schedule else x
    if (y.job q).st = .running then y.nextPlace q else y
  else if st = .stopped || (st = .ready && !more) then s.updPtn p fun x => (x.updJob q (·.left next)).schedule
  else s

/-- A command is over: its job is charged for the time since its last charge, which no row tells (R294; DESIGN CHOICE, log entry 13); after a slice end inside a non-preemptible command that is the overrun, of which OVERRUN_US has told the microseconds (R302). -/
def closeCharge (s : State) (c : CmdRec) : State :=
  let p := c.hdr.ptn
  let q := c.hdr.queue
  if (s.job p q).cgs = 0 then s else ({ s with fresh := s.fresh + 1 } : State).updPtn p (·.chargeTime q (some c) (if (s.job p q).overrunning then 1000 * c.overrunUs.toNat + Config.free s.fresh 0 % 1000 else Config.free s.fresh 0))

/-- Reports a command all of whose items are closed, unless R25 holds its reply. -/
def tryReport (s : State) (h : Hdr) : State :=
  match s.cmdOf h with
  | some c =>
    if c.isOver && !c.items.any (·.held) then
      let n := (c.items.filter fun i => i.outcome = 2).length
      let s := if h.steward || n = 0 then s
        else s.updPtn h.ptn fun x => { x with flow := { x.flow with suspectItems := satInc x.flow.suspectItems n }, fix := { x.fix with suspect := true } }
      (s.dropCmd h).sendReply c.hdr c.reply
    else s
  | none => s

/-- After items close: the charge and the reply of a command that is over, and the queue's next command. -/
def settle (s : State) (h : Hdr) : State :=
  match s.cmdOf h with
  | some c =>
    if c.isOver && !c.immediate && !h.steward then ((s.closeCharge c).tryReport h).advance h.ptn h.queue else s.tryReport h
  | none => s

/-- A stream closes: its pages return, its result and the tokens committed stand in its command's record (R204, R214, R225, R336). The time and the length of a hold, which no row tells, are free values (DESIGN CHOICE, log entry 33). -/
def endStream (s : State) (p : PtnId) (t : Stream) (nowUs : Option Nat) : State :=
  let now := nowUs.getD (t.acceptUs + Config.free s.fresh 1)
  let hold := Config.free s.fresh 0
  let s := ({ s with fresh := s.fresh + 1 } : State).updPtn p (·.dropStream t)
  s.updCmd { ptn := p, queue := t.queue, seq := t.seq } fun c => { c with
    result := putResult c.result t.item (t.result hold now)
    items := updNth (fun i => if i.closed then i else { i with detail := BitVec.ofNat 32 t.toks.length }) c.items t.item }

/-- The streams of a command's items close with them. -/
def endStreams (s : State) (h : Hdr) (f : Nat → Bool) : State :=
  if h.steward then s
  else ((s.ptn h.ptn).serve.streams.filter fun t => t.queue = h.queue && t.seq = h.seq && f t.item).foldl (fun s t => s.endStream h.ptn t none) s

/-- Closes an item with an outcome (none: completed). -/
def closeItem (s : State) (h : Hdr) (i : Nat) (failed : Option Status) : State :=
  (s.endStreams h fun k => k = i).updCmd h fun c => { c with items := updNth (·.close failed) c.items i }

/-- Closes every open item of a command with a failure. -/
def failOpen (s : State) (h : Hdr) (code : Status) : State :=
  (s.endStreams h fun _ => true).updCmd h fun c => { c with items := c.items.map (·.close (some code)) }

/-- Adds to the contact sheet of a command. -/
def addSheet (s : State) (h : Hdr) (f : Sheet → Sheet) : State := s.updCmd h fun c => { c with sheet := f c.sheet }

/-- Records that units computed items of a command (R425). -/
def addUnits (s : State) (h : Hdr) (items : List Nat) (units : List Nat) : State :=
  s.updCmd h fun c => { c with items := c.items.mapIdx fun i it =>
    if (decide (i ∈ items)) && !it.closed then { it with units := it.units ++ (units.filter fun u => !decide (u ∈ it.units)) } else it }

/-- Records that units work for a generation item, with the tokens it has committed before (R225). -/
def noteTokens (s : State) (h : Hdr) (i n : Nat) (units : List Nat) : State :=
  s.updCmd h fun c => { c with items := updNth (fun it =>
    { it with ledger := it.ledger ++ (units.filter fun u => !it.ledger.any fun e => e.1 = u).map fun u => (u, n) }) c.items i }

/-- A command's record when its row comes without a packet: it holds no slot (DESIGN CHOICE, log entry 10). -/
def ensureCmd (s : State) (h : Hdr) (opcode : W16) (immediate : Bool) : State :=
  match s.cmdOf h with
  | some _ => s
  | none =>
    if h.steward then
      { s with stew := { s.stew with cmds := s.stew.cmds ++ [{ hdr := h, opcode := opcode, num := s.stew.nextNum }], nextNum := s.stew.nextNum + 1 } }
    else
      let x := s.ptn h.ptn
      s.updFlow h.ptn fun f => { f with
        cmds := f.cmds ++ [{ hdr := h, opcode := opcode, num := f.nextNum, immediate := immediate, numMode := x.numMode, srSeed := x.srSeed }]
        nextNum := f.nextNum + 1 }

/-- An immediate command may go: in acceptance order, not before a fence of its own that waits, and not past a queued FENCE of its queue (R323, R324). -/
def immReady (cs : List CmdRec) (d : CmdRec) : Bool :=
  let e := cs.filter fun x => x.num < d.num
  !d.started && (!d.hdr.fence || e.isEmpty) && !e.any fun x => x.immediate || (x.hdr.fence && x.hdr.queue = d.hdr.queue && !x.isOver)

/-- Rules of order: FENCE, the steward's one command at a time, immediate commands in acceptance order and ahead of queued ones, and a queue's commands one after the other (R285, R322 to R324); a full outbound store starts nothing (R341). -/
def mayStart (s : State) (c : CmdRec) : Bool :=
  let cs := s.chan c.hdr
  let earlier := cs.filter fun d => d.num < c.num
  !s.storeFull (if c.hdr.steward then none else some c.hdr.ptn) && !c.started &&
  (!c.hdr.fence || earlier.isEmpty) &&
  (if c.hdr.steward then earlier.isEmpty
   else if c.immediate then immReady cs c
   else !(cs.any fun d => d.immediate && immReady cs d) && !earlier.any fun d => d.hdr.queue = c.hdr.queue && !d.immediate && !d.isOver)

/-- Rejects a command when it starts (R318): the reply carries no item. -/
def reject (s : State) (h : Hdr) (opcode : W16) (code : Status) : State :=
  let hd := match s.cmdOf h with | some c => c.hdr | none => h
  let s := (s.dropCmd h).sendReply hd (rejection hd opcode code)
  if h.steward then s else s.advance h.ptn h.queue

/-- Marks a command as started with n open items. -/
def open' (s : State) (h : Hdr) (n : Nat) : State :=
  s.updCmd h fun c => { c with started := true, items := List.replicate n {} }

/-- An immediate or steward command: it takes effect and is replied to in one step. `f` answers the state, its items and its result block, or a rejection (R323). -/
def atOnce (s : State) (h : Hdr) (opcode : W16) (f : State → State × Except Status (List Item × List Byte)) : State :=
  let s := s.ensureCmd h opcode true
  match s.cmdOf h with
  | none => s
  | some c =>
    if !s.mayStart c then s
    else
      match f s with
      | (s, .error code) => s.reject h opcode code
      | (s, .ok (items, result)) =>
        (s.updCmd h fun c => { c with started := true, items := items, result := result }).tryReport h

/-- The image bytes of a resident model. -/
def imageSpan (x : Ptn) (m : W16) : List (Nat × Nat) := ((x.models.filter (·.handle = m.toNat)).map fun y => (y.addr, y.bytes))

/-- Partition addresses that a queued command reads as it starts, and the models it works on. -/
def startSpans (x : Ptn) : Instr → List (Nat × Nat)
  | .modelLoad _ a n _ _ => [(a.toNat, n.toNat)]
  | .progLoad _ a n => [(a.toNat, n.toNat)]
  | .variantLoad _ _ _ a n => [(a.toNat, n.toNat)]
  | .genSubmit _ _ _ rs => rs.map fun r => (r.promptAddr.toNat, 4 * r.promptLen.toNat)
  | .distillStep _ b _ => imageSpan x b.teacher ++ imageSpan x b.student
  | .eval _ b _ => imageSpan x b.teacher ++ imageSpan x b.student
  | .update _ m _ _ _ _ => imageSpan x m
  | .reduce _ _ _ n src _ => [(src.toNat, 4 * n.toNat)]
  | .negativeShip _ m _ _ => imageSpan x m
  | .ckptSave _ _ _ _ _ => x.models.map fun y => (y.addr, y.bytes)
  | _ => []

/-- A command whose first access no slot serves waits for one, without a limit (R510). -/
def slotsWait (s : State) (p : PtnId) (c : Instr) : Bool := (startSpans (s.ptn p) c).any fun e => s.noSlot p e.1 e.2

/-- A queued command: its job becomes ready, and it starts when the job runs (R285, R292). `f` carries it out on the open record. -/
def queued (s : State) (h : Hdr) (opcode : W16) (cmd : Instr) (check : State → Option Status) (items : State → Nat) (f : State → State) : State :=
  let s := (s.ensureCmd h opcode false).updCmd h fun c => { c with cmd := some (c.cmd.getD cmd) }
  match s.cmdOf h with
  | none => s
  | some c =>
    if !s.mayStart c then s
    else
      let s := s.updPtn h.ptn (·.makeReady h.queue)
      if (s.job h.ptn h.queue).st ≠ .running then s
      else
        match check s with
        | some code => s.reject h opcode code
        | none => if s.slotsWait h.ptn cmd then s else (f (s.open' h (items s))).settle h

end State

/-- One completed item. -/
def doneItem : Item := { closed := true }
/-- One failed item. -/
def failedItem (code : Status) : Item := { closed := true, failed := some code }

/-- An item from an answer. -/
def itemOf {α : Type} : Except Status α → Item
  | .ok _ => doneItem
  | .error c => failedItem c

end Sys2Proof.Machine
end

