-- ==== Sys2Proof/Machine/Check.lean ====
section
/-! DEFINITION. The checks of instruction words (R115 to R117, R121, R127, R138, R507) at acceptance, at load and at dispatch. -/

namespace Sys2Proof.Machine

/-- Which TYPE codes an OP takes (R118). -/
inductive TySet where
  | zero | any | ints | shorts | floats | b32only | cmp
deriving DecidableEq, Repr

def TySet.has (s : TySet) (t : Nat) : Bool :=
  match s with
  | .zero => t = 0
  | .any => t ≤ 9
  | .ints => t = 2 || t = 3
  | .shorts => t = 4 || t = 5 || t = 6
  | .floats => t = 7 || t = 8
  | .b32only => t = 8
  | .cmp => t = 2 || t = 3 || t = 7 || t = 8

/-- The types of each OP; none for a reserved OP (R118). -/
def opTypes (op : Nat) : Option TySet :=
  if op = 0x00 then some .zero
  else if op = 0x01 then some .any
  else if 0x02 ≤ op ∧ op ≤ 0x0C then some .ints
  else if op = 0x0D then some .shorts
  else if 0x10 ≤ op ∧ op ≤ 0x19 then some .floats
  else if op = 0x1A ∨ op = 0x1B then some .b32only
  else if (0x20 ≤ op ∧ op ≤ 0x24) ∨ op = 0x29 ∨ op = 0x2A then some .cmp
  else if op = 0x25 then some .any
  else if 0x26 ≤ op ∧ op ≤ 0x28 then some .zero
  else if op = 0x30 ∨ op = 0x38 ∨ op = 0x39 then some .any
  else if op = 0x3A then some .any      -- PROM's TYPE is judged with its SPACE
  else if 0x40 ≤ op ∧ op ≤ 0x45 then some .zero
  else if op = 0x50 ∨ (0x52 ≤ op ∧ op ≤ 0x56) then some .zero
  else none

/-- OPs whose operand B may be a data immediate (R115). -/
def opData (op : Nat) : Bool :=
  op = 0x01 || (0x02 ≤ op && op ≤ 0x0C) || (0x10 ≤ op && op ≤ 0x14) || op = 0x16 || op = 0x17 ||
  (0x20 ≤ op && op ≤ 0x25) || op = 0x29 || op = 0x2A

/-- A data immediate in the register form and range of its type (R114, R115). -/
def immForm (t imm : Nat) : Bool :=
  match t with
  | 0 => decide (-128 ≤ sInt 32 imm) && decide (sInt 32 imm ≤ 127)
  | 1 => decide (-32768 ≤ sInt 32 imm) && decide (sInt 32 imm ≤ 32767)
  | 4 => imm &&& 0xFFFF00F0 = 0
  | 5 => imm &&& 0xFFFF00C0 = 0
  | 6 => imm &&& 0xFFFF0000 = 0
  | 7 => imm &&& 0xFFFF0000 = 0
  | 9 => imm &&& 0xFFF00000 = 0
  | _ => true

end Sys2Proof.Machine

namespace Sys2Proof.IWord
open Sys2Proof.Machine
variable (w : IWord)
def ty : Nat := w.type.toNat
def immN : Nat := w.imm.toNat
/-- SPACE of a memory instruction (R113). -/
def space : Nat := bits w.b.toNat 3 2
def base : Nat := w.b.toNat % 8
/-- Fields of CVT and SCVT (R121). -/
def own : Bool := bitAt w.immN 17
def cvtMode : Nat := bits w.immN 15 2
def cvtRnd : Nat := bits w.immN 13 2
def cvtSat : Bool := bitAt w.immN 12
def cvtScale : Nat := bits w.immN 4 8
def cvtTarget : Nat := bits w.immN 0 4
/-- Fields of SRED (R127). -/
def rop : Nat := bits w.immN 0 4
def sample : Bool := bitAt w.immN 4
def group : Bool := bitAt w.immN 5
def toAcc : Bool := bitAt w.immN 6
def cont : Bool := bitAt w.immN 7
end Sys2Proof.IWord

namespace Sys2Proof.Machine

def isShortCode (t : Nat) : Bool := t = 4 || t = 5 || t = 6

/-- Conditions on IMM: reserved or ill-formed immediates (E_INSTR), and the scale mode of CVT (E_BLOCK_SHAPE). -/
def immCheck (op : Nat) (w : IWord) (instrs : Nat) : Option Status :=
  let imm := w.immN
  if opData op && w.i && !immForm w.ty imm then some St.eInstr
  else if op = 0x0D && w.i && imm &&& 0xFFFFFF00 ≠ 0 then some St.eInstr
  else if op = 0x30 || op = 0x40 then
    if imm >>> 18 ≠ 0 || w.cvtMode = 3 || w.cvtRnd > 1 || (op = 0x30 && w.cvtTarget > 9) ||
       (!w.own && bits imm 4 13 ≠ 0) then some St.eInstr
    else if op = 0x30 && w.own && (w.cvtMode = 0 || (w.cvtMode = 2 && isShortCode w.cvtTarget && !isShortCode w.ty)) then some St.eBlockShape
    else none
  else if op = 0x41 then
    if w.rop > 8 || imm >>> 8 ≠ 0 || (w.sample && w.rop ≠ 3) || ((w.toAcc || w.cont) && w.rop > 3) then some St.eInstr else none
  else if op = 0x43 then
    if bits imm 0 3 > 4 || imm >>> 7 ≠ 0 || (bitAt imm 3 && bits imm 0 3 ≥ 3) then some St.eInstr else none
  else if op = 0x50 && bits imm 0 16 ≥ instrs then some St.eInstr
  else none

/-- The conditions of R117 on one word, in the order of its list; a patched word's IMM is judged at dispatch (R116). -/
def wordCheck (op : Nat) (w : IWord) (instrs : Nat) : Option Status :=
  match opTypes op with
  | none => some St.eInstr
  | some ts =>
    if !ts.has w.ty then some St.eInstr
    else
      match (if w.patch then (if w.immN >>> 4 ≠ 0 then some St.eInstr else none) else immCheck op w instrs) with
      | some c => some c
      | none =>
        if (op = 0x38 || op = 0x39 || op = 0x3A) && w.space = 3 then some St.eInstr
        else if op = 0x3A && (w.space ≠ 2 || w.ty ≠ 8) then some St.eInstr
        else if (op = 0x38 || op = 0x39) && w.space = 2 && w.ty ≠ 8 then some St.eInstr
        else none

/-- The one-kind rule of summary slots (R138). -/
def summaryKinds : List OpWord → List (Nat × Nat) → Bool
  | [], _ => true
  | o :: r, seen =>
    if o.op = 0x55 && !o.w.patch then
      let sl := bits o.w.immN 0 4
      let k := bits o.w.immN 4 2
      match seen.find? (·.1 = sl) with
      | some e => e.2 = k && summaryKinds r seen
      | none => summaryKinds r ((sl, k) :: seen)
    else summaryKinds r seen

/-- The kind a kernel's SUMRY instructions declare for a slot; FLAG where none names it (R138, R514). -/
def slotKind (code : List OpWord) (slot : Nat) : BitVec 2 :=
  match code.find? fun o => o.op = 0x55 && bits o.w.immN 0 4 = slot with
  | some o => BitVec.ofNat 2 (bits o.w.immN 4 2)
  | none => 0

/-- Value of a slot with no contribution (R138). -/
def slotInit (kind : BitVec 2) : W32 := match kind.toNat with | 2 => 0xFF800000 | 3 => 0x7F800000 | _ => 0

/-- A kernel: every word, the last instruction, and the summary slots (R117, R138). -/
def kernelCheck (code : List OpWord) : Option Status :=
  match code.findSome? fun o => wordCheck o.op.toNat o.w code.length with
  | some c => some c
  | none =>
    match code.getLast? with
    | some o =>
      if !(o.op = 0x56 || (o.op = 0x50 && o.w.pred = 0)) then some St.eInstr
      else if !summaryKinds code [] then some St.eInstr else none
    | none => some St.eInstr

/-- A word with PATCH takes its IMM from the launch's parameter slot (R116). The copy in the operand cache holds the PATCH bit as 0, since the word no longer asks for a patch (DESIGN CHOICE, log entry 67). -/
def patched (params : List W32) (w : IWord) : IWord :=
  if w.patch then { w with imm := params.getD (w.immN % 16) 0, patch := false } else w

/-- CVTs with OWN = 0 under a command's sampled mode: KEEP needs a short source (R121). -/
def cvtModeCheck (smode : BitVec 2) (code : List OpWord) : Option Status :=
  if smode = 2 && code.any fun o => o.op = 0x30 && !o.w.patch && !o.w.own && isShortCode o.w.cvtTarget && !isShortCode o.w.ty
  then some St.eBlockShape else none

/-- The checks of dispatch, on the words with their parameters (R116). -/
def dispatchCheck (smode : BitVec 2) (params : List W32) (code : List OpWord) : Option Status :=
  let c := code.map fun o => { o with w := patched params o.w }
  match kernelCheck c with
  | some e => some e
  | none => cvtModeCheck smode c

end Sys2Proof.Machine
end

