-- ==== Sys2Proof/Machine/Geometry.lean ====
section
/-! DEFINITION. Checks of run and split descriptors (R38, R57, R66, R70, R72, R75, R78, R108), and the array time of a tile. -/

namespace Sys2Proof.RunDesc
variable (d : RunDesc)
def q4 : Bool := d.fmt = 1
def k : Nat := d.kDepth.toNat + 1
def m : Nat := d.mRows.toNat + 1
def n : Nat := d.nCols.toNat + 1
/-- Slice products (a, b) in issue order (R69). -/
def products : List (Nat × Nat) :=
  match d.passes.toNat with
  | 2 => [(1, 0), (0, 1), (0, 0)]
  | 3 => [(2, 0), (1, 1), (0, 2), (1, 0), (0, 1), (0, 0)]
  | _ => [(0, 0)]
end Sys2Proof.RunDesc

namespace Sys2Proof.Machine

def tensorTy (t : TensorDesc) : Ty := (Ty.ofCode t.type.toNat).getD .int8

/-- A long operand of which the module forms slices: binary32 or binary16 (R71). -/
def TensorDesc.isLongOp (t : TensorDesc) : Bool := t.type = 7 || t.type = 8

/-- The shape code under which an operand is read: formed slices are 4 × 4 (R71). -/
def opShape (t : TensorDesc) : Nat := if TensorDesc.isLongOp t then 4 else t.shape.toNat

/-- Operand type against FMT (R38, R66): the short format of FMT, or a long operand of a split-precision run. A run of one pass is none, so a long operand fails there (DEDUCED, log entry 87). -/
def opFormatBad (d : RunDesc) (t : TensorDesc) : Bool :=
  !((d.q4 && t.type = 4) || (!d.q4 && t.type = 5) || (!d.q4 && d.passes.toNat ≥ 2 && TensorDesc.isLongOp t))

/-- Padded rows and columns of an operand as stored (R35). -/
def paddedDims (t : TensorDesc) : Nat × Nat :=
  let b := blockDims (opShape t)
  (ceilDiv t.rows.toNat b.1 * b.1, ceilDiv t.cols.toNat b.2 * b.2)

/-- Block length along K (R75). -/
def kBlock (shape : Nat) : Nat := match shape with | 0 => 16 | 1 => 32 | 2 => 16 | 3 => 32 | _ => 4

/-- Blocks lie along the reduction dimension as read, or are 4 × 4 (R36, R75). -/
def blockBad (t : TensorDesc) (streamed turned : Bool) : Bool :=
  let s := opShape t
  if s = 4 then false else if turned then true else if streamed then s > 1 else s < 2

/-- The conditions of R75 on one run alone, in the order of its table, with the tile-wide rows answered by `tileBad`; `keptBad` says that the weight tile KEEP_W keeps is of the other format (R38), and `inErg` whether an operand's arrays lie in the Erg. KEEP_W takes no check from the stationary operand. Where the two operands' logical K differ, the streamed operand's decides which index is the last (DESIGN CHOICE, log entry 60). -/
def runCheck (d : RunDesc) (s w : TensorDesc) (firstOfTile tileBad keptBad : Bool) (inErg : TensorDesc → Bool) : Option Status :=
  let ps := paddedDims s; let pw := paddedDims w
  let sDims := if d.turnS then (ps.2, ps.1) else ps       -- rows, K as read
  let wDims := if d.turnW then (pw.2, pw.1) else pw       -- K, columns as read
  let k0 := d.kOff.toNat
  let kLog := if d.turnS then s.rows.toNat else s.cols.toNat
  if d.fmt.toNat > 1 || d.passes = 0 || (d.q4 && d.passes ≠ 1) || opFormatBad d s || opFormatBad d w || (d.keepW && keptBad) then some St.eFormat
  else if d.k > (if d.q4 then 128 else 64) || d.accBase.toNat + ceilDiv d.m 64 > 8 || tileBad ||
    (d.keepW && (firstOfTile || d.passes ≠ 1)) || d.rsv ≠ 0 then some St.eTileGeom
  else if d.sRow.toNat + d.m > sDims.1 || k0 + d.k > sDims.2 || k0 + d.k > wDims.1 || d.nOff.toNat + d.n > wDims.2 then some St.eTileGeom
  else if !inErg s || !inErg w then some St.eOperandLoc
  else if blockBad s true d.turnS || blockBad w false d.turnW then some St.eBlockShape
  else if k0 % kBlock (opShape s) ≠ 0 || k0 % kBlock (opShape w) ≠ 0 then some St.eBlockShape
  else if (d.k % kBlock (opShape s) ≠ 0 || d.k % kBlock (opShape w) ≠ 0) && k0 + d.k < kLog then some St.eBlockShape
  else none

/-- Array runs of a descriptor: rows, whether it loads weights, whether its stream is turned (R69, R70). -/
def arrayRuns (d : RunDesc) : List (Nat × Bool × Bool) := d.products.map fun _ => (d.m, !d.keepW, d.turnS)

/-- Sum of c[r] and turn costs over the array runs of a tile (R72, R78). -/
def runCycles (turned : Bool) : List (Nat × Bool × Bool) → Nat
  | [] => 0
  | (m, _, ts) :: r =>
    let c := match r with
      | (_, true, _) :: _ => max m 64
      | _ => m
    c + (if ts && !turned then 64 else 0) + runCycles (ts && decide (m ≥ 64)) r

/-- tile_cycles (R78). -/
def tileCycles (ds : List RunDesc) : Nat := 64 + runCycles false (ds.flatMap arrayRuns) + 130

/-- Streamed rows of a tile (R70). -/
def tileRows (ds : List RunDesc) : Nat := ds.foldl (fun a d => a + d.m * d.products.length) 0

/-- Limits of a tile (R57): rows, array time. -/
def tileTooLong (ds : List RunDesc) : Bool := tileRows ds > 4096 || tileCycles ds > 4480

/-- Cuts the runs of one core into tiles; the last list is of runs after the last TILE_END. -/
def tilesOf : List RunDesc → List RunDesc → List (List RunDesc) × List RunDesc
  | [], cur => ([], cur)
  | d :: r, cur => if d.tileEnd then let x := tilesOf r []; ((cur ++ [d]) :: x.1, x.2) else tilesOf r (cur ++ [d])

/-- Runs of one core, in record order. -/
def coreRuns (recs : List PlanRec) (core : Nat) : List RunDesc :=
  recs.filterMap fun r => match r with | .run c d => if c = core then some d else none | _ => none

/-- For the i-th record of a plan, a RUN: whether it is the first of its tile, and whether its tile breaks a tile-wide row (charged to the tile's last run). A command's last run is, on every core of every plan, the core's last one of the plan (DESIGN CHOICE, log entry 61). -/
def tilePlace (recs : List PlanRec) (i : Nat) (core : Nat) (d : RunDesc) : Bool × Bool :=
  let before := (tilesOf (coreRuns (recs.take i) core) []).2
  let after := coreRuns (recs.drop (i + 1)) core
  (before.isEmpty, (d.tileEnd || after.isEmpty) && (tileTooLong (before ++ [d]) || !d.tileEnd))

/-- The run that loaded the weights a KEEP_W run of this core keeps is of the other format (R38). -/
def keptFormatBad (recs : List PlanRec) (i core : Nat) (d : RunDesc) : Bool :=
  match ((coreRuns (recs.take i) core).filter (!·.keepW)).getLast? with
  | some e => e.q4 != d.q4
  | none => false

/-- A WAIT_SEM or POST_SEM record after a RUN of its core without TILE_END (R513). -/
def semPlaceBad (recs : List PlanRec) (i core : Nat) : Bool :=
  match (coreRuns (recs.take i) core).getLast? with
  | some d => !d.tileEnd
  | none => false

namespace SplitParts
/-- Parts of a split descriptor; 0 where PARTS is reserved. -/
def count (d : SplitDesc) : Nat := match d.parts.toNat with | 1 => 2 | 2 => 4 | 3 => 8 | _ => 0
/-- Places in a plan of a part's RUN records between the SPLIT record at place i and the part's next TILE_END. -/
def places (recs : List PlanRec) (i core : Nat) : List Nat := go (recs.drop (i + 1)) (i + 1)
where
  go : List PlanRec → Nat → List Nat
    | [], _ => []
    | .run c d :: r, n => if c = core then (if d.tileEnd then [n] else n :: go r (n + 1)) else go r (n + 1)
    | _ :: r, n => go r (n + 1)
/-- Runs of a part between the SPLIT record and the part's next TILE_END. -/
def runs (recs : List PlanRec) (i core : Nat) : List RunDesc :=
  match tilesOf (coreRuns (recs.drop (i + 1)) core) [] with
  | (t :: _, _) => t
  | ([], r) => r
end SplitParts

/-- The conditions of R108 on the split record at place i of a plan; `limit` is the first core number that no core can be. -/
def splitCheck (recs : List PlanRec) (i : Nat) (d : SplitDesc) (limit : Nat) : Option Status :=
  let p := SplitParts.count d
  let cores := (d.partMc.take p).map (·.toNat)
  if d.mode.toNat > 1 || p = 0 || d.rsv ≠ 0 || (d.partMc.drop p).any (· ≠ 0) then some St.eSplitGeom
  else if d.accBase.toNat + d.tiles.toNat + 1 > 8 then some St.eSplitGeom
  else if cores.eraseDups.length ≠ cores.length || cores.any (· ≥ limit) then some St.eSplitGeom
  else if cores.any fun c => (SplitParts.runs recs i c).isEmpty then some St.eSplitGeom
  else
    let firsts := (cores.drop 1).map fun c => ((SplitParts.runs recs i c).headD {}).accInit
    if d.mode = 0 && firsts.any id then some St.eSplitGeom
    else if d.mode = 1 && firsts.any not then some St.eSplitGeom
    else none

/-- Every boundary between parts lies on the grid of R104, counted from the first part's first index. A part that reads other operands than part 0 continues no reduction of part 0's, so its boundary is off the grid (DEDUCED, log entry 62). -/
def splitAligned (recs : List PlanRec) (i : Nat) (d : SplitDesc) : Bool :=
  let cores := (d.partMc.take (SplitParts.count d)).map (·.toNat)
  let firsts := cores.map fun c => (SplitParts.runs recs i c).headD {}
  match firsts with
  | [] => true
  | f :: r => r.all fun g => g.sTensor = f.sTensor && g.wTensor = f.wTensor && g.q4 == f.q4 &&
      decide (((g.kOff.toNat : Int) - f.kOff.toNat) % (if f.q4 then 128 else 64) = 0)

end Sys2Proof.Machine
end

