-- ==== Sys2Proof/Machine/Image.lean ====
section
/-! DEFINITION. Aqler images: reading one from bytes, and its checks at load in the order of R509 (R344 to R348, R513 to R516). -/

namespace Sys2Proof.Machine

/-- The n-byte field at offset o (R2). -/
def fld (b : List Byte) (o n : Nat) : Nat := leNat ((b.drop o).take n)

def allZero (b : List Byte) (o n : Nat) : Bool := fld b o n = 0

/-! ## Records (R74, R107, R113, R345, R346, R347) -/

def RunDesc.parse (v : Nat) : RunDesc :=
  { fmt := BitVec.ofNat 2 (bits v 0 2), passes := BitVec.ofNat 2 (bits v 2 2), turnS := bitAt v 4, turnW := bitAt v 5, keepW := bitAt v 6,
    accInit := bitAt v 7, accBase := BitVec.ofNat 3 (bits v 8 3), tileEnd := bitAt v 11, mRows := BitVec.ofNat 9 (bits v 12 9),
    nCols := BitVec.ofNat 6 (bits v 21 6), kDepth := BitVec.ofNat 7 (bits v 27 7), rsv := BitVec.ofNat 30 (bits v 34 30),
    sTensor := BitVec.ofNat 16 (bits v 64 16), wTensor := BitVec.ofNat 16 (bits v 80 16), sRow := BitVec.ofNat 32 (bits v 96 32),
    kOff := BitVec.ofNat 32 (bits v 128 32), nOff := BitVec.ofNat 32 (bits v 160 32) }

def SplitDesc.parse (v : Nat) : SplitDesc :=
  { mode := BitVec.ofNat 2 (bits v 0 2), parts := BitVec.ofNat 2 (bits v 2 2), accBase := BitVec.ofNat 3 (bits v 4 3),
    tiles := BitVec.ofNat 3 (bits v 7 3), rsv := BitVec.ofNat 54 (bits v 10 54), partMc := leBytes 8 (bits v 64 64) }

def TensorDesc.parse (v : Nat) : TensorDesc :=
  { type := BitVec.ofNat 4 (bits v 0 4), shape := BitVec.ofNat 3 (bits v 4 3), slices := BitVec.ofNat 2 (bits v 7 2), trainable := bitAt v 9,
    bind := bitAt v 10, shared := bitAt v 11, bindIndex := BitVec.ofNat 16 (bits v 16 16), rows := BitVec.ofNat 32 (bits v 32 32),
    cols := BitVec.ofNat 32 (bits v 64 32), addr := BitVec.ofNat 48 (bits v 96 48), scaleAddr := BitVec.ofNat 48 (bits v 160 48),
    rsvBits := bits v 12 4 + bits v 144 16 + bits v 208 48 }

/-- An instruction word (R113). -/
def OpWord.parse (v : Nat) : OpWord :=
  { op := BitVec.ofNat 7 (bits v 0 7)
    w := { i := bitAt v 7, type := BitVec.ofNat 4 (bits v 8 4), d := BitVec.ofNat 5 (bits v 12 5), a := BitVec.ofNat 5 (bits v 17 5),
           b := BitVec.ofNat 5 (bits v 22 5), pred := BitVec.ofNat 3 (bits v 27 3), mz := bitAt v 30, patch := bitAt v 31, imm := BitVec.ofNat 32 (bits v 32 32) } }

def Layer.parse (v : Nat) : Layer :=
  { kind := BitVec.ofNat 8 v, flags := BitVec.ofNat 8 (bits v 8 8), param := BitVec.ofNat 32 (bits v 32 32),
    tensors := (List.range 8).map fun i => BitVec.ofNat 16 (bits v (64 + 16 * i) 16), fval := BitVec.ofNat 32 (bits v 192 32) }

def SeqStep.parse (v : Nat) : SeqStep :=
  { sop := BitVec.ofNat 8 v, fl := BitVec.ofNat 8 (bits v 8 8), a := BitVec.ofNat 16 (bits v 16 16), b := BitVec.ofNat 16 (bits v 32 16),
    slotA := BitVec.ofNat 4 (bits v 48 4), slotB := BitVec.ofNat 4 (bits v 52 4), imm := BitVec.ofNat 32 (bits v 64 32) }

/-! ## Sections (R344) -/

structure Sect where
  type : Nat := 0
  count : Nat := 0
  off : Nat := 0
deriving DecidableEq, Repr

def sections (b : List Byte) (n : Nat) : List Sect :=
  (List.range n).map fun i => ⟨fld b (64 + 16 * i) 2, fld b (68 + 16 * i) 4, fld b (72 + 16 * i) 8⟩

def sectOf (ss : List Sect) (t : Nat) : Option Sect := ss.find? (·.type = t)
def sectCount (ss : List Sect) (t : Nat) : Nat := ((sectOf ss t).map (·.count)).getD 0

/-- The conditions of a section table entry. -/
def sectBad (kind total n : Nat) (b : List Byte) (i : Nat) (s : Sect) : Bool :=
  !allZero b (66 + 16 * i) 2 || !(if kind = 1 then decide (s.type ∈ [1, 2, 8]) else decide (s.type ∈ [1, 3, 4, 5, 6, 7])) ||
  s.off % 64 ≠ 0 || s.off < 64 + 16 * n || s.off > total ||
  (match s.type with | 1 => s.off + 32 * s.count > total | 2 => s.off + 32 * s.count > total | 4 => s.off + 4 * s.count > total
                     | 5 => s.off + 16 * s.count > total | 6 => s.off + 16 * s.count > total | 7 => s.off + 16 * s.count > total | _ => false)

/-- The header and the section table (R344). -/
def headerCheck (kind bytes : Nat) (b : List Byte) : Option Status :=
  let n := fld b 8 2
  let ss := sections b n
  if bytes < 64 || fld b 0 4 ≠ 0x524C5141 || fld b 4 2 ≠ 1 || fld b 6 2 ≠ kind || n = 0 || n > 16 || !allZero b 10 6 || fld b 16 8 ≠ bytes ||
    (kind = 2 && fld b 24 4 ≠ 0) || !allZero b 28 4 || (kind = 2 && !allZero b 32 8) || !allZero b 40 24 then some St.eImage
  else if 64 + 16 * n > bytes || (ss.zipIdx.any fun e => sectBad kind bytes n b e.2 e.1) then some St.eImage
  else if (ss.map (·.type)).eraseDups.length ≠ n then some St.eImage
  else if (if kind = 1 then [1, 2] else [1, 3, 6, 7]).any fun t => (sectOf ss t).isNone then some St.eImage
  else none

/-! ## Reading a section -/

def recs (b : List Byte) (s : Sect) (size : Nat) : List Nat := (List.range s.count).map fun i => fld b (s.off + size * i) size

/-- Kernels follow one another from the start of CODE: an 8-byte header with INSTRS, then the words. -/
def readKernels (b : List Byte) : Nat → Nat → Option (List (List OpWord))
  | _, 0 => some []
  | o, n + 1 =>
    let k := fld b o 2
    if k = 0 || !allZero b (o + 2) 6 || o + 8 + 8 * k > b.length then none
    else (readKernels b (o + 8 + 8 * k) n).map fun r => ((List.range k).map fun i => OpWord.parse (fld b (o + 8 + 8 * i) 8)) :: r

def coreEntry (b : List Byte) (o : Nat) : CoreEntry := ⟨fld b o 2, fld b (o + 2) 2, BitVec.ofNat 256 (fld b (o + 8) 32)⟩

/-- A launch record at byte o, and whether its reserved bytes are zero and it lies in the image (R346). -/
def launchRec (b : List Byte) (o : Nat) : LaunchRec × Bool :=
  let n := fld b (o + 6) 2
  ({ kernel := fld b o 2, ocBase := fld b (o + 2) 1, ocKib := fld b (o + 3) 1, summaries := fld b (o + 4) 1,
     base := (List.range 8).map fun i => BitVec.ofNat 48 (fld b (o + 8 + 8 * i) 6),
     param := (List.range 16).map fun i => BitVec.ofNat 32 (fld b (o + 72 + 4 * i) 4),
     cores := (List.range n).map fun i => coreEntry b (o + 136 + 40 * i) },
   decide (o + 136 + 40 * n ≤ b.length) && decide (0 < n) && decide (n ≤ 256) && allZero b (o + 5) 1 &&
     ((List.range 8).all fun i => allZero b (o + 14 + 8 * i) 2) && ((List.range n).all fun i => allZero b (o + 140 + 40 * i) 4))

/-- The plan record at byte o; none where its KIND is no kind. -/
def planRec (b : List Byte) (o : Nat) : Option PlanRec :=
  let v := fld b o 32
  let core := bits v 16 16
  if bits v 8 8 ≠ 0 || bits v 40 24 ≠ 0 || (bits v 0 8 = 2 && bits v 192 64 ≠ 0) then none
  else match bits v 0 8 with
  | 1 => some (.run core (RunDesc.parse (bits v 64 192)))
  | 2 => some (.split (SplitDesc.parse (bits v 64 192)))
  | 3 => some (.waitSem core (Fin.ofNat 256 (bits v 32 8)))
  | 4 => some (.postSem core (Fin.ofNat 256 (bits v 32 8)))
  | _ => none

/-- The records of plan i, none for one that is malformed; nothing where the plan's entry is. -/
def planSlots (b : List Byte) (s : Sect) (i : Nat) : Option (List (Option PlanRec)) :=
  let e := s.off + 16 * i
  let o := s.off + fld b e 8
  let n := fld b (e + 8) 4
  if o + 32 * n > b.length || !allZero b (e + 12) 4 then none else some ((List.range n).map fun j => planRec b (o + 32 * j))

def planRecs (b : List Byte) (s : Sect) (i : Nat) : List PlanRec := ((planSlots b s i).getD []).filterMap id

/-- Everything an image holds, read without a check; a malformed part reads as empty. -/
def Image.read (b : List Byte) : Image :=
  let kind := fld b 6 2
  let ss := sections b (fld b 8 2)
  let sect := fun t => (sectOf ss t).getD {}
  { kind := kind
    vocab := fld b 24 4
    tensors := (recs b (sect 1) 32).map TensorDesc.parse
    layers := if kind = 1 then (recs b (sect 2) 32).map Layer.parse else []
    kernels := if kind = 2 then (readKernels b (sect 3).off (sect 3).count).getD [] else []
    launches := (recs b (sect 4) 4).map fun o => (launchRec b ((sect 4).off + o)).1
    plans := (List.range (sect 5).count).map fun i => planRecs b (sect 5) i
    steps := (recs b (sect 6) 16).map SeqStep.parse
    entries := (recs b (sect 7) 16).map fun v => ⟨bits v 0 32, bits v 32 16, bitAt v 48⟩
    order := ss.map (·.type)
    weights := (sectOf ss 8).map fun s => (s.off, fld b 16 8 - s.off) }

/-! ## Checks of the sections (R345 to R348, R513 to R516) -/

/-- TYPE and SHAPE codes a tensor descriptor may carry, SLICES, reserved bits (R345, R516). -/
def tensorBad (t : TensorDesc) : Bool :=
  t.rsvBits ≠ 0 || (Ty.ofCode t.type.toNat).isNone || (isShortCode t.type.toNat && t.shape.toNat > 4) || t.slices = 3 ||
  (t.slices ≠ 0 && t.type ≠ 5) || t.bindIndex.toNat > 255 || t.rows = 0 || t.cols = 0

def layerBad (tensors : Nat) (v : Nat) (l : Layer) : Bool :=
  l.kind = 0 || l.kind.toNat > 8 || l.flags.toNat > 1 || bits v 16 16 ≠ 0 || bits v 224 32 ≠ 0 ||
  l.tensors.any fun t => t ≠ 0xFFFF && t.toNat ≥ tensors

/-- The kernels in their order, each with its header first and then its words (R117, R509). -/
def kernelsCheck (b : List Byte) : Nat → Nat → Option Status
  | _, 0 => none
  | o, n + 1 =>
    let k := fld b o 2
    if k = 0 || !allZero b (o + 2) 6 || o + 8 + 8 * k > b.length || k > 1024 then some St.eImage
    else (kernelCheck ((List.range k).map fun i => OpWord.parse (fld b (o + 8 + 8 * i) 8))).or (kernelsCheck b (o + 8 + 8 * k) n)

/-- A launch record: its layout and indices, R515, and its region and its kernel's code (R134). -/
def launchCheck (ks : List (List OpWord)) (r : LaunchRec × Bool) : Option Status :=
  let l := r.1
  if !r.2 || l.kernel ≥ ks.length || l.summaries > 16 then some St.eImage
  else
    let code := ks.getD l.kernel []
    if (l.cores.map (·.core)).eraseDups.length ≠ l.cores.length || l.cores.any fun c => c.entry ≥ code.length then some St.eImage
    else if l.ocBase + l.ocKib > 128 || 8 * code.length > 1024 * l.ocKib || 8 * code.length > 8192 then some St.eOcAlloc
    else none

/-- Whether both arrays of an operand lie in the Erg, from the first byte to the last, where the image fixes its address (R61). -/
def tensorInErg (t : TensorDesc) : Bool :=
  let ty := tensorTy t; let k := t.slices.toNat + 1
  t.bind || (!t.shared && decide (t.addr.toNat + k * elemBytes ty t.shape.toNat t.rows.toNat t.cols.toNat ≤ ergTop) &&
    (!isShortCode t.type.toNat || decide (t.scaleAddr.toNat + k * scaleBytes ty t.shape.toNat t.rows.toNat t.cols.toNat ≤ ergTop)))

/-- The first n records of one plan, in record order (R75, R108, R513). -/
def planCheck (ts : List TensorDesc) (plan : List PlanRec) (n : Nat) : Option Status :=
  (plan.zipIdx.take n).findSome? fun e =>
    match e.1 with
    | .run core d =>
      if d.sTensor.toNat ≥ ts.length || d.wTensor.toNat ≥ ts.length then some St.eImage
      else
        let pl := tilePlace plan e.2 core d
        runCheck d (ts.getD d.sTensor.toNat {}) (ts.getD d.wTensor.toNat {}) pl.1 pl.2 (keptFormatBad plan e.2 core d) tensorInErg
    | .split d => splitCheck plan e.2 d 256
    | .waitSem core _ => if semPlaceBad plan e.2 core then some St.eTileGeom else none
    | .postSem core _ => if semPlaceBad plan e.2 core then some St.eTileGeom else none

/-- A sequencer step: its code, fields and indices (R347, R514). -/
def stepBad (launches plans steps maxItems : Nat) (v : Nat) (x : SeqStep) : Bool :=
  let a := x.a.toNat; let b := x.b.toNat
  bits v 56 8 ≠ 0 || bits v 96 32 ≠ 0 ||
  (match x.sop.toNat with
   | 1 => a ≥ plans || x.fl.toNat > 1
   | 2 => a ≥ launches || x.fl.toNat > 1
   | 3 => (if bitAt x.fl.toNat 1 then a ≥ plans else a ≥ launches)
   | 4 => a ≥ launches || bits x.fl.toNat 0 3 > 5 || (bitAt x.fl.toNat 3 && b ≥ launches)
   | 5 => a ≥ steps
   | 6 => a ≥ steps
   | 7 => a ≥ launches || b ≥ launches
   | 8 => false
   | 9 => b ≥ steps
   | 10 => b ≥ maxItems || (bits x.imm.toNat 0 16 ≠ 0 && !(0x201 ≤ bits x.imm.toNat 0 16 && statusCode (bits x.imm.toNat 0 16)))
   | 11 => false
   | _ => true)
where
  /-- The codes of R343 from 0x0201 upward. -/
  statusCode (c : Nat) : Bool := (0x201 ≤ c && c ≤ 0x210) || (0x301 ≤ c && c ≤ 0x30B) || (0x401 ≤ c && c ≤ 0x40D)

/-- The sections in the order of the section table, and within a section its records (R509). -/
def sectionCheck (b : List Byte) (ss : List Sect) (im : Image) (s : Sect) : Option Status :=
  let maxItems := im.entries.foldl (fun a e => max a e.items) 0
  match s.type with
  | 1 => if im.tensors.any tensorBad then some St.eImage else none
  | 2 => if ((recs b s 32).zip im.layers).any fun e => layerBad im.tensors.length e.1 e.2 then some St.eImage else none
  | 3 => kernelsCheck b s.off s.count
  | 4 => (recs b s 4).findSome? fun o => launchCheck im.kernels (launchRec b (s.off + o))
  | 5 => (List.range s.count).findSome? fun i =>
      match planSlots b s i with
      | none => some St.eImage
      | some rs =>
        let n := (rs.takeWhile (·.isSome)).length
        (planCheck im.tensors (rs.filterMap id) n).or (if n < rs.length then some St.eImage else none)
  | 6 => if ((recs b s 16).zip im.steps).any (fun e => stepBad (sectCount ss 4) (sectCount ss 5) s.count maxItems e.1 e.2) then some St.eImage
      else match im.steps.getLast? with
        | some x => if x.sop = 6 || x.sop = 11 then none else some St.eImage
        | none => some St.eImage
  | 7 => if s.count = 0 || (recs b s 16).any (fun v => bits v 0 32 ≥ sectCount ss 6 || bits v 32 16 = 0 || bits v 32 16 > 1024 || bits v 49 79 ≠ 0)
      then some St.eImage else none
  | _ => none

/-- The tensors of a model: where their arrays must lie (R344). -/
def weightsCheck (im : Image) (sharedW : Bool) (fill : Nat) : Option Status :=
  im.tensors.findSome? fun t =>
    let ty := (Ty.ofCode t.type.toNat).getD .int8
    let k := t.slices.toNat + 1
    let e := t.addr.toNat + k * elemBytes ty t.shape.toNat t.rows.toNat t.cols.toNat
    let sc := if isShortCode t.type.toNat then t.scaleAddr.toNat + k * scaleBytes ty t.shape.toNat t.rows.toNat t.cols.toNat else 0
    if sharedW || t.shared then (if max e sc > fill then some St.eImage else none)
    else match im.weights with
      | some w => if max e sc > w.2 then some St.eImage else none
      | none => some St.eImage

/-- An image checked whole, of the kind expected: 1 for MODEL_LOAD, 2 for PROG_LOAD (R348). -/
def Image.load (kind bytes : Nat) (b : List Byte) (sharedW : Bool) (fill : Nat) : Except Status Image :=
  match headerCheck kind bytes b with
  | some c => .error c
  | none =>
    let im := Image.read b
    let ss := sections b (fld b 8 2)
    match ss.findSome? (sectionCheck b ss im) with
    | some c => .error c
    | none =>
      match (if kind = 1 then weightsCheck im sharedW fill else none) with
      | some c => .error c
      | none => .ok im

end Sys2Proof.Machine
end

