-- ==== Sys2Proof/Machine/Reduce.lean ====
section
/-! DEFINITION. Reductions on the scalar cores (R96 to R101), and accumulator tiles in memory form (R85, R91 to R93). -/

namespace Sys2Proof.Machine

/-- One rounding of an exact value to binary32, back as a value (R98). It counts nothing: in MEAN and VAR the infinities of
opposite sign that count meet in a promotion, by R88 (R101).
DEDUCED, log entry 44. -/
def rne32 (x : XVal) : XVal := b32.decode (b32.round x).1

/-- State of MEAN and VAR (R98). -/
structure MV where
  n : Nat := 0
  mean : Entry := {}
  m2 : Entry := {}
deriving DecidableEq, Repr

def Entry.sumVal (e : Entry) : XVal := b32.decode e.sum.toNat

/-- Folds one element (R98). -/
def MV.fold (a : MV) (x : XVal) : MV × Ev :=
  let n := a.n + 1
  let d := rne32 (x.sub a.mean.sumVal)
  let mean := a.mean.promote (rne32 (d.div (XVal.ofNat n)))
  let d2 := rne32 (x.sub mean.1.sumVal)
  let m2 := a.m2.promote (d.mul d2)
  (⟨n, mean.1, m2.1⟩, mean.2.add m2.2)

/-- Merges the state of a later segment into the running state (R98). -/
def MV.merge (a b : MV) : MV × Ev :=
  if b.n = 0 then (a, {}) else if a.n = 0 then (b, {})
  else
    let n := a.n + b.n
    let d := rne32 (b.mean.sumVal.sub a.mean.sumVal)
    let mean := a.mean.promote (rne32 ((d.mul (XVal.ofNat b.n)).div (XVal.ofNat n)))
    let m := a.m2.merge b.m2
    let m2 := m.1.promote (rne32 ((d.mul d).mul (XVal.ofNat (a.n * b.n)) |>.div (XVal.ofNat n)))
    (⟨n, mean.1, m2.1⟩, (mean.2.add m.2).add m2.2)

/-- The participating elements cut into segments of 64 consecutive indices: (index, value) (R96). -/
def segments (elems : List (Option XVal)) : List (List (Nat × XVal)) :=
  let ix := elems.mapIdx fun i v => (i, v)
  let cut := fun g => (ix.drop (64 * g)).take 64
  (List.range (ceilDiv elems.length 64)).map fun g => (cut g).filterMap fun e => e.2.map fun v => (e.1, v)

/-- Folds a segment into a sum or a sum of squares (R97). -/
def foldSum (sq : Bool) : Entry → List (Nat × XVal) → Entry × Ev
  | e, [] => (e, {})
  | e, (_, x) :: r =>
    let p := e.promote (if sq then x.mul x else x)
    let q := foldSum sq p.1 r
    (q.1, p.2.add q.2)

def foldMV : MV → List (Nat × XVal) → MV × Ev
  | a, [] => (a, {})
  | a, (_, x) :: r => let p := a.fold x; let q := foldMV p.1 r; (q.1, p.2.add q.2)

/-- Segment states merged in ascending order into the first of them, or into the stored state (R96). -/
def sumSegments (sq : Bool) : Option Entry → List (List (Nat × XVal)) → Option Entry × Ev
  | a, [] => (a, {})
  | a, g :: r =>
    let e := foldSum sq {} g
    let m := match a with | none => (e.1, Ev.none) | some a => a.merge e.1
    let q := sumSegments sq (some m.1) r
    (q.1, (e.2.add m.2).add q.2)

def mvSegments : Option MV → List (List (Nat × XVal)) → Option MV × Ev
  | a, [] => (a, {})
  | a, g :: r =>
    let e := foldMV {} g
    let m := match a with | none => (e.1, Ev.none) | some a => a.merge e.1
    let q := mvSegments (some m.1) r
    (q.1, (e.2.add m.2).add q.2)

/-- What a reduction leaves: the 32-bit result, the entries of its state, the counters, and the values that enter AMAX. -/
structure RedOut where
  res : W32 := 0
  state : List Entry := []
  ev : Ev := {}
  empty : Bool := false
  vals : List XVal := []
deriving DecidableEq, Repr

/-- The state as three entries. A count that CONT has taken past 2^32 - 1 wraps as it is stored; the spec is silent (DESIGN CHOICE, log entry 68). -/
def MV.entries (a : MV) : List Entry := [⟨BitVec.ofNat 32 a.n, 0⟩, a.mean, a.m2]
def MV.ofEntries (es : List Entry) : MV := ⟨(es.getD 0 {}).sum.toNat, es.getD 1 {}, es.getD 2 {}⟩

def nanW : W32 := BitVec.ofNat 32 b32.qnan

/-- The result of a reduction in which no element takes part (R100). -/
def emptyRed (rop : Nat) : W32 :=
  match rop with
  | 0 => 0 | 1 => 0 | 2 => nanW | 3 => nanW | 4 => 0xFF800000 | 5 => 0x7F800000 | 6 => 0xFFFFFFFF | 7 => 0xFFFFFFFF | _ => 0

/-- The result of VAR (R98, R101): a sample variance of one element that is itself a NaN carries it, and counts nothing. -/
def MV.var (a : MV) (sample : Bool) : W32 × Ev :=
  let div := if sample then a.n - 1 else a.n
  if div = 0 then (nanW, if a.mean.sumVal.isNan then {} else evNan)
  else
    let q := rne32 (a.m2.value.div (XVal.ofNat div))
    if q.isNan then (nanW, {})
    else if q.sign then (0, {})
    else (BitVec.ofNat 32 (b32.round q).1, {})

/-- A value for MAX and MIN: converted where it lies beyond binary32 (R99). -/
def redClip (v : XVal) : XVal × Ev := let r := b32.round v; if r.2.ovf > 0 then (b32.decode r.1, r.2) else (v, {})

/-- The best value so far under maximumNumber or minimumNumber, and the clipped values with their indices. -/
def pickBest (mx : Bool) (vs : List (Nat × XVal)) : XVal := vs.foldl (fun a e => if mx then a.maxNum e.2 else a.minNum e.2) .nan

/-- Equal, with +0 and -0 different (R99). -/
def sameNum (a b : XVal) : Bool := a.eq b && (a.sign == b.sign)

/-- A reduction (R96 to R101); `prior` is the stored state with CONT. Where no element takes part, TO_ACC leaves the identity entries at ACC_ENTRY, and with CONT the stored state unchanged; the spec is silent (DESIGN CHOICE, log entry 69). -/
def reduce (rop : Nat) (sample : Bool) (prior : Option (List Entry)) (elems : List (Option XVal)) : RedOut :=
  let live := elems.mapIdx (fun i v => (i, v)) |>.filterMap fun e => e.2.map fun v => (e.1, v)
  if live = [] then
    { res := emptyRed rop, empty := true
      state := prior.getD (if rop < 2 then [{}] else if rop < 4 then [{}, {}, {}] else []) }
  else if rop < 2 then
    let r := sumSegments (rop = 1) (prior.map fun es => es.getD 0 {}) (segments elems)
    let e := r.1.getD {}
    { res := e.sum, state := [e], ev := r.2 }
  else if rop < 4 then
    let r := mvSegments (prior.map MV.ofEntries) (segments elems)
    let a := r.1.getD {}
    if rop = 2 then { res := a.mean.sum, state := a.entries, ev := r.2 }
    else let v := a.var sample; { res := v.1, state := a.entries, ev := r.2.add v.2 }
  else if rop = 8 then { res := BitVec.ofNat 32 live.length }
  else
    let cl := live.map fun e => (e.1, redClip e.2)
    let vs := cl.map fun e => (e.1, e.2.1)
    let ev := cl.foldl (fun a e => a.add e.2.2) {}
    let vals := (live.filter fun e => (redClip e.2).2.ovf > 0).map (·.2)
    let best := pickBest (rop = 4 || rop = 6) vs
    if rop < 6 then { res := if best.isNan then nanW else BitVec.ofNat 32 (b32.round best).1, ev := ev, vals := vals }
    else
      match vs.find? fun e => !best.isNan && sameNum e.2 best with
      | some e => { res := BitVec.ofNat 32 e.1, ev := ev, vals := vals }
      | none => { res := 0xFFFFFFFF, ev := ev, vals := vals }

/-! ## Tiles in memory form -/

def Entry.acc48 (e : Entry) : List Byte := leBytes 4 e.sum.toNat ++ leBytes 2 e.comp.toNat
def Entry.ofAcc48 (bs : List Byte) : Entry := ⟨BitVec.ofNat 32 (leNat (bs.take 4)), BitVec.ofNat 16 (leNat ((bs.drop 4).take 2))⟩

/-- Bytes of a tile in each form: 0 ACC48, 1 B32, 2 B16, 3 BIAS, 4 ZERO (R91, R507). -/
def formBytes (form : Nat) : Nat := match form with | 0 => 24576 | 1 => 16384 | 2 => 8192 | 3 => 256 | _ => 0

/-- The 4,096 entries of a tile loaded in a form, in memory order (R91, R92). -/
def formLoad (form : Nat) (bs : List Byte) : List Entry :=
  match form with
  | 0 => (chunks 6 4096 bs).map fun b => let e := Entry.ofAcc48 b; Entry.loaded e.sum.toNat e.comp.toNat
  | 1 => (chunks 4 4096 bs).map fun b => Entry.loaded (leNat b) 0
  | 2 => (chunks 2 4096 bs).map fun b => Entry.loaded (b32.round (b16.decode (leNat b))).1 0
  | 3 => let row := (chunks 4 64 bs).map fun b => Entry.loaded (leNat b) 0
    (List.replicate 64 row).flatten
  | _ => List.replicate 4096 {}

/-- An entry stored in a form: its bytes, what it counts, and its value for AMAX (R91 to R93). -/
def formStore (form : Nat) (e : Entry) : List Byte × Ev × XVal :=
  match form with
  | 0 => (e.acc48, {}, .nan)
  | 1 => (leBytes 4 e.sum.toNat, {}, .nan)
  | _ => let v := e.sumVal; let r := toLong b16 none v; (leBytes 2 r.1, r.2, v)

end Sys2Proof.Machine
end

