-- ==== Sys2Proof/Machine/Contact.lean ====
section
/-! DEFINITION. The contact path's arithmetic (R147 to R157, R163 to R165), on binary32 patterns, and the folds of TOPK and LSE (R149, R268, R269). Each function also sums what its operations count. -/

namespace Sys2Proof.Machine

/-- A computation that adds to the contact sheet's counters. -/
abbrev Ct (α : Type) := StateM Ev α

namespace Ct
def lift {α : Type} (r : α × Ev) : Ct α := fun e => (r.1, e.add r.2)
def run' {α : Type} (c : Ct α) : α × Ev := c {}
def fadd (a b : Nat) : Ct Nat := lift (b32.fadd a b)
def fsub (a b : Nat) : Ct Nat := lift (b32.fsub a b)
def fmul (a b : Nat) : Ct Nat := lift (b32.fmul a b)
def fdiv (a b : Nat) : Ct Nat := lift (b32.fdiv a b)
def fsqrt (a : Nat) : Ct Nat := lift (b32.fsqrt a)
def exp2 (a : Nat) : Ct Nat := lift (b32.exp2 a)
def log2 (a : Nat) : Ct Nat := lift (b32.log2 a)
def promote (e : Entry) (x : Nat) : Ct Entry := lift (e.promote (b32.decode x))
/-- promote-fold of patterns from {+0, 0}. -/
def foldAll (xs : List Nat) : Ct Entry := xs.foldlM promote {}
end Ct

def fOne : Nat := 0x3F800000
def log2eW : Nat := 0x3FB8AA3B
def ln2W : Nat := 0x3F317218
def negInf : Nat := 0xFF800000
def posInf : Nat := 0x7F800000

def isFin (a : Nat) : Bool := let x := b32.decode a; !x.isNan && !x.isInf
def isNanW (a : Nat) : Bool := (b32.decode a).isNan
/-- a > 0. -/
def isPos (a : Nat) : Bool := XVal.zero.lt (b32.decode a)

/-! ## The fold (R149, R150) -/

/-- A token's state: K as binary32, Z as an entry. -/
structure FoldSt where
  k : Nat := negInf
  z : Entry := {}
deriving DecidableEq, Repr

/-- An integer-valued difference of two binary32 values; none where either is not finite (R150). -/
def intDiff (a b : Nat) : Option Int := if isFin a && isFin b then some ((b32.decode a).sub (b32.decode b)).floorInt else none

/-- ceil of a binary32 value, as binary32. -/
def ceilW (a : Nat) : Nat := if isFin a then (b32.round (XVal.ofInt (b32.decode a).ceilInt)).1 else a

/-- Folds one vocabulary tile into a token's state (R149). -/
def foldTile (st : FoldSt) (ys : List Nat) : Ct FoldSt := do
  let m := ys.foldl b32.fmax b32.qnan
  let kj := ceilW m
  let sj ← ys.foldlM (fun (e : Entry) y => do let d ← Ct.fsub y kj; let x ← Ct.exp2 d; Ct.promote e x) {}
  let kn := b32.fmax st.k kj
  let z ← Ct.lift ((st.z.rescale (intDiff st.k kn)).merge (sj.rescale (intDiff kj kn)))
  pure ⟨kn, z⟩

/-- L = FADD(K, LOG2(Z.sum)). -/
def FoldSt.lse (st : FoldSt) : Ct Nat := do let l ← Ct.log2 st.z.sum.toNat; Ct.fadd st.k l

/-- The log-sum-exp of a token's scaled logits, tile by tile. -/
def lseAll (ys : List Nat) : Ct Nat := do
  let st ← (chunks 64 ys.length ys).foldlM foldTile {}
  st.lse

/-! ## Top-K (R151, R268) -/

/-- (value, index) a ranks before b: larger value, or equal and lower index. -/
def ranksBefore (a b : Nat × Nat) : Bool :=
  let x := b32.decode a.1; let y := b32.decode b.1
  y.lt x || (x.eq y && decide (a.2 < b.2))

def rankInsert (a : Nat × Nat) : List (Nat × Nat) → List (Nat × Nat)
  | [] => [a]
  | b :: r => if ranksBefore a b then a :: b :: r else b :: rankInsert a r

/-- Keeps the K largest; NaN is skipped. -/
def topkAdd (k : Nat) (kept : List (Nat × Nat)) (a : Nat × Nat) : List (Nat × Nat) :=
  if isNanW a.1 then kept else (rankInsert a kept).take k

def idxInsert (a : Nat × Nat) : List (Nat × Nat) → List (Nat × Nat)
  | [] => [a]
  | b :: r => if a.2 < b.2 then a :: b :: r else b :: idxInsert a r

/-- Pairs in ascending index. -/
def byIndex (l : List (Nat × Nat)) : List (Nat × Nat) := l.foldr idxInsert []

/-! ## Targets, loss and gradient (R152 to R157) -/

/-- A token's targets: ascending indices with binary32 probabilities, and the tail mass. -/
structure Targets where
  idx : List Nat := []
  prob : List Nat := []
  tail : Nat := 0
deriving DecidableEq, Repr

/-- Targets from the teacher's scaled logits: FULL keeps binary32, TOPK rounds to binary16 (R151 to R153). -/
def makeTargets (k : Nat) (half : Bool) (yT : List Nat) (lT : Nat) : Ct Targets := do
  let kept := byIndex ((yT.mapIdx fun i y => (y, i)).foldl (topkAdd k) [])
  let pis ← kept.mapM fun e => do let d ← Ct.fsub e.1 lT; Ct.exp2 d
  let p ← Ct.foldAll pis
  let t ← Ct.fsub fOne p.sum.toNat
  let pis ← if half then pis.mapM fun x => do
      let h ← Ct.lift (noted (b32.decode x) (toLong b16 none (b32.decode x)))
      pure (b32.round (b16.decode h)).1
    else pure pis
  pure ⟨kept.map (·.2), pis, b32.fmax 0 t⟩

/-- What the student side forms at the targets: q_i, and RHO (R152). -/
def finalise (tg : Targets) (yS : List Nat) (lS : Nat) : Ct Nat := do
  let qs ← tg.idx.mapM fun i => do let d ← Ct.fsub (yS.getD i 0) lS; Ct.exp2 d
  let q ← Ct.foldAll qs
  let r ← Ct.fsub fOne q.sum.toNat
  let rS := b32.fmax 0 r
  if isPos rS then Ct.fdiv tg.tail rS else pure 0

/-- The logit gradients of a token (R155). -/
def gradRow (tg : Targets) (yS : List Nat) (lS rho g : Nat) : Ct (List Nat) :=
  (yS.mapIdx fun v y => (v, y)).mapM fun e => do
    let d ← Ct.fsub e.2 lS
    let q ← Ct.exp2 d
    let ph ← match (tg.idx.zip tg.prob).find? (·.1 = e.1) with
      | some t => pure t.2
      | none => Ct.fmul rho q
    let x ← Ct.fsub q ph
    Ct.fmul x g

/-- The loss of a token in nats, and whether its tail is clipped (R156). -/
def tokenLoss (tg : Targets) (yS : List Nat) (lS rho klw : Nat) : Ct (Nat × Bool) := do
  let acc ← (tg.idx.zip tg.prob).foldlM (fun (a : Entry) t => do
    let x ← if (b32.decode t.2).isZero then pure 0 else do
      let l ← Ct.log2 t.2
      let d ← Ct.fsub (yS.getD t.1 0) lS
      let u ← Ct.fsub l d
      Ct.fmul t.2 u
    Ct.promote a x) {}
  let tau ← if isPos tg.tail && isPos rho then do let l ← Ct.log2 rho; Ct.fmul tg.tail l else pure 0
  let acc ← Ct.promote acc tau
  let w ← Ct.fmul klw ln2W
  let loss ← Ct.fmul acc.sum.toNat w
  pure (loss, isPos tg.tail && (b32.decode rho).isZero)

/-- A mean over the values that take part (R157). -/
def meanOf (xs : List Nat) : Ct Nat :=
  if xs = [] then pure b32.qnan
  else do let e ← Ct.foldAll xs; Ct.fdiv e.sum.toNat (b32.round (XVal.ofNat xs.length)).1

/-- What the contact path forms for a token: records, loss and gradient row (R148, R158). -/
structure TokenOut where
  masked : Bool := false
  valid : Bool := false
  lT : Nat := 0x7FC00000
  lS : Nat := 0x7FC00000
  loss : Nat := 0x7FC00000
  tail : Nat := 0x7FC00000
  rho : Nat := 0x7FC00000
  clipped : Bool := false
  targets : Targets := {}
  grad : List Nat := []
deriving DecidableEq, Repr

/-- c and G (R147). -/
structure Scaling where
  c : Nat := 0
  g : Nat := 0
  klw : Nat := 0
deriving DecidableEq, Repr

def scaling (temp klw : Nat) : Ct Scaling := do
  let c ← Ct.fdiv log2eW temp
  let g ← Ct.fdiv klw temp
  pure ⟨c, g, klw⟩

def scaled (c : Nat) (as : List Nat) : Ct (List Nat) := as.mapM fun a => Ct.fmul a c

/-- A token of FULL or TOPK from the student's logits and either the teacher's logits or stored targets (R147 to R158). A masked token's record holds the quiet NaN in every field, as an invalid one's does (DESIGN CHOICE, log entry 83). -/
def contactToken (sc : Scaling) (k : Nat) (half : Bool) (masked : Bool) (teacher : Option (List Nat)) (stored : Option Targets)
    (student : List Nat) : Ct TokenOut := do
  let zero := List.replicate student.length 0
  let yS ← scaled sc.c student
  let yT ← match teacher with | some a => scaled sc.c a | none => pure []
  let bad := yS.any (!isFin ·) || yT.any (!isFin ·) || (match stored with
    | some t => t.prob.any fun p => !isFin p || (b32.decode p).sign && !(b32.decode p).isZero
    | none => false)
  if masked then pure { masked := true, grad := zero }
  else if bad then pure { grad := zero }
  else do
    let lT ← match teacher with | some _ => lseAll yT | none => pure b32.qnan
    let lS ← lseAll yS
    let tg ← match stored with | some t => pure t | none => makeTargets k half yT lT
    let rho ← finalise tg yS lS
    let grad ← gradRow tg yS lS rho sc.g
    let loss ← tokenLoss tg yS lS rho sc.klw
    pure { valid := true, lT := lT, lS := lS, loss := loss.1, tail := tg.tail, rho := rho, clipped := loss.2, targets := tg, grad := grad }

/-! ## Taps (R163) -/

/-- A tap term and its gradient for one token: KIND, weight, h', h_T. The products of D are folded exactly, as R97 folds those of SUMSQ (DESIGN CHOICE, log entry 80). -/
def tapTerm (cos : Bool) (beta : Nat) (h t : List Nat) : Ct (Nat × List Nat) := do
  let d := (b32.round (XVal.ofNat h.length)).1
  let sumOf := fun (f : Nat → Nat → XVal) => (h.zip t).map fun e => some (f e.1 e.2)
  if !cos then do
    let es ← (h.zip t).mapM fun e => Ct.fsub e.1 e.2
    let r := reduce 1 false none (es.map fun x => some (b32.decode x))
    let _ ← Ct.lift ((), r.ev)
    let x ← Ct.fdiv r.res.toNat d
    let term ← Ct.fmul beta x
    let b2 ← Ct.fmul 0x40000000 beta
    let q ← Ct.fdiv b2 d
    let g ← (h.zip t).mapM fun e => do let u ← Ct.fsub e.1 e.2; Ct.fmul q u
    pure (term, g)
  else do
    let rd := reduce 0 false none (sumOf fun a b => (b32.decode a).mul (b32.decode b))
    let ra := reduce 1 false none (sumOf fun a _ => b32.decode a)
    let rb := reduce 1 false none (sumOf fun _ b => b32.decode b)
    let _ ← Ct.lift ((), (rd.ev.add ra.ev).add rb.ev)
    let dd := rd.res.toNat; let a := ra.res.toNat; let b := rb.res.toNat
    if (b32.decode a).isZero || (b32.decode b).isZero then pure (0, h.map fun _ => 0)
    else do
      let ab ← Ct.fmul a b
      let sq ← Ct.fsqrt ab
      let r ← Ct.fdiv dd sq
      let u ← Ct.fsub fOne r
      let term ← Ct.fmul beta u
      let g ← (h.zip t).mapM fun e => do
        let x ← Ct.fmul dd e.1
        let x ← Ct.fdiv x a
        let x ← Ct.fsub x e.2
        let x ← Ct.fmul beta x
        Ct.fdiv x sq
      pure (term, g)

/-! ## Ranking losses (R164, R165) -/

def sigF (x : Nat) : Ct Nat := do
  let e ← Ct.exp2 (b32.fneg x)
  let d ← Ct.fadd fOne e
  Ct.fdiv fOne d

def spF (x : Nat) : Ct Nat := do
  let e ← Ct.exp2 (b32.fneg (b32.fabs x))
  let d ← Ct.fadd fOne e
  let l ← Ct.log2 d
  Ct.fadd (b32.fmax x 0) l

def bceF (p x : Nat) : Ct Nat := do
  let a ← spF (b32.fneg x)
  let a ← Ct.fmul p a
  let b ← spF x
  let q ← Ct.fsub fOne p
  let b ← Ct.fmul q b
  Ct.fadd a b

/-- alpha * LN2 * bits, left to right. -/
def nats (klw b : Nat) : Ct Nat := do let w ← Ct.fmul klw ln2W; Ct.fmul w b

/-- The terms of a list and its score gradients: raw teacher and student scores (R165). R148 speaks of a token's logits only: an item whose scaled score is not finite stays in its list, and none counts as invalid (DESIGN CHOICE, log entry 91). -/
def rankList (sc : Scaling) (loss : Nat) (bce : Bool) (st ss : List Nat) : Ct (List Nat × List Nat) := do
  let yT ← scaled sc.c st
  let yS ← scaled sc.c ss
  if loss = 0 && !bce then do
    let a2 ← Ct.fmul 0x40000000 sc.klw
    let r ← (ss.zip st).mapM fun e => do
      let d ← Ct.fsub e.1 e.2
      let q ← Ct.fmul d d
      let t ← Ct.fmul sc.klw q
      let g ← Ct.fmul a2 d
      pure (t, g)
    pure (r.map (·.1), r.map (·.2))
  else if loss = 0 then do
    let r ← (yS.zip yT).mapM fun e => do
      let p ← sigF e.2
      let b ← bceF p e.1
      let t ← nats sc.klw b
      let q ← sigF e.1
      let d ← Ct.fsub q p
      let g ← Ct.fmul d sc.g
      pure (t, g)
    pure (r.map (·.1), r.map (·.2))
  else if loss = 1 then do
    let n := ss.length
    let pairs := (List.range n).flatMap fun i => ((List.range n).filter (i < ·)).map fun j => (i, j)
    let r ← pairs.mapM fun e => do
      let dT ← Ct.fsub (yT.getD e.1 0) (yT.getD e.2 0)
      let dS ← Ct.fsub (yS.getD e.1 0) (yS.getD e.2 0)
      let p ← sigF dT
      let b ← bceF p dS
      let t ← nats sc.klw b
      let q ← sigF dS
      let d ← Ct.fsub q p
      let g ← Ct.fmul d sc.g
      pure (t, e, g)
    let gs ← (List.range n).mapM fun i => do
      let e ← Ct.foldAll (r.filterMap fun x => if x.2.1.1 = i then some x.2.2 else if x.2.1.2 = i then some (b32.fneg x.2.2) else none)
      pure e.sum.toNat
    pure (r.map (·.1), gs)
  else do
    let lT ← lseAll yT
    let lS ← lseAll yS
    let tg ← makeTargets ss.length false yT lT
    let tg := { tg with tail := 0 }
    let g ← gradRow tg yS lS 0 sc.g
    let l ← tokenLoss tg yS lS 0 sc.klw
    pure ([l.1], g)

/-- The mean of a list's terms; none for a list without terms (R165). -/
def rankMean (terms : List Nat) : Ct (Option Nat) := if terms = [] then pure none else do let m ← meanOf terms; pure (some m)

end Sys2Proof.Machine
end

