-- ==== Sys2Proof/Machine/Thread.lean ====
section
/-! DEFINITION. What a scalar-core thread needs to issue: registers, predicates, masks, stalls, and the fault that stops a launch (R111, R112, R122, R123, R130, R131, R141). -/

namespace Sys2Proof.Machine

/-- MC of a thread (R111). -/
def mcOf (t : ThreadId) : Nat := t.val / 256
/-- Scalar core of a thread within its matrix core. -/
def scOf (t : ThreadId) : Nat := t.val / 8 % 32

namespace Thread
/-- G0 reads as zero. -/
def get (x : Thread) (r : BitVec 5) : W32 := if r = 0 then 0 else x.g.get 0 r.toNat
/-- A write to G0 is discarded. -/
def set (x : Thread) (r : BitVec 5) (v : W32) : Thread := if r = 0 then x else { x with g := x.g.put 0 r.toNat v }
/-- K0 reads as 1. -/
def pred (x : Thread) (k : Nat) : Bool := k = 0 || bitAt x.k.toNat k
/-- A write to K0 is discarded. -/
def setPred (x : Thread) (k : Nat) (v : Bool) : Thread :=
  if k = 0 then x else { x with k := BitVec.ofNat 8 (putBits x.k.toNat k 1 (b2n v)) }
def next (x : Thread) : Thread := { x with pc := x.pc + 1 }
end Thread

/-- The command a launch belongs to. -/
def Launch.hdr (l : Launch) : Hdr := { ptn := l.ptn, queue := l.queue, seq := l.seq }

/-- The effective word: its parameter patched in (R116). -/
def Launch.word (l : Launch) (w : IWord) : IWord := patched l.params w

/-- A strip holds the threads of its core (R420). -/
def Strip.active (x : Strip) : Bool := match x.st with | .idle => false | .due => false | _ => true

/-- A thread's turn to issue: it runs, waits for nothing, its core runs no strip, no stop request holds its job's issue, and no register it names is the destination of an outstanding load (R130, R131, R142). -/
def State.turn (s : State) (t : ThreadId) (regs : List (BitVec 5)) : Bool :=
  let x := s.th t.val
  x.running && decide (x.wait = .none) && !(s.mc (mcOf t)).strip.active &&
  (match s.launch? x.launch with | some l => l.failed.isNone && decide ((s.job l.ptn l.queue).st ≠ .stopping) | none => false) &&
  !x.loads.any fun l => decide (l.d ∈ regs)

/-- A read of words lo to lo + n - 1 of a local memory meets an uncorrectable error (R433). -/
def MCore.bad (m : MCore) (kind lo n : Nat) : Bool := m.localUe.any fun e => e.1 = kind && decide (lo ≤ e.2) && decide (e.2 < lo + n)

/-- Words written whole lose their error. -/
def MCore.mend (m : MCore) (kind lo n : Nat) : MCore :=
  if m.localUe = [] then m else { m with localUe := m.localUe.filter fun e => !(e.1 = kind && decide (lo ≤ e.2) && decide (e.2 < lo + n)) }

/-- A register that the thread names stands in a word with an uncorrectable error. -/
def State.regsBad (s : State) (t : ThreadId) (regs : List (BitVec 5)) : Bool :=
  regs.any fun r => (s.mc (mcOf t)).bad 2 (t.val % 256 * 32 + r.toNat / 2) 1

/-- A thread may issue. -/
def State.canIssue (s : State) (t : ThreadId) (regs : List (BitVec 5)) : Bool := s.turn t regs && !s.regsBad t regs

/-- Records an uncorrectable read of a core's local memory: LOCAL_UE (R433, R512). -/
def State.noteLocal (s : State) (p : PtnId) (mc kind : Nat) : State :=
  let c := s.now
  c.1.recordFault { cls := 3, severity := 1, unitKind := 1, die := BitVec.ofNat 8 (dieOfMc mc), unit := BitVec.ofNat 16 mc, cause := 0x0303,
                    ptnMask := ptnBit p, detail := BitVec.ofNat 32 kind, stamp := c.2 }

/-- Stops a launch with a fault code: every thread of it that a core holds stops, and every open item of the command fails (R141, DEDUCED, log entry 12). A later fault of the launch is counted. -/
def State.failLaunch (s : State) (id : Nat) (code : Status) : State :=
  match s.launch? id with
  | none => s
  | some l =>
    if l.failed.isSome then { s with saf := { s.saf with laterFaults := s.saf.laterFaults + 1 } }
    else
      let s := s.updLaunch id fun l => { l with failed := some code }
      let s := l.threads.foldl (fun s t => s.updTh t fun x => if x.launch = id then { x with running := false, wait := .none } else x) s
      (s.failOpen l.hdr code).settle l.hdr

def State.threadFault (s : State) (t : ThreadId) (code : Status) : State := s.failLaunch (s.th t.val).launch code

/-- A thread's read of a local memory meets an uncorrectable error: its launch fails with E_MEM_UNCORR (R433). -/
def State.localStop (s : State) (t : ThreadId) (l : Launch) (kind : Nat) : State := (s.noteLocal l.ptn (mcOf t) kind).threadFault t St.eMemUncorr

/-- What becomes of an instruction that may not issue: it stands still, or a register it names cannot be read. -/
def State.noIssue (s : State) (t : ThreadId) (l : Launch) (regs : List (BitVec 5)) (bad : Bool) : State :=
  if s.turn t regs && !bad then s.localStop t l 2 else s

/-- Adds to the contact sheet of the command a thread works for. -/
def State.threadEv (s : State) (t : ThreadId) (e : Ev) : State :=
  match s.launch? (s.th t.val).launch with
  | some l => s.addSheet l.hdr (·.addEv e)
  | none => s

/-- The issue of an ordinary instruction: `f` gives the result for D and what it counts; an inactive lane keeps D or clears it (R122). -/
def State.alu (s : State) (t : ThreadId) (w : IWord) (op : Nat) (regs : IWord → List (BitVec 5))
    (f : Launch → IWord → Thread → W32 × Ev) : State :=
  match s.launch? (s.th t.val).launch with
  | none => s
  | some l =>
    let w := l.word w
    if !s.canIssue t (w.d :: regs w) || (wordCheck op w l.code.length).isSome then s.noIssue t l (w.d :: regs w) (wordCheck op w l.code.length).isSome
    else
      let x := s.th t.val
      if x.pred w.pred.toNat then
        let r := f l w x
        (s.updTh t.val fun x => (x.set w.d r.1).next).threadEv t r.2
      else s.updTh t.val fun x => (if w.mz then x.set w.d 0 else x).next

end Sys2Proof.Machine

namespace Sys2Proof
/-- Operand B: register B, or the immediate with I = 1 (R113). -/
def IWord.opB (w : IWord) (x : Machine.Thread) : W32 := if w.i then w.imm else x.get w.b
end Sys2Proof

namespace Sys2Proof.Machine

def regsAB (w : IWord) : List (BitVec 5) := if w.i then [w.a] else [w.a, w.b]
def regsA (w : IWord) : List (BitVec 5) := [w.a]

/-- Integer results: no counters (R119). -/
def State.intOp (s : State) (t : ThreadId) (w : IWord) (op : Nat) (f : Nat → W32 → W32 → W32) : State :=
  s.alu t w op regsAB fun _ w x => (f w.ty (x.get w.a) (w.opB x), {})

/-- The long format of a floating TYPE: binary16 or binary32 (R114). -/
def fltOf (ty : Nat) : LFmt := if ty = 7 then b16 else b32

/-- A floating operation on the register patterns of TYPE. -/
def State.fltOp (s : State) (t : ThreadId) (w : IWord) (op : Nat) (f : LFmt → Nat → Nat → Nat × Ev) : State :=
  s.alu t w op regsAB fun _ w x =>
    let g := fltOf w.ty
    let m := fun v : W32 => v.toNat % 2 ^ (g.sbit + 1)
    let r := f g (m (x.get w.a)) (m (w.opB x))
    (BitVec.ofNat 32 r.1, r.2)

/-- A predicate result: K[D] (R118, R122). -/
def State.predOp (s : State) (t : ThreadId) (w : IWord) (op : Nat) (regs : IWord → List (BitVec 5)) (f : IWord → Thread → Bool) : State :=
  match s.launch? (s.th t.val).launch with
  | none => s
  | some l =>
    let w := l.word w
    if !s.canIssue t (regs w) || (wordCheck op w l.code.length).isSome then s.noIssue t l (regs w) (wordCheck op w l.code.length).isSome
    else
      let x := s.th t.val
      let k := w.d.toNat % 8
      s.updTh t.val fun x' => (if x.pred w.pred.toNat then x'.setPred k (f w x) else if w.mz then x'.setPred k false else x').next

/-- A comparison of operands A and B under TYPE (R118). -/
def State.cmpOp (s : State) (t : ThreadId) (w : IWord) (op : Nat) (r : Rel) : State :=
  s.predOp t w op regsAB fun w x =>
    match Ty.ofCode w.ty with
    | some ty => r.holds (regValue ty (x.get w.a).toNat) (regValue ty (w.opB x).toNat)
    | none => false

/-- The issue of an instruction of another kind: `f` is run on the effective word when the thread may issue it. -/
def State.issue (s : State) (t : ThreadId) (w : IWord) (op : Nat) (regs : IWord → List (BitVec 5)) (f : Launch → IWord → State) : State :=
  match s.launch? (s.th t.val).launch with
  | none => s
  | some l =>
    let w := l.word w
    if !s.canIssue t (regs w) || (wordCheck op w l.code.length).isSome then s.noIssue t l (regs w) (wordCheck op w l.code.length).isSome else f l w

def State.nextPc (s : State) (t : ThreadId) : State := s.updTh t.val Thread.next

/-! ## The operand cache and the accumulator file as a thread reaches them (R132, R134, R137) -/

def Launch.ocLo (l : Launch) : Nat := l.lr.ocBase * 1024
def Launch.ocHi (l : Launch) : Nat := (l.lr.ocBase + l.lr.ocKib) * 1024
def Launch.codeEnd (l : Launch) : Nat := l.ocLo + 8 * l.code.length

/-- The range lies in the launch's region, and a store not in its code (R134). -/
def Launch.ocOk (l : Launch) (a n : Nat) (write : Bool) : Bool :=
  n = 0 || (decide (l.ocLo ≤ a) && decide (a + n ≤ l.ocHi) && !(write && decide (a < l.codeEnd)))

def MCore.ocRead (m : MCore) (a n : Nat) : List Byte := m.oc.getList 0 a n
def MCore.ocWrite (m : MCore) (a : Nat) (bs : List Byte) : MCore :=
  ({ m with oc := m.oc.putList 0 a bs } : MCore).mend 1 (ceilDiv a 8) ((a + bs.length) / 8 - ceilDiv a 8)
/-- The tile of an entry address is held by a run (R79). -/
def MCore.tileHeld (m : MCore) (e : Nat) : Bool := bitAt m.tiles.toNat (e / 4096)
def MCore.entry (m : MCore) (e : Nat) : Entry := m.acc.get {} e
def MCore.setEntry (m : MCore) (e : Nat) (v : Entry) : MCore := ({ m with acc := m.acc.put {} e v } : MCore).mend 0 e 1

/-- Where a memory instruction reaches: an entry, operand-cache bytes, or partition bytes; the bit of a packed element (R132). -/
inductive Place where
  | acc (e : Nat)
  | oc (a n b : Nat)
  | ptn (a n b : Nat)
deriving DecidableEq, Repr

end Sys2Proof.Machine

namespace Sys2Proof
open Machine in
/-- The effective address of LD, ST and PROM (R132, R137). -/
def IWord.place (w : IWord) (x : Thread) : Place :=
  let off := (x.get w.a).toNat + w.immN
  let base := (x.b.getD w.base 0).toNat
  let ty := (Ty.ofCode w.ty).getD .int8
  if w.space = 2 then .acc off
  else if ty = .q4 || ty = .q6 then
    let bit := (if w.space = 0 then off % 2 ^ 32 else off) * ty.packBits
    let a := if w.space = 0 then bit / 8 else (base + bit / 8) % 2 ^ 48
    if w.space = 0 then .oc a (ty.span (bit % 8)) (bit % 8) else .ptn a (ty.span (bit % 8)) (bit % 8)
  else if w.space = 0 then .oc (off % 2 ^ 32) ty.bytes 0
  else .ptn ((base + off) % 2 ^ 48) ty.bytes 0
end Sys2Proof

namespace Sys2Proof.Machine

/-- A 16-bit or 32-bit access whose address is not a multiple of its size (R132). -/
def misaligned (ty : Ty) (a : Nat) : Bool := !ty.isShort && a % ty.bytes ≠ 0

/-- The check of a place before an access (R132, R134, R137): the code, and the kind of violation where there is one. -/
def State.placeCheck (s : State) (l : Launch) (ty : Ty) (pl : Place) (write : Bool) : Option (Status × Option (BitVec 4)) :=
  match pl with
  | .acc e => if e ≥ 32768 then some (St.eLocalRange, none) else none
  | .oc a n _ => if !l.ocOk a n write then some (St.eLocalRange, none) else if misaligned ty a then some (St.eAlign, none) else none
  | .ptn a n _ =>
    match (s.ptn l.ptn).check a n write with
    | some k => some (St.eAccess, some k)
    | none => if spanInLp a n then some (St.eOperandLoc, none) else if misaligned ty a then some (St.eAlign, none) else none

/-- The kind of local memory a place lies in, where reading it meets an uncorrectable error (R433). -/
def MCore.placeBad (m : MCore) (pl : Place) : Option Nat :=
  match pl with
  | .acc e => if m.bad 0 e 1 then some 0 else none
  | .oc a n _ => if m.bad 1 (a / 8) ((a + n - 1) / 8 + 1 - a / 8) then some 1 else none
  | .ptn _ _ _ => none

/-- The register form of the bytes at a place (R114, R132): a short load leaves [15:8] zero, an A20 load clears [31:20]. -/
def loadForm (ty : Ty) (bs : List Byte) (bit : Nat) : W32 :=
  let v := leNat bs
  BitVec.ofNat 32 (match ty with
    | .int8 => uInt 32 (sInt 8 v)
    | .int16 => uInt 32 (sInt 16 v)
    | .a20 => v % 2 ^ 20
    | .q4 => bits v bit 4
    | .q6 => bits v bit 6
    | _ => v)

/-- The bytes a store leaves at a place, from the bytes before and the register (R132). -/
def storeForm (ty : Ty) (old : List Byte) (bit : Nat) (v : W32) : List Byte :=
  match ty with
  | .q4 => leBytes old.length (putBits (leNat old) bit 4 v.toNat)
  | .q6 => leBytes old.length (putBits (leNat old) bit 6 v.toNat)
  | .a20 => leBytes 4 (v.toNat % 2 ^ 20)
  | t => leBytes t.bytes v.toNat

/-- A thread's fault at a place: a failed window check is also recorded as a violation (R141, R275). -/
def State.placeFault (s : State) (t : ThreadId) (l : Launch) (pl : Place) (write : Bool) (c : Status × Option (BitVec 4)) : State :=
  let s := match c.2, pl with
    | some k, .ptn a _ _ => s.violate l.ptn (Who.scalar (mcOf t)) a write k
    | _, _ => s
  s.threadFault t c.1

end Sys2Proof.Machine
end

