-- ==== Sys2Proof/Machine/Control.lean ====
section
/-! DEFINITION. Loads, stores and promotion, branches, barriers, semaphores, summaries the end of a thread (R118, R123, R131 to R133, R137 to R139, R303 to R305), and the records of plans (R346). -/

namespace Sys2Proof.Machine

/-! ## Memory -/

/-- An inactive lane performs no access (R123). -/
def State.masked (s : State) (t : ThreadId) (w : IWord) : State :=
  s.updTh t.val fun x => (if w.mz then x.set w.d 0 else x).next

/-- A load that is issued becomes outstanding (R131). -/
def Thread.pushLoad (x : Thread) (d : BitVec 5) (v : W32) : Thread := { x with loads := x.loads ++ [⟨d, v⟩] }

/-- A thread with eight loads outstanding stalls, and so does an access to a tile a run holds (R79, R131). -/
def execLd (t : ThreadId) (w : IWord) (s : State) : Res State :=
  .next (s.issue t w 0x38 (fun w => [w.d, w.a]) fun l w =>
    let x := s.th t.val
    if !x.pred w.pred.toNat then s.masked t w
    else if x.loads.length ≥ 8 then s
    else
      let ty := (Ty.ofCode w.ty).getD .int8
      let pl := w.place x
      match s.placeCheck l ty pl false, (s.mc (mcOf t)).placeBad pl with
      | some c, _ => s.placeFault t l pl false c
      | none, some k => s.localStop t l k
      | none, none =>
        match pl with
        | .acc e =>
          let m := s.mc (mcOf t)
          if m.tileHeld e then s else s.updTh t.val fun x => (x.pushLoad w.d (m.entry e).sum).next
        | .oc a n b => s.updTh t.val fun x => (x.pushLoad w.d (loadForm ty ((s.mc (mcOf t)).ocRead a n) b)).next
        | .ptn a n b =>
          match s.pRead l.ptn (Who.scalar (mcOf t)) a n with
          | (s, .ok bs) => s.updTh t.val fun x => (x.pushLoad w.d (loadForm ty bs b)).next
          | (s, .error c) => s.threadFault t c)

def execSt (t : ThreadId) (w : IWord) (s : State) : Res State :=
  .next (s.issue t w 0x39 (fun w => [w.d, w.a]) fun l w =>
    let x := s.th t.val
    if !x.pred w.pred.toNat then s.nextPc t
    else
      let ty := (Ty.ofCode w.ty).getD .int8
      let pl := w.place x
      let v := x.get w.d
      match s.placeCheck l ty pl true with
      | some c => s.placeFault t l pl true c
      | none =>
        match pl with
        | .acc e =>
          if (s.mc (mcOf t)).tileHeld e then s
          else (s.updMc (mcOf t) fun m => m.setEntry e (Entry.loaded v.toNat 0)).nextPc t
        | .oc a n b => (s.updMc (mcOf t) fun m => m.ocWrite a (storeForm ty (m.ocRead a n) b v)).nextPc t
        | .ptn a n b =>
          match (if ty = .q4 || ty = .q6 then s.pRead l.ptn (Who.scalar (mcOf t)) a n else (s, .ok [])) with
          | (s, .error c) => s.threadFault t c
          | (s, .ok old) =>
            match s.pWrite l.ptn (Who.scalar (mcOf t)) a (storeForm ty old b v) with
            | (s, .ok _) => s.nextPc t
            | (s, .error c) => s.threadFault t c)

def execProm (t : ThreadId) (w : IWord) (s : State) : Res State :=
  .next (s.issue t w 0x3A (fun w => [w.d, w.a]) fun l w =>
    let x := s.th t.val
    if !x.pred w.pred.toNat then s.nextPc t
    else
      let e := (x.get w.a).toNat + w.immN
      if e ≥ 32768 then s.threadFault t St.eLocalRange
      else if (s.mc (mcOf t)).tileHeld e then s
      else if (s.mc (mcOf t)).bad 0 e 1 then s.localStop t l 0
      else
        let r := ((s.mc (mcOf t)).entry e).promote (b32.decode (x.get w.d).toNat)
        ((s.updMc (mcOf t) fun m => m.setEntry e r.1).nextPc t).addSheet l.hdr (·.addEv r.2))

/-- The k-th outstanding load returns (R131). -/
def execLoadReturn (t : ThreadId) (k : Fin 8) (s : State) : Res State :=
  .next (match (s.th t.val).loads[k.val]? with
    | some l => s.updTh t.val fun x => { x.set l.d l.v with loads := x.loads.eraseIdx k.val }
    | none => s)

/-! ## Control -/

/-- Branches when the lane is active (R118). -/
def execBr (t : ThreadId) (w : IWord) (s : State) : Res State :=
  .next (s.issue t w 0x50 (fun _ => []) fun _ w =>
    s.updTh t.val fun x => if x.pred w.pred.toNat then { x with pc := bits w.immN 0 16 } else x.next)

def execBar (t : ThreadId) (w : IWord) (s : State) : Res State :=
  .next (s.issue t w 0x52 (fun _ => []) fun _ _ => s.updTh t.val fun x => { x.next with wait := .bar })

/-- Threads of a launch on one matrix core. -/
def Launch.threadsOn (l : Launch) (mc : Nat) : List Nat := l.threads.filter fun t => t / 256 = mc

/-- Releases a barrier when every thread of the launch on the core waits in BAR or has ended (R118). -/
def execBarRelease (launch : Nat) (mc : McId) (s : State) : Res State :=
  .next (match s.launch? launch with
    | none => s
    | some l =>
      let ts := l.threadsOn mc.val
      let waits := fun t => decide ((s.th t).launch = launch) && decide ((s.th t).wait = .bar)
      if ts.all fun t => decide (t ∈ l.ended) || waits t then
        ts.foldl (fun z t => if waits t then z.updTh t fun x => { x with wait := .none } else z) s
      else s)

/-! ## Records of plans (R103, R105, R346, R513, R515) -/

/-- The image of the program a command runs. -/
def Ptn.imageOf (x : Ptn) (c : CmdRec) : Option Image := c.prog.bind fun r => (x.progs.find? (·.handle = r.prog)).map (·.image)

/-- The tiles a run writes. -/
def runTiles (d : RunDesc) : BitVec 8 :=
  (List.range (ceilDiv d.m 64)).foldl (fun a i => a ||| BitVec.ofNat 8 (2 ^ (d.accBase.toNat + i))) 0

/-- The core a plan record belongs to. -/
def recCore : PlanRec → Option Nat
  | .run c _ => some c
  | .waitSem c _ => some c
  | .postSem c _ => some c
  | .split _ => none

/-- The cores a plan record concerns. -/
def recCores : PlanRec → List Nat
  | .split d => (d.partMc.take (SplitParts.count d)).map (·.toNat)
  | r => (recCore r).toList

/-- A record of one of these cores stands, not yet carried out, before place i of the k-th plan started. -/
def ProgRun.behind (r : ProgRun) (im : Image) (cores : List Nat) (k i : Nat) : Bool :=
  (List.range (k + 1)).any fun j =>
    let pr := r.plans.getD j {}
    let recs := im.plans.getD pr.plan []
    pr.left.any fun n => (decide (j < k) || decide (n < i)) && (match recs[n]? with | some x => (recCores x).any fun c => decide (c ∈ cores) | none => false)

/-- The first record of a core that is left in the plans started, of which SPLIT records are no one core's: plan among those started, place, record. -/
def ProgRun.nextOf (r : ProgRun) (im : Image) (core : Nat) : Option (Nat × Nat × PlanRec) :=
  (List.range r.plans.length).findSome? fun k =>
    let pr := r.plans.getD k {}
    let recs := im.plans.getD pr.plan []
    pr.left.findSome? fun i => (recs[i]?).bind fun x => if recCore x = some core then some (k, i, x) else none

/-- The two parts of a hand-off, the giver of tiles second: in chain mode at level 0 part p to part p + 1, in tree mode at a level from part p + 2^(level - 1) to part p (R103, R105). -/
def SplitRun.handoffs (x : SplitRun) : List ((Nat × Nat) × Nat × Nat) :=
  let n := SplitParts.count x.desc
  if x.desc.mode = 0 then (List.range (n - 1)).map fun p => ((p, 0), p + 1, p)
  else (List.range 3).flatMap fun l => (List.range n).filterMap fun p =>
    if p % 2 ^ (l + 1) = 0 && decide (p + 2 ^ l < n) then some ((p, l + 1), p, p + 2 ^ l) else none

/-- A hand-off of the split that this part gives or receives is not made. -/
def SplitRun.holds (x : SplitRun) (part : Nat) : Bool := x.handoffs.any fun h => !decide (h.1 ∈ x.done) && (h.2.1 = part || h.2.2 = part)

/-- Tiles that a split carries. -/
def SplitRun.tiles (x : SplitRun) : BitVec 8 :=
  (List.range (x.desc.tiles.toNat + 1)).foldl (fun a i => a ||| BitVec.ofNat 8 (2 ^ (x.desc.accBase.toNat + i))) 0

/-- Record i of the k-th plan started may not be carried out yet: a SPLIT of its core stands before it; it belongs to a part of a chain whose entries have not arrived; or it works on tiles that an earlier split still has to hand on (R103, R105, R346). -/
def ProgRun.splitWaits (r : ProgRun) (im : Image) (core k i : Nat) (rec : PlanRec) : Bool :=
  ((List.range (k + 1)).any fun j =>
    let pr := r.plans.getD j {}
    let recs := im.plans.getD pr.plan []
    pr.left.any fun n => (decide (j < k) || decide (n < i)) && (match recs[n]? with
      | some (.split d) => decide (core ∈ recCores (.split d))
      | _ => false)) ||
  r.splits.any fun x =>
    let part := (recCores (.split x.desc)).idxOf core
    let mine := x.plan = k && decide (i ∈ x.recs.getD part [])
    if mine then x.desc.mode = 0 && decide (0 < part) && !decide ((part - 1, 0) ∈ x.done)
    else x.holds part && (match rec with | .run _ d => runTiles d &&& x.tiles ≠ 0 | _ => false)

/-- The logical core of a program that matrix core mc is. -/
def ProgRun.logical (r : ProgRun) (mc : Nat) : Nat := ((r.coreMap.find? (·.2 = mc)).map (·.1)).getD mc

/-- Takes a record off its plan. -/
def ProgRun.take (r : ProgRun) (k i : Nat) : ProgRun := { r with plans := updNth (fun p => { p with left := p.left.erase i }) r.plans k }

/-- Takes a record of core `mc` off its plan, if it is the core's next and may be carried out; for a command without a program every record is free. `make` builds the record from its core number. -/
def State.takeRecord (s : State) (h : Hdr) (mc : Nat) (make : Nat → PlanRec) : Option State :=
  match s.cmdOf h with
  | none => none
  | some c =>
    match c.prog, (s.ptn h.ptn).imageOf c with
    | some r, some im =>
      let core := r.logical mc
      ((r.nextOf im core).filter fun n => decide (n.2.2 = make core) && !r.splitWaits im core n.1 n.2.1 n.2.2).map fun n =>
        s.updCmd h fun c => { c with prog := some (r.take n.1 n.2.1) }
    | none, _ => some s
    | _, _ => none

/-! ## Semaphores (R303 to R305) -/

/-- A SWAIT of job q completes. -/
def State.semTake (s : State) (p : PtnId) (q : QueueId) (n : SemId) : State :=
  s.updSem p n fun m => { m.addBal q 1 with count := m.count - 1 }

/-- Starts a holder run if a running job waits on a semaphore that a stopped job with an unfinished command holds (R305), but not inside a non-preemptible command (R300). -/
def Ptn.holderStart (x : Ptn) (w : QueueId) (n : SemId) : Ptn :=
  let m := x.sems.get {} n
  let hs := (queueIds.filter fun q => m.holds q && (x.job q).st = .stopped && (x.runs? q).isSome && !x.inHolder q).foldr (insertBy x.before) []
  match hs with
  | h :: _ =>
    if m.count ≠ 0 || (x.job w).st ≠ .running || (x.runs? w).any (·.np) then x
    else
      let outer := !x.holders.any fun r => r.holder = w
      let x : Ptn := { x with holders := x.holders ++ [{ waiter := w, holder := h, sem := n }] }
      let x := x.updJob w fun j => { j with st := .stopping, holderRuns := if outer then satInc j.holderRuns else j.holderRuns }
      if !outer then x
      else
        let cur := fun c : CmdRec => c.hdr.queue = w && c.started && !c.immediate && !c.isOver
        let cmds := updFirst cur (fun c => { c with holderRuns := satInc c.holderRuns }) x.flow.cmds
        { x with flow := { x.flow with cmds := cmds } }
  | [] => x

/-- Holder runs for the waiters of every semaphore (R305): what a stopped job holds may have changed. -/
def Ptn.holderScan (x : Ptn) : Ptn :=
  x.sems.foldl (fun x e => e.2.waiters.foldl (fun x w => x.holderStart w.1 (Fin.ofNat 256 e.1)) x) x

/-- A holder run ends once its holder no longer holds the semaphore: the holder is stopped (R305). -/
def Ptn.holderCheck (x : Ptn) : Ptn :=
  x.holders.foldl (fun x h =>
    if h.running && !(x.sems.get {} h.sem).holds h.holder && (x.job h.holder).st = .running
    then x.updJob h.holder fun j => { j with st := .stopping } else x) x

/-- A post: COUNT rises, or OVF is set at its maximum; the posting job's balance falls (R303, R304). -/
def State.semPost (s : State) (p : PtnId) (q : QueueId) (n : SemId) : State :=
  (s.updSem p n fun m =>
    let m := m.addBal q (-1)
    if m.count = 0xFFFFFFFF then { m with ovf := true } else { m with count := m.count + 1 }).updPtn p Ptn.holderCheck

/-- SWAIT ignores the predicate (R123). -/
def execSwait (t : ThreadId) (w : IWord) (s : State) : Res State :=
  .next (s.issue t w 0x53 (fun _ => []) fun l w =>
    let n : SemId := Fin.ofNat 256 w.immN
    let m := s.sem l.ptn n
    if m.count ≠ 0 && m.waiters.isEmpty then (s.semTake l.ptn l.queue n).nextPc t
    else
      let s := s.updSem l.ptn n fun m => { m with waiters := m.waiters ++ [(l.queue, t.val)] }
      (s.updTh t.val fun x => { x.next with wait := .sem n }).updPtn l.ptn (·.holderStart l.queue n))

def execSpost (t : ThreadId) (w : IWord) (s : State) : Res State :=
  .next (s.issue t w 0x54 (fun _ => []) fun l w => (s.semPost l.ptn l.queue (Fin.ofNat 256 w.immN)).nextPc t)

/-- A thread waits on the semaphore, on its core or in its job's save area. -/
def State.threadWaits (s : State) (p : PtnId) (q : QueueId) (n : SemId) (t : Nat) : Bool :=
  let waits := fun x : Thread => x.running && x.wait = .sem n
  match (s.job p q).saved.find? (·.mc = t / 256) with
  | some c => waits (c.ths.get {} (t % 256))
  | none => (match s.launch? (s.th t).launch with | some l => l.ptn = p && l.queue = q | none => false) && waits (s.th t)

/-- The command of a queue whose plan waits on the semaphore at a core: the core's next record is that WAIT_SEM, and it stays in the plan until the core is served. -/
def State.planWaits (s : State) (p : PtnId) (q : QueueId) (n : SemId) (mc : Nat) : Option (CmdRec × ProgRun × Nat × Nat) :=
  match s.running? p q with
  | none => none
  | some c =>
    match c.prog, (s.ptn p).imageOf c with
    | some r, some im =>
      match r.nextOf im (r.logical mc) with
      | some (k, i, .waitSem _ m) => if m = n then some (c, r, k, i) else none
      | _ => none
    | _, _ => none

/-- A waiter that still waits. -/
def State.stillWaits (s : State) (p : PtnId) (n : SemId) (w : QueueId × Nat) : Bool :=
  if w.2 ≥ 65536 then (s.planWaits p w.1 n (w.2 - 65536)).isSome else s.threadWaits p w.1 n w.2

/-- A waiter goes on: its thread, on its core or in its save area, or its core's plan. -/
def State.serve (s : State) (p : PtnId) (n : SemId) (w : QueueId × Nat) : State :=
  if w.2 ≥ 65536 then
    match s.planWaits p w.1 n (w.2 - 65536) with
    | some (c, r, k, i) => s.updCmd c.hdr fun c => { c with prog := some (r.take k i) }
    | none => s
  else if (s.job p w.1).saved.any (·.mc = w.2 / 256) then
    s.updJob p w.1 fun j => { j with saved := updFirst (fun c => c.mc = w.2 / 256) (fun c => { c with ths := c.ths.upd {} (w.2 % 256) fun x => { x with wait := .none } }) j.saved }
  else s.updTh w.2 fun x => { x with wait := .none }

/-- The first waiter in arrival order takes the semaphore while COUNT is above 0, whatever state its job is in (R303). -/
def execSemaphoreAcquire (p : PtnId) (sem : SemId) (s : State) : Res State :=
  .next (
    let m := s.sem p sem
    match m.waiters.find? (s.stillWaits p sem) with
    | some w =>
      if m.count = 0 then s
      else (((s.semTake p w.1 sem).updSem p sem fun m => { m with waiters := m.waiters.erase w }).serve p sem w).updPtn p Ptn.holderScan
    | none => s)

/-! ## Summaries and the end of a thread -/

/-- One contribution to a slot (R138). -/
def Slot.add (x : Slot) (kind : BitVec 2) (v : W32) : Slot :=
  let old := if x.written then x.value else slotInit kind
  let v := match kind.toNat with
    | 0 => if v ≠ 0 then 1 else old
    | 1 => satInc old v.toNat
    | 2 => BitVec.ofNat 32 (b32.fmax old.toNat v.toNat)
    | _ => BitVec.ofNat 32 (b32.fmin old.toNat v.toNat)
  { value := v, kind := kind, written := true }

def execSumry (t : ThreadId) (w : IWord) (s : State) : Res State :=
  .next (s.issue t w 0x55 regsA fun l w =>
    let x := s.th t.val
    if !x.pred w.pred.toNat then s.nextPc t
    else (s.updLaunch l.id fun l => { l with
      slots := updNth (·.add (BitVec.ofNat 2 (bits w.immN 4 2)) (x.get w.a)) l.slots (bits w.immN 0 4) }).nextPc t)

/-- The thread ends (R118, R139). -/
def execEndThread (t : ThreadId) (w : IWord) (s : State) : Res State :=
  .next (s.issue t w 0x56 (fun _ => []) fun l _ =>
    (s.updTh t.val fun x => { x.next with running := false }).updLaunch l.id fun l => { l with ended := l.ended ++ [t.val] })

/-- The stream unit finishes: its result reaches G[D], and the thread goes on (R127, R129). -/
def execStreamDone (t : ThreadId) (s : State) : Res State :=
  .next (match (s.th t.val).wait with
    | .stream d v _ => s.updTh t.val fun x => { (match d with | some r => x.set r v | none => x) with wait := .none }
    | _ => s)

/-- Waits until at most IMM[11:0] of the thread's requests are outstanding (R118). -/
def execTewait (t : ThreadId) (w : IWord) (s : State) : Res State :=
  .next (s.issue t w 0x45 (fun _ => []) fun _ w =>
    let n := bits w.immN 0 12
    s.updTh t.val fun x => if !x.pred w.pred.toNat || x.teOut ≤ n then x.next else { x.next with wait := .te n })

end Sys2Proof.Machine
end

