-- ==== Sys2Proof/Machine/Scalar.lean ====
section
/-! DEFINITION. The scalar-core instructions that compute in registers and predicates (R118 to R121). -/

namespace Sys2Proof.Machine

def execNopInstruction (t : ThreadId) (w : IWord) (s : State) : Res State := .next (s.issue t w 0x00 (fun _ => []) fun _ _ => s.nextPc t)
def execMov (t : ThreadId) (w : IWord) (s : State) : Res State :=
  .next (s.alu t w 0x01 (fun w => if w.i then [] else [w.a]) fun _ w x => (if w.i then w.imm else x.get w.a, {}))
def execAdd (t : ThreadId) (w : IWord) (s : State) : Res State := .next (s.intOp t w 0x02 fun _ a b => a + b)
def execSub (t : ThreadId) (w : IWord) (s : State) : Res State := .next (s.intOp t w 0x03 fun _ a b => a - b)
def execMul (t : ThreadId) (w : IWord) (s : State) : Res State := .next (s.intOp t w 0x04 fun _ a b => a * b)
def execAnd (t : ThreadId) (w : IWord) (s : State) : Res State := .next (s.intOp t w 0x05 fun _ a b => a &&& b)
def execOr (t : ThreadId) (w : IWord) (s : State) : Res State := .next (s.intOp t w 0x06 fun _ a b => a ||| b)
def execXor (t : ThreadId) (w : IWord) (s : State) : Res State := .next (s.intOp t w 0x07 fun _ a b => a ^^^ b)
/-- Shifts take their distance from B[4:0]. -/
def execShl (t : ThreadId) (w : IWord) (s : State) : Res State := .next (s.intOp t w 0x08 fun _ a b => a <<< (b.toNat % 32))
def execShr (t : ThreadId) (w : IWord) (s : State) : Res State := .next (s.intOp t w 0x09 fun _ a b => a >>> (b.toNat % 32))
def execSra (t : ThreadId) (w : IWord) (s : State) : Res State := .next (s.intOp t w 0x0A fun _ a b => a.sshiftRight (b.toNat % 32))
/-- a below b, signed for int32 and unsigned for uint32. -/
def intLt (ty : Nat) (a b : W32) : Bool := if ty = 2 then a.slt b else a.ult b
def execImin (t : ThreadId) (w : IWord) (s : State) : Res State := .next (s.intOp t w 0x0B fun ty a b => if intLt ty b a then b else a)
def execImax (t : ThreadId) (w : IWord) (s : State) : Res State := .next (s.intOp t w 0x0C fun ty a b => if intLt ty a b then b else a)
def execScl (t : ThreadId) (w : IWord) (s : State) : Res State := .next (s.intOp t w 0x0D fun _ a b => BitVec.ofNat 32 (putBits a.toNat 8 8 b.toNat))
def execFadd (t : ThreadId) (w : IWord) (s : State) : Res State := .next (s.fltOp t w 0x10 fun g a b => g.fadd a b)
def execFsub (t : ThreadId) (w : IWord) (s : State) : Res State := .next (s.fltOp t w 0x11 fun g a b => g.fsub a b)
def execFmul (t : ThreadId) (w : IWord) (s : State) : Res State := .next (s.fltOp t w 0x12 fun g a b => g.fmul a b)
/-- A times B plus D with one rounding. -/
def execFfma (t : ThreadId) (w : IWord) (s : State) : Res State :=
  .next (s.alu t w 0x13 regsAB fun _ w x =>
    let g := fltOf w.ty
    let m := fun v : W32 => v.toNat % 2 ^ (g.sbit + 1)
    let r := g.ffma (m (x.get w.a)) (m (w.opB x)) (m (x.get w.d))
    (BitVec.ofNat 32 r.1, r.2))
def execFdiv (t : ThreadId) (w : IWord) (s : State) : Res State := .next (s.fltOp t w 0x14 fun g a b => g.fdiv a b)
/-- An operation on A alone. -/
def State.flt1 (s : State) (t : ThreadId) (w : IWord) (op : Nat) (f : LFmt → Nat → Nat × Ev) : State :=
  s.alu t w op regsA fun _ w x =>
    let g := fltOf w.ty
    let r := f g ((x.get w.a).toNat % 2 ^ (g.sbit + 1))
    (BitVec.ofNat 32 r.1, r.2)
def execFsqrt (t : ThreadId) (w : IWord) (s : State) : Res State := .next (s.flt1 t w 0x15 fun g a => g.fsqrt a)
def execFmax (t : ThreadId) (w : IWord) (s : State) : Res State := .next (s.fltOp t w 0x16 fun g a b => (g.fmax a b, {}))
def execFmin (t : ThreadId) (w : IWord) (s : State) : Res State := .next (s.fltOp t w 0x17 fun g a b => (g.fmin a b, {}))
def execFabs (t : ThreadId) (w : IWord) (s : State) : Res State := .next (s.flt1 t w 0x18 fun g a => (g.fabs a, {}))
def execFneg (t : ThreadId) (w : IWord) (s : State) : Res State := .next (s.flt1 t w 0x19 fun g a => (g.fneg a, {}))
def execExp2 (t : ThreadId) (w : IWord) (s : State) : Res State := .next (s.flt1 t w 0x1A fun g a => g.exp2 a)
def execLog2 (t : ThreadId) (w : IWord) (s : State) : Res State := .next (s.flt1 t w 0x1B fun g a => g.log2 a)
def execCeq (t : ThreadId) (w : IWord) (s : State) : Res State := .next (s.cmpOp t w 0x20 .eq)
def execCne (t : ThreadId) (w : IWord) (s : State) : Res State := .next (s.cmpOp t w 0x21 .ne)
def execClt (t : ThreadId) (w : IWord) (s : State) : Res State := .next (s.cmpOp t w 0x22 .lt)
def execCle (t : ThreadId) (w : IWord) (s : State) : Res State := .next (s.cmpOp t w 0x23 .le)
def execCun (t : ThreadId) (w : IWord) (s : State) : Res State := .next (s.cmpOp t w 0x24 .un)
def execCgt (t : ThreadId) (w : IWord) (s : State) : Res State := .next (s.cmpOp t w 0x29 .gt)
def execCge (t : ThreadId) (w : IWord) (s : State) : Res State := .next (s.cmpOp t w 0x2A .ge)
/-- Never masked: the predicate selects (R118, R123). -/
def execSel (t : ThreadId) (w : IWord) (s : State) : Res State :=
  .next (s.issue t w 0x25 (fun w => w.d :: regsAB w) fun _ w =>
    s.updTh t.val fun x => (x.set w.d (if x.pred w.pred.toNat then x.get w.a else w.opB x)).next)
/-- KAND and KOR read K[B[2:0]]; I = 1 is ignored where field B is no plain register operand (DESIGN CHOICE, log entry 89). -/
def execKand (t : ThreadId) (w : IWord) (s : State) : Res State :=
  .next (s.predOp t w 0x26 (fun _ => []) fun w x => x.pred (w.a.toNat % 8) && x.pred (w.b.toNat % 8))
def execKor (t : ThreadId) (w : IWord) (s : State) : Res State :=
  .next (s.predOp t w 0x27 (fun _ => []) fun w x => x.pred (w.a.toNat % 8) || x.pred (w.b.toNat % 8))
def execKnot (t : ThreadId) (w : IWord) (s : State) : Res State :=
  .next (s.predOp t w 0x28 (fun _ => []) fun w x => !x.pred (w.a.toNat % 8))

/-- The mode a conversion instruction uses: its own fields, or what the command sampled; BLOCK becomes GIVEN for CVT (R121). -/
def IWord.mode (l : Launch) (w : IWord) : NumMode :=
  if w.own then { sat := w.cvtSat, rnd := BitVec.ofNat 2 w.cvtRnd, smode := BitVec.ofNat 2 w.cvtMode, given := BitVec.ofNat 8 w.cvtScale } else l.numMode

/-- CVT of a register value (R43, R121): the result in register form, the event, and the value for AMAX. -/
def cvtValue (l : Launch) (w : IWord) (src idx : W32) : W32 × Ev × XVal :=
  match Ty.ofCode w.ty, Ty.ofCode w.cvtTarget with
  | some ty, some tgt =>
    let m := IWord.mode l w
    let v := regValue ty src.toNat
    let sr := if m.rnd = 1 then some (srWord l.srSeed.toNat l.srStream.toNat idx.toNat) else none
    let scale := if !tgt.isShort then 0 else if m.smode = 2 then bits src.toNat 8 8 else m.given.toNat
    let r := convert tgt m.sat sr scale v
    (BitVec.ofNat 32 (if tgt.isShort then r.1 + scale * 256 else r.1), r.2, v)
  | _, _ => (0, {}, .nan)

/-- The index of CVT stays G[B]; I = 1 is ignored where field B is no plain register operand (DESIGN CHOICE, log entry 89). -/
def execCvt (t : ThreadId) (w : IWord) (s : State) : Res State :=
  .next (s.issue t w 0x30 (fun w => [w.d, w.a, w.b]) fun l w =>
    let x := s.th t.val
    if x.pred w.pred.toNat then
      let r := cvtValue l w (x.get w.a) (x.get w.b)
      ((s.updTh t.val fun x => (x.set w.d r.1).next).threadEv t r.2.1).addSheet l.hdr (·.addAmax r.2.2)
    else s.updTh t.val fun x => (if w.mz then x.set w.d 0 else x).next)

end Sys2Proof.Machine
end

