-- ==== Sys2Proof/Machine/Stream.lean ====
section
/-! DEFINITION. Stream instructions: descriptors and their checks (R125, R508), SCVT (R126), SRED (R127), SMOVE and ATX (R507), with masks (R122, R124). -/

namespace Sys2Proof.Machine

/-- A stream descriptor (R125). -/
structure SDesc where
  srcAddr : Nat := 0
  srcSpace : Nat := 0
  srcType : Nat := 0
  srcShape : Nat := 0
  srcScale : Nat := 0
  dstAddr : Nat := 0
  dstSpace : Nat := 0
  dstType : Nat := 0
  dstShape : Nat := 0
  dstScale : Nat := 0
  length : Nat := 0
  rowLen : Nat := 1
  maskAddr : Nat := 0
  maskEn : Bool := false
  accEntry : Nat := 0
  srIndex : Nat := 0
  /-- Some reserved bit is set. -/
  rsv : Bool := false
deriving DecidableEq, Repr

def SDesc.parse (bs : List Byte) : SDesc :=
  let v := leNat bs
  { srcAddr := bits v 0 48, srcSpace := bits v 48 2, srcType := bits v 50 4, srcShape := bits v 54 3, srcScale := bits v 64 48,
    dstAddr := bits v 128 48, dstSpace := bits v 176 2, dstType := bits v 178 4, dstShape := bits v 182 3, dstScale := bits v 192 48,
    length := bits v 256 32, rowLen := bits v 288 16, maskAddr := bits v 320 17, maskEn := bitAt v 337, accEntry := bits v 384 15,
    srIndex := bits v 416 40,
    rsv := [(57, 7), (112, 16), (185, 7), (240, 16), (304, 16), (338, 46), (399, 17), (456, 56)].any fun (lo, w) => bits v lo w ≠ 0 }

/-- A range a stream touches: space, address, bytes (entries in the accumulator file), whether written, and the element size for alignment. -/
structure SRange where
  space : Nat
  addr : Nat
  n : Nat
  write : Bool
  size : Nat := 1
deriving DecidableEq, Repr

/-- Bytes from an element array's start to the end of its last element. -/
def arrayBytes (ty : Ty) (shape cols len : Nat) : Nat :=
  if len = 0 then 0
  else if ty.isShort then ceilDiv ((elemIndex shape cols ((len - 1) / cols) ((len - 1) % cols) + 1) * ty.packBits) 8
  else len * ty.bytes

def scaleArrayBytes (ty : Ty) (shape cols len : Nat) : Nat :=
  if len = 0 || !ty.isShort then 0 else blockIndex shape cols ((len - 1) / cols) ((len - 1) % cols) + 1

namespace SDesc
variable (d : SDesc)
def sTy : Ty := (Ty.ofCode d.srcType).getD .int8
def dTy : Ty := (Ty.ofCode d.dstType).getD .int8

def elemRange (space addr scale : Nat) (ty : Ty) (shape : Nat) (write : Bool) : List SRange :=
  if space = 2 then [⟨2, addr, d.length, write, 1⟩]
  else [⟨space, addr, arrayBytes ty shape d.rowLen d.length, write, if ty.isShort then 1 else ty.bytes⟩] ++
    (if ty.isShort then [⟨space, scale, scaleArrayBytes ty shape d.rowLen d.length, write, 1⟩] else [])

def srcRanges : List SRange := d.elemRange d.srcSpace d.srcAddr d.srcScale d.sTy d.srcShape false
def dstRanges : List SRange := d.elemRange d.dstSpace d.dstAddr d.dstScale d.dTy d.dstShape true
end SDesc

/-- A failed check: the code, and for a failed window check the address, the direction and the kind. -/
abbrev SFail := Status × Option (Nat × Bool × BitVec 4)

/-- The rows of R508 that concern ranges, each row over every range before the next row. -/
def State.rangeCheck (s : State) (l : Launch) (rs : List SRange) : Option SFail :=
  let x := s.ptn l.ptn
  if rs.any fun r => r.space = 2 && r.n > 0 && r.addr + r.n > 32768 then some (St.eLocalRange, none)
  else if rs.any fun r => r.space = 0 && !l.ocOk r.addr r.n r.write then some (St.eLocalRange, none)
  else
    match rs.findSome? fun r => if r.space = 1 then (x.check r.addr r.n r.write).map fun k => (r.addr, r.write, k) else none with
    | some v => some (St.eAccess, some v)
    | none =>
      if rs.any fun r => r.space = 1 && spanInLp r.addr r.n then some (St.eOperandLoc, none)
      else if rs.any fun r => r.space ≠ 2 && r.n > 0 && r.addr % r.size ≠ 0 then some (St.eAlign, none)
      else none

/-- The first rows of R508: the descriptor's place and the mask's. -/
def descPlace (l : Launch) (a : Nat) : Option Status :=
  if a % 8 ≠ 0 then some St.eAlign else if !l.ocOk a 64 false then some St.eLocalRange else none

/-- Spaces, codes and reserved bits (R508). ROW_LEN = 0 is out of R125's range, and R508 has no row for it: SCVT and SRED take it as a reserved code, SMOVE and ATX, which take no rows, let it pass (DESIGN CHOICE, log entry 65). -/
def SDesc.codesBad (d : SDesc) (typed : Bool) : Bool :=
  d.srcSpace = 3 || d.dstSpace = 3 || d.rsv || (typed && (d.srcType > 9 || d.dstType > 9 || d.srcShape > 4 || d.dstShape > 4))

/-- ROW_LEN 0 where the stream has rows. -/
def SDesc.rowLenBad (d : SDesc) : Bool := d.rowLen = 0

/-- LENGTH not a multiple of ROW_LEN for a COL or 4 × 4 shape of a short format (R125, R508). -/
def SDesc.rowsBad (d : SDesc) (ty : Ty) (shape : Nat) : Bool := ty.isShort && shape ≥ 2 && d.length % d.rowLen ≠ 0

/-- SPACE 0b10 with a type other than binary32 on either side (R508). -/
def SDesc.accTypeBad (d : SDesc) : Bool := (d.srcSpace = 2 && d.srcType ≠ 8) || (d.dstSpace = 2 && d.dstType ≠ 8)

/-- The rows of R508 about codes and shapes, for a stream that has types. -/
def SDesc.shapeBad (d : SDesc) : Bool :=
  d.codesBad true || d.rowsBad d.sTy d.srcShape || d.rowsBad d.dTy d.dstShape || d.accTypeBad

def SDesc.maskBad (d : SDesc) (l : Launch) : Bool := d.maskEn && !l.ocOk d.maskAddr (ceilDiv d.length 8) false

/-- R508 for SCVT. -/
def State.scvtCheck (s : State) (l : Launch) (d : SDesc) (mode : NumMode) : Option SFail :=
  if d.maskBad l then some (St.eLocalRange, none)
  else if d.shapeBad || d.rowLenBad then some (St.eStreamDesc, none)
  else if mode.smode = 2 && (!d.sTy.isShort || (d.dTy.isShort && d.srcShape ≠ d.dstShape)) then some (St.eStreamDesc, none)
  else s.rangeCheck l (d.srcRanges ++ d.dstRanges)

/-- R508 for SRED. -/
def State.sredCheck (s : State) (l : Launch) (d : SDesc) (w : IWord) : Option SFail :=
  if d.maskBad l then some (St.eLocalRange, none)
  else if d.shapeBad || d.rowLenBad then some (St.eStreamDesc, none)
  else if (w.rop = 2 || w.rop = 3) && (w.toAcc || w.cont) && d.accEntry % 64 ≥ 62 then some (St.eStreamDesc, none)
  else s.rangeCheck l d.srcRanges

/-- Bytes of a range, or of the entries' SUM fields (R93); an uncorrectable word of a local memory ends the read (R433). -/
def State.streamRead (s : State) (l : Launch) (mc : Nat) (r : SRange) : Acc (List Byte) :=
  if r.space = 0 then
    if (s.mc mc).bad 1 (r.addr / 8) ((r.addr + r.n + 7) / 8 - r.addr / 8) then (s.noteLocal l.ptn mc 1, .error St.eMemUncorr) else (s, .ok ((s.mc mc).ocRead r.addr r.n))
  else if r.space = 2 then
    if (s.mc mc).bad 0 r.addr r.n then (s.noteLocal l.ptn mc 0, .error St.eMemUncorr)
    else (s, .ok (((s.mc mc).acc.getList {} r.addr r.n).flatMap fun e => leBytes 4 e.sum.toNat))
  else s.pRead l.ptn (Who.stream mc) r.addr r.n

/-- Writes bytes to a range, or binary32 values to entries with COMP 0 (R92). -/
def State.streamWrite (s : State) (l : Launch) (mc : Nat) (r : SRange) (bs : List Byte) : Acc Unit :=
  if r.space = 0 then (s.updMc mc fun m => m.ocWrite r.addr bs, .ok ())
  else if r.space = 2 then
    (s.updMc mc fun m => ({ m with acc := m.acc.putList {} r.addr ((chunks 4 r.n bs).map fun b => Entry.loaded (leNat b) 0) } : MCore).mend 0 r.addr r.n, .ok ())
  else s.pWrite l.ptn (Who.stream mc) r.addr bs

/-- Writes SUMs to entries, where `act` holds of the element; any other entry keeps SUM and COMP (R92, R122). -/
def MCore.putSums (m : MCore) (a : Nat) (act : Nat → Bool) (sums : List Nat) : MCore :=
  sums.zipIdx.foldl (fun m e => if act e.2 then m.setEntry (a + e.2) (Entry.loaded e.1 0) else m) m

/-- Reads several ranges in order. -/
def State.streamReads (s : State) (l : Launch) (mc : Nat) : List SRange → Acc (List (List Byte))
  | [] => (s, .ok [])
  | r :: rs =>
    match s.streamRead l mc r with
    | (s, .error c) => (s, .error c)
    | (s, .ok b) =>
      match s.streamReads l mc rs with
      | (s, .error c) => (s, .error c)
      | (s, .ok bs) => (s, .ok (b :: bs))

def State.streamWrites (s : State) (l : Launch) (mc : Nat) : List (SRange × List Byte) → Acc Unit
  | [] => (s, .ok ())
  | (r, b) :: rs =>
    match s.streamWrite l mc r b with
    | (s, .error c) => (s, .error c)
    | (s, .ok _) => s.streamWrites l mc rs

/-- Element code at (r, c) of an array's bytes. -/
def codeAt (ty : Ty) (shape cols : Nat) (arr : List Byte) (r c : Nat) : Nat :=
  let p := elemPlace ty shape cols r c
  bits (leNat ((arr.drop p.1).take (ty.span p.2))) p.2 ty.packBits

/-- Scale byte of the block that holds (r, c). -/
def scaleAt (ty : Ty) (shape cols : Nat) (sc : List Byte) (r c : Nat) : Nat :=
  if ty.isShort then (sc.getD (blockIndex shape cols r c) 0).toNat else 0

/-- Exact value of an element from its code in memory and its scale byte. -/
def memValue (ty : Ty) (code scale : Nat) : XVal := if ty.isShort then regValue ty (code + scale * 256) else regValue ty code

/-- One element of a stream: row, column, index, active, value, scale byte of its source block. -/
structure SElem where
  r : Nat
  c : Nat
  idx : Nat
  active : Bool
  v : XVal
  scale : Nat

/-- The elements of a stream in order, from the source arrays and the mask (R122, R125). -/
def SDesc.elems (d : SDesc) (arr sc mask : List Byte) : List SElem :=
  (List.range d.length).map fun e =>
    let r := e / d.rowLen; let c := e % d.rowLen
    let k := scaleAt d.sTy d.srcShape d.rowLen sc r c
    let code := if d.srcSpace = 2 then leNat ((arr.drop (4 * e)).take 4) else codeAt d.sTy d.srcShape d.rowLen arr r c
    { r := r, c := c, idx := d.srIndex + e, active := !d.maskEn || bitAt (mask.getD (e / 8) 0).toNat (e % 8)
      v := memValue d.sTy code k, scale := k }

/-- Source arrays and mask of a stream. -/
def State.streamSource (s : State) (l : Launch) (mc : Nat) (d : SDesc) : Acc (List SElem) :=
  match s.streamReads l mc d.srcRanges with
  | (s, .error c) => (s, .error c)
  | (s, .ok bs) =>
    let mask := if d.maskEn then (s.mc mc).ocRead d.maskAddr (ceilDiv d.length 8) else []
    (s, .ok (d.elems (bs.getD 0 []) (bs.getD 1 []) mask))

/-- Replaces an element's code in an array. -/
def setCode (ty : Ty) (shape cols : Nat) (arr : List Byte) (r c code : Nat) : List Byte :=
  let p := elemPlace ty shape cols r c
  let n := ty.span p.2
  let old := leNat ((arr.drop p.1).take n)
  arr.take p.1 ++ leBytes n (putBits old p.2 ty.packBits code) ++ arr.drop (p.1 + n)

/-- The scale byte of each destination block a stream covers: none where no covered lane is active (R44, R126). -/
def SDesc.blockScales (d : SDesc) (m : NumMode) (g : SFmt) (es : List SElem) : List (Nat × Option Nat) :=
  let blk := fun e : SElem => blockIndex d.dstShape d.rowLen e.r e.c
  (es.map blk).eraseDups.map fun b =>
    let act := es.filter fun e => blk e = b && e.active
    (b, match act with
      | [] => none
      | e :: _ => some (if m.smode = 0 then blockScale g (act.map (·.v)) else if m.smode = 2 then e.scale else m.given.toNat))

/-- Result of converting a stream: element array, scale array, events, AMAX contributions. -/
structure ConvOut where
  arr : List Byte
  sc : List Byte
  ev : Ev := {}
  vals : List XVal := []

/-- Converts the elements into destination arrays that hold what was there before (R126). -/
def SDesc.convertAll (d : SDesc) (m : NumMode) (seed stream : Nat) (mz : Bool) (arr sc : List Byte) (es : List SElem) : ConvOut :=
  let scales := match d.dTy.short with | some g => d.blockScales m g es | none => []
  let sc := scales.foldl (fun sc b => match b.2 with | some v => sc.set b.1 (BitVec.ofNat 8 v) | none => sc) sc
  es.foldl (fun o e =>
    if e.active then
      let k := ((scales.find? (·.1 = blockIndex d.dstShape d.rowLen e.r e.c)).bind (·.2)).getD 0
      let sr := if m.rnd = 1 then some (srWord seed stream e.idx) else none
      let r := convert d.dTy m.sat sr k e.v
      { o with arr := setCode d.dTy d.dstShape d.rowLen o.arr e.r e.c r.1, ev := o.ev.add r.2, vals := o.vals ++ [e.v] }
    else if mz then { o with arr := setCode d.dTy d.dstShape d.rowLen o.arr e.r e.c 0 }
    else o) { arr := arr, sc := sc }

/-- The stream unit of a thread's scalar core is free; a grouped SRED needs every unit of the matrix core, and while one runs no other is accepted (R127). -/
def State.unitFree (s : State) (t : ThreadId) (grouped : Bool) : Bool :=
  let mc := mcOf t
  (List.range 256).all fun i =>
    match (s.th (256 * mc + i)).wait with
    | .stream _ _ g => !(g || grouped || i / 8 = scOf t)
    | _ => true

/-- The thread waits for its stream unit (R125). -/
def State.streamWait (s : State) (t : ThreadId) (d : Option (BitVec 5)) (v : W32) (grouped : Bool := false) : State :=
  s.updTh t.val fun x => { x.next with wait := .stream d v grouped }

def State.streamFail (s : State) (t : ThreadId) (l : Launch) (f : SFail) : State :=
  let s := match f.2 with
    | some (a, wr, k) => s.violate l.ptn (Who.stream (mcOf t)) a wr k
    | none => s
  s.threadFault t f.1

/-- The common issue of a stream instruction: not issued under a false predicate (R124), else the descriptor is read (R125, R508). -/
def State.streamIssue (s : State) (t : ThreadId) (w : IWord) (op : Nat) (f : Launch → IWord → SDesc → State) : State :=
  s.issue t w op (fun w => [w.d, w.a]) fun l w =>
    let x := s.th t.val
    if !x.pred w.pred.toNat then s.nextPc t
    else if !s.unitFree t (op = 0x41 && w.group) then s
    else
      let a := (x.get w.a).toNat
      match descPlace l a with
      | some c => s.threadFault t c
      | none => if (s.mc (mcOf t)).bad 1 (a / 8) 8 then s.localStop t l 1 else f l w (SDesc.parse ((s.mc (mcOf t)).ocRead a 64))

/-- A tile that the range of entries touches is held by a run (R79). -/
def MCore.anyHeld (m : MCore) (rs : List SRange) : Bool :=
  rs.any fun r => r.space = 2 && r.n > 0 && (m.tileHeld r.addr || m.tileHeld (r.addr + r.n - 1) ||
    (List.range 8).any fun i => bitAt m.tiles.toNat i && decide (r.addr ≤ 4096 * i) && decide (4096 * i < r.addr + r.n))

def execScvt (t : ThreadId) (w : IWord) (s : State) : Res State :=
  .next (s.streamIssue t w 0x40 fun l w d =>
    let mc := mcOf t
    let m := IWord.mode l w
    match s.scvtCheck l d m with
    | some f => s.streamFail t l f
    | none =>
      if (s.mc mc).anyHeld (d.srcRanges ++ d.dstRanges) then s
      else
        match s.streamSource l mc d with
        | (s, .error c) => s.threadFault t c
        | (s, .ok es) =>
          match s.streamReads l mc d.dstRanges with
          | (s, .error c) => s.threadFault t c
          | (s, .ok old) =>
            let o := d.convertAll m l.srSeed.toNat l.srStream.toNat w.mz (old.getD 0 []) (old.getD 1 []) es
            let sums := (chunks 4 d.length o.arr).map leNat
            let act := fun i => w.mz || (es[i]?).any (·.active)
            match (if d.dstSpace = 2 then (s.updMc mc (·.putSums d.dstAddr act sums), .ok ()) else s.streamWrites l mc (d.dstRanges.zip [o.arr, o.sc])) with
            | (s, .error c) => s.threadFault t c
            | (s, .ok _) =>
              let s := s.addSheet l.hdr fun sh =>
                { o.vals.foldl Sheet.addAmax (sh.addEv o.ev) with empty := sh.empty || o.vals.isEmpty }
              s.streamWait t none 0)

/-- Integer elements are first converted to binary32 (R96). -/
def redValue (ty : Ty) (v : XVal) : XVal := if ty.intRange.isSome then b32.decode (b32.round v).1 else v

def execSred (t : ThreadId) (w : IWord) (s : State) : Res State :=
  .next (s.streamIssue t w 0x41 fun l w d =>
    let mc := mcOf t
    match s.sredCheck l d w with
    | some f => s.streamFail t l f
    | none =>
      let nst := if w.rop < 2 then 1 else 3
      let st : List SRange := if w.toAcc || w.cont then [⟨2, d.accEntry, nst, true, 1⟩] else []
      if (s.mc mc).anyHeld (d.srcRanges ++ st) then s
      else if w.cont && (s.mc mc).bad 0 d.accEntry nst then s.localStop t l 0
      else
        match s.streamSource l mc d with
        | (s, .error c) => s.threadFault t c
        | (s, .ok es) =>
          let prior := if w.cont then some ((s.mc mc).acc.getList {} d.accEntry nst) else none
          let o := reduce w.rop w.sample prior (es.map fun e => if e.active then some (redValue d.sTy e.v) else none)
          let s := if w.toAcc then s.updMc mc fun m => ({ m with acc := m.acc.putList {} d.accEntry o.state } : MCore).mend 0 d.accEntry nst else s
          let ints := if d.sTy.intRange.isSome then (es.filter (·.active)).map (·.v) else []
          let s := s.addSheet l.hdr fun sh => { (ints ++ o.vals).foldl Sheet.addAmax (sh.addEv o.ev) with empty := sh.empty || o.empty }
          s.streamWait t (some w.d) o.res w.group)

/-- SMOVE ignores types, shapes and the mask (R507). Where source and destination overlap, every source byte is read before any is written; the spec gives no order (DESIGN CHOICE, log entry 66). -/
def execSmove (t : ThreadId) (w : IWord) (s : State) : Res State :=
  .next (s.streamIssue t w 0x42 fun l _ d =>
    let mc := mcOf t
    let src : SRange := ⟨d.srcSpace, d.srcAddr, d.length, false, 1⟩
    let dst : SRange := ⟨d.dstSpace, d.dstAddr, d.length, true, 1⟩
    match (if d.codesBad false || d.srcSpace = 2 || d.dstSpace = 2 then some (St.eStreamDesc, none) else s.rangeCheck l [src, dst]) with
    | some f => s.streamFail t l f
    | none =>
      match s.streamRead l mc src with
      | (s, .error c) => s.threadFault t c
      | (s, .ok bs) =>
        match s.streamWrite l mc dst bs with
        | (s, .error c) => s.threadFault t c
        | (s, .ok _) => s.streamWait t none 0)

/-- ATX moves a tile between the accumulator file and an Erg range (R91 to R94, R507). A set MASK_EN has its mask range checked (R508) and masks no entry of the tile; the spec says only of SMOVE that it ignores the mask (DESIGN CHOICE, log entry 88). -/
def execAtx (t : ThreadId) (w : IWord) (s : State) : Res State :=
  .next (s.streamIssue t w 0x43 fun l w d =>
    let mc := mcOf t
    let form := bits w.immN 0 3
    let store := bitAt w.immN 3
    let tile := bits w.immN 4 3
    let size := match form with | 1 => 4 | 2 => 2 | 3 => 4 | _ => 1
    let r : SRange := if store then ⟨d.dstSpace, d.dstAddr, formBytes form, true, size⟩ else ⟨d.srcSpace, d.srcAddr, formBytes form, false, size⟩
    match (if d.maskBad l then some (St.eLocalRange, none)
           else if d.shapeBad || (form ≠ 4 && r.space ≠ 1) then some (St.eStreamDesc, none)
           else if form = 4 then none else s.rangeCheck l [r]) with
    | some f => s.streamFail t l f
    | none =>
      if bitAt (s.mc mc).tiles.toNat tile then s
      else if store && (s.mc mc).bad 0 (4096 * tile) 4096 then s.localStop t l 0
      else if store then
        let es := ((s.mc mc).acc.getList {} (4096 * tile) 4096).map (formStore form)
        match s.streamWrite l mc r (es.flatMap (·.1)) with
        | (s, .error c) => s.threadFault t c
        | (s, .ok _) =>
          let s := s.addSheet l.hdr fun sh => es.foldl (fun sh e => (sh.addEv e.2.1).addAmax e.2.2) sh
          s.streamWait t none 0
      else
        match (if form = 4 then (s, .ok []) else s.streamRead l mc r) with
        | (s, .error c) => s.threadFault t c
        | (s, .ok bs) =>
          (s.updMc mc fun m => ({ m with acc := m.acc.putList {} (4096 * tile) (formLoad form bs) } : MCore).mend 0 (4096 * tile) 4096).streamWait t none 0)

end Sys2Proof.Machine
end

