-- ==== Sys2Proof/Machine/TableEngine.lean ====
section
/-! DEFINITION. The table engines (R265 to R274): the checks of a request, its five operations, and its completion. -/

namespace Sys2Proof.Machine

/-- A request descriptor from its 64 bytes (R266). -/
def TeReq.parse (bs : List Byte) : TeReq :=
  let v := leNat bs
  { op := BitVec.ofNat 4 v, type := BitVec.ofNat 4 (bits v 4 4), shape := BitVec.ofNat 3 (bits v 8 3), srcSpace := BitVec.ofNat 2 (bits v 11 2)
    dstSpace := bitAt v 13, poolOp := BitVec.ofNat 2 (bits v 14 2), accDst := bitAt v 16, cont := bitAt v 17, finish := bitAt v 18
    order := bitAt v 19, post := bitAt v 20, sem := BitVec.ofNat 8 (bits v 24 8), rowElems := BitVec.ofNat 16 (bits v 32 16)
    kM1 := BitVec.ofNat 10 (bits v 48 10), tableAddr := BitVec.ofNat 48 (bits v 64 48), indexAddr := BitVec.ofNat 48 (bits v 128 48)
    dataAddr := BitVec.ofNat 48 (bits v 192 48), auxAddr := BitVec.ofNat 48 (bits v 256 48), weightAddr := BitVec.ofNat 48 (bits v 320 48)
    tableRows := BitVec.ofNat 32 (bits v 384 32), count := BitVec.ofNat 32 (bits v 416 32), indexBase := BitVec.ofNat 32 (bits v 448 32)
    scale := BitVec.ofNat 32 (bits v 480 32)
    rsvBits := bits v 21 3 + bits v 58 6 + bits v 112 16 + bits v 176 16 + bits v 240 16 + bits v 304 16 + bits v 368 16 }

end Sys2Proof.Machine

namespace Sys2Proof.TeReq
open Sys2Proof.Machine
variable (r : TeReq)

def ty : Ty := (Ty.ofCode r.type.toNat).getD .int8

/-- The conditions of R267. -/
def check : Option Status :=
  let op := r.op.toNat
  let blk := (blockDims r.shape.toNat).2
  if op > 4 || r.srcSpace = 3 || r.rsvBits ≠ 0 then some St.eTeDesc
  else if r.type.toNat > 9 || r.shape.toNat > 1 || (op ≥ 2 && r.type ≠ 8) || (r.srcSpace = 2 && r.type ≠ 8) then some St.eTeDesc
  else if r.rowElems = 0 || (r.ty.isShort && r.rowElems.toNat % blk ≠ 0) || r.count = 0 || r.count.toNat > 65536 then some St.eTeDesc
  else if op = 4 && r.indexBase.toNat % 64 ≠ 0 then some St.eTeDesc
  else if r.tableAddr = 0 || (op ≤ 2 && (r.indexAddr = 0 || r.dataAddr = 0)) || ((op = 1 || op ≥ 3) && r.auxAddr = 0) ||
    (op = 1 && r.poolOp = 3 && r.weightAddr = 0) then some St.eTeDesc
  else none

/-- Bytes of a table row, elements and scales (R266). -/
def stride : Nat :=
  elemBytes r.ty r.shape.toNat 1 r.rowElems.toNat + scaleBytes r.ty r.shape.toNat 1 r.rowElems.toNat

/-- The values of a table row's bytes. -/
def rowValues (bs : List Byte) : List XVal :=
  let n := r.rowElems.toNat
  let sc := bs.drop (elemBytes r.ty r.shape.toNat 1 n)
  (List.range n).map fun c => memValue r.ty (codeAt r.ty r.shape.toNat n bs 0 c) (scaleAt r.ty r.shape.toNat n sc 0 c)

end Sys2Proof.TeReq

namespace Sys2Proof.Machine

/-! ## Where a request reaches -/

/-- The command of a request. -/
def TeWork.hdr (w : TeWork) : Hdr := { ptn := w.ptn, queue := w.queue, seq := w.seq }

/-- The issuing core: the thread's. -/
def TeWork.mc (w : TeWork) : Nat := match w.thread with | some t => t.1 / 256 | none => 0

/-- The saved image of the issuing core, when its job is stopped (R273). -/
def State.savedOf (s : State) (w : TeWork) : Option SavedCore := (s.job w.ptn w.queue).saved.find? (·.mc = w.mc)

def State.updSaved (s : State) (w : TeWork) (f : SavedCore → SavedCore) : State :=
  s.updJob w.ptn w.queue fun j => { j with saved := updFirst (fun c => c.mc = w.mc) f j.saved }

/-- Changes the issuing thread, in its core or in its save area. -/
def State.updThread (s : State) (w : TeWork) (t : Nat) (f : Thread → Thread) : State :=
  match s.savedOf w with
  | some _ => s.updSaved w fun c => { c with ths := c.ths.upd {} (t % 256) f }
  | none => s.updTh t f

/-- The range lies in the launch's region. -/
def State.teOcOk (s : State) (w : TeWork) (a n : Nat) (write : Bool) : Bool :=
  match w.thread.bind fun t => s.launch? t.2 with
  | some l => l.ocOk a n write
  | none => false

/-- Reads bytes in a space: 0 the partition, 1 the issuing core's operand cache, 2 its accumulator file's SUM fields. -/
def State.teRead (s : State) (te : Nat) (w : TeWork) (space a n : Nat) : Acc (List Byte) :=
  match space with
  | 0 => s.pRead w.ptn (Who.te te) a n
  | 1 =>
    if !s.teOcOk w a n false then (s, .error St.eLocalRange)
    else if (s.savedOf w).isNone && (s.mc w.mc).bad 1 (a / 8) ((a + n + 7) / 8 - a / 8) then (s.noteLocal w.ptn w.mc 1, .error St.eMemUncorr)
    else (s, .ok (((match s.savedOf w with | some c => c.oc | none => (s.mc w.mc).oc) : Tab Byte).getList 0 a n))
  | _ =>
    if n > 0 && a + n / 4 > 32768 then (s, .error St.eLocalRange)
    else if (s.savedOf w).isNone && (s.mc w.mc).bad 0 a (n / 4) then (s.noteLocal w.ptn w.mc 0, .error St.eMemUncorr)
    else (s, .ok ((((match s.savedOf w with | some c => c.acc | none => (s.mc w.mc).acc) : Tab Entry).getList {} a (n / 4)).flatMap fun e => leBytes 4 e.sum.toNat))

def State.teWrite (s : State) (te : Nat) (w : TeWork) (space a : Nat) (bs : List Byte) : Acc Unit :=
  match space with
  | 0 => s.pWrite w.ptn (Who.te te) a bs
  | 1 =>
    if !s.teOcOk w a bs.length true then (s, .error St.eLocalRange)
    else (match s.savedOf w with
      | some _ => s.updSaved w fun c => { c with oc := c.oc.putList 0 a bs }
      | none => s.updMc w.mc fun m => m.ocWrite a bs, .ok ())
  | _ =>
    let es := (chunks 4 bs.length bs).map fun b => Entry.loaded (leNat b) 0
    if bs ≠ [] && a + es.length > 32768 then (s, .error St.eLocalRange)
    else (match s.savedOf w with
      | some _ => s.updSaved w fun c => { c with acc := c.acc.putList {} a es }
      | none => s.updMc w.mc fun m => ({ m with acc := m.acc.putList {} a es } : MCore).mend 0 a es.length, .ok ())

/-- A sheet with what another one counted. -/
def Sheet.plus (x e : Sheet) : Sheet :=
  { x.addEv ⟨e.sat.toNat, e.flush.toNat, e.ovf.toNat, e.nan.toNat, e.amax.toNat⟩ with empty := x.empty || e.empty }

/-- What a request has counted goes to the sheet of the command that issued it (R270). -/
def State.teCount (s : State) (w : TeWork) (e : Sheet) : State := s.addSheet w.hdr fun x => x.plus e

/-- Carries out n steps in order, up to the first that fails; what they count adds up, and what the steps before a failure counted stands (R270). -/
def teLoop (w : TeWork) (f : Nat → State → Acc Sheet) : Nat → Nat → State → Sheet → Acc Sheet
  | 0, _, s, sh => (s, .ok sh)
  | n + 1, i, s, sh =>
    match f i s with
    | (s, .error c) => (s.teCount w sh, .error c)
    | (s, .ok e) => teLoop w f n (i + 1) s (sh.plus e)

def evSheet (e : Ev) (empty : Bool := false) : Sheet := { ({} : Sheet).addEv e with empty := empty }

/-- The i-th row index of a request; E_INDEX at TABLE_ROWS or above (R274). -/
def State.teIndex (s : State) (te : Nat) (w : TeWork) (i : Nat) : Acc Nat :=
  match s.pRead w.ptn (Who.te te) (w.req.indexAddr.toNat + 4 * i) 4 with
  | (s, .error c) => (s, .error c)
  | (s, .ok bs) => if leNat bs ≥ w.req.tableRows.toNat then (s, .error St.eIndex) else (s, .ok (leNat bs))

/-- Address of table row idx: bytes, or entries in the accumulator file. -/
def TeWork.rowAddr (w : TeWork) (idx : Nat) : Nat :=
  w.req.tableAddr.toNat + idx * (if w.req.srcSpace = 2 then w.req.rowElems.toNat else w.req.stride)

def State.teRow (s : State) (te : Nat) (w : TeWork) (idx : Nat) : Acc (List Byte) :=
  s.teRead te w w.req.srcSpace.toNat (w.rowAddr idx) w.req.stride

/-! ## The operations (R268, R269) -/

def State.gatherRow (s : State) (te : Nat) (w : TeWork) (i : Nat) : Acc Sheet :=
  match s.teIndex te w i with
  | (s, .error c) => (s, .error c)
  | (s, .ok idx) =>
    match s.teRow te w idx with
    | (s, .error c) => (s, .error c)
    | (s, .ok bs) =>
      match s.teWrite te w (b2n w.req.dstSpace) (w.req.dataAddr.toNat + i * w.req.stride) bs with
      | (s, .error c) => (s, .error c)
      | (s, .ok _) => (s, .ok {})

/-- Reads the rows of a bag with their weights, in ascending position. -/
def State.bagRows (s : State) (te : Nat) (w : TeWork) : Nat → Nat → Acc (List (List XVal × XVal))
  | 0, _ => (s, .ok [])
  | n + 1, i =>
    match s.teIndex te w i with
    | (s, .error c) => (s, .error c)
    | (s, .ok idx) =>
      match s.teRow te w idx with
      | (s, .error c) => (s, .error c)
      | (s, .ok bs) =>
        match (if w.req.poolOp = 3 then s.pRead w.ptn (Who.te te) (w.req.weightAddr.toNat + 4 * i) 4 else (s, .ok [])) with
        | (s, .error c) => (s, .error c)
        | (s, .ok wt) =>
          match s.bagRows te w n (i + 1) with
          | (s, .error c) => (s, .error c)
          | (s, .ok r) => (s, .ok ((w.req.rowValues bs, if w.req.poolOp = 3 then b32.decode (leNat wt) else .one) :: r))

/-- One element of a pooled row (R268). -/
def poolElem (op : Nat) (vs : List (XVal × XVal)) : Nat × Ev :=
  match op with
  | 2 => let v := vs.foldl (fun a v => a.maxNum v.1) .nan; noted v (b32.round v)
  | _ =>
    let e := Entry.fold {} (vs.map fun v => if op = 3 then v.1.mul v.2 else v.1)
    if op = 1 then let q := b32.fdiv e.1.sum.toNat (b32.round (XVal.ofNat vs.length)).1; (q.1, e.2.add q.2)
    else (e.1.sum.toNat, e.2)

/-- An empty bag's element (R100, R268). -/
def poolEmpty (op : Nat) : Nat := match op with | 1 => b32.qnan | 2 => negInf | _ => 0

def State.poolBag (s : State) (te : Nat) (w : TeWork) (b : Nat) : Acc Sheet :=
  match s.pRead w.ptn (Who.te te) (w.req.auxAddr.toNat + 4 * b) 8 with
  | (s, .error c) => (s, .error c)
  | (s, .ok off) =>
    let o0 := leNat (off.take 4); let o1 := leNat (off.drop 4)
    if o1 < o0 then (s, .error St.eTeDesc)
    else
      match s.bagRows te w (o1 - o0) o0 with
      | (s, .error c) => (s, .error c)
      | (s, .ok rows) =>
        let op := w.req.poolOp.toNat
        let n := w.req.rowElems.toNat
        let out := (List.range n).map fun c =>
          if rows = [] then (poolEmpty op, ({} : Ev)) else poolElem op (rows.map fun r => (r.1.getD c .nan, r.2))
        let sh := evSheet (out.foldl (fun a o => a.add o.2) {}) (rows = [])
        match s.teWrite te w (b2n w.req.dstSpace) (w.req.dataAddr.toNat + b * (4 * n)) (out.flatMap fun o => leBytes 4 o.1) with
        | (s, .error c) => (s.teCount w sh, .error c)
        | (s, .ok _) => (s, .ok sh)

/-- Adds an input row into a table row: FADD into binary32, or promote() into ACC48 entries (R268). The row is checked as written before any of it is read (R275). -/
def State.scatterRow (s : State) (te : Nat) (w : TeWork) (i : Nat) : Acc Sheet :=
  match s.teIndex te w i with
  | (s, .error c) => (s, .error c)
  | (s, .ok idx) =>
    let n := w.req.rowElems.toNat
    match s.pRead w.ptn (Who.te te) (w.req.dataAddr.toNat + i * (4 * n)) (4 * n) with
    | (s, .error c) => (s, .error c)
    | (s, .ok inp) =>
      let xs := (chunks 4 n inp).map leNat
      if w.req.srcSpace = 2 then
        let a := w.req.tableAddr.toNat + idx * n
        if a + n > 32768 then (s, .error St.eLocalRange)
        else if (s.savedOf w).isNone && (s.mc w.mc).bad 0 a n then (s.noteLocal w.ptn w.mc 0, .error St.eMemUncorr)
        else
          let es := ((match s.savedOf w with | some c => c.acc | none => (s.mc w.mc).acc) : Tab Entry).getList {} a n
          let r := (es.zip xs).map fun e =>
            if w.req.accDst then e.1.promote (b32.decode e.2) else let f := b32.fadd e.1.sum.toNat e.2; (Entry.loaded f.1 0, f.2)
          let s := match s.savedOf w with
            | some _ => s.updSaved w fun c => { c with acc := c.acc.putList {} a (r.map (·.1)) }
            | none => s.updMc w.mc fun m => { m with acc := m.acc.putList {} a (r.map (·.1)) }
          (s, .ok (evSheet (r.foldl (fun a e => a.add e.2) {})))
      else
        let k := if w.req.accDst then 6 else 4
        let a := w.req.tableAddr.toNat + idx * (k * n)
        match (if w.req.srcSpace = 0 then (s.ptn w.ptn).check a (k * n) true else none) with
        | some v => (s.violate w.ptn (Who.te te) a true v, .error St.eAccess)
        | none =>
        match s.teRead te w w.req.srcSpace.toNat a (k * n) with
        | (s, .error c) => (s, .error c)
        | (s, .ok row) =>
          let r := ((chunks k n row).zip xs).map fun e =>
            if w.req.accDst then let p := (Entry.ofAcc48 e.1).promote (b32.decode e.2); (p.1.acc48, p.2)
            else let f := b32.fadd (leNat e.1) e.2; (leBytes 4 f.1, f.2)
          match s.teWrite te w w.req.srcSpace.toNat a (r.flatMap (·.1)) with
          | (s, .error c) => (s, .error c)
          | (s, .ok _) => (s, .ok (evSheet (r.foldl (fun a e => a.add e.2) {})))

/-- The input vector of TOPK and LSE, as patterns. -/
def State.teVector (s : State) (te : Nat) (w : TeWork) : Acc (List Nat) :=
  match s.teRead te w w.req.srcSpace.toNat w.req.tableAddr.toNat (4 * w.req.count.toNat) with
  | (s, .error c) => (s, .error c)
  | (s, .ok bs) => (s, .ok ((chunks 4 w.req.count.toNat bs).map leNat))

def pairsBytes (l : List (Nat × Nat)) : List Byte := l.flatMap fun e => leBytes 4 e.1 ++ leBytes 4 e.2

def State.topkAll (s : State) (te : Nat) (w : TeWork) : Acc Sheet :=
  let k := w.req.kM1.toNat + 1
  let aux := w.req.auxAddr.toNat
  match (if w.req.cont then s.pRead w.ptn (Who.te te) aux (8 + 8 * k) else (s, .ok [])) with
  | (s, .error c) => (s, .error c)
  | (s, .ok st) =>
    match s.teVector te w with
    | (s, .error c) => (s, .error c)
    | (s, .ok xs) =>
      let old := ((chunks 8 k (st.drop 8)).take (leNat (st.take 4))).map fun b => (leNat (b.take 4), leNat (b.drop 4))
      let kept := (xs.mapIdx fun e x => (x, (w.req.indexBase.toNat + e) % 2 ^ 32)).foldl (topkAdd k) old
      let out := if w.req.finish && w.req.order then byIndex kept else kept
      match s.pWrite w.ptn (Who.te te) aux (leBytes 4 kept.length ++ leBytes 4 0 ++ pairsBytes out) with
      | (s, .error c) => (s, .error c)
      | (s, .ok _) => (s, .ok {})

def State.lseAllReq (s : State) (te : Nat) (w : TeWork) : Acc Sheet :=
  let aux := w.req.auxAddr.toNat
  match (if w.req.cont then s.pRead w.ptn (Who.te te) aux 16 else (s, .ok [])) with
  | (s, .error c) => (s, .error c)
  | (s, .ok st) =>
    match s.teVector te w with
    | (s, .error c) => (s, .error c)
    | (s, .ok xs) =>
      let st0 : FoldSt := if w.req.cont then ⟨leNat (st.take 4), Entry.ofAcc48 ((st.drop 4).take 6)⟩ else {}
      let r := (do
        let ys ← scaled w.req.scale.toNat xs
        let f ← (chunks 64 ys.length ys).foldlM foldTile st0
        let l ← if w.req.finish then f.lse else pure 0
        pure (f, l) : Ct (FoldSt × Nat)) {}
      let f := r.1.1
      let bytes := leBytes 4 f.k ++ f.z.acc48 ++ leBytes 2 0 ++ (if w.req.finish then leBytes 4 r.1.2 else [])
      match s.pWrite w.ptn (Who.te te) aux bytes with
      | (s, .error c) => (s.teCount w (evSheet r.2), .error c)
      | (s, .ok _) => (s, .ok (evSheet r.2))

/-! ## The rows -/

/-- Marks the k-th request done, or failed with a code; its counts go to the command's sheet (R270), and the engine computed its items (R425). -/
def State.teDone (s : State) (te k : Nat) (w : TeWork) (r : Acc Sheet) : State :=
  let s := r.1
  let mark := fun (f : Option Status) (z : State) =>
    z.updTe te fun e => { e with reqs := updNth (fun x => { x with done := true, failed := f }) e.reqs k }
  match r.2 with
  | .error c => mark (some c) s
  | .ok sh =>
    let s := mark none s
    let s := s.teCount w sh
    match s.cmdOf w.hdr with
    | some c => s.addUnits w.hdr (if w.thread.isSome then List.range c.items.length else [w.item]) [256 + te]
    | none => s

/-- Earlier SCATTER_ADD requests of the same thread on this engine are applied first (R271). -/
def TEng.scatterFirst (e : TEng) (k : Nat) (w : TeWork) : Bool :=
  w.req.op = 2 && w.thread.isSome && (e.reqs.take k).any fun x => x.req.op = 2 && !x.done && decide (x.thread = w.thread)

/-- An entry range in the accumulator file that a request of a thread of core n, not yet carried out, reads or writes (R266). -/
def TeWork.accRange (w : TeWork) : Nat × Nat :=
  (w.req.tableAddr.toNat, if w.req.op.toNat ≥ 3 then w.req.count.toNat else w.req.tableRows.toNat * w.req.rowElems.toNat)

/-- Entries that overlap a set of accumulator tiles. -/
def onTiles (e : Nat × Nat) (tiles : BitVec 8) : Bool := (setBits tiles.toNat 8).any fun t => decide (e.1 < 4096 * (t + 1)) && decide (4096 * t < e.1 + e.2)

/-- Entries of the issuing core's accumulator file that the request reaches stand in a tile that a run holds (R79); a stopped job's file is its saved image (R273). -/
def State.teHeld (s : State) (w : TeWork) : Bool := w.req.srcSpace = 2 && (s.savedOf w).isNone && onTiles w.accRange (s.mc w.mc).tiles

/-- A request of another job that the engine took before is still there: it completes first (R273). -/
def TEng.otherFirst (e : TEng) (k : Nat) (w : TeWork) : Bool :=
  (e.reqs.take k).any fun x => decide (x.ptn ≠ w.ptn) || decide (x.queue ≠ w.queue)

/-- The engine works on at most 64 of its requests at once (R265). -/
def TEng.busy (e : TEng) (k : Nat) : Bool := decide (64 ≤ ((e.reqs.take k).filter fun x => !x.done).length)

/-- Row indices at positions i to i + n - 1, as far as they can be read and name rows of the table. -/
def State.teIndices (s : State) (te : Nat) (w : TeWork) (i n : Nat) : List Nat :=
  match (s.pRead w.ptn (Who.te te) (w.req.indexAddr.toNat + 4 * i) (4 * n)).2 with
  | .ok bs => ((chunks 4 n bs).map leNat).takeWhile (· < w.req.tableRows.toNat)
  | .error _ => []

/-- The spans of partition addresses that the request reads and writes (R266, R268). -/
def State.teSpans (s : State) (te : Nat) (w : TeWork) : List (Nat × Nat) :=
  let r := w.req
  let n := r.count.toNat
  let rows := fun i m k => if r.srcSpace = 0 then (s.teIndices te w i m).map fun x => (w.rowAddr x, k) else []
  match r.op.toNat with
  | 0 => [(r.indexAddr.toNat, 4 * n)] ++ rows 0 n r.stride ++ (if r.dstSpace then [] else [(r.dataAddr.toNat, n * r.stride)])
  | 1 =>
    let off := match (s.pRead w.ptn (Who.te te) r.auxAddr.toNat (4 * (n + 1))).2 with
      | .ok bs => (chunks 4 (n + 1) bs).map leNat
      | .error _ => []
    let lo := off.headD 0
    let m := off.getLastD 0 - lo
    [(r.auxAddr.toNat, 4 * (n + 1)), (r.indexAddr.toNat + 4 * lo, 4 * m)] ++ rows lo m r.stride ++
      (if r.poolOp = 3 then [(r.weightAddr.toNat + 4 * lo, 4 * m)] else []) ++ (if r.dstSpace then [] else [(r.dataAddr.toNat, n * (4 * r.rowElems.toNat))])
  | 2 =>
    let k := (if r.accDst then 6 else 4) * r.rowElems.toNat
    [(r.indexAddr.toNat, 4 * n), (r.dataAddr.toNat, n * (4 * r.rowElems.toNat))] ++
      (if r.srcSpace = 0 then (s.teIndices te w 0 n).map fun x => (r.tableAddr.toNat + x * k, k) else [])
  | 3 => [(r.auxAddr.toNat, 8 + 8 * (r.kM1.toNat + 1))] ++ (if r.srcSpace = 0 then [(r.tableAddr.toNat, 4 * n)] else [])
  | _ => [(r.auxAddr.toNat, if r.finish then 16 else 12)] ++ (if r.srcSpace = 0 then [(r.tableAddr.toNat, 4 * n)] else [])

/-- The request waits: for an accumulator tile, or for a slot to serve one of its accesses (R79, R510). The whole request waits where one access would (DESIGN CHOICE, log entry 70). -/
def State.teWaits (s : State) (te : Nat) (w : TeWork) : Bool :=
  s.teHeld w || (s.starved w.ptn && (s.teSpans te w).any fun e => s.noSlot w.ptn e.1 e.2)

/-- The k-th request of an engine, when it is of the given operation and its turn has come (R265, R268, R271, R273). -/
def State.teTurn (s : State) (te k op : Nat) : Option TeWork :=
  match (s.te te).reqs[k]? with
  | some w =>
    let e := s.te te
    if w.done || decide (w.req.op.toNat ≠ op) || e.scatterFirst k w || e.otherFirst k w || e.busy k || e.strip.active || s.teWaits te w then none else some w
  | none => none

/-- Runs the k-th request of an engine if it is of the given operation and its turn has come. -/
def State.teExec (s : State) (te k op : Nat) (f : TeWork → Acc Sheet) : State :=
  match s.teTurn te k op with
  | some w => s.teDone te k w (f w)
  | none => s

def execGather (te : TeId) (k : Nat) (s : State) : Res State :=
  .next (s.teExec te.val k 0 fun w => teLoop w (fun i s => s.gatherRow te.val w i) w.req.count.toNat 0 s {})

def execPool (te : TeId) (k : Nat) (s : State) : Res State :=
  .next (s.teExec te.val k 1 fun w => teLoop w (fun i s => s.poolBag te.val w i) w.req.count.toNat 0 s {})

def execScatterAdd (te : TeId) (k : Nat) (s : State) : Res State :=
  .next (s.teExec te.val k 2 fun w => teLoop w (fun i s => s.scatterRow te.val w i) w.req.count.toNat 0 s {})

def execTopk (te : TeId) (k : Nat) (s : State) : Res State := .next (s.teExec te.val k 3 fun w => s.topkAll te.val w)

def execLse (te : TeId) (k : Nat) (s : State) : Res State := .next (s.teExec te.val k 4 fun w => s.lseAllReq te.val w)

/-- A request completes: it leaves the engine, posts its semaphore, and its thread or item learns of it (R265, R274); a thread of a later launch does not. Its engine time is charged to a job that has been stopped, in an amount that no row tells (R273, R294; DESIGN CHOICE, log entry 13). -/
def execTeRequestComplete (te : TeId) (k : Nat) (s : State) : Res State :=
  .next (match (s.te te.val).reqs[k]? with
    | none => s
    | some w =>
      if !w.done then s
      else
        let s := s.updTe te.val fun e => { e with reqs := e.reqs.eraseIdx k }
        let s := if (s.job w.ptn w.queue).st = .stopped then
            ({ s with fresh := s.fresh + 1 } : State).updPtn w.ptn fun x => x.chargeMc w.queue (x.runs? w.queue) (Config.free s.fresh 0)
          else s
        let s := match w.failed with
          | none => if w.req.post then s.semPost w.ptn w.queue (Fin.ofNat 256 w.req.sem.toNat) else s
          | some _ => s
        match w.thread with
        | some (t, l) =>
          let s := s.updThread w t fun x =>
            if x.launch ≠ l then x else
            let n := x.teOut - 1
            { x with teOut := n, wait := match x.wait with | .te m => if n ≤ m then .none else x.wait | y => y }
          match w.failed with | some c => s.failLaunch l c | none => s
        | none => (s.closeItem w.hdr w.item w.failed).settle w.hdr)

/-- The engine a TEREQ reaches: the one named, or the other of its core group if it is retired (R424). -/
def State.teFor (s : State) (mc bit : Nat) : Option Nat :=
  let a := 2 * (mc / 8) + bit
  let b := 2 * (mc / 8) + (1 - bit)
  if !s.teRetired a then some a else if !s.teRetired b then some b else none

/-- TEREQ submits the descriptor at G[A] (R265, R267); a full engine, or 64 requests outstanding, stalls the thread. -/
def execTereq (t : ThreadId) (w : IWord) (s : State) : Res State :=
  .next (s.issue t w 0x44 regsA fun l w =>
    let x := s.th t.val
    if !x.pred w.pred.toNat then s.nextPc t
    else
      let a := (x.get w.a).toNat
      match s.teFor (mcOf t) (w.immN % 2) with
      | none => s.threadFault t St.eHwFault
      | some n =>
        if !l.ocOk a 64 false then s.threadFault t St.eLocalRange
        else if x.teOut ≥ 64 || (s.te n).reqs.length ≥ 4096 then s
        else
          if (s.mc (mcOf t)).bad 1 (a / 8) ((a + 71) / 8 - a / 8) then s.localStop t l 1
          else
          let r := TeReq.parse ((s.mc (mcOf t)).ocRead a 64)
          match r.check with
          | some c => s.threadFault t c
          | none =>
            (s.updTe n fun e => { e with reqs := e.reqs ++ [{ req := r, ptn := l.ptn, queue := l.queue, seq := l.seq, thread := some (t.val, l.id) }] }).updTh
              t.val fun x => { x.next with teOut := x.teOut + 1 })

end Sys2Proof.Machine
end

