-- ==== Sys2Proof/Machine/Packet.lean ====
section
/-! DEFINITION. Command packets: the header, the opcode table, and the parameter blocks with their static checks (R315 to R318, R325 to R332, and the blocks of the other chapters). -/

namespace Sys2Proof.Machine

/-! ## Header (R315) -/

def Hdr.parse (b : List Byte) (port : UpId) : Hdr :=
  let v := fld b 0 32
  { ptn := Fin.ofNat 32 (bits v 8 5), queue := Fin.ofNat 8 (bits v 13 3), seq := BitVec.ofNat 32 (bits v 32 32), port := port,
    expert := bitAt v 96, nopreempt := bitAt v 97, replyPort := BitVec.ofNat 2 (bits v 98 2), fence := bitAt v 100, steward := bitAt v 101,
    tag := BitVec.ofNat 32 (fld b 32 4), target := Fin.ofNat 32 (fld b 36 1 % 32) }

/-! ## Descriptors in parameter blocks -/

def Endpoint.parse (v : Nat) : Endpoint :=
  { node := BitVec.ofNat 13 (bits v 0 13), kind := BitVec.ofNat 8 (bits v 16 8), ptn := BitVec.ofNat 5 (bits v 24 5), enc := bitAt v 29,
    keyId := BitVec.ofNat 8 (bits v 32 8), object := BitVec.ofNat 64 (bits v 64 64), rsvBits := bits v 13 3 + bits v 30 2 + bits v 40 24 }

/-- R363; NODE 0x1FFF only where a role is removed (R406). -/
def endpointBad (e : Endpoint) (none' : Bool) : Bool :=
  e.rsvBits ≠ 0 || !(e.kind = 1 || e.kind = 2) || e.keyId.toNat > 15 || (e.node = 0x1FFF && !none')

def ContactDesc.parse (v : Nat) : ContactDesc :=
  { family := BitVec.ofNat 2 (bits v 0 2), rankLoss := BitVec.ofNat 2 (bits v 2 2), pointKind := bitAt v 4, tsrc := bitAt v 5, storeOut := bitAt v 6,
    storeTargets := bitAt v 7, taps := BitVec.ofNat 4 (bits v 8 4), kM1 := BitVec.ofNat 10 (bits v 12 10), temp := BitVec.ofNat 32 (bits v 32 32),
    klWeight := BitVec.ofNat 32 (bits v 64 32), vocab := BitVec.ofNat 32 (bits v 96 32), tokens := BitVec.ofNat 32 (bits v 128 32),
    lanes := BitVec.ofNat 16 (bits v 160 16), tapRows := BitVec.ofNat 16 (bits v 176 16), targetAddr := BitVec.ofNat 48 (bits v 192 48),
    maskAddr := BitVec.ofNat 48 (bits v 256 48), outAddr := BitVec.ofNat 48 (bits v 320 48), tableAddr := BitVec.ofNat 48 (bits v 384 48),
    rsvBits := bits v 22 10 + bits v 240 16 + bits v 304 16 + bits v 368 16 + bits v 432 80 }

/-- Binary32 w lies in [lo, hi], all finite. -/
def inRange (w lo hi : Nat) : Bool :=
  let x := b32.decode w
  !x.isNan && !x.isInf && !x.lt (b32.decode lo) && !(b32.decode hi).lt x

/-- The conditions of R146. -/
def contactBad (d : ContactDesc) : Bool :=
  d.family = 3 || d.rankLoss = 3 || d.rsvBits ≠ 0 ||
  (d.family ≠ 2 && d.rankLoss ≠ 0) || (d.pointKind && d.family ≠ 2) || (d.tsrc && d.family ≠ 1) ||
  !inRange d.temp.toNat 0x3E000000 0x42000000 || !inRange d.klWeight.toNat 0 0x47800000 ||
  (if d.family = 2 then d.vocab = 0 else d.vocab.toNat < 2 || d.vocab.toNat > 2 ^ 24) ||
  d.tokens = 0 || d.tokens.toNat > 2 ^ 20 || d.taps.toNat > 8 ||
  (d.taps ≠ 0 && (d.tapRows.toNat % 64 ≠ 0 || d.tapRows = 0)) ||
  ((d.tsrc || (d.storeTargets && d.family = 1)) && d.targetAddr = 0) || (d.storeOut && d.outAddr = 0) || ((d.family = 2 || d.taps ≠ 0) && d.tableAddr = 0)

def Opt.parse (b : List Byte) (o : Nat) : Opt :=
  let w := fun i => BitVec.ofNat 32 (fld b (o + 4 * i) 4)
  ⟨w 0, w 1, w 2, w 3, w 4, w 5, w 6, w 7⟩

/-- Immediates not finite, or B1, C1, B2, C2 outside 0 to 1 (R196). -/
def optBad (o : Opt) : Bool :=
  ([o.gradScale, o.eps, o.lrT, o.wd].any fun w => !isFin w.toNat) || [o.b1, o.c1, o.b2, o.c2].any fun w => !inRange w.toNat 0 0x3F800000

def GenReq.parse (v : Nat) : GenReq :=
  { model := BitVec.ofNat 16 (bits v 0 16), draft := BitVec.ofNat 16 (bits v 16 16), fallback := BitVec.ofNat 16 (bits v 32 16), sample := bitAt v 48,
    customerTag := BitVec.ofNat 32 (bits v 64 32), temp := BitVec.ofNat 32 (bits v 96 32), seed := BitVec.ofNat 64 (bits v 128 64),
    maxTokens := BitVec.ofNat 32 (bits v 192 32), deadlineUs := BitVec.ofNat 32 (bits v 224 32), promptAddr := BitVec.ofNat 48 (bits v 256 48),
    promptLen := BitVec.ofNat 32 (bits v 320 32), stopToken := BitVec.ofNat 32 (bits v 352 32), rsvBits := bits v 49 15 + bits v 304 16 + bits v 384 128 }

def Token.parse (b : List Byte) (o : Nat) : Token :=
  { magic := BitVec.ofNat 32 (fld b o 4), scope := BitVec.ofNat 32 (fld b (o + 4) 4), ueid := (b.drop (o + 8)).take 16,
    challenge := (b.drop (o + 24)).take 32, ptnMask := BitVec.ofNat 32 (fld b (o + 56) 4), durationS := BitVec.ofNat 32 (fld b (o + 60) 4),
    sig := (b.drop (o + 64)).take 64 }

/-- The first 64 bytes of a token, which its signature covers (R461). -/
def Token.signed (t : Token) : List Byte :=
  leBytes 4 t.magic.toNat ++ leBytes 4 t.scope.toNat ++ t.ueid ++ t.challenge ++ leBytes 4 t.ptnMask.toNat ++ leBytes 4 t.durationS.toNat

/-! ## Parameter blocks -/

/-- The bytes from 8 to the end that no listed field covers are zero; `used` lists offset and length (R317, R326). -/
def reservedZero (b : List Byte) (used : List (Nat × Nat)) : Bool :=
  b.zipIdx.all fun e => e.2 < 8 || e.1 = 0 || used.any fun u => decide (u.1 ≤ e.2) && decide (e.2 < u.1 + u.2)

/-- A block of at least n bytes whose only used fields are those listed, answering `i` when `ok` holds. -/
def block (b : List Byte) (n : Nat) (used : List (Nat × Nat)) (ok : Bool) (i : Instr) : Except Status Instr :=
  if b.length < n || !reservedZero b used || !ok then .error St.eParam else .ok i

/-- Register numbers, masks and such at an offset. -/
def w16 (b : List Byte) (o : Nat) : W16 := BitVec.ofNat 16 (fld b o 2)
def w32 (b : List Byte) (o : Nat) : W32 := BitVec.ofNat 32 (fld b o 4)
def w64 (b : List Byte) (o : Nat) : W64 := BitVec.ofNat 64 (fld b o 8)
def w8 (b : List Byte) (o : Nat) : Byte := BitVec.ofNat 8 (fld b o 1)

/-- The conditions of an expert-level block's own fields and descriptors (R331). -/
def progBlockCheck (x : ProgBlock) (contact opt : Bool) : Option Status :=
  if bits x.srStream.toNat 24 7 ≠ 0 || x.binds.length > 256 then some St.eParam
  else if opt && optBad x.opt then some St.eParam
  else if contact && contactBad x.contact then some St.eContactDesc
  else none

/-- The expert-level block of R331: with CONTACT and OPT at 24 and 88, or BIND at 24. -/
def progBlock (b : List Byte) (contact opt mb : Bool) (make : ProgBlock → Instr) : Except Status Instr :=
  let n := fld b 16 2
  let o := if contact then 120 else 24
  let sr := w32 b 12
  if b.length < o + 8 * n || !reservedZero b ([(8, 10), (o, 8 * n)] ++ (if mb then [(20, 4)] else []) ++ (if contact then [(24, 64)] else []) ++ (if opt then [(88, 32)] else []))
    || n > 256 then .error St.eParam
  else
    let x : ProgBlock :=
      { program := w16 b 8, entry := w16 b 10, srStream := sr, mbId := w32 b 20, contact := ContactDesc.parse (fld b 24 64),
        opt := Opt.parse b 88, binds := (List.range n).map fun i => w64 b (o + 8 * i) }
    match progBlockCheck x contact opt with
    | some c => .error c
    | none => .ok (make (if contact then x else { x with contact := {}, opt := {} }))

/-- The conditions of a basic-level block (R330), in the order of its fields. -/
def stepCheck (x : StepBlock) (eval : Bool) : Option Status :=
  if x.teacher = 0xFFFF && !(x.contact.family = 1 && x.contact.tsrc) then some St.eParam
  else if x.mbCount = 0 || x.mbCount.toNat > 256 || (eval && x.update) then some St.eParam
  else if x.mbTokens.toNat < 64 || x.mbTokens.toNat > 65536 || x.mbTokens.toNat % 64 ≠ 0 then some St.eParam
  else if x.update && optBad x.opt then some St.eParam
  else if contactBad x.contact then some St.eContactDesc
  else if x.contact.tokens.toNat ≠ x.mbCount.toNat * x.mbTokens.toNat then some St.eParam
  else none

/-- The basic-level block of R330. -/
def stepBlock (b : List Byte) (eval : Bool) (make : StepBlock → Instr) : Except Status Instr :=
  let fl := fld b 14 2
  let x : StepBlock :=
    { teacher := w16 b 8, student := w16 b 10, mbCount := w16 b 12, update := bitAt fl 0, adamw := bitAt fl 1, mbTokens := w32 b 16,
      group := w32 b 20, batchAddr := w64 b 24, contact := ContactDesc.parse (fld b 32 64), opt := Opt.parse b 96 }
  if b.length < 128 || !reservedZero b [(8, 120)] || fl > 3 then .error St.eParam
  else match stepCheck x eval with
    | some c => .error c
    | none => .ok (make x)

def parseGroup (b : List Byte) : GroupBlock × Nat :=
  let n := fld b 12 2
  let fl := fld b 26 2
  ({ group := w32 b 8, self := w16 b 14, epoch := w64 b 16, bucketLog2 := w8 b 24, pformat := fld b 25 1 = 1, thin := bitAt fl 0, feedback := bitAt fl 1,
     enc := bitAt fl 2, rank := w8 b 28, keyId := w8 b 29, timeoutMs := w16 b 30,
     members := (List.range n).map fun i => (BitVec.ofNat 13 (fld b (32 + 4 * i) 2), BitVec.ofNat 5 (fld b (34 + 4 * i) 1)) }, n)

/-- Field ranges of a GROUP_SET block as laid out (R370); R371's other conditions need the state. -/
def groupFieldsBad (b : List Byte) (n : Nat) : Bool :=
  fld b 25 1 > 1 || fld b 26 2 > 7 || (List.range n).any fun i => fld b (32 + 4 * i) 2 ≥ 0x1FFF || fld b (34 + 4 * i) 1 > 31 || fld b (35 + 4 * i) 1 ≠ 0

def memOk (b : List Byte) : Bool := fld b 8 2 < 2048 && 1 ≤ fld b 10 2 && fld b 10 2 ≤ 1120

/-- The command of a packet's opcode and parameter block, or the code of the first static check that fails (R318 check 12, R509). -/
def parseBlock (h : Hdr) (op : Nat) (b : List Byte) : Except Status Instr :=
  let named := match opInfo op with | some i => i.target | none => false
  if b.length < 8 || !allZero b 5 3 || fld b 4 1 > (if named then 31 else 0) then .error St.eParam
  else
    let n8 := fld b 8 2
    let ep := Endpoint.parse (fld b 8 16)
    match op with
    | 0x100 => block b 8 [] true (.nop h)
    | 0x101 => block b 24 [(8, 4), (12, 1), (16, 8)] true (.ptnCreate h (w32 b 8) (w8 b 12) (w64 b 16))
    | 0x102 => block b 8 [] true (.ptnDestroy h)
    | 0x103 => block b 12 [(8, 4)] true (.cgAlloc h (w32 b 8))
    | 0x104 => block b 12 [(8, 4)] true (.cgRelease h (w32 b 8))
    | 0x105 => block b 8 [] true (.ptnReset h)
    | 0x110 => block b (16 + 8 * n8) [(8, 2), (16, 8 * n8)] (1 ≤ n8 && n8 ≤ 64) (.regRead h ((List.range n8).map fun i => w64 b (16 + 8 * i)))
    | 0x111 => block b (16 + 16 * n8) [(8, 2), (16, 16 * n8)] (1 ≤ n8 && n8 ≤ 64)
        (.regWrite h ((List.range n8).map fun i => (w64 b (16 + 16 * i), { v := w64 b (24 + 16 * i) })))
    | 0x120 => block b 12 [(8, 4)] (1 ≤ fld b 10 2 && fld b 10 2 ≤ 2048) (.acctRead h (w16 b 8) (w16 b 10))
    | 0x121 => block b 16 [(8, 8)] (fld b 8 4 ≤ 1) (.acctClear h (bitAt (fld b 8 4) 0) (w32 b 12))
    | 0x130 => block b 42 [(8, 34)] (fld b 40 2 ≤ 1) (.attestQuote h ((b.drop 8).take 32) (bitAt (fld b 40 2) 0))
    | 0x131 => block b 16 [(8, 3), (16, 64)] (fld b 8 1 ≤ 4 && fld b 9 1 ≤ 15 && fld b 10 1 ≤ 15)
        (.keyExchange h (w8 b 8) (w8 b 9) (w8 b 10) (((b.drop 16).take 64) ++ List.replicate (64 - (b.length - 16)) 0))
    | 0x201 => block b 10 [(8, 2)] (n8 ≤ 255) (.looseGrant h (w16 b 8))
    | 0x202 => block b 10 [(8, 2)] (n8 ≤ 255) (.looseRelease h (w16 b 8))
    | 0x203 =>
        let c := fld b 10 2; let fl := fld b 12 2
        let named := bitAt fl 0
        block b (16 + if named then 2 * c else 0) ([(8, 6)] ++ if named then [(16, 2 * c)] else []) (memOk b && fl ≤ 3 && (named || !bitAt fl 1))
          (.memGrant h (w16 b 8) (w16 b 10) named (bitAt fl 1) (if named then (List.range c).map fun i => w16 b (16 + 2 * i) else []))
    | 0x204 => block b 12 [(8, 4)] (memOk b) (.memRelease h (w16 b 8) (w16 b 10))
    | 0x205 => block b 10 [(8, 2)] (n8 < 2048) (.sharedMap h (w16 b 8))
    | 0x206 => block b 8 [] true (.sharedUnmap h)
    | 0x207 => block b 40 [(8, 32)] (!endpointBad ep false && fld b 32 8 % 64 = 0 && fld b 32 8 ≤ 2 ^ 40) (.sharedLoad h ep (w64 b 32) [])
    | 0x208 => block b 8 [] true (.sharedSeal h)
    | 0x209 => block b 8 [] true (.sharedClear h)
    | 0x210 => block b 40 [(8, 32)] (!endpointBad ep false && fld b 32 8 % 64 = 0 && fld b 32 8 ≤ 2 ^ 40) (.dataIn h ep (w64 b 24) (w64 b 32))
    | 0x211 => block b 40 [(8, 32)] (!endpointBad ep false && fld b 32 8 % 64 = 0 && fld b 32 8 ≤ 2 ^ 40) (.dataOut h ep (w64 b 24) (w64 b 32))
    | 0x220 => block b 30 [(8, 22)] (fld b 24 4 ≤ 7) (.modelLoad h (w64 b 8) (w64 b 16) (w32 b 24) (w16 b 28))
    | 0x221 => block b 10 [(8, 2)] true (.modelUnload h (w16 b 8))
    | 0x222 => block b 32 [(8, 2), (12, 20)] true (.variantLoad h (w16 b 8) (w32 b 12) (w64 b 16) (w64 b 24))
    | 0x223 => block b 16 [(8, 2), (12, 4)] true (.variantUnload h (w16 b 8) (w32 b 12))
    | 0x230 => block b (16 + 64 * n8) [(8, 2), (16, 64 * n8)] (1 ≤ n8 && n8 ≤ (if h.expert then 256 else 1))
        (.tableOp h ((List.range n8).map fun i => TeReq.parse ((b.drop (16 + 64 * i)).take 64)))
    | 0x301 => if h.expert then progBlock b true true false (.distillStep h {} ·) else stepBlock b false (.distillStep h · {})
    | 0x302 => progBlock b false false true (.fwdMb h)
    | 0x303 => progBlock b false false true (.bwdMb h)
    | 0x304 => block b (16 + 4 * n8) [(8, 2), (16, 4 * n8)] (1 ≤ n8 && n8 ≤ 256) (.mbRelease h ((List.range n8).map fun i => w32 b (16 + 4 * i)))
    | 0x305 =>
        let o := Opt.parse b 24
        block b 56 [(8, 6), (16, 4), (24, 32)] (fld b 12 2 ≤ 3) (.update h (w16 b 8) (w16 b 10) (bitAt (fld b 12 2) 1) (w32 b 16) o)
    | 0x306 => if h.expert then progBlock b true false false (.eval h {} ·) else stepBlock b true (.eval h · {})
    | 0x401 => block b (16 + 64 * n8) [(8, 6), (16, 64 * n8)] (1 ≤ n8 && n8 ≤ 256 && (h.expert || (fld b 10 2 = 0xFFFF && fld b 12 2 = 0xFFFF)))
        (.genSubmit h (w16 b 10) (w16 b 12) ((List.range n8).map fun i => GenReq.parse (fld b (16 + 64 * i) 64)))
    | 0x402 => block b 14 [(8, 6)] true (.genCancel h (w32 b 8) (w16 b 12))
    | 0x403 => block b (16 + 24 * n8) [(8, 2), (16, 24 * n8)]
        (1 ≤ n8 && n8 ≤ 256 && (List.range n8).all fun i => allZero b (20 + 24 * i) 4 &&
          (fld b (24 + 24 * i) 8 = 0 || (1000 ≤ fld b (32 + 24 * i) 8 && fld b (32 + 24 * i) 8 ≤ 60000000)))
        (.budgetSet h ((List.range n8).map fun i => ⟨w32 b (16 + 24 * i), w64 b (24 + 24 * i), w64 b (32 + 24 * i)⟩))
    | 0x404 => block b 12 [(8, 4)] (1 ≤ fld b 10 2 && fld b 10 2 ≤ 1024) (.budgetRead h (w16 b 8) (w16 b 10))
    | 0x501 =>
        let g := parseGroup b
        block b (32 + 4 * g.2) [(8, 24), (32, 4 * g.2)] (!groupFieldsBad b g.2) (.groupSet h g.1)
    | 0x502 => block b 12 [(8, 4)] true (.groupLeave h (w32 b 8))
    | 0x503 => block b 21 [(8, 13)] (fld b 14 2 = 0 && fld b 16 2 ≤ 8190 && 1 ≤ fld b 18 2 && fld b 18 2 ≤ 8191 && fld b 16 2 + fld b 18 2 ≤ 8191 && fld b 20 1 ≤ 1)
        (.routeSet h (w64 b 8) (w16 b 16) (w16 b 18) (w8 b 20))
    | 0x504 => block b 40 [(8, 6), (16, 24)] (fld b 12 2 ≤ 1 && 1 ≤ fld b 16 8 && fld b 16 8 ≤ 2 ^ 32)
        (.reduce h (w32 b 8) (bitAt (fld b 12 2) 0) (w64 b 16) (w64 b 24) (w64 b 32))
    | 0x601 =>
        let t := fld b 26 2
        block b 28 [(8, 20)] ((!bitAt (fld b 24 2) 0 || (!endpointBad ep false && ep.kind = 2)) && 1 ≤ fld b 24 2 && fld b 24 2 ≤ 3 && (t = 0 || (100 ≤ t && t ≤ 60000)))
          (.ckptSave h ep (bitAt (fld b 24 2) 0) (bitAt (fld b 24 2) 1) (w16 b 26))
    | 0x602 => block b 28 [(8, 20)] (!endpointBad ep false) (.ckptRestore h ep (w32 b 24))
    | 0x603 =>
        let e := Endpoint.parse (fld b 16 16)
        let r := fld b 8 1
        block b 48 [(8, 2), (16, 32)] (r ≤ 2 && fld b 9 1 ≤ (if r = 0 then 1 else 0) && !endpointBad e true && e.kind = 1)
          (.partnerSet h (w8 b 8) (bitAt (fld b 9 1) 0) e (w64 b 32) (w64 b 40))
    | 0x604 =>
        let e := Endpoint.parse (fld b 16 16)
        block b 32 [(8, 4), (16, 16)] (!endpointBad e false && e.kind = 1) (.negativeShip h (w16 b 8) (w16 b 10) e)
    | 0x701 => block b 24 [(8, 16)] true (.progLoad h (w64 b 8) (w64 b 16))
    | 0x702 => block b 10 [(8, 2)] true (.progUnload h (w16 b 8))
    | 0x703 => progBlock b false false false (.progRun h)
    | 0x801 => block b 16 [(8, 2), (12, 4)] true (.pwrState h (w8 b 8) (w8 b 9) (w32 b 12))
    | 0x802 => block b 8 [] true (.telemetryRead h)
    | 0x803 => block b 10 [(8, 2)] true (.pwrLimit h (w16 b 8))
    | 0xF01 => block b 14 [(8, 6)] (fld b 12 2 ≤ 7) (.stripNow h (w32 b 8) (bitAt (fld b 12 2) 0) (bitAt (fld b 12 2) 1) (bitAt (fld b 12 2) 2))
    | 0xF02 => block b 18 [(8, 10)] (1 ≤ fld b 16 2 && fld b 16 2 ≤ 64) (.faultLogRead h (w64 b 8) (w16 b 16))
    | 0xF03 => block b 16 [(8, 8)] true (.faultLogClear h (w64 b 8))
    | 0xF04 =>
        let m := fld b 8 1
        block b (if m = 1 then 144 else 9) ([(8, 1)] ++ if m = 1 then [(16, 128)] else []) (m ≤ 2) (.safelightUnlock h (w8 b 8) (Token.parse b 16))
    | 0xF05 => .ok (.echo h (b.drop 8))
    | _ => .error St.eOpcode

/-- Opcode of a command that a packet carries. -/
def instrOpcode : Instr → Nat
  | .nop _ => 0x100 | .ptnCreate _ _ _ _ => 0x101 | .ptnDestroy _ => 0x102 | .cgAlloc _ _ => 0x103 | .cgRelease _ _ => 0x104 | .ptnReset _ => 0x105
  | .regRead _ _ => 0x110 | .regWrite _ _ => 0x111 | .acctRead _ _ _ => 0x120 | .acctClear _ _ _ => 0x121 | .attestQuote _ _ _ => 0x130
  | .keyExchange _ _ _ _ _ => 0x131 | .looseGrant _ _ => 0x201 | .looseRelease _ _ => 0x202 | .memGrant _ _ _ _ _ _ => 0x203 | .memRelease _ _ _ => 0x204
  | .sharedMap _ _ => 0x205 | .sharedUnmap _ => 0x206 | .sharedLoad _ _ _ _ => 0x207 | .sharedSeal _ => 0x208 | .sharedClear _ => 0x209
  | .dataIn _ _ _ _ => 0x210 | .dataOut _ _ _ _ => 0x211 | .modelLoad _ _ _ _ _ => 0x220 | .modelUnload _ _ => 0x221 | .variantLoad _ _ _ _ _ => 0x222
  | .variantUnload _ _ _ => 0x223 | .tableOp _ _ => 0x230 | .distillStep _ _ _ => 0x301 | .fwdMb _ _ => 0x302 | .bwdMb _ _ => 0x303 | .mbRelease _ _ => 0x304
  | .update _ _ _ _ _ _ => 0x305 | .eval _ _ _ => 0x306 | .genSubmit _ _ _ _ => 0x401 | .genCancel _ _ _ => 0x402 | .budgetSet _ _ => 0x403
  | .budgetRead _ _ _ => 0x404 | .groupSet _ _ => 0x501 | .groupLeave _ _ => 0x502 | .routeSet _ _ _ _ _ => 0x503 | .reduce _ _ _ _ _ _ => 0x504
  | .ckptSave _ _ _ _ _ => 0x601 | .ckptRestore _ _ _ => 0x602 | .partnerSet _ _ _ _ _ _ => 0x603 | .negativeShip _ _ _ _ => 0x604 | .progLoad _ _ _ => 0x701
  | .progUnload _ _ => 0x702 | .progRun _ _ => 0x703 | .pwrState _ _ _ _ => 0x801 | .telemetryRead _ => 0x802 | .pwrLimit _ _ => 0x803
  | .stripNow _ _ _ _ _ => 0xF01 | .faultLogRead _ _ _ => 0xF02 | .faultLogClear _ _ => 0xF03 | .safelightUnlock _ _ _ => 0xF04 | .echo _ _ => 0xF05
  | _ => 0

end Sys2Proof.Machine
end

