-- ==== Sys2Proof/Machine/Qorea.lean ====
section
/-! DEFINITION. Shared operations of the Qorea fabric: ports, routes, reservations, packets out, traffic keys (R349 to R369, R388 to R390, R460). -/

namespace Sys2Proof.Machine

def qpIds : List QpId := List.finRange 48

namespace State
def qp (s : State) (n : QpId) : QPort := s.qps.get {} n
def updQp (s : State) (n : QpId) (f : QPort → QPort) : State := { s with qps := s.qps.upd {} n f }
end State

/-! ## Reservations (R359 to R361) -/

/-- Class of a virtual lane: 0 FIX, 1 BULK, 2 GRAD, 3 PARAM; none for VL0 and VL1, which take no reservation. -/
def vlClass (vl : BitVec 4) : Option Nat := match vl.toNat with | 2 => some 0 | 3 => some 1 | 4 => some 2 | 5 => some 3 | _ => none

def QRes.cr (r : QRes) (cls : Nat) : Nat :=
  (match cls with | 0 => r.fixCr | 1 => r.bulkCr | 2 => r.gradCr | _ => r.paramCr).toNat

/-- The default amounts of k core groups added or, with `neg`, taken back, never below 0. -/
def QRes.move (r : QRes) (neg : Bool) (k : Nat) : QRes :=
  let f := fun (x : Byte) (n : Nat) => BitVec.ofNat 8 (if neg then x.toNat - n else min (x.toNat + n) 255)
  { r with weight := f r.weight k, fixCr := f r.fixCr (4 * k), bulkCr := f r.bulkCr (4 * k), gradCr := f r.gradCr (4 * k), paramCr := f r.paramCr (4 * k) }

/-! ## Sending (R358, R359, R362, R364, R365) -/

/-- Packets of partition p of a class in flight from a port. -/
def QPort.inFlight (x : QPort) (p : PtnId) (cls : Nat) : Nat := (x.flight.filter fun k => k.srcPtn = p && vlClass k.vl = some cls).length

/-- Flits of a packet: header and payload (R351, R362). -/
def QPkt.flits (k : QPkt) : Nat := ceilDiv (32 + k.payload.length) 1016

/-- The replay buffer has room for the packet's flits beside those not yet acknowledged: 2,048 in all (R352). -/
def QPort.replayRoom (x : QPort) (k : QPkt) : Bool := decide ((x.fseqTx - x.acked - 1).toNat + k.flits ≤ 2048)

/-- A packet may start: the replay buffer has room for it, and its partition has a credit of its class (R352, R359). -/
def QPort.mayStart (x : QPort) (k : QPkt) : Bool :=
  x.replayRoom k &&
  match vlClass k.vl with
  | none => true
  | some c => decide (x.inFlight k.srcPtn c < (x.res.get {} k.srcPtn).cr c)

/-- Starts the waiting packets that may leave and have a credit, in order; each takes its FSEQs. -/
def QPort.pump (ok : QPkt → Bool) : List QPkt → QPort → QPort
  | [], x => x
  | k :: r, x =>
    if ok k && x.mayStart k then QPort.pump ok r { x with flight := x.flight ++ [k], fseqTx := x.fseqTx + BitVec.ofNat 12 k.flits }
    else QPort.pump ok r { x with queue := x.queue ++ [k] }

/-- The module sends no packet while NODE is unset (R364), and a transfer of a job that is stopped, or is being stopped, starts none (R297, R298). -/
def State.mayLeave (s : State) (k : QPkt) : Bool :=
  s.mod.node ≠ 0x1FFF &&
  match k.job with
  | none => true
  | some q => match (s.job k.srcPtn q).st with | .stopping => false | .stopped => false | .restoring => false | _ => true

/-- Gives packets to a port, behind those that wait there. -/
def State.giveQp (s : State) (n : QpId) (ks : List QPkt) : State :=
  s.updQp n fun x => QPort.pump s.mayLeave (x.queue ++ ks) { x with queue := [] }

/-- Starts what may start now. -/
def State.drainQps (s : State) : State := qpIds.foldl (fun s n => s.giveQp n []) s

/-- Default reservations on every port; what they now allow to start starts (R359, R360). -/
def State.reserve (s : State) (p : PtnId) (neg : Bool) (k : Nat) : State :=
  (qpIds.foldl (fun s n => s.updQp n fun x => { x with res := x.res.upd {} p (·.move neg k) }) s).drainQps

/-- A packet has been received: its acknowledgement leaves on the port that it came in on, whose credit it returns (R359, R366; DEDUCED, log entry 85). None leaves while NODE is unset (R364). -/
def State.ackPkt (s : State) (n : QpId) (h : QHdr) : State :=
  if s.mod.node = 0x1FFF then s
  else s.updQp n fun x => { x with acks := x.acks ++ [(x.fseqTx, h)], fseqTx := x.fseqTx + 1 }

/-- The peer has every flit up to `a` (R351). -/
def QPort.ackTo (x : QPort) (a : BitVec 12) : QPort := { x with acked := a, acks := x.acks.filter fun e => 2048 ≤ (a - e.1).toNat }

/-- Ports that are UP, reach a node and lie in a mask (all ports for mask 0); none while NODE is unset. -/
def State.portsTo (s : State) (node : BitVec 13) (mask : BitVec 48) : List QpId :=
  if s.mod.node = 0x1FFF then []
  else qpIds.filter fun n => (s.qp n).st = 2 && bitAt (s.qp n).routes.toNat node.toNat && (mask = 0 || bitAt mask.toNat n)

/-- SALT of a sender (R460). -/
def salt (key : List Byte) (node : BitVec 13) (ptn : Nat) : List Byte :=
  (hmac key (ascii "AQD9-SALT" ++ leBytes 2 node.toNat ++ leBytes 1 ptn)).take 4

/-- A payload combined with the key stream of a slot that holds no key: the spec gives no value (DESIGN CHOICE, log entry 24). -/
def noKey (keyId : Byte) (num : W64) (bs : List Byte) : List Byte :=
  bs.zipIdx.map fun e => Config.keylessByte keyId.toNat num e.2 bs

/-- Takes a packet number and encrypts the payload where the packet asks for it (R362, R389). -/
def State.stampPkt (s : State) (k : QPkt) : State × QPkt :=
  let p := k.srcPtn
  if k.enc then
    let t := (s.ptn p).tkeys.get {} k.keyId.toNat
    let sent := match t.key with
      | some key => ctr key (salt key s.mod.node p) t.pktNum.toNat k.payload
      | none => noKey k.keyId t.pktNum k.payload
    (s.updPtn p fun x => { x with tkeys := x.tkeys.put {} k.keyId.toNat { t with pktNum := t.pktNum + 1 } }, { k with pktNum := t.pktNum, payload := sent })
  else (s.updFlow p fun f => { f with pktNum := f.pktNum + 1 }, { k with pktNum := (s.ptn p).flow.pktNum })

/-- Sends packets to one node, one to each port in turn in ascending port number (R365). -/
def State.sendAll (s : State) (ports : List QpId) : Nat → List QPkt → State
  | _, [] => s
  | i, k :: r =>
    match ports[i % ports.length]? with
    | none => s
    | some n =>
      let x := s.stampPkt k
      State.sendAll (x.1.giveQp n [x.2]) ports (i + 1) r

def State.sendPkts (s : State) (mask : BitVec 48) (ks : List QPkt) : State :=
  match ks with
  | [] => s
  | k :: _ => s.sendAll (s.portsTo k.dstNode mask) 0 ks

/-- A byte string cut into packets of at most 16,384 bytes at ascending OFFSET, the last marked. -/
def cutPkts (proto : QPkt) (bs : List Byte) : List QPkt :=
  let cs := chunks 16384 (ceilDiv bs.length 16384) bs
  cs.zipIdx.map fun e => { proto with offset := BitVec.ofNat 64 (proto.offset.toNat + 16384 * e.2), payload := e.1, last := proto.last && e.2 + 1 = cs.length }

/-- Counts a packet discarded on a port (R357, R366). -/
def State.dropPkt (s : State) (qp : QpId) : State := s.updQp qp fun x => { x with dropped := satInc x.dropped }

/-- Payload as the receiver reads it: decrypted under its own key KEY_ID when ENC is set (R388, R389, R460). -/
def State.clear (s : State) (h : QHdr) (bs : List Byte) : List Byte :=
  if h.enc then
    match ((s.ptn h.dstPtn).tkeys.get {} h.keyId.toNat).key with
    | some key => ctr key (salt key h.srcNode h.srcPtn.toNat) h.pktNum.toNat bs
    | none => noKey h.keyId h.pktNum bs
  else bs

/-- The source and number of an arriving packet, by which duplicates are known (R369). -/
def pktTag (h : QHdr) : BitVec 13 × BitVec 5 × W64 := (h.srcNode, h.srcPtn, h.pktNum)

end Sys2Proof.Machine
end

