-- ==== Sys2Proof/Machine/Areas.lean ====
section
/-! DEFINITION. What a partition's firmware keeps where: Erg in use, granules in use, shares of the SHARED slots, items of a command (R166, R239, R254, R255, R290, R336, R370). -/

namespace Sys2Proof.Machine

def mib : Nat := 2 ^ 20

/-! ## Erg (R177, R188, R290, R308, R370) -/

/-- Bytes of the contact buffer (R166). -/
def contactBytes (d : ContactDesc) (lanes dT : Nat) : Nat :=
  let k := min (d.kM1.toNat + 1) d.vocab.toNat
  let taps := if d.family = 2 then 0 else d.taps.toNat * d.tapRows.toNat * (dT + dT / 32)
  (if d.family = 2 then 16 * d.tokens.toNat
   else 8 * d.tokens.toNat + (if d.family = 0 then 2 * lanes * 64 * (8 + 8 * k) + lanes * 4 * 16384 else d.tokens.toNat * (8 + 6 * k))) + taps

def tensorParams (t : TensorDesc) : Nat := t.rows.toNat * t.cols.toNat

/-- Trainable tensors of an image, in its tensor order: one weight set each (DEDUCED, log entry 20). -/
def Image.trainable (im : Image) : List Nat := (List.range im.tensors.length).filter fun i => (im.tensors.getD i {}).trainable

def Ptn.model? (x : Ptn) (h : Nat) : Option Model := x.models.find? (·.handle = h)

/-- Gradient area of a training command (R188). -/
def Ptn.gradBytes (x : Ptn) (r : Train) : Nat :=
  match x.model? r.student with
  | some m => if r.eval || r.mbCount = 0 then 0 else (m.image.trainable.map fun i => 6 * tensorParams (m.image.tensors.getD i {})).sum
  | none => 0

/-- Save areas of the enabled queues (R290). -/
def Ptn.saveBytes (x : Ptn) : Nat := popcount x.qEnable.toNat 8 * (384 * 1024) * (8 * x.cgCount)

/-- Erg bytes of a tensor in its own format (R34, R35). -/
def descBytes (t : TensorDesc) : Nat :=
  let ty := (Ty.ofCode t.type.toNat).getD .int8
  elemBytes ty t.shape.toNat t.rows.toNat t.cols.toNat + scaleBytes ty t.shape.toNat t.rows.toNat t.cols.toNat

/-- Erg bytes of k slices of a tensor: Q6 in 4 × 4 blocks (R71). -/
def slicesBytes (k : Nat) (t : TensorDesc) : Nat := k * descBytes { t with type := 5, shape := 4 }

/-- Erg bytes of the slices and copies a command has made. -/
def CmdRec.ergMade (c : CmdRec) : Nat :=
  (c.formed.map fun f => slicesBytes f.k f.tensor).sum + (c.copies.map fun y => descBytes y.dst).sum

/-- Erg in use by the firmware's areas; the working-set areas, which give way, stand apart (R239, R308). -/
def Ptn.ergUsed (x : Ptn) : Nat :=
  (x.flow.cmds.map fun c => max c.ergKept c.ergMade).sum + x.saveBytes + x.train.stashMib.toNat * mib + (x.groups.map fun g => 4 * 2 ^ g.block.bucketLog2.toNat).sum +
  (x.train.runs.map fun r => r.buf + r.made + x.gradBytes r).sum

def Ptn.ergHeld (x : Ptn) : Nat := popcount x.slices.toNat 256 * sliceBytes

/-- Erg slices that a span of partition addresses lies in. -/
def slicesOf (a n : Nat) : List Nat := if n = 0 || ergTop ≤ a then [] else (List.range ((a + n - 1) / sliceBytes + 1 - a / sliceBytes)).map (a / sliceBytes + ·)

/-- Slices that hold a resident model or a contact buffer (R239). -/
def Ptn.areaSlices (x : Ptn) : List Nat := x.models.flatMap (fun m => slicesOf m.addr m.bytes) ++ x.train.runs.flatMap (·.slices)

/-! ## Working-set areas (R216, R308, R309) -/

def Ptn.prog? (x : Ptn) (h : Nat) : Option Program := x.progs.find? (·.handle = h)

/-- Models' tables and code, and their tensors (R309). -/
def Ptn.modelSet (x : Ptn) (hs : List Nat) : List WorkArea :=
  (hs.eraseDups.filterMap x.model?).flatMap fun m =>
    { key := .program m.hash, bytes := m.bytes - ((m.image.weights.map (·.2)).getD 0) } :: m.image.tensors.mapIdx fun i t => { key := .tensor m.hash i, bytes := descBytes t }

/-- The working set of a command: its program's tables, code and plans, or its models' tensors (R309). -/
def Ptn.workingSet (x : Ptn) (c : CmdRec) : List WorkArea :=
  let prog := fun (h : Nat) => match x.prog? h with | some q => [({ key := .program q.hash, bytes := q.bytes } : WorkArea)] | none => []
  match c.cmd with
  | some (.distillStep h b e) => if h.expert then prog e.program.toNat else x.modelSet [b.student.toNat, b.teacher.toNat]
  | some (.eval h b e) => if h.expert then prog e.program.toNat else x.modelSet [b.student.toNat, b.teacher.toNat]
  | some (.progRun _ e) => prog e.program.toNat
  | some (.fwdMb _ e) => prog e.program.toNat
  | some (.bwdMb _ e) => prog e.program.toNat
  | some (.update _ m _ _ _ _) => x.modelSet [m.toNat]
  | some (.genSubmit h q _ rs) => (if h.expert then prog q.toNat else []) ++ x.modelSet (rs.flatMap fun r => [r.model.toNat, r.draft.toNat, r.fallback.toNat])
  | _ => []

/-- A running job's current command uses the area: it stands in its working set, or holds the experts of a seated stream (R308). A tensor of a generation command's models is used while its layer's step runs, which no row spans (DESIGN CHOICE, log entry 81). -/
def Ptn.pins (x : Ptn) (k : WorkKey) : Bool :=
  match k with
  | .experts m t v => x.serve.streams.any fun u => u.seated && u.req.model.toNat = m && u.req.customerTag = t && u.variant = some v
  | _ => x.flow.cmds.any fun c => c.started && !c.isOver && (x.job c.hdr.queue).st = .running &&
      !(match k with | .tensor _ _ => c.opcode = 0x401 | _ => false) && (x.workingSet c).any fun a => decide (a.key = k)

def workBytes (l : List WorkArea) : Nat := (l.map (·.bytes)).sum

/-- n more bytes of firmware area fit in the Erg held, once all that may be evicted has been. -/
def Ptn.ergFits (x : Ptn) (n : Nat) : Bool := x.ergUsed + workBytes (x.work.filter fun a => x.pins a.key) + n ≤ x.ergHeld

/-- Evicts areas in least-recently-used order until `lack` bytes are free; what is in use stays (R308). -/
def evict (pin : WorkKey → Bool) : Nat → List WorkArea → List WorkArea
  | _, [] => []
  | lack, a :: r => if lack = 0 then a :: r else if pin a.key then a :: evict pin lack r else evict pin (lack - a.bytes) r

/-- Evicts what n more bytes of the firmware's areas need. -/
def Ptn.trim (x : Ptn) (n : Nat) : Ptn := { x with work := evict x.pins (x.ergUsed + workBytes x.work + n - x.ergHeld) x.work }

/-- Stages one area beside those of `set`: a resident one becomes the most recently used; another evicts, and is left out where the Erg cannot hold it. -/
def Ptn.stage1 (x : Ptn) (set : List WorkKey) (a : WorkArea) : Ptn :=
  if x.work.any fun b => decide (b.key = a.key) then { x with work := (x.work.filter fun b => decide (b.key ≠ a.key)) ++ [a] }
  else
    let w := evict (fun k => x.pins k || decide (k ∈ set)) (x.ergUsed + workBytes x.work + a.bytes - x.ergHeld) x.work
    { x with work := if x.ergUsed + workBytes w + a.bytes ≤ x.ergHeld then w ++ [a] else w }

def Ptn.stage (x : Ptn) (as : List WorkArea) : Ptn := as.foldl (fun x a => x.stage1 (as.map (·.key)) a) x

/-- Stages the working set of a queue's command; the grant is a switch where a part is missing (R309). -/
def State.stageCmd (s : State) (h : Hdr) : State :=
  match s.cmdOf h with
  | some c =>
    let as := (s.ptn h.ptn).workingSet c
    let missing := as.any fun a => !(s.ptn h.ptn).work.any fun b => decide (b.key = a.key)
    (if missing then s.updCmd h fun c => { c with switches := satInc c.switches, switching := true } else s).updPtn h.ptn (·.stage as)
  | none => s

/-! ## Granules (R177, R204, R239) -/

def granulesOf (a n : Nat) : List Nat := if n = 0 || !inLp a then [] else (List.range (winOf (a + n - 1) + 1 - winOf a)).map (winOf a + ·)

def Trainer.spillGranules (t : Trainer) : List Nat :=
  if t.spillGib = 0 then [] else (List.range t.spillGib.toNat).map (winOf (t.spillBase.toNat * gib) + ·)

/-- Partition granules that hold a firmware area (R239). -/
def Ptn.areaGranules (x : Ptn) : List Nat :=
  x.train.spillGranules ++ x.models.flatMap (fun m => granulesOf m.addr m.bytes ++ m.pool ++ m.areas) ++ x.serve.variants.flatMap (·.area)

def Ptn.winPrivate (x : Ptn) (w : Nat) : Bool := let e := x.mem.wins.get {} w; e.valid && !e.shared

def Ptn.privateGranules (x : Ptn) : List Nat := (x.mem.wins.filter fun e => e.2.valid && !e.2.shared).map (·.1)

/-- The highest-numbered n private granules that hold no area, for the firmware to place one in (DESIGN CHOICE, log entry 21). -/
def Ptn.takeGranules (x : Ptn) (n : Nat) (busy : List Nat) : Option (List Nat) :=
  let used := x.areaGranules ++ busy
  let free := (x.privateGranules.filter fun w => !decide (w ∈ used)).reverse
  if free.length < n then none else some (free.take n)

/-- The spill window lies in the LPDDR5X range, in private granules that hold no other area (R177). -/
def Ptn.spillFits (x : Ptn) : Bool :=
  let t := x.train
  let b := t.spillBase.toNat * gib
  let used := x.models.flatMap (fun m => granulesOf m.addr m.bytes ++ m.pool ++ m.areas) ++ x.serve.variants.flatMap (·.area)
  t.spillGib = 0 || (inLp b && decide (b + t.spillGib.toNat * gib ≤ winTop) && t.spillGranules.all fun w => x.winPrivate w && !decide (w ∈ used))

/-! ## KV pages (R202, R204) -/

/-- Width of an attention layer's keys: H × d. -/
def Image.kvWidth (im : Image) (l : Layer) : Nat := (im.tensors.getD (l.tensors.getD 1 0xFFFF).toNat {}).cols.toNat

/-- Bytes of a page of an attention layer. -/
def Image.kvPage (im : Image) (l : Layer) : Nat := 132 * im.kvWidth l

def Image.attention (im : Image) : List Layer := im.layers.filter (·.kind = 3)

/-- Bytes of a page's place in the pool: the largest page of the model (DEDUCED, log entry 23). -/
def Model.pageUnit (m : Model) : Nat := (m.image.attention.map m.image.kvPage).foldl max 0

/-- Pages a pool holds. -/
def Model.poolPages (m : Model) : Nat := if m.pageUnit = 0 then 0 else m.pool.length * gib / m.pageUnit

def Model.pagesFree (m : Model) : Nat := m.poolPages - m.pagesUsed.length

/-- The lowest pages of the pool that are free, at most n. -/
def Model.freePages (m : Model) (n : Nat) : List Nat := ((List.range m.poolPages).filter fun k => !decide (k ∈ m.pagesUsed)).take n

/-- Page lists for n positions, one for each attention layer and 64 positions to a page, beside those in hand; the pages that are new. None where the pool is short (R204). -/
def Model.growPages (m : Model) (ps : List (List Nat)) (n : Nat) : Option (List (List Nat) × List Nat) :=
  let need := ceilDiv n 64
  let lack := (List.range m.image.attention.length).map fun l => need - (ps.getD l []).length
  let new := m.freePages lack.sum
  if new.length < lack.sum then none
  else some ((List.range m.image.attention.length).map fun l => ps.getD l [] ++ (new.drop (lack.take l).sum).take (lack.getD l 0), new)

/-- Partition addresses of n bytes of the pool from an offset, the pool's granules joined in their order: at most two pieces (DESIGN CHOICE, log entry 23). -/
def Model.poolPieces (m : Model) (off n : Nat) : List (Nat × Nat) :=
  let addr := fun (o : Nat) => winBase + m.pool.getD (o / gib) 0 * gib + o % gib
  let k := min n (gib - off % gib)
  (addr off, k) :: if k < n then [(addr (off + k), n - k)] else []

/-! ## Slots (R254, R255, R259) -/

def Ptn.sharedMapped (x : Ptn) : Bool := x.mem.wins.any fun e => e.2.valid && e.2.shared
def State.mappers (s : State) : List PtnId := ptnIds.filter fun p => (s.ptn p).st ≠ 0 && (s.ptn p).sharedMapped

def State.slotSum (s : State) (but : Option PtnId) : Nat :=
  s.mod.sharedSlots.toNat + (ptnIds.map fun p => if some p = but then 0 else (s.ptn p).mem.dataSlots.toNat).sum

/-- The division of the SHARED slots among the mappers: floors, then one each in order of largest fractional part, ties to the lower number. -/
def State.shares (s : State) : List (PtnId × Nat) :=
  let ms := s.mappers
  let tot := (ms.map fun p => (s.ptn p).cgCount).sum
  let n := s.mod.sharedSlots.toNat
  if tot = 0 then [] else
  let base := ms.map fun p => (p, n * (s.ptn p).cgCount / tot, n * (s.ptn p).cgCount % tot)
  let left := n - (base.map (·.2.1)).sum
  base.map fun e =>
    let ahead := (base.filter fun f => decide (f.2.2 > e.2.2) || (f.2.2 = e.2.2 && decide (f.1 < e.1))).length
    (e.1, e.2.1 + if ahead < left then 1 else 0)

/-- Forms the new division, which the next wheel boundary brings (R255). -/
def State.reshare (s : State) : State :=
  let sh := s.shares
  ptnIds.foldl (fun s p =>
    let n := BitVec.ofNat 8 (((sh.find? (·.1 = p)).map (·.2)).getD 0)
    s.updPMem p fun m => { m with sharePending := if n = m.sharedShare then none else some n }) s

/-! ## Power state of core groups (R478) -/

def Pwr.cgState (p : Pwr) (k : Nat) : Nat := bits p.cg.toNat (2 * k) 2

/-- The rows of R470's table: L0 and L1, L2, core-group L3, module L3. -/
def Supply.l2 : Supply := { logic := .retention, reverse := true, array := .low, readAssist := false, writeAssist := false, isolated := true, clockGated := true }
def Supply.cgL3 : Supply := { Supply.l2 with logic := .off, reverse := false }
def Supply.modL3 : Supply := { Supply.cgL3 with array := .off }

/-- A core group's row for its state. -/
def Supply.ofCg (st : Nat) : Supply := if st = 2 then .l2 else if st = 3 then .cgL3 else {}

/-- Logic voltage in millivolts on a die, and the Erg array's. -/
def LogicRail.millivolts (die : Nat) : LogicRail → Nat
  | .off => 0 | .retention => 500 | .operating => 700 + (Config.operatingPoint die).val
def ArrayRail.millivolts : ArrayRail → Nat
  | .off => 0 | .low => 550 | .full => 800

/-- The first steps of an entry, in order: clocks gated, retention and isolation held, assists off, reverse bias where the state has it; the supplies follow. -/
def Supply.quiet (row x : Supply) : Supply :=
  { x with clockGated := row.clockGated, isolated := row.isolated, writeAssist := row.writeAssist, readAssist := row.readAssist, reverse := row.reverse }

/-- An acknowledged exchange: the supplies are as it set them. -/
def Supply.rails (row x : Supply) : Supply := { x with logic := row.logic, array := row.array }

/-- What the array supply of slice n carries: a loose slice's array is held active whatever state its core group is in (R235). -/
def State.arrayRail (s : State) (n : Nat) : ArrayRail := if (s.looseOwner n).isSome then .full else (s.pwr.cgSup.get .l2 (n / 8)).array

def Pwr.supply (p : Pwr) (k : Nat) : Supply := p.cgSup.get .l2 k
def Pwr.putSupply (p : Pwr) (k : Nat) (x : Supply) : Pwr := { p with cgSup := p.cgSup.put .l2 k x }

/-- Every core group's supplies and the module's are changed. -/
def Pwr.mapSupplies (p : Pwr) (ks : List Nat) (f : Supply → Supply) : Pwr := ks.foldl (fun p k => p.putSupply k (f (p.supply k))) p

def Pwr.allOff (p : Pwr) : Pwr := { p.mapSupplies (List.range 32) (fun _ => .modL3) with modSup := .modL3 }

def Pwr.setCg (p : Pwr) (k st : Nat) : Pwr := { p with cg := BitVec.ofNat 64 (putBits p.cg.toNat (2 * k) 2 st), cgSup := p.cgSup.put .l2 k (.ofCg st) }
def Pwr.setCgs (p : Pwr) (mask : BitVec 32) (st : Nat) : Pwr := (setBits mask.toNat 32).foldl (fun p k => p.setCg k st) p

/-! ## Items (R336, R346, R403, R429) -/

def Ptn.entryItems (x : Ptn) (b : ProgBlock) : Nat :=
  ((x.prog? b.program.toNat).bind fun p => p.image.entries[b.entry.toNat]?).map (·.items) |>.getD 1

/-- How many items a command has. -/
def Ptn.itemsOf (x : Ptn) : Instr → Nat
  | .distillStep h b e => if h.expert then x.entryItems e
      else 2 * b.mbCount.toNat + (if b.update then ((x.model? b.student.toNat).map fun m => m.sets.length).getD 0 else 0)
  | .eval h b e => if h.expert then x.entryItems e else b.mbCount.toNat
  | .progRun _ e => x.entryItems e
  | .fwdMb _ e => x.entryItems e
  | .bwdMb _ e => x.entryItems e
  | .genSubmit _ _ _ rs => rs.length
  | .regRead _ as => as.length
  | .regWrite _ ws => ws.length
  | .tableOp _ rs => rs.length
  | .mbRelease _ is => is.length
  | .budgetSet _ rs => rs.length
  | .ckptSave _ _ a b _ => b2n a + b2n b
  | .stripNow _ m _ c e => popcount m.toNat 32 * (8 * b2n c + 2 * b2n e)
  | _ => 1

end Sys2Proof.Machine
end

