-- ==== Sys2Proof/Machine/Array.lean ====
section
/-! DEFINITION. The array: operands and slices (R61, R66 to R71, R506), runs (R56 to R65, R74, R76, R79, R87), splits (R103 to R108) and the semaphore records of plans (R513). -/

namespace Sys2Proof.Machine

/-! ## Operands -/

/-- The element and scale addresses of an operand, with its binding (R345, R516). -/
def tensorAddrs (t : TensorDesc) (binds : List W64) : Nat × Nat :=
  if t.bind then
    let b := (binds.getD t.bindIndex.toNat 0).toNat % 2 ^ 48
    (b, (b + t.scaleAddr.toNat) % 2 ^ 48)
  else (t.addr.toNat, t.scaleAddr.toNat)

/-- A byte window of an operand's array: from the block of its first element touched to its last. -/
structure OpWin where
  addr : Nat
  n : Nat
  /-- Offset of the window in the array. -/
  off : Nat

/-- The windows over elements and scales of slice `sl` for stored rows r0..r1 and columns c0..c1. -/
def opWindows (t : TensorDesc) (binds : List W64) (sl r0 r1 c0 c1 : Nat) : OpWin × OpWin :=
  let ty := tensorTy t; let sh := t.shape.toNat; let cols := t.cols.toNat; let rows := t.rows.toNat
  let a := tensorAddrs t binds
  let eb := elemBytes ty sh rows cols; let sb := scaleBytes ty sh rows cols
  let lo := (elemPlace ty sh cols r0 c0).1
  let p := elemPlace ty sh cols r1 c1
  let hi := p.1 + ty.span p.2
  let b0 := blockIndex sh cols r0 c0; let b1 := blockIndex sh cols r1 c1 + 1
  (⟨a.1 + sl * eb + lo, hi - lo, lo⟩, ⟨a.2 + sl * sb + b0, b1 - b0, b0⟩)

/-- An operand as read: stored row and column to code and scale in [15:8]; an element in the padding, or of a slice not supplied, is a null element (R35, R506). -/
abbrev Elem := Nat → Nat → Nat → Nat

/-- Reads the part of a short operand that a run needs, slice by slice. -/
def State.fetchShort (s : State) (p : PtnId) (mc : Nat) (t : TensorDesc) (binds : List W64) (r0 r1 c0 c1 : Nat) : Nat → Nat → Acc (List (List Byte × List Byte))
  | 0, _ => (s, .ok [])
  | n + 1, sl =>
    let w := opWindows t binds sl r0 r1 c0 c1
    match s.pRead p (Who.feeder mc) w.1.addr w.1.n with
    | (s, .error c) => (s, .error c)
    | (s, .ok e) =>
      match s.pRead p (Who.feeder mc) w.2.addr w.2.n with
      | (s, .error c) => (s, .error c)
      | (s, .ok sc) =>
        match s.fetchShort p mc t binds r0 r1 c0 c1 n (sl + 1) with
        | (s, .error c) => (s, .error c)
        | (s, .ok r) => (s, .ok ((e, sc) :: r))

/-- The null element: its scale marks a null block (R32). -/
def nullElem : Nat := 128 * 256

def shortElem (t : TensorDesc) (binds : List W64) (r0 r1 c0 c1 : Nat) (sls : List (List Byte × List Byte)) : Elem := fun sl r c =>
  if r ≥ t.rows.toNat || c ≥ t.cols.toNat then nullElem
  else match sls[sl]? with
    | none => nullElem
    | some (e, sc) =>
      let ty := tensorTy t; let sh := t.shape.toNat; let cols := t.cols.toNat
      let w := opWindows t binds sl r0 r1 c0 c1
      let pl := elemPlace ty sh cols r c
      let code := bits (leNat ((e.drop (pl.1 - w.1.off)).take (ty.span pl.2))) pl.2 ty.packBits
      code + (sc.getD (blockIndex sh cols r c - w.2.off) 0).toNat * 256

/-- The slices of one 4 × 4 block: BLOCK mode, nearest even, SAT = 1; the residual of a value that is no finite number is +0 (R67). -/
def sliceBlock : Nat → List XVal → List (List Nat)
  | 0, _ => []
  | n + 1, vs =>
    let sc := blockScale q6 vs
    let codes := vs.map fun v => (toShort q6 true none sc v).1
    let res := (vs.zip codes).map fun e =>
      match e.1 with
      | .num _ _ _ => e.1.sub (q6.value e.2 sc)
      | _ => XVal.zero
    (codes.map (· + sc * 256)) :: sliceBlock n res

/-- Forms k slices of a long operand from its values in row-major order; also what slice 0 counts, and its values for AMAX (R67, R68, R71). -/
def formSlices (k rows cols : Nat) (vals : List XVal) : Tab W16 × Ev × List XVal :=
  let at2 := fun r c => if r < rows && c < cols then vals.getD (r * cols + c) .zero else .zero
  let blocks := (List.range (ceilDiv rows 4)).flatMap fun i => (List.range (ceilDiv cols 4)).map fun j => (i, j)
  let cells := fun (b : Nat × Nat) => (List.range 16).map fun q => (4 * b.1 + q / 4, 4 * b.2 + q % 4)
  let step := fun (acc : Tab W16 × Ev × List XVal) (b : Nat × Nat) =>
    let cs := cells b
    let vs := cs.map fun c => at2 c.1 c.2
    let sls := sliceBlock k vs
    let tab := (sls.mapIdx fun t codes => (t, codes)).foldl (fun tab e =>
      (cs.zip e.2).foldl (fun tab x => if x.1.1 < rows && x.1.2 < cols
        then Tab.put 0 tab ((e.1 * rows + x.1.1) * cols + x.1.2) (BitVec.ofNat 16 x.2) else tab) tab) acc.1
    let real := (cs.zip vs).filter fun x => x.1.1 < rows && x.1.2 < cols
    let ev := real.foldl (fun e x => e.add (toShort q6 true none (blockScale q6 vs) x.2).2) acc.2.1
    (tab, ev, acc.2.2 ++ real.map (·.2))
  blocks.foldl step ([], {}, [])

/-- The largest PASSES of the command's runs that read an operand, from its program's plans; the run's own where it has none (R71). -/
def CmdRec.passesFor (c : CmdRec) (img : Option Image) (t : TensorDesc) (d : RunDesc) : Nat :=
  match c.prog, img with
  | some _, some im =>
    let ds := im.plans.flatMap fun pl => pl.filterMap fun r => match r with | .run _ d => some d | _ => none
    ds.foldl (fun a e => if im.tensors.getD e.sTensor.toNat {} = t || im.tensors.getD e.wTensor.toNat {} = t then max a e.passes.toNat else a) d.passes.toNat
  | _, _ => d.passes.toNat

/-- The formed slices of a long operand: made once per command, slice 0 counted once (R67, R68, R71). A run that reads more of them than runs before it has the further ones formed. Where the Erg cannot hold them, the command fails with E_ERG_FULL. -/
def State.formedOf (s : State) (h : Hdr) (mc : Nat) (t : TensorDesc) (binds : List W64) (k : Nat) : Acc Formed :=
  match s.cmdOf h with
  | none => (s, .ok {})
  | some c =>
    let old := c.formed.find? (·.tensor = t)
    match old.filter fun f => decide (k ≤ f.k) with
    | some f => (s, .ok f)
    | none =>
      let more := slicesBytes k t - (match old with | some f => slicesBytes f.k t | none => 0)
      if !((s.ptn h.ptn).ergFits (more - (c.ergKept - c.ergMade))) then (s, .error St.eErgFull)
      else
      let ty := tensorTy t
      let n := t.rows.toNat * t.cols.toNat
      match s.pRead h.ptn (Who.scalar mc) (tensorAddrs t binds).1 (n * ty.bytes) with
      | (s, .error e) => (s, .error e)
      | (s, .ok bs) =>
        let r := formSlices k t.rows.toNat t.cols.toNat ((chunks ty.bytes n bs).map fun b => regValue ty (leNat b))
        let f : Formed := ⟨t, r.1, k⟩
        let s := (s.updCmd h fun c => { c with formed := c.formed.filter (·.tensor ≠ t) ++ [f] }).updPtn h.ptn (·.trim 0)
        (if old.isSome then s else s.addSheet h fun sh => r.2.2.foldl Sheet.addAmax (sh.addEv r.2.1), .ok f)

/-! ## Re-quantised copies (R37, R73) -/

/-- A turned operand that is not transposable. -/
def needsCopy (turned : Bool) (t : TensorDesc) : Bool := turned && isShortCode t.type.toNat && t.shape ≠ 4

/-- Descriptor of the copy: in Q6, but for a Q4 product; blocks of the source's length along the new reduction dimension, which a turned streamed operand stores in its rows and a turned stationary one in its columns. -/
def copyDesc (q4f streamed : Bool) (t : TensorDesc) : TensorDesc :=
  { t with type := if q4f then t.type else 5, slices := 0
           shape := BitVec.ofNat 3 ((if streamed then 2 else 0) + t.shape.toNat % 2) }

/-- An operand as the run reads it at the basic level: its copy's form where it needs one. -/
def asRead (q4f streamed turned : Bool) (t : TensorDesc) : TensorDesc := if needsCopy turned t then copyDesc q4f streamed t else t

/-- The values of a whole short operand, slice 0, by row * COLS + column. -/
def operandValue (t : TensorDesc) (elems scales : List Byte) (i : Nat) : XVal :=
  let ty := tensorTy t; let sh := t.shape.toNat; let cols := t.cols.toNat
  let pl := elemPlace ty sh cols (i / cols) (i % cols)
  let code := bits (leNat ((elems.drop pl.1).take (ty.span pl.2))) pl.2 ty.packBits
  memValue ty code (scales.getD (blockIndex sh cols (i / cols) (i % cols)) 0).toNat

/-- The random word of element i of a command's conversion under its sampled RND and SR_STREAM; none where it rounds to nearest even (R45, R47, R55). -/
def CmdRec.srOf (c : CmdRec) (i : Nat) : Option Nat :=
  if c.numMode.rnd = 1 then some (srWord c.srSeed.toNat (match c.prog with | some r => r.srStream.toNat | none => bits c.hdr.seq.toNat 0 24) i) else none

/-- The copy of an operand, made once per command; its conversions reach the sheet. BLOCK mode with the sampled SAT and RND, (DEDUCED, log entry 63); R47's index counts over the source as stored (DESIGN CHOICE, log entry 90). Where the Erg cannot hold it, the command fails with E_ERG_FULL. -/
def State.copyOf (s : State) (h : Hdr) (mc : Nat) (q4f streamed : Bool) (t : TensorDesc) (binds : List W64) : Acc TurnCopy :=
  let d := copyDesc q4f streamed t
  match s.cmdOf h with
  | none => (s, .ok {})
  | some c =>
    match c.copies.find? fun k => k.src = t && k.dst = d with
    | some k => (s, .ok k)
    | none =>
      if !((s.ptn h.ptn).ergFits (descBytes d - (c.ergKept - c.ergMade))) then (s, .error St.eErgFull)
      else
        let ty := tensorTy t; let a := tensorAddrs t binds
        match s.pRead h.ptn (Who.scalar mc) a.1 (elemBytes ty t.shape.toNat t.rows.toNat t.cols.toNat) with
        | (s, .error e) => (s, .error e)
        | (s, .ok es) =>
          match s.pRead h.ptn (Who.scalar mc) a.2 (scaleBytes ty t.shape.toNat t.rows.toNat t.cols.toNat) with
          | (s, .error e) => (s, .error e)
          | (s, .ok sc) =>
            let r := quantise (if q4f then q4 else q6) c.numMode.sat c.srOf d.shape.toNat t.rows.toNat t.cols.toNat (operandValue t es sc)
            let k : TurnCopy := ⟨t, d, r.1⟩
            (((s.updCmd h fun c => { c with copies := c.copies ++ [k] }).addSheet h (·.addEv r.2)).updPtn h.ptn (·.trim 0), .ok k)

/-- Fetches an operand for stored rows r0..r1 and columns c0..c1. -/
def State.fetch (s : State) (h : Hdr) (mc : Nat) (t : TensorDesc) (binds : List W64) (k passes r0 r1 c0 c1 : Nat) : Acc Elem :=
  if TensorDesc.isLongOp t then
    match s.formedOf h mc t binds k with
    | (s, .error c) => (s, .error c)
    | (s, .ok f) => (s, .ok fun sl r c => if r ≥ t.rows.toNat || c ≥ t.cols.toNat then nullElem
        else (f.vals.get 0 ((sl * t.rows.toNat + r) * t.cols.toNat + c)).toNat)
  else
    let r1 := min r1 (t.rows.toNat - 1); let c1 := min c1 (t.cols.toNat - 1)
    match s.fetchShort h.ptn mc t binds r0 r1 c0 c1 (min passes (t.slices.toNat + 1)) 0 with
    | (s, .error c) => (s, .error c)
    | (s, .ok sls) => (s, .ok (shortElem t binds r0 r1 c0 c1 sls))

/-- Fetches an operand, or its copy where a basic-level run reads it turned and it is not transposable. -/
def State.fetchOp (s : State) (h : Hdr) (mc : Nat) (basic q4f streamed turned : Bool) (t : TensorDesc) (binds : List W64) (k passes r0 r1 c0 c1 : Nat) : Acc Elem :=
  if basic && needsCopy turned t then
    match s.copyOf h mc q4f streamed t binds with
    | (s, .error c) => (s, .error c)
    | (s, .ok y) => (s, .ok fun sl r c => if sl ≠ 0 || r ≥ t.rows.toNat || c ≥ t.cols.toNat then nullElem else (y.vals.get 0 (r * t.cols.toNat + c)).toNat)
  else s.fetch h mc t binds k passes r0 r1 c0 c1

/-! ## Runs -/

/-- The exact contribution of two elements; +0 if either block is null (R62). -/
def product (q4f : Bool) (x w : Nat) : XVal :=
  let g := if q4f then q4 else q6
  if x / 256 = 128 || w / 256 = 128 then .zero else (g.value (x % 256) (x / 256)).mul (g.value (w % 256) (w / 256))

/-- Promotes one run output into an entry of a core (R76, R87, R88). -/
def promoteInto (acc : Tab Entry) (e out : Nat) : Tab Entry × Ev :=
  let r := (acc.get {} e).promote (a20.decode out)
  (acc.put {} e r.1, r.2)

/-- One array run: every row and column, in order, from the streamed elements x m k and the weights w k n (R59 to R65). -/
def arrayRun (d : RunDesc) (x : Nat → Nat → Nat) (w : Nat → Nat → Nat) (acc : Tab Entry) : Tab Entry × Ev :=
  (List.range d.m).foldl (fun a m =>
    (List.range d.n).foldl (fun a j =>
      let o := column 0 {} ((List.range d.k).map fun i => product d.q4 (x m i) (w i j))
      let p := promoteInto a.1 (4096 * (d.accBase.toNat + m / 64) + 64 * (m % 64) + j) o.1
      (p.1, (a.2.add (runOutputEv o.1 o.2)).add p.2)) a) (acc, {})

/-- INIT sets each written entry to +0 (R74). -/
def initEntries (d : RunDesc) (acc : Tab Entry) : Tab Entry :=
  (List.range d.m).foldl (fun a m =>
    (List.range d.n).foldl (fun a j => Tab.put {} a (4096 * (d.accBase.toNat + m / 64) + 64 * (m % 64) + j) {}) a) acc

/-- The entries that INIT writes lose their errors. -/
def MCore.initMend (m : MCore) (d : RunDesc) : MCore :=
  (List.range d.m).foldl (fun m i => m.mend 0 (4096 * (d.accBase.toNat + i / 64) + 64 * (i % 64)) d.n) m

/-- The firmware's tile with one more run: it closes a tile before either limit would be passed (R57). -/
def MCore.tileOf (m : MCore) (d : RunDesc) : List RunDesc :=
  if m.tileEnd || tileTooLong (m.fwTile ++ [d]) then [d] else m.fwTile ++ [d]

/-- A copy's descriptor with its dimensions exchanged: the operand as a turned read delivers it. -/
def swapCopy (copied : Bool) (t : TensorDesc) : TensorDesc :=
  if copied then { t with rows := t.cols, cols := t.rows, shape := t.shape ^^^ 2 } else t

/-- No run follows in the core's tile: it stands at a tile boundary once its runs have made their last promotions (R57). -/
def MCore.endTile (m : MCore) : MCore := { m with tileEnd := true, boundary := m.flight.isEmpty }

/-- A plan's work fails: every open item of an expert command, or the item named, and the plan's records fall away (R141), so that no tile of its cores goes on. -/
def State.failWork (s : State) (h : Hdr) (item : Nat) (code : Status) : State :=
  match (s.cmdOf h).bind (·.prog) with
  | some r =>
    let s := (r.coreMap.map (·.2)).foldl (fun s n => s.updMc n MCore.endTile) s
    ((s.updCmd h fun c => { c with prog := c.prog.map fun r => { r with plans := r.plans.map fun p => { p with left := [] } } }).failOpen h code).settle h
  | none => (s.closeItem h item (some code)).settle h

/-- A run on core mc fails. -/
def State.failRun (s : State) (h : Hdr) (item mc : Nat) (code : Status) : State := (s.updMc mc MCore.endTile).failWork h item code

/-- Items a plan's work belongs to: all open items of an expert command (DEDUCED, log entry 12). -/
def State.workItems (s : State) (h : Hdr) (item : Nat) : List Nat :=
  match s.cmdOf h with
  | some c => if c.prog.isSome then List.range c.items.length else [item]
  | none => []

/-- An operand lies in Erg slices of the partition (R61). A tensor descriptor gives partition addresses, and the operand cache has none, so no descriptor names an operand there (DEDUCED, log entry 64). -/
def Ptn.opInErg (x : Ptn) (binds : List W64) (t : TensorDesc) : Bool :=
  let a := tensorAddrs t binds
  let ty := tensorTy t
  let k := t.slices.toNat + 1
  let ok := fun (b n : Nat) => n = 0 || (decide (b + n ≤ ergTop) && (x.check b n false).isNone)
  ok a.1 (k * elemBytes ty t.shape.toNat t.rows.toNat t.cols.toNat) && ok a.2 (k * scaleBytes ty t.shape.toNat t.rows.toNat t.cols.toNat)

/-- Operands of an image's runs of which the module forms slices, each with the number it forms (R71). -/
def Image.longOps (im : Image) : List (TensorDesc × Nat) :=
  let ds := im.plans.flatMap fun pl => pl.filterMap fun r => match r with | .run _ d => some d | _ => none
  let ops := (ds.flatMap fun d => [(d.sTensor.toNat, d.passes.toNat), (d.wTensor.toNat, d.passes.toNat)]).map fun e => (im.tensors.getD e.1 {}, e.2)
  let long := ops.filter fun e => TensorDesc.isLongOp e.1
  (long.map (·.1)).eraseDups.map fun t => (t, (long.filter fun e => e.1 = t).foldl (fun a e => max a e.2) 0)

/-- Erg bytes of the slices a program forms (R71). -/
def Image.longBytes (im : Image) : Nat := (im.longOps.map fun e => slicesBytes e.2 e.1).sum

/-- The streamed operand of a run, as the feeders bring it to the core (R61, R73). -/
def State.fetchS (s : State) (h : Hdr) (mc : Nat) (basic : Bool) (d : RunDesc) (st : TensorDesc) (binds : List W64) (ks : Nat) : Acc Elem :=
  let m1 := d.sRow.toNat + d.m - 1; let k1 := d.kOff.toNat + d.k - 1
  if d.turnS then s.fetchOp h mc basic d.q4 true true st binds ks d.passes.toNat d.kOff.toNat k1 d.sRow.toNat m1
  else s.fetchOp h mc basic d.q4 true false st binds ks d.passes.toNat d.sRow.toNat m1 d.kOff.toNat k1

/-- The stationary operand of a run; none with KEEP_W, where the weights stay in the array. -/
def State.fetchW (s : State) (h : Hdr) (mc : Nat) (basic : Bool) (d : RunDesc) (wt : TensorDesc) (binds : List W64) (kw : Nat) : Acc (Option Elem) :=
  let k1 := d.kOff.toNat + d.k - 1; let n1 := d.nOff.toNat + d.n - 1
  if d.keepW then (s, .ok none)
  else
    let r := if d.turnW then s.fetchOp h mc basic d.q4 false true wt binds kw d.passes.toNat d.nOff.toNat n1 d.kOff.toNat k1
             else s.fetchOp h mc basic d.q4 false false wt binds kw d.passes.toNat d.kOff.toNat k1 d.nOff.toNat n1
    match r with
    | (s, .error c) => (s, .error c)
    | (s, .ok e) => (s, .ok (some e))

/-- The weight tile that a run's stationary operand makes. R76 speaks of unused rows; an unused column is +0 too, also for a KEEP_W run of more columns (DESIGN CHOICE, log entry 86). -/
def runWeights (d : RunDesc) (e : Elem) : WTile :=
  { q4 := d.q4, vals := (List.range d.passes.toNat).foldl (fun a sl => (List.range d.k).foldl (fun a i => (List.range d.n).foldl (fun a j =>
      Tab.put 0 a (8192 * sl + 64 * i + j) (BitVec.ofNat 16
        (if d.turnW then e sl (d.nOff.toNat + j) (d.kOff.toNat + i) else e sl (d.kOff.toNat + i) (d.nOff.toNat + j)))) a) a) [] }

/-- The products of a run, promoted pass by pass into the accumulator entries (R71, R87). -/
def runPromoted (d : RunDesc) (x : Elem) (tile : WTile) (acc : Tab Entry) : Tab Entry × Ev :=
  d.products.foldl (fun a ab =>
    let o := arrayRun d (fun i k => if d.turnS then x ab.1 (d.kOff.toNat + k) (d.sRow.toNat + i) else x ab.1 (d.sRow.toNat + i) (d.kOff.toNat + k))
      (fun k j => (tile.vals.get 0 (8192 * ab.2 + 64 * k + j)).toNat) a.1
    (o.1, a.2.add o.2)) (acc, ({} : Ev))

/-- The run on a core whose operands have come. -/
def State.arrayWork (s : State) (h : Hdr) (item mc : Nat) (basic : Bool) (plan : Option Nat) (d : RunDesc) (st wt : TensorDesc) (x : Elem) (we : Option Elem) : State :=
  let m := s.mc mc
  let tile := match we with | none => m.active | some e => runWeights d e
  let r := runPromoted d x tile (if d.accInit then initEntries d m.acc else m.acc)
  let s := s.updMc mc fun m => { (if d.accInit then m.initMend d else m) with
    acc := r.1, active := tile, shadow := if we.isSome then m.active else m.shadow
    turnBusy := d.turnS && decide (d.m ≥ 64), tiles := m.tiles ||| runTiles d, flight := m.flight ++ [(runTiles d, plan)], boundary := false, tileEnd := d.tileEnd
    fwTile := if basic then m.tileOf d else [], fwLast := if basic then (setBits (runTiles d).toNat 8).foldl (fun t k => t.put none k (some (d, st, wt))) m.fwLast else m.fwLast }
  (s.addUnits h (s.workItems h item) [mc]).addSheet h (·.addEv r.2)

/-- An entry that a run with ACC_MODE ADD reads has an uncorrectable error. -/
def MCore.entriesBad (m : MCore) (d : RunDesc) : Bool := !d.accInit && (setBits (runTiles d).toNat 8).any fun t => m.bad 0 (4096 * t) 4096

/-- Carries out a run on a core whose checks have passed; `basic` says that the firmware issues it. -/
def State.doRun (s : State) (h : Hdr) (item mc : Nat) (basic : Bool) (plan : Option Nat) (d : RunDesc) (st wt : TensorDesc) (binds : List W64) (ks kw : Nat) : State :=
  match s.fetchS h mc basic d st binds ks with
  | (s, .error c) => s.failRun h item mc c
  | (s, .ok x) =>
    match s.fetchW h mc basic d wt binds kw with
    | (s, .error c) => s.failRun h item mc c
    | (s, .ok we) =>
      if (s.mc mc).entriesBad d then (s.noteLocal h.ptn mc 0).failRun h item mc St.eMemUncorr
      else s.arrayWork h item mc basic plan d st wt x we

/-- A core that a job holds may take a run. In the middle of a tile it goes on to the tile's end, also after a stop request; a new tile starts while the job runs, and not before a strip that is due (R57, R81, R297). -/
def State.arrayGo (s : State) (p : PtnId) (q : QueueId) (n : Nat) : Bool :=
  let st := (s.job p q).st; let m := s.mc n
  decide (n ∈ mcsOf (s.job p q).cgs) && !m.strip.active && (if m.tileEnd then st = .running && m.strip.st ≠ .due else st = .running || st = .stopping)

/-- The firmware closes its tile before a run that would break a limit of R57. -/
def MCore.closeTile (m : MCore) (d : RunDesc) : MCore := if !m.tileEnd && tileTooLong (m.fwTile ++ [d]) then m.endTile else m

/-- A table-engine request that core n has submitted before reaches these accumulator tiles (R79). -/
def State.teTouches (s : State) (n : Nat) (tiles : BitVec 8) : Bool :=
  s.tes.any fun e => e.2.reqs.any fun w => !w.done && w.req.srcSpace = 2 && (match w.thread with | some t => t.1 / 256 = n | none => false) && onTiles w.accRange tiles

/-- The plan of a core's next record. -/
def CmdRec.planOf (c : CmdRec) (im : Option Image) (mc : Nat) : Option Nat :=
  match c.prog, im with
  | some r, some im => (r.nextOf im (r.logical mc)).map fun n => (r.plans.getD n.1 {}).plan
  | _, _ => none

/-- The firmware issues a run: its reduction is cut in runs of full depth from index 0, in ascending order into the same entries (R58, R102). -/
def MCore.inOrder (m : MCore) (d : RunDesc) (st wt : TensorDesc) : Bool :=
  let full := if d.q4 then 128 else 64
  let kLog := if d.turnS then st.rows.toNat else st.cols.toNat
  let k0 := d.kOff.toNat
  let follows := fun (e : Option (RunDesc × TensorDesc × TensorDesc)) => match e with
    | some (g, x, y) => x = st && y = wt && decide (g.kOff.toNat + g.k = k0) && g = { d with kOff := g.kOff, kDepth := g.kDepth, accInit := g.accInit, keepW := g.keepW, tileEnd := g.tileEnd }
    | none => false
  k0 % full = 0 && (d.k = full || k0 + d.k ≥ kLog) &&
    (k0 = 0 || (!d.accInit && (setBits (runTiles d).toNat 8).all fun t => follows (m.fwLast.get none t)))

/-- The operands of a run: those of the program's tensor table, or, for a run the firmware issues, those it brings (R74). -/
def runOperands (im : Option Image) (d : RunDesc) (st wt : TensorDesc) : TensorDesc × TensorDesc :=
  match im with
  | some im => (im.tensors.getD d.sTensor.toNat {}, im.tensors.getD d.wTensor.toNat {})
  | none => (st, wt)

/-- The check of a run as it is issued (R75): a program's run by the program's rules; one of the firmware's with the copies that its turned operands use (R73), and in the tile the firmware keeps within its limits (R57). -/
def State.issueCheck (s : State) (p : PtnId) (n : Nat) (basic : Bool) (d : RunDesc) (st wt : TensorDesc) (binds : List W64) : Option Status :=
  let m := s.mc n
  let kept := m.active.q4 != d.q4
  if basic then
    let w := asRead d.q4 false d.turnW wt; let x := asRead d.q4 true d.turnS st
    runCheck { d with turnS := d.turnS && !needsCopy d.turnS st, turnW := d.turnW && !needsCopy d.turnW wt }
      (swapCopy (needsCopy d.turnS st) x) (swapCopy (needsCopy d.turnW wt) w) ((m.tileOf d).length = 1) false kept
      fun _ => (needsCopy d.turnS st || (s.ptn p).opInErg binds st) && (needsCopy d.turnW wt || (s.ptn p).opInErg binds wt)
  else runCheck d st wt m.tileEnd false kept ((s.ptn p).opInErg binds)

/-- A RUN record, or a run the firmware issues (R56, R75): it waits until its core may take it. No run waits for another's promotion (R86). -/
def execRun (p : PtnId) (q : QueueId) (item : W16) (mc : McId) (d : RunDesc) (st wt : TensorDesc) (s : State) : Res State :=
  .next (match s.running? p q with
    | none => s
    | some c =>
      let h := c.hdr
      let n := mc.val
      let im := (s.ptn p).imageOf c
      let basic := c.prog.isNone
      let ops := runOperands im d st wt
      let s := if basic && decide (n ∈ mcsOf (s.job p q).cgs) then s.updMc n (·.closeTile d) else s
      if !s.arrayGo p q n || s.teTouches n (runTiles d) || (basic && !(s.mc n).inOrder d st wt) then s
      else if s.mcRetired n then s.failRun h item.toNat n St.eHwFault
      else
        match s.takeRecord h n (fun k => .run k d) with
        | none => s
        | some s =>
          let binds := match c.prog with | some r => r.binds | none => []
          match s.issueCheck p n basic d ops.1 ops.2 binds with
          | some e => s.failRun h item.toNat n e
          | none => s.doRun h item.toNat n basic (c.planOf im n) d ops.1 ops.2 binds (c.passesFor im ops.1 d) (c.passesFor im ops.2 d))

/-- The oldest run of a core makes its last promotion: its tiles are free unless a later run holds them, and after the last run of a tile the array stands at a tile boundary (R77, R79). -/
def MCore.release (m : MCore) : MCore :=
  { m with flight := m.flight.tail, tiles := m.flight.tail.foldl (fun a e => a ||| e.1) 0, boundary := m.flight.tail.isEmpty && m.tileEnd }

def execRunRelease (mc : McId) (s : State) : Res State := .next (s.updMc mc.val MCore.release)

/-! ## Splits -/

/-- A SPLIT record: the parts' cores, and whether its boundaries lie on the grid (R107, R108). It waits for the records of its cores that stand before it (R346). -/
def execSplit (p : PtnId) (q : QueueId) (d : SplitDesc) (s : State) : Res State :=
  .next (match s.running? p q with
    | none => s
    | some c =>
      let h := c.hdr
      let cores := (d.partMc.take (SplitParts.count d)).map (·.toNat)
      match c.prog, (s.ptn p).imageOf c with
      | some r, some im =>
        let phys := fun k => ((r.coreMap.find? (·.1 = k)).map (·.2)).getD k
        let hit := (List.range r.plans.length).findSome? fun k =>
          let pr := r.plans.getD k {}
          let recs := im.plans.getD pr.plan []
          (pr.left.find? fun i => decide (recs[i]? = some (.split d)) && !r.behind im cores k i).map fun i => (k, i, recs)
        match hit with
        | none => s
        | some (k, i, recs) =>
          let mcs := cores.map phys
          let s := s.updCmd h fun c => { c with prog := some { r.take k i with
            splits := r.splits ++ [{ desc := d, mcs := mcs, plan := k, recs := cores.map (SplitParts.places recs i) }] } }
          let s := if splitAligned recs i d then s else s.addSheet h fun sh => { sh with splitUnaligned := true }
          if mcs.any (s.mcRetired ·) then s.failWork h 0 St.eHwFault else s
      | _, _ => s)

/-- Entries of the carried tiles. -/
def carriedTiles (d : SplitDesc) : List Nat := (List.range (d.tiles.toNat + 1)).map (d.accBase.toNat + ·)

/-- Moves tiles in ACC48 form from one core to the same tiles of another (R103). -/
def State.moveTiles (s : State) (d : SplitDesc) (a b : Nat) : State :=
  let src := (s.mc a).acc
  s.updMc b fun m => ({ m with acc := (carriedTiles d).foldl (fun t k => t.putList {} (4096 * k) (src.getList {} (4096 * k) 4096)) m.acc } : MCore).mend 0
    (4096 * d.accBase.toNat) (4096 * (d.tiles.toNat + 1))

/-- A carried entry has an uncorrectable error. -/
def MCore.carriedBad (m : MCore) (d : SplitDesc) : Bool := m.bad 0 (4096 * d.accBase.toNat) (4096 * (d.tiles.toNat + 1))

/-- Merges tiles of the higher part into the lower (R105). -/
def State.mergeTiles (s : State) (d : SplitDesc) (low high : Nat) : State × Ev :=
  let src := (s.mc high).acc
  let r := (carriedTiles d).foldl (fun (x : Tab Entry × Ev) k => (List.range 4096).foldl (fun x i =>
    let m := (x.1.get {} (4096 * k + i)).merge (src.get {} (4096 * k + i))
    (x.1.put {} (4096 * k + i) m.1, x.2.add m.2)) x) ((s.mc low).acc, {})
  (s.updMc low fun m => { m with acc := r.1 }, r.2)

/-- Every run of a part has been carried out. -/
def ProgRun.partRun (r : ProgRun) (x : SplitRun) (part : Nat) : Bool :=
  (x.recs.getD part []).all fun i => !decide (i ∈ (r.plans.getD x.plan {}).left)

/-- A hand-off of the first split in which it is due, once the runs of both parts are done (in chain mode the giving part's), on cores that the job still holds (R103, R105). -/
def execSplitHandoff (p : PtnId) (q : QueueId) (part level : Nat) (s : State) : Res State :=
  .next (match s.running? p q with
    | none => s
    | some c =>
      match c.prog with
      | none => s
      | some r =>
        let chain := fun x : SplitRun => x.desc.mode = 0
        let other := fun x : SplitRun => if chain x then part + 1 else part + 2 ^ (level - 1)
        let held := mcsOf (s.job p q).cgs
        let ready := fun x : SplitRun =>
          (x.handoffs.any fun g => g.1 = (part, level)) && !decide ((part, level) ∈ x.done) && r.partRun x part && (chain x || r.partRun x (other x)) &&
          (x.handoffs.all fun g => !(decide (g.1.2 < level) || (chain x && decide (g.1.1 < part))) || decide (g.1 ∈ x.done) || !(g.2.1 = part || g.2.1 = other x || g.2.2 = part)) &&
          ([x.mcs.getD part 0, x.mcs.getD (other x) 0].all fun m => decide (m ∈ held) && (s.mc m).tiles &&& x.tiles = 0)
        let go := (s.job p q).st = .running || (s.job p q).st = .stopping
        match (if go then r.splits.find? ready else none) with
        | none => s
        | some x =>
          let a := x.mcs.getD part 0; let b := x.mcs.getD (other x) 0
          let h := c.hdr
          if s.linkDown (dieOfMc a) (dieOfMc b) then s.failWork h 0 St.eLinkDown
          else if (s.mc a).carriedBad x.desc then (s.noteLocal p a 0).failWork h 0 St.eMemUncorr
          else if !chain x && (s.mc b).carriedBad x.desc then (s.noteLocal p b 0).failWork h 0 St.eMemUncorr
          else
          let s := s.updCmd h fun c => { c with prog := some { r with splits := updFirst (fun y => decide (y = x)) (fun y => { y with done := y.done ++ [(part, level)] }) r.splits } }
          let s := if chain x then s.moveTiles x.desc a b
            else let m := s.mergeTiles x.desc a b; m.1.addSheet h (·.addEv m.2)
          s.addUnits h (s.workItems h 0) [a, b])

/-! ## Semaphore records (R513) -/

/-- WAIT_SEM takes the semaphore, or the core's plan waits for it: the record stays in the plan, and no later record of the core is carried out, until the core is served. -/
def execWaitSem (p : PtnId) (q : QueueId) (mc : McId) (sem : SemId) (s : State) : Res State :=
  .next (match s.running? p q with
    | none => s
    | some c =>
      if (s.job p q).st ≠ .running || !(s.mc mc.val).boundary || ((s.sem p sem).waiters.any fun w => w.1 = q && w.2 = 65536 + mc.val) then s
      else
        match s.takeRecord c.hdr mc.val (fun k => .waitSem k sem) with
        | none => s
        | some z =>
          if (s.sem p sem).count ≠ 0 && (s.sem p sem).waiters.isEmpty then z.semTake p q sem
          else (s.updSem p sem fun m => { m with waiters := m.waiters ++ [(q, 65536 + mc.val)] }).updPtn p (·.holderStart q sem))

/-- POST_SEM posts between the array work before and after it. -/
def execPostSem (p : PtnId) (q : QueueId) (mc : McId) (sem : SemId) (s : State) : Res State :=
  .next (match s.running? p q with
    | none => s
    | some c =>
      if (s.job p q).st ≠ .running || !(s.mc mc.val).boundary then s
      else
        match s.takeRecord c.hdr mc.val (fun k => .postSem k sem) with
        | none => s
        | some s => s.semPost p q sem)

end Sys2Proof.Machine
end

