-- ==== Sys2Proof/Machine/Partition.lean ====
section
/-! DEFINITION. NOP, ECHO, accounts, and making, changing, resetting and destroying a partition (R278 to R284, R295, R325, R360, R485). -/

namespace Sys2Proof.Machine

/-! ## Immediate commands -/

def execNop (h : Hdr) (s : State) : Res State := .next (s.atOnce h 0x100 fun s => (s, .ok ([doneItem], [])))

/-- The reply carries the bytes after the prefix (R325). -/
def execEcho (h : Hdr) (bytes : List Byte) (s : State) : Res State := .next (s.atOnce h 0xF05 fun s => (s, .ok ([doneItem], bytes)))

def Acct.bytes (a : Acct) : List Byte := leBytes 4 a.tag.toNat ++ leBytes 4 (b2n a.overflow) ++ leBytes 8 a.mcNs.toNat

/-- Accounts in creation order (R295, R336). -/
def execAcctRead (h : Hdr) (first count : W16) (s : State) : Res State :=
  .next (s.atOnce h 0x120 fun s =>
    let as := (s.ptn h.ptn).accts
    if count = 0 || count.toNat > 2048 then (s, .error St.eParam)
    else (s, .ok ([doneItem], leBytes 4 as.length ++ leBytes 4 0 ++ ((as.drop first.toNat).take count.toNat).flatMap Acct.bytes)))

/-- Sets every account, or that of a tag, to zero (R295). -/
def execAcctClear (h : Hdr) (all : Bool) (tag : W32) (s : State) : Res State :=
  .next (s.atOnce h 0x121 fun s =>
    (s.updPtn h.ptn fun x => { x with accts := x.accts.map fun a => if all || a.tag = tag then { a with mcNs := 0, overflow := false } else a },
      .ok ([doneItem], [])))

/-! ## Checks of R278 -/

/-- The conditions that PTN_CREATE and CG_ALLOC share, in their order, for a partition and a mask. -/
def State.cgCheck (s : State) (p : PtnId) (mask : W32) (queues : Nat) : Option Status :=
  let ks := setBits mask.toNat 32
  let x := s.ptn p
  if ks.any fun k => (s.cgOwner k).isSome then some St.eCgBusy
  else if (mcsOf mask).any fun n => (s.looseOwner n).isSome then some St.eSliceBusy
  else if 7 * ks.length + x.mem.dataSlots.toNat + s.slotSum (some p) > 224 then some St.eSlots
  else if queues * (384 * 1024) > sliceBytes then some St.eErgFull
  else none

/-- Gives core groups to a partition: slices zeroed unless this partition held them last, slots, reservations, L0 (R236, R279, R280, R360). -/
def State.addCgs (s : State) (p : PtnId) (mask : W32) (fresh : Bool) : State :=
  let n := popcount mask.toNat 32
  let men := (s.ptn p).flow.createMen
  let s := (mcsOf mask).foldl (fun s m =>
    let s := if !fresh && s.mem.lastHolder.get none m = some (p, men) then s else s.updMem (·.zeroSlice m)
    s.updMem fun x => { x with lastHolder := x.lastHolder.put none m (some (p, men)) }) s
  let s := s.updPtn p fun x => { x with cgs := x.cgs ||| mask, mem := { x.mem with dataSlots := BitVec.ofNat 8 (x.mem.dataSlots.toNat + 7 * n) } }
  let s := { s with pwr := s.pwr.setCgs mask 0 }
  (s.reserve p false n).reshare

/-! ## PTN_CREATE, CG_ALLOC (R278 to R280) -/

/-- The state of a partition just created, but for its core groups (DEDUCED, log entry 48). -/
def Ptn.fresh (qEnable : Byte) (label men : W64) : Ptn :=
  { st := 1, qEnable := qEnable, mem := { keyLabel := label, keyLoaded := true }, flow := { createMen := men } }

def execPtnCreate (h : Hdr) (cgMask : W32) (qEnable : Byte) (keyLabel : W64) (s : State) : Res State :=
  .next (s.atOnce h 0x101 fun s =>
    let p := h.target
    if (s.ptn p).st ≠ 0 then (s, .error St.eBusy)
    else if bitAt s.saf.psRetired.toNat p then (s, .error St.eHwFault)
    else if cgMask = 0 || qEnable = 0 then (s, .error St.eParam)
    else
      match s.cgCheck p cgMask (popcount qEnable.toNat 8) with
      | some c => (s, .error c)
      | none =>
        let d := if keyLabel = 0 then s.draw else (s, [])
        let label := if keyLabel = 0 then BitVec.ofNat 64 (leNat (d.2.take 8)) else keyLabel
        let men := d.1.saf.nextMen
        let s := (d.1.takeMen).updPtn p fun _ => Ptn.fresh qEnable label men
        (s.addCgs p cgMask true, .ok ([doneItem], [])))

def execCgAlloc (h : Hdr) (cgMask : W32) (s : State) : Res State :=
  .next (s.atOnce h 0x103 fun s =>
    let p := h.target
    let x := s.ptn p
    if x.st = 0 || cgMask = 0 then (s, .error St.eParam)
    else if x.st = 2 then (s, .error St.eBusy)
    else
      match s.cgCheck p cgMask (popcount x.qEnable.toNat 8) with
      | some c => (s, .error c)
      | none => (((s.takeMen).addCgs p cgMask false).updPtn p (·.schedule), .ok ([doneItem], [])))

/-! ## CG_RELEASE (R281) -/

/-- Fails where a slice of the core groups holds a firmware area: a resident model or a contact buffer, or what the Erg that stays cannot hold (DESIGN CHOICE, log entry 21). -/
def execCgRelease (h : Hdr) (cgMask : W32) (s : State) : Res State :=
  .next (s.atOnce h 0x104 fun s =>
    let x := s.ptn h.target
    let n := popcount cgMask.toNat 32
    if x.st ≠ 1 || cgMask = 0 || cgMask &&& ~~~(x.cgs &&& ~~~x.releasing) ≠ 0 || cgMask = x.cgs &&& ~~~x.releasing then (s, .error St.eParam)
    else if x.areaSlices.any (fun k => bitAt cgMask.toNat (k / 8)) then (s, .error St.eBusy)
    else if x.ergUsed - n * 8 * popcount x.qEnable.toNat 8 * (384 * 1024) > x.ergHeld - n * 8 * sliceBytes then (s, .error St.eBusy)
    else ((s.takeMen).updPtn h.target fun x => { x with releasing := x.releasing ||| cgMask }, .ok ([doneItem], [])))

/-- No job runs on the core group and none has state saved in its slices. -/
def Ptn.cgQuiet (x : Ptn) (k : Nat) : Bool :=
  queueIds.all fun q => !bitAt (x.job q).cgs.toNat k && !(x.job q).saved.any fun c => c.mc / 8 = k

/-- The release of a core group takes effect (R281); before that condition the event does not occur. -/
def execCgReleaseEffect (p : PtnId) (cg : CgId) (s : State) : Res State :=
  let x := s.ptn p
  if !bitAt x.releasing.toNat cg || !x.cgQuiet cg then .next s
  else
    let one : BitVec 32 := BitVec.ofNat 32 (2 ^ cg.val)
    let s := s.updPtn p fun x =>
      let data := x.mem.dataSlots.toNat - 7
      { x with cgs := x.cgs &&& ~~~one, releasing := x.releasing &&& ~~~one
               jobs := x.jobs.mapVals {} fun j => { j with kept := j.kept &&& ~~~one }
               holders := x.holders.map fun h => { h with reserved := h.reserved &&& ~~~one }
               mem := { x.mem with dataSlots := BitVec.ofNat 8 data, fixSlots := BitVec.ofNat 8 (min x.mem.fixSlots.toNat data) } }
    let s := s.updPtn p (·.trim 0 |>.schedule)
    .next (({ s with pwr := s.pwr.setCg cg 2 }.reserve p true 1).reshare)

/-! ## PTN_DESTROY (R282) -/

/-- Marks an unlock as no longer exposing a partition (R463). -/
def Unlock.drop (u : Unlock) (p : PtnId) : Unlock :=
  { u with ptns := u.ptns.filter (·.1 ≠ p.val), mask := u.mask &&& ~~~ptnBit p }

def execPtnDestroy (h : Hdr) (s : State) : Res State :=
  .next (s.atOnce h 0x102 fun s =>
    let p := h.target
    let x := s.ptn p
    let retired := bitAt s.saf.psRetired.toNat p
    if x.st = 0 then (s, .error St.eParam)
    else if (x.st = 2 && !retired) || !x.flow.cmds.isEmpty then (s, .error St.eBusy)
    else
      let s := s.takeMen
      let s := { s with pwr := s.pwr.setCgs x.cgs 2, sec := { s.sec with unlock := s.sec.unlock.map fun u => Unlock.drop u p } }
      let s := s.reserve p true x.cgCount
      (((s.updPtn p fun _ => {}).reshare), .ok ([doneItem], [])))

/-! ## Partition reset (R284, R384, R390, R485) -/

/-- A group enters RESTORING: its rounds end and it drops the epoch it had been forming (R384, R414). -/
def Group.restore (g : Group) : Group :=
  { g with st := .restoring, restored := false, newEpoch := false, joined := [], heldExps := [], waiting := [],
           aborts := if g.rounds = [] then g.aborts else satInc g.aborts g.rounds.length, rounds := [] }

def groupHead (g : Group) (round : W64) : List Byte :=
  leBytes 4 g.block.group.toNat ++ leBytes 4 0 ++ leBytes 8 g.epoch.toNat ++ leBytes 8 round.toNat

/-- Sends a packet of a group to each other member that it can reach (R372, R383, R384). -/
def State.toMembers (s : State) (p : PtnId) (g : Group) (kind : Byte) (vl : BitVec 4) (payload : List Byte) : State :=
  (g.block.members.zipIdx.filter fun e => e.2 ≠ g.block.self.toNat).foldl (fun s e =>
    s.sendPkts 0 [{ dstNode := e.1.1, dstPtn := e.1.2, srcPtn := p, vl := vl, kind := kind, enc := g.block.enc, keyId := g.block.keyId, last := true, payload := payload }]) s

def State.updGroup (s : State) (p : PtnId) (g : W32) (f : Group → Group) : State :=
  s.updPtn p fun x => { x with groups := updFirst (fun y => y.block.group = g) f x.groups }

def Ptn.group? (x : Ptn) (g : W32) : Option Group := x.groups.find? (·.block.group = g)

/-- Every group goes to RESTORING and its members are sent ABORT (R384). -/
def State.abortGroups (s : State) (p : PtnId) : State :=
  (s.ptn p).groups.foldl (fun s g =>
    (s.toMembers p g 0x16 1 (groupHead g g.opened)).updGroup p g.block.group Group.restore) s

/-- A stream's result and tokens go into its command's record as a reset ends it (R224, R336). -/
def CmdRec.endStream (c : CmdRec) (fresh : Nat) (t : Stream) : CmdRec := { c with
  result := putResult c.result t.item (t.result (Config.free fresh (2 * t.id)) (t.acceptUs + Config.free fresh (2 * t.id + 1)))
  items := updNth (fun i => if i.closed then i else { i with detail := BitVec.ofNat 32 t.toks.length }) c.items t.item }

/-- What a reset does to a command: open items fail, and a command not started fails whole; a reply held under R25 stays, without the slices and copies the command had made (R71, R73, R284). -/
def CmdRec.onReset (x : Ptn) (fresh : Nat) (c : CmdRec) : CmdRec :=
  let c := (x.serve.streams.filter fun t => c.is t.queue t.seq).foldl (fun c t => c.endStream fresh t) c
  let items := if c.started then c.items else List.replicate (match c.cmd with | some i => x.itemsOf i | none => 1) {}
  { c with started := true, items := items.map (·.close (some St.ePtnReset)), prog := c.prog.map fun r => { r with ended := true }, slot := false, credits := 0, formed := [], copies := [], ergKept := 0 }

def Job.reset (j : Job) : Job := { j.left .idle with vt := 0 }

/-- Stops everything that works for a partition (R284). -/
def State.stopWork (s : State) (p : PtnId) : State :=
  let mine := s.launches.filter fun l => l.ptn = p
  let s := (mine.flatMap (·.threads)).foldl (fun s t => s.updTh t fun x => { x with running := false, wait := .none, loads := [], teOut := 0 }) s
  let s := { s with launches := s.launches.filter fun l => l.ptn ≠ p, xfers := s.xfers.filter fun x => x.ptn ≠ p || x.hdr.steward }
  let s := (tesOf (s.ptn p).cgs).foldl (fun s t => s.updTe t fun e => { e with reqs := e.reqs.filter fun w => w.ptn ≠ p }) s
  let s := (mcsOf (s.ptn p).cgs).foldl (fun s m => s.updMc m fun c => { c with tiles := 0, boundary := true, tileEnd := true, turnBusy := false, flight := [], fwTile := [] }) s
  qpIds.foldl (fun s n => s.updQp n fun x => { x with queue := x.queue.filter fun k => k.srcPtn ≠ p }) s

/-- Resets a partition with a cause (R284, R481, R485). -/
def State.resetPtn (s : State) (p : PtnId) (cause : Byte) : State :=
  let x := s.ptn p
  let s := (s.stopWork p).abortGroups p
  let s := s.updPtn p fun x => { x with
    st := 2
    jobs := x.jobs.mapVals {} (·.reset)
    sems := []
    holders := []
    tkeys := []
    models := x.models.map fun m => { m with pagesUsed := [], sets := m.sets.map fun w => { w with writing := false } }
    train := { x.train with mbs := [], runs := [] }
    serve := { x.serve with streams := [], inStep := [], worked := [], variants := x.serve.variants.filter (·.current) }
    fix := { x.fix with copies := [], restore := none, ship := none, hello := none }
    flow := { x.flow with rstCause := cause, rstCount := satInc x.flow.rstCount, resetMark := x.flow.nextNum, cmds := x.flow.cmds.map (CmdRec.onReset x s.fresh) } }
  let s := { s with fresh := s.fresh + 1 }
  let hs := x.flow.cmds.map (·.hdr)
  hs.foldl (fun s h => s.tryReport h) s

/-- Replies of commands accepted before the reset that a strip still holds. -/
def Ptn.resetHeld (x : Ptn) : Bool := x.flow.cmds.any fun c => c.num < x.flow.resetMark

/-- The reply of PTN_RESET, once the reset is complete and every item has been reported. -/
def State.finishReset (s : State) (p : PtnId) : State :=
  if (s.ptn p).st ≠ 1 || (s.ptn p).resetHeld then s
  else
    match s.stew.cmds.find? fun c => c.opcode = 0x105 && c.started && c.hdr.target = p && !c.isOver with
    | some c => (s.closeItem c.hdr 0 none).settle c.hdr
    | none => s

def execPtnReset (h : Hdr) (s : State) : Res State :=
  let s := s.ensureCmd h 0x105 true
  match s.cmdOf h with
  | none => .next s
  | some c =>
    if !s.mayStart c then .next s
    else if (s.ptn h.target).st = 0 then .next (s.reject h 0x105 St.eParam)
    else .next (((s.open' h 1).takeMen).resetPtn h.target 0x10)

/-- The reset completes: STATE leaves RESETTING for ACTIVE, but not while the sequencer pair is retired (R284, R430). -/
def execPartitionResetComplete (p : PtnId) (s : State) : Res State :=
  let s := if (s.ptn p).st = 2 && !bitAt s.saf.psRetired.toNat p then s.updPtn p fun x => { x with st := 1 } else s
  .next (s.finishReset p)

end Sys2Proof.Machine
end

