-- ==== Sys2Proof/Machine/Accept.lean ====
section
/-! DEFINITION. Checks made when a command is accepted that need its partition: loaded programs, bindings, core groups, and the time of non-preemptible work (R143, R289, R301, R311, R318, R345, R348, R509, R511). -/

namespace Sys2Proof.Machine

/-! ## The estimate of R301 -/

/-- What is known where a step begins: cycles of the longest path to it, and the value each counter was set to on every path. -/
structure Flow where
  cost : Nat := 0
  ctr : List (Option Nat) := List.replicate 8 none
deriving DecidableEq, Repr

/-- Two paths meet: the longer counts, and a counter not set on both is not known; the larger of two values counts. -/
def Flow.join (a : Flow) : Option Flow → Flow
  | none => a
  | some b => ⟨max a.cost b.cost, (a.ctr.zip b.ctr).map fun e => match e with | (some x, some y) => some (max x y) | _ => none⟩

/-- Cycles of a plan: tile_cycles of its busiest core (R78). -/
def planCycles (recs : List PlanRec) : Nat :=
  let cores := recs.filterMap fun r => match r with | .run c _ => some c | _ => none
  (cores.map fun c => let t := tilesOf (coreRuns recs c) []; ((t.1 ++ [t.2]).map fun ds => if ds = [] then 0 else tileCycles ds).sum).foldl max 0

abbrev Flows := Tab (Option Flow)

def Flows.meet (t : Flows) (pc : Nat) (f : Flow) : Flows := t.put none pc (some (f.join (t.get none pc)))

/-- What is known from step `start` up to `stop`, where an END leads past the last step; none without a bound. -/
def progFlow (im : Image) : Nat → Nat → Nat → Flow → Option Flows
  | 0, _, _, _ => none
  | fuel + 1, start, stop, f0 =>
    let n := im.steps.length
    (List.range (stop - start)).foldl (fun acc i => acc.bind fun t =>
      let pc := start + i
      match t.get none pc with
      | none => some t
      | some f =>
        let x := im.steps.getD pc {}
        let a := x.a.toNat; let b := x.b.toNat
        match x.sop.toNat with
        | 1 => some (t.meet (pc + 1) { f with cost := f.cost + planCycles (im.plans.getD a []) })
        | 5 => if a ≤ pc then none else some ((t.meet a f).meet (pc + 1) f)
        | 6 => if a ≤ pc then none else some (t.meet a f)
        | 8 => some (t.meet (pc + 1) { f with ctr := f.ctr.set (a % 8) (some (if x.imm = 0 then 2 ^ 32 else x.imm.toNat)) })
        | 9 =>
          if b > pc then some ((t.meet b f).meet (pc + 1) f)
          else
            let entry := (t.get none b).getD f
            match entry.ctr.getD (a % 8) none, progFlow im fuel b pc { entry with cost := 0 } with
            | some k, some body =>
              let once := ((body.get none pc).map (·.cost)).getD 0
              some (t.meet (pc + 1) { f with cost := f.cost + (k - 1) * once })
            | _, _ => none
        | 11 => some (t.meet n f)
        | _ => some (t.meet (pc + 1) f)) (some ([(start, some f0)] : Flows))

/-- CORE cycles of 2 ms at 1.6 GHz. -/
def npLimit : Nat := 3200000

/-- The estimate of a program's entry exceeds 2 ms. -/
def progTooLong (im : Image) (e : EntryRec) : Bool :=
  match progFlow im (im.steps.length + 1) e.first im.steps.length {} with
  | some t => (((t.get none im.steps.length).map (·.cost)).getD 0) > npLimit
  | none => true

/-- Bytes moved through the partition's slots take over 2 ms: each data slot moves 8,192 bytes in 960 ns (R253). -/
def Ptn.bytesTooLong (x : Ptn) (n : Nat) : Bool := n > 0 && n * 960 > 2000000 * 8192 * x.mem.dataSlots.toNat

/-- Bytes of a table-engine request that lie in LPDDR5X. -/
def TeReq.lpBytes (r : TeReq) : Nat :=
  let c := r.count.toNat
  let f := fun (a : W48) (n : Nat) => if inLp a.toNat then n else 0
  match r.op.toNat with
  | 0 => f r.tableAddr (c * r.stride) + f r.dataAddr (c * r.stride) + f r.indexAddr (4 * c)
  | 1 => f r.tableAddr (c * r.stride) + f r.dataAddr (4 * r.rowElems.toNat) + f r.indexAddr (4 * c)
  | 2 => f r.tableAddr (2 * c * r.stride) + f r.dataAddr (c * r.stride) + f r.indexAddr (4 * c)
  | _ => f r.tableAddr (c * r.stride)

/-! ## Programs (R345, R348, R509 step 5, R511) -/

/-- Matrix cores a program may name: of the queue's FOOTPRINT, or of all core groups held; an entry with FIXED names those of all held (R108, R511). -/
def Ptn.coreLimit (x : Ptn) (q : QueueId) (fixed : Bool) : Nat := 8 * if fixed then popcount x.cgs.toNat 32 else x.limitCgs q

def planCores (limit : Nat) (x : Ptn) (binds : List W64) (ts : List TensorDesc) (plan : List PlanRec) : Option Status :=
  plan.zipIdx.findSome? fun e =>
    match e.1 with
    | .split d => splitCheck plan e.2 d limit
    | .run c d =>
      if c ≥ limit then some St.eFootprint
      else if !x.opInErg binds (ts.getD d.sTensor.toNat {}) || !x.opInErg binds (ts.getD d.wTensor.toNat {}) then some St.eOperandLoc
      else none
    | .waitSem c _ => if c ≥ limit then some St.eFootprint else none
    | .postSem c _ => if c ≥ limit then some St.eFootprint else none

/-- The program and the entry that a command names. -/
def Ptn.progNamed (x : Ptn) (prog entry : Nat) : Option Status :=
  match x.prog? prog with
  | none => some St.eHandle
  | some pr => if entry < pr.image.entries.length then none else some St.eParam

/-- The checks of a program that depend on the command's parameters, over its sections in the order of the section table (R348, R509). -/
def Ptn.progCheck (x : Ptn) (q : QueueId) (smode : BitVec 2) (np : Bool) (prog entry : Nat) (binds : List W64) : Option Status :=
  match x.prog? prog with
  | none => some St.eHandle
  | some pr =>
    let im := pr.image
    match im.entries[entry]? with
    | none => some St.eParam
    | some e =>
      let limit := x.coreLimit q e.fixed
      if im.tensors.any fun t => t.bind && t.bindIndex.toNat ≥ binds.length then some St.eParam
      else
        match im.order.findSome? fun sec =>
          match sec with
          | 3 => im.kernels.findSome? (cvtModeCheck smode)
          | 4 => if im.launches.any fun l => l.cores.any fun c => c.core ≥ limit then some St.eFootprint else none
          | 5 => im.plans.findSome? (planCores limit x binds im.tensors)
          | 7 => if e.fixed && (x.job q).footprint ≠ 0 then some St.eFootprint else none
          | _ => none with
        | some c => some c
        | none => if np && progTooLong im e then some St.eTooLong else none

def insNat (n : Nat) : List Nat → List Nat
  | [] => [n]
  | a :: r => if n < a then n :: a :: r else if n = a then a :: r else a :: insNat n r

/-- The distinct CORE values of an image, ascending (R511). -/
def Image.cores (im : Image) : List Nat :=
  let ls := im.launches.flatMap fun l => l.cores.map (·.core)
  let ps := im.plans.flatMap fun p => p.flatMap fun r => match r with
    | .run c _ => [c]
    | .waitSem c _ => [c]
    | .postSem c _ => [c]
    | .split d => (d.partMc.take (SplitParts.count d)).map (·.toNat)
  (ls ++ ps).foldl (fun a n => insNat n a) []

/-- A tile's place in a product, and its runs without the accumulator tile they use. -/
def tileKey (t : List RunDesc) : Option (W16 × W16 × W32 × W32) := t.head?.map fun d => (d.sTensor, d.wTensor, d.sRow, d.nOff)
def tileRuns (t : List RunDesc) : List RunDesc := t.map fun d => { d with accBase := 0 }

/-- A core's tiles over all plans, in record order. -/
def Image.coreTiles (im : Image) (core : Nat) : List (List RunDesc) := (tilesOf (im.plans.flatMap fun pl => coreRuns pl core) []).1

/-- A program computes a tile twice on a core with runs that differ: the second is its sweep 2 (R154; DESIGN CHOICE, log entry 76). -/
def Image.sweepsDiffer (im : Image) : Bool :=
  im.cores.any fun c => let ts := im.coreTiles c
    ts.any fun a => ts.any fun b => decide (tileKey a = tileKey b) && !decide (tileRuns a = tileRuns b)

/-- FULL and TOPK programs whose sweeps differ (R154). -/
def Ptn.sweepCheck (x : Ptn) (prog : Nat) (d : ContactDesc) : Option Status :=
  if decide (d.family.toNat < 2) && (match x.prog? prog with | some q => q.image.sweepsDiffer | none => false) then some St.eContactDesc else none

/-- FULL and TOPK LIVE work needs two core groups (R143, R289). -/
def Ptn.contactFoot (x : Ptn) (q : QueueId) (d : ContactDesc) : Option Status :=
  if (d.family = 0 || (d.family = 1 && !d.tsrc)) && x.footprint q < 2 then some St.eFootprint else none

/-- A contact-path command whose models are not resident (R143); stored targets need no teacher. -/
def Ptn.contactModels (x : Ptn) (b : StepBlock) : Option Status :=
  if (x.model? b.student.toNat).isNone || (b.teacher ≠ 0xFFFF && (x.model? b.teacher.toNat).isNone) then some St.eContactDesc else none

/-- What a command's acceptance checks beside its own block (R318 check 12). -/
def Ptn.acceptCheck (x : Ptn) (h : Hdr) (smode : BitVec 2) : Instr → Option Status
  | .tableOp _ rs => if h.expert && x.bytesTooLong (rs.map TeReq.lpBytes).sum then some St.eTooLong else none
  | .dataIn _ _ a n => if h.nopreempt && inLp a.toNat && x.bytesTooLong n.toNat then some St.eTooLong else none
  | .dataOut _ _ a n => if h.nopreempt && inLp a.toNat && x.bytesTooLong n.toNat then some St.eTooLong else none
  | .modelLoad _ a n _ _ => if h.nopreempt && inLp a.toNat && x.bytesTooLong n.toNat then some St.eTooLong else none
  | .reduce _ _ _ n src dst => if h.nopreempt && x.bytesTooLong ((if inLp src.toNat then 4 * n.toNat else 0) + if inLp dst.toNat then 4 * n.toNat else 0) then some St.eTooLong else none
  | .distillStep _ b e =>
    if h.expert then ((((x.progNamed e.program.toNat e.entry.toNat).or (progBlockCheck e true true)).or (x.contactFoot h.queue e.contact)).or (x.sweepCheck e.program.toNat e.contact)).or (x.progCheck h.queue smode h.nopreempt e.program.toNat e.entry.toNat e.binds)
    else ((x.contactModels b).or (stepCheck b false)).or (x.contactFoot h.queue b.contact)
  | .eval _ b e =>
    if h.expert then ((((x.progNamed e.program.toNat e.entry.toNat).or (progBlockCheck e true false)).or (x.contactFoot h.queue e.contact)).or (x.sweepCheck e.program.toNat e.contact)).or (x.progCheck h.queue smode h.nopreempt e.program.toNat e.entry.toNat e.binds)
    else ((x.contactModels b).or (stepCheck b true)).or (x.contactFoot h.queue b.contact)
  | .progRun _ e => ((x.progNamed e.program.toNat e.entry.toNat).or (progBlockCheck e false false)).or (x.progCheck h.queue smode h.nopreempt e.program.toNat e.entry.toNat e.binds)
  | .fwdMb _ e => ((x.progNamed e.program.toNat e.entry.toNat).or (progBlockCheck e false false)).or <| x.progCheck h.queue smode h.nopreempt e.program.toNat e.entry.toNat e.binds
  | .bwdMb _ e => ((x.progNamed e.program.toNat e.entry.toNat).or (progBlockCheck e false false)).or <| x.progCheck h.queue smode h.nopreempt e.program.toNat e.entry.toNat e.binds
  | .genSubmit _ p e _ => if h.expert then x.progCheck h.queue smode h.nopreempt p.toNat e.toNat [] else none
  | .modelUnload _ m => if (x.model? m.toNat).isNone then some St.eHandle else none
  | .progUnload _ m => if (x.prog? m.toNat).isNone then some St.eHandle else none
  | .variantLoad _ m _ _ _ => if (x.model? m.toNat).isNone then some St.eHandle else none
  | .variantUnload _ m _ => if (x.model? m.toNat).isNone then some St.eHandle else none
  | .negativeShip _ m _ _ => if (x.model? m.toNat).isNone then some St.eHandle else none
  | .update _ m _ _ _ o => if (x.model? m.toNat).isNone then some St.eHandle else if optBad o then some St.eParam else none
  | _ => none

/-- The slices that a program forms fit in the Erg before any item starts (R71). -/
def State.slicesCheck (s : State) (h : Hdr) (prog : Nat) : Option Status :=
  match (s.ptn h.ptn).prog? prog with
  | some pr => if (s.ptn h.ptn).ergFits pr.image.longBytes then none else some St.eErgFull
  | none => none

/-- The acceptance checks of a command whose row comes without a packet; one that a packet brought has passed them (R318). -/
def State.startCheck (s : State) (h : Hdr) (i : Instr) : Option Status :=
  match s.cmdOf h with
  | some c => if c.slot then none else (s.ptn h.ptn).acceptCheck c.hdr c.numMode.smode i
  | none => none

end Sys2Proof.Machine
end

