-- ==== Sys2Proof/Machine/Product.lean ====
section
/-! DEFINITION. Whole products on the arrays, as the firmware cuts them: runs of full depth from reduction index 0 in ascending order, the slice products of each in the order of R69, every run output promoted (R58, R62 to R71, R86 to R88, R102). -/

namespace Sys2Proof.Machine

/-- Runs of a reduction of depth k: their reduction indices (R102). -/
def depthRuns (full k : Nat) : List (List Nat) := (List.range (ceilDiv k full)).map fun c => ((List.range full).map (full * c + ·)).filter (· < k)

/-- One array run's contribution to one entry: the column's output, promoted (R65, R76, R88). -/
def entryRun (q4f : Bool) (x w : Nat → Nat) (ks : List Nat) (e : Entry) : Entry × Ev :=
  let o := column 0 {} (ks.map fun q => product q4f (x q) (w q))
  let p := e.promote (a20.decode o.1)
  (p.1, (runOutputEv o.1 o.2).add p.2)

/-- One entry of a product: `x` and `w` give the elements of each slice along the reduction dimension. -/
def entryProduct (d : RunDesc) (k : Nat) (x w : Nat → Nat → Nat) (start : Entry) : Ct Entry :=
  (depthRuns (if d.q4 then 128 else 64) k).foldlM (fun e ks =>
    d.products.foldlM (fun e ab => Ct.lift (entryRun d.q4 (x ab.1) (w ab.2) ks e)) e) start

/-- A product of m streamed rows and n columns over k reduction indices, from the entries it is added to, row by row. -/
def matProduct (d : RunDesc) (m k n : Nat) (x w : Elem) (start : Nat → Entry) : Ct (List Entry) :=
  (List.range (m * n)).mapM fun e => entryProduct d k (fun sl q => x sl (e / n) q) (fun sl q => w sl q (e % n)) (start e)

/-- An operand from one converted tensor; any further slice is a null block (R506). -/
def shortOperand (cols : Nat) (t : Short) : Elem := fun sl r c => if sl = 0 then (t.get 0 (r * cols + c)).toNat else nullElem

/-- Forms k slices of a long operand; slice 0 counts (R67, R68). -/
def slicedOperand (k rows cols : Nat) (vals : List XVal) : Ct Elem := fun e =>
  let r := formSlices k rows cols vals
  (fun sl i j => (r.1.get 0 ((sl * rows + i) * cols + j)).toNat, e.add { r.2.1 with amax := r.2.2.foldl amaxFold 0 })

/-- An operand read turned (R36). -/
def turned (x : Elem) : Elem := fun sl r c => x sl c r

def wordVals (ws : List W32) : List XVal := ws.map fun w => b32.decode w.toNat

/-- The Q6 three-pass product of an m × k and a k × n array of binary32 patterns. -/
def q6Product (m k n : Nat) (a b : List W32) : Ct (List W32) := do
  let x ← slicedOperand 3 m k (wordVals a)
  let w ← slicedOperand 3 k n (wordVals b)
  let es ← matProduct { passes := 3 } m k n x w fun _ => {}
  pure (es.map (·.sum))

end Sys2Proof.Machine
end

