-- ==== Sys2Proof/Machine/Layers.lean ====
section
/-! DEFINITION. What a model's layers compute, forward and backward: products and their operands, normalisation, attention, gated activations, experts, and the stash entries between the two passes (R33, R36, R38, R66 to R73, R168 to R176, R181, R182, R188, R346). -/

namespace Sys2Proof.Machine

/-! ## Values of a tensor (R34, R66, R516) -/

/-- Exact value of element (r, c): over a slice set, the sum of its slices. -/
def tensorValue (t : TensorDesc) (bytes : List Byte) (e sc r c : Nat) : XVal :=
  let ty := tensorTy t
  let sh := t.shape.toNat; let rows := t.rows.toNat; let cols := t.cols.toNat
  let eb := elemBytes ty sh rows cols; let sb := scaleBytes ty sh rows cols
  (List.range (t.slices.toNat + 1)).foldl (fun a k =>
    let arr := (bytes.drop (e + k * eb)).take eb
    let sl := (bytes.drop (sc + k * sb)).take sb
    a.add (memValue ty (codeAt ty sh cols arr r c) (scaleAt ty sh cols sl r c))) XVal.zero

/-- A tensor as binary32 patterns, row by row. -/
def tensorWords (t : TensorDesc) (bytes : List Byte) : List W32 :=
  (List.range (t.rows.toNat * t.cols.toNat)).map fun i =>
    BitVec.ofNat 32 (b32.round (tensorValue t bytes t.addr.toNat t.scaleAddr.toNat (i / t.cols.toNat) (i % t.cols.toNat))).1

/-- Slice 0 of a short tensor, as the arrays read it: code, and scale in [15:8]. -/
def tensorElem (t : TensorDesc) (bytes : List Byte) : Elem := fun sl r c =>
  if sl ≠ 0 || r ≥ t.rows.toNat || c ≥ t.cols.toNat then nullElem
  else
    let ty := tensorTy t; let sh := t.shape.toNat; let cols := t.cols.toNat
    codeAt ty sh cols (bytes.drop t.addr.toNat) r c + 256 * scaleAt ty sh cols (bytes.drop t.scaleAddr.toNat) r c

/-- Shared region, as far as it is filled (R240). -/
def State.sharedBytes (s : State) : List Byte := s.mem.readN (some (32, s.mod.label)) (lpBase + s.mod.base.toNat * gib) s.mod.fill.toNat

/-! ## Turned copies (R37, R73, R171) -/

/-- A frozen weight that a dX product reads from a copy. -/
def copiesTurned (t : TensorDesc) : Bool := !t.trainable && isShortCode t.type.toNat && (t.shape ≠ 4 || t.type = 4)

/-- Descriptor of a weight's turned copy: Q6, blocks of the source's length along its columns, or 4 × 4. -/
def turnedDesc (t : TensorDesc) : TensorDesc := if t.shape = 4 then { t with type := 5, slices := 0 } else copyDesc false false t

/-- A weight's turned copy. -/
def turnedCopy (sat : Bool) (sr : Nat → Option Nat) (t : TensorDesc) (bytes : List Byte) : Short × Ev :=
  quantise q6 sat sr (turnedDesc t).shape.toNat t.rows.toNat t.cols.toNat fun i =>
    tensorValue { t with slices := 0 } bytes t.addr.toNat t.scaleAddr.toNat (i / t.cols.toNat) (i % t.cols.toNat)

/-- Layers from the gradient floor upwards, with their numbers: from the lowest layer with a trainable tensor (DESIGN CHOICE, log entry 31). -/
def Image.aboveFloor (im : Image) : List (Nat × Layer) :=
  (im.layers.mapIdx fun i l => (i, l)).dropWhile fun e => !e.2.tensors.any fun t => t ≠ 0xFFFF && (im.tensors.getD t.toNat {}).trainable

/-! ## Matrices of binary32 patterns -/

namespace Mat
def get (a : Mat) (r c : Nat) : Nat := a.v.getD (r * a.cols + c) 0
def row (a : Mat) (r : Nat) : List Nat := (List.range a.cols).map (a.get r)
def val (a : Mat) (i : Nat) : XVal := b32.decode (a.v.getD i 0)
def of (rows cols : Nat) (f : Nat → Nat → Nat) : Mat := ⟨rows, cols, (List.range (rows * cols)).map fun i => f (i / cols) (i % cols)⟩
/-- Rows r0 to r0 + n - 1; columns c0 to c0 + n - 1. -/
def rowsOf (a : Mat) (r0 n : Nat) : Mat := of n a.cols fun r c => a.get (r0 + r) c
def colsOf (a : Mat) (c0 n : Nat) : Mat := of a.rows n fun r c => a.get r (c0 + c)
/-- The rows of b after those of a. -/
def under (a b : Mat) : Mat := if a.rows = 0 then b else ⟨a.rows + b.rows, a.cols, a.v ++ b.v⟩
def ofRows (cols : Nat) (rs : List (List Nat)) : Mat := ⟨rs.length, cols, rs.flatten⟩
/-- The SUM fields of entries that stand row by row (R93). -/
def sums (rows cols : Nat) (es : List Entry) : Mat := ⟨rows, cols, es.map fun e => e.sum.toNat⟩
/-- Entries loaded from a matrix as a B32 load loads them (R91). -/
def load (a : Mat) : List Entry := a.v.map fun x => Entry.loaded x 0
end Mat

def entriesAt (es : List Entry) (i : Nat) : Entry := es.getD i {}

/-! ## A model as its products read it -/

/-- A model's tensors at the versions a command reads, and how the command converts. -/
structure Net where
  im : Image
  /-- Values of a tensor, row by row: of its version buffer where it is trainable. -/
  words : Nat → List W32
  /-- Exact value of a tensor's element, by row × COLS + column, which may lie outside binary32 (R43). -/
  exact : Nat → Nat → XVal
  /-- Stored elements of a frozen short tensor. -/
  elem : Nat → Elem
  /-- Elements of its resident turned copy, if it has one. -/
  copy : Nat → Option Short
  /-- Conversions under the command's sampled SAT and RND (R55). -/
  sat : Bool
  sr : Nat → Option Nat
  /-- The scale byte of every block, in GIVEN mode (R44, R53). -/
  given : Option Nat := none
  /-- Row of the product's operand that row 0 of a matrix is: the position of a generation pass's first row, else 0 (R47; DESIGN CHOICE, log entry 90). -/
  row0 : Nat := 0
  /-- STASH_FMT, and whether the layers keep a stash at all: those of a generation step, a teacher's and an EVAL's keep none, nor do those below the gradient floor (R181). -/
  q6f : Bool
  keep : Bool := true
  /-- First position of a token's sequence: no row of the table gives it (DESIGN CHOICE, log entry 74). -/
  start : Nat → Nat

/-- An operand of a product: its format, the slices it takes, and its elements. -/
structure Operand where
  q4 : Bool := false
  passes : Nat := 1
  el : Elem

namespace Net

def tens (w : Net) (i : Nat) : TensorDesc := w.im.tensors.getD i { rows := 0, cols := 0 }
def rows (w : Net) (i : Nat) : Nat := (w.tens i).rows.toNat
def cols (w : Net) (i : Nat) : Nat := (w.tens i).cols.toNat
def word (w : Net) (i k : Nat) : Nat := ((w.words i).getD k 0).toNat
/-- Tensor index of a role of a layer. -/
def role (l : Layer) (k : Nat) : Nat := (l.tensors.getD k 0xFFFF).toNat

/-- A conversion of the firmware's under what the command sampled: SAT, RND and the scale mode (R43, R44, R53, R55). Index i of R47 counts over the piece that is converted (DESIGN CHOICE, log entry 90). -/
def quant (w : Net) (g : SFmt) (shape : Nat) (x : Mat) : Ct Elem := do
  let c ← Ct.lift (quantiseAt w.given g w.sat (fun i => w.sr (w.row0 * x.cols + i)) shape x.rows x.cols x.val)
  pure (shortOperand x.cols c)

/-- A frozen weight that goes to Q6 for its forward product, in its own shape, or in 4 × 4 blocks where it has none. -/
def weightQ6 (w : Net) (i : Nat) : Short × Ev :=
  quantiseAt w.given q6 w.sat w.sr (if isShortCode (w.tens i).type.toNat then (w.tens i).shape.toNat else 4) (w.rows i) (w.cols i) (w.exact i)

/-- The turned copy of a frozen weight that the command makes (R37, R73, R171). -/
def turnedNew (w : Net) (i : Nat) : Short × Ev := quantise q6 w.sat w.sr (turnedDesc (w.tens i)).shape.toNat (w.rows i) (w.cols i) (w.exact i)

/-- A weight as the forward product reads it: split precision where it is trainable, its stored format otherwise; a Q8 one goes to Q6 in its own shape, a long one to one Q6 slice (R30, R66, R71, R172; DEDUCED, log entry 74). What its slices or its conversion count is counted once per command. -/
def weight (w : Net) (i : Nat) : Operand :=
  let t := w.tens i
  if t.trainable then ⟨false, 3, ((slicedOperand 3 (w.rows i) (w.cols i) (wordVals (w.words i))).run').1⟩
  else if t.type = 4 then ⟨true, 1, w.elem i⟩
  else if t.type = 5 then ⟨false, 1, w.elem i⟩
  else ⟨false, 1, shortOperand (w.cols i) (w.weightQ6 i).1⟩

/-- A weight as its dX product reads it, turned: directly, or from a copy, resident or made once for the command, whose conversions are counted then (R73, R171). -/
def weightTurned (w : Net) (i : Nat) : Operand :=
  if !copiesTurned (w.tens i) then w.weight i
  else match w.copy i with
    | some c => ⟨false, 1, shortOperand (w.cols i) c⟩
    | none => ⟨false, 1, shortOperand (w.cols i) (w.turnedNew i).1⟩

/-- The streamed operand of a product with a weight: three slices for a trainable one, else blocks along the reduction dimension in the weight's format (R33, R38, R55, R172). -/
def streamed (w : Net) (o : Operand) (x : Mat) : Ct Elem :=
  if o.passes = 3 then slicedOperand 3 x.rows x.cols (x.v.map b32.decode)
  else w.quant (if o.q4 then q4 else q6) 0 x

/-- A product added to entries: m rows, n columns, over k reduction indices. -/
def mul (o : Operand) (m k n : Nat) (x w : Elem) (start : List Entry) : Ct (List Entry) :=
  matProduct { fmt := if o.q4 then 1 else 0, passes := BitVec.ofNat 2 o.passes } m k n x w (entriesAt start)

/-- Y = X · W, added to entries (R168, R169). -/
def linear (w : Net) (i : Nat) (x : Mat) (start : List Entry) : Ct (List Entry) := do
  let o := w.weight i
  let e ← w.streamed o x
  mul o x.rows (w.rows i) (w.cols i) e o.el start

/-- Y = X · W as the SUM fields of fresh entries. -/
def apply (w : Net) (i : Nat) (x : Mat) : Ct Mat := do
  let es ← w.linear i x []
  pure (Mat.sums x.rows (w.cols i) es)

/-! ### Layers forward -/

/-- One row of a normalisation: its output, and r (R175). -/
def rmsRow (g x : List Nat) (eps : Nat) : Ct (List Nat × Nat) := do
  let ss := reduce 1 false none (x.map fun a => some (b32.decode a))
  let _ ← Ct.lift ((), ss.ev)
  let mean ← Ct.fdiv ss.res.toNat (b32.round (XVal.ofNat x.length)).1
  let a ← Ct.fadd mean eps
  let q ← Ct.fsqrt a
  let r ← Ct.fdiv fOne q
  let y ← (g.zip x).mapM fun e => do let u ← Ct.fmul e.1 e.2; Ct.fmul u r
  pure (y, r)

/-- A stash entry as an array reads it: a Q6 one as it stands, a Q8 one converted to Q6 in BLOCK mode with its 4 × 4 shape; a layer that keeps no stash converts the value itself (R30, R55, R170, R181). -/
def entry (w : Net) (x : Mat) : Ct Elem :=
  if !w.keep then w.quant q6 4 x
  else if w.q6f then pure (shortOperand x.cols (quantise q6 true (fun _ => none) 4 x.rows x.cols x.val).1)
  else do
    let c ← Ct.lift (quantise q6 w.sat w.sr 4 x.rows x.cols x.val)
    pure (shortOperand x.cols c)

/-- A one-pass Q6 product of two operands, as SUM fields. -/
def one (m k n : Nat) (x w : Elem) : Ct Mat := do
  let es ← mul ⟨false, 1, x⟩ m k n x w []
  pure (Mat.sums m n es)

/-- Elements of some columns of an operand; of its transpose. -/
def slab (x : Elem) (c0 : Nat) : Elem := fun sl r c => x sl r (c0 + c)

/-- Heads of an attention layer, and the width of one. -/
def qHeads (l : Layer) : Nat := bits l.param.toNat 0 8
def kvHeads (l : Layer) : Nat := bits l.param.toNat 8 8
def headWidth (w : Net) (l : Layer) : Nat := w.cols (role l 0) / qHeads l

/-- c of the scores of a layer (R176). -/
def attScale (l : Layer) : Nat := (b32.fmul l.fval.toNat log2eW).1

/-- Whether position j of a sequence is visible from row i of a matrix whose first row is position p0. -/
def sees (w : Net) (p0 i j : Nat) : Bool := w.start (p0 + i) ≤ j && j ≤ p0 + i

/-- λ of each row of a head's scores, folded over its visible positions in tiles of 64; none for a row that sees nothing (R149, R176; DEDUCED, log entry 74). -/
def lambdas (w : Net) (p0 : Nat) (y : Mat) : Ct (List (Option Nat)) :=
  (List.range y.rows).mapM fun i => do
    let ys := ((List.range y.cols).filter (w.sees p0 i)).map (y.get i)
    if ys = [] then pure none else do let l ← lseAll ys; pure (some l)

/-- The probabilities of a head's scores (R176). -/
def probs (w : Net) (p0 : Nat) (y : Mat) (lam : List (Option Nat)) : Ct Mat := do
  let rs ← (List.range y.rows).mapM fun i => (List.range y.cols).mapM fun j =>
    match lam.getD i none with
    | some l => if w.sees p0 i j then do let d ← Ct.fsub (y.get i j) l; Ct.exp2 d else pure 0
    | none => pure 0
  pure (Mat.ofRows y.cols rs)

/-- The scaled scores of head h: Q · Kᵀ in one Q6 pass, times c. -/
def scores (w : Net) (l : Layer) (h m n : Nat) (q k : Elem) : Ct Mat := do
  let d := w.headWidth l
  let kh := h / (qHeads l / kvHeads l)
  let s ← one m d n (slab q (h * d)) (turned (slab k (kh * d)))
  let y ← s.v.mapM fun a => Ct.fmul a (attScale l)
  pure ⟨m, n, y⟩

/-- Attention over stashed Q, K and V (all keys from position 0; row 0 of Q stands at p0): each head's output, and its λ (R176). -/
def attend (w : Net) (l : Layer) (p0 : Nat) (q k v : Mat) : Ct (Mat × List (List (Option Nat))) := do
  let qe ← w.entry q
  let ke ← w.entry k
  let ve ← w.entry v
  let d := w.headWidth l
  let hs ← (List.range (qHeads l)).mapM fun h => do
    let y ← w.scores l h q.rows k.rows qe ke
    let lam ← w.lambdas p0 y
    let p ← w.probs p0 y lam
    let pe ← w.quant q6 4 p
    let o ← one q.rows k.rows d pe (slab ve (h / (qHeads l / kvHeads l) * d))
    pure (o, lam)
  pure (Mat.of q.rows (qHeads l * d) (fun r c => ((hs.map (·.1)).getD (c / d) {}).get r (c % d)), hs.map (·.2))

/-- The gated activation, whose function the spec does not give (DESIGN CHOICE, log entry 74). -/
def gate (g u : Mat) : Mat := Mat.of g.rows g.cols fun r c => (Config.gated (BitVec.ofNat 32 (g.get r c)) (BitVec.ofNat 32 (u.get r c))).toNat

/-- A router's choice for a token: experts and their weights, functions of its scores that the spec does not give (DESIGN CHOICE, log entry 74). -/
def pick (scores : List Nat) (k : Nat) : List (Nat × Nat) :=
  (List.range k).map fun j => (Config.routerExpert (scores.map (BitVec.ofNat 32 ·)) j % max 1 scores.length, (Config.routerWeight (scores.map (BitVec.ofNat 32 ·)) j).toNat)

/-- An operand's part that belongs to expert e of a stack: its rows from row e * n (DESIGN CHOICE, log entry 74). -/
def ofExpert (o : Operand) (e n : Nat) : Operand := { o with el := fun sl r c => o.el sl (e * n + r) c }

/-- What a layer keeps for the backward pass. -/
structure Save where
  x : Mat := {}
  r : List Nat := []
  q : Mat := {}
  k : Mat := {}
  v : Mat := {}
  o : Mat := {}
  lam : List (List (Option Nat)) := []
  g : Mat := {}
  u : Mat := {}
  a : Mat := {}
  routes : List (List (Nat × Nat)) := []
deriving DecidableEq, Repr

/-- The forward pass between two layers: residual stream, what the next layer reads, the router's choice, what each layer keeps, and each layer's output. -/
structure Fwd where
  res : Mat := {}
  cur : Mat := {}
  routes : List (List (Nat × Nat)) := []
  saves : List Save := []
  outs : List Mat := []
deriving DecidableEq, Repr

/-- A value as its stash entry holds it: STASH_FMT in 4 × 4 blocks, BLOCK mode, SAT = 1, to nearest even (R181). -/
def stashed (w : Net) (x : Mat) : Ct Mat := if !w.keep then pure x else do
  let g := if w.q6f then q6 else q8
  let c ← Ct.lift (quantise g true (fun _ => none) 4 x.rows x.cols x.val)
  pure ⟨x.rows, x.cols, (List.range (x.rows * x.cols)).map fun i => (b32.round (shortValue g c i)).1⟩

/-- A gated layer on rows that read cur: pre-activations, activations, and its output added to the residual stream. -/
def ffn (w : Net) (l : Layer) (cur res : Mat) : Ct (Mat × Save) := do
  let g ← w.apply (role l 0) cur
  let u ← w.apply (role l 1) cur
  let a := gate g u
  let y ← w.linear (role l 2) a res.load
  let gs ← w.stashed g
  let us ← w.stashed u
  let as ← if (w.tens (role l 2)).trainable then w.stashed a else pure {}
  let xs ← if (w.tens (role l 0)).trainable || (w.tens (role l 1)).trainable then w.stashed cur else pure {}
  pure (Mat.sums res.rows res.cols y, { g := gs, u := us, a := as, x := xs })

/-- Stacked experts: a token's chosen experts in the order of its choice, each output added to the residual stream; the weight of the choice scales the activation (DESIGN CHOICE, log entry 74). -/
def experts (w : Net) (l : Layer) (cur res : Mat) (routes : List (List (Nat × Nat))) : Ct (Mat × Save) := do
  let n := l.param.toNat
  let d := w.rows (role l 0) / max 1 n
  let f := w.rows (role l 2) / max 1 n
  let wg := w.weight (role l 0); let wu := w.weight (role l 1); let wd := w.weight (role l 2)
  let xg ← w.streamed wg cur
  let xu ← w.streamed wu cur
  let rs ← (List.range cur.rows).mapM fun t => do
    let row := fun (x : Elem) => (fun sl _ c => x sl t c : Elem)
    (routes.getD t []).foldlM (fun (st : List Entry × List (List Nat × List Nat × List Nat)) e => do
      let g ← mul wg 1 d f (row xg) (ofExpert wg e.1 d).el []
      let u ← mul wu 1 d f (row xu) (ofExpert wu e.1 d).el []
      let g := Mat.sums 1 f g; let u := Mat.sums 1 f u
      let a ← (gate g u).v.mapM fun x => Ct.fmul e.2 x
      let ax ← w.streamed wd ⟨1, f, a⟩
      let y ← mul wd 1 f (w.cols (role l 2)) ax (ofExpert wd e.1 f).el st.1
      pure (y, st.2 ++ [(g.v, u.v, a)])) ((⟨1, res.cols, res.row t⟩ : Mat).load, [])
  let width := ((routes.map List.length).foldl max 0) * f
  let g ← w.stashed (Mat.of cur.rows width fun t c => ((rs.getD t ([], [])).2.flatMap (·.1)).getD c 0)
  let u ← w.stashed (Mat.of cur.rows width fun t c => ((rs.getD t ([], [])).2.flatMap (·.2.1)).getD c 0)
  let a ← if (w.tens (role l 2)).trainable then w.stashed (Mat.of cur.rows width fun t c => ((rs.getD t ([], [])).2.flatMap (·.2.2)).getD c 0) else pure {}
  let x ← if (w.tens (role l 0)).trainable || (w.tens (role l 1)).trainable then w.stashed cur else pure {}
  pure (Mat.sums res.rows res.cols (rs.flatMap (·.1)), { g := g, u := u, a := a, x := x, routes := routes })

/-- One layer forward. A normalisation feeds the layers up to the next one, whose outputs are added to the residual stream (R174; DEDUCED, log entry 73). `prior` gives the layer's K and V of the positions before the micro-batch. -/
def layer (w : Net) (l : Layer) (i p0 : Nat) (prior : Nat → Mat × Mat) (toks : List Nat) (st : Fwd) : Ct Fwd := do
  let w := { w with keep := w.keep && w.im.aboveFloor.any (·.1 = i) }
  let put := fun (res cur : Mat) (s : Save) => ({ st with res := res, cur := cur, saves := st.saves ++ [s], outs := st.outs ++ [if l.kind = 2 then cur else res] } : Fwd)
  match l.kind.toNat with
  | 1 =>
    let n := w.cols (role l 0)
    let e := Mat.of toks.length n fun r c => w.word (role l 0) (toks.getD r 0 * n + c)
    pure (put e e {})
  | 2 =>
    let g := (List.range st.res.cols).map (w.word (role l 0))
    let ys ← (List.range st.res.rows).mapM fun r => rmsRow g (st.res.row r) l.fval.toNat
    let x ← w.stashed st.res
    pure (put st.res (Mat.ofRows st.res.cols (ys.map (·.1))) { x := x, r := ys.map (·.2) })
  | 3 =>
    let q ← w.apply (role l 0) st.cur
    let k ← w.apply (role l 1) st.cur
    let v ← w.apply (role l 2) st.cur
    let q ← w.stashed q
    let k ← w.stashed k
    let v ← w.stashed v
    let a ← w.attend l p0 q ((prior i).1.under k) ((prior i).2.under v)
    let y ← w.linear (role l 3) a.1 st.res.load
    let o ← w.stashed a.1
    let x ← if (List.range 3).any (fun j => (w.tens (role l j)).trainable) then w.stashed st.cur else pure {}
    pure (put (Mat.sums st.res.rows st.res.cols y) st.cur { q := q, k := k, v := v, o := o, lam := a.2, x := x })
  | 4 =>
    let r ← w.ffn l st.cur st.res
    pure (put r.1 st.cur r.2)
  | 5 =>
    let y ← w.apply (role l 0) st.cur
    let x ← if (w.tens (role l 0)).trainable then w.stashed st.cur else pure {}
    let routes := (List.range y.rows).map fun r => pick (y.row r) (bits l.param.toNat 0 8)
    pure { put st.res st.cur { x := x, routes := routes } with routes := routes }
  | 6 =>
    let r ← w.experts l st.cur st.res st.routes
    pure (put r.1 st.cur r.2)
  | _ =>
    let x ← if (w.tens (role l 0)).trainable then w.stashed st.cur else pure {}
    pure (put st.res st.cur { x := x })

/-- The layers of a model forward over one micro-batch: its tokens, and the position of the first. -/
def forward (w : Net) (p0 : Nat) (prior : Nat → Mat × Mat) (toks : List Nat) : Ct Fwd :=
  (w.im.layers.mapIdx fun i l => (i, l)).foldlM (fun st e => w.layer e.2 e.1 p0 prior toks st) {}

/-- The layer of a kind that reads the finished hidden states: its tensor. -/
def top (w : Net) (kind : Nat) : Option Nat := (w.im.layers.reverse.find? fun l => l.kind.toNat = kind).map (role · 0)

/-- The logits or scores of rows of finished hidden states: SUM fields of the projection's entries, tile by tile (R147). -/
def project (w : Net) (kind : Nat) (hid : Mat) : Ct Mat :=
  match w.top kind with
  | some i => w.apply i hid
  | none => pure { rows := hid.rows }

/-- A token the embedding table has no row for. -/
def badToken (w : Net) (toks : List Nat) : Bool := w.im.layers.any fun l => l.kind = 1 && toks.any (· ≥ w.rows (role l 0))

/-- A frozen weight whose blocks do not lie along the reduction dimension of its forward product (R33, R75). -/
def badShape (w : Net) : Bool := w.im.layers.any fun l => decide (3 ≤ l.kind.toNat) && l.tensors.any fun t =>
  let d := w.tens t.toNat
  t ≠ 0xFFFF && !d.trainable && isShortCode d.type.toNat && decide (d.shape.toNat < 2)

/-! ### Layers backward -/

/-- The backward pass between two layers: the residual gradient, the gradient area by tensor, and the dK and dV handed to earlier positions, by 2 × layer + 0 or 1 and then position × width + column (R174, R182, R188). -/
structure Bwd where
  dres : List Entry := []
  grads : List (Nat × Tab Entry) := []
  dkv : List (Nat × Tab Entry) := []
deriving DecidableEq, Repr

def areaOf (l : List (Nat × Tab Entry)) (k : Nat) : Tab Entry := ((l.find? (·.1 = k)).map (·.2)).getD []
def putArea (l : List (Nat × Tab Entry)) (k : Nat) (t : Tab Entry) : List (Nat × Tab Entry) := (l.filter (·.1 ≠ k)) ++ [(k, t)]

/-- dY as an operand: three slices for a trainable product; Q6 in 1 × 16 ROW blocks under the sampled SAT and RND for a frozen one (R170, R172, R173). -/
def gradOp (w : Net) (trainable : Bool) (dy : Mat) : Ct Elem :=
  if trainable then slicedOperand 3 dy.rows dy.cols (dy.v.map b32.decode)
  else w.quant q6 0 dy

/-- dW = Xᵀ · dY of the n rows of a trainable W from r0, added to the gradient area, with X from the stash (R168, R169, R172, R188). -/
def backW (w : Net) (i r0 n : Nat) (x dy : Mat) (e : Elem) (grads : List (Nat × Tab Entry)) : Ct (List (Nat × Tab Entry)) := do
  let cols := w.cols i
  let xe ← w.entry x
  let area := areaOf grads i
  let es ← mul ⟨false, 3, xe⟩ n dy.rows cols (turned xe) e (area.getList {} (r0 * cols) (n * cols))
  pure (putArea grads i (area.putList {} (r0 * cols) es))

/-- dX = dY · Wᵀ over the n rows of W from r0, added to entries (R168, R169). -/
def backX (w : Net) (i r0 n : Nat) (dy : Mat) (e : Elem) (start : List Entry) : Ct (List Entry) :=
  let o := w.weightTurned i
  mul { o with q4 := false } dy.rows (w.cols i) n e (fun sl q c => o.el sl (r0 + c) q) start

/-- The backward products of Y = X · W, for the n rows of W from r0: dW where W is trainable, and dX. -/
def back (w : Net) (i r0 n : Nat) (x dy : Mat) (start : List Entry) (b : Bwd) : Ct (List Entry × Bwd) := do
  let t := w.tens i
  let e ← w.gradOp t.trainable dy
  let g ← if t.trainable then w.backW i r0 n x dy e b.grads else pure b.grads
  let es ← w.backX i r0 n dy e start
  pure (es, { b with grads := g })

def backAll (w : Net) (i : Nat) (x dy : Mat) (start : List Entry) (b : Bwd) : Ct (List Entry × Bwd) := w.back i 0 (w.rows i) x dy start b

/-- A normalisation backward: dx of each row promoted into the residual gradient, and the gain's gradient, tokens ascending (R175). -/
def rmsBack (w : Net) (l : Layer) (sv : Save) (dy : Mat) (b : Bwd) : Ct Bwd := do
  let d := dy.cols
  let g := fun e => w.word (role l 0) e
  let fd := (b32.round (XVal.ofNat d)).1
  let rows ← (List.range dy.rows).mapM fun t => do
    let r := sv.r.getD t 0
    let us ← (List.range d).mapM fun e => Ct.fmul (g e) (dy.get t e)
    let ps ← (us.zipIdx).mapM fun e => Ct.fmul e.1 (sv.x.get t e.2)
    let s := reduce 0 false none (ps.map fun a => some (b32.decode a))
    let _ ← Ct.lift ((), s.ev)
    let r2 ← Ct.fmul r r
    let r3 ← Ct.fmul r2 r
    let k ← Ct.fdiv r3 fd
    let ks ← Ct.fmul k s.res.toNat
    us.zipIdx.mapM fun e => do
      let p ← Ct.fmul r e.1
      let q ← Ct.fmul ks (sv.x.get t e.2)
      Ct.fsub p q
  let dres ← (rows.flatten.zipIdx).mapM fun e => Ct.promote (entriesAt b.dres e.2) e.1
  let b := { b with dres := dres }
  if !(w.tens (role l 0)).trainable then pure b
  else do
    let area := areaOf b.grads (role l 0)
    let es ← (List.range d).mapM fun e => (List.range dy.rows).foldlM (fun a t => do
      let p ← Ct.fmul (dy.get t e) (sv.x.get t e)
      let q ← Ct.fmul p (sv.r.getD t 0)
      Ct.promote a q) (area.get {} e)
    pure { b with grads := putArea b.grads (role l 0) (area.putList {} 0 es) }

/-- Attention backward for its own rows, from the gradient of its output: dQ, and dK and dV of every position added to what later micro-batches have handed down (R176, R182). -/
def attendBack (w : Net) (l : Layer) (p0 : Nat) (sv : Save) (prior : Mat × Mat) (dO : Mat) (dk dv : Tab Entry) : Ct (Mat × Tab Entry × Tab Entry) := do
  let ks := prior.1.under sv.k; let vs := prior.2.under sv.v
  let m := sv.q.rows; let n := ks.rows
  let d := w.headWidth l
  let qe ← w.entry sv.q
  let ke ← w.entry ks
  let ve ← w.entry vs
  let oe ← w.quant q6 4 dO
  let step := fun (st : List Mat × Tab Entry × Tab Entry) (h : Nat) => do
    let kh := h / (qHeads l / kvHeads l)
    let y ← w.scores l h m n qe ke
    let p ← w.probs p0 y (sv.lam.getD h [])
    let dds ← (List.range m).mapM fun i => do
      let xs ← (List.range d).mapM fun e => Ct.fmul (dO.get i (h * d + e)) (sv.o.get i (h * d + e))
      let s ← Ct.foldAll xs
      pure s.sum.toNat
    let dp ← one m d n (slab oe (h * d)) (turned (slab ve (kh * d)))
    let ds ← (List.range (m * n)).mapM fun i =>
      if w.sees p0 (i / n) (i % n) then do
        let a ← Ct.fsub (dp.get (i / n) (i % n)) (dds.getD (i / n) 0)
        let a ← Ct.fmul (p.get (i / n) (i % n)) a
        Ct.fmul a l.fval.toNat
      else pure 0
    let pe ← w.quant q6 4 p
    let se ← w.quant q6 4 ⟨m, n, ds⟩
    let width := ks.cols
    let entries := fun (t : Tab Entry) => (List.range (n * d)).map fun i => t.get {} (i / d * width + kh * d + i % d)
    let store := fun (t : Tab Entry) (es : List Entry) => es.zipIdx.foldl (fun (t : Tab Entry) e => t.put {} (e.2 / d * width + kh * d + e.2 % d) e.1) t
    let dve ← mul ⟨false, 1, pe⟩ n m d (turned pe) (slab oe (h * d)) (entries st.2.2)
    let dq ← one m n d se (slab ke (kh * d))
    let dke ← mul ⟨false, 1, se⟩ n m d (turned se) (slab qe (h * d)) (entries st.2.1)
    pure (st.1 ++ [dq], store st.2.1 dke, store st.2.2 dve)
  let r ← (List.range (qHeads l)).foldlM step ([], dk, dv)
  pure (Mat.of m (qHeads l * d) (fun i c => (r.1.getD (c / d) {}).get i (c % d)), r.2)

/-- The gradients of a gated activation's two operands. -/
def gateBack (g u da : Mat) : Mat × Mat :=
  let f := fun (o : W32 → W32 → W32 → W32) => Mat.of g.rows g.cols fun r c => (o (BitVec.ofNat 32 (g.get r c)) (BitVec.ofNat 32 (u.get r c)) (BitVec.ofNat 32 (da.get r c))).toNat
  (f Config.gatedGate, f Config.gatedUp)

/-- Rows of a matrix from column c0 of the slot at which a token chose expert e; a token that did not choose it gives a row of +0. -/
def slotRows (routes : List (List (Nat × Nat))) (e f : Nat) (a : Mat) : Mat :=
  Mat.of a.rows f fun t c => match (routes.getD t []).findIdx? (·.1 = e) with | some j => a.get t (j * f + c) | none => 0
def chosenRows (routes : List (List (Nat × Nat))) (e : Nat) (a : Mat) : Mat :=
  Mat.of a.rows a.cols fun t c => if (routes.getD t []).any (·.1 = e) then a.get t c else 0

/-- A branch backward: its dX products added to the gradient of what it read, in the order of its outputs forward (R174). -/
def branchBack (w : Net) (l : Layer) (i p0 : Nat) (sv : Save) (prior : Mat × Mat) (dy : Mat) (toks : List Nat) (start : List Entry) (b : Bwd) : Ct (List Entry × Bwd) := do
  match l.kind.toNat with
  | 1 =>
    if !(w.tens (role l 0)).trainable then pure (start, b)
    else do
      let n := w.cols (role l 0)
      let area ← (List.range (dy.rows * n)).foldlM (fun (a : Tab Entry) q => do
        let k := toks.getD (q / n) 0 * n + q % n
        let e ← Ct.promote (a.get {} k) (dy.get (q / n) (q % n))
        pure (a.put {} k e)) (areaOf b.grads (role l 0))
      pure (start, { b with grads := putArea b.grads (role l 0) area })
  | 3 =>
    let o ← w.backAll (role l 3) sv.o dy [] b
    let dO := Mat.sums dy.rows (w.rows (role l 3)) o.1
    let a ← w.attendBack l p0 sv prior dO (areaOf o.2.dkv (2 * i)) (areaOf o.2.dkv (2 * i + 1))
    let b := { o.2 with dkv := putArea (putArea o.2.dkv (2 * i) a.2.1) (2 * i + 1) a.2.2 }
    let width := w.cols (role l 1)
    let own := fun (t : Tab Entry) => Mat.sums dy.rows width (t.getList {} (prior.1.rows * width) (dy.rows * width))
    let r ← w.backAll (role l 0) sv.x a.1 start b
    let r ← w.backAll (role l 1) sv.x (own a.2.1) r.1 r.2
    w.backAll (role l 2) sv.x (own a.2.2) r.1 r.2
  | 4 =>
    let r ← w.backAll (role l 2) sv.a dy [] b
    let d := gateBack sv.g sv.u (Mat.sums dy.rows (w.rows (role l 2)) r.1)
    let r ← w.backAll (role l 0) sv.x d.1 start r.2
    w.backAll (role l 1) sv.x d.2 r.1 r.2
  | 5 =>
    let ds := Mat.of dy.rows (w.cols (role l 0)) fun t c => (Config.routerGrad ((sv.routes.getD t []).map fun e => BitVec.ofNat 32 e.2) c).toNat
    w.backAll (role l 0) sv.x ds start b
  | 6 =>
    let n := l.param.toNat
    let dd := w.rows (role l 0) / max 1 n
    let f := w.rows (role l 2) / max 1 n
    (List.range n).foldlM (fun (st : List Entry × Bwd) e => do
      let dye := chosenRows sv.routes e dy
      let r ← w.back (role l 2) (e * f) f (slotRows sv.routes e f sv.a) dye [] st.2
      let da ← (Mat.sums dy.rows f r.1).v.zipIdx.mapM fun q =>
        Ct.fmul ((((sv.routes.getD (q.2 / f) []).find? (·.1 = e)).map (·.2)).getD 0) q.1
      let d := gateBack (slotRows sv.routes e f sv.g) (slotRows sv.routes e f sv.u) ⟨dy.rows, f, da⟩
      let r ← w.back (role l 0) (e * dd) dd (chosenRows sv.routes e sv.x) (chosenRows sv.routes e d.1) st.1 r.2
      w.back (role l 1) (e * dd) dd (chosenRows sv.routes e sv.x) (chosenRows sv.routes e d.2) r.1 r.2) (start, b)
  | 8 => if dy.rows = 0 then pure (start, b) else w.backAll (role l 0) sv.x dy start b
  | _ => pure (start, b)

/-- Layers cut into groups: a normalisation and the layers that read it. -/
def groups : List (Nat × Layer) → List (Option (Nat × Layer) × List (Nat × Layer))
  | [] => []
  | e :: r =>
    let gs := groups r
    if e.2.kind = 2 then
      match gs with
      | (none, bs) :: more => (some e, bs) :: more
      | _ => (some e, []) :: gs
    else match gs with
      | (none, bs) :: more => (none, e :: bs) :: more
      | _ => (none, [e]) :: gs

/-- What arrives at the top and at the layers: the head gradient, the score gradients, and the tap gradients by layer. -/
structure Heads where
  head : Mat := {}
  score : Mat := {}
  taps : List (Nat × Mat) := []
deriving DecidableEq, Repr

/-- Tap gradients of a layer added to entries. -/
def addTaps (hs : Heads) (i : Nat) (es : List Entry) : Ct (List Entry) :=
  (hs.taps.filter (·.1 = i)).foldlM (fun es t => (t.2.v.zipIdx).mapM fun e => Ct.promote (entriesAt es e.2) e.1) es

/-- One group backward (R174). -/
def groupBack (w : Net) (p0 : Nat) (saves : Nat → Save) (prior : Nat → Mat × Mat) (hs : Heads) (toks : List Nat) (g : Option (Nat × Layer) × List (Nat × Layer)) (b : Bwd) : Ct Bwd := do
  let rows := toks.length
  let width := ((g.2.map fun e => w.rows (role e.2 0)) ++ (match g.1 with | some e => [w.rows (role e.2 0) * w.cols (role e.2 0)] | none => [])).foldl max hs.head.cols
  let d := if b.dres = [] then width else b.dres.length / max 1 rows
  let st ← g.2.reverse.foldlM (fun (st : List Entry × List Mat) e => do
    let es ← addTaps hs e.1 st.1
    pure (es, (if e.2.kind = 8 then hs.score else Mat.sums rows d es) :: st.2)) (b.dres, [])
  let pre := (Mat.sums rows d st.1).load
  let start ← match g.1 with
    | some e => addTaps hs e.1 (if g.2.any (·.2.kind = 7) then hs.head.load else [])
    | none => pure pre
  let r ← (g.2.zip st.2).foldlM (fun (r : List Entry × Bwd) e => w.branchBack e.1.2 e.1.1 p0 (saves e.1.1) (prior e.1.1) e.2 toks r.1 r.2) (start, { b with dres := pre })
  match g.1 with
  | some e => w.rmsBack e.2 (saves e.1) (Mat.sums rows (r.1.length / max 1 rows) r.1) r.2
  | none => pure { r.2 with dres := r.1 }

/-- The layers at and above the gradient floor backward, from the top down (R168, R187). -/
def backward (w : Net) (ls : List (Nat × Layer)) (p0 : Nat) (saves : Nat → Save) (prior : Nat → Mat × Mat) (hs : Heads) (toks : List Nat) (b : Bwd) : Ct Bwd :=
  (groups ls).reverse.foldlM (fun b g => w.groupBack p0 saves prior hs toks g b) b

/-- Values as a binary16 stash entry holds them: to nearest even (R43, R181). -/
def halves (vs : List Nat) : Ct (List Nat) := vs.mapM fun a => do
  let h ← Ct.lift (noted (b32.decode a) (toLong b16 none (b32.decode a)))
  pure (b32.round (b16.decode h)).1

/-- The vocabulary projection backward for a row block, on its logit gradients in place: the head gradient in binary16, vocabulary tiles ascending (R169, R181). -/
def headBack (w : Net) (dy : Mat) : Ct Mat :=
  match w.top 7 with
  | none => pure { rows := dy.rows }
  | some i => do
    let e ← w.gradOp (w.tens i).trainable dy
    let r ← w.backX i 0 (w.rows i) dy e []
    let hs ← halves (Mat.sums dy.rows (w.rows i) r).v
    pure ⟨dy.rows, w.rows i, hs⟩

/-- dW of the vocabulary projection from one row block; its dY has been converted for dX (R188). -/
def headGrad (w : Net) (x dy : Mat) (grads : List (Nat × Tab Entry)) : Ct (List (Nat × Tab Entry)) :=
  match w.top 7 with
  | none => pure grads
  | some i => if (w.tens i).trainable then w.backW i 0 (w.rows i) x dy (w.gradOp true dy).run'.1 grads else pure grads

end Net

/-! ## The stash of a micro-batch as bytes (R34, R170, R181) -/

/-- Element and scale arrays of a converted tensor in memory form; padding elements are 0. -/
def Short.pack (ty : Ty) (shape rows cols : Nat) (t : Short) : List Byte × List Byte :=
  let d := blockDims shape
  let w := ceilDiv cols d.2
  let cell := fun (b i : Nat) => (b / w * d.1 + i / d.2, b % w * d.2 + i % d.2)
  let block := fun (b : Nat) =>
    let cs := (List.range (d.1 * d.2)).map fun i =>
      let e := cell b i
      if e.1 < rows && e.2 < cols then (Tab.get 0 t (e.1 * cols + e.2)).toNat else 0
    (leBytes (d.1 * d.2 * ty.packBits / 8) (cs.foldr (fun c a => c % 2 ^ ty.packBits + 2 ^ ty.packBits * a) 0), BitVec.ofNat 8 (cs.headD 0 / 256))
  let bs := (List.range (blockCount shape rows cols)).map block
  (bs.flatMap (·.1), bs.map (·.2))

/-- A matrix read back from its blocks. -/
def unpack (ty : Ty) (shape rows cols : Nat) (bs : List Byte) : Mat :=
  let n := elemBytes ty shape rows cols
  Mat.of rows cols fun r c => (b32.round (memValue ty (codeAt ty shape cols (bs.take n) r c) (scaleAt ty shape cols (bs.drop n) r c))).1

def stashTy (q6f : Bool) : Ty := if q6f then .q6 else .q8

/-- Bytes of a stash entry of `w` elements a token in Q8 or Q6, 4 × 4 blocks. -/
def stashEntry (q6f : Bool) (tokens w : Nat) : Nat := elemBytes (stashTy q6f) 4 tokens w + scaleBytes (stashTy q6f) 4 tokens w

/-- Experts a token takes at layer i: those of the router before it. -/
def Image.chosen (im : Image) (i : Nat) : Nat := (((im.layers.take i).reverse.find? fun l => l.kind = 5).map fun l => bits l.param.toNat 0 8).getD 0

/-- Entries of layer i's stash, in order: field (0 x, 1 Q, 2 K, 3 V, 4 O, 5 g, 6 u, 7 activation, 8 r, 9 λ) and its width in elements a token (R181). -/
def Image.parts (im : Image) (i : Nat) (l : Layer) : List (Nat × Nat) :=
  let t := fun (k : Nat) => im.tensors.getD (Net.role l k) { rows := 0, cols := 0 }
  let rows := fun k => (t k).rows.toNat; let cols := fun k => (t k).cols.toNat
  let x := fun (ks : List Nat) (f : Nat) => if ks.any fun k => (t k).trainable then [f] else []
  match l.kind.toNat with
  | 2 => [(0, rows 0 * cols 0), (8, 1)]
  | 3 => [(1, cols 0), (2, cols 1), (3, cols 2), (4, rows 3), (9, Net.qHeads l)] ++ (x [0, 1, 2] 0).map fun f => (f, rows 0)
  | 4 => [(5, cols 0), (6, cols 1)] ++ ((x [0, 1] 0).map fun f => (f, rows 0)) ++ (x [2] 7).map fun f => (f, rows 2)
  | 5 => (x [0] 0).map fun f => (f, rows 0)
  | 6 =>
    let n := max 1 l.param.toNat
    let w := im.chosen i * (rows 2 / n)
    [(5, w), (6, w)] ++ ((x [0, 1] 0).map fun f => (f, rows 0 / n)) ++ (x [2] 7).map fun f => (f, w)
  | 7 => (x [0] 0).map fun f => (f, rows 0)
  | 8 => (x [0] 0).map fun f => (f, rows 0)
  | _ => []

def partBytes (q6f : Bool) (tokens : Nat) (e : Nat × Nat) : Nat := if e.1 < 8 then stashEntry q6f tokens e.2 else 4 * tokens * e.2

def Net.Save.field (s : Net.Save) : Nat → Mat
  | 0 => s.x | 1 => s.q | 2 => s.k | 3 => s.v | 4 => s.o | 5 => s.g | 6 => s.u | _ => s.a

/-- A short-format entry's bytes. -/
def entryEnc (q6f : Bool) (tokens w : Nat) (a : Mat) : List Byte :=
  let r := Short.pack (stashTy q6f) 4 tokens w (quantise (if q6f then q6 else q8) true (fun _ => none) 4 tokens w fun i => b32.decode (a.get (i / w) (i % w))).1
  r.1 ++ r.2

/-- A part's bytes. The word of a row that sees nothing holds no λ. -/
def partEnc (q6f : Bool) (s : Net.Save) (tokens : Nat) (e : Nat × Nat) : List Byte :=
  if e.1 < 8 then entryEnc q6f tokens e.2 (s.field e.1)
  else if e.1 = 8 then (List.range tokens).flatMap fun t => leBytes 4 (s.r.getD t 0)
  else (List.range (tokens * e.2)).flatMap fun q => leBytes 4 (((s.lam.getD (q % e.2) []).getD (q / e.2) none).getD 0)

/-- Puts a part read back into its field. -/
def partDec (q6f : Bool) (s : Net.Save) (tokens : Nat) (e : Nat × Nat) (bs : List Byte) : Net.Save :=
  let a := unpack (stashTy q6f) 4 tokens e.2 bs
  let word := fun (i : Nat) => leNat ((bs.drop (4 * i)).take 4)
  match e.1 with
  | 0 => { s with x := a } | 1 => { s with q := a } | 2 => { s with k := a } | 3 => { s with v := a } | 4 => { s with o := a }
  | 5 => { s with g := a } | 6 => { s with u := a } | 7 => { s with a := a }
  | 8 => { s with r := (List.range tokens).map word }
  | _ => { s with lam := (List.range e.2).map fun h => (List.range tokens).map fun t => some (word (t * e.2 + h)) }

/-- Stash bytes of the layers of a micro-batch. -/
def Image.layerBytes (im : Image) (q6f : Bool) (tokens : Nat) : Nat :=
  (im.aboveFloor.map fun e => ((im.parts e.1 e.2).map (partBytes q6f tokens)).sum).sum

/-- Width of the residual stream, which the head gradient and the tap gradients have. -/
def Image.width (im : Image) : Nat := ((im.layers.reverse.find? fun l => l.kind = 7 || l.kind = 8).map fun l => (im.tensors.getD (Net.role l 0) { rows := 0 }).rows.toNat).getD 0

/-- A tap of a command: the student's layer, and its projection. -/
abbrev TapRef := Nat × Nat

/-- Columns of a tap's projection, d_T, and its rows, d_S (R162). -/
def Image.tapCols (im : Image) (t : TapRef) : Nat := (im.tensors.getD t.2 { cols := 0 }).cols.toNat
def Image.tapRows (im : Image) (t : TapRef) : Nat := (im.tensors.getD t.2 { rows := 0 }).rows.toNat
/-- Stash bytes of a tap's X: the rows of the layer it reads, where its projection is trainable. -/
def Image.tapXBytes (im : Image) (q6f : Bool) (tokens : Nat) (t : TapRef) : Nat :=
  if (im.tensors.getD t.2 {}).trainable then stashEntry q6f tokens (im.tapRows t) else 0

/-- Stash bytes of a micro-batch: its layers, the X of its trainable tap projections, the head gradient where the loss has one, and the gradients of its taps with respect to h′, in binary16 (R163, R181). -/
def Image.stashBytes (im : Image) (q6f head : Bool) (taps : List TapRef) (tokens : Nat) : Nat :=
  im.layerBytes q6f tokens + (taps.map (im.tapXBytes q6f tokens)).sum + (if head then 2 * tokens * im.width else 0) + (taps.map fun t => 2 * tokens * im.tapCols t).sum

/-- The layers' part of a micro-batch's stash, and after it the X of its trainable tap projections. -/
def Image.encStash (im : Image) (q6f : Bool) (tokens : Nat) (saves : List Net.Save) (taps : List (TapRef × Mat)) : List Byte :=
  (im.aboveFloor.flatMap fun e => (im.parts e.1 e.2).flatMap (partEnc q6f (saves.getD e.1 {}) tokens)) ++
    taps.flatMap fun t => if (im.tensors.getD t.1.2 {}).trainable then entryEnc q6f tokens (im.tapRows t.1) t.2 else []

/-- The record of one layer read back from the stash. -/
def Image.decStash (im : Image) (q6f : Bool) (tokens : Nat) (bs : List Byte) (i : Nat) : Net.Save :=
  let before := (((im.aboveFloor.filter (·.1 < i)).map fun e => ((im.parts e.1 e.2).map (partBytes q6f tokens)).sum).sum)
  match im.aboveFloor.find? (·.1 = i) with
  | none => {}
  | some e => ((im.parts e.1 e.2).foldl (fun (st : Net.Save × List Byte) p =>
      (partDec q6f st.1 tokens p (st.2.take (partBytes q6f tokens p)), st.2.drop (partBytes q6f tokens p))) ({}, bs.drop before)).1

/-- A binary16 matrix of the stash from byte o. -/
def decHalves (tokens w o : Nat) (bs : List Byte) : Mat :=
  Mat.of tokens w fun r c => (b32.round (b16.decode (leNat ((bs.drop (o + 2 * (r * w + c))).take 2)))).1

/-- X of the k-th tap, the head gradient, and the gradient of the k-th tap, read back from the stash. -/
def Image.decTapX (im : Image) (q6f : Bool) (taps : List TapRef) (tokens : Nat) (bs : List Byte) (k : Nat) : Mat :=
  unpack (stashTy q6f) 4 tokens (im.tapRows (taps.getD k (0, 0))) (bs.drop (im.layerBytes q6f tokens + ((taps.take k).map (im.tapXBytes q6f tokens)).sum))
def Image.decHead (im : Image) (q6f : Bool) (taps : List TapRef) (tokens : Nat) (bs : List Byte) : Mat :=
  decHalves tokens im.width (im.layerBytes q6f tokens + (taps.map (im.tapXBytes q6f tokens)).sum) bs
def Image.decTap (im : Image) (q6f head : Bool) (taps : List TapRef) (tokens : Nat) (bs : List Byte) (k : Nat) : Mat :=
  decHalves tokens (im.tapCols (taps.getD k (0, 0))) (im.stashBytes q6f head taps tokens - ((taps.drop k).map fun t => 2 * tokens * im.tapCols t).sum) bs

end Sys2Proof.Machine
end

