-- ==== Sys2Proof/Machine/Train.lean ====
section
/-! DEFINITION. What a training command holds while it runs: its sides, its tokens, taps and lists, and its loss block (R143 to R167, R336). -/

namespace Sys2Proof.Machine

/-! ## The two sides of a command (R143)

The work of each side is its products' FLOP a token in half units of a one-pass Q6 multiply-accumulate: 1 for Q4, 2 for Q6, 12 for three passes. The division of a job's core groups is the whole-group division nearest to it, the teacher taking the lower groups (DEDUCED, log entry 75). -/

/-- Unit cost of a weight's forward product, and of its backward ones. -/
def fwdUnit (t : TensorDesc) : Nat := if t.trainable then 12 else if t.type = 4 then 1 else 2
def bwdUnit (t : TensorDesc) : Nat := if t.trainable then 24 else 2

/-- Cost of a layer's products; of stacked experts those a token takes. -/
def Image.layerCost (im : Image) (unit : TensorDesc → Nat) (i : Nat) (l : Layer) : Nat :=
  if l.kind.toNat < 3 then 0
  else
    let all := (l.tensors.map fun t => if t = 0xFFFF then 0 else let d := im.tensors.getD t.toNat { rows := 0 }; unit d * (d.rows.toNat * d.cols.toNat)).sum
    if l.kind = 6 then all * im.chosen i / max 1 l.param.toNat else all

def Image.cost (im : Image) (unit : TensorDesc → Nat) (ls : List (Nat × Layer)) : Nat := (ls.map fun e => im.layerCost unit e.1 e.2).sum
def Image.numbered (im : Image) : List (Nat × Layer) := im.layers.mapIdx fun i l => (i, l)

/-- Student side: forward, the second sweep of the vocabulary projection, and the backward products from the gradient floor up. -/
def Image.studentCost (im : Image) (sweep2 eval : Bool) : Nat :=
  im.cost fwdUnit im.numbered + (if sweep2 && !eval then im.cost fwdUnit (im.numbered.filter (·.2.kind = 7)) else 0) +
  (if eval then 0 else im.cost bwdUnit im.aboveFloor)

/-- Core groups of n that the teacher side takes. -/
def teacherGroups (cT cS n : Nat) : Nat :=
  if cT + cS = 0 then n / 2 else max 1 (min (n - 1) ((2 * n * cT + (cT + cS)) / (2 * (cT + cS))))

namespace Train

def k (r : Train) : Nat := min (r.contact.kM1.toNat + 1) r.contact.vocab.toNat
/-- Tokens of a row block. -/
def blockTokens (r : Train) (b : Nat) : List Nat := ((List.range 64).map (64 * b + ·)).filter (· < r.contact.tokens.toNat)
/-- Row blocks of the batch. -/
def blockCount (r : Train) : Nat := ceilDiv r.contact.tokens.toNat 64
/-- Micro-batch of a row block. -/
def mbOf (r : Train) (b : Nat) : Nat := if r.mbTokens = 0 then 0 else 64 * b / r.mbTokens
def masked (r : Train) (n : Nat) : Bool := r.contact.maskAddr ≠ 0 && !bitAt (r.mask.getD (n / 8) 0).toNat (n % 8)
/-- Stride of target records (R153). -/
def stride (r : Train) : Nat := 8 + 6 * r.k
def scale (r : Train) : Scaling := (scaling r.contact.temp.toNat r.contact.klWeight.toNat).run'.1
/-- A value of an expert program's kernels, which no field maps to the contact path: free (DESIGN CHOICE, log entry 30). -/
def word (r : Train) (kind i j : Nat) : Nat := (Config.kernelWord r.seed kind i j).toNat
/-- The command runs a teacher. -/
def live (r : Train) : Bool := !(r.contact.family = 1 && r.contact.tsrc)
/-- The loss has a head gradient (R181). -/
def hasHead (r : Train) : Bool := r.contact.family ≠ 2

/-- The target record of a token in the contact buffer; none where it is malformed (R153). -/
def storedRec (r : Train) (n : Nat) : Option Targets :=
  let b := (r.cb.records.drop (n * r.stride)).take r.stride
  let c := leNat (b.take 2)
  let idx := (List.range c).map fun i => leNat ((b.drop (8 + 4 * i)).take 4)
  if c = 0 || c > r.k || leNat ((b.drop 2).take 2) ≠ 0 || idx.any (fun i => i ≥ r.contact.vocab.toNat) || !(idx.zip (idx.drop 1)).all (fun e : Nat × Nat => e.1 < e.2) then none
  else some ⟨idx, (List.range c).map fun i => (b32.round (b16.decode (leNat ((b.drop (8 + 4 * c + 2 * i)).take 2)))).1, leNat ((b.drop 4).take 4)⟩

/-- A target record: FULL keeps binary32 probabilities, TOPK binary16 (R153). -/
def targetRec (half : Bool) (t : Targets) : List Byte :=
  leBytes 2 t.idx.length ++ [0, 0] ++ leBytes 4 t.tail ++ t.idx.flatMap (leBytes 4 ·) ++
    t.prob.flatMap (fun p => if half then leBytes 2 (b16.round (b32.decode p)).1 else leBytes 4 p)

def outRec (o : TokenOut) : List Byte := leBytes 4 o.lT ++ leBytes 4 o.lS ++ leBytes 4 o.loss ++ leBytes 4 o.tail

/-- Place of a token's record in the target window, whose size alone the spec gives (R153, R166): each lane has two halves of a row block, used in turn (DESIGN CHOICE, log entry 92). -/
def windowSlot (lanes n : Nat) : Nat := 128 * (n / 64 % max 1 lanes) + 64 * (n / 64 / max 1 lanes % 2) + n % 64

/-! ### Taps (R162, R163) -/

/-- An entry of the tap table: layers, KIND, WEIGHT, PROJ, and whether its reserved bits are zero. -/
def tapEntry (r : Train) (t : Nat) : Nat := leNat ((r.table.drop (16 * t)).take 16)
def tapCount (r : Train) : Nat := if r.contact.family = 2 then 0 else r.contact.taps.toNat
def tLayer (r : Train) (t : Nat) : Nat := bits (r.tapEntry t) 0 16
def sLayer (r : Train) (t : Nat) : Nat := bits (r.tapEntry t) 16 16
def proj (r : Train) (t : Nat) : Nat := bits (r.tapEntry t) 96 16
def taps (r : Train) : List TapRef := (List.range r.tapCount).map fun t => (r.sLayer t, r.proj t)

/-- A malformed entry: reserved bits, WEIGHT, or a layer or tensor that the images do not have; the dimensions of PROJ are not checked (DESIGN CHOICE, log entry 76). -/
def tapBad (e tl sl tensors : Nat) : Bool :=
  bits e 33 31 ≠ 0 || bits e 112 16 ≠ 0 || bits e 0 16 ≥ tl || bits e 16 16 ≥ sl || bits e 96 16 ≥ tensors ||
  (let w := b32.decode (bits e 64 32); w.isNan || w.isInf || (w.sign && !w.isZero) || (XVal.ofNat 65536).lt w)

/-- Token n's tapped teacher row as the tap area holds it: Q8, 1 × 32 blocks, BLOCK mode, SAT = 1, under the sampled RND (R45, R162). -/
def tapRow (sr : Nat → Option Nat) (n : Nat) (row : List Nat) : Ct (Tab W16) :=
  Ct.lift (quantise q8 true (fun e => sr (n * row.length + e)) 1 1 row.length fun e => b32.decode (row.getD e 0))

/-- A row of the tap area, decoded exactly. -/
def tapValues (d : Nat) (t : Tab W16) : List Nat := (List.range d).map fun e => (b32.round (shortValue q8 t e)).1

/-- The teacher writes the rows of tap t that its area has room for, tokens from `n` of the micro-batch upwards (R162). -/
def fillTap (r : Train) (sr : Nat → Option Nat) (t n : Nat) : Ct Train :=
  let have' := (r.cb.taps.filter (·.tap = t)).length
  let m := r.tTap.getD t {}
  let base := r.nextFwd * r.mbTokens
  ((List.range (r.contact.tapRows.toNat - have')).map (n + ·)).foldlM (fun (r : Train) k =>
    if k < base + m.rows then do
      let row ← tapRow sr k (m.row (k - base))
      pure { r with cb := { r.cb with taps := r.cb.taps ++ [{ tap := t, tok := k, row := row }] } }
    else pure r) r

/-- The next token of the micro-batch whose row of tap t has not been written. -/
def tapNext (r : Train) (t from' : Nat) : Nat := ((r.cb.taps.filter (·.tap = t)).map fun x => x.tok + 1).foldl max from'

/-- The row of a token, taken out of the area; the teacher then writes the next one. A row block ahead of its turn finds its row not yet written, and the teacher writes it first. With stored targets no teacher runs, and every h_T is +0 (DESIGN CHOICE, log entry 92). -/
def takeTap (r : Train) (sr : Nat → Option Nat) (t n : Nat) : Ct (Tab W16 × Train) :=
  match r.cb.taps.find? fun x => x.tap = t && x.tok = n with
  | some x => do
    let r := { r with cb := { r.cb with taps := r.cb.taps.filter fun y => !(y.tap = t && y.tok = n) } }
    let r' ← r.fillTap sr t (r.tapNext t (n + 1))
    pure (x.row, r')
  | none => do
    let x ← tapRow sr n ((r.tTap.getD t {}).row (n - r.nextFwd * r.mbTokens))
    pure (x, r)

/-! ### Pairing rings (R159) -/

/-- Lane of a row block; the next row block of a lane that is not final, in the micro-batch that runs. -/
def lane (r : Train) (lanes b : Nat) : Nat := b % max 1 lanes
def laneNext (r : Train) (lanes l : Nat) : Option Nat :=
  (List.range r.blockCount).find? fun b => r.lane lanes b = l && !decide (b ∈ r.blocks) && (r.expert || r.mbOf b = r.nextFwd)

/-- The row blocks of a lane are taken in ascending order. -/
def inTurn (r : Train) (lanes b : Nat) : Bool := r.laneNext lanes (r.lane lanes b) = some b

/-- The ring of lane l as the teacher leaves it before the student folds: its next block's first four tiles. -/
def ringOf (r : Train) (lanes l : Nat) (yT : Nat → Mat) : List RingSlot :=
  match r.laneNext lanes l with
  | none => []
  | some b => (List.range (min 4 (ceilDiv r.contact.vocab.toNat 64))).map fun j => { lane := l, slot := j % 4, block := b, tile := j, y := (yT b).colsOf (64 * j) 64 }

/-! ### Lists (R164, R165) -/

/-- An entry of the list table: FIRST and LENGTH. -/
def listEntry (r : Train) (i : Nat) : Nat × Nat := let e := leNat ((r.table.drop (8 * i)).take 8); (bits e 0 32, bits e 32 16)

def listBad (r : Train) (i : Nat) : Bool :=
  let e := leNat ((r.table.drop (8 * i)).take 8)
  bits e 48 16 ≠ 0 || bits e 32 16 > (if r.contact.rankLoss = 1 then 256 else 1024) || bits e 0 32 + bits e 32 16 > r.contact.tokens.toNat

/-- Row block in which a list is final: that of its last item (DESIGN CHOICE, log entry 77). -/
def listBlock (r : Train) (i : Nat) : Nat :=
  let e := r.listEntry i
  min (e.1 + e.2 - 1) (r.contact.tokens.toNat - 1) / 64

/-- Lists that become final with a row block. -/
def listsOf (r : Train) (b : Nat) : List Nat := (List.range r.contact.vocab.toNat).filter fun i => r.listBlock i = b

/-- Teacher's and student's score of an item. -/
def score (r : Train) (side n : Nat) : Nat := (r.cb.scratch.get 0 (4 * n + side)).toNat

/-- A list: the mean of its terms, and its score gradients, which go to the scratch area. Of an item that lies in several lists the gradient of the later list stands, and no mask is applied to items (DESIGN CHOICE, log entry 91). -/
def foldList (r : Train) (i : Nat) : Ct Train := do
  let e := r.listEntry i
  let items := (List.range e.2).map (e.1 + ·)
  if items = [] then pure { r with lists := r.lists ++ [(i, none)] }
  else do
    let x ← rankList r.scale r.contact.rankLoss.toNat r.contact.pointKind (items.map (r.score 0)) (items.map (r.score 1))
    let m ← rankMean x.1
    pure { r with
      lists := r.lists ++ [(i, m)]
      cb := { r.cb with scratch := (items.zip x.2).foldl (fun t g => t.put 0 (4 * g.1 + 2) (BitVec.ofNat 32 g.2)) r.cb.scratch } }

end Train

/-! ## The loss block (R157, R163, R165, R167, R336) -/

structure Losses where
  kl : Nat := 0x7FC00000
  taps : List (Option Nat) := []
  rank : Nat := 0x7FC00000
  total : Nat := 0x7FC00000
  tail : Nat := 0x7FC00000
  valid : Nat := 0
  masked : Nat := 0
  invalid : Nat := 0
  clipped : Nat := 0
  empty : Bool := false
deriving DecidableEq, Repr

/-- Records of a command in ascending token order. -/
def insRec (x : TokRec) : List TokRec → List TokRec
  | [] => [x]
  | a :: r => if x.n < a.n then x :: a :: r else a :: insRec x r

/-- The losses over what has been found so far, tokens or lists ascending. -/
def Train.losses (r : Train) : Ct Losses := do
  if r.contact.family = 2 then do
    let ms := (List.range r.contact.vocab.toNat).filterMap fun i => (r.lists.find? (·.1 = i)).bind (·.2)
    let m ← meanOf ms
    let t ← Ct.foldAll [m]
    pure { rank := m, total := t.sum.toNat, empty := ms.isEmpty }
  else do
    let ok := r.recs.filter (·.valid)
    let kl ← meanOf (ok.map (·.loss))
    let tail ← meanOf (ok.map (·.tail))
    let taps ← (List.range r.tapCount).mapM fun t => meanOf (ok.map fun o => o.taps.getD t 0)
    let t ← Ct.foldAll (kl :: taps)
    pure { kl := kl, taps := taps.map some, total := t.sum.toNat, tail := tail, valid := ok.length, masked := (r.recs.filter (·.masked)).length
           invalid := (r.recs.filter fun o => !o.masked && !o.valid).length, clipped := (r.recs.filter (·.clipped)).length, empty := ok.isEmpty }

def Losses.bytes (l : Losses) (skipped : W32) (version : W64) : List Byte :=
  leBytes 4 l.kl ++ (List.range 8).flatMap (fun t => leBytes 4 ((l.taps.getD t none).getD b32.qnan)) ++ leBytes 4 l.rank ++ leBytes 4 l.total ++ leBytes 4 l.tail ++
  leBytes 4 l.valid ++ leBytes 4 l.masked ++ leBytes 4 l.invalid ++ leBytes 4 l.clipped ++ leBytes 4 skipped.toNat ++ leBytes 4 0 ++ leBytes 8 version.toNat

/-- The tensor table that PROJ of a tap indexes: the student's, or the program's. -/
def Ptn.tapTensors (x : Ptn) (r : Train) (prog : Option Image) : List TensorDesc :=
  if r.expert then (prog.map (·.tensors)).getD [] else ((x.model? r.student).map (·.image.tensors)).getD []

/-- d_T of each tap: the columns of its projection (R162). RANK has none: its TABLE_ADDR is the list table, so TAPS is not looked at (DESIGN CHOICE, log entry 82). -/
def Ptn.tapDims (x : Ptn) (r : Train) (prog : Option Image) : List Nat :=
  (List.range r.tapCount).map fun t => ((x.tapTensors r prog).getD (r.proj t) {}).cols.toNat

/-- VERSION of the reply: of the command's weight set, or of a negative (R198, R336). -/
def Ptn.replyVersion (x : Ptn) (r : Train) (set : Nat) : W64 :=
  match x.model? r.student with
  | some m => if r.eval then m.version else ((m.sets[set]?).map (·.version)).getD 0
  | none => 0

def Hdr.ofTrain (p : PtnId) (r : Train) : Hdr := { ptn := p, queue := r.queue, seq := r.seq }

/-- Core groups of n that a command's teacher side takes: none without a teacher, or where there is one group only. -/
def Ptn.teacherShare (x : Ptn) (r : Train) (n : Nat) : Nat :=
  if !r.live || n < 2 then 0
  else
    let im := fun (h : Nat) => ((x.model? h).map (·.image)).getD {}
    teacherGroups ((im r.teacher).cost fwdUnit (im r.teacher).numbered) ((im r.student).studentCost r.hasHead r.eval) n

/-- LANES of a command (R145): basic, its student cores; expert, as given, or 8 for each core group of its footprint where the firmware chooses (DESIGN CHOICE, log entry 51). -/
def Ptn.lanesOf (x : Ptn) (r : Train) : Nat :=
  let n := x.footprint r.queue
  if !r.expert then 8 * (n - x.teacherShare r n) else if r.contact.lanes = 0 then 8 * n else r.contact.lanes.toNat

namespace State

def updRun (s : State) (p : PtnId) (h : Hdr) (f : Train → Train) : State :=
  s.updPtn p fun x => { x with train := { x.train with runs := updFirst (fun r => r.queue = h.queue && r.seq = h.seq) f x.train.runs } }

def runOf (s : State) (h : Hdr) : Option Train := (s.ptn h.ptn).train.runs.find? fun r => r.queue = h.queue && r.seq = h.seq

/-- The set whose version a reply names: the set of an UPDATE, else the student's first. -/
def replySet (s : State) (h : Hdr) : Nat := match (s.cmdOf h).bind (·.cmd) with | some (.update _ _ k _ _ _) => k.toNat | _ => 0

/-- Puts the loss block of a training command together from what its items have given so far; nothing of the fold is counted here. -/
def refreshLoss (s : State) (h : Hdr) : State :=
  match s.runOf h with
  | none => s
  | some r =>
    let x := s.ptn h.ptn
    let l : Losses := if r.expert || r.mbCount ≠ 0 then r.losses.run'.1 else {}
    s.updCmd h fun c => { c with result := l.bytes r.skipped (x.replyVersion r (s.replySet h)) }

/-- The means are formed once, when the last forward item is over: what they count, and EMPTY where nothing took part (R100, R157). -/
def countLosses (s : State) (h : Hdr) (r : Train) : State :=
  let e := r.losses.run'
  (s.addSheet h fun c => let c := c.addEv e.2; { c with empty := c.empty || e.1.empty }).updRun h.ptn h fun r => { r with lossDone := true }

end State

end Sys2Proof.Machine
end

