-- ==== Sys2Proof/Machine/Micro.lean ====
section
/-! DEFINITION. Micro-batches: the stash, its spills and fills, the forward and backward items of a training command, and the order in which they run (R161, R181 to R193, R383). -/

namespace Sys2Proof.Machine

/-! ## A model as a command reads it (R191, R192) -/

/-- A set's values at a version, as binary32 patterns. -/
def WSet.wordsAt (w : WSet) (v : W64) (n : Nat) : List W32 :=
  let t := if w.two && v.toNat % 2 = 1 then w.buf1 else w.buf0
  (List.range n).map (t.get 0)

/-- The version of a set among those sampled. -/
def versionOf (vs : List (Nat × Nat × W64)) (model set : Nat) : W64 := ((vs.find? fun e => e.1 = model && e.2.1 = set).map (·.2.2)).getD 0

/-- A tensor of a layer that carries private experts (R214). -/
def Image.isPrivate (im : Image) (i : Nat) : Bool := im.layers.any fun l => l.flags.getLsbD 0 && l.tensors.any fun t => t ≠ 0xFFFF && t.toNat = i

/-- The shared region as a partition's firmware reads it: an uncorrectable word and a die-to-die link that is down stop the read (R18, R262). -/
def State.sharedRead (s : State) (p : PtnId) : Acc (List Byte) :=
  let a := lpBase + s.mod.base.toNat * gib
  if s.dieLinks ≠ 0 && (homeDies a s.mod.fill.toNat).any fun v => s.linkDown (Who.firmware.die p) v then (s, .error St.eLinkDown)
  else match s.mem.ueRead a s.mod.fill.toNat with
    | some w => (s.noteUe (ptnBit p) w none, .error St.eMemUncorr)
    | none => (s, .ok s.sharedBytes)

/-- A model's tensors at the versions given: its own weights read from the partition's windows, shared ones from the shared region. A variant's private experts are its Q6 working copy, whose layout the spec does not give (DESIGN CHOICE, log entry 29). -/
def State.netOf (s : State) (p : PtnId) (m : Model) (vs : List (Nat × Nat × W64)) (c : CmdRec) (start : Nat → Nat) (variant : Option (List Byte)) : Acc Net :=
  let sharedW := m.flags.getLsbD 2
  let own : Acc (List Byte) := match m.image.weights with
    | some w => if sharedW then (s, .ok []) else s.pRead p Who.firmware (m.addr + w.1) w.2
    | none => (s, .ok [])
  match own with
  | (s, .error e) => (s, .error e)
  | (s, .ok b) =>
    match (if sharedW || m.image.tensors.any (·.shared) then s.sharedRead p else (s, .ok [])) with
    | (s, .error e) => (s, .error e)
    | (s, .ok sh) =>
    let im := match variant with
      | some _ => { m.image with tensors := m.image.tensors.mapIdx fun i t => if m.image.isPrivate i then { t with trainable := false, type := 5, shape := 4 } else t }
      | none => m.image
    let t := fun (i : Nat) => im.tensors.getD i { rows := 0, cols := 0 }
    let src := fun (i : Nat) => if sharedW || (t i).shared then sh else b
    let priv := fun (i : Nat) => if m.image.isPrivate i then variant else none
    (s, .ok {
      im := im
      words := fun i => match priv i with
        | some v => (List.range (tensorParams (t i))).map fun k => BitVec.ofNat 32 (b32.round (let x := (Config.variantElem v i k).toNat; q6.value (x % 256) (x / 256))).1
        | none => match m.sets.zipIdx.find? fun e => e.1.tensor = i with
          | some e => e.1.wordsAt (versionOf vs m.handle e.2) (tensorParams (t i))
          | none => tensorWords (t i) (src i)
      exact := fun i k => match priv i with
        | some v => let x := (Config.variantElem v i k).toNat; q6.value (x % 256) (x / 256)
        | none => match m.sets.zipIdx.find? fun e => e.1.tensor = i with
          | some e => b32.decode ((if e.1.two && (versionOf vs m.handle e.2).toNat % 2 = 1 then e.1.buf1 else e.1.buf0).get 0 k).toNat
          | none => tensorValue (t i) (src i) (t i).addr.toNat (t i).scaleAddr.toNat (k / (t i).cols.toNat) (k % (t i).cols.toNat)
      elem := fun i => match priv i with
        | some v => fun sl r c => if sl = 0 then (Config.variantElem v i (r * (t i).cols.toNat + c)).toNat else nullElem
        | none => tensorElem (t i) (src i)
      copy := fun i => (m.turned.find? (·.1 = i)).map (·.2)
      sat := c.numMode.sat
      sr := c.srOf
      given := if c.numMode.smode = 1 then some c.numMode.given.toNat else none
      q6f := (s.ptn p).train.stashQ6
      start := start })

/-- Tensors that the products of some layers read. -/
def productTensors (ls : List Layer) : List Nat :=
  ((ls.filter fun l => decide (3 ≤ l.kind.toNat)).flatMap fun l => (l.tensors.filter (· ≠ 0xFFFF)).map (·.toNat)).eraseDups

/-- Frozen weights that go to Q6 for their forward products. -/
def Image.toQ6 (im : Image) : List Nat :=
  (productTensors im.layers).filter fun i => let t := im.tensors.getD i { rows := 0, cols := 0 }; !t.trainable && t.type ≠ 4 && t.type ≠ 5

/-- Frozen weights of the layers from the gradient floor up whose turned copies a command makes: those without a resident one (R171). -/
def Image.toTurn (im : Image) (resident : List Nat) : List Nat :=
  (productTensors (im.aboveFloor.map (·.2))).filter fun i => copiesTurned (im.tensors.getD i { rows := 0, cols := 0 }) && !decide (i ∈ resident)

/-- What forming the slices of a model's trainable weights, and the Q6 forms of the frozen ones that need one, counts, once for a command (R50, R67, R68, R71). -/
def Net.weightEv (w : Net) : Ev :=
  w.im.toQ6.foldl (fun e i => e.add (w.weightQ6 i).2)
    (w.im.trainable.foldl (fun e i => e.add ((slicedOperand 3 (w.rows i) (w.cols i) (wordVals (w.words i))).run').2) {})

/-- What making the turned copies of the backward products counts, once for a command (R37, R73). -/
def Net.turnedEv (w : Net) : Ev :=
  (w.im.toTurn ((List.range w.im.tensors.length).filter fun i => (w.copy i).isSome)).foldl (fun e i => e.add (w.turnedNew i).2) {}

/-- Erg bytes of what a command makes of a model's weights: slices, Q6 forms, and with a backward pass turned copies (R71, R73). -/
def Model.madeBytes (m : Model) (back : Bool) : Nat :=
  let t := fun (i : Nat) => m.image.tensors.getD i { rows := 0, cols := 0 }
  (m.image.trainable.map fun i => slicesBytes 3 (t i)).sum +
  (m.image.toQ6.map fun i => if isShortCode (t i).type.toNat then descBytes { t i with type := 5, slices := 0 } else slicesBytes 1 (t i)).sum +
  if back then ((m.image.toTurn (m.turned.map (·.1))).map fun i => descBytes (turnedDesc (t i))).sum else 0

/-- Erg bytes of what a basic DISTILL_STEP or EVAL makes of its models' weights. -/
def Ptn.madeBytes (x : Ptn) (r : Train) : Nat :=
  (([r.student, r.teacher].eraseDups.filterMap x.model?).map fun m => m.madeBytes (!r.eval && m.handle = r.student)).sum

/-! ## The stash region and the spill window (R177, R183 to R185) -/

namespace Trainer

def regionUsed (t : Trainer) : Nat := ((t.mbs.filter fun m => m.place ≠ .spilled).map (·.bytes)).sum
def windowUsed (t : Trainer) : Nat := ((t.mbs.filter fun m => m.place ≠ .resident).map (·.bytes)).sum

/-- The micro-batch to spill next: resident, its forward completed with the lowest ESN, its backward not running (R183). -/
def oldest (t : Trainer) : Option Mb :=
  (t.mbs.filter fun m => m.place = .resident && m.done.isSome && !m.bwdRunning && m.bytes ≠ 0).foldl (fun a m =>
    match a with
    | some b => if (m.done.getD 0).toNat < (b.done.getD 0).toNat then some m else a
    | none => some m) none

def updMb (t : Trainer) (m : Mb) (f : Mb → Mb) : Trainer := { t with mbs := updFirst (fun a => a = m) f t.mbs }

/-- n more bytes fit in the region. -/
def fits (t : Trainer) (n : Nat) : Bool := t.regionUsed + n ≤ t.stashMib.toNat * mib

/-- The lowest offset of the spill window at which n bytes are free (DESIGN CHOICE, log entry 31). -/
def hole (t : Trainer) (n : Nat) : Option Nat :=
  let used := (t.mbs.filter fun m => m.place ≠ .resident).map fun m => (m.winOff, m.bytes)
  ((0 :: used.map fun e => e.1 + e.2).filter fun o =>
    decide (o + n ≤ t.spillGib.toNat * gib) && used.all fun e => decide (o + n ≤ e.1) || decide (e.1 + e.2 ≤ o)).foldl (fun a o =>
      match a with | some b => some (min b o) | none => some o) none

end Trainer

namespace State

def updTrain (s : State) (p : PtnId) (f : Trainer → Trainer) : State := s.updPtn p fun x => { x with train := f x.train }

def windowAt (s : State) (p : PtnId) (off : Nat) : Nat := (s.ptn p).train.spillBase.toNat * gib + off

/-- What a pending micro-batch has stashed, wherever it lies (R182). -/
def mbStash (s : State) (p : PtnId) (m : Mb) : Acc (List Byte) :=
  if m.place = .resident then (s, .ok m.stash) else s.pRead p Who.firmware (s.windowAt p m.winOff) m.bytes

/-- Spills a micro-batch whole (R183); E_STASH_FULL where the spill window cannot hold it (R184). -/
def spillMb (s : State) (p : PtnId) (m : Mb) : Acc Unit :=
  let t := (s.ptn p).train
  match t.hole m.bytes with
  | none => (s, .error St.eStashFull)
  | some o =>
    match s.pWrite p Who.firmware (s.windowAt p o) m.stash with
    | (s, .error c) => (s, .error c)
    | (s, .ok _) =>
      let used := t.windowUsed + m.bytes
      (s.updTrain p fun t => { t.updMb m fun a => { a with place := .spilled, winOff := o, stash := [] } with
        spills := satInc t.spills, peakSpill := BitVec.ofNat 11 (max t.peakSpill.toNat (ceilDiv used gib)) }, .ok ())

/-- Room made in the region, or why not: the writer waits, or fails with a code. Spills made on the way stand. -/
inductive Room where
  | room (s : State)
  | wait (s : State)
  | full (s : State) (c : Status)

/-- Makes room for n bytes in the region (R183, R184). -/
def makeRoom : Nat → PtnId → Nat → State → Room
  | 0, _, _, s => .wait s
  | f + 1, p, n, s =>
    let t := (s.ptn p).train
    if t.fits n then .room s
    else match t.oldest with
      | none => .wait s
      | some m => match s.spillMb p m with
        | (s, .error c) => .full s c
        | (s, .ok _) => makeRoom f p n s

def place (s : State) (p : PtnId) (n : Nat) : Room := makeRoom ((s.ptn p).train.mbs.length + 1) p n s

end State

/-! ## Versions (R191 to R193) -/

/-- Model, set number and version of every weight set of a model. -/
def Model.versions (m : Model) : List (Nat × Nat × W64) := m.sets.mapIdx fun i w => (m.handle, i, w.version)

def Ptn.set? (x : Ptn) (m k : Nat) : Option WSet := (x.model? m).bind fun y => y.sets[k]?

/-- Versions of the sets that an expert program reads; no field of its image names them (DESIGN CHOICE, log entry 78). -/
def Ptn.progVersions (x : Ptn) (prog : Nat) : List (Nat × Nat × W64) :=
  let h := ((x.prog? prog).map (·.hash)).getD []
  (x.models.flatMap (·.versions)).filter fun e => Config.readsSet h e.1 e.2.1

/-- An update is writing one of the sets (R193). -/
def Ptn.writingAny (x : Ptn) (vs : List (Nat × Nat × W64)) : Bool := vs.any fun e => ((x.set? e.1 e.2.1).map (·.writing)).getD false

/-- A pending micro-batch refers to a version of a set. -/
def Ptn.refersTo (x : Ptn) (m k : Nat) (v : W64) : Bool := x.train.mbs.any fun b => b.versions.any fun e => e.1 = m && e.2.1 = k && e.2.2 = v

def Ptn.updSet (x : Ptn) (m k : Nat) (f : WSet → WSet) : Ptn :=
  { x with models := updFirst (fun y => y.handle = m) (fun y => { y with sets := updNth f y.sets k }) x.models }

/-- The version that the target buffer of the next update holds: with two buffers the one before the current, with one the current (R193). -/
def WSet.targetVersion (w : WSet) : W64 := if w.two then w.version - 1 else w.version

/-! ## A forward item (R147, R174 to R176, R181, R182) -/

namespace Train

def isMine (r : Train) (m : Mb) (i : Nat) : Bool := !m.expert && m.queue = r.queue && m.seq = r.seq && m.index = i
def startOf (r : Train) (n : Nat) : Nat := Config.seqStart r.seed n

end Train

/-- K and V of each attention layer of a stash. -/
def Image.stashKv (im : Image) (q6f : Bool) (tokens : Nat) (bs : List Byte) : List (Nat × Mat × Mat) :=
  (im.aboveFloor.filter (·.2.kind = 3)).map fun e => let v := im.decStash q6f tokens bs e.1; (e.1, v.k, v.v)

/-- Rows of each layer's K and V after those before. -/
def joinKv (a b : List (Nat × Mat × Mat)) : List (Nat × Mat × Mat) :=
  let old := fun (i : Nat) => ((a.find? (·.1 = i)).map (·.2)).getD ({}, {})
  (b.map fun e => (e.1, (old e.1).1.under e.2.1, (old e.1).2.under e.2.2)) ++ a.filter fun e => !b.any (·.1 = e.1)

def kvAt (a : List (Nat × Mat × Mat)) (i : Nat) : Mat × Mat := ((a.find? (·.1 = i)).map (·.2)).getD ({}, {})

/-- K and V of the attention layers of a forward pass. -/
def Image.savesKv (im : Image) (saves : List Net.Save) : List (Nat × Mat × Mat) :=
  (im.numbered.filter (·.2.kind = 3)).map fun e => let v := saves.getD e.1 {}; (e.1, v.k, v.v)

namespace State

/-- Units that work for a queue's job: the matrix cores in service of its grant. -/
def jobUnits (s : State) (p : PtnId) (q : QueueId) : List Nat := (mcsOf (s.job p q).cgs).filter fun n => !s.mcRetired n

/-- Table engines in service of a queue's grant, which stage and look up for its items (R182). -/
def jobEngines (s : State) (p : PtnId) (q : QueueId) : List Nat := ((tesOf (s.job p q).cgs).filter fun n => !s.teRetired n).map (256 + ·)

/-- Cores of the teacher side and of the student side of a job's grant (R143). -/
def sides (s : State) (p : PtnId) (r : Train) : List Nat × List Nat :=
  let us := s.jobUnits p r.queue
  let gs := (us.map (· / 8)).eraseDups
  let t := gs.take ((s.ptn p).teacherShare r gs.length)
  (us.filter fun u => decide (u / 8 ∈ t), us.filter fun u => !decide (u / 8 ∈ t))

/-- Counters of a program's kernels that no rule gives: free values. -/
def kernelEv (seed item : Nat) : Ev :=
  let f := fun k => (Config.kernelWord seed 8 item k).toNat
  { sat := f 0, flush := f 1, ovf := f 2, nan := f 3 }

def itemFailed (s : State) (h : Hdr) (i : Nat) : Option Status := (s.cmdOf h).bind fun c => (c.items.getD i {}).failed

/-- Drops the pending micro-batch of an item: its stash is released (R186). -/
def dropMb (s : State) (p : PtnId) (r : Train) (i : Nat) : State := s.updTrain p fun t => { t with mbs := dropFirst (fun m => r.isMine m i) t.mbs }

/-- K and V of the micro-batches of a command before number i, from their stashes; one that has none leaves its positions at +0. -/
def stashedKv (s : State) (p : PtnId) (r : Train) (im : Image) : Nat → Acc (List (Nat × Mat × Mat))
  | 0 => (s, .ok [])
  | i + 1 =>
    match s.stashedKv p r im i with
    | (s, .error c) => (s, .error c)
    | (s, .ok a) =>
      let bs : Acc (List Byte) := match (s.ptn p).train.mbs.find? fun m => r.isMine m i with
        | some m => s.mbStash p m
        | none => (s, .ok [])
      match bs with
      | (s, .error c) => (s, .error c)
      | (s, .ok b) => (s, .ok (joinKv a (im.stashKv (s.ptn p).train.stashQ6 r.mbTokens b)))

/-- The nets of a command: the student's and, where it runs one, the teacher's. -/
def nets (s : State) (p : PtnId) (r : Train) (vs : List (Nat × Nat × W64)) : Acc (Net × Option Net) :=
  match s.cmdOf (Hdr.ofTrain p r), (s.ptn p).model? r.student with
  | some c, some m =>
    match s.netOf p m vs c r.startOf none with
    | (s, .error e) => (s, .error e)
    | (s, .ok w) =>
      let w := { w with keep := !r.eval }
      match if r.live then (s.ptn p).model? r.teacher else none with
      | none => (s, .ok (w, none))
      | some t => match s.netOf p t vs c r.startOf none with
        | (s, .error e) => (s, .error e)
        | (s, .ok v) => (s, .ok (w, some { v with keep := false }))
  | _, _ => (s, .error St.eHandle)

/-- A token or a weight that stops a forward item. -/
def netsBad (w : Net) (t : Option Net) (toks : List Nat) : Option Status :=
  let bad := fun (n : Net) => if n.badToken toks then some St.eIndex else if n.badShape then some St.eBlockShape else none
  (bad w).or (t.bind bad)

/-- Both sides' layers over the micro-batch's tokens: what the command keeps, the student's layer records, and the teacher's tap rows as far as the tap area has room. The X of a trainable tap projection goes to the stash as well. -/
def forwardCt (r : Train) (w : Net) (t : Option Net) (kv : List (Nat × Mat × Mat)) (toks : List Nat) : Ct (Train × List Net.Save) := do
  let p0 := r.nextFwd * r.mbTokens
  let f ← w.forward p0 (kvAt kv) toks
  let g ← match t with | some t => t.forward p0 (kvAt r.tKv) toks | none => pure {}
  let own := w.im.savesKv f.saves
  let kept := if r.eval then own else own.filter fun e => !w.im.aboveFloor.any (·.1 = e.1)
  let r := { r with
    toks := toks, sHid := f.cur, tHid := g.cur
    sTap := (List.range r.tapCount).map fun k => f.outs.getD (r.sLayer k) {}
    tTap := (List.range r.tapCount).map fun k => g.outs.getD (r.tLayer k) {}
    heads := List.replicate (1 + r.tapCount) []
    sKv := joinKv r.sKv kept
    tKv := match t with | some t => joinKv r.tKv (t.im.savesKv g.saves) | none => [] }
  let r ← (List.range r.tapCount).foldlM (fun r k => r.fillTap w.sr k p0) r
  let _ ← (r.taps.zip r.sTap).mapM fun t => if (w.tens t.1.2).trainable then w.stashed t.2 else pure {}
  -- RANK: both sides' scores, in the order of the items
  if r.contact.family ≠ 2 then pure (r, f.saves)
  else
    let ys ← w.project 8 f.cur
    let yt ← match t with | some t => t.project 8 g.cur | none => pure {}
    let r := { r with cb := { r.cb with scratch := (List.range toks.length).foldl (fun c n =>
      (c.put 0 (4 * (p0 + n)) (BitVec.ofNat 32 (yt.get n 0))).put 0 (4 * (p0 + n) + 1) (BitVec.ofNat 32 (ys.get n 0))) r.cb.scratch } }
    pure (r, f.saves)

/-- dW of the vocabulary projection from the row blocks of the current micro-batch, tokens ascending, once its blocks are final (R188). -/
def foldLate (s : State) (p : PtnId) (r : Train) : Acc Unit :=
  if r.late = [] then (s, .ok ())
  else
    let h := Hdr.ofTrain p r
    match s.nets p { r with teacher := 0xFFFF } (r.versions.getD []) with
    | (s, .error c) => (s, .error c)
    | (s, .ok (w, _)) =>
      let o := (r.late.foldlM (fun g b => w.headGrad b.2.1 b.2.2 g) r.grads).run'
      ((s.addSheet h (·.addEv o.2)).updRun p h fun r => { r with grads := o.1, late := [] }, .ok ())

/-- The current forward item is over. A completed one leaves its head and tap gradients behind its layers' stash. -/
def closeFwd (s : State) (p : PtnId) (r : Train) (failed : Option Status) : State :=
  let h := Hdr.ofTrain p r
  let i := r.nextFwd
  let esn := (s.ptn p).flow.esn
  let im := (((s.ptn p).model? r.student).map (·.image)).getD {}
  let widths := (if r.hasHead then im.width else 0) :: r.taps.map im.tapCols
  let tail := (r.heads.zip widths).flatMap fun e => (List.range (r.mbTokens * e.2)).flatMap fun k => leBytes 2 (b16.round (b32.decode (e.1.get 0 k).toNat)).1
  let s := s.updTrain p fun t => { t with mbs := t.mbs.map fun m =>
    if (r.isMine m i) then { m with done := some esn, failed := failed, bytes := if failed.isSome then 0 else m.bytes, stash := if failed.isSome then [] else m.stash ++ tail } else m }
  let s := s.closeItem h i failed
  s.updRun p h fun r => { r with
    nextFwd := i + 1, fwdOpen := false, toks := [], sHid := {}, tHid := {}, sTap := [], tTap := [], heads := [], late := []
    cb := { r.cb with taps := [], rings := [] }
    blocks := if failed.isSome then r.blocks.filter fun b => r.mbOf b ≠ i else r.blocks
    recs := if failed.isSome then r.recs.filter fun x => r.mbOf (x.n / 64) ≠ i else r.recs
    lists := if failed.isSome then r.lists.filter fun l => r.mbOf (r.listBlock l.1) ≠ i else r.lists }

/-- The forward item of RANK: its lists, which its scores have made final. STORE_OUT asks for OUT_ADDR and writes nothing here, since R158 speaks of tokens only (DESIGN CHOICE, log entry 91). -/
def rankFwd (s : State) (p : PtnId) (r : Train) : State :=
  let h := Hdr.ofTrain p r
  let bs := (List.range r.blockCount).filter fun b => r.mbOf b = r.nextFwd
  let ls := bs.flatMap r.listsOf
  if ls.any r.listBad then s.closeFwd p r (some St.eTargets)
  else
    let o := (ls.foldlM (fun (r : Train) i => r.foldList i) r).run'
    let r := { o.1 with blocks := r.blocks ++ bs }
    ((s.addSheet h (·.addEv o.2)).updRun p h fun _ => r).closeFwd p r none

/-- Fills each lane's ring for its next row block (R159). -/
def fillRings (r : Train) (lanes : Nat) (t : Option Net) : Train :=
  if r.contact.family ≠ 0 then r
  else match t with
    | none => r
    | some t =>
      let p0 := r.nextFwd * r.mbTokens
      let y := fun (b : Nat) => (do
        let a ← t.project 7 (r.tHid.rowsOf (64 * b - p0) (r.blockTokens b).length)
        let v ← scaled r.scale.c a.v
        pure { a with v := v } : Ct Mat).run'.1
      { r with cb := { r.cb with rings := (List.range lanes).flatMap fun l => r.ringOf lanes l y } }

/-- The forward of an item that has its stash room: input records, both sides' layers, the stash of the student's. -/
def runFwd (s : State) (p : PtnId) (r : Train) (vs : List (Nat × Nat × W64)) : State :=
  let h := Hdr.ofTrain p r
  let i := r.nextFwd
  match s.pRead p Who.firmware (r.batchAddr + 4 * r.mbTokens * i) (4 * r.mbTokens) with
  | (s, .error c) => s.closeFwd p r (some c)
  | (s, .ok b) =>
    let toks := (List.range r.mbTokens).map fun k => leNat ((b.drop (4 * k)).take 4)
    match s.nets p r vs with
    | (s, .error c) => s.closeFwd p r (some c)
    | (s, .ok (w, t)) =>
      match netsBad w t toks with
      | some c => s.closeFwd p r (some c)
      | none =>
        let old : Acc (List (Nat × Mat × Mat)) := if r.eval then (s, .ok r.sKv) else match s.stashedKv p r w.im i with
          | (s, .error c) => (s, .error c)
          | (s, .ok a) => (s, .ok (joinKv a r.sKv))
        match old with
        | (s, .error c) => s.closeFwd p r (some c)
        | (s, .ok kv) =>
          let o := (forwardCt r w t kv toks).run'
          let r := fillRings o.1.1 ((s.ptn p).lanesOf r) t
          let s := s.addSheet h fun c => (if i = 0 then ((c.addEv w.weightEv).addEv (if r.eval then {} else w.turnedEv)).addEv ((t.map (·.weightEv)).getD {}) else c).addEv o.2
          let s := s.updTrain p fun x => { x with mbs := x.mbs.map fun m => if r.isMine m i then { m with
            stash := if r.eval then [] else w.im.encStash w.q6f r.mbTokens o.1.2 (r.taps.zip r.sTap), toks := toks, routes := o.1.2.mapIdx fun k v => (k, v.routes) } else m }
          let s := s.updRun p h fun _ => r
          if r.contact.family = 2 then s.rankFwd p r else s

/-- Starts the next forward item: versions are sampled, its stash is placed, its units are at work. None where it waits; the spills made for it stand (R183). -/
def openFwd (s : State) (p : PtnId) (r : Train) : Option State :=
  let h := Hdr.ofTrain p r
  let x := s.ptn p
  let vs := r.versions.getD (([r.student, r.teacher].eraseDups.filterMap x.model?).flatMap (·.versions))
  if (r.versions.isNone && x.writingAny vs) || s.starved p then none
  else
    let i := r.nextFwd
    let bytes := if r.eval then 0 else ((x.model? r.student).map fun m => m.image.stashBytes x.train.stashQ6 r.hasHead r.taps r.mbTokens).getD 0
    match s.place p bytes with
    | .wait s' => if (s'.ptn p).train.mbs = (s.ptn p).train.mbs then none else some s'
    | .full s c =>
      let s := (List.range (r.mbCount - i)).foldl (fun s j => s.closeItem h (i + j) (some (if j = 0 then c else St.eStashFull))) s
      some (s.updRun p h fun r => { r with versions := some vs, nextFwd := r.mbCount, fwdOpen := false })
    | .room s =>
      let mine := vs.filter fun e => e.1 = r.student
      let s := if r.eval then s
        else s.updTrain p fun t => { t with mbs := t.mbs ++ [{ id := BitVec.ofNat 32 (256 * r.seq.toNat + i), queue := r.queue, seq := r.seq, index := i, versions := mine, bytes := bytes }] }
      let sd := s.sides p r
      if sd.1.any fun a => sd.2.any fun b => s.linkDown (dieOfMc a) (dieOfMc b) then some (s.closeFwd p { r with versions := some vs, fwdOpen := true } (some St.eLinkDown)) else
      let r := { r with versions := some vs, fwdOpen := true, tCores := sd.1, sCores := sd.2 }
      some (((s.addUnits h [i] (sd.1 ++ sd.2 ++ s.jobEngines p r.queue)).updRun p h fun _ => r).runFwd p r vs)

/-! ## A row block (R148, R152 to R158, R161 to R163) -/

/-- What finalising a row block gives: the command as it then stands, its tokens, and the logit gradients. -/
structure BlockOut where
  r : Train := {}
  outs : List (Nat × TokenOut) := []
  grad : Mat := {}
deriving DecidableEq, Repr

/-- A tap on a row block: h′ = h_S · P, each token's term, and its gradient with respect to h′, which goes with the stash to the backward pass in binary16 (R162, R163, R181). -/
def tapBlock (r : Train) (w : Net) (t : Nat) (outs : List (Nat × TokenOut)) (p0 : Nat) : Ct (Train × List (Nat × Nat)) := do
  let e := r.tapEntry t
  let n := outs.length
  let n0 := (outs.headD (0, {})).1
  let hs := (r.sTap.getD t {}).rowsOf (n0 - p0) n
  let d := w.cols (r.proj t)
  let h ← w.apply (r.proj t) hs
  let x ← outs.zipIdx.foldlM (fun (a : Train × List (Nat × Nat) × List (List Nat)) o => do
    let row ← a.1.takeTap w.sr t o.1.1
    if o.1.2.valid then do
      let y ← tapTerm (bitAt e 32) (bits e 64 32) (h.row o.2) (Train.tapValues d row.1)
      pure (row.2, a.2.1 ++ [(o.1.1, y.1)], a.2.2 ++ [y.2])
    else pure (row.2, a.2.1, a.2.2 ++ [List.replicate d 0])) (r, [], [])
  let r := x.1
  if r.eval then pure (r, x.2.1)
  else do
    let hv ← Net.halves x.2.2.flatten
    pure ({ r with heads := updNth (fun tab => Tab.putList 0 tab ((n0 - p0) * d) (hv.map (BitVec.ofNat 32 ·))) r.heads (1 + t) }, x.2.1)

/-- The targets that a TOPK teacher makes of a token that the student's side finds masked or invalid (R153); its scaled logits have been counted. -/
def liveTargets (r : Train) (a : List Nat) : Ct Targets := do
  let y := (scaled r.scale.c a).run'.1
  let l ← lseAll y
  makeTargets r.k true y l

/-- The target records that a TOPK teacher makes of a row block's tokens. -/
def liveRecs (r : Train) (yT : Mat) (outs : List (Nat × TokenOut)) : Ct (List (Nat × List Byte)) :=
  outs.zipIdx.mapM fun o => do
    let g ← if o.1.2.valid then pure o.1.2.targets else liveTargets r (yT.row o.2)
    pure (o.1.1, Train.targetRec true g)

/-- A row block among those whose dW is still to come, ascending. -/
def insLate (a : Nat × Mat × Mat) : List (Nat × Mat × Mat) → List (Nat × Mat × Mat)
  | [] => [a]
  | b :: r => if a.1 < b.1 then a :: b :: r else b :: insLate a r

/-- Both sweeps of a row block from both sides' logits (R147 to R156). `w` is the student's net at the basic level. -/
def blockCt (r : Train) (lanes : Nat) (sr : Nat → Option Nat) (w : Option Net) (block : Nat) (yT yS : Mat) : Ct BlockOut := do
  let p0 := r.nextFwd * r.mbTokens
  let ns := r.blockTokens block
  let half := r.contact.family = 1
  let outs ← ns.zipIdx.mapM fun e => do
    let o ← contactToken r.scale r.k half (r.masked e.1) (if r.live then some (yT.row e.2) else none) (if r.live then none else r.storedRec e.1) (yS.row e.2)
    pure (e.1, o)
  let grad := Mat.ofRows r.contact.vocab.toNat (outs.map (·.2.grad))
  let recs ← if half && r.live then liveRecs r yT outs else pure []
  let r := { r with cb := { r.cb with
    stats := (r.cb.stats.filter fun x => !decide (x.1 ∈ ns)) ++ (outs.filter fun o => !o.2.masked).map fun o => (o.1, o.2.rho, o.2.lS)
    window := if half then r.cb.window else
      (r.cb.window.filter fun x => !ns.any fun n => Train.windowSlot lanes n = x.1) ++ (outs.filter (·.2.valid)).map fun o => (Train.windowSlot lanes o.1, Train.targetRec false o.2.targets)
    records := if half && r.live then recs.foldl (fun b o =>
      b.take (o.1 * r.stride) ++ List.replicate (o.1 * r.stride - b.length) 0 ++ o.2 ++ List.replicate (r.stride - o.2.length) 0 ++ b.drop ((o.1 + 1) * r.stride)) r.cb.records
      else r.cb.records } }
  match w with
  | none => do
    -- expert: tap values are the program's; the teacher's rows pass through the tap area
    let terms ← (List.range r.tapCount).mapM fun t => outs.mapM fun o => if o.2.valid then do
        let e := r.tapEntry t
        let d := r.tapCols.getD t 0
        let row ← Train.tapRow sr o.1 ((List.range d).map (r.word (16 + t) o.1 ·))
        let y ← tapTerm (bitAt e 32) (bits e 64 32) ((List.range d).map (r.word (32 + t) o.1 ·)) (Train.tapValues d row)
        pure y.1
      else pure 0
    let recs := outs.zipIdx.map fun o => ({ n := o.1.1, masked := o.1.2.masked, valid := o.1.2.valid, clipped := o.1.2.clipped, loss := o.1.2.loss, tail := o.1.2.tail, taps := terms.map (·.getD o.2 0) } : TokRec)
    pure { r := { r with recs := recs.foldl (fun l x => insRec x l) r.recs }, outs := outs, grad := grad }
  | some w => do
    let ts ← (List.range r.tapCount).foldlM (fun (a : Train × List (List (Nat × Nat))) t => do
      let x ← tapBlock a.1 w t outs p0
      pure (x.1, a.2 ++ [x.2])) (r, [])
    let r := ts.1
    let term := fun (t : List (Nat × Nat)) (n : Nat) => ((t.find? (·.1 = n)).map (·.2)).getD 0
    let recs := outs.map fun o => ({ n := o.1, masked := o.2.masked, valid := o.2.valid, clipped := o.2.clipped, loss := o.2.loss, tail := o.2.tail, taps := ts.2.map (term · o.1) } : TokRec)
    let r := { r with recs := recs.foldl (fun l x => insRec x l) r.recs }
    if r.eval then pure { r := r, outs := outs, grad := grad }
    else do
      let x := match w.top 7 with
        | some i => if (w.tens i).trainable then (w.stashed (r.sHid.rowsOf (64 * block - p0) ns.length)).run'.1 else {}
        | none => {}
      let g ← w.headBack grad
      let r := { r with
        late := insLate (block, x, grad) r.late
        heads := updNth (fun tab => Tab.putList 0 tab ((64 * block - p0) * g.cols) (g.v.map (BitVec.ofNat 32 ·))) r.heads 0 }
      pure { r := r, outs := outs, grad := grad }

/-- The logit gradient of each vocabulary tile takes the logit's place in the student core of the row block's lane: SUM = g, COMP = 0 (R155); tile j stands in accumulator tile j mod 8. A program's logits stand where its kernels put them, which no field names (DESIGN CHOICE, log entry 79). -/
def putGrad (s : State) (r : Train) (lanes block : Nat) (g : Mat) : State :=
  if r.sCores = [] then s
  else
    let mc := r.sCores.getD (r.lane lanes block % r.sCores.length) 0
    s.updMc mc fun m => { m with acc := (List.range (ceilDiv g.cols 64)).foldl (fun acc j =>
      (List.range g.rows).foldl (fun acc i => (List.range (min 64 (g.cols - 64 * j))).foldl (fun acc c =>
        acc.put {} (4096 * (j % 8) + 64 * i + c) (Entry.loaded (g.get i (64 * j + c)) 0)) acc) acc) m.acc }

/-! ## Backward items (R168 to R176, R185, R187, R188) -/

/-- The backward pass of one micro-batch from its stash. -/
def backCt (r : Train) (w : Net) (m : Mb) (kv : List (Nat × Mat × Mat)) (bs : List Byte) : Ct Train := do
  let q := w.q6f
  let p0 := m.index * r.mbTokens
  let saves := fun (i : Nat) => { w.im.decStash q r.mbTokens bs i with routes := ((m.routes.find? (·.1 = i)).map (·.2)).getD [] }
  let taps ← r.taps.zipIdx.foldlM (fun (a : List (Nat × Mat) × Net.Bwd) t => do
    let i := t.1.2
    let x := if (w.tens i).trainable then w.im.decTapX q r.taps r.mbTokens bs t.2 else {}
    let g ← w.backAll i x (w.im.decTap q r.hasHead r.taps r.mbTokens bs t.2) [] a.2
    pure (a.1 ++ [(t.1.1, Mat.sums r.mbTokens (w.rows i) g.1)], g.2)) ([], { grads := r.grads, dkv := r.dkv })
  let heads : Net.Heads := {
    head := if r.hasHead then w.im.decHead q r.taps r.mbTokens bs else {}
    taps := taps.1
    score := if r.contact.family = 2 then Mat.of r.mbTokens 1 fun n _ => (r.cb.scratch.get 0 (4 * (p0 + n) + 2)).toNat else {} }
  let b ← w.backward w.im.aboveFloor p0 saves (kvAt kv) heads m.toks taps.2
  pure { r with grads := b.grads, dkv := b.dkv }

/-- The next backward item: none where it waits for its stash or for a slot (R185, R190, R510). -/
def nextBwd (s : State) (p : PtnId) (r : Train) (b : Nat) (rest : List Nat) : Option State :=
  let h := Hdr.ofTrain p r
  let fin := fun (s : State) => s.updRun p h fun r => { r with leftBwd := rest }
  match s.itemFailed h b with
  | some c => some (fin ((s.closeItem h (r.mbCount + b) (some c)).dropMb p r b))
  | none =>
    match (s.ptn p).train.mbs.find? fun m => r.isMine m b with
    | none => some (fin (s.closeItem h (r.mbCount + b) (some St.eIncomplete)))
    | some m =>
      if m.place ≠ .resident || s.starved p then none
      else if m.failed.isSome then some (fin ((s.closeItem h (r.mbCount + b) m.failed).dropMb p r b))
      else
        let us := (s.sides p r).2
        let sus := match s.cmdOf h with | some c => (c.items.getD b {}).suspect | none => false
        let s := s.addUnits h [r.mbCount + b] us
        let s := s.updCmd h fun c => { c with items := updNth (fun i => { i with suspect := i.suspect || sus }) c.items (r.mbCount + b) }
        let s := s.updTrain p fun t => { t with bwdUnits := (t.bwdUnits ++ us).eraseDups }
        match s.nets p { r with teacher := 0xFFFF } m.versions with
        | (s, .error c) => some (fin ((s.closeItem h (r.mbCount + b) (some c)).dropMb p r b))
        | (s, .ok (w, _)) =>
          match s.stashedKv p r w.im b with
          | (s, .error c) => some (fin ((s.closeItem h (r.mbCount + b) (some c)).dropMb p r b))
          | (s, .ok kv) =>
            let o := (backCt r w m (joinKv kv (r.sKv.map fun e => (e.1, e.2.1.rowsOf 0 (b * r.mbTokens), e.2.2.rowsOf 0 (b * r.mbTokens)))) m.stash).run'
            let s := (s.addSheet h (·.addEv o.2)).updRun p h fun _ => o.1
            some (fin ((s.closeItem h (r.mbCount + b) none).dropMb p r b))

/-! ## The order of a command's items (R182 to R192) -/

/-- Ends a round of a group by ABSENT: it takes a round number, and no member gets a bucket of it (R383). -/
def sendAbsent (s : State) (p : PtnId) (group : W32) : State :=
  match (s.ptn p).group? group with
  | none => s
  | some g =>
    if g.st ≠ .active then s
    else (s.toMembers p g 0x15 1 (groupHead g (g.opened + 1))).updGroup p group fun g => { g with opened := g.opened + 1, aborts := satInc g.aborts }

/-- A failed backward item fails every update item; the partition contributes no bucket (R190, R383). -/
def failUpdates (s : State) (p : PtnId) (r : Train) : State :=
  let h := Hdr.ofTrain p r
  let s := r.leftUpd.foldl (fun s k => (s.closeItem h (2 * r.mbCount + k) (some St.eIncomplete)).sendAbsent p r.group) s
  s.updRun p h fun r => { r with leftUpd := [] }

/-- One more step of a training command's items, if one can be made. -/
def stepRun (s : State) (p : PtnId) (r : Train) : Option State :=
  if r.expert || r.mbCount = 0 || (s.job p r.queue).st ≠ .running then none
  else if r.nextFwd < r.mbCount then
    match s.itemFailed (Hdr.ofTrain p r) r.nextFwd with
    | some c => some (if r.fwdOpen then s.closeFwd p r (some c) else s.updRun p (Hdr.ofTrain p r) fun r => { r with nextFwd := r.nextFwd + 1 })
    | none => if !r.fwdOpen then s.openFwd p r else none
  else if !r.lossDone then some (s.countLosses (Hdr.ofTrain p r) r)
  else match r.leftBwd with
    | b :: rest => s.nextBwd p r b rest
    | [] =>
      if r.leftUpd ≠ [] && (List.range r.mbCount).any fun b => (s.itemFailed (Hdr.ofTrain p r) (r.mbCount + b)).isSome then some (s.failUpdates p r) else none

def stepRuns : Nat → PtnId → Hdr → State → State
  | 0, _, _, s => s
  | f + 1, p, h, s =>
    match s.runOf h with
    | none => s
    | some r => match s.stepRun p r with
      | none => s
      | some s => stepRuns f p h s

/-- Carries on a training command as far as it can go, and reports it when it is over. -/
def pumpRun (s : State) (p : PtnId) (h : Hdr) : State :=
  match s.runOf h with
  | none => s
  | some r => ((stepRuns (4 * r.mbCount + 5) p h s).refreshLoss h).settle h

/-- Carries on every training command of a partition; twice, since one may make room for another. -/
def pumpTrain (s : State) (p : PtnId) : State :=
  let hs := (s.ptn p).train.runs.map (Hdr.ofTrain p)
  (hs ++ hs).foldl (fun s h => s.pumpRun p h) s

/-- What a BWD_MB program adds to the gradient area of each set it refers to; no field maps its tiles to the area, so the contributions are free values, folded in the order in which the commands are accepted (R189; DESIGN CHOICE, log entry 78). -/
def foldMb (s : State) (p : PtnId) (m : Mb) (seed : Nat) : State :=
  s.updPtn p fun x => m.versions.foldl (fun x e => x.updSet e.1 e.2.1 fun w =>
    let n := match x.model? e.1 with | some y => tensorParams (y.image.tensors.getD w.tensor {}) | none => 0
    { w with grad := (List.range n).foldl (fun t i => t.upd {} i fun a => (a.promote (b32.decode (Config.kernelWord seed 40 (64 * e.1 + e.2.1) i).toNat)).1) w.grad }) x

/-- A contribution among those that wait, in the order of acceptance. -/
def insFold (a : Nat × Mb × Nat) : List (Nat × Mb × Nat) → List (Nat × Mb × Nat)
  | [] => [a]
  | b :: r => if a.1 < b.1 then a :: b :: r else b :: insFold a r

/-- Folds the contributions before which no BWD_MB accepted earlier is still to end (R189). -/
def flushFolds (s : State) (p : PtnId) : State :=
  let x := s.ptn p
  let left := (x.flow.cmds.filter fun c => !c.isOver && (match c.cmd with | some (.bwdMb _ _) => true | _ => false)).map (·.num)
  let ready := x.train.folds.takeWhile fun f => left.all (f.1 < ·)
  (ready.foldl (fun s f => s.foldMb p f.2.1 f.2.2) s).updTrain p fun t => { t with folds := t.folds.drop ready.length }

/-- The program of a FWD_MB or BWD_MB is over: its micro-batch's forward stands or has failed, or its gradients are folded and it is no longer pending (R186, R189, R190). -/
def mbEnd (s : State) (h : Hdr) : State :=
  match s.cmdOf h with
  | none => s
  | some c =>
    let esn := (s.ptn h.ptn).flow.esn
    let bad := c.items.findSome? (·.failed)
    match c.cmd with
    | some (.fwdMb _ e) =>
      s.updTrain h.ptn fun t => { t with mbs := t.mbs.map fun m =>
        if m.expert && m.id = e.mbId && m.queue = c.hdr.queue && m.seq = c.hdr.seq then
          { m with done := some esn, failed := bad, bytes := if bad.isSome then 0 else m.bytes, stash := if bad.isSome then [] else m.stash, suspect := c.items.any (·.suspect) } else m }
    | some (.bwdMb _ e) =>
      let s := match (s.ptn h.ptn).train.mbs.find? fun m => m.expert && m.id = e.mbId && m.bwdRunning with
        | some m => if bad.isSome then s else { s with fresh := s.fresh + 1 }.updTrain h.ptn fun t => { t with folds := insFold (c.num, m, s.fresh) t.folds }
        | none => s
      let s := s.flushFolds h.ptn
      (s.updTrain h.ptn fun t => { t with
        mbs := dropFirst (fun m => m.expert && m.id = e.mbId && m.bwdRunning) t.mbs, bwdUnits := (t.bwdUnits ++ c.items.flatMap (·.units)).eraseDups }).pumpTrain h.ptn
    | _ =>
      -- a contact-path program that ends before every row block is final forms its means over those that are (R157)
      match s.runOf h with
      | some r => if r.expert && !r.lossDone then (s.countLosses h r).refreshLoss h else s
      | none => s

end State

end Sys2Proof.Machine
end

