-- ==== Sys2Proof/Machine/Sequencer.lean ====
section
/-! DEFINITION. Expert programs: loading and running them, and the sequencer's steps (R112, R116, R134, R138 to R141, R311, R347, R348, R511, R514). -/

namespace Sys2Proof.Machine

/-! ## PROG_LOAD, PROG_UNLOAD -/

/-- Result block of a load (R336). -/
def loadResult (handle : Nat) (version : W64) (hash : List Byte) : List Byte :=
  leBytes 2 handle ++ List.replicate 6 0 ++ leBytes 8 version.toNat ++ (hash ++ List.replicate (32 - hash.length) 0)

/-- The lowest free handle from `base` (R325). -/
def freeHandle (base : Nat) (used : List Nat) : Option Nat := ((List.range 64).map (base + ·)).find? fun h => !decide (h ∈ used)

def State.setResult (s : State) (h : Hdr) (r : List Byte) : State := s.updCmd h fun c => { c with result := r }

/-- A queued command of one item that ends as it starts: `f` answers a rejection, or the item and the result block. It waits while no slot serves what it reads (R510). -/
def State.queuedDone (s : State) (h : Hdr) (opcode : W16) (cmd : Instr) (f : State → State × Except Status (Item × List Byte)) : State :=
  let s := (s.ensureCmd h opcode false).updCmd h fun c => { c with cmd := some (c.cmd.getD cmd) }
  match s.cmdOf h with
  | none => s
  | some c =>
    if !s.mayStart c then s
    else
      let s := s.updPtn h.ptn (·.makeReady h.queue)
      if (s.job h.ptn h.queue).st ≠ .running then s
      else
        match s.startCheck h cmd with
        | some code => s.reject h opcode code
        | none =>
          if s.slotsWait h.ptn cmd then s
          else
          match f s with
          | (s, .error code) => s.reject h opcode code
          | (s, .ok (it, r)) => ((s.updCmd h fun c => { c with started := true, items := [it] }).setResult h r).settle h

/-- The whole image is read and checked before anything is loaded (R348). -/
def execProgLoad (h : Hdr) (addr bytes : W64) (s : State) : Res State :=
  .next (s.queuedDone h 0x701 (.progLoad h addr bytes) fun s =>
    if bytes.toNat < 64 then (s, .error St.eImage)
    else
      match s.pRead h.ptn Who.firmware addr.toNat bytes.toNat with
      | (s, .error c) => (s, .ok (failedItem c, loadResult 0 0 []))
      | (s, .ok b) =>
        match Image.load 2 bytes.toNat b false 0 with
        | .error c => (s, .error c)
        | .ok im =>
          match freeHandle 0x8000 ((s.ptn h.ptn).progs.map (·.handle)) with
          | none => (s, .error St.eBusy)
          | some n =>
            let d := sha256 b
            (s.updPtn h.ptn fun x => { x with progs := x.progs ++ [{ handle := n, image := im, hash := d, bytes := bytes.toNat }] }, .ok (doneItem, loadResult n 0 d)))

/-- The program a command names. -/
def instrProg : Instr → Option Nat
  | .progRun _ e => some e.program.toNat
  | .fwdMb _ e => some e.program.toNat
  | .bwdMb _ e => some e.program.toNat
  | .distillStep h _ e => if h.expert then some e.program.toNat else none
  | .eval h _ e => if h.expert then some e.program.toNat else none
  | .genSubmit h p _ _ => if h.expert then some p.toNat else none
  | _ => none

def Ptn.progInUse (x : Ptn) (n : Nat) : Bool :=
  x.flow.cmds.any fun c => !c.isOver && ((c.cmd.bind instrProg) = some n || c.prog.any (·.prog = n))

def execProgUnload (h : Hdr) (handle : W16) (s : State) : Res State :=
  .next (s.queuedDone h 0x702 (.progUnload h handle) fun s =>
    let x := s.ptn h.ptn
    if (x.prog? handle.toNat).isNone then (s, .error St.eHandle)
    else if x.progInUse handle.toNat then (s, .error St.eBusy)
    else (s.updPtn h.ptn fun x => { x with progs := x.progs.filter fun p => p.handle ≠ handle.toNat }, .ok (doneItem, [])))

/-! ## Starting a program -/

/-- Bytes of an operand's arrays that lie in the home slice of a core (R231, R310). -/
def TensorDesc.homeBytes (binds : List W64) (t : TensorDesc) (m : Nat) : Nat :=
  let a := tensorAddrs t binds; let ty := tensorTy t; let k := t.slices.toNat + 1
  let lo := m * sliceBytes
  let part := fun (b n : Nat) => min (b + n) (lo + sliceBytes) - max b lo
  part a.1 (k * elemBytes ty t.shape.toNat t.rows.toNat t.cols.toNat) + part a.2 (k * scaleBytes ty t.shape.toNat t.rows.toNat t.cols.toNat)

/-- The score of a core for the work that a program gives to logical core c: bytes of its stationary operands in the core's home slice, then of its streamed ones (R310). -/
def Image.score (im : Image) (binds : List W64) (c m : Nat) : Nat × Nat :=
  let ds := im.plans.flatMap fun pl => coreRuns pl c
  let sum := fun (f : RunDesc → W16) => (((ds.map fun d => (f d).toNat).eraseDups).map fun i => TensorDesc.homeBytes binds (im.tensors.getD i {}) m).sum
  (sum (·.wTensor), sum (·.sTensor))

/-- Of ascending cores, the one with the highest score; ties go to the lower number. -/
def bestCore (score : Nat → Nat × Nat) : List Nat → Option Nat
  | [] => none
  | m :: r => some (r.foldl (fun a n => let x := score a; let y := score n; if decide (x.1 < y.1) || (x.1 = y.1 && decide (x.2 < y.2)) then n else a) m)

/-- Logical cores in ascending order, each to the free core with its highest score; none where the cores are too few. -/
def Image.place (im : Image) (binds : List W64) : List Nat → List Nat → Option (List (Nat × Nat))
  | [], _ => some []
  | c :: r, free =>
    match bestCore (im.score binds c) free with
    | none => none
    | some m => (im.place binds r (free.erase m)).map ((c, m) :: ·)

/-- Where the cores of a program are: by index among the cores of the grant, which with FOOTPRINT 0 is every core group held that no release waits for, or one to one on the grant's cores in service by the affinity of R310; none where these are too few (R311, R511; DEDUCED, log entry 16). -/
def State.mapCores (s : State) (p : PtnId) (q : QueueId) (im : Image) (fixed : Bool) (binds : List W64) : Option (List (Nat × Nat)) :=
  if fixed then im.cores.mapM fun c => (mcsOf (s.job p q).cgs)[c]?.map fun m => (c, m)
  else im.place binds im.cores ((mcsOf (s.job p q).cgs).filter fun n => !s.mcRetired n)

/-- Starts the entry a command names; with too few cores in service every item fails with E_HW_FAULT. -/
def State.startProg (s : State) (h : Hdr) (prog entry : Nat) (srStream : W32) (binds : List W64) : State :=
  match (s.ptn h.ptn).prog? prog with
  | none => s
  | some pr =>
    let e := pr.image.entries.getD entry {}
    let seq := match s.cmdOf h with | some c => c.hdr.seq | none => h.seq
    let sr := BitVec.ofNat 32 (if srStream.getLsbD 31 then bits srStream.toNat 0 24 else bits seq.toNat 0 24)
    match s.mapCores h.ptn h.queue pr.image e.fixed binds with
    | some m =>
      let s := s.updCmd h fun c => { c with ergKept := pr.image.longBytes, prog := some { prog := prog, entry := entry, step := e.first, coreMap := m, binds := binds, srStream := sr } }
      (s.updPtn h.ptn (·.trim 0)).stageCmd h
    | none => s.failOpen h St.eHwFault

def execProgRun (h : Hdr) (x : ProgBlock) (s : State) : Res State :=
  .next (s.queued h 0x703 (.progRun h x) (fun s => (s.startCheck h (.progRun h x)).or (s.slicesCheck h x.program.toNat)) (fun s => (s.ptn h.ptn).entryItems x) fun s =>
    s.startProg h x.program.toNat x.entry.toNat x.srStream x.binds)

/-! ## What the program waits for (R139, R514) -/

/-- Hand-offs a split makes: P − 1 in either mode (R103, R105). -/
def SplitRun.over (x : SplitRun) : Bool := x.done.length + 1 ≥ SplitParts.count x.desc

/-- A plan is over: no record of it is left, none of its runs has a promotion to make, and its splits have combined. A plan that the program has not started is over (R514). -/
def State.planOver (s : State) (r : ProgRun) (im : Image) (n : Nat) : Bool :=
  let cores := (im.plans.getD n []).filterMap recCore
  let mcs := cores.map fun k => ((r.coreMap.find? (·.1 = k)).map (·.2)).getD k
  (r.plans.all fun p => p.plan ≠ n || p.left.isEmpty) && mcs.all (fun m => (s.mc m).flight.all fun e => e.2 ≠ some n) &&
  r.splits.all fun x => x.over || (r.plans.getD x.plan {}).plan ≠ n

/-- A launch is over: complete, or failed. -/
def State.launchOver (s : State) (id : Nat) : Bool :=
  match s.launch? id with
  | some l => l.failed.isSome
  | none => true

/-- The last launch of an index that the program started. -/
def ProgRun.launchOf (r : ProgRun) (a : Nat) : Option Nat := (r.started.reverse.find? (·.1 = a)).map (·.2)

/-- What a WAIT for it finds: over, and then its summaries are readable; a failed launch delivers none. A launch or plan not started is over at once. -/
def State.waitDone (s : State) (r : ProgRun) (im : Image) (isPlan : Bool) (a : Nat) : Option ProgRun :=
  if isPlan then (if s.planOver r im a then some r else none)
  else
    match r.launchOf a with
    | none => some r
    | some id =>
      if !s.launchOver id then none
      else
        let rest := r.readable.filter fun e => e.1 ≠ a
        match r.arrived.find? (·.1 = id) with
        | some e => some { r with readable := rest ++ [(a, e.2)] }
        | none => some { r with readable := rest }

/-- Ends a wait that is over. -/
def State.resolve (s : State) (r : ProgRun) (im : Image) : Option ProgRun :=
  match r.waiting with
  | none => some r
  | some w => (s.waitDone r im w.1 w.2).map fun r => { r with waiting := none }

/-- Carries out one step of the program that queue q runs, if `is` holds of the step it stands at and it waits for nothing. -/
def State.seqStep (s : State) (p : PtnId) (q : QueueId) (is : SeqStep → Bool) (f : State → CmdRec → ProgRun → Image → State) : State :=
  match s.running? p q with
  | none => s
  | some c =>
    match c.prog, (s.ptn p).imageOf c with
    | some r, some im =>
      if (s.job p q).st ≠ .running || r.ended || r.endCode.isSome || !is (im.steps.getD r.step {}) then s
      else
        match s.resolve r im with
        | none => s
        | some r => f s c r im
    | _, _ => s

def State.setProg (s : State) (c : CmdRec) (r : ProgRun) : State := s.updCmd c.hdr fun c => { c with prog := some r }

def ProgRun.next (r : ProgRun) : ProgRun := { r with step := r.step + 1 }

/-- Stands the program in a wait, and ends the wait at once where it is over. -/
def State.enterWait (s : State) (c : CmdRec) (r : ProgRun) (im : Image) (isPlan : Bool) (a : Nat) : State :=
  let r := { r with waiting := some (isPlan, a) }
  s.setProg c ((s.resolve r im).getD r)

/-! ## PLAN and LAUNCH -/

def execPlan (p : PtnId) (q : QueueId) (a : W16) (wait : Bool) (s : State) : Res State :=
  .next (s.seqStep p q (fun x => x.sop = 1 && x.a = a && bitAt x.fl.toNat 0 == wait) fun s c r im =>
    let n := a.toNat
    let r := { r.next with plans := r.plans ++ [{ plan := n, left := List.range (im.plans.getD n []).length }] }
    if wait then s.enterWait c r im true n else s.setProg c r)

/-- PARAM slots of a launch, with what COPY has put there. -/
def ProgRun.paramsOf (r : ProgRun) (a : Nat) (lr : LaunchRec) : List W32 :=
  (List.range 16).map fun i => (r.params.get none (16 * a + i)).getD (lr.param.getD i 0)

/-- Threads a launch names on the core at a position of its core list (R346). -/
def CoreEntry.threads (e : CoreEntry) (mc : Nat) : List Nat := (setBits e.mask.toNat 256).map (256 * mc + ·)

/-- Two operand-cache regions overlap. -/
def ocOverlap (a b : LaunchRec) : Bool := decide (a.ocBase < b.ocBase + b.ocKib) && decide (b.ocBase < a.ocBase + a.ocKib)

/-- A new launch breaks R134 against the launches still running on the cores it shares; those of a job that is stopped run nowhere. -/
def State.ocConflict (s : State) (l : Launch) : Bool :=
  let live := s.launches.filter s.onCores
  l.mcs.any fun m =>
    let here := live.filter fun o => decide (m ∈ o.mcs)
    here.length ≥ 4 || here.any fun o => ocOverlap o.lr l.lr || o.threads.any fun t => decide (t ∈ l.threads)

/-- State of a launch's threads at its start (R112), and its code in the region's first bytes (R134). -/
def State.beginLaunch (s : State) (l : Launch) : State :=
  let start := fun (s : State) (e : CoreEntry × Nat × Nat) =>
    let code := l.code.map fun o => { o with w := patched l.params o.w }
    let s := s.updMc e.2.1 fun m => m.ocWrite l.ocLo (code.flatMap codeBytes)
    (e.1.threads e.2.1).foldl (fun s t => s.updTh t fun _ =>
      { running := true, launch := l.id, pc := e.1.entry, b := l.lr.base
        g := (Tab.put 0 (Tab.put 0 [] 1 (BitVec.ofNat 32 (256 * e.2.2 + t % 256))) 2 (BitVec.ofNat 32 l.threads.length)) }) s
  let s := (l.lr.cores.zip (l.mcs.zip (List.range l.mcs.length))).foldl start s
  { s with launches := s.launches ++ [l], nextLaunch := s.nextLaunch + 1 }
where
  /-- The 8 bytes of an instruction word (R113). -/
  codeBytes (o : OpWord) : List Byte :=
    leBytes 8 (o.op.toNat + at' 7 (b2n o.w.i) + at' 8 o.w.type.toNat + at' 12 o.w.d.toNat + at' 17 o.w.a.toNat + at' 22 o.w.b.toNat +
      at' 27 o.w.pred.toNat + at' 30 (b2n o.w.mz) + at' 31 (b2n o.w.patch) + at' 32 o.w.imm.toNat)

/-- The launch a step starts. -/
def State.makeLaunch (s : State) (c : CmdRec) (r : ProgRun) (im : Image) (a : Nat) : Launch :=
  let lr := im.launches.getD a {}
  let code := im.kernels.getD lr.kernel []
  let mcs := lr.cores.map fun e => ((r.coreMap.find? (·.1 = e.core)).map (·.2)).getD e.core
  let params := r.paramsOf a lr
  { id := s.nextLaunch, ptn := c.hdr.ptn, queue := c.hdr.queue, seq := c.hdr.seq, index := a, code := code, lr := lr, params := params, mcs := mcs
    slots := (List.range 16).map fun i => let k := slotKind (code.map fun o => { o with w := patched params o.w }) i; { value := slotInit k, kind := k }
    threads := (lr.cores.zip mcs).flatMap fun e => e.1.threads e.2
    numMode := c.numMode, srSeed := c.srSeed, srStream := r.srStream }

/-- LAUNCH: a check at dispatch that fails, or a core out of service, fails the open items and the launch does not start; a conflict of R134 ends the program as at END. -/
def execLaunch (p : PtnId) (q : QueueId) (a : W16) (wait : Bool) (s : State) : Res State :=
  .next (s.seqStep p q (fun x => x.sop = 2 && x.a = a && bitAt x.fl.toNat 0 == wait) fun s c r im =>
    let n := a.toNat
    let l := s.makeLaunch c r im n
    let none' := { r.next with readable := r.readable.filter fun e => e.1 ≠ n }
    let failed := { none' with started := r.started ++ [(n, l.id)] }
    let lost := { s with nextLaunch := s.nextLaunch + 1 }
    if !l.mcs.all (fun m => decide (m ∈ mcsOf (s.job p q).cgs)) || l.mcs.any (s.mcRetired ·) then (lost.setProg c failed).failOpen c.hdr St.eHwFault
    else
      match dispatchCheck c.numMode.smode l.params l.code with
      | some code => (lost.setProg c failed).failOpen c.hdr code
      | none =>
        if s.ocConflict l then s.setProg c { r with endCode := some St.eOcAlloc }
        else
          let r := { none' with started := r.started ++ [(n, l.id)] }
          let s := (s.beginLaunch l).addUnits c.hdr (List.range c.items.length) l.mcs
          if wait then s.enterWait c r im false n else s.setProg c r)

def execWait (p : PtnId) (q : QueueId) (a : W16) (isPlan : Bool) (s : State) : Res State :=
  .next (s.seqStep p q (fun x => x.sop = 3 && x.a = a && bitAt x.fl.toNat 1 == isPlan) fun s c r im => s.enterWait c r.next im isPlan a.toNat)

/-- Every thread has ended, so the summaries reach the sequencer (R139); a failed launch delivers none. -/
def execLaunchComplete (launch : Nat) (s : State) : Res State :=
  .next (match s.launch? launch with
    | none => s
    | some l =>
      if l.failed.isNone && !l.threads.all fun t => decide (t ∈ l.ended) then s
      else
        let s := { s with launches := s.launches.filter fun o => o.id ≠ launch }
        let s := if l.failed.isSome then s else s.updCmd l.hdr fun c => { c with prog := c.prog.map fun r => { r with arrived := r.arrived ++ [(l.id, l.slots)] } }
        match s.cmdOf l.hdr with
        | none => s
        | some c =>
          match c.prog, (s.ptn l.ptn).imageOf c with
          | some r, some im => s.setProg c ((s.resolve r im).getD r)
          | _, _ => s)

/-! ## Steps of the program alone -/

/-- A summary as CMP and COPY read it (R138, R514). -/
def ProgRun.summary (r : ProgRun) (im : Image) (a slot : Nat) : Slot :=
  match r.readable.find? (·.1 = a) with
  | some e => e.2.getD slot {}
  | none =>
    let lr := im.launches.getD a {}
    let params := r.paramsOf a lr
    let k := slotKind ((im.kernels.getD lr.kernel []).map fun o => { o with w := patched params o.w }) slot
    { value := slotInit k, kind := k }

/-- The relations of CMP: EQ, NE, LT, LE, GT, GE (R347). -/
def cmpRel (n : Nat) : Rel := match n with | 0 => .eq | 1 => .ne | 2 => .lt | 3 => .le | 4 => .gt | _ => .ge

/-- FLAG and COUNT compare as uint32, MAX and MIN as binary32. -/
def summaryCmp (kind : BitVec 2) (n : Nat) (x y : W32) : Bool :=
  if kind.toNat ≥ 2 then (cmpRel n).holds (b32.decode x.toNat) (b32.decode y.toNat)
  else (cmpRel n).holds (XVal.ofNat x.toNat) (XVal.ofNat y.toNat)

def execCmp (p : PtnId) (q : QueueId) (c : CmpStep) (s : State) : Res State :=
  .next (s.seqStep p q (fun x => x.sop = 4 && x.a = c.a && x.slotA = c.slotA && bits x.fl.toNat 0 3 = c.rel.toNat && bitAt x.fl.toNat 3 == c.withB &&
      (if c.withB then x.b = c.b && x.slotB = c.slotB else x.imm = c.imm)) fun s cm r im =>
    let a := r.summary im c.a.toNat c.slotA.toNat
    let y := if c.withB then (r.summary im c.b.toNat c.slotB.toNat).value else c.imm
    s.setProg cm { r.next with flag := summaryCmp a.kind c.rel.toNat a.value y })

def execBrt (p : PtnId) (q : QueueId) (a : W16) (s : State) : Res State :=
  .next (s.seqStep p q (fun x => x.sop = 5 && x.a = a) fun s c r _ => s.setProg c (if r.flag then { r with step := a.toNat } else r.next))

def execJmp (p : PtnId) (q : QueueId) (a : W16) (s : State) : Res State :=
  .next (s.seqStep p q (fun x => x.sop = 6 && x.a = a) fun s c r _ => s.setProg c { r with step := a.toNat })

def execCopy (p : PtnId) (q : QueueId) (a b : W16) (slotA slotB : BitVec 4) (s : State) : Res State :=
  .next (s.seqStep p q (fun x => x.sop = 7 && x.a = a && x.b = b && x.slotA = slotA && x.slotB = slotB) fun s c r im =>
    s.setProg c { r.next with params := r.params.put none (16 * b.toNat + slotB.toNat) (some (r.summary im a.toNat slotA.toNat).value) })

def execSetc (p : PtnId) (q : QueueId) (c : BitVec 3) (imm : W32) (s : State) : Res State :=
  .next (s.seqStep p q (fun x => x.sop = 8 && x.a.toNat % 8 = c.toNat && x.imm = imm) fun s cm r _ =>
    s.setProg cm { r.next with counters := r.counters.put 0 c.toNat imm })

/-- A counter of 0 wraps to 2^32 − 1. -/
def execDecb (p : PtnId) (q : QueueId) (c : BitVec 3) (b : W16) (s : State) : Res State :=
  .next (s.seqStep p q (fun x => x.sop = 9 && x.a.toNat % 8 = c.toNat && x.b = b) fun s cm r _ =>
    let v := r.counters.get 0 c.toNat - 1
    let r := { r with counters := r.counters.put 0 c.toNat v }
    s.setProg cm (if v = 0 then r.next else { r with step := b.toNat }))

/-- An item already closed, and one at or above the entry's ITEMS, stay as they are. -/
def execEndItem (p : PtnId) (q : QueueId) (b : W16) (code : Status) (s : State) : Res State :=
  .next (s.seqStep p q (fun x => x.sop = 10 && x.b = b && bits x.imm.toNat 0 16 = code.toNat) fun s c r _ =>
    (s.setProg c r.next).closeItem c.hdr b.toNat (if code = 0 then none else some code))

/-- The program has reached END, or ends as at END, and every launch and plan it started is over: unclosed items fail, and the command is reported (R134, R514). -/
def execProgramEnd (p : PtnId) (q : QueueId) (s : State) : Res State :=
  .next (match s.running? p q with
    | none => s
    | some c =>
      match c.prog, (s.ptn p).imageOf c with
      | some r, some im =>
        let atEnd := (im.steps.getD r.step {}).sop = 11 && (s.resolve r im).isSome
        let quiet := r.started.all (fun e : Nat × Nat => s.launchOver e.2) && r.plans.all fun pr => s.planOver r im pr.plan
        if (s.job p q).st ≠ .running || r.ended || !(atEnd || r.endCode.isSome) || !quiet then s
        else
          let s := { s with launches := s.launches.filter fun l => !decide (l.id ∈ r.started.map Prod.snd) }
          (((s.setProg c { r with ended := true, waiting := none }).failOpen c.hdr (r.endCode.getD St.eItemOpen)).mbEnd c.hdr).settle c.hdr
      | _, _ => s)

end Sys2Proof.Machine
end

