-- ==== Sys2Proof/Machine/Schedule.lean ====
section
/-! DEFINITION. Slices, stop baths and restores (R142, R273, R291 to R299, R302, R305, R309, R511). -/

namespace Sys2Proof.Machine

/-! ## Moving a job's work between matrix cores (R299, R511) -/

/-- A thread's number on another core. -/
def moveThread (f : Nat → Nat) (t : Nat) : Nat := 256 * f (t / 256) + t % 256

/-- Renames the cores of job q's work: the core map, splits, the sides of its contact path, launches, waiters, and the threads that table-engine requests name. -/
def State.renameCores (s : State) (p : PtnId) (q : QueueId) (f : Nat → Nat) : State :=
  let s := s.updPtn p fun x => { x with
    flow := { x.flow with cmds := x.flow.cmds.map fun c =>
      if c.hdr.queue = q then { c with prog := c.prog.map fun r => { r with
        coreMap := r.coreMap.map fun e => (e.1, f e.2), splits := r.splits.map fun y => { y with mcs := y.mcs.map f } } } else c }
    train := { x.train with runs := x.train.runs.map fun r => if r.queue = q then { r with tCores := r.tCores.map f, sCores := r.sCores.map f } else r }
    sems := x.sems.map fun e => (e.1, { e.2 with waiters := e.2.waiters.map fun w =>
      if w.1 = q then (w.1, if w.2 ≥ 65536 then 65536 + f (w.2 - 65536) else moveThread f w.2) else w }) }
  let mine := fun (l : Launch) => l.ptn = p && l.queue = q
  let s := { s with
    launches := s.launches.map fun l => if mine l then { l with mcs := l.mcs.map f, threads := l.threads.map (moveThread f), ended := l.ended.map (moveThread f) } else l }
  { s with
    tes := s.tes.map fun e => (e.1, { e.2 with reqs := e.2.reqs.map fun w => if w.ptn = p && w.queue = q then { w with thread := w.thread.map fun t => (moveThread f t.1, t.2) } else w }) }

/-- Takes a core's state as a save area holds it. -/
def State.saveCore (s : State) (m : Nat) : SavedCore :=
  { mc := m, acc := (s.mc m).acc, oc := (s.mc m).oc, fwLast := (s.mc m).fwLast, ths := (s.ths.filter fun e => e.1 / 256 = m).map fun e => (e.1 % 256, e.2) }

def State.clearThreads (s : State) (m : Nat) : State := { s with ths := s.ths.filter fun e => e.1 / 256 ≠ m }

/-- Loads a save area into a core. -/
def State.loadCore (s : State) (c : SavedCore) (m : Nat) : State :=
  let s := (s.clearThreads m).updMc m fun x => { x with
    acc := c.acc, oc := c.oc, fwLast := c.fwLast, fwTile := [], localUe := [], flight := [], boundary := true, tileEnd := true, turnBusy := false, tiles := 0 }
  c.ths.foldl (fun s e => s.updTh (256 * m + e.1) fun _ => e.2) s

/-- Moves the state of a core to another. -/
def State.moveCore (s : State) (a b : Nat) : State := ((s.saveCore a |> fun c => s.loadCore c b)).clearThreads a

/-! ## Slices (R293, R302) -/

/-- A charge of job q's time to its command (R294, R295). -/
def State.charge (s : State) (p : PtnId) (q : QueueId) (ns : Nat) : State := s.updPtn p fun x => x.chargeTime q (x.runs? q) ns

/-- Inside a non-preemptible command a slice end waits for the command's end; how long that takes no operand says, so its overrun is a free value (R302). A job in a holder run has no slice end (R305). A slice end is a scheduling decision (R292). -/
def execSliceEnd (p : PtnId) (q : QueueId) (ns : Nat) (s : State) : Res State :=
  .next (
    let x := s.ptn p
    if (x.job q).st ≠ .running || x.inHolder q then s
    else
      let s := s.charge p q ns
      match s.running? p q with
      | some c =>
        if c.np then
          if (x.job q).overrunning then s
          else
            let s := s.updJob p q fun j => { j with overrunning := true, overruns := satInc j.overruns }
            ({ s with fresh := s.fresh + 1 } : State).updCmd c.hdr fun c => { c with overrunUs := BitVec.ofNat 32 (Config.free s.fresh 0) }
        else s.updPtn p fun x => (x.latch.sliceCompare q).schedule
      | none => s.updPtn p fun x => (x.latch.sliceCompare q).schedule)

/-! ## Stop baths (R298) -/

/-- Every core of the job stands at a tile boundary, runs no strip, and has no load outstanding. -/
def State.drained (s : State) (p : PtnId) (q : QueueId) : Bool :=
  (mcsOf (s.job p q).cgs).all fun m =>
    (s.mc m).boundary && (s.mc m).tiles = 0 && !(match (s.mc m).strip.st with | .first => true | .revive _ => true | _ => false) &&
    (s.ths.filter fun e => e.1 / 256 = m).all fun e => e.2.loads.isEmpty

/-- A core that a job has left. -/
def MCore.idle (x : MCore) : MCore := { x with active := {}, shadow := {}, turnBusy := false, tiles := 0, flight := [], fwTile := [], fwLast := [], tileEnd := true, boundary := true }

/-- The state of a job after its stop bath; one whose command has ended meanwhile has none (R298). -/
def Job.stopped (j : Job) (saved : List SavedCore) : Job :=
  { j with st := .stopped, cgs := 0, saved := saved, savedCgs := popcount j.cgs.toNat 32, preempts := satInc j.preempts, overrunning := false, stopFor := none }

/-- The core groups of a pre-empted job are reserved for the candidate it was stopped for, unless that has been granted others meanwhile, or a holder waits for core groups (R293, R305). -/
def Ptn.keepFor (x : Ptn) (h : Option QueueId) (m : BitVec 32) : Ptn :=
  match h with
  | some h => if decide (h ∈ x.candidates) && x.holders.all (·.running) then x.updJob h fun j => { j with kept := j.kept ||| m } else x
  | none => x

/-- The stopped job's state is saved, its charge is closed, and its core groups go to the next jobs, or to a holder run; the holder of a run hands them back to the waiting job. -/
def execStopBathHandover (p : PtnId) (q : QueueId) (ns : Nat) (s : State) : Res State :=
  .next (
    if (s.job p q).st ≠ .stopping || !s.drained p q then s
    else
      let s := s.charge p q ns
      let j := s.job p q
      let mcs := (mcsOf j.cgs).filter fun m => !s.mcRetired m
      let saved := mcs.map s.saveCore
      let s := (mcsOf j.cgs).foldl (fun s m => (s.clearThreads m).updMc m MCore.idle) s
      let s := match s.running? p q with
        | some c => s.updCmd c.hdr fun c => { c with preempts := satInc c.preempts }
        | none => s
      let s := s.updPtn p fun x => (x.updJob q (·.stopped saved)).keepFor j.stopFor j.cgs
      let s := s.updPtn p fun x => (if x.holders.any fun h => h.holder = q && h.running then x.endHolder q else x).holderScan.schedule
      if (s.running? p q).isNone then s.advance p q else s)

/-! ## Restores (R299, R309) -/

/-- The first item not yet reported: open, or held under R25. -/
def CmdRec.firstOpen (c : CmdRec) : Nat := ((List.range c.items.length).find? fun i => !(c.items.getD i {}).closed || (c.items.getD i {}).held).getD 0xFFFF

/-- Sends RESUME for a command that had started before the stop (R299, R337). -/
def State.resume (s : State) (p : PtnId) (c : CmdRec) : State :=
  s.sendEvent p c.hdr.queue 0x03 c.opcode c.hdr.seq (leBytes 2 c.firstOpen ++ [0, 0] ++ leBytes 4 c.preempts.toNat)

/-- An open item of the command has worked on one of these cores. -/
def CmdRec.needs (c : CmdRec) (ms : List Nat) : Bool := c.items.any fun i => !i.closed && i.units.any fun u => decide (u ∈ ms)

/-- The saved cores go to the granted cores in service, both ascending; a saved core without a place fails the open items of a program that maps it, or of a command of the firmware's that has worked on it, and a link that is down those whose state would cross it (R18). -/
def State.restore (s : State) (p : PtnId) (q : QueueId) : State :=
  let j := s.job p q
  let live := (mcsOf j.cgs).filter fun m => !s.mcRetired m
  let pairs := j.saved.zip live
  let s := pairs.foldl (fun s e => s.loadCore e.1 e.2) s
  let lost := (j.saved.drop live.length).map (·.mc)
  let f := fun m => match pairs.find? (·.1.mc = m) with | some e => e.2 | none => m
  let s := s.renameCores p q f
  let s := (s.updPtn p fun x => (x.updJob q fun j => { j with st := .running, saved := [], savedCgs := 0 }).holderScan).drainQps
  match s.running? p q with
  | none => s
  | some c =>
    let s := s.resume p c
    if pairs.any fun e => s.linkDown (dieOfMc e.1.mc) (dieOfMc e.2) then (s.failOpen c.hdr St.eLinkDown).settle c.hdr
    else if (match c.prog with | some r => r.coreMap.any (fun e => decide (e.2 ∈ lost)) | none => c.needs lost) then (s.failOpen c.hdr St.eHwFault).settle c.hdr else s

/-- The time of the switch, where the grant found parts of the working set missing (R309). -/
def CmdRec.countSwitch (c : CmdRec) (us : Nat) : CmdRec := if c.switching then { c with switchUs := satInc c.switchUs us, switching := false } else c

/-- A restore ends, once the job's table-engine requests have completed (R273), or the switch of a first grant; `ns` is charged to the resumed job, and `switchUs` is the time of the switch, where the grant was one. -/
def execRestoreComplete (p : PtnId) (q : QueueId) (ns switchUs : Nat) (s : State) : Res State :=
  .next (
    let st := (s.job p q).st
    let teBusy := s.tes.any fun e => e.2.reqs.any fun w => w.ptn = p && w.queue = q
    if (st ≠ .restoring && st ≠ .running) || (st = .restoring && teBusy) then s
    else
      let s := s.charge p q ns
      let s := if st = .restoring then s.restore p q else s
      match s.running? p q with
      | some c => (if st = .restoring then s.stageCmd c.hdr else s).updCmd c.hdr (·.countSwitch switchUs)
      | none => s.advance p q)

end Sys2Proof.Machine
end

