-- ==== Sys2Proof/Machine/Faults.lean ====
section
/-! DEFINITION. Detected faults and what they decide: test strips and retirement, suspect items, hangs, sequencer pairs, descriptors, windows, links, scrub, and the sticky log (R18, R161, R190, R225, R263, R417 to R446, R512). -/

namespace Sys2Proof.Machine

/-! ## A fault and the items it decides (R427, R431, R438) -/

def Mark.hdr (m : Mark) : Hdr := { ptn := m.ptn, queue := m.queue, seq := m.seq }

def State.updItem (s : State) (m : Mark) (f : Item → Item) : State := s.updCmd m.hdr fun c => { c with items := updNth f c.items m.item }

/-- Sends the SUSPECT events of a fault whose record has its MEN, and reports what it decided. -/
def State.decide' (s : State) (men : W64) (marks : List Mark) : State :=
  let s := marks.foldl (fun s m =>
    let s := s.updItem m fun i => { i with waitMen := false }
    match m.event, s.cmdOf m.hdr with
    | some tok, some c => s.sendEvent m.ptn m.queue 0x02 c.opcode m.seq (leBytes 2 m.item ++ [0, 0] ++ leBytes 4 tok.toNat ++ leBytes 8 men.toNat)
    | _, _ => s) s
  (marks.map Mark.hdr).eraseDups.foldl (fun s h => s.settle h) s

/-- Records a fault and then what it decides; while the steward restarts both wait. -/
def State.faultWith (s : State) (r : FRec) (marks : List Mark) : State :=
  if s.saf.stewRestart then
    let s := marks.foldl (fun s m => s.updItem m fun i => { i with waitMen := true }) s
    { s with saf := { s.saf with deferred := s.saf.deferred ++ [(r, marks)] } }
  else (s.recordFault r).decide' s.saf.nextMen marks

/-- The steward's restart ends: faults detected meanwhile are recorded in their order (R431). -/
def State.stewardBack (s : State) : State :=
  let ds := s.saf.deferred
  ds.foldl (fun s d => (s.recordFault d.1).decide' s.saf.nextMen d.2) { s with saf := { s.saf with stewRestart := false, deferred := [] } }

def execStewardRestartComplete (s : State) : Res State := .next (if s.saf.stewRestart then s.stewardBack else s)

/-! ## Suspect items (R161, R190, R225, R426) -/

/-- Items of a command to which suspicion of item i passes: a backward item from its forward, an update item from any backward item (R190). -/
def Ptn.spread (x : Ptn) (c : CmdRec) (i : Nat) : List Nat :=
  match x.train.runs.find? fun r => c.is r.queue r.seq && !r.eval with
  | none => []
  | some r =>
    let n := r.mbCount
    let upd := (List.range c.items.length).filter fun k => 2 * n ≤ k
    if i < n then (n + i) :: upd else if i < 2 * n then upd else []

/-- First affected token of a generation item: the tokens committed before the unit's first work since its last passing strip (R225). -/
def CmdRec.firstToken (c : CmdRec) (i u : Nat) : W32 :=
  match (c.items.getD i {}).ledger.find? (·.1 = u) with
  | some e => BitVec.ofNat 32 e.2
  | none => 0xFFFFFFFF

/-- MB_ID of the FWD_MB commands among marks. -/
def State.fwdIds (s : State) (ms : List Mark) : List W32 :=
  ms.filterMap fun m => match (s.cmdOf m.hdr).bind (·.cmd) with | some (.fwdMb _ e) => some e.mbId | _ => none

/-- Items of the BWD_MB commands of the micro-batches named (R190). -/
def State.bwdMarks (s : State) (p : PtnId) (ids : List W32) : List Mark :=
  (s.ptn p).flow.cmds.flatMap fun c => match c.cmd with
    | some (.bwdMb _ e) => if decide (e.mbId ∈ ids) then
        ((List.range c.items.length).filter fun i => (c.items.getD i {}).failed.isNone).map fun i =>
          { ptn := p, queue := c.hdr.queue, seq := c.hdr.seq, item := i, event := some 0xFFFFFFFF } else []
    | _ => []

/-- Items of partition p that unit u computed since its last passing strip, with those of the same command to which suspicion passes. -/
def State.suspects1 (s : State) (p : PtnId) (u : Nat) : List Mark :=
  let x := s.ptn p
  x.flow.cmds.flatMap fun c =>
    let own := (List.range c.items.length).filter fun i => decide (u ∈ (c.items.getD i {}).units)
    let all := own ++ ((own.flatMap (x.spread c)).eraseDups.filter fun i => !decide (i ∈ own))
    (all.filter fun i => (c.items.getD i {}).failed.isNone).map fun i =>
      { ptn := p, queue := c.hdr.queue, seq := c.hdr.seq, item := i, event := some (c.firstToken i u) }

/-- All items that become suspect with unit u. -/
def State.suspects (s : State) (p : PtnId) (u : Nat) : List Mark :=
  let ms := s.suspects1 p u
  ms ++ (s.bwdMarks p (s.fwdIds ms)).filter fun b => !ms.any fun m => m.hdr = b.hdr && m.item = b.item

/-- The unit's window ends: it owes nothing to any item (R425, R426). -/
def State.clearUnit (s : State) (u : Nat) : State :=
  ptnIds.foldl (fun s p => s.updPtn p fun x => { x with
    flow := { x.flow with cmds := x.flow.cmds.map fun c => { c with items := c.items.map fun i => { i with units := i.units.filter (· ≠ u), ledger := i.ledger.filter (·.1 ≠ u) } } }
    train := { x.train with bwdUnits := x.train.bwdUnits.filter (· ≠ u) } }) s

/-- Micro-batches whose forward command is marked become suspect, as does the step whose backward items the unit computed (R190, R428). -/
def Trainer.suspect (t : Trainer) (u : Nat) (ids : List W32) : Trainer :=
  { t with mbs := t.mbs.map fun m => if m.expert && decide (m.id ∈ ids) then { m with suspect := true } else m, bwdBad := t.bwdBad || decide (u ∈ t.bwdUnits) }

/-- Every item the unit computed becomes suspect, and the unit's window ends. -/
def State.suspectAll (s : State) (u : Nat) : State × List Mark :=
  let ms := ptnIds.flatMap fun p => s.suspects p u
  let s := ptnIds.foldl (fun s p => let ids := s.fwdIds (ms.filter (·.ptn = p)); s.updPtn p fun x => { x with train := x.train.suspect u ids }) s
  ((ms.foldl (fun s m => s.updItem m fun i => { i with suspect := true }) s).clearUnit u, ms)

/-- Reports every command that no longer waits for a strip. -/
def State.reportAll (s : State) : State :=
  ptnIds.foldl (fun s p => (((s.ptn p).flow.cmds.map (·.hdr)).foldl (fun s h => s.tryReport h) s).finishReset p) s

/-! ## Units and retirement (R423, R424, R435, R511) -/

/-- Units by number: n is MCn, 256 + n is TEn. -/
def unitStrip (s : State) (u : Nat) : Strip := if u < 256 then (s.mc u).strip else (s.te (u - 256)).strip
def State.updStrip (s : State) (u : Nat) (f : Strip → Strip) : State :=
  if u < 256 then s.updMc u fun m => { m with strip := f m.strip } else s.updTe (u - 256) fun e => { e with strip := f e.strip }

/-- A fault record of a matrix core or table engine. -/
def State.unitRec (s : State) (u : Nat) (cls sev : Byte) (cause : W16) (detail : W32) (stamp : W64) : FRec :=
  let mask := match s.cgOwner (cgOfUnit u) with | some p => ptnBit p | none => 0
  { cls := cls, severity := sev, unitKind := if u < 256 then 1 else 2, die := BitVec.ofNat 8 (if u < 256 then dieOfMc u else dieOfTe (u - 256)),
    unit := BitVec.ofNat 16 (if u < 256 then u else u - 256), cause := cause, ptnMask := mask, detail := detail, stamp := stamp }

/-- Open items of a command fail, without a report yet. -/
def State.openMarks (s : State) (h : Hdr) : List Mark :=
  match s.cmdOf h with
  | none => []
  | some c => ((List.range c.items.length).filter fun i => !(c.items.getD i {}).closed).map fun i =>
      { ptn := h.ptn, queue := h.queue, seq := h.seq, item := i }

/-- Stops a launch; its command's open items fail (R141). -/
def State.haltLaunch (s : State) (l : Launch) (code : Status) : State × List Mark :=
  let ms := s.openMarks l.hdr
  let s := s.updLaunch l.id fun l => { l with failed := some code }
  let s := l.threads.foldl (fun s t => s.updTh t fun x => { x with running := false, wait := .none }) s
  (s.failOpen l.hdr code, ms)

/-- The logical core of a retired core moves, with its state, to a core in service of the grant that the map does not use; with none left, or a link down on the way, the command's open items fail (R18, R423, R511). Fixed placement keeps its cores, and the map of a stopped job is carried to its restore. -/
def State.remap (s : State) (p : PtnId) (m : Nat) : State × List Mark :=
  (queueIds.foldl (fun (a : State × List Mark) q =>
    match a.1.running? p q with
    | none => a
    | some c =>
      match c.prog, (a.1.ptn p).imageOf c with
      | some r, some im =>
        if (im.entries.getD r.entry {}).fixed || !r.coreMap.any (fun e => e.2 = m) || (a.1.job p q).st = .stopped || (a.1.job p q).st = .restoring then a
        else
          let live := (mcsOf (a.1.job p q).cgs).filter fun n => !a.1.mcRetired n && !r.coreMap.any fun e => e.2 = n
          match live.head? with
          | some n => if a.1.linkDown (dieOfMc m) (dieOfMc n) then (a.1.failOpen c.hdr St.eLinkDown, a.2 ++ a.1.openMarks c.hdr) else (((a.1.moveCore m n).renameCores p q fun k => if k = m then n else k), a.2)
          | none => (a.1.failOpen c.hdr St.eHwFault, a.2 ++ a.1.openMarks c.hdr)
      | _, _ => a) (s, []))

/-- Requests of a retired engine go to the other engine of its core group, or fail with E_HW_FAULT (R424). -/
def State.shiftReqs (s : State) (n : Nat) : State × List Mark :=
  let rs := (s.te n).reqs
  let s := s.updTe n fun e => { e with reqs := [] }
  let o := n / 2 * 2 + (1 - n % 2)
  if !s.teRetired o then (s.updTe o fun e => { e with reqs := e.reqs ++ rs }, [])
  else rs.foldl (fun (a : State × List Mark) w =>
    match w.thread.bind fun t => a.1.launch? t.2 with
    | some l => let h := a.1.haltLaunch l St.eHwFault; (h.1, a.2 ++ h.2)
    | none =>
      let m : Mark := { ptn := w.ptn, queue := w.queue, seq := w.seq, item := w.item }
      (a.1.closeItem w.hdr w.item (some St.eHwFault), a.2 ++ [m])) (s, [])

/-- A unit leaves service until a cold reset or a revival. -/
def State.retire (s : State) (u : Nat) : State × List Mark :=
  let s := s.updStrip u fun x => { x with retired := true, st := .idle }
  if u < 256 then match s.cgOwner (u / 8) with
    | some p => s.remap p u
    | none => (s, [])
  else s.shiftReqs (u - 256)

/-! ## Strips (R419 to R429) -/

/-- The core is in L0 and held. -/
def State.inL0 (s : State) (cg : Nat) : Bool :=
  s.phase = .ready && decide (s.pwr.st.toNat < 2) &&
  match s.cgOwner cg with | some p => !bitAt (s.ptn p).l1.toNat cg | none => false

/-- A strip falls due (R421). -/
def execStripDue (mc : McId) (s : State) : Res State :=
  .next (if (s.mc mc.val).strip.st = .idle && !s.mcRetired mc.val && s.inL0 (mc.val / 8) then s.updStrip mc.val fun x => { x with st := .due } else s)

/-- A stop request prevents a new strip on the job's cores (R297). -/
def State.stopAsked (s : State) (m : Nat) : Bool :=
  match s.cgOwner (m / 8) with
  | some p => queueIds.any fun q => (s.job p q).st = .stopping && bitAt (s.job p q).cgs.toNat (m / 8)
  | none => false

/-- A due strip starts at a tile boundary; the core's threads are held (R420, R421). -/
def execStripStart (mc : McId) (s : State) : Res State :=
  let m := s.mc mc.val
  .next (if m.strip.st = .due && m.boundary && m.tiles = 0 && !s.stopAsked mc.val then s.updStrip mc.val fun x => { x with st := .first } else s)

/-- Module event SERVICE: a record with CAUSE 0 and the revived unit; what the spec does not give of it is free (R438). -/
def State.service (s : State) (u : Nat) (stamp : W64) : State :=
  let r := s.unitRec u (BitVec.ofNat 8 (Config.free s.fresh 0)) (BitVec.ofNat 8 (Config.free s.fresh 1)) 0 0 stamp
  let s := { s with fresh := s.fresh + 1 }
  let men := s.saf.nextMen
  (s.takeMen).sendModule 0x11 men ({ r with men := men } : FRec).bytes

/-- Items of STRIP_NOW that wait for a unit end. -/
def State.endWaiters (s : State) (u : Nat) (failed : Option Status) : State :=
  let ws := (unitStrip s u).waiters
  let s := s.updStrip u fun x => { x with waiters := [] }
  ws.foldl (fun s w =>
    let h : Hdr := { ptn := w.1, queue := w.2.1, seq := w.2.2.1 }
    ((s.closeItem h w.2.2.2 failed).updItem { ptn := w.1, queue := w.2.1, seq := w.2.2.1, item := w.2.2.2 } fun i => { i with waitMen := false }).settle h) s

/-- Items of STRIP_NOW fail with the first strip; they are reported with its record. -/
def State.failWaiters (s : State) (u : Nat) : State :=
  (unitStrip s u).waiters.foldl (fun s w =>
    (s.closeItem { ptn := w.1, queue := w.2.1, seq := w.2.2.1 } w.2.2.2 (some St.eHwFault)).updItem
      { ptn := w.1, queue := w.2.1, seq := w.2.2.1, item := w.2.2.2 } fun i => { i with waitMen := true }) s

/-- A strip of a unit ends with every signature good, or with the lowest failing one (R422, R424, R429). -/
def State.stripResult (s : State) (u : Nat) (r : StripResult) (stamp : W64) : State :=
  let st := (unitStrip s u).st
  let s := s.updStrip u fun x => { x with strips := satInc x.strips, rotation := x.rotation + 1, fails := if r.isSome then satInc x.fails else x.fails }
  match st with
  | .revive n =>
    if r.isSome then (s.updStrip u fun x => { x with st := .idle }).endWaiters u (some St.eHwFault)
    else if n + 1 < 8 then s.updStrip u fun x => { x with st := .revive (n + 1) }
    else ((s.updStrip u fun x => { x with st := .idle, retired := false }).service u stamp).endWaiters u none
  | .second sig =>
    let m := s.suspectAll u
    if r.isNone then
      let s := m.1.updStrip u fun x => { x with st := .idle }
      ((s.faultWith (s.unitRec u 1 1 0x0101 sig stamp) m.2).endWaiters u none).reportAll
    else
      let t := m.1.retire u
      ((t.1.faultWith (t.1.unitRec u 1 2 0x0102 sig stamp) (m.2 ++ t.2)).endWaiters u (some St.eHwFault)).reportAll
  | _ =>
    match r with
    | none => (((s.clearUnit u).updStrip u fun x => { x with st := .idle }).endWaiters u none).reportAll
    | some sig => (s.failWaiters u).updStrip u fun x => { x with st := .second sig }

/-- The 12 µs of a test strip on a core are charged to no job (R294). -/
def State.exemptStrip (s : State) (m : Nat) : State :=
  match s.cgOwner (m / 8) with
  | some p => s.updPtn p fun x => queueIds.foldl (fun x q => if bitAt (x.job q).cgs.toNat (m / 8) then x.updJob q fun j => { j with exempt := j.exempt + 12000 } else x) x
  | none => s

def execStripEnd (mc : McId) (r : StripResult) (stamp : W64) (s : State) : Res State :=
  .next (if (s.mc mc.val).strip.active then (s.exemptStrip mc.val).stripResult mc.val r stamp else s)

/-- Engine strips start between requests; their start has no row. A retired engine runs none but in a revival. -/
def execTeStripEnd (te : TeId) (r : StripResult) (stamp : W64) (s : State) : Res State :=
  let x := (s.te te.val).strip
  .next (if x.retired && !x.active then s else s.stripResult (256 + te.val) r stamp)

/-- Items of STRIP_NOW: the matrix cores named, ascending, then the table engines, ascending. -/
def stripUnits (mask : W32) (cores engines : Bool) : List Nat :=
  (if cores then mcsOf mask else []) ++ (if engines then (tesOf mask).map (256 + ·) else [])

def execStripNow (h : Hdr) (cgMask : W32) (revive cores engines : Bool) (s : State) : Res State :=
  let us := stripUnits cgMask cores engines
  .next (s.queued h 0xF01 (.stripNow h cgMask revive cores engines)
    (fun s => if cgMask &&& ~~~(s.ptn h.ptn).cgs ≠ 0 || (!cores && !engines) then some St.eParam else none)
    (fun _ => us.length)
    fun s =>
      let seq := match s.cmdOf h with | some c => c.hdr.seq | none => h.seq
      us.zipIdx.foldl (fun s e =>
        let x := unitStrip s e.1
        if x.retired && !revive then s.closeItem h e.2 (some St.eHwFault)
        else s.updStrip e.1 fun x => { x with
          waiters := x.waiters ++ [(h.ptn, h.queue, seq, e.2)]
          st := if x.retired then (match x.st with | .revive n => .revive n | _ => .revive 0) else if x.st = .idle then .due else x.st }) s)

/-! ## Hangs (R435) -/

/-- The code of an item that a hung unit was computing: that of R161 for a forward item of FULL whose teacher tiles the unit computed. -/
def State.hangCode (s : State) (m : Mark) (u : Nat) : Status :=
  match (s.ptn m.ptn).train.runs.find? fun r => r.queue = m.queue && r.seq = m.seq with
  | some r => if !r.expert && r.contact.family = 0 && r.fwdOpen && m.item = r.nextFwd && decide (u ∈ r.tCores) then St.ePairFailed else St.eHwFault
  | none => St.eHwFault

/-- A third consecutive heartbeat is missing: the unit is retired, what it was computing fails, and what it computed since its last passing strip is suspect. -/
def execHeartbeatMissed (isTe : Bool) (unit : McId) (stamp : W64) (s : State) : Res State :=
  .next (
    let u := if isTe then 256 + unit.val % 64 else unit.val
    if (unitStrip s u).retired || !s.inL0 (cgOfUnit u) then s
    else
      let open' := ptnIds.flatMap fun p => (s.ptn p).flow.cmds.flatMap fun c =>
        ((List.range c.items.length).filter fun i => let it := c.items.getD i {}; !it.closed && decide (u ∈ it.units)).map fun i =>
          ({ ptn := p, queue := c.hdr.queue, seq := c.hdr.seq, item := i } : Mark)
      let s := open'.foldl (fun a m => a.closeItem m.hdr m.item (some (s.hangCode m u))) s
      let a := (s.launches.filter fun l => !isTe && s.onCores l && decide (unit.val ∈ l.mcs)).foldl (fun (a : State × List Mark) l =>
        let h := a.1.haltLaunch l St.eHwFault; (h.1, a.2 ++ h.2)) (s, open')
      let w := if isTe then (s.te (unit.val % 64)).reqs.foldl (fun (a : State × List Mark) w =>
          match w.thread.bind fun t => a.1.launch? t.2 with
          | some l => let h := a.1.haltLaunch l St.eHwFault; (h.1, a.2 ++ h.2)
          | none => (a.1.closeItem w.hdr w.item (some St.eHwFault), a.2 ++ [{ ptn := w.ptn, queue := w.queue, seq := w.seq, item := w.item }])) a
        else a
      let s := if isTe then w.1.updTe (unit.val % 64) fun e => { e with reqs := [] } else w.1
      let m := s.suspectAll u
      let t := m.1.retire u
      ((t.1.faultWith (t.1.unitRec u 6 2 (if isTe then 0x0602 else 0x0601) 0 stamp) (w.2 ++ m.2 ++ t.2)).endWaiters u (some St.eHwFault)).reportAll)

/-! ## Sequencer pairs (R430) -/

/-- Every item of a partition's commands not yet closed. -/
def State.allOpen (s : State) (p : PtnId) : List Mark := (s.ptn p).flow.cmds.flatMap fun c => s.openMarks c.hdr

def execPsLockstepMismatch (p : PtnId) (stamp : W64) (within1s : Bool) (s : State) : Res State :=
  .next (
    if bitAt s.saf.psRetired.toNat p then s
    else
      let live := decide ((s.ptn p).st ≠ 0)
      let r : FRec := { cls := 2, severity := 2, unitKind := 3, die := BitVec.ofNat 8 (p.val / 8), unit := BitVec.ofNat 16 p.val, cause := 0x0201,
                        ptnMask := if live then ptnBit p else 0, stamp := stamp }
      let s := s.faultWith r (if s.saf.stewRestart then s.allOpen p else [])
      let s := if within1s then { s with saf := { s.saf with psRetired := s.saf.psRetired ||| ptnBit p } } else s
      if live then s.resetPtn p 0x11 else s)

/-! ## Descriptors, windows, links, scrub (R18, R263, R432, R434) -/

/-- The item of a fault, failed with E_HW_FAULT and reported after its record. -/
def State.failByFault (s : State) (p : PtnId) (q : QueueId) (item : Nat) (r : FRec) : State :=
  match s.running? p q with
  | none => s.recordFault r
  | some c =>
    let m : Mark := { ptn := p, queue := q, seq := c.hdr.seq, item := item }
    (s.closeItem c.hdr item (some St.eHwFault)).faultWith r [m]

def execDescCrcMismatch (p : PtnId) (q : QueueId) (item : W16) (isTe : Bool) (unit : McId) (stamp : W64) (s : State) : Res State :=
  let u := if isTe then unit.val % 64 else unit.val
  .next (s.failByFault p q item.toNat
    { cls := 2, severity := 1, unitKind := if isTe then 2 else 1, die := BitVec.ofNat 8 (if isTe then dieOfTe u else dieOfMc u), unit := BitVec.ofNat 16 u,
      cause := 0x0203, ptnMask := ptnBit p, stamp := stamp })

/-- The two checkers disagree: the access is not performed, and no violation is counted; the record names the partition's sequencer (DEDUCED, log entry 26). -/
def execWindowMismatch (p : PtnId) (q : QueueId) (item : W16) (stamp : W64) (s : State) : Res State :=
  .next (s.failByFault p q item.toNat
    { cls := 5, severity := 2, unitKind := 3, die := BitVec.ofNat 8 (p.val / 8), unit := BitVec.ofNat 16 p.val, cause := 0x0501, ptnMask := ptnBit p, stamp := stamp })

/-- Partitions that hold core groups or slices on both dies. -/
def State.spansDies (s : State) (p : PtnId) (a b : Nat) : Bool :=
  let on := fun d => (List.range 64).any fun i => bitAt (s.ptn p).slices.toNat (64 * d + i)
  on a && on b

/-- A die-to-die link goes down until a module reset: open items whose units lie on both dies fail (R18). -/
def execDieLinkDown (a b : DieId) (stamp : W64) (s : State) : Res State :=
  .next (
    let lo := min a.val b.val; let hi := max a.val b.val
    if a = b || bitAt s.dieLinks.toNat (4 * lo + hi) then s
    else
      let s := { s with dieLinks := s.dieLinks ||| BitVec.ofNat 16 (2 ^ (4 * lo + hi)) }
      let ps := ptnIds.filter fun p => (s.ptn p).st ≠ 0 && s.spansDies p lo hi
      let dieOf := fun u => if u < 256 then dieOfMc u else dieOfTe (u - 256)
      let ms := ps.flatMap fun p => (s.ptn p).flow.cmds.flatMap fun c =>
        ((List.range c.items.length).filter fun i => let it := c.items.getD i {}
          !it.closed && it.units.any (fun u => dieOf u = lo) && it.units.any (fun u => dieOf u = hi)).map fun i =>
            ({ ptn := p, queue := c.hdr.queue, seq := c.hdr.seq, item := i } : Mark)
      let s := ms.foldl (fun s m => s.closeItem m.hdr m.item (some St.eLinkDown)) s
      s.faultWith { cls := 4, severity := 2, unitKind := 7, die := BitVec.ofNat 8 a.val, unit := BitVec.ofNat 16 (4 * lo + hi), cause := 0x0401,
                    ptnMask := ps.foldl (fun m p => m ||| ptnBit p) 0, stamp := stamp } ms)

/-- Partitions that a device address belongs to. -/
def State.ownersOf (s : State) (d : Nat) : W32 :=
  (ptnIds.filter fun p =>
    if d < ergTop then bitAt (s.ptn p).slices.toNat (d / sliceBytes)
    else (s.ptn p).mem.wins.any fun e => e.2.valid && e.2.dev.toNat = (d - lpBase) / gib).foldl (fun m p => m ||| ptnBit p) 0

def isMem (d : Nat) : Bool := decide (d < ergTop) || (decide (lpBase ≤ d) && decide (d < lpTop))

/-- A scrub reads one word: a single-bit error is corrected and counted, an uncorrectable one is recorded and left (R263, R264). -/
def execPatrolScrub (addr : W64) (double single passDone : Bool) (stamp : W64) (s : State) : Res State :=
  .next (
    let d := addr.toNat / 8 * 8
    if !isMem d then s
    else
      let upd := fun (s : State) (f : Ecc → Ecc) => s.updMem fun m =>
        if d < ergTop then { m with erg := m.erg.upd {} (d / sliceBytes / 64) f } else { m with memc := m.memc.upd {} (Mem.channel d) f }
      let s := if passDone then upd s fun e => { e with passes := satInc e.passes } else s
      if double || decide (d ∈ s.mem.ue) then
        (s.updMem fun m => { m with ue := insNat d m.ue }).noteUe (s.ownersOf d) d (some stamp)
      else if single then upd s fun e => { e with ce := satInc e.ce } else s)

/-! ## The sticky log (R441, R442) -/

def execFaultLogRead (h : Hdr) (firstMen : W64) (count : W16) (s : State) : Res State :=
  .next (s.atOnce h 0xF02 fun s =>
    if count = 0 || count.toNat > 64 then (s, .error St.eParam)
    else
      let rs := (s.saf.log.filter fun r => decide (firstMen.toNat ≤ r.men.toNat)).take count.toNat
      (s, .ok ([doneItem], leBytes 4 s.saf.log.length ++ leBytes 4 s.saf.logLost.toNat ++ rs.flatMap FRec.bytes)))

def execFaultLogClear (h : Hdr) (upToMen : W64) (s : State) : Res State :=
  .next (s.atOnce h 0xF03 fun s =>
    ({ s with saf := { s.saf with log := s.saf.log.filter fun r => decide (upToMen.toNat < r.men.toNat) } }, .ok ([doneItem], [])))

end Sys2Proof.Machine
end

