-- ==== Sys2Proof/Machine/MemCmd.lean ====
section
/-! DEFINITION. Memory commands: loose slices, granules and windows, the shared region, and the slot wheel (R235 to R245, R254, R255, R510). -/

namespace Sys2Proof.Machine

/-- A command for a partition that is FREE fails with E_PARAM, for one that resets with E_BUSY (DEDUCED, log entry 22). -/
def State.live (s : State) (p : PtnId) : Option Status :=
  if (s.ptn p).st = 0 then some St.eParam else if (s.ptn p).st = 2 then some St.eBusy else none

/-! ## Loose slices (R235, R236, R239) -/

def execLooseGrant (h : Hdr) (slice : W16) (s : State) : Res State :=
  .next (s.atOnce h 0x201 fun s =>
    let n := slice.toNat
    let p := h.target
    match s.live p with
    | some c => (s, .error c)
    | none =>
      if n > 255 then (s, .error St.eParam)
      else if (s.cgOwner (n / 8)).isSome || (s.looseOwner n).isSome then (s, .error St.eSliceBusy)
      else
        let me : Option (PtnId × W64) := some (p, (s.ptn p).flow.createMen)
        let s := if s.mem.lastHolder.get none n = me then s else s.updMem (·.zeroSlice n)
        let s := s.updMem fun x => { x with lastHolder := x.lastHolder.put none n me }
        (s.updPMem p fun m => { m with loose := m.loose ||| BitVec.ofNat 256 (2 ^ n) }, .ok ([doneItem], [])))

/-- Fails where the slice holds a resident model or a contact buffer, or the Erg that stays cannot hold the areas in use (R239; DESIGN CHOICE, log entry 21). -/
def execLooseRelease (h : Hdr) (slice : W16) (s : State) : Res State :=
  .next (s.atOnce h 0x202 fun s =>
    let n := slice.toNat
    let x := s.ptn h.target
    match s.live h.target with
    | some c => (s, .error c)
    | none =>
      if n > 255 || !bitAt x.mem.loose.toNat n then (s, .error St.eParam)
      else if decide (n ∈ x.areaSlices) || decide (x.ergHeld - sliceBytes < x.ergUsed) then (s, .error St.eBusy)
      else ((s.updPMem h.target fun m => { m with loose := m.loose &&& ~~~BitVec.ofNat 256 (2 ^ n) }).updPtn h.target (·.trim 0), .ok ([doneItem], [])))

/-! ## Granules (R237 to R239, R510) -/

/-- Device granules that are not free: mapped by a partition, or set aside for the shared region. -/
def State.usedGranules (s : State) : List Nat :=
  (ptnIds.flatMap fun p => ((s.ptn p).mem.wins.filter fun e => e.2.valid && !e.2.shared).map fun e => e.2.dev.toNat) ++
  (List.range s.mod.gib.toNat).map (s.mod.base.toNat + ·)

/-- Maps device granules at consecutive windows. -/
def mapWins (ro shared : Bool) : Nat → List Nat → Tab Win → Tab Win
  | _, [], t => t
  | w, g :: r, t => mapWins ro shared (w + 1) r (t.put {} w { dev := BitVec.ofNat 11 g, valid := true, ro := ro, shared := shared })

def State.grantMem (s : State) (p : PtnId) (w : Nat) (gs : List Nat) (keep : Bool) : State :=
  let key : KeyTag := some (p.val, (s.ptn p).mem.keyLabel)
  let s := if keep then s else gs.foldl (fun s g => s.updMem (·.zeroGranule key g)) s
  s.updPMem p fun m => { m with wins := mapWins false false w gs m.wins }

def execMemGrant (h : Hdr) (w count : W16) (named keep : Bool) (granules : List W16) (s : State) : Res State :=
  .next (s.atOnce h 0x203 fun s =>
    let p := h.target
    let x := s.ptn p
    let n := count.toNat
    match s.live p with
    | some c => (s, .error c)
    | none =>
      if n = 0 || n > 1120 || w.toNat + n > 2048 || (keep && !named) ||
          (named && (granules.length ≠ n || granules.eraseDups.length ≠ n || granules.any fun g => g.toNat ≥ 1120)) then (s, .error St.eParam)
      else if (List.range n).any fun i => (x.mem.wins.get {} (w.toNat + i)).valid then (s, .error St.eWindowBusy)
      else
        let used := s.usedGranules
        if named && granules.any (fun g => decide (g.toNat ∈ used)) then (s, .error St.eGranuleBusy)
        else
          let gs := if named then granules.map (·.toNat) else ((List.range 1120).filter fun g => !decide (g ∈ used)).take n
          if gs.length < n then (s, .error St.eLpFull)
          else if !keep && x.mem.dataSlots = 0 then (s, .error St.eSlots)
          else (s.grantMem p w.toNat gs keep, .ok ([doneItem], [])))

/-- Every earlier access has completed, since a command of the model is one step. -/
def execMemRelease (h : Hdr) (w count : W16) (s : State) : Res State :=
  .next (s.atOnce h 0x204 fun s =>
    let x := s.ptn h.target
    let ws := (List.range count.toNat).map (w.toNat + ·)
    match s.live h.target with
    | some c => (s, .error c)
    | none =>
      if count = 0 || w.toNat + count.toNat > 2048 || ws.any fun k => !x.winPrivate k then (s, .error St.eParam)
      else
        let busy := x.areaGranules
        if ws.any fun k => decide (k ∈ busy) then (s, .error St.eBusy)
        else (s.updPMem h.target fun m => { m with wins := ws.foldl (fun t k => t.put {} k {}) m.wins }, .ok ([doneItem], [])))

/-! ## The shared region (R240 to R245) -/

def execSharedMap (h : Hdr) (w : W16) (s : State) : Res State :=
  .next (s.atOnce h 0x205 fun s =>
    let x := s.ptn h.target
    let n := s.mod.gib.toNat
    match s.live h.target with
    | some c => (s, .error c)
    | none =>
      if w.toNat + n > 2048 then (s, .error St.eParam)
      else if s.mod.state ≠ 2 then (s, .error St.eSharedState)
      else if (List.range n).any fun i => (x.mem.wins.get {} (w.toNat + i)).valid then (s, .error St.eWindowBusy)
      else
        let gs := (List.range n).map (s.mod.base.toNat + ·)
        ((s.updPMem h.target fun m => { m with wins := mapWins true true w.toNat gs m.wins }).reshare, .ok ([doneItem], [])))

def execSharedUnmap (h : Hdr) (s : State) : Res State :=
  .next (s.atOnce h 0x206 fun s =>
    match s.live h.target with
    | some c => (s, .error c)
    | none =>
      if s.mod.state ≠ 2 then (s, .error St.eSharedState)
      else if !(s.ptn h.target).sharedMapped then (s, .error St.eParam)
      else ((s.updPMem h.target fun m => { m with wins := m.wins.filter fun e => !e.2.shared }).reshare, .ok ([doneItem], [])))

def sharedKey (s : State) : KeyTag := some (32, s.mod.label)
def sharedStart (s : State) : Nat := lpBase + s.mod.base.toNat * gib

/-- Bytes beyond FILL read as zero: the first load finds the region zeroed under slot 32. -/
def State.zeroShared (s : State) : State :=
  (List.range s.mod.gib.toNat).foldl (fun s i => s.updMem (·.zeroGranule (sharedKey s) (s.mod.base.toNat + i))) s

/-- What refuses a load before any byte comes (R240, R241). -/
def State.loadRefused (s : State) (bytes : Nat) : Option Status :=
  if s.mod.state = 2 then some St.eSharedState
  else if s.mod.fill.toNat + bytes > s.mod.gib.toNat * gib then some St.eLpFull
  else none

/-- The row of a load that is not refused comes when the bytes have arrived; they are `data`. Whole sectors are written (R262); one that would cross a die-to-die link that is down fails its item (R18). -/
def execSharedLoad (h : Hdr) (ep : Endpoint) (bytes : W64) (data : List Byte) (s : State) : Res State :=
  if (s.loadRefused bytes.toNat).isNone && s.portsTo ep.node 0 ≠ [] && data.length ≠ bytes.toNat then .next s
  else
  .next (s.atOnce h 0x207 fun s =>
    let fill := s.mod.fill.toNat
    match s.loadRefused bytes.toNat with
    | some c => (s, .error c)
    | none =>
    if s.portsTo ep.node 0 = [] then (s, .ok ([failedItem St.eParam], []))
    else
      let s := if s.mod.state = 0 then s.zeroShared else s
      if s.dieLinks ≠ 0 && (homeDies (sharedStart s + fill) bytes.toNat).any fun v => s.linkDown (Who.firmware.die 0) v then (s, .ok ([failedItem St.eLinkDown], []))
      else
      let s := s.updMem fun m => (m.ueClear (sharedStart s + fill) bytes.toNat).writeN (sharedKey s) (sharedStart s + fill) data
      ({ s with mod := { s.mod with state := 1, fill := BitVec.ofNat 64 (fill + bytes.toNat) } }, .ok ([doneItem], [])))

/-- The measurement: SHA-256 over FILL and D (R241). -/
def State.measure (s : State) : List Byte :=
  let d := sha256 (s.mem.readN (sharedKey s) (sharedStart s) s.mod.fill.toNat)
  sha256 (leBytes 8 s.mod.fill.toNat ++ d)

def execSharedSeal (h : Hdr) (s : State) : Res State :=
  .next (s.atOnce h 0x208 fun s =>
    if s.mod.state ≠ 1 then (s, .error St.eSharedState)
    else
      let m := s.measure
      ({ s with mod := { s.mod with state := 2, hash := m } }, .ok ([doneItem], m)))

def execSharedClear (h : Hdr) (s : State) : Res State :=
  .next (s.atOnce h 0x209 fun s =>
    if s.mod.state = 0 then (s, .error St.eSharedState)
    else if !s.mappers.isEmpty then (s, .error St.eBusy)
    else
      let s := s.zeroShared
      ({ s with mod := { s.mod with state := 0, fill := 0, hash := [] } }, .ok ([doneItem], [])))

/-- A wheel boundary: new divisions of the SHARED slots take effect (R255). -/
def execSlotWheelBoundary (s : State) : Res State :=
  .next (ptnIds.foldl (fun s p => s.updPMem p fun m =>
    match m.sharePending with | some n => { m with sharedShare := n, sharePending := none } | none => m) s)

end Sys2Proof.Machine
end

