-- ==== Sys2Proof/Machine/Fabric.lean ====
section
/-! DEFINITION. Ports that go down, train and come up, and what becomes of what they carried (R20, R312, R339 to R341, R352, R353, R368, R384, R480, R487). -/

namespace Sys2Proof.Machine

/-! ## Groups that lose a round (R384) -/

/-- Ends a round at this member without an update: its item fails, its set keeps its version (R383, R384). -/
def State.dropRound (s : State) (p : PtnId) (r : Round) (code : Status) : State :=
  let s := match r.work with
    | .update m k _ _ _ => s.updPtn p fun x => x.updSet m k fun w => { w with writing := false }
    | .reduce _ _ _ _ => s
  ((s.closeItem r.hdr r.item (some code)).settle r.hdr).pumpTrain p

/-- A group enters RESTORING: ABORT to each other member that can be reached; open items fail with E_INCOMPLETE, waiting ones with E_BUSY (R373, R384). In RESTORING it drops the epoch it had been forming (R414). -/
def State.abortGroup (s : State) (p : PtnId) (g : Group) : State :=
  if g.st = .restoring then s.updGroup p g.block.group fun y => { y with newEpoch := false, joined := [] }
  else
    let s := (s.toMembers p g 0x16 1 (groupHead g g.opened)).updGroup p g.block.group Group.restore
    let s := g.rounds.foldl (fun s r => s.dropRound p r St.eIncomplete) s
    g.waiting.foldl (fun s w => (s.closeItem w.1 w.2 (some St.eBusy)).settle w.1) s

/-! ## Qorea ports -/

/-- The next port that is UP and reaches a node, in ascending number after `n`. -/
def State.nextPort (s : State) (n : QpId) (node : BitVec 13) : Option QpId :=
  let ps := s.portsTo node 0
  match ps.find? fun m => decide (n < m) with
  | some m => some m
  | none => ps.head?

/-- No port reaches a packet's destination: its transfer's item fails with E_HW_FAULT, and the groups with a member there restore (R368). -/
def State.unreachable (s : State) (k : QPkt) : State :=
  let p := k.srcPtn
  let s := match s.xfers.find? fun x => x.id = k.xfer && x.ptn = p && decide (k.kind.toNat < 0x10) with
    | some x => (({ s with xfers := s.xfers.filter fun y => y.id ≠ x.id } : State).closeItem x.hdr 0 (some St.eHwFault)).settle x.hdr
    | none => s
  let fx := (s.ptn p).fix
  let lost := fx.copies.filter fun c => c.dest.node = k.dstNode && decide (0x20 ≤ k.kind.toNat)
  let s := s.updPtn p fun x => { x with fix := { x.fix with copies := x.fix.copies.filter fun c => !decide (c ∈ lost) } }
  let s := lost.foldl (fun s c => (s.closeItem c.hdr c.item (some St.eHwFault)).settle c.hdr) s
  let s := match fx.ship with
    | some c => if c.dest.node = k.dstNode && decide (0x20 ≤ k.kind.toNat) then
        ((s.updPtn p fun x => { x with fix := { x.fix with ship := none } }).closeItem c.hdr c.item (some St.eHwFault)).settle c.hdr else s
    | none => s
  let s := match fx.restore with
    | some r => if r.source.node = k.dstNode && decide (0x20 ≤ k.kind.toNat) then
        ((s.updPtn p fun x => { x with fix := { x.fix with restore := none } }).closeItem r.hdr 0 (some St.eHwFault)).settle r.hdr else s
    | none => s
  ptnIds.foldl (fun s p => ((s.ptn p).groups.filter fun g => g.block.members.any (·.1 = k.dstNode)).foldl (fun s g => s.abortGroup p g) s) s

/-- Sends packets again on the next port that reaches their destination; they keep OFFSET and PKT_NUM (R368). -/
def State.resend (s : State) (n : QpId) : List QPkt → State
  | [] => s
  | k :: r => State.resend (match s.nextPort n k.dstNode with | some m => s.giveQp m [k] | none => s.unreachable k) n r

/-- Acknowledgements not yet delivered go out on the next port that reaches their destination (R368). -/
def State.ackAgain (s : State) (n : QpId) (hs : List QHdr) : State :=
  hs.foldl (fun s h => match s.nextPort n h.srcNode with | some m => s.ackPkt m h | none => s) s

/-- Link state of a port that trains anew (R353, R480, R484). -/
def QPort.retrain (x : QPort) (st : BitVec 2) (cause : BitVec 4) : QPort :=
  { x with st := st, half := false, laneSet := false, downCause := cause, peer := 0x1FFF, attempts := 0, atStep4 := false, fseqTx := 0, fseqRx := 0,
           discarding := false, nakFseq := 0, nakRun := 0, nakSent := 0, acked := 0xFFF, flight := [], queue := [], acks := [] }

/-- A port goes down: the event is recorded, and what the port had not got acknowledged goes out on other ports (R352, R368; the mask is DEDUCED, log entry 46). -/
def State.qpDown (s : State) (n : QpId) (cause : BitVec 4) (when' : Option W64) : State :=
  let x := s.qp n
  let ks := x.flight ++ x.queue
  let s := s.updQp n (·.retrain 0 cause)
  if x.st ≠ 2 then s
  else
    let s := s.updQp n fun x => { x with downCount := satInc x.downCount }
    let lost := ks.filter fun k => (s.nextPort n k.dstNode).isNone
    let mask := lost.foldl (fun (m : W32) k => m ||| ptnBit k.srcPtn) 0
    let c := match when' with | some t => (s, t) | none => s.now
    let s := c.1.recordFault {
      cls := 4, severity := 1, unitKind := 8, die := BitVec.ofNat 8 (n.val / 12), unit := BitVec.ofNat 16 n.val,
      cause := 0x0403, ptnMask := mask, stamp := c.2 }
    (s.resend n ks).ackAgain n (x.acks.map (·.2))

/-- A link reset of a port: it trains again, and its packets go out on other ports (R368, R480, R481). -/
def State.qpLinkReset (s : State) (n : QpId) (cause : Byte) : State :=
  let x := s.qp n
  let ks := x.flight ++ x.queue
  let s := s.updQp n fun x => { (x.retrain (if x.enable then 1 else 0) (if x.enable then 0 else 4)) with rstCause := cause, rstCount := satInc x.rstCount }
  (s.resend n ks).ackAgain n (x.acks.map (·.2))

/-! ## Uapra ports -/

/-- Inserts a message by its ORDER; messages of one channel stay in ascending order. -/
def insMsg (m : Msg) : List Msg → List Msg
  | [] => [m]
  | a :: r => if a.order.toNat ≤ m.order.toNat then a :: insMsg m r else m :: a :: r

def sortMsgs (ms : List Msg) : List Msg := ms.foldl (fun a m => insMsg m a) []

def Msg.again (m : Msg) : Msg := { m with resent := true }

/-- Link state of a port that is down or trains. -/
def UPort.fresh (u : UPort) (st : BitVec 2) : UPort := { u with st := st, credits := 0, attempts := 0, unacked := [], unsent := [] }

def otherUp (u : UpId) : UpId := if u = 0 then 1 else 0

/-- What a port had sent without an acknowledgement goes out again on the other port, ahead of messages not yet sent; with both ports down it is held (R340, R341). -/
def State.upMove (s : State) (u : UpId) (old : UPort) : State :=
  let again := (sortMsgs old.unacked).map Msg.again
  let o := otherUp u
  if (s.up o).isUp then
    s.updUp o fun x => ({ x with unsent := again ++ sortMsgs (x.unsent ++ old.unsent), resentMsgs := satInc x.resentMsgs again.length } : UPort).drain
  else { s with held := s.held ++ (again ++ old.unsent).map fun m => { ports := if u = 0 then 1 else 2, msg := m } }

/-- The steward declares a port down (R20, R312). -/
def State.upDown (s : State) (u : UpId) : State :=
  let old := s.up u
  let s := (s.updUp u (·.fresh 0)).upMove u old
  let c := s.now
  c.1.recordFault { cls := 4, severity := 2, unitKind := 9, die := if u = 0 then 0 else 3, unit := BitVec.ofNat 16 u.val, cause := 0x0402, stamp := c.2 }

/-- A link reset of a port (R480, R481, R487). -/
def State.upLinkReset (s : State) (u : UpId) (cause : Byte) : State :=
  let old := s.up u
  let s := s.updUp u fun x => { (x.fresh 1) with rstCause := cause, rstCount := satInc x.rstCount }
  s.upMove u old

/-- A port comes up: link credits of 64 frames are exchanged, and the held messages go out ahead of new ones (R312, R341, R487). -/
def State.upUp (s : State) (u : UpId) : State :=
  let ms := sortMsgs (s.held.map (·.msg))
  let n := (ms.filter (·.resent)).length
  { s.updUp u fun x => ({ x with st := 2, credits := 64, attempts := 0, unsent := ms ++ x.unsent, resentMsgs := satInc x.resentMsgs n } : UPort).drain with held := [] }

end Sys2Proof.Machine
end

