-- ==== Sys2Proof/Machine/Registers.lean ====
section
/-! DEFINITION. The register map: blocks, what each register reads as, and what a write of it does (R5 to R8, R229, R329, and the register tables of every chapter). -/

namespace Sys2Proof.Machine

/-! ## Blocks (R229) -/

inductive Blk where
  | mod | clk | pwr | sec | saf | fix
  | ptn (p : PtnId)
  | mc (n : Nat)
  | te (n : Nat)
  | erg (n : Nat)
  | memc (n : Nat)
  | qlnk (n : QpId)
  | uap (n : UpId)
deriving DecidableEq, Repr

/-- The instance of a block and the offset in it. -/
def blkIn (a base stride n : Nat) : Option (Nat × Nat) :=
  if base ≤ a ∧ a < base + stride * n then some ((a - base) / stride, (a - base) % stride) else none

/-- Block and offset of a device address. -/
def regBlock (a : Nat) : Option (Blk × Nat) :=
  match blkIn a 0xF0000000000 0x10000 6 with
  | some (i, o) => some ((match i with | 0 => .mod | 1 => .clk | 2 => .pwr | 3 => .sec | 4 => .saf | _ => .fix), o)
  | none =>
  match blkIn a 0xF0000100000 0x10000 32 with
  | some (i, o) => some (.ptn (Fin.ofNat 32 i), o)
  | none =>
  match blkIn a 0xF0001000000 0x1000 256 with
  | some (i, o) => some (.mc i, o)
  | none =>
  match blkIn a 0xF0002000000 0x1000 64 with
  | some (i, o) => some (.te i, o)
  | none =>
  match blkIn a 0xF0003000000 0x10000 4 with
  | some (i, o) => some (.erg i, o)
  | none =>
  match blkIn a 0xF0004000000 0x1000 128 with
  | some (i, o) => some (.memc i, o)
  | none =>
  match blkIn a 0xF0005000000 0x1000 48 with
  | some (i, o) => some (.qlnk (Fin.ofNat 48 i), o)
  | none => (blkIn a 0xF0006000000 0x1000 2).map fun e => (.uap (Fin.ofNat 2 e.1), e.2)

/-- A register word from its fields: lowest bit and value. -/
def word (fs : List (Nat × Nat)) : W64 := BitVec.ofNat 64 (fs.foldl (fun a f => a + f.2 <<< f.1) 0)

/-- Register i of an array of n registers from offset o, and none outside it. -/
def regIdx (off o n : Nat) : Option Nat := if o ≤ off ∧ off < o + 8 * n then some ((off - o) / 8) else none

/-- 64 bits of a wide value. -/
def slice64 (v i : Nat) : W64 := BitVec.ofNat 64 (bits v (64 * i) 64)

/-- 8 bytes of a digest, digest byte 8i + b in bits [8b + 7:8b]. -/
def digest64 (bs : List Byte) (i : Nat) : W64 := BitVec.ofNat 64 (leNat ((bs.drop (8 * i)).take 8))

/-! ## Reads -/

def Strip.word (x : Strip) : W64 := Machine.word [(0, x.strips.toNat), (32, x.fails.toNat), (48, x.rotation.toNat), (51, b2n x.retired)]
def Ecc.word (x : Ecc) : W64 := Machine.word [(0, x.ce.toNat), (24, x.ue.toNat), (40, x.passes.toNat)]

def ModR.read (m : ModR) (mappers off : Nat) : W64 :=
  match off with
  | 0x400 => word [(0, m.base.toNat), (11, m.gib.toNat), (22, m.state.toNat), (24, m.sharedSlots.toNat), (32, b2n m.lendEn), (33, mappers)]
  | 0x408 => m.label
  | 0x410 => m.fill
  | 0x418 => digest64 m.hash 0
  | 0x420 => digest64 m.hash 1
  | 0x428 => digest64 m.hash 2
  | 0x430 => digest64 m.hash 3
  | 0x500 => word [(0, m.node.toNat)]
  | 0x600 => word [(0, m.rstCause.toNat), (8, m.rstKind.toNat), (16, m.warmCount.toNat)]
  | _ => 0

def Clk.read (c : Clk) (off : Nat) : W64 :=
  if off = 0 then word [(0, b2n c.refOk), (1, b2n c.pllLock), (16, c.refLosses.toNat), (32, c.unlocks.toNat)] else 0

def Pwr.modWord (p : Pwr) : W64 :=
  word [(0, p.st.toNat), (4, p.duty.toNat), (9, b2n p.thrTemp), (10, b2n p.thrPower), (12, p.lastWake.toNat), (16, p.wakePort.toNat)]

/-- PWR_CG_STATE: a held core group is in L1 by its partition's record, and in L2 with the module (R469, R478). -/
def State.cgStates (s : State) : W64 :=
  (List.range 32).foldl (fun (w : W64) k =>
    match s.cgOwner k with
    | some p => BitVec.ofNat 64 (putBits w.toNat (2 * k) 2 (if s.pwr.st = 2 then 2 else if bitAt (s.ptn p).l1.toNat k then 1 else w.toNat >>> (2 * k)))
    | none => w) s.pwr.cg

def Pwr.read (p : Pwr) (cgs : W64) (off : Nat) : W64 :=
  match off with
  | 0x00 => cgs
  | 0x08 => p.modWord
  | 0x10 => word [(0, p.limitW.toNat), (16, b2n p.wakeNEn), (17, p.uapWake.toNat)]
  | 0x18 => word [(0, p.wakeQp.toNat)]
  | _ => 0

def Sec.read (c : Sec) (off : Nat) : W64 :=
  match off with
  | 0x00 => word [(0, b2n c.slot), (1, b2n c.fallback), (8, c.bootErr.toNat), (32, c.fwVersion.toNat)]
  | 0x08 => word [(0, c.cfgVersion.toNat)]
  | 0x10 => digest64 c.ueid 0
  | 0x18 => digest64 c.ueid 1
  | _ =>
    match regIdx off 0x20 4 with
    | some i => digest64 c.fwDigest i
    | none => match regIdx off 0x40 4 with | some i => digest64 c.cfgDigest i | none => 0

def State.safStatus (s : State) : W64 :=
  word [(0, b2n s.saf.faultPend), (1, b2n s.saf.alertPend), (16, s.saf.log.length), (32, s.saf.logLost.toNat), (48, ((List.range 256).filter s.mcRetired).length)]

/-- The unlock in force; the seconds left are free up to its DURATION_S, since no row counts them (DESIGN CHOICE, log entry 7). -/
def State.safDebug (s : State) : W64 :=
  match s.sec.unlock with
  | some u => word [(0, u.mask.toNat), (32, u.scope.toNat), (37, 1), (47, Config.free s.fresh 86400 % (u.remainS.toNat + 1))]
  | none => 0

def State.readSaf (s : State) (off : Nat) : W64 :=
  match off with
  | 0x00 => s.safStatus
  | 0x08 => s.saf.nextMen
  | 0x120 => word ((List.range 64).map fun n => (n, b2n (s.teRetired n)))
  | 0x200 => s.safDebug
  | _ => match regIdx off 0x100 4 with
    | some i => word ((List.range 64).map fun b => (b, b2n (s.mcRetired (64 * i + b))))
    | none => 0

def Partner.word (r : Partner) : W64 :=
  Machine.word [(0, r.node.toNat), (13, r.ptn.toNat), (18, r.feed.toNat), (22, b2n r.valid), (23, b2n r.nonIndep), (24, b2n r.override)]

def State.readFix (s : State) (off : Nat) : W64 :=
  if off = 0 then word [(0, s.pins.feedId.toNat)]
  else
    let f := fun (i : Nat) => (s.ptn (Fin.ofNat 32 i)).fix
    match regIdx off 0x100 32 with
    | some i => word [(0, (f i).ports.toNat)]
    | none =>
    match regIdx off 0x200 32 with
    | some i => word [(0, (f i).nextCkpt.toNat), (32, (f i).lastDurable.toNat)]
    | none => match regIdx off 0x300 32 with | some i => (f i).partner.word | none => 0

/-- Slots and credits that a queue's commands hold (R320). -/
def heldSlots (cs : List CmdRec) (q : QueueId) : Nat := (cs.filter fun c => c.slot && c.hdr.queue = q).length
def heldCredits (cs : List CmdRec) (q : QueueId) : Nat := ((cs.filter fun c => c.slot && c.hdr.queue = q).map (·.credits)).sum

def Ptn.creditWord (x : Ptn) (q : QueueId) : W64 :=
  let l := (x.job q).lastSeq
  word [(0, 64 - heldSlots x.flow.cmds q), (16, 512 - heldCredits x.flow.cmds q), (31, b2n l.isSome), (32, (l.getD 0).toNat)]

def Viol.word (v : Viol) : W64 :=
  Machine.word [(0, v.kind.toNat), (4, v.source.toNat), (8, v.unit.toNat), (16, b2n v.write), (24, b2n v.valid), (32, v.count.toNat)]

def Sem.word (m : Sem) : W64 := Machine.word [(0, m.count.toNat), (32, m.holdMask), (40, m.waitMask), (48, b2n m.ovf)]
def Win.word (w : Win) : W64 := Machine.word [(0, w.dev.toNat), (11, b2n w.valid), (12, b2n w.ro), (13, b2n w.shared)]

def Group.word (g : Group) : W64 :=
  Machine.word [(0, g.block.group.toNat), (32, match g.st with | .forming => 1 | .active => 2 | .restoring => 3), (34, g.block.self.toNat % 4096), (46, g.block.members.length)]

def NumMode.word (m : NumMode) : W64 := Machine.word [(0, b2n m.sat), (1, m.rnd.toNat), (8, m.smode.toNat), (16, m.given.toNat)]

def Serve.cfgWord (v : Serve) : W64 :=
  word [(0, v.maxStreams.toNat), (16, v.chunkMax.toNat), (32, v.slackUs.toNat), (48, v.depthInit.toNat), (52, v.depthMax.toNat)]

def Ptn.qCfgWord (x : Ptn) (q : QueueId) : W64 :=
  let c := (x.job q).cfg.getD ((x.job q).share, (x.job q).footprint)
  word [(0, c.1.toNat), (16, c.2.toNat), (24, b2n (bitAt x.qEnable.toNat q))]

def PMem.slotsWord (m : PMem) : W64 :=
  word [(0, m.dataSlots.toNat), (8, m.fixSlots.toNat), (16, m.sharedShare.toNat), (24, b2n m.lend), (25, b2n m.borrow)]

/-- The unlock in force names this partition as it was created (R462, R463). -/
def State.slOpen (s : State) (p : PtnId) : Bool :=
  match s.sec.unlock with
  | some u => (s.ptn p).st ≠ 0 && u.ptns.any fun e => e.1 = p.val && e.2 = (s.ptn p).flow.createMen
  | none => false

def State.secWord (s : State) (p : PtnId) : W64 :=
  let x := s.ptn p
  word ([(0, b2n (s.slOpen p)), (1, b2n x.flow.slSeen)] ++ (List.range 16).map fun k => (16 + k, b2n (x.tkeys.get {} k).key.isSome))

/-- Registers of the PTN_ block that stand alone. -/
def State.readPtn1 (s : State) (p : PtnId) (off : Nat) : W64 :=
  let x := s.ptn p
  match off with
  | 0x000 => word [(0, x.st.toNat), (8, x.cgCount)]
  | 0x008 => word [(0, x.cgs.toNat)]
  | 0x100 => word [(0, x.sliceUs.toNat)]
  | 0x200 => word [(0, x.mem.viol.addr.toNat)]
  | 0x208 => x.mem.viol.word
  | 0x210 => x.mem.slotsWord
  | 0x218 => word [(0, popcount x.slices.toNat 256), (9, x.privateGranules.length), (20, b2n x.sharedMapped)]
  | 0x220 => x.mem.keyLabel
  | 0x300 => NumMode.word x.numMode
  | 0x308 => x.srSeed
  | 0x310 => word [(0, x.train.stashMib.toNat), (32, x.train.spillGib.toNat), (48, b2n x.train.stashQ6)]
  | 0x318 => word [(30, x.train.spillBase.toNat)]
  | 0x320 => word [(0, x.train.spills.toNat), (32, x.train.mbs.length), (48, x.train.peakSpill.toNat)]
  | 0x328 => x.serve.cfgWord
  | 0x330 => word [(0, (x.models.map (·.pagesFree)).sum), (32, x.serve.streams.length), (48, x.serve.fallbacks.toNat)]
  | 0x440 => x.flow.esn
  | 0x448 => word [(0, x.flow.eventPort.toNat)]
  | 0x460 => word [(0, x.flow.suspectItems.toNat), (32, x.flow.faultEvents.toNat)]
  | 0x468 => x.flow.lastMen
  | 0x470 => x.flow.createMen
  | 0x478 => s.secWord p
  | 0x480 => word [(0, x.flow.rstCause.toNat), (16, x.flow.rstCount.toNat)]
  | _ => 0

/-- Registers of the PTN_ block that form arrays. -/
def State.readPtn (s : State) (p : PtnId) (off : Nat) : W64 :=
  let x := s.ptn p
  match regIdx off 0x108 8 with
  | some i => x.qCfgWord (Fin.ofNat 8 i)
  | none =>
  match regIdx off 0x148 8 with
  | some i => (x.job (Fin.ofNat 8 i)).charge
  | none =>
  match regIdx off 0x188 8 with
  | some i => let j := x.job (Fin.ofNat 8 i); word [(0, j.preempts.toNat), (32, j.overruns.toNat), (48, j.holderRuns.toNat)]
  | none =>
  match regIdx off 0x400 8 with
  | some i => x.creditWord (Fin.ofNat 8 i)
  | none =>
  match regIdx off 0x500 16 with
  | some i => (x.groups[i]?.map Group.word).getD 0
  | none =>
  match regIdx off 0x580 16 with
  | some i => (x.groups[i]?.map (·.epoch)).getD 0
  | none =>
  match regIdx off 0x600 16 with
  | some i => (x.groups[i]?.map fun g => word [(0, g.nRounds.toNat), (32, g.stale.toNat), (48, g.aborts.toNat)]).getD 0
  | none =>
  match regIdx off 0x1000 4 with
  | some i => slice64 x.slices.toNat i
  | none =>
  match regIdx off 0x1020 4 with
  | some i => slice64 x.mem.loose.toNat i
  | none =>
  match regIdx off 0x2000 256 with
  | some i => (x.sems.get {} i).word
  | none =>
  match regIdx off 0x4000 2048 with
  | some i => (x.mem.wins.get {} i).word
  | none => s.readPtn1 p off

def QPort.read (x : QPort) (off : Nat) : W64 :=
  match off with
  | 0x00 => word [(0, x.st.toNat), (2, b2n x.half), (3, b2n x.laneSet), (4, x.downCause.toNat), (8, x.peer.toNat), (32, x.retryEvents.toNat), (48, x.downCount.toNat)]
  | 0x08 => word [(0, x.fecCe.toNat), (32, x.fecUe.toNat), (48, x.dropped.toNat)]
  | 0x10 => word [(0, b2n x.enable), (1, b2n x.degradeEn)]
  | 0x18 => word [(8, x.rstCause.toNat), (16, x.rstCount.toNat)]
  | _ =>
    match regIdx off 0x100 32 with
    | some i => let r := x.res.get {} i
                word [(0, r.weight.toNat), (8, r.fixCr.toNat), (16, r.bulkCr.toNat), (24, r.gradCr.toNat), (32, r.paramCr.toNat), (40, b2n r.fixPrio)]
    | none => match regIdx off 0x800 128 with | some i => slice64 x.routes.toNat i | none => 0

def UPort.read (u : UPort) (off : Nat) : W64 :=
  match off with
  | 0x00 => word [(0, u.st.toNat), (16, u.retries.toNat), (32, u.rejects.toNat), (48, u.resentMsgs.toNat)]
  | 0x08 => word [(8, u.rstCause.toNat), (16, u.rstCount.toNat)]
  | _ => 0

/-- What a register of a block reads as; an offset without a register reads as zero. -/
def State.readBlk (s : State) (b : Blk) (off : Nat) : W64 :=
  match b with
  | .mod => s.mod.read s.mappers.length off
  | .clk => s.clk.read off
  | .pwr => s.pwr.read s.cgStates off
  | .sec => s.sec.read off
  | .saf => s.readSaf off
  | .fix => s.readFix off
  | .ptn p => s.readPtn p off
  | .mc n => if off = 0 then (s.mc n).strip.word else 0
  | .te n => if off = 0 then (s.te n).strip.word else 0
  | .erg n => if off = 0 then (s.mem.erg.get {} n).word else 0
  | .memc n => if off = 0 then (s.mem.memc.get {} n).word else 0
  | .qlnk n => (s.qp n).read off
  | .uap n => (s.up n).read off

/-- The value of a register by its device address; zero outside the blocks. -/
def State.peek (s : State) (a : Nat) : W64 := match regBlock a with | some (b, o) => s.readBlk b o | none => 0

/-! ## Who may reach what (R329) -/

/-- The first condition of R329 that an access breaks. -/
def State.regBad (s : State) (h : Hdr) (a : Nat) (write : Bool) : Option Status :=
  match regBlock a with
  | none => some St.eAccess
  | some (b, _) =>
    let ok := h.steward || (match b with
      | .ptn p => p = h.ptn
      | .sec => !write
      | .mc n => !write && bitAt (s.ptn h.ptn).cgs.toNat (n / 8)
      | .te n => !write && bitAt (s.ptn h.ptn).cgs.toNat (n / 2)
      | _ => false)
    if !ok then some St.eAccess else if a % 8 ≠ 0 then some St.eAlign else none

/-! ## Writes: each answers the state and the status of its item -/

abbrev Wr := State × Option Status

def State.putNumMode (s : State) (p : PtnId) (expert : Bool) (v : Nat) : Wr :=
  let m := (s.ptn p).numMode
  let r := bits v 1 2
  let denied := r = 1 && !expert && m.rnd ≠ 1
  let m' : NumMode :=
    { sat := bitAt v 0, rnd := if r ≥ 2 || denied then m.rnd else BitVec.ofNat 2 r,
      smode := if bits v 8 2 = 3 then m.smode else BitVec.ofNat 2 (bits v 8 2), given := BitVec.ofNat 8 (bits v 16 8) }
  (s.updPtn p fun x => { x with numMode := m' }, if denied then some St.eAccess else none)

/-- Sets a training configuration, if nothing is pending and the space is held and free (R177). -/
def State.putTrainer (s : State) (p : PtnId) (t : Trainer) : Wr :=
  let x := s.ptn p
  let x' := { x with train := t }
  if !x.train.mbs.isEmpty then (s, some St.eBusy)
  else if !x'.ergFits 0 || !x'.spillFits then (s, some St.eErgFull)
  else (s.updPtn p fun y => ({ y with train := t } : Ptn).trim 0, none)

def State.putStashCfg (s : State) (p : PtnId) (v : Nat) : Wr :=
  let t := (s.ptn p).train
  if bits v 0 16 > 16384 && t.mbs.isEmpty then (s, some St.eErgFull)
  else s.putTrainer p { t with stashMib := BitVec.ofNat 16 (bits v 0 16), spillGib := BitVec.ofNat 11 (bits v 32 11), stashQ6 := bitAt v 48 }

def State.putSpillBase (s : State) (p : PtnId) (v : Nat) : Wr :=
  s.putTrainer p { (s.ptn p).train with spillBase := BitVec.ofNat 18 (bits v 30 18) }

def State.putQCfg (s : State) (p : PtnId) (q : QueueId) (v : Nat) : Wr :=
  let x := s.ptn p
  let on := bitAt v 24
  let bit : Byte := BitVec.ofNat 8 (2 ^ q.val)
  let x' := { x with qEnable := if on then x.qEnable ||| bit else x.qEnable &&& ~~~bit }
  if !on && bitAt x.qEnable.toNat q && x.flow.cmds.any (fun c => c.hdr.queue = q && !c.immediate) then (s, some St.eBusy)
  else if on && !bitAt x.qEnable.toNat q && !x'.ergFits 0 then (s, some St.eErgFull)
  else (s.updPtn p fun y => (({ y with qEnable := x'.qEnable } : Ptn).trim 0).updJob q fun j =>
    { j with cfg := some (BitVec.ofNat 16 (bits v 0 16), BitVec.ofNat 6 (bits v 16 6)) }, none)

def State.putSchedCfg (s : State) (p : PtnId) (v : Nat) : Wr :=
  if bits v 0 16 < 100 then (s, some St.eParam) else (s.updPtn p fun x => { x with sliceUs := BitVec.ofNat 16 (bits v 0 16) }, none)

def State.putServeCfg (s : State) (p : PtnId) (v : Nat) : Wr :=
  let c := (s.ptn p).serve
  let ms := bits v 0 13; let ch := bits v 16 6
  let dm := min (bits v 52 4) 8
  let di := bits v 48 4
  let badMs := ms > 4096; let badCh := ch = 0 || ch > 32; let badDi := di > dm
  (s.updPtn p fun x => { x with serve := { x.serve with
      maxStreams := if badMs then c.maxStreams else BitVec.ofNat 13 ms
      chunkMax := if badCh then c.chunkMax else BitVec.ofNat 6 ch
      slackUs := BitVec.ofNat 12 (bits v 32 12)
      depthInit := if badDi then c.depthInit else BitVec.ofNat 4 di
      depthMax := BitVec.ofNat 4 dm } },
    if badMs || badCh || badDi then some St.eParam else none)

def State.putReplyCfg (s : State) (p : PtnId) (v : Nat) : Wr :=
  if bits v 0 2 = 3 then (s, some St.eParam) else (s.updFlow p fun f => { f with eventPort := BitVec.ofNat 2 (bits v 0 2) }, none)

def State.putMemSlots (s : State) (p : PtnId) (expert : Bool) (v : Nat) : Wr :=
  let m := (s.ptn p).mem
  let mask := 0x300FFFF
  if !expert then (s, if v &&& mask = m.slotsWord.toNat &&& mask then none else some St.eAccess)
  else if bits v 0 8 + s.slotSum (some p) > 224 || bits v 8 8 > bits v 0 8 then (s, some St.eSlots)
  else (s.updPMem p fun m => { m with dataSlots := BitVec.ofNat 8 (bits v 0 8), fixSlots := BitVec.ofNat 8 (bits v 8 8), lend := bitAt v 24, borrow := bitAt v 25 }, none)

/-- A write that carries the COUNT that stands is no write to COUNT (R306, R329).
DEDUCED, log entry 45. With `anew` a post sets OVF in the cycle of the write (R8). -/
def State.putSem (s : State) (p : PtnId) (n : SemId) (expert : Bool) (v : Nat) (anew : Bool) : Wr :=
  let m := s.sem p n
  let same := bits v 0 32 = m.count.toNat
  let clear := fun (m : Sem) => { m with ovf := (m.ovf && !bitAt v 48) || anew }
  if same then (s.updSem p n clear, none)
  else if !expert then (s.updSem p n clear, some St.eAccess)
  else if !m.waiters.isEmpty then (s.updSem p n fun m => { m with ovf := m.ovf || anew }, some St.eBusy)
  else (s.updSem p n fun m => { clear m with count := BitVec.ofNat 32 (bits v 0 32) }, none)

/-- With `anew` a capture sets VALID in the cycle of the write (R8, R277). -/
def State.putViolInfo (s : State) (p : PtnId) (v : Nat) (anew : Bool) : Wr :=
  (s.updPMem p fun m => { m with viol := { m.viol with valid := (m.viol.valid && !bitAt v 24) || anew } }, none)

def State.putMemCfg (s : State) (expert : Bool) (v : Nat) : Wr :=
  let m := s.mod
  let base := bits v 0 11; let n := bits v 11 11; let slots := bits v 24 8
  let moved := base ≠ m.base.toNat || n ≠ m.gib.toNat
  let denied := !expert && bitAt v 32 ≠ m.lendEn
  let held := ptnIds.flatMap fun p => ((s.ptn p).mem.wins.filter fun e => e.2.valid && !e.2.shared).map fun e => e.2.dev.toNat
  if moved && (m.state ≠ 0 || held.any fun g => decide (base ≤ g) && decide (g < base + n)) then (s, some St.eBusy)
  else if moved && base + n > 1120 then (s, some St.eParam)
  else if slots + (s.slotSum none - m.sharedSlots.toNat) > 224 then (s, some St.eSlots)
  else
    let m' := { m with base := BitVec.ofNat 11 base, gib := BitVec.ofNat 11 n, sharedSlots := BitVec.ofNat 8 slots, lendEn := if denied then m.lendEn else bitAt v 32 }
    (({ s with mod := m' } : State).reshare, if denied then some St.eAccess else none)

def State.putSharedLabel (s : State) (v : Nat) : Wr :=
  if s.mod.state ≠ 0 then (s, some St.eSharedState) else ({ s with mod := { s.mod with label := BitVec.ofNat 64 v } }, none)

/-- Once NODE is set, ports that stood at step 4 go on to step 5, and waiting packets leave (R353, R364). -/
def State.putFabric (s : State) (v : Nat) : Wr :=
  let s := { s with mod := { s.mod with node := BitVec.ofNat 13 (bits v 0 13) } }
  (if s.mod.node = 0x1FFF then s else (qpIds.foldl (fun s n => s.updQp n fun x => { x with atStep4 := false }) s).drainQps, none)

/-- ENABLE = 1 trains a port that is DOWN; ENABLE = 0 takes it down with cause HOST (R353, R356). -/
def State.putQlnkCfg (s : State) (n : QpId) (v : Nat) : Wr :=
  let x := s.qp n
  let on := bitAt v 0
  let s := s.updQp n fun x => { x with enable := on, degradeEn := bitAt v 1 }
  (if !on then s.qpDown n 4 none else if x.st = 0 then s.updQp n (·.retrain 1 0) else s, none)

def QRes.ofWord (v : Nat) : QRes :=
  { weight := BitVec.ofNat 8 v, fixCr := BitVec.ofNat 8 (bits v 8 8), bulkCr := BitVec.ofNat 8 (bits v 16 8), gradCr := BitVec.ofNat 8 (bits v 24 8),
    paramCr := BitVec.ofNat 8 (bits v 32 8), fixPrio := bitAt v 40 }

/-- Sums over all partitions, with the default amounts of the core groups that no partition holds, stay within 32 and 128 (R360, R361). -/
def resFits (res : Tab QRes) (free : Nat) : Bool :=
  let rs := (List.range 32).map fun i => res.get {} i
  decide ((rs.map (·.weight.toNat)).sum + free ≤ 32) && (List.range 4).all fun c => decide ((rs.map (·.cr c)).sum + 4 * free ≤ 128)

def State.putRes (s : State) (n : QpId) (p : PtnId) (v : Nat) : Wr :=
  let free := ((List.range 32).filter fun k => (s.cgOwner k).isNone).length
  let res := (s.qp n).res.put {} p (QRes.ofWord v)
  if !resFits res free then (s, some St.eParam) else ((s.updQp n fun x => { x with res := res }).giveQp n [], none)

def State.putRoute (s : State) (n : QpId) (i v : Nat) : Wr :=
  (s.updQp n fun x => { x with routes := BitVec.ofNat 8192 (putBits x.routes.toNat (64 * i) 64 (if i = 127 then v % 2 ^ 63 else v)) }, none)

def State.putPwrCfg (s : State) (v : Nat) : Wr :=
  let l := bits v 0 11
  ({ s with pwr := { s.pwr with limitW := if 1000 ≤ l ∧ l ≤ 1850 then BitVec.ofNat 11 l else s.pwr.limitW, wakeNEn := bitAt v 16, uapWake := BitVec.ofNat 2 (bits v 17 2) } }, none)

/-- Clears pending bits; a fault detected in the same cycle keeps its pin asserted (R8, R439). -/
def State.putSafStatus (s : State) (v : Nat) (newFault newAlert : Bool) : Wr :=
  ({ s with saf := { s.saf with faultPend := (s.saf.faultPend && !bitAt v 0) || newFault, alertPend := (s.saf.alertPend && !bitAt v 1) || newAlert } }, none)

def State.putPtn (s : State) (p : PtnId) (expert : Bool) (off v : Nat) (anew : Bool) : Wr :=
  match off with
  | 0x100 => s.putSchedCfg p v
  | 0x208 => s.putViolInfo p v anew
  | 0x210 => s.putMemSlots p expert v
  | 0x300 => s.putNumMode p expert v
  | 0x308 => (s.updPtn p fun x => { x with srSeed := BitVec.ofNat 64 v }, none)
  | 0x310 => s.putStashCfg p v
  | 0x318 => s.putSpillBase p v
  | 0x328 => s.putServeCfg p v
  | 0x448 => s.putReplyCfg p v
  | _ =>
    match regIdx off 0x108 8 with
    | some q => s.putQCfg p (Fin.ofNat 8 q) v
    | none => match regIdx off 0x2000 256 with | some n => s.putSem p (Fin.ofNat 256 n) expert v anew | none => (s, none)

def State.putQlnk (s : State) (n : QpId) (off v : Nat) : Wr :=
  match off with
  | 0x10 => s.putQlnkCfg n v
  | 0x18 => (if bitAt v 0 then s.qpLinkReset n 0x20 else s, none)
  | _ =>
    match regIdx off 0x100 32 with
    | some p => s.putRes n (Fin.ofNat 32 p) v
    | none => match regIdx off 0x800 128 with | some i => s.putRoute n i v | none => (s, none)

/-- A write of one register; RO and reserved fields and offsets without a register ignore it (R6, R7). -/
def State.putBlk (s : State) (b : Blk) (off : Nat) (expert : Bool) (w : RegVal) : Wr :=
  let v := w.v.toNat
  match b with
  | .mod => if off = 0x400 then s.putMemCfg expert v else if off = 0x408 then s.putSharedLabel v else if off = 0x500 then s.putFabric v else (s, none)
  | .pwr => if off = 0x10 then s.putPwrCfg v else if off = 0x18 then ({ s with pwr := { s.pwr with wakeQp := BitVec.ofNat 48 v } }, none) else (s, none)
  | .saf => if off = 0 then s.putSafStatus v (w.anew.getLsbD 0) (w.anew.getLsbD 1) else (s, none)
  | .fix => match regIdx off 0x100 32 with
    | some p => (s.updPtn (Fin.ofNat 32 p) fun x => { x with fix := { x.fix with ports := BitVec.ofNat 48 v } }, none)
    | none => (s, none)
  | .ptn p => s.putPtn p expert off v (w.anew.getLsbD 0)
  | .qlnk n => s.putQlnk n off v
  | .uap n => (if off = 8 && bitAt v 0 then s.upLinkReset n 0x20 else s, none)
  | _ => (s, none)

/-- One item of a REG_WRITE. -/
def State.regPut (s : State) (h : Hdr) (a : W64) (v : RegVal) : Wr :=
  match s.regBad h a.toNat true with
  | some c => (s, some c)
  | none => match regBlock a.toNat with
    | some (b, o) => s.putBlk b o h.expert v
    | none => (s, some St.eAccess)

/-! ## REG_READ, REG_WRITE -/

/-- Reads answer zero where they fail (R336). -/
def execRegRead (h : Hdr) (addrs : List W64) (s : State) : Res State :=
  .next (s.atOnce h 0x110 fun s =>
    let rs := addrs.map fun a => (s.regBad h a.toNat false, s.peek a.toNat)
    (s, .ok (rs.map (fun r => match r.1 with | some c => failedItem c | none => doneItem),
             rs.flatMap fun r => leBytes 8 (if r.1.isSome then 0 else r.2.toNat))))

/-- The writes take effect in order; a failed one stops none (R329). -/
def regPuts (h : Hdr) : List (W64 × RegVal) → State → State × List Item
  | [], s => (s, [])
  | w :: r, s =>
    let x := s.regPut h w.1 w.2
    let y := regPuts h r x.1
    (y.1, (match x.2 with | some c => failedItem c | none => doneItem) :: y.2)

def State.regWrite (s : State) (h : Hdr) (ws : List (W64 × RegVal)) : State :=
  s.atOnce h 0x111 fun s => let x := regPuts h ws s; (x.1, .ok (x.2, []))

def execRegWrite (h : Hdr) (writes : List (W64 × RegVal)) (s : State) : Res State := .next (s.regWrite h writes)

/-! ## Rows of one register: a REG_WRITE whose one item is that write -/

def ptnAddr (p : PtnId) (off : Nat) : W64 := BitVec.ofNat 64 (0xF0000100000 + 0x10000 * p.val + off)
def qlnkAddr (n : QpId) (off : Nat) : W64 := BitVec.ofNat 64 (0xF0005000000 + 0x1000 * n.val + off)

def State.regOne (s : State) (h : Hdr) (a v : W64) (anew : BitVec 2 := 0) : Res State := .next (s.regWrite h [(a, ⟨v, anew⟩)])

def execPtnNumModeWrite (h : Hdr) (p : PtnId) (v : W64) (s : State) : Res State := s.regOne h (ptnAddr p 0x300) v
def execPtnStashCfgWrite (h : Hdr) (p : PtnId) (v : W64) (s : State) : Res State := s.regOne h (ptnAddr p 0x310) v
def execPtnSpillBaseWrite (h : Hdr) (p : PtnId) (v : W64) (s : State) : Res State := s.regOne h (ptnAddr p 0x318) v
def execPtnQCfgWrite (h : Hdr) (p : PtnId) (q : QueueId) (v : W64) (s : State) : Res State := s.regOne h (ptnAddr p (0x108 + 8 * q.val)) v
def execPtnSchedCfgWrite (h : Hdr) (p : PtnId) (v : W64) (s : State) : Res State := s.regOne h (ptnAddr p 0x100) v
def execPtnServeCfgWrite (h : Hdr) (p : PtnId) (v : W64) (s : State) : Res State := s.regOne h (ptnAddr p 0x328) v
def execPtnReplyCfgWrite (h : Hdr) (p : PtnId) (v : W64) (s : State) : Res State := s.regOne h (ptnAddr p 0x448) v
def execPtnMemSlotsWrite (h : Hdr) (p : PtnId) (v : W64) (s : State) : Res State := s.regOne h (ptnAddr p 0x210) v
def execPtnSemCountWrite (h : Hdr) (p : PtnId) (sem : SemId) (v : RegVal) (s : State) : Res State :=
  .next (s.regWrite h [(ptnAddr p (0x2000 + 8 * sem.val), v)])
def execPtnViolInfoClear (h : Hdr) (p : PtnId) (v : RegVal) (s : State) : Res State := .next (s.regWrite h [(ptnAddr p 0x208, v)])
def execModMemCfgWrite (h : Hdr) (v : W64) (s : State) : Res State := s.regOne h 0xF0000000400 v
def execModSharedLabelWrite (h : Hdr) (v : W64) (s : State) : Res State := s.regOne h 0xF0000000408 v
def execModFabricWrite (h : Hdr) (v : W64) (s : State) : Res State := s.regOne h 0xF0000000500 v
def execQlnkEnable (h : Hdr) (qp : QpId) (v : W64) (s : State) : Res State := s.regOne h (qlnkAddr qp 0x10) v
def execQlnkResWrite (h : Hdr) (qp : QpId) (p : PtnId) (v : W64) (s : State) : Res State := s.regOne h (qlnkAddr qp (0x100 + 8 * p.val)) v
def execQoreaLinkReset (h : Hdr) (qp : QpId) (v : W64) (s : State) : Res State := s.regOne h (qlnkAddr qp 0x18) v
def execUapraLinkReset (h : Hdr) (up : UpId) (v : W64) (s : State) : Res State := s.regOne h (BitVec.ofNat 64 (0xF0006000008 + 0x1000 * up.val)) v
def execPwrCfgWrite (h : Hdr) (v : W64) (s : State) : Res State := s.regOne h 0xF0000020010 v
def execSafStatusClear (h : Hdr) (v : W64) (newFault newAlert : Bool) (s : State) : Res State :=
  s.regOne h 0xF0000040000 v (BitVec.ofNat 2 (b2n newFault + 2 * b2n newAlert))
def execRegisterWrite (h : Hdr) (addr v : W64) (s : State) : Res State := s.regOne h addr v

end Sys2Proof.Machine
end

