-- ==== Sys2Proof/Machine/Wake.lean ====
section
/-! DEFINITION. Power transitions of the module as a whole, and waking from them (R468, R471 to R475, R483). -/

namespace Sys2Proof.Machine

/-- A POWER event: target state, phase (0 entering, 1 reached, 2 aborted), source and port of a wake, core groups (R483). -/
def State.powerEvent (s : State) (target : Nat) (phase : Nat) (src : BitVec 4) (port : BitVec 6) (mask : W32) : State :=
  (s.takeMen).sendModule 0x13 s.saf.nextMen (leBytes 1 target ++ leBytes 1 phase ++ leBytes 1 src.toNat ++ leBytes 1 port.toNat ++ leBytes 4 mask.toNat)

/-- The module takes packets, events and work: it is up, and in L0 or L1 with no exit from L2 running. -/
def State.awake (s : State) : Bool := s.phase = .ready && decide (s.pwr.st.toNat < 2) && !(s.pwr.trans.any fun t => t.module && t.target = 0)

/-- The first work brings the module from L1 to L0 (R469). -/
def State.leaveL1 (s : State) : State := if s.pwr.st = 1 then { s with pwr := { s.pwr with st := 0, lp := .normal } } else s

/-- Core groups whose supplies a transition changes: those it names; the held ones, or for L3 all, when the module moves. -/
def State.transCgs (s : State) (t : PTrans) : List Nat :=
  if !t.module then setBits t.mask.toNat 32
  else if t.target = 3 then List.range 32
  else (List.range 32).filter fun k => (s.cgOwner k).isSome

/-- The row of R470 that a transition leads to, for core groups and for the rest of the module. -/
def PTrans.row (t : PTrans) : Supply := if t.module && t.target = 3 then .modL3 else .ofCg t.target.toNat

/-- A transition begins: an entry first does everything but the supplies, an exit begins with them (R470). -/
def State.transBegin (s : State) (t : PTrans) : State :=
  if t.target = 0 then { s with pwr := { s.pwr with trans := some t } }
  else
    let w := s.pwr.mapSupplies (s.transCgs t) (Supply.quiet t.row)
    { s with pwr := { w with trans := some t, modSup := if t.module then Supply.quiet t.row w.modSup else w.modSup } }

/-- Bus b of a transition has been acknowledged: the supplies of that die's core groups, or of the module rails, are at their targets. -/
def State.transRails (s : State) (t : PTrans) (bus : Nat) : State :=
  let w := s.pwr.mapSupplies ((s.transCgs t).filter fun k => decide (k / 8 = bus)) (Supply.rails t.row)
  { s with pwr := { w with modSup := if t.module && bus = 4 then Supply.rails t.row w.modSup else w.modSup } }

/-- A transition has ended: on an exit the bias, the assists, retention and isolation and the clocks follow the supplies, and every supply stands as the table has it. -/
def State.transSupplied (s : State) (t : PTrans) : State :=
  let w := s.pwr.mapSupplies (s.transCgs t) (fun _ => t.row)
  { s with pwr := { w with modSup := if t.module then t.row else w.modSup } }

/-- A transition is given up: its domain is again in the state it was leaving, with the supplies as last acknowledged (R471). -/
def State.transStop (s : State) (t : PTrans) : State :=
  let old := fun k => Supply.ofCg (if t.module then (if s.pwr.st = 2 then 2 else 0) else s.pwr.cgState k)
  let w := (s.transCgs t).foldl (fun (w : Pwr) k => if t.module && (s.cgOwner k).isNone then w.putSupply k (Supply.quiet (.ofCg (s.pwr.cgState k)) (w.supply k)) else w.putSupply k (Supply.quiet (old k) (w.supply k))) s.pwr
  { s with pwr := { w with trans := none, modSup := if t.module then Supply.quiet (.ofCg (if s.pwr.st = 2 then 2 else 0)) w.modSup else w.modSup } }

/-- A wake of the module from L2, or during its entry, with its source (R472, R474). An entry is abandoned; an exit begins otherwise. -/
def State.wakeL2 (s : State) (src : BitVec 4) (port : BitVec 6) : State :=
  let rec' := { s.pwr with lastWake := src, wakePort := port }
  match s.pwr.trans with
  | some t =>
    if t.module && t.target = 2 then
      let s := ({ s with pwr := rec' } : State).transStop t
      let s := s.transSupplied { target := 0, module := true }
      ({ s with pwr := { s.pwr with lp := .normal } } : State).powerEvent 2 2 src port 0
    else s
  | none =>
    if s.pwr.st = 2 then
      (({ s with pwr := { rec' with wakeN := true } } : State).transBegin { target := 0, module := true }).powerEvent 0 0 src port 0
    else s

end Sys2Proof.Machine
end

