-- ==== Sys2Proof/Machine/Link.lean ====
section
/-! DEFINITION. Uapra links and the admission of packets (R20, R312 to R320, R340, R341, R430, R431, R487). -/

namespace Sys2Proof.Machine

/-! ## Admission (R315 to R320) -/

/-- A port-level reply: ESN 0, and bytes 0 to 31 as received after the zeros of bytes 32 to 79 (DEDUCED, log entry 9). -/
def State.portReply (s : State) (u : UpId) (h : Hdr) (opcode : W16) (code : Status) (bytes : List Byte) : State :=
  let echo := bytes.take 32
  let m : Msg := { type := 2, queue := h.queue, ptn := h.ptn, opcode := opcode, status := code, seq := h.seq
                   body := List.replicate 48 0 ++ echo ++ List.replicate (32 - echo.length) 0 }
  s.updUp u fun x => ({ x with rejects := satInc x.rejects } : UPort).push m

/-- Checks 1 to 4: the packet itself. -/
def wireCheck (b : List Byte) : Option Status :=
  let len := fld b 8 4
  if len < 36 || len > 65536 || len % 4 ≠ 0 || len ≠ b.length then some St.eLength
  else if (crc32c (b.take (len - 4))).toNat ≠ fld b (len - 4) 4 then some St.eCrc
  else if fld b 0 1 ≠ 1 then some St.eVersion
  else if fld b 0 32 >>> 102 ≠ 0 || (bitAt (fld b 0 32) 101 && bits (fld b 0 32) 8 8 ≠ 0) then some St.eHeader
  else none

/-- SEQ is after the channel's LAST_SEQ (R319). -/
def seqAfter (last : Option W32) (seq : W32) : Bool :=
  match last with
  | none => true
  | some l => let d := (seq - l).toNat; decide (1 ≤ d) && decide (d < 2 ^ 31)

/-- Checks 6 to 8: the channel. -/
def State.chanCheck (s : State) (h : Hdr) (credits : Nat) : Option Status :=
  if h.steward then
    let cs := s.stew.cmds.filter (·.slot)
    if cs.length ≥ 16 || (cs.map (·.credits)).sum + credits > 64 then some St.eNoCredit else none
  else
    let x := s.ptn h.ptn
    if x.st = 2 then some St.ePtnReset
    else if !bitAt x.qEnable.toNat h.queue then some St.eQueueOff
    else
      let cs := x.flow.cmds.filter fun c => c.slot && c.hdr.queue = h.queue
      if cs.length ≥ 64 || (cs.map (·.credits)).sum + credits > 512 then some St.eNoCredit else none

def State.lastSeq (s : State) (h : Hdr) : Option W32 := if h.steward then s.stew.lastSeq else (s.job h.ptn h.queue).lastSeq

def State.setSeq (s : State) (h : Hdr) : State :=
  if h.steward then { s with stew := { s.stew with lastSeq := some h.seq } } else s.updJob h.ptn h.queue fun j => { j with lastSeq := some h.seq }

/-- A block whose handle, its first field at offset 8, names nothing (R325, R509): a program's, or a model's. -/
def Ptn.handleBad (x : Ptn) (h : Hdr) (op : Nat) (b : List Byte) : Bool :=
  let n := fld b 8 2
  decide (10 ≤ b.length) && allZero b 5 3 &&
  (if decide (op ∈ [0x302, 0x303, 0x702, 0x703]) || (h.expert && decide (op ∈ [0x301, 0x306])) then (x.prog? n).isNone
   else decide (op ∈ [0x221, 0x222, 0x223, 0x305, 0x604]) && (x.model? n).isNone)

/-- Checks 10 to 12: the opcode, its channel and level, and the static checks. -/
def State.cmdCheck (s : State) (h : Hdr) (op : Nat) (block : List Byte) : Except Status Instr :=
  match opInfo op with
  | none => .error St.eOpcode
  | some i =>
    if !i.either && i.steward ≠ h.steward then .error St.eOpcode
    else if (i.expertOnly && !h.expert) || (h.nopreempt && !h.expert) then .error St.eLevel
    else
      if !h.steward && (s.ptn h.ptn).handleBad h op block then .error St.eHandle
      else
      match parseBlock h op block with
      | .error c => .error c
      | .ok cmd =>
        if h.steward then .ok cmd
        else
          let x := s.ptn h.ptn
          match x.acceptCheck h x.numMode.smode cmd with
          | some c => .error c
          | none => .ok cmd

/-- Takes an accepted command: its record, slot and credits, and what R55 samples; a queued command makes its job ready (R285, R320, R323). -/
def State.accept (s : State) (h : Hdr) (op : Nat) (cmd : Instr) (credits : Nat) : State :=
  if h.steward then
    { s with stew := { s.stew with cmds := s.stew.cmds ++ [{ hdr := h, opcode := BitVec.ofNat 16 op, cmd := some cmd, credits := credits, slot := true, num := s.stew.nextNum }], nextNum := s.stew.nextNum + 1 } }
  else
    let x := s.ptn h.ptn
    let imm := match opInfo op with | some i => i.immediate | none => false
    let s := s.updFlow h.ptn fun f => { f with
      cmds := f.cmds ++ [{ hdr := h, opcode := BitVec.ofNat 16 op, cmd := some cmd, credits := credits, slot := true, num := f.nextNum, immediate := imm,
                           numMode := x.numMode, srSeed := x.srSeed }]
      nextNum := f.nextNum + 1 }
    if imm then s else s.updPtn h.ptn (·.makeReady h.queue)

/-- A packet's last frame has arrived. The checks of R318 are made in their order, and the first that fails decides the reply; while the steward restarts its channel answers E_BUSY (R431). -/
def execPacketArrival (port : UpId) (bytes : List Byte) (s : State) : Res State :=
  .next (
    if !s.awake || !(s.up port).isUp then s
    else
      let s := s.leaveL1
      let h := Hdr.parse bytes port
      let op := fld bytes 2 2
      let opw : W16 := BitVec.ofNat 16 op
      match wireCheck bytes with
      | some c => s.portReply port h opw c bytes
      | none =>
        if !h.steward && (s.ptn h.ptn).st = 0 then s.portReply port h opw St.ePtnFree bytes
        else
          let credits := ceilDiv bytes.length 256
          match s.chanCheck h credits with
          | some c => s.sendReply h (rejection h opw c)
          | none =>
            if !seqAfter (s.lastSeq h) h.seq then s.sendReply h (rejection h opw St.eSeqReplay)
            else
              let s := s.setSeq h
              if h.steward && s.saf.stewRestart then s.sendReply h (rejection h opw St.eBusy)
              else
                match s.cmdCheck h op ((bytes.take (bytes.length - 4)).drop 32) with
                | .error c => s.sendReply h (rejection h opw c)
                | .ok cmd => s.accept h op cmd credits)

/-! ## Frames and ports (R20, R312, R340, R472, R487) -/

/-- A link frame arrives from the control node: it acknowledges messages and returns credits, up to 64 in all. -/
def execUapraFrame (port : UpId) (f : LinkFrame) (s : State) : Res State :=
  .next (
    if !(s.up port).isUp || !f.intact then s
    else
      let s := s.wakeL2 1 (BitVec.ofNat 6 (48 + port.val))
      s.updUp port fun x => ({ x with
        unacked := x.unacked.drop f.acks, attempts := if f.acks = 0 then x.attempts else 0, credits := min 64 (x.credits + f.credits), rxSeq := x.rxSeq + 1 } : UPort).drain)

/-- The oldest frame has not been acknowledged: it is sent again, up to 8 times, and then the port is declared down (R312; DEDUCED, log entry 43). -/
def execUapraFrameRetry (port : UpId) (s : State) : Res State :=
  let x := s.up port
  .next (
    if !x.isUp || x.unacked = [] then s
    else if x.attempts < 8 then
      let s := if x.bufUe then (s.updUp port fun x => { x with bufUe := false }).notePort 9 (if port = 0 then 0 else 3) port.val (ptnMask (x.unacked.map (·.ptn))) else s
      s.updUp port fun x => { x with attempts := x.attempts + 1, retries := satInc x.retries }
    else s.upDown port)

/-- The steward retrains a port that is down; `up` says whether training reaches its end (R487). -/
def execUapraRetrain (port : UpId) (up : Bool) (s : State) : Res State :=
  .next (
    if (s.up port).isUp || s.phase ≠ .ready then s
    else
      let s := s.upLinkReset port 0x21
      if up then s.upUp port else s)

end Sys2Proof.Machine
end

