-- ==== Sys2Proof/Machine/Boot.lean ====
section
/-! DEFINITION. The boot flash, key derivation and the boot chain, what survives a reset, and the start-up sequence (R441, R447 to R454, R480 to R488). -/

namespace Sys2Proof.Machine

/-! ## The boot flash (R447) -/

def flashBytes : Nat := 2 ^ 26

/-- A byte of the flash: as written or erased since delivery, as the steward's last save of the log left it, or as delivered. -/
def State.flashAt (s : State) (o : Nat) : Byte :=
  match s.flash.get none o with
  | some b => b
  | none =>
    match s.saf.logSeed with
    | some k => if 0x30000 ≤ o ∧ o < 0x40000 then BitVec.ofNat 8 (Config.free k o) else Config.flashByte o
    | none => Config.flashByte o

def State.flashN (s : State) (o n : Nat) : List Byte := (List.range n).map fun i => s.flashAt (o + i)

/-! ## The secret of the module (R448); the places of SEL, W and CHECK in the helper data are the model's (DESIGN CHOICE, log entry 37) -/

/-- The response X at a boot: the first 3,840 selected cells. -/
def State.pufX (s : State) : List Bool :=
  let sel := s.flashN 0 8192
  (((List.range 65536).filter fun c => bitAt (sel.getD (c / 8) 0).toNat (c % 8)).take 3840).map (Config.pufCell s.sec.boots)

/-- Majority of each 15 bits of X xor W. -/
def State.pufSeed (s : State) : List Byte :=
  let x := s.pufX
  let w := s.flashN 8192 480
  let bit := fun k => (x.getD k false) != bitAt (w.getD (k / 8) 0).toNat (k % 8)
  let maj := fun i => decide (7 < ((List.range 15).filter fun j => bit (15 * i + j)).length)
  (List.range 32).map fun b => BitVec.ofNat 8 ((List.range 8).foldl (fun a j => if maj (8 * b + j) then a + 2 ^ j else a) 0)

def uds (seed : List Byte) : List Byte := hkdf seed [] (ascii "AQD9-UDS") 32
def deviceId (u : List Byte) : Nat := P256.keygen u (ascii "AQD9-DEVID")
def ueidOf (pub : List Byte) : List Byte := (sha256 (ascii "AQD9-UEID" ++ pub)).take 16

/-! ## Images in the flash (R452, R453) -/

/-- Digest of a header's signed part and the image. -/
def State.slotDigest (s : State) (o : Nat) : List Byte := sha256 (s.flashN o 128 ++ s.flashN (o + 256) (fld (s.flashN o 256) 8 4))

/-- The header names this magic and a length that fits. -/
def State.looksValid (s : State) (o magic limit : Nat) : Bool := let h := s.flashN o 12; fld h 0 4 = magic && fld h 8 4 ≤ limit

/-- ENDORSE and SIG verify. -/
def State.slotValid (s : State) (o magic limit : Nat) (label : String) : Bool :=
  let h := s.flashN o 256
  let key := (h.drop 64).take 64
  s.looksValid o magic limit && P256.verify ((List.finRange 64).map Config.fwRootKey) (sha256 (ascii label ++ key)) ((h.drop 128).take 64) &&
  P256.verify key (s.slotDigest o) ((h.drop 192).take 64)

def fwLimit : Nat := 32243456
def State.fwValid (s : State) (o : Nat) : Bool := s.slotValid o 0x57465141 fwLimit "AQD9-FWKEY"
def State.cfgValid (s : State) (ueid : List Byte) : Bool :=
  s.slotValid 0x10000 0x47465141 (0x10000 - 256) "AQD9-CFGKEY" && s.flashN 0x10100 16 = ueid

/-- The device certificate: the first DER sequence of the chain area; it carries a key when the point stands in it uncompressed. -/
def State.deviceCert (s : State) : List Byte := let h := s.flashN 0x20000 4; s.flashN 0x20000 (4 + 256 * fld h 2 1 + fld h 3 1)

def hasInfix (x : List Byte) : List Byte → Bool
  | [] => x = []
  | a :: r => (a :: r).take x.length = x || hasInfix x r

/-! ## The boot chain (R449, R454) -/

/-- The slots in the order in which they are verified: of those that look valid, the higher FW_VERSION first, slot A when equal. -/
def State.slotOrder (s : State) : List (Bool × Nat) :=
  let a := s.looksValid 0x100000 0x57465141 fwLimit; let b := s.looksValid 0x2100000 0x57465141 fwLimit
  let va := fld (s.flashN 0x100004 4) 0 4; let vb := fld (s.flashN 0x2100004 4) 0 4
  let sa := (false, 0x100000); let sb := (true, 0x2100000)
  if a && b then (if va < vb then [sb, sa] else [sa, sb]) else if a then [sa] else if b then [sb] else []

/-- What boot leaves in the SEC_ block and in the steward, or BOOT_ERR with it. -/
def State.bootRom (s : State) : Sec × Bool :=
  let c0 : Sec := { boots := s.sec.boots + 1 }
  let seed := s.pufSeed
  if sha256 (ascii "AQD9-PUFCHK" ++ seed) ≠ s.flashN 8672 32 then ({ c0 with bootErr := 1 }, false)
  else
    let u := uds seed
    let pub := P256.publicKey (deviceId u)
    let ueid := ueidOf pub
    let c1 : Sec := { c0 with uds := u, ueid := ueid }
    if !s.cfgValid ueid then ({ c1 with bootErr := 2 }, false)
    else if !hasInfix (4 :: pub) s.deviceCert then ({ c1 with bootErr := 3 }, false)
    else
      match s.slotOrder.find? fun e => s.fwValid e.2 with
      | none => ({ c1 with bootErr := 4 }, false)
      | some e =>
        let fw := s.slotDigest e.2; let cfg := s.slotDigest 0x10000
        ({ c1 with
          slot := e.1, fallback := s.slotOrder.head? ≠ some e, fwVersion := BitVec.ofNat 32 (fld (s.flashN (e.2 + 4) 4) 0 4)
          cfgVersion := BitVec.ofNat 32 (fld (s.flashN 0x10004 4) 0 4), fwDigest := fw, cfgDigest := cfg
          slKey := s.flashN 0x10110 64, slScopes := BitVec.ofNat 32 (fld (s.flashN 0x10150 4) 0 4), cdi1 := hmac u (fw ++ cfg) }, true)

/-! ## What survives (R484) -/

/-- Strip counters and ROTATION over a warm reset; RETIRED over an L3 entry too. -/
def Strip.survive (warm : Bool) (x : Strip) : Strip :=
  if warm then { strips := x.strips, fails := x.fails, rotation := x.rotation, retired := x.retired } else { retired := x.retired }

def QPort.survive (x : QPort) : QPort :=
  { retryEvents := x.retryEvents, downCount := x.downCount, fecCe := x.fecCe, fecUe := x.fecUe, dropped := x.dropped, enable := x.enable,
    degradeEn := x.degradeEn, rstCount := x.rstCount, routes := x.routes }

def UPort.survive (x : UPort) : UPort :=
  { retries := x.retries, rejects := x.rejects, resentMsgs := x.resentMsgs, rstCount := x.rstCount }

/-- LPDDR5X contents and check bytes; the counters over a warm reset only. -/
def Mem.survive (warm : Bool) (m : Mem) : Mem :=
  { bytes := m.bytes.dropKeys fun k => decide (k < lpBase), granKey := m.granKey, sectKey := m.sectKey, ue := m.ue.filter fun w => decide (lpBase ≤ w),
    erg := if warm then m.erg else [], memc := if warm then m.memc else [] }

/-- The state with everything that a reset of a kind (0 cold, 1 warm, 2 module L3) does not keep at its reset value. -/
def State.survive (s : State) (kind : Nat) : State :=
  let warm : Bool := kind = 1
  let keep : State := { pending := s.pending, fresh := s.fresh, phase := s.phase, flash := s.flash, flashBusy := s.flashBusy, pins := s.pins, i3c := s.i3c, sec := { boots := s.sec.boots } }
  if kind = 0 then { keep with pwr := { tel := s.pwr.tel, rails := s.pwr.rails, hold := s.pwr.hold, boot := s.pwr.boot } }
  else
    { keep with
      mem := Mem.survive warm s.mem
      mod := if warm then s.mod else {}
      clk := if warm then s.clk else {}
      qps := if warm then s.qps.mapVals {} QPort.survive else []
      ups := if warm then s.ups.mapVals {} UPort.survive else []
      mcs := s.mcs.mapVals {} fun c => { strip := Strip.survive warm c.strip }
      tes := s.tes.mapVals {} fun e => { strip := Strip.survive warm e.strip }
      saf := { s.saf with stewRestart := false, deferred := [], psRetired := 0 }
      pwr := { limitW := s.pwr.limitW, wakeNEn := s.pwr.wakeNEn, uapWake := s.pwr.uapWake, wakeQp := s.pwr.wakeQp, tel := s.pwr.tel, rails := s.pwr.rails,
               hold := s.pwr.hold, boot := s.pwr.boot, lastEsn := if warm then s.pwr.lastEsn else [], lp := .selfRefresh
               lastWake := if warm then 0 else s.pwr.lastWake, wakePort := if warm then 0 else s.pwr.wakePort, wakeN := s.pwr.wakeN, wakeHeld := if warm then none else s.pwr.wakeHeld } }

/-! ## Resets that begin (R467, R480, R482) -/

/-- Messages of a partition that no port has sent yet. -/
def State.unsentOf (s : State) (p : PtnId) : List W64 :=
  let mine := fun (m : Msg) => decide (m.type.toNat < 2) && m.ptn = p
  let w := fun (u : UpId) => ((s.up u).unsent.filter mine).map (·.order)
  let done := fun (u : UpId) (e : W64) => (s.up u).unacked.any fun m => mine m && m.order = e
  ((s.held.map (·.msg)).filter mine).map (·.order) ++ (w 0).filter (fun e => !done 1 e) ++ (w 1).filter (fun e => !done 0 e)

/-- LAST_ESN: the highest ESN the partition has sent; 0 for a FREE one (R482; DEDUCED, log entry 47). -/
def State.lastEsnOf (s : State) (p : PtnId) : W64 :=
  if (s.ptn p).st = 0 then 0
  else BitVec.ofNat 64 ((s.unsentOf p).foldl (fun a e => min a (e.toNat - 1)) ((s.ptn p).flow.esn.toNat - 1))

/-- A reset of a running module begins: everything stops, and what does not survive is gone; faults that waited for the steward's restart are in the log first (R431; DEDUCED, log entry 47). -/
def State.beginReset (s : State) (kind : Nat) (cause : Byte) (hold : RstHold) : State :=
  let s := if s.saf.stewRestart then s.stewardBack else s
  let esns := ptnIds.map s.lastEsnOf
  { s with phase := .starting, pwr := { s.pwr with boot := some (BitVec.ofNat 2 kind, cause), hold := hold, lastEsn := esns } } |>.survive kind

/-- A warm reset begins, or one that has begun waits for more; a start-up on another path goes on. -/
def State.warmBegin (s : State) (cause : Byte) (hold : RstHold) : State :=
  if s.phase = .ready then s.beginReset 1 cause hold
  else if s.phase = .starting then { s with pwr := { s.pwr with hold := if hold = .none then s.pwr.hold else hold } }
  else s

/-! ## Start-up (R481, R483, R486 to R488) -/

def State.sendEvt (s : State) (kind : Byte) (body : List Byte) : State := (s.takeMen).sendModule kind s.saf.nextMen body

def resetBody (kind : Nat) (cause : Byte) (esns : List W64) : List Byte :=
  leBytes 1 kind ++ [cause] ++ List.replicate 6 0 ++ (List.range 32).flatMap fun p => leBytes 8 (esns.getD p 0).toNat

/-- Test strips on every unit in service; they pass (DEDUCED, log entry 38). -/
def State.startStrips (s : State) : State :=
  let one := fun (x : Strip) => if x.retired then x else { x with strips := satInc x.strips, rotation := x.rotation + 1 }
  let s := (List.range 256).foldl (fun s n => s.updMc n fun c => { c with strip := one c.strip }) s
  (List.range 64).foldl (fun s n => s.updTe n fun e => { e with strip := one e.strip }) s

/-- The ports: each Qorea port with ENABLE trains, both Uapra ports come up. -/
def State.startPorts (s : State) : State :=
  let s := qpIds.foldl (fun s n => s.updQp n fun x => if x.enable then x.retrain 1 0 else x) s
  ([0, 1] : List UpId).foldl (fun s u => s.upUp u) s

/-- Start-up from the boot ROM to READY; a failure of the boot chain stops it with BOOT_ERR and FAULT_N. `told` says that RESET has been sent already. -/
def State.startUp (s : State) (kind : BitVec 2) (cause : Byte) (told : Bool) : State :=
  let b := s.bootRom
  let s := { s with
    sec := b.1
    mem := { s.mem with root := hkdf b.1.uds [] (ascii "AQD9-MEMROOT") 32 }
    mod := { s.mod with rstCause := cause, rstKind := kind, warmCount := if kind = 1 then satInc s.mod.warmCount else 0 }
    pins := if kind = 0 then { s.pins with feedId := s.pins.feed } else s.pins }
  if !b.2 then { s with phase := .stopped, saf := { s.saf with faultPend := true } }
  else
    let esns := s.pwr.lastEsn
    let s := { s with phase := .ready, pwr := { s.pwr with cgSup := [], modSup := {}, st := 0, boot := none, hold := .none, rails := 0, due := none, lastEsn := [], lp := .normal, wakeN := false, wakeHeld := none } }
    let s := s.startStrips.startPorts
    let s := if told then s else s.sendEvt 0x12 (resetBody kind.toNat cause (if kind = 1 then esns else []))
    s.sendEvt 0x14 (s.sec.ueid ++ leBytes 4 s.sec.fwVersion.toNat ++ leBytes 4 kind.toNat)

/-- The inputs that step 1 and step 3 of the start-up wait for. -/
def State.mayStartUp (s : State) : Bool := s.pins.pwrgd && s.pins.rstN && !s.pins.lockout && s.pwr.hold = .none

/-- Warm reset: its steps, from a running module or for one that has begun (R482; DESIGN CHOICE, log entry 5). -/
def execModuleWarmReset (cause : Byte) (s : State) : Res State :=
  let s1 := if s.phase = .ready then s.warmBegin cause .none else s
  .next (
    match s1.phase, s1.pwr.boot with
    | .starting, some (1, c) => if s1.mayStartUp then s1.startUp 1 c false else s1
    | _, _ => s1)

/-- The full start-up, on the cold path or the L3 path (R486). A cold reset by PWR_STATE has sent RESET before it begins (R483). That one row carries all steps is DESIGN CHOICE, log entry 5. -/
def execColdReset (cause : Byte) (s : State) : Res State :=
  let told := s.phase = .ready && s.pwr.due = some 0x11
  let s1 := if s.phase = .ready then s.beginReset 0 cause .none else s
  .next (
    if s1.phase ≠ .starting || !s1.mayStartUp then s1
    else
      match s1.pwr.boot with
      | none => (s1.survive 0).startUp 0 cause false
      | some (0, c) => (s1.survive 0).startUp 0 c told
      | some (2, c) => s1.startUp 2 c false
      | some _ => s1)

end Sys2Proof.Machine
end

