-- ==== Sys2Proof/Machine/Transfer.lean ====
section
/-! DEFINITION. Qorea flits, training, transfers and routes (R350 to R354, R359, R364 to R369). -/

namespace Sys2Proof.Machine

/-! ## Flits and link retry (R350 to R352, R357) -/

/-- Flits sent and not acknowledged. -/
def QPort.outstanding (x : QPort) : Bool := x.acked + 1 ≠ x.fseqTx

/-- An acknowledgement of flits; one that moves on ends a run of NAKs. -/
def QPort.takeAck (x : QPort) (a : BitVec 12) : QPort := if a = x.acked then x else { x.ackTo a with nakRun := 0 }

/-- A flit is discarded, and a NAK for the expected one goes out; the eighth in a row for one flit takes the port down (R352). -/
def State.sendNak (s : State) (n : QpId) : State :=
  let x := s.qp n
  if x.nakSent + 1 ≥ 8 then (s.updQp n fun x => { x with retryEvents := satInc x.retryEvents }).qpDown n 2 none
  else s.updQp n fun x => { x with retryEvents := satInc x.retryEvents, discarding := true, nakSent := x.nakSent + 1 }

/-- A flit arrives (R350 to R352, R357); in module L2 a flit that is not IDLE wakes the module (R472). -/
def execFlitReceive (qp : QpId) (f : Flit) (s : State) : Res State :=
  .next (
    let x := s.qp qp
    if x.st ≠ 2 then s
    else
      let s := if f.fkind ≠ 1 && f.good then s.wakeL2 1 (BitVec.ofNat 6 qp.val) else s
      let s := s.updQp qp fun x => { x with fecCe := satInc x.fecCe f.fecCe, fecUe := satInc x.fecUe f.fecUe }
      if !f.good || f.fecUe ≠ 0 then s.sendNak qp
      else
        let s := (s.updQp qp (·.takeAck f.ackSeq)).giveQp qp []
        if f.fkind ≠ 0 then s
        else if f.fseq = x.fseqRx then
          let s := s.updQp qp fun x => { x with fseqRx := x.fseqRx + 1, discarding := false, nakSent := 0 }
          if 6 ≤ f.vl.toNat then s.dropPkt qp else s
        else if x.discarding then s
        else s.sendNak qp)

/-- A NAK arrives: the sender replays from the flit it names; the eighth in a row for one flit takes the port down (R352). -/
def execNak (qp : QpId) (fseq : BitVec 12) (stamp : W64) (s : State) : Res State :=
  .next (
    let x := s.qp qp
    if x.st ≠ 2 then s
    else
      let s := s.wakeL2 1 (BitVec.ofNat 6 qp.val)
      let s := if x.bufUe then (s.updQp qp fun x => { x with bufUe := false }).notePort 8 (BitVec.ofNat 8 (qp.val / 12)) qp.val (ptnMask (x.flight.map (·.srcPtn))) else s
      let run := if fseq = x.nakFseq && x.nakRun ≠ 0 then x.nakRun + 1 else 1
      let s := s.updQp qp fun x => { x.ackTo (fseq - 1) with retryEvents := satInc x.retryEvents, nakFseq := fseq, nakRun := run }
      let s := s.giveQp qp []
      if run ≥ 8 then s.qpDown qp 2 (some stamp) else s)

/-- The peer has acknowledged nothing for 20 µs while flits were outstanding (R352). -/
def execQoreaSilentTimeout (qp : QpId) (stamp : W64) (s : State) : Res State :=
  .next (if (s.qp qp).st = 2 && (s.qp qp).outstanding then s.qpDown qp 3 (some stamp) else s)

/-! ## Training (R353, R354, R364) -/

/-- A step of training exceeds its bound; `lanes` are the lanes found working. -/
def execTrainingStepTimeout (qp : QpId) (lanes : BitVec 8) (s : State) : Res State :=
  .next (
    let x := s.qp qp
    if x.st ≠ 1 || x.atStep4 then s
    else if x.attempts < 2 then s.updQp qp fun x => { x with attempts := x.attempts + 1 }
    else
      let low := lanes.toNat % 16 = 15
      let high := lanes.toNat / 16 = 15
      if x.degradeEn && !x.half && (low || high) then s.updQp qp fun x => { x with attempts := x.attempts + 1, half := true, laneSet := !low }
      else s.updQp qp (·.retrain 0 1))

/-- Training reaches its end; while NODE is unset it stays at step 4 (R353, R364). -/
def execLinkTrained (qp : QpId) (peerNode : BitVec 13) (s : State) : Res State :=
  .next (
    let x := s.qp qp
    if x.st ≠ 1 then s
    else if s.mod.node = 0x1FFF then s.updQp qp fun x => { x with atStep4 := true }
    else (s.updQp qp fun x => { x with st := 2, peer := peerNode, downCause := 0, attempts := 0, atStep4 := false, fseqTx := 0, fseqRx := 0, acked := 0xFFF }).takeMen)

/-- A packet arrives on a port that is UP and is acknowledged, unless it waits for a slot; otherwise the event does not occur (R366, R369, R510). -/
def State.onQp (s : State) (n : QpId) (h : QHdr) (wait : Bool) (f : State → State) : Res State :=
  .next (if (s.qp n).st = 2 && !wait then (f s).ackPkt n h else s)

/-! ## DATA_IN, DATA_OUT (R326, R365, R366, R369) -/

/-- The transfer's item ends, and the transfer is closed. -/
def State.endXfer (s : State) (x : Xfer) (failed : Option Status) : State :=
  (({ s with xfers := s.xfers.filter fun y => y.id ≠ x.id } : State).closeItem x.hdr 0 failed).settle x.hdr

/-- Opens a transfer. -/
def State.openXfer (s : State) (h : Hdr) (dir : BitVec 2) (ep : Endpoint) (addr bytes : W64) : State × Xfer :=
  let x : Xfer := { id := s.nextXfer, ptn := h.ptn, hdr := h, dir := dir, ep := ep, addr := addr.toNat, bytes := bytes.toNat }
  ({ s with xfers := s.xfers ++ [x], nextXfer := s.nextXfer + 1 }, x)

/-- The packet that asks the endpoint for the bytes; the layout of its payload is the model's (DESIGN CHOICE, log entry 25). -/
def Xfer.readPkt (x : Xfer) : QPkt :=
  { dstNode := x.ep.node, dstPtn := x.ep.ptn, srcPtn := x.ptn, vl := 3, kind := 2, last := true, xfer := x.id, enc := x.ep.enc, keyId := x.ep.keyId, job := some x.hdr.queue,
    payload := leBytes 8 x.ep.object.toNat ++ leBytes 8 x.bytes }

def execDataIn (h : Hdr) (ep : Endpoint) (addr bytes : W64) (s : State) : Res State :=
  .next (s.queued h 0x210 (.dataIn h ep addr bytes) (fun _ => none) (fun _ => 1) fun s =>
    if bytes = 0 then s.closeItem h 0 none
    else if s.portsTo ep.node 0 = [] then s.closeItem h 0 (some St.eParam)
    else
      let x := s.openXfer h 0 ep addr bytes
      x.1.sendPkts 0 [x.2.readPkt])

/-- The bytes leave as the endpoint reads them. -/
def execDataOut (h : Hdr) (ep : Endpoint) (addr bytes : W64) (s : State) : Res State :=
  .next (s.queued h 0x211 (.dataOut h ep addr bytes) (fun _ => none) (fun _ => 1) fun s =>
    if bytes = 0 then s.closeItem h 0 none
    else if s.portsTo ep.node 0 = [] then s.closeItem h 0 (some St.eParam)
    else (s.openXfer h 1 ep addr bytes).1)

/-- The packet's source is a member of one of the partition's groups. -/
def Ptn.memberNode (x : Ptn) (node : BitVec 13) (ptn : BitVec 5) : Bool := x.groups.any fun g => g.block.members.any fun m => m.1 = node && m.2 = ptn

/-- The transfer that a DATA packet belongs to, and the one that a READ asks for. -/
def State.xferIn? (s : State) (h : QHdr) : Option Xfer := s.xfers.find? fun x => x.dir = 0 && x.ptn = h.dstPtn && x.id = h.xfer && x.ep.node = h.srcNode
def State.xferOut? (s : State) (h : QHdr) (len : Nat) : Option Xfer :=
  s.xfers.find? fun x => x.dir = 1 && x.ptn = h.dstPtn && x.ep.node = h.srcNode && h.offset.toNat + len ≤ x.bytes

/-- An access of a transfer waits while no slot serves it; a job that is stopped answers no READ (R297, R510). -/
def State.dataWaits (s : State) (h : QHdr) (len : Nat) : Bool :=
  match s.xferIn? h with
  | some x => !decide (pktTag h ∈ x.seen) && h.offset.toNat + len ≤ x.bytes && s.noSlot h.dstPtn (x.addr + h.offset.toNat) len
  | none => false
def State.readWaits (s : State) (h : QHdr) (len : Nat) : Bool :=
  match s.xferOut? h len with
  | some x => !decide (pktTag h ∈ x.seen) && (s.noSlot h.dstPtn (x.addr + h.offset.toNat) len || decide ((s.job h.dstPtn x.hdr.queue).st ≠ .running))
  | none => false

/-- Data of a transfer that DATA_IN opened are written through the partition's windows at their OFFSET; a violation ends its item (R275, R366, R369). A packet of a group member without such a transfer is accepted and has nowhere to go; any other is dropped. -/
def execData (qp : QpId) (h : QHdr) (bytes : List Byte) (s : State) : Res State :=
  s.onQp qp h (s.dataWaits h bytes.length) fun s =>
    match s.xferIn? h with
    | none => if (s.ptn h.dstPtn).memberNode h.srcNode h.srcPtn then s else s.dropPkt qp
    | some x =>
      if decide (pktTag h ∈ x.seen) then s
      else if h.offset.toNat + bytes.length > x.bytes then s.dropPkt qp
      else
        match s.pWrite h.dstPtn (Who.firmware.via qp) (x.addr + h.offset.toNat) (s.clear h bytes) with
        | (s, .error c) => (s.dropPkt qp).endXfer x (some c)
        | (s, .ok _) =>
          let moved := x.moved + bytes.length
          if moved ≥ x.bytes then s.endXfer x none
          else { s with xfers := updFirst (fun y => y.id = x.id) (fun y => { y with moved := moved, seen := y.seen ++ [pktTag h] }) s.xfers }

/-- No packet of a transfer is still with a port. -/
def State.xferQuiet (s : State) (x : Xfer) : Bool :=
  qpIds.all fun n => !((s.qp n).flight ++ (s.qp n).queue).any fun k => k.srcPtn = x.ptn && k.kind = 1 && k.xfer = x.id

/-- A READ of a DATA_OUT is answered with DATA (R366). -/
def execRead (qp : QpId) (h : QHdr) (len : Nat) (s : State) : Res State :=
  s.onQp qp h (s.readWaits h len) fun s =>
    match s.xferOut? h len with
    | none => if (s.ptn h.dstPtn).memberNode h.srcNode h.srcPtn then s else s.dropPkt qp
    | some x =>
      if decide (pktTag h ∈ x.seen) then s
      else
        match s.pRead h.dstPtn (Who.firmware.via qp) (x.addr + h.offset.toNat) len with
        | (s, .error c) => s.endXfer x (some c)
        | (s, .ok bs) =>
          let ks := cutPkts { dstNode := h.srcNode, dstPtn := h.srcPtn, srcPtn := x.ptn, vl := 3, kind := 1, enc := x.ep.enc, keyId := x.ep.keyId,
                              last := decide (h.offset.toNat + len = x.bytes), xfer := x.id, offset := h.offset, job := some x.hdr.queue } bs
          let s := { s with xfers := updFirst (fun y => y.id = x.id) (fun y => { y with moved := y.moved + len, sent := y.sent + ks.length, seen := y.seen ++ [pktTag h] }) s.xfers }
          s.sendAll (s.portsTo h.srcNode 0) x.sent ks

/-- Completes the transfers out whose bytes have all been read and acknowledged. -/
def State.finishOuts (s : State) (p : PtnId) : State :=
  (s.xfers.filter fun x => x.dir = 1 && x.ptn = p && x.moved ≥ x.bytes).foldl (fun s x => if s.xferQuiet x then s.endXfer x none else s) s

/-- The destination acknowledges a packet: its credit returns, and a waiting packet may start (R307, R359). -/
def execAck (qp : QpId) (p : PtnId) (cls : Fin 4) (pktNum : W64) (s : State) : Res State :=
  .next (
    if (s.qp qp).st ≠ 2 then s
    else ((s.updQp qp fun x =>
      { x with flight := dropFirst (fun k => k.srcPtn = p && k.pktNum = pktNum && (vlClass k.vl = some cls.val || vlClass k.vl = none)) x.flight }).giveQp qp []).finishOuts p)

/-! ## ROUTE_SET (R367) -/

def execRouteSet (h : Hdr) (portMask : W64) (first count : W16) (value : Byte) (s : State) : Res State :=
  .next (s.atOnce h 0x503 fun s =>
    if count = 0 || first.toNat + count.toNat > 8191 then (s, .error St.eParam)
    else
      let m : BitVec 8192 := BitVec.ofNat 8192 ((2 ^ count.toNat - 1) <<< first.toNat)
      ((qpIds.filter fun n => bitAt portMask.toNat n.val).foldl (fun s n => s.updQp n fun x => { x with routes := if value = 0 then x.routes &&& ~~~m else x.routes ||| m }) s,
        .ok ([doneItem], [])))

end Sys2Proof.Machine
end

