-- ==== Sys2Proof/Machine/Groups.lean ====
section
/-! DEFINITION. Communication groups: forming, rounds, exact reductions, thinned tensors, the optimiser, and how a round ends (R195 to R197, R370 to R387, R413, R414, R428). -/

namespace Sys2Proof.Machine

/-! ## Arithmetic of a reduction (R377) -/

/-- ceil(log2 N). -/
def clog (n : Nat) : Nat := if n ≤ 1 then 0 else (n - 1).log2 + 1

/-- A member's report: the largest floor(log2 |x|) of its finite non-zero elements, 0x8000 without one, and NONFINITE. -/
def expReport (xs : List W32) : BitVec 16 × Bool :=
  let vs := xs.map fun x => b32.decode x.toNat
  let es := (vs.filter fun v => !v.isNan && !v.isInf && !v.isZero).map (·.expo)
  ((match es with | [] => 0x8000 | e :: r => BitVec.ofInt 16 (r.foldl max e)), vs.any fun v => v.isNan || v.isInf)

/-- F and the mark of a bucket from the reports of its N members: 1 NONFINITE, 2 ZERO (R377, R379). -/
def scaleOf (n : Nat) (rs : List (Nat × BitVec 16 × Bool)) : BitVec 16 × BitVec 2 :=
  if rs.any fun r => r.2.2 then (0, 1)
  else match (rs.filter fun r => r.2.1 ≠ 0x8000).map fun r => r.2.1.toInt with
    | [] => (0, 2)
    | e :: r => (BitVec.ofInt 16 (30 - (clog n : Int) - r.foldl max e), 0)

/-- A member's integer for an element. -/
def quant (n : Nat) (f : BitVec 16) (x : W32) : W32 :=
  let lim : Int := 2 ^ (31 - clog n) - 1
  BitVec.ofInt 32 (max (-lim) (min lim ((b32.decode x.toNat).scale f.toInt).nearestInt))

/-- The reduced value of an element. -/
def reduced (f : BitVec 16) (s : W32) : Nat := (b32.round ((XVal.ofInt s.toInt).scale (-f.toInt))).1

/-! ## The optimiser (R196) -/

/-- One element: master weight and moments after a step. -/
def optStep (o : Opt) (adamw : Bool) (g w m v : Nat) : Ct (Nat × Nat × Nat) := do
  let g ← Ct.fmul g o.gradScale.toNat
  let g ← if adamw then pure g else do let d ← Ct.fmul o.wd.toNat w; Ct.fadd g d
  let a ← Ct.fmul o.b1.toNat m
  let b ← Ct.fmul o.c1.toNat g
  let m ← Ct.fadd a b
  let a ← Ct.fmul o.b2.toNat v
  let q ← Ct.fmul g g
  let b ← Ct.fmul o.c2.toNat q
  let v ← Ct.fadd a b
  let r ← Ct.fsqrt v
  let d ← Ct.fadd r o.eps.toNat
  let q ← Ct.fdiv m d
  let u ← Ct.fmul o.lrT.toNat q
  let w1 ← Ct.fsub w u
  let w1 ← if adamw then do let d ← Ct.fmul o.wd.toNat w; Ct.fsub w1 d else pure w1
  pure (w1, m, v)

/-- A value converted to binary16 under the command's rounding, as a binary16 pattern (R43, R45, R49). -/
def toHalf (sr : Option Nat) (w : Nat) : Ct Nat := Ct.lift (noted (b32.decode w) (toLong b16 sr (b32.decode w)))

/-- A parameter as returned: binary32, or rounded to binary16 and held as its binary32 pattern. -/
def paramOut (half : Bool) (sr : Option Nat) (w : Nat) : Ct W32 :=
  if half then do let h ← toHalf sr w; pure (BitVec.ofNat 32 (b32.round (b16.decode h)).1)
  else pure (BitVec.ofNat 32 w)

/-- The optimiser on consecutive elements from `start`; with `skip` every element stays and is returned as it is (R197). `sr` gives an element's random word (R47). -/
def optBucket (sr : Nat → Option Nat) (o : Opt) (adamw half skip : Bool) (gs : List Nat) (start : Nat) (w : WSet) : Ct (WSet × List W32) :=
  gs.zipIdx.foldlM (fun (a : WSet × List W32) e => do
    let i := start + e.2
    let w := a.1
    if skip then do let x ← paramOut half (sr i) (w.master.get 0 i).toNat; pure (w, a.2 ++ [x])
    else do
      let n ← optStep o adamw e.1 (w.master.get 0 i).toNat (w.m.get 0 i).toNat (w.v.get 0 i).toNat
      let x ← paramOut half (sr i) n.1
      pure ({ w with master := w.master.put 0 i (BitVec.ofNat 32 n.1), m := w.m.put 0 i (BitVec.ofNat 32 n.2.1), v := w.v.put 0 i (BitVec.ofNat 32 n.2.2) }, a.2 ++ [x])) (w, [])

/-- Writes a parameter into the target version buffer (R193). -/
def WSet.putTarget (w : WSet) (i : Nat) (v : W32) : WSet :=
  if w.two && (w.version.toNat + 1) % 2 = 1 then { w with buf1 := w.buf1.put 0 i v } else { w with buf0 := w.buf0.put 0 i v }

def WSet.putTargets (w : WSet) (i : Nat) (vs : List W32) : WSet := vs.zipIdx.foldl (fun w e => w.putTarget (i + e.2) e.1) w

/-- The new version becomes current (R193). -/
def WSet.advance (w : WSet) (half : Bool) : WSet := { w with version := w.version + 1, writing := false, updated := true, b16 := half }

/-! ## Thinning (R386, R387) -/

/-- SUM of products, and SUMSQ, of columns as R97 folds them. -/
def dotCol (a b : List Nat) : Ct Nat :=
  let r := reduce 0 false none ((a.zip b).map fun e => some ((b32.decode e.1).mul (b32.decode e.2)))
  Ct.lift (r.res.toNat, r.ev)
def sumsqCol (a : List Nat) : Ct Nat :=
  let r := reduce 1 false none (a.map fun x => some (b32.decode x))
  Ct.lift (r.res.toNat, r.ev)

/-- A column less its projection on another. -/
def mgsLess (c q : List Nat) : Ct (List Nat) := do
  let p ← dotCol c q
  (c.zip q).mapM fun e => do let x ← Ct.fmul p e.2; Ct.fsub e.1 x

/-- Columns made orthonormal in ascending order; a column whose SUMSQ is +0 stays +0. -/
def mgs (cols : List (List Nat)) : Ct (List (List Nat)) :=
  cols.foldlM (fun done c => do
    let c ← done.foldlM mgsLess c
    let n ← sumsqCol c
    if (b32.decode n).isZero then pure (done ++ [c.map fun _ => 0])
    else do
      let r ← Ct.fsqrt n
      let c ← c.mapM fun x => Ct.fdiv x r
      pure (done ++ [c])) []

/-- mgs of an array of `rank` columns in row-major order. -/
def mgsRows (rank : Nat) (xs : List W32) : Ct (List W32) := do
  let rows := xs.length / rank
  let cs ← mgs ((List.range rank).map fun j => (List.range rows).map fun i => (xs.getD (i * rank + j) 0).toNat)
  pure ((List.range (rows * rank)).map fun e => BitVec.ofNat 32 ((cs.getD (e % rank) []).getD (e / rank) 0))

def transposeW (m n : Nat) (a : List W32) : List W32 := (List.range (m * n)).map fun e => a.getD ((e % m) * n + e / m) 0

/-- The first basis of a tensor (R387). -/
def firstBasis (group : W32) (tensor n : Nat) : List W32 :=
  (List.range n).map fun i => if srWord group.toNat tensor i < 2 ^ 31 then 0x3F800000 else 0xBF800000

/-- A tensor that is thinned (R386). -/
def thinned (g : GroupBlock) (t : TensorDesc) : Bool := g.thin && t.rows.toNat ≥ 8 * g.rank.toNat && t.cols.toNat ≥ 8 * g.rank.toNat && decide (0 < g.rank.toNat)

/-! ## Access to rounds -/

namespace State

def updRound (s : State) (p : PtnId) (g : W32) (num : W64) (f : Round → Round) : State :=
  s.updGroup p g fun y => { y with rounds := updFirst (fun r => r.num = num) f y.rounds }

def updBucket (s : State) (p : PtnId) (g : W32) (num : W64) (b : Nat) (f : Bucket → Bucket) : State :=
  s.updRound p g num fun r => { r with buckets := updNth f r.buckets b }

def round? (s : State) (p : PtnId) (g : W32) (num : W64) : Option (Group × Round) :=
  match (s.ptn p).group? g with
  | some y => (y.rounds.find? fun r => r.num = num).map fun r => (y, r)
  | none => none

end State

def Group.n (g : Group) : Nat := g.block.members.length
def Group.self (g : Group) : Nat := g.block.self.toNat
def Group.owns (g : Group) (b : Nat) : Bool := b % g.n = g.self
def Group.member? (g : Group) (node : BitVec 13) (ptn : BitVec 5) : Option Nat := g.block.members.findIdx? fun m => m.1 = node && m.2 = ptn

/-- Elements of a bucket in the reduction in progress: of P, of Q′, or of the gradient (R375, R386). -/
def Bucket.elems (b : Bucket) : Nat := b.vals.length

/-- Accumulation areas an owner has in use, of its four (R376). -/
def Group.areas (g : Group) : Nat :=
  (g.rounds.map fun r => (r.buckets.filter fun b => match b.scale with | some f => f.2 = 0 && b.out.isNone && !b.sent | none => false).length).sum

/-- Sends packets to one member; a member does not send to itself. The layout of group payloads after the header of R362 is the model's (DESIGN CHOICE, log entry 25). -/
def State.toMember (s : State) (p : PtnId) (g : Group) (i : Nat) (kind : Byte) (vl : BitVec 4) (round : W64) (b : Nat) (body : List Byte) : State :=
  match g.block.members[i]? with
  | none => s
  | some m =>
    if i = g.self then s
    else
      let cs := if body = [] then [[]] else chunks 16360 (ceilDiv body.length 16360) body
      s.sendPkts 0 (cs.zipIdx.map fun c =>
        { dstNode := m.1, dstPtn := m.2, srcPtn := p, vl := vl, kind := kind, enc := g.block.enc, keyId := g.block.keyId, last := c.2 + 1 = cs.length,
          job := (g.rounds.find? (·.num = round)).map (·.hdr.queue), xfer := BitVec.ofNat 32 b, offset := BitVec.ofNat 64 (16360 * c.2), payload := groupHead g round ++ c.1 })

/-! ## The end of a round -/

namespace State

/-- The item of a round ends, and its command goes on. -/
def endUpdate (s : State) (p : PtnId) (h : Hdr) (item : Nat) (set : Option Nat) (skipped : W32) (failed : Option Status) : State :=
  let s := s.updRun p h fun r => { r with leftUpd := match set with | some k => r.leftUpd.filter (· ≠ k) | none => r.leftUpd, skipped := r.skipped + skipped }
  ((((s.closeItem h item failed).refreshLoss h).settle h)).pumpTrain p

def workSet (w : RoundWork) : Option Nat := match w with | .update _ k _ _ _ => some k | .reduce _ _ _ _ => none

/-- PARAM of every bucket has been written: the version becomes current, and ROUNDS rises (R382). -/
def finishRound (s : State) (p : PtnId) (g : Group) (r : Round) : State :=
  let s := s.updGroup p g.block.group fun y =>
    { y with rounds := y.rounds.filter fun q => q.num ≠ r.num, nRounds := satInc y.nRounds, roundTotal := y.roundTotal + 1 }
  let s := match r.work with
    | .update m k _ _ _ => s.updPtn p fun x => x.updSet m k fun w => { w.advance g.block.pformat with grad := [] }
    | .reduce _ _ _ _ => s
  s.endUpdate p r.hdr r.item (workSet r.work) r.skipped none

/-- This member's item fails after it has sent EXP: the group restores (R384). -/
def failRound (s : State) (p : PtnId) (g : Group) (r : Round) (code : Status) : State :=
  let s := s.closeItem r.hdr r.item (some code)
  match (s.ptn p).group? g.block.group with
  | some g => s.abortGroup p g
  | none => s

/-! ## Steps of R376 at the member and at the owner -/

/-- Step 4: an owner adds a member's integers; a packet already added is discarded (R380). -/
def addGrad (s : State) (p : PtnId) (g : W32) (num : W64) (b member off : Nat) (qs : List W32) : State :=
  s.updBucket p g num b fun k =>
    if decide ((member, off) ∈ k.added) || k.out.isSome || k.sent then k
    else { k with added := k.added ++ [(member, off)], count := k.count.put 0 member (k.count.get 0 member + qs.length)
                  acc := qs.zipIdx.foldl (fun a e => a.put 0 (off / 4 + e.2) (a.get 0 (off / 4 + e.2) + e.1)) k.acc }

/-- Step 3: a member has F or a mark; it converts its elements and sends them to the owner (R377, R379). -/
def memberScale (s : State) (p : PtnId) (g : W32) (num : W64) (b : Nat) (f : BitVec 16) (mark : BitVec 2) : State :=
  match s.round? p g num with
  | none => s
  | some (y, r) =>
    match r.buckets[b]? with
    | none => s
    | some k =>
      let s := s.updBucket p g num b fun k => { k with scale := some (f, mark) }
      if mark ≠ 0 then s
      else
        let qs := k.vals.map (quant y.n f)
        if y.owns b then s.addGrad p g num b y.self 0 qs
        else s.toMember p y (b % y.n) 0x13 4 num b (qs.flatMap fun q => leBytes 4 q.toNat)

/-- Step 2: an owner with all N reports and a free area sets F or a mark and tells every member. -/
def setScale (s : State) (p : PtnId) (g : W32) (num : W64) (b : Nat) : State :=
  match s.round? p g num with
  | none => s
  | some (y, r) =>
    match r.buckets[b]? with
    | none => s
    | some k =>
      if !y.owns b || k.scale.isSome || k.exps.length < y.n || y.areas ≥ 4 then s
      else
        let f := scaleOf y.n k.exps
        let s := (List.range y.n).foldl (fun s i => s.toMember p y i 0x12 1 num b (leBytes 4 b ++ leBytes 2 f.1.toNat ++ leBytes 2 f.2.toNat)) s
        s.memberScale p g num b f.1 f.2

def setScales (s : State) (p : PtnId) (g : W32) : State :=
  match (s.ptn p).group? g with
  | none => s
  | some y => y.rounds.foldl (fun s r => (List.range r.buckets.length).foldl (fun s b => s.setScale p g r.num b) s) s

/-- An owner has a member's report of a bucket. -/
def addExp (s : State) (p : PtnId) (g : W32) (num : W64) (b member : Nat) (e : BitVec 16) (nf : Bool) : State :=
  (s.updBucket p g num b fun k => if k.exps.any (·.1 = member) then k else { k with exps := k.exps ++ [(member, e, nf)] }).setScales p g

/-- Step 1: a member reports a bucket to its owner. -/
def sendExp (s : State) (p : PtnId) (g : W32) (num : W64) (b : Nat) : State :=
  match s.round? p g num with
  | none => s
  | some (y, r) =>
    match r.buckets[b]? with
    | none => s
    | some k =>
      let e := expReport k.vals
      if y.owns b then s.addExp p g num b y.self e.1 e.2
      else s.toMember p y (b % y.n) 0x11 1 num b (leBytes 4 b ++ leBytes 2 e.1.toNat ++ leBytes 2 (b2n e.2))

/-! ## Opening a round (R375, R383) -/

/-- Opens the group's next round; one that a member has ended already fails at once. -/
def openRound (s : State) (p : PtnId) (g : Group) (h : Hdr) (item : Nat) (work : RoundWork) (buckets : List Bucket) : State :=
  let id := g.block.group
  let num := g.opened + 1
  if decide (num ∈ g.absents) then
    let s := s.updGroup p id fun y => { y with opened := num, absents := y.absents.filter (· ≠ num), aborts := satInc y.aborts }
    s.endUpdate p h item (workSet work) 0 (some St.eIncomplete)
  else
    let mine := g.heldExps.filter fun e => e.1 = num
    let s := s.updGroup p id fun y => { y with
      opened := num, rounds := y.rounds ++ [{ num := num, hdr := h, item := item, work := work, buckets := buckets, expSent := true }]
      heldExps := y.heldExps.filter fun e => e.1 ≠ num }
    let s := match work with
      | .update m k _ _ _ => s.updPtn p fun x => x.updSet m k fun w => { w with writing := true, group := id }
      | .reduce _ _ _ _ => s
    let s := (List.range buckets.length).foldl (fun s b => s.sendExp p id num b) s
    mine.foldl (fun s e => s.addExp p id num e.2.1 e.2.2.1 e.2.2.2.1 e.2.2.2.2) s

/-- Elements cut into buckets (R375). -/
def cutBuckets (log2 : Nat) (vals : List W32) : List Bucket :=
  let n := 2 ^ log2 / 4
  (chunks n (ceilDiv vals.length n) vals).zipIdx.map fun e => { start := n * e.2, len := e.1.length, vals := e.1 }

end State

/-- This member's gradient of a set: the SUM of each entry of its gradient area (R188, R375). -/
def gradOf (area : Tab Entry) (n : Nat) : List W32 := (List.range n).map fun i => (area.get {} i).sum

/-- Gradient of a thinned tensor with the residual that FEEDBACK adds. -/
def adjusted (g : GroupBlock) (w : WSet) (gs : List W32) : Ct (List W32) :=
  if g.feedback then gs.zipIdx.mapM fun e => do let x ← Ct.fadd e.1.toNat (w.resid.get 0 e.2).toNat; pure (BitVec.ofNat 32 x) else pure gs

/-- The basis of a set: the first one until a round has brought another. -/
def WSet.basisList (w : WSet) (group : W32) (n : Nat) : List W32 := if w.basis = [] then firstBasis group w.tensor n else w.basis.getList 0 0 n

/-- Buckets of an update's round. -/
def Group.updateBuckets (g : Group) (im : Image) (w : WSet) (gs : List W32) : Ct (List Bucket) :=
  let t := im.tensors.getD w.tensor {}
  if thinned g.block t then
    let q := w.basisList g.block.group (t.cols.toNat * g.block.rank.toNat)
    do
      let a ← adjusted g.block w gs
      let p ← q6Product t.rows.toNat t.cols.toNat g.block.rank.toNat a q
      pure [{ start := 0, len := a.length, thin := true, vals := p }]
  else pure (State.cutBuckets g.block.bucketLog2.toNat gs)

/-! ## Closing a bucket (R376 step 5, R386, R428) -/

/-- Every member's packets are in, or a mark says that none come. -/
def Group.bucketFull (g : Group) (b : Bucket) : Bool :=
  match b.scale with
  | some f => f.2 ≠ 0 || (List.range g.n).all fun m => b.count.get 0 m ≥ b.elems
  | none => false

/-- The reduced elements of a bucket. -/
def Bucket.sums (b : Bucket) : List Nat :=
  match b.scale with
  | some f => if f.2 = 0 then (List.range b.elems).map fun i => reduced f.1 (b.acc.get 0 i) else List.replicate b.elems 0
  | none => []

def Bucket.nonfinite (b : Bucket) : Bool := match b.scale with | some f => f.2 = 1 | none => false

/-- The owner's result for a thinned bucket: P̂ first; then parameters and the next basis. -/
def thinOut (sr : Nat → Option Nat) (g : Group) (t : TensorDesc) (o : Opt) (adamw : Bool) (b : Bucket) (w : WSet) : Ct (WSet × List W32) :=
  let rank := g.block.rank.toNat
  let n := t.rows.toNat * t.cols.toNat
  if b.nonfinite then optBucket sr o adamw g.block.pformat true (List.replicate n 0) 0 w
  else
    let sums := b.sums.map fun x => BitVec.ofNat 32 x
    if b.stage = 0 then do let p ← mgsRows rank sums; pure (w, p)
    else do
      let gh ← q6Product t.rows.toNat rank t.cols.toNat b.phat (transposeW t.cols.toNat rank sums)
      let r ← optBucket sr o adamw g.block.pformat false (gh.map (·.toNat)) 0 w
      let q ← mgsRows rank sums
      pure (r.1, r.2 ++ q)

/-- A member's second product of a thinned tensor, Q′, and its next residual G − P̂ · Q′ᵀ, which FEEDBACK keeps (R386, R387). -/
def thinSecond (g : GroupBlock) (t : TensorDesc) (w : WSet) (gs phat : List W32) : Ct (List W32 × List W32) := do
  let rank := g.rank.toNat
  let a ← adjusted g w gs
  let q ← q6Product t.cols.toNat t.rows.toNat rank (transposeW t.rows.toNat t.cols.toNat a) phat
  if g.feedback then do
    let e ← q6Product t.rows.toNat rank t.cols.toNat phat (transposeW t.cols.toNat rank q)
    let d ← (a.zip e).mapM fun d => do let x ← Ct.fsub d.1.toNat d.2.toNat; pure (BitVec.ofNat 32 x)
    pure (q, d)
  else pure (q, [])

/-- The owner's result for a bucket of a REDUCE (R385). -/
def reduceOut (sr : Nat → Option Nat) (half : Bool) (b : Bucket) : Ct (List W32) :=
  if b.nonfinite then do
    let _ ← Ct.lift ((), evNan)
    pure (List.replicate b.elems (BitVec.ofNat 32 (if half then b16.qnan else b32.qnan)))
  else b.sums.zipIdx.mapM fun x => if half then do let h ← toHalf (sr (b.start + x.2)) x.1; pure (BitVec.ofNat 32 h) else pure (BitVec.ofNat 32 x.1)

namespace State

/-- The owner's work on a full bucket: the optimiser's step, or the sum; the cores that did it owe a closing strip. -/
def closeBucket (s : State) (p : PtnId) (g : Group) (r : Round) (b : Nat) (k : Bucket) : State :=
  let id := g.block.group
  let sr := match s.cmdOf r.hdr with | some c => c.srOf | none => fun _ => none
  match r.work with
  | .reduce half _ _ _ =>
    let o := (reduceOut sr half k).run'
    (s.updBucket p id r.num b fun k => { k with out := some o.1 }).addSheet r.hdr (·.addEv o.2)
  | .update m set adamw opt _ =>
    match (s.ptn p).model? m, (s.ptn p).set? m set with
    | some y, some w =>
      let t := y.image.tensors.getD w.tensor {}
      let o := (if k.thin then thinOut sr g t opt adamw k w else optBucket sr opt adamw g.block.pformat k.nonfinite k.sums k.start w).run'
      let us := s.jobUnits p r.hdr.queue
      let s := (s.updPtn p fun x => x.updSet m set fun _ => o.1.1).addSheet r.hdr (·.addEv o.2)
      let s := s.updBucket p id r.num b fun k => { k with out := some o.1.2 }
      let s := if k.nonfinite then s.updRound p id r.num fun r => { r with skipped := satInc r.skipped } else s
      let s := s.addUnits r.hdr [r.item] us
      us.foldl (fun s u => s.updMc u fun c => { c with strip := { c.strip with st := if c.strip.st = .idle then .due else c.strip.st } }) s
    | _, _ => s

/-- A round's masters, moments, buffers or result lie in LPDDR5X and no slot serves them (R195, R510). -/
def roundWaits (s : State) (p : PtnId) (r : Round) : Bool :=
  match r.work with
  | .update _ _ _ _ _ => s.starved p
  | .reduce _ n _ dst => s.noSlot p dst (4 * n)

/-- What a member does once a bucket's parameters are complete: a thinned bucket goes on from P to Q′ (R386, R387), any other is written. -/
def paramsDone (s : State) (p : PtnId) (g : W32) (num : W64) (b : Nat) : State :=
  match s.round? p g num with
  | none => s
  | some (y, r) =>
    match r.buckets[b]?, r.work with
    | some k, .update m set _ _ grad =>
      let t := match (s.ptn p).model? m, (s.ptn p).set? m set with | some z, some w => z.image.tensors.getD w.tensor {} | _, _ => {}
      if k.thin && k.stage = 0 && !k.nonfinite then
        let w := ((s.ptn p).set? m set).getD {}
        let o := (thinSecond y.block t w grad k.phat).run'
        let s := s.addSheet r.hdr (·.addEv o.2)
        let s := if y.block.feedback then s.updPtn p fun x => x.updSet m set fun w => { w with resid := Tab.putList 0 [] 0 o.1.2 } else s
        let s := s.updBucket p g num b fun k => { k with vals := o.1.1, exps := [], scale := none, acc := [], added := [], count := [], out := none, sent := false, params := [], got := 0, stage := 1 }
        s.sendExp p g num b
      else s.updBucket p g num b fun k => { k with written := true }
    | _, _ => s.updBucket p g num b fun k => { k with written := true }

/-- Elements that PARAM brings for a bucket. -/
def paramElems (s : State) (p : PtnId) (y : Group) (r : Round) (k : Bucket) : Nat :=
  match r.work with
  | .reduce _ _ _ _ => k.elems
  | .update m set _ _ _ =>
    if !k.thin then k.elems
    else
      let t := match (s.ptn p).model? m, (s.ptn p).set? m set with | some z, some w => z.image.tensors.getD w.tensor {} | _, _ => {}
      let rank := y.block.rank.toNat
      if k.nonfinite then t.rows.toNat * t.cols.toNat
      else if k.stage = 0 then t.rows.toNat * rank else t.rows.toNat * t.cols.toNat + t.cols.toNat * rank

/-- Puts parameters where they belong: P̂, the target buffer, the next basis, or DST. -/
def storeParams (s : State) (p : PtnId) (y : Group) (r : Round) (b : Nat) (k : Bucket) (i : Nat) (vs : List W32) : Acc Unit :=
  let id := y.block.group
  match r.work with
  | .update m set _ _ _ =>
    if k.thin && k.stage = 0 && !k.nonfinite then (s.updBucket p id r.num b fun k => { k with phat := k.phat.take i ++ List.replicate (i - k.phat.length) 0 ++ vs ++ k.phat.drop (i + vs.length) }, .ok ())
    else
      let n := k.len
      let ps := (vs.zipIdx.filter fun e => !k.thin || i + e.2 < n).map (·.1)
      let bs := vs.zipIdx.filter fun e => k.thin && !(i + e.2 < n)
      (s.updPtn p fun x => x.updSet m set fun w =>
        let w := w.putTargets (k.start + i) ps
        { w with basis := bs.foldl (fun t e => t.put 0 (i + e.2 - n) e.1) w.basis }, .ok ())
  | .reduce half _ _ dst =>
    let w := if half then 2 else 4
    s.pWrite p Who.firmware (dst + w * (k.start + i)) (vs.flatMap fun v => leBytes w v.toNat)

/-- Step 6: a member takes parameters at an element offset. -/
def memberParam (s : State) (p : PtnId) (g : W32) (num : W64) (b i : Nat) (vs : List W32) : State :=
  match s.round? p g num with
  | none => s
  | some (y, r) =>
    match r.buckets[b]? with
    | none => s
    | some k =>
      if decide (i ∈ k.params) || k.written then s
      else
        match s.storeParams p y r b k i vs with
        | (s, .error c) => s.failRound p y r c
        | (s, .ok _) =>
          let s := s.updBucket p g num b fun k => { k with params := k.params ++ [i], got := k.got + vs.length }
          if k.got + vs.length < s.paramElems p y r k then s
          else
            let s := s.paramsDone p g num b
            match s.round? p g num with
            | none => s
            | some (y, r) => if r.buckets.all (·.written) then s.finishRound p y r else s

/-- PARAM to every member. -/
def sendParam (s : State) (p : PtnId) (g : Group) (r : Round) (b : Nat) (out : List W32) : State :=
  let w := match r.work with | .update _ _ _ _ _ => (if g.block.pformat then 2 else 4) | .reduce half _ _ _ => if half then 2 else 4
  let bytes := out.flatMap fun v => match r.work with
    | .update _ _ _ _ _ => leBytes w (if g.block.pformat then (b16.round (b32.decode v.toNat)).1 else v.toNat)
    | .reduce _ _ _ _ => leBytes w v.toNat
  let s := s.updBucket p g.block.group r.num b fun k => { k with sent := true }
  let s := (List.range g.n).foldl (fun s i => s.toMember p g i 0x14 5 r.num b bytes) s
  (s.memberParam p g.block.group r.num b 0 out).setScales p g.block.group

/-- The first open round in which the owner can act on a bucket: lower buckets of its own are taken first. -/
def closable (g : Group) (b : Nat) (r : Round) : Bool :=
  match r.buckets[b]? with
  | none => false
  | some k => !k.sent && g.bucketFull k && (List.range b).all fun i => !g.owns i || (match r.buckets[i]? with | some j => j.sent || j.written | none => true)

end State

/-- BUCKET_CLOSE, in two rows for an update: the owner's work on the bucket, and PARAM once the cores that did it have passed their closing strips; a failed one ends the item with E_HW_FAULT (R376, R380, R428). -/
def execBucketClose (p : PtnId) (group : W32) (bucket : Nat) (s : State) : Res State :=
  .next (
    match (s.ptn p).group? group with
    | none => s
    | some g =>
      if !g.owns bucket then s
      else
        match g.rounds.find? (State.closable g bucket) with
        | none => s
        | some r =>
          match r.buckets[bucket]? with
          | none => s
          | some k =>
            if (s.job p r.hdr.queue).st ≠ .running || s.roundWaits p r then s
            else match k.out with
              | none => (s.closeBucket p g r bucket k).setScales p group
              | some out =>
                let it := match s.cmdOf r.hdr with | some c => c.items.getD r.item {} | none => {}
                match r.work with
                | .reduce _ _ _ _ => s.sendParam p g r bucket out
                | .update _ _ _ _ _ =>
                  if it.suspect then s.failRound p g r St.eHwFault
                  else if !it.units.isEmpty then s
                  else s.sendParam p g r bucket out)

/-! ## Packets of a group (R366, R369, R373, R376, R383, R384) -/

/-- A group packet: of a group the partition holds, of its current epoch, from a member. -/
def State.onGroup (s : State) (qp : QpId) (h : QHdr) (g : GHdr) (wait : Bool) (f : State → Group → Nat → State) : Res State :=
  s.onQp qp h wait fun s =>
    match (s.ptn h.dstPtn).group? g.group with
    | none => if (s.ptn h.dstPtn).memberNode h.srcNode h.srcPtn then s else s.dropPkt qp
    | some y =>
      if g.epoch ≠ y.epoch then (s.dropPkt qp).updGroup h.dstPtn g.group fun y => { y with stale := satInc y.stale }
      else match y.member? h.srcNode h.srcPtn with
        | none => s
        | some m => f s y m

/-- A packet of an open round whose number has been accepted is discarded. -/
def State.inRound (s : State) (h : QHdr) (g : GHdr) (f : State → Group → Round → State) : State :=
  match s.round? h.dstPtn g.group g.round with
  | none => s
  | some (y, r) =>
    if decide (pktTag h ∈ r.seen) then s
    else f (s.updRound h.dstPtn g.group g.round fun r => { r with seen := r.seen ++ [pktTag h] }) y r

def execExp (qp : QpId) (h : QHdr) (g : GHdr) (bucket : Nat) (e : BitVec 16) (nonfinite : Bool) (s : State) : Res State :=
  s.onGroup qp h g false fun s y m =>
    if y.st = .active && decide (y.opened.toNat < g.round.toNat) then
      if y.heldExps.any fun x => x.1 = g.round && x.2.1 = bucket && x.2.2.1 = m then s
      else s.updGroup h.dstPtn g.group fun y => { y with heldExps := y.heldExps ++ [(g.round, bucket, m, e, nonfinite)] }
    else s.inRound h g fun s y _ => if y.owns bucket then s.addExp h.dstPtn g.group g.round bucket m e nonfinite else s

def execScale (qp : QpId) (h : QHdr) (g : GHdr) (bucket : Nat) (f : BitVec 16) (mark : BitVec 2) (s : State) : Res State :=
  s.onGroup qp h g false fun s _ m => s.inRound h g fun s y r =>
    if bucket % y.n = m && !(match r.buckets[bucket]? with | some k => k.scale.isSome | none => true) then s.memberScale h.dstPtn g.group g.round bucket f mark else s

/-- The receive unit adds without the job running (R380). -/
def execGrad (qp : QpId) (h : QHdr) (g : GHdr) (bucket : Nat) (vals : List W32) (s : State) : Res State :=
  s.onGroup qp h g false fun s _ m => s.inRound h g fun s y _ =>
    if y.owns bucket then s.addGrad h.dstPtn g.group g.round bucket m h.offset.toNat vals else s

/-- A packet of an open round whose data no slot serves: it waits where it is (R510). -/
def State.paramWaits (s : State) (h : QHdr) (g : GHdr) : Bool :=
  match s.round? h.dstPtn g.group g.round with
  | some (y, r) => g.epoch = y.epoch && (y.member? h.srcNode h.srcPtn).isSome && !decide (pktTag h ∈ r.seen) && s.roundWaits h.dstPtn r
  | none => false

/-- Values as the packet carries them, binary16 patterns in a group of binary16 parameters. -/
def execParam (qp : QpId) (h : QHdr) (g : GHdr) (bucket : Nat) (vals : List W32) (s : State) : Res State :=
  s.onGroup qp h g (s.paramWaits h g) fun s _ m => s.inRound h g fun s y r =>
    let half := match r.work with | .update _ _ _ _ _ => y.block.pformat | .reduce x _ _ _ => x
    let vs := match r.work with
      | .update _ _ _ _ _ => if half then vals.map fun v => BitVec.ofNat 32 (b32.round (b16.decode (v.toNat % 2 ^ 16))).1 else vals
      | .reduce _ _ _ _ => vals
    if bucket % y.n = m then s.memberParam h.dstPtn g.group g.round bucket (h.offset.toNat / (if half then 2 else 4)) vs else s

def execAbsent (qp : QpId) (h : QHdr) (g : GHdr) (s : State) : Res State :=
  s.onGroup qp h g false fun s y _ =>
    let p := h.dstPtn
    match y.rounds.find? fun r => r.num = g.round with
    | some r =>
      let s := s.updGroup p g.group fun y => { y with rounds := y.rounds.filter fun q => q.num ≠ g.round, aborts := satInc y.aborts }
      let s := match r.work with
        | .update m k _ _ _ => s.updPtn p fun x => x.updSet m k fun w => { w with writing := false }
        | .reduce _ _ _ _ => s
      s.endUpdate p r.hdr r.item (State.workSet r.work) 0 (some St.eIncomplete)
    | none => if y.st = .active && decide (y.opened.toNat < g.round.toNat) && !decide (g.round ∈ y.absents)
        then s.updGroup p g.group fun y => { y with absents := y.absents ++ [g.round], heldExps := y.heldExps.filter fun e => e.1 ≠ g.round } else s

def execAbort (qp : QpId) (h : QHdr) (g : GHdr) (s : State) : Res State := s.onGroup qp h g false fun s y _ => s.abortGroup h.dstPtn y

/-! ## Forming (R370 to R373, R413) -/

namespace State

/-- Opens the round of a REDUCE: its input is read first; one that cannot be read sends ABSENT (R383, R385). -/
def openReduce (s : State) (p : PtnId) (g : Group) (h : Hdr) : State :=
  match (s.cmdOf h).bind (·.cmd) with
  | some (.reduce _ _ half elems src dst) =>
    match s.pRead p Who.firmware src.toNat (4 * elems.toNat) with
    | (s, .error c) => ((s.sendAbsent p g.block.group).closeItem h 0 (some c)).settle h
    | (s, .ok bs) =>
      let vals := (List.range elems.toNat).map fun i => BitVec.ofNat 32 (leNat ((bs.drop (4 * i)).take 4))
      s.openRound p g h 0 (.reduce half elems.toNat src.toNat dst.toNat) (cutBuckets g.block.bucketLog2.toNat vals)
  | _ => s

/-- The group becomes ACTIVE: its rounds are numbered from 1, and a REDUCE that waited begins. -/
def activate (s : State) (p : PtnId) (id : W32) : State :=
  match (s.ptn p).group? id with
  | none => s
  | some g =>
    let s := s.updGroup p id fun y => { y with
      st := .active, opened := 0, waiting := [], heldExps := [], absents := [], nRounds := if y.st = .restoring then BitVec.ofNat 32 (min y.roundTotal.toNat 0xFFFFFFFF) else y.nRounds }
    g.waiting.foldl (fun s w => match (s.ptn p).group? id with | some g => s.openReduce p g w.1 | none => s) s

/-- ACTIVE once every other member's JOIN is there, and, after RESTORING, this member may join too. -/
def tryActive (s : State) (p : PtnId) (id : W32) : State :=
  match (s.ptn p).group? id with
  | none => s
  | some g =>
    if g.joined.length + 1 ≥ g.n && (g.st = .forming || (g.st = .restoring && g.restored && g.newEpoch)) then s.activate p id else s

/-- A member's first JOIN is answered with a JOIN to it, since it may have taken the group after this member's own JOIN went out (DEDUCED, log entry 52). -/
def answerJoin (s : State) (p : PtnId) (g : Group) (m : Nat) : State :=
  s.toMembers p { g with block := { g.block with members := (g.block.members.drop m).take 1, self := 1 } } 0x10 1 (groupHead g 0 ++ leBytes 8 g.roundTotal.toNat)

def sendJoin (s : State) (p : PtnId) (g : Group) : State := s.toMembers p g 0x10 1 (groupHead g 0 ++ leBytes 8 g.roundTotal.toNat)

/-- JOIN goes out in FORMING, and in RESTORING once both conditions of R413 hold (DEDUCED, log entry 52). -/
def joinNow (s : State) (p : PtnId) (id : W32) : State :=
  match (s.ptn p).group? id with
  | none => s
  | some g => if g.st = .forming || (g.st = .restoring && g.restored && g.newEpoch) then (s.sendJoin p g).tryActive p id else s

end State

def execJoin (qp : QpId) (h : QHdr) (g : GHdr) (roundTotal : W64) (s : State) : Res State :=
  s.onGroup qp h g false fun s y m =>
    let ready := y.st = .forming || y.restored
    let s' := if decide (m ∈ y.joined) || !ready then s else s.answerJoin h.dstPtn y m
    let add := (s'.updGroup h.dstPtn g.group fun y => { y with joined := if decide (m ∈ y.joined) then y.joined else y.joined ++ [m] }).tryActive h.dstPtn g.group
    let stale := (s.dropPkt qp).updGroup h.dstPtn g.group fun y => { y with stale := satInc y.stale }
    match y.st with
    | .active => s
    | .forming => add
    | .restoring => if y.newEpoch && roundTotal = y.roundTotal then add else stale

/-- The fields of a GROUP_SET block are in range (R371). -/
def groupBad (s : State) (p : PtnId) (b : GroupBlock) : Bool :=
  b.group = 0xFFFFFFFF || b.members = [] || b.members.length > 4096 || b.self.toNat ≥ b.members.length || b.epoch = 0 ||
  b.bucketLog2.toNat < 20 || b.bucketLog2.toNat > 27 || (b.thin && (b.rank.toNat < 4 || b.rank.toNat > 64 || b.rank.toNat % 4 ≠ 0)) ||
  (b.enc && b.keyId.toNat > 15) || (b.timeoutMs ≠ 0 && (b.timeoutMs.toNat < 100 || b.timeoutMs.toNat > 60000)) ||
  b.members.eraseDups.length ≠ b.members.length || b.members[b.self.toNat]? ≠ some (s.mod.node, BitVec.ofNat 5 p.val)

def execGroupSet (h : Hdr) (g : GroupBlock) (s : State) : Res State :=
  .next (s.queuedDone h 0x501 (.groupSet h g) fun s =>
    let p := h.ptn
    let x := s.ptn p
    if groupBad s p g then (s, .error St.eParam)
    else
      match x.group? g.group with
      | some y =>
        if g = y.block then (s, .ok (doneItem, []))
        else if g.epoch.toNat ≤ y.epoch.toNat then (s, .error St.eParam)
        else if !y.rounds.isEmpty then (s, .error St.eBusy)
        else if !x.ergFits (4 * 2 ^ g.bucketLog2.toNat - 4 * 2 ^ y.block.bucketLog2.toNat) then (s, .error St.eErgFull)
        else
          let s := s.updGroup p g.group fun y => { y with
            block := g, epoch := g.epoch, joined := [], heldExps := [], absents := [], opened := 0, newEpoch := decide (y.maxEpoch.toNat < g.epoch.toNat)
            maxEpoch := if y.maxEpoch.toNat < g.epoch.toNat then g.epoch else y.maxEpoch, st := if y.st = .restoring then .restoring else .forming }
          let s := s.updPtn p (·.trim 0)
          (s.joinNow p g.group, .ok (doneItem, []))
      | none =>
        if x.groups.length ≥ 16 then (s, .error St.eBusy)
        else if !x.ergFits (4 * 2 ^ g.bucketLog2.toNat) then (s, .error St.eErgFull)
        else
          let s := s.updPtn p fun x => { x with groups := x.groups ++ [{ block := g, epoch := g.epoch, maxEpoch := g.epoch }] }
          let s := s.updPtn p (·.trim 0)
          (s.joinNow p g.group, .ok (doneItem, [])))

def execGroupLeave (h : Hdr) (group : W32) (s : State) : Res State :=
  .next (s.queuedDone h 0x502 (.groupLeave h group) fun s =>
    match (s.ptn h.ptn).group? group with
    | none => (s, .error St.eParam)
    | some y =>
      if !y.rounds.isEmpty then (s, .error St.eBusy)
      else
        let s := s.updPtn h.ptn fun x => { x with groups := x.groups.filter fun z => z.block.group ≠ group }
        (y.waiting.foldl (fun s w => s.endUpdate h.ptn w.1 w.2 none 0 (some St.eIncomplete)) s, .ok (doneItem, [])))

/-- TIMEOUT_MS has passed: items that wait in FORMING fail, and an open round ends in RESTORING (R373, R384). -/
def execGroupTimeout (p : PtnId) (group : W32) (s : State) : Res State :=
  .next (
    match (s.ptn p).group? group with
    | none => s
    | some g =>
      if g.st = .forming then
        let s := s.updGroup p group fun y => { y with waiting := [] }
        g.waiting.foldl (fun s w => s.endUpdate p w.1 w.2 none 0 (some St.eIncomplete)) s
      else if g.st = .active && !g.rounds.isEmpty then s.abortGroup p g
      else s)

/-- The item of a REDUCE begins as its group stands (R373, R385). -/
def execReduce (h : Hdr) (group : W32) (outB16 : Bool) (elems src dst : W64) (s : State) : Res State :=
  .next (s.queued h 0x504 (.reduce h group outB16 elems src dst)
    (fun s => if elems = 0 || elems.toNat > 2 ^ 32 || ((s.ptn h.ptn).group? group).isNone then some St.eParam else none) (fun _ => 1) fun s =>
    match (s.ptn h.ptn).group? group with
    | none => s
    | some g =>
      let hd := match s.cmdOf h with | some c => c.hdr | none => h
      match g.st with
      | .active => s.openReduce h.ptn g hd
      | .forming => s.updGroup h.ptn group fun y => { y with waiting := y.waiting ++ [(hd, 0)] }
      | .restoring => s.closeItem h 0 (some St.eBusy))

end Sys2Proof.Machine
end

