-- ==== Sys2Proof/Machine/Models.lean ====
section
/-! DEFINITION. Model images and variants: loading, unloading, and who uses them (R171, R191, R204, R214, R215, R325, R328, R344, R346, R416). -/

namespace Sys2Proof.Machine

/-! ## MODEL_LOAD, MODEL_UNLOAD -/

/-- The weight sets of an image at version 0 (R191). -/
def Image.sets (im : Image) (two : Bool) (own shared : List Byte) (sharedW : Bool) : List WSet :=
  im.trainable.map fun i =>
    let t := im.tensors.getD i {}
    let w := tensorWords t (if sharedW || t.shared then shared else own)
    { tensor := i, two := two, buf0 := Tab.putList 0 [] 0 w, master := Tab.putList 0 [] 0 w }

/-- Bytes of the areas beside the image: version buffers, master weights and moments of each set, and turned copies (R171, R191, R195; DESIGN CHOICE, log entry 21). -/
def Image.areaBytes (im : Image) (two turned : Bool) : Nat :=
  let tr := (im.trainable.map fun i => tensorParams (im.tensors.getD i {})).sum
  tr * (if two then 20 else 16) + if turned then ((im.tensors.filter copiesTurned).map fun t => descBytes (turnedDesc t)).sum else 0

/-- The resident turned copies of an image's weights, which depend on nothing but their sources: SAT = 1, to nearest even (R171; DESIGN CHOICE, log entry 74). -/
def Image.turnedCopies (im : Image) (own shared : List Byte) (sharedW : Bool) : List (Nat × Tab W16) × Ev :=
  let cs := (im.tensors.mapIdx fun i t => (i, t)).filter fun e => copiesTurned e.2
  let made := cs.map fun e => (e.1, turnedCopy true (fun _ => none) e.2 (if sharedW || e.2.shared then shared else own))
  (made.map fun e => (e.1, e.2.1), made.foldl (fun a e => a.add e.2.2) {})

/-- A negative whose tensors refer to a shared region: whether the measurement differs from the source's, which no field of the image tells (R416; DESIGN CHOICE, log entry 28). -/
def State.sharedDiffers (s : State) (im : Image) (version : Nat) : State × Bool :=
  if version ≠ 0 && im.tensors.any (·.shared) then ({ s with fresh := s.fresh + 1 }, Config.free s.fresh 0 % 2 = 1) else (s, false)

/-- A checked image as it becomes resident: its handle, KV pool, areas and turned copies, and what making those counts (R50). -/
def State.newModel (s : State) (h : Hdr) (addr bytes : Nat) (flags : W32) (poolGib : Nat) (b : List Byte) (im : Image) : Except Status (Model × Ev) :=
  let x := s.ptn h.ptn
  let two := flags.getLsbD 1
  match freeHandle 0 (x.models.map (·.handle)) with
  | none => .error St.eBusy
  | some n =>
    let own := granulesOf addr bytes
    match x.takeGranules poolGib own with
    | none => .error St.eLpFull
    | some pool =>
      match x.takeGranules (ceilDiv (im.areaBytes two (flags.getLsbD 0)) gib) (own ++ pool) with
      | none => .error St.eLpFull
      | some areas =>
        let shared := if flags.getLsbD 2 || im.tensors.any (·.shared) then s.sharedBytes else []
        let w := match im.weights with | some w => (b.drop w.1).take w.2 | none => []
        let turned := if flags.getLsbD 0 then im.turnedCopies w shared (flags.getLsbD 2) else ([], {})
        .ok ({ handle := n, image := im, hash := sha256 b, flags := flags, addr := addr, bytes := bytes, version := BitVec.ofNat 64 (fld b 32 8),
               sets := im.sets two w shared (flags.getLsbD 2), pool := pool, areas := areas, turned := turned.1 }, turned.2)

/-- The model becomes resident, or the command fails. -/
def State.placeModel (s : State) (h : Hdr) (m : Except Status (Model × Ev)) : State × Except Status (Item × List Byte) :=
  match m with
  | .error c => (s, .error c)
  | .ok (m, ev) => ((s.updPtn h.ptn fun x => { x with models := x.models ++ [m] }).addSheet h (·.addEv ev), .ok (doneItem, loadResult m.handle 0 m.hash))

/-- The whole image is read and checked before anything is loaded (R348). -/
def execModelLoad (h : Hdr) (addr bytes : W64) (flags : W32) (kvPoolGib : W16) (s : State) : Res State :=
  .next (s.queuedDone h 0x220 (.modelLoad h addr bytes flags kvPoolGib) fun s =>
    if bytes.toNat < 64 then (s, .error St.eImage)
    else
      match s.pRead h.ptn Who.firmware addr.toNat bytes.toNat with
      | (s, .error c) => (s, .ok (failedItem c, loadResult 0 0 []))
      | (s, .ok b) =>
        match Image.load 1 bytes.toNat b (flags.getLsbD 2) s.mod.fill.toNat with
        | .error c => (s, .error c)
        | .ok im =>
          match s.sharedDiffers im (fld b 32 8) with
          | (s, true) => (s, .error St.eParam)
          | (s, false) => s.placeModel h (s.newModel h addr.toNat bytes.toNat flags kvPoolGib.toNat b im))

/-- Handles of models that a command names (R328). -/
def instrModels : Instr → List Nat
  | .distillStep h b _ => if h.expert then [] else [b.teacher.toNat, b.student.toNat]
  | .eval h b _ => if h.expert then [] else [b.teacher.toNat, b.student.toNat]
  | .update _ m _ _ _ _ => [m.toNat]
  | .genSubmit _ _ _ rs => rs.flatMap fun r => [r.model.toNat, r.draft.toNat, r.fallback.toNat]
  | .variantLoad _ m _ _ _ => [m.toNat]
  | .variantUnload _ m _ => [m.toNat]
  | .negativeShip _ m _ _ => [m.toNat]
  | .modelUnload _ m => [m.toNat]
  | _ => []

/-- A model is in use by anything but the command `h` (R328). -/
def Ptn.modelInUse (x : Ptn) (h : Hdr) (n : Nat) : Bool :=
  (x.flow.cmds.any fun c => !c.isOver && !(c.is h.queue h.seq) && decide (n ∈ (c.cmd.map instrModels).getD [])) ||
  (x.serve.streams.any fun t => t.req.model.toNat = n || t.req.draft.toNat = n || t.req.fallback.toNat = n) ||
  (x.train.mbs.any fun m => m.versions.any fun v => v.1 = n) ||
  x.serve.variants.any fun v => v.model = n && v.current

/-- A model is gone, and with it its areas of the working set, unless the same image stays resident under another handle (R328). -/
def Ptn.dropModel (x : Ptn) (h : Nat) : Ptn :=
  let left := x.models.filter fun m => m.handle ≠ h
  let own := fun (k : WorkKey) => match k with
    | .tensor i _ => (x.model? h).any (·.hash = i) && !left.any (·.hash = i)
    | .program i => (x.model? h).any (·.hash = i) && !left.any (·.hash = i)
    | .experts m _ _ => m = h
  { x with models := left, work := x.work.filter fun a => !own a.key }

def execModelUnload (h : Hdr) (handle : W16) (s : State) : Res State :=
  .next (s.queuedDone h 0x221 (.modelUnload h handle) fun s =>
    let x := s.ptn h.ptn
    if (x.model? handle.toNat).isNone then (s, .error St.eHandle)
    else if x.modelInUse h handle.toNat then (s, .error St.eBusy)
    else (s.updPtn h.ptn fun x => x.dropModel handle.toNat, .ok (doneItem, [])))

/-! ## Variants -/

def Serve.retireVariant (v : Serve) (model : Nat) (tag : W32) : Serve :=
  Serve.dropOld { v with variants := v.variants.map fun a => if a.model = model && a.tag = tag then { a with current := false } else a }

def Serve.variant? (v : Serve) (model : Nat) (tag : W32) : Option Variant := v.variants.find? fun a => a.current && a.model = model && a.tag = tag

/-- Writes bytes over whole granules of a partition, in their order. -/
def State.fillGranules (s : State) (p : PtnId) : List Nat → List Byte → Acc Unit
  | [], _ => (s, .ok ())
  | w :: ws, bs =>
    match s.pWrite p Who.firmware (winBase + w * gib) (bs.take gib) with
    | (s, .error c) => (s, .error c)
    | (s, .ok _) => s.fillGranules p ws (bs.drop gib)

/-- What an operation needs, or the code with which it fails. -/
def State.need {α : Type} (s : State) (x : Option α) (c : Status) : Acc α := (s, match x with | some a => .ok a | none => .error c)

/-- The set's bytes become a new expert table in granules of the firmware's choice, current for its customer's tag. The handle and the version number of the reply are free values (DESIGN CHOICE, log entry 29). -/
def State.loadVariant (s : State) (p : PtnId) (model : Nat) (tag : W32) (addr bytes : Nat) : Acc (Nat × W64 × List Byte) :=
  Acc.bind (s.pRead p Who.firmware addr bytes) fun s b =>
    Acc.bind (s.need ((s.ptn p).takeGranules (ceilDiv b.length gib) (granulesOf addr bytes)) St.eLpFull) fun s area =>
    Acc.bind (s.fillGranules p area b) fun s _ =>
      let ver : W64 := BitVec.ofNat 64 (Config.free s.fresh 0)
      let hd := Config.free s.fresh 1 % 2 ^ 16
      let hash := sha256 b
      (({ s with fresh := s.fresh + 1 } : State).updPtn p fun x =>
        let v := x.serve.retireVariant model tag
        { x with serve := { v with variants := v.variants ++ [{ model := model, tag := tag, version := ver, addr := addr, bytes := bytes, hash := hash, area := area }] } },
       .ok (hd, ver, hash))

/-- VARIANT_LOAD (R214). -/
def execVariantLoad (h : Hdr) (model : W16) (tag : W32) (addr bytes : W64) (s : State) : Res State :=
  .next (s.queuedDone h 0x222 (.variantLoad h model tag addr bytes) fun s =>
    if ((s.ptn h.ptn).model? model.toNat).isNone then (s, .error St.eHandle)
    else match s.loadVariant h.ptn model.toNat tag addr.toNat bytes.toNat with
      | (s, .error c) => (s, .ok (failedItem c, loadResult 0 0 []))
      | (s, .ok (hd, ver, hash)) => (s, .ok (doneItem, loadResult hd ver hash)))

def execVariantUnload (h : Hdr) (model : W16) (tag : W32) (s : State) : Res State :=
  .next (s.queuedDone h 0x223 (.variantUnload h model tag) fun s =>
    let x := s.ptn h.ptn
    if (x.model? model.toNat).isNone then (s, .error St.eHandle)
    else if (x.serve.variant? model.toNat tag).isNone then (s, .error St.eNoVariant)
    else (s.updPtn h.ptn fun x => { x with serve := x.serve.retireVariant model.toNat tag }, .ok (doneItem, [])))

end Sys2Proof.Machine
end

