-- ==== Sys2Proof/Machine/Checkpoint.lean ====
section
/-! DEFINITION. The byte string of a checkpoint: its sections as written at the snapshot point and as read by a restore (R395, R398, R399), and the model image of a negative (R416). The layout of the records within a section is the model's (DESIGN CHOICE, log entry 36). -/

namespace Sys2Proof.Machine

/-! ## What the sections hold (R395) -/

/-- A section: TYPE, COUNT and its bytes. -/
abbrev Part := Nat × Nat × List Byte

def words32 (vs : List W32) : List Byte := vs.flatMap fun v => leBytes 4 v.toNat
def words64 (vs : List W64) : List Byte := vs.flatMap fun v => leBytes 8 v.toNat

/-- Offsets in the PTN_ block of the configuration that REGS holds. -/
def regOffsets : List Nat := [0x300, 0x308, 0x310, 0x328, 0x100] ++ (List.range 8).map (0x108 + 8 * ·) ++ [0x448]

def State.regsPart (s : State) (p : PtnId) : Part :=
  let x := s.ptn p
  (1, 1, words64 (regOffsets.map (s.readPtn p)) ++
    queueIds.flatMap (fun q => leBytes 8 (((x.job q).lastSeq.getD 0).toNat + 2 ^ 32 * b2n (x.job q).lastSeq.isSome)) ++
    (List.range 256).flatMap fun i => leBytes 4 (x.sems.get {} i).count.toNat)

def State.modelsPart (s : State) (p : PtnId) : Part :=
  let x := s.ptn p
  let head := leBytes 8 (b2n x.sharedMapped) ++ (if x.sharedMapped then s.mod.hash ++ List.replicate (32 - s.mod.hash.length) 0 else List.replicate 32 0)
  (2, x.models.length, head ++ x.models.flatMap fun m => leBytes 4 m.handle ++ leBytes 4 m.flags.toNat ++ m.hash)

/-- The current version's buffer (R191). -/
def WSet.current (w : WSet) : Tab W32 := if w.two && w.version.toNat % 2 = 1 then w.buf1 else w.buf0
def WSet.putCurrent (w : WSet) (t : Tab W32) : WSet := if w.two && w.version.toNat % 2 = 1 then { w with buf1 := t } else { w with buf0 := t }

/-- Every trainable weight set with the index of its model, its own index, and its number of elements. -/
def Ptn.allSets (x : Ptn) : List (Nat × Nat × WSet × Nat) :=
  (x.models.mapIdx fun i m => m.sets.mapIdx fun k w => (i, k, w, tensorParams (m.image.tensors.getD w.tensor {}))).flatten

/-- The group that a set's buckets are owned under: none when the partition no longer holds it. -/
def Ptn.groupOf (x : Ptn) (w : WSet) : Option Group := x.group? w.group

def Ptn.setsPart (x : Ptn) : Part :=
  let ss := x.allSets
  (3, ss.length, (ss.flatMap fun e =>
      leBytes 2 e.1 ++ leBytes 2 e.2.1 ++ [if e.2.2.1.two then 2 else 1, BitVec.ofNat 8 (b2n e.2.2.1.b16), 0, 0] ++ leBytes 8 e.2.2.1.version.toNat ++
      leBytes 8 (match x.groupOf e.2.2.1 with | some g => g.block.group.toNat | none => 0xFFFFFFFF) ++ leBytes 8 e.2.2.2) ++
    ss.flatMap fun e => (e.2.2.1.current.getList 0 0 e.2.2.2).flatMap fun v =>
      if e.2.2.1.b16 then leBytes 2 (b16.round (b32.decode v.toNat)).1 else leBytes 4 v.toNat)

/-- Buckets of a set that the partition owns: number, first element, elements; without a group one bucket is the whole set. -/
def Ptn.ownedBuckets (x : Ptn) (m : Nat) (w : WSet) (n : Nat) : List (Nat × Nat × Nat) :=
  match x.groupOf w with
  | none => [(0, 0, n)]
  | some g =>
    let t := ((x.models.getD m {}).image.tensors.getD w.tensor {})
    if thinned g.block t then (if g.owns 0 then [(0, 0, n)] else [])
    else
      let k := 2 ^ g.block.bucketLog2.toNat / 4
      ((List.range (ceilDiv n k)).filter g.owns).map fun b => (b, k * b, min k (n - k * b))

def Ptn.ownedPart (x : Ptn) : Part :=
  let rs := x.allSets.flatMap fun e => (x.ownedBuckets e.1 e.2.2.1 e.2.2.2).map fun b => (e, b)
  (4, rs.length, rs.flatMap fun r =>
    let w := r.1.2.2.1; let b := r.2
    leBytes 4 (match x.groupOf w with | some g => g.block.group.toNat | none => 0xFFFFFFFF) ++ leBytes 2 r.1.1 ++ leBytes 2 r.1.2.1 ++
    leBytes 8 b.1 ++ leBytes 8 b.2.1 ++ leBytes 8 b.2.2 ++
    words32 (w.master.getList 0 b.2.1 b.2.2) ++ words32 (w.m.getList 0 b.2.1 b.2.2) ++ words32 (w.v.getList 0 b.2.1 b.2.2))

/-- The fields of a GROUP_SET block from byte 8 of its parameter block (R370). -/
def GroupBlock.bytes (g : GroupBlock) : List Byte :=
  leBytes 4 g.group.toNat ++ leBytes 2 g.members.length ++ leBytes 2 g.self.toNat ++ leBytes 8 g.epoch.toNat ++ [g.bucketLog2, BitVec.ofNat 8 (b2n g.pformat)] ++
  leBytes 2 (b2n g.thin + 2 * b2n g.feedback + 4 * b2n g.enc) ++ [g.rank, g.keyId] ++ leBytes 2 g.timeoutMs.toNat ++
  g.members.flatMap fun m => leBytes 2 m.1.toNat ++ leBytes 2 m.2.toNat

/-- Ports whose routing bit for a node is 1. -/
def State.routeMask (s : State) (node : BitVec 13) : Nat := qpIds.foldl (fun a n => if bitAt (s.qp n).routes.toNat node.toNat then a + 2 ^ n.val else a) 0

def State.groupsPart (s : State) (p : PtnId) : Part :=
  let gs := (s.ptn p).groups
  (5, gs.length, gs.flatMap fun g =>
    GroupBlock.bytes g.block ++ leBytes 8 g.epoch.toNat ++ leBytes 8 g.roundTotal.toNat ++ g.block.members.flatMap fun m => leBytes 8 (s.routeMask m.1))

def Ptn.thinPart (x : Ptn) : Part :=
  let rs := x.allSets.filterMap fun e =>
    match x.groupOf e.2.2.1 with
    | some g =>
      let t := ((x.models.getD e.1 {}).image.tensors.getD e.2.2.1.tensor {})
      if thinned g.block t then some (e, e.2.2.1.basisList g.block.group (t.cols.toNat * g.block.rank.toNat), if g.block.feedback then e.2.2.1.resid.getList 0 0 e.2.2.2 else [])
      else none
    | none => none
  (6, rs.length, rs.flatMap fun r => leBytes 2 r.1.1 ++ leBytes 6 r.1.2.1 ++ leBytes 8 r.2.1.length ++ leBytes 8 r.2.2.length ++ words32 r.2.1 ++ words32 r.2.2)

/-! ## The string (R399) -/

def up64 (n : Nat) : Nat := ceilDiv n 64 * 64
def padTo (n : Nat) (b : List Byte) : List Byte := b ++ List.replicate (n - b.length) 0

/-- Section table and sections, the first of them at byte `off` of the string. -/
def placeParts (off : Nat) : List Part → List Byte × List Byte
  | [] => ([], [])
  | (t, n, b) :: r =>
    let rest := placeParts (off + up64 b.length) r
    (leBytes 4 t ++ leBytes 4 n ++ leBytes 8 off ++ rest.1, padTo (up64 b.length) b ++ rest.2)

/-- The string of a list of sections. -/
def ckptString (node : BitVec 13) (p : PtnId) (num : W32) (flags : Nat) (ps : List Part) : List Byte :=
  let off := up64 (64 + 16 * ps.length)
  let body := placeParts off ps
  let total := off + body.2.length + 32
  let head := leBytes 4 0x4B435141 ++ leBytes 2 1 ++ leBytes 2 flags ++ leBytes 4 ps.length ++ leBytes 2 node.toNat ++ leBytes 2 p.val ++
    leBytes 8 num.toNat ++ leBytes 8 total
  let b := padTo off (padTo 64 head ++ body.1) ++ body.2
  b ++ sha256 b

/-- The sections of a partition as they stand; one without a record is left out. -/
def State.ckptParts (s : State) (p : PtnId) : List Part :=
  let x := s.ptn p
  [s.regsPart p, s.modelsPart p, x.setsPart, x.ownedPart, s.groupsPart p, x.thinPart].filter fun e => e.2.1 ≠ 0

/-- The checkpoint of a partition (R395, R399): NON_INDEPENDENT, PARTNER_COPY and SUSPECT are the flags. -/
def State.ckptBytes (s : State) (p : PtnId) (num : W32) (nonIndep partner suspect : Bool) : List Byte :=
  ckptString s.mod.node p num (b2n nonIndep + 2 * b2n partner + 4 * b2n suspect) (s.ckptParts p)

/-! ## Reading a checkpoint back (R411) -/

/-- A section of the string, if it has one of that type: records and offset. -/
def ckSect (b : List Byte) (t : Nat) : Nat × Nat :=
  match sectOf (sections b (fld b 8 2)) t with
  | some x => (x.count, x.off)
  | none => (0, 0)

/-- Step 1: the header and the section table. -/
def ckHeadBad (b : List Byte) (num : W32) : Bool :=
  let n := fld b 8 2
  fld b 0 4 ≠ 0x4B435141 || fld b 4 2 ≠ 1 || n = 0 || n > 6 || fld b 16 4 ≠ num.toNat || fld b 24 8 < 64 + 16 * n + 32 ||
  (sections b n).any fun x => x.type = 0 || x.type > 6 || x.off % 64 ≠ 0 || x.off > fld b 24 8 - 32

/-- Bytes of the string that steps 2 and 3 read: REGS, MODELS and the records of SETS. -/
def ckHeadEnd (b : List Byte) : Nat :=
  let r := ckSect b 1; let m := ckSect b 2; let w := ckSect b 3
  max (max 160 (r.2 + 1200 * r.1)) (max (if m.1 = 0 then 0 else m.2 + 40 + 40 * m.1) (w.2 + 32 * w.1))

/-- Step 2: the resident model for each record, each model once; none if one is missing. -/
def matchModels : List (Nat × List Byte) → List Model → Option (List Nat)
  | [], _ => some []
  | (flags, hash) :: r, ms =>
    match ms.find? fun m => m.flags.toNat = flags && m.hash = hash with
    | none => none
    | some m => (matchModels r (ms.filter fun x => x.handle ≠ m.handle)).map (m.handle :: ·)

def ckModels (b : List Byte) : List (Nat × List Byte) :=
  let m := ckSect b 2
  (List.range m.1).map fun i => (fld b (m.2 + 44 + 40 * i) 4, (b.drop (m.2 + 48 + 40 * i)).take 32)

/-- The measurement recorded, if the shared region was mapped. -/
def ckMeasure (b : List Byte) : Option (List Byte) :=
  let m := ckSect b 2
  if m.1 ≠ 0 && fld b m.2 8 = 1 then some ((b.drop (m.2 + 8)).take 32) else none

/-- A record of SETS. -/
structure SetRec where
  model : Nat := 0
  set : Nat := 0
  b16 : Bool := false
  version : W64 := 0
  group : W32 := 0
  elems : Nat := 0
deriving DecidableEq, Repr

def ckSets (b : List Byte) : List SetRec :=
  let w := ckSect b 3
  (List.range w.1).map fun i =>
    let o := w.2 + 32 * i
    ⟨fld b o 2, fld b (o + 2) 2, fld b (o + 5) 1 = 1, BitVec.ofNat 64 (fld b (o + 8) 8), BitVec.ofNat 32 (fld b (o + 16) 4), fld b (o + 24) 8⟩

/-- Elements of a set the partition holds; none where it holds no such set. -/
def Ptn.setElems (x : Ptn) (m k : Nat) : Option Nat :=
  match x.model? m with
  | some y => (y.sets[k]?).map fun w => tensorParams (y.image.tensors.getD w.tensor {})
  | none => none

/-- Step 2 as a whole: the handles that take the place of the saved ones. -/
def State.ckMatch (s : State) (p : PtnId) (b : List Byte) : Option (List Nat) :=
  let x := s.ptn p
  match matchModels (ckModels b) x.models with
  | none => none
  | some hs =>
    let shared := match ckMeasure b with | some h => x.sharedMapped && s.mod.hash = h | none => true
    if shared && (ckSets b).all (fun r => match hs[r.model]? with | some m => x.setElems m r.set = some r.elems | none => false) then some hs else none

/-- Groups of a checkpoint, each with ROUND_TOTAL and the route masks of its members. -/
def readGroups (b : List Byte) : Nat → Nat → List (GroupBlock × W64 × List Nat)
  | _, 0 => []
  | o, k + 1 =>
    let n := fld b (o + 4) 2
    let g := (parseGroup (List.replicate 8 0 ++ b.drop o)).1
    let e := o + 24 + 4 * n
    ({ g with epoch := BitVec.ofNat 64 (fld b e 8) }, BitVec.ofNat 64 (fld b (e + 8) 8), (List.range n).map fun i => fld b (e + 16 + 8 * i) 8) ::
      readGroups b (e + 16 + 8 * n) k

def ckGroups (b : List Byte) : List (GroupBlock × W64 × List Nat) := let g := ckSect b 5; readGroups b g.2 g.1

/-- Writes REGS (step 4). -/
def State.putRegs (s : State) (p : PtnId) (b : List Byte) : State :=
  let o := (ckSect b 1).2
  if (ckSect b 1).1 = 0 then s
  else
    let v := fun i => fld b (o + 8 * i) 8
    let w := fun i => fld b (o + 112 + 8 * i) 8
    s.updPtn p fun x =>
      let x := { x with
        numMode := { sat := bitAt (v 0) 0, rnd := BitVec.ofNat 2 (bits (v 0) 1 2), smode := BitVec.ofNat 2 (bits (v 0) 8 2), given := BitVec.ofNat 8 (bits (v 0) 16 8) }
        srSeed := BitVec.ofNat 64 (v 1)
        train := { x.train with stashMib := BitVec.ofNat 16 (v 2), spillGib := BitVec.ofNat 11 (bits (v 2) 32 11), stashQ6 := bitAt (v 2) 48 }
        serve := { x.serve with
          maxStreams := BitVec.ofNat 13 (v 3), chunkMax := BitVec.ofNat 6 (bits (v 3) 16 6), slackUs := BitVec.ofNat 12 (bits (v 3) 32 12)
          depthInit := BitVec.ofNat 4 (bits (v 3) 48 4), depthMax := BitVec.ofNat 4 (bits (v 3) 52 4) }
        sliceUs := BitVec.ofNat 16 (v 4)
        qEnable := BitVec.ofNat 8 ((List.range 8).foldl (fun a q => a + 2 ^ q * bits (v (5 + q)) 24 1) 0)
        flow := { x.flow with eventPort := BitVec.ofNat 2 (v 13) }
        sems := (List.range 256).foldl (fun t i => t.upd {} i fun m => { m with count := BitVec.ofNat 32 (fld b (o + 176 + 4 * i) 4) }) x.sems }
      queueIds.foldl (fun (x : Ptn) q => x.updJob q fun j => { j with
        share := BitVec.ofNat 16 (v (5 + q.val)), footprint := BitVec.ofNat 6 (bits (v (5 + q.val)) 16 6), cfg := none
        lastSeq := if bitAt (w q.val) 32 then some (BitVec.ofNat 32 (w q.val)) else none }) x

/-- n binary32 words, or binary16 patterns as binary32, from byte o. -/
def readWords (b : List Byte) (half : Bool) (o n : Nat) : List W32 :=
  (List.range n).map fun i => if half then BitVec.ofNat 32 (b32.round (b16.decode (fld b (o + 2 * i) 2))).1 else BitVec.ofNat 32 (fld b (o + 4 * i) 4)

/-- Writes the buffers of SETS, from the first byte after its records. -/
def putSets (b : List Byte) (hs : List Nat) : Nat → List SetRec → Ptn → Ptn
  | _, [], x => x
  | o, r :: rs, x =>
    let n := r.elems * (if r.b16 then 2 else 4)
    let vals := readWords b r.b16 o r.elems
    putSets b hs (o + n) rs (x.updSet (hs.getD r.model 0) r.set fun w =>
      WSet.putCurrent { w with version := r.version, b16 := r.b16, group := r.group, writing := false } (Tab.putList 0 [] 0 vals))

/-- Writes OWNED. -/
def putOwned (b : List Byte) (hs : List Nat) : Nat → Nat → Ptn → Ptn
  | _, 0, x => x
  | o, k + 1, x =>
    let st := fld b (o + 16) 8; let n := fld b (o + 24) 8
    putOwned b hs (o + 32 + 12 * n) k (x.updSet (hs.getD (fld b (o + 4) 2) 0) (fld b (o + 6) 2) fun w => { w with
      master := w.master.putList 0 st (readWords b false (o + 32) n), m := w.m.putList 0 st (readWords b false (o + 32 + 4 * n) n),
      v := w.v.putList 0 st (readWords b false (o + 32 + 8 * n) n) })

/-- Writes THIN. -/
def putThin (b : List Byte) (hs : List Nat) : Nat → Nat → Ptn → Ptn
  | _, 0, x => x
  | o, k + 1, x =>
    let n := fld b (o + 8) 8; let r := fld b (o + 16) 8
    putThin b hs (o + 24 + 4 * n + 4 * r) k (x.updSet (hs.getD (fld b o 2) 0) (fld b (o + 2) 2) fun w => { w with
      basis := Tab.putList 0 [] 0 (readWords b false (o + 24) n), resid := Tab.putList 0 [] 0 (readWords b false (o + 24 + 4 * n) r) })

/-- Writes SETS, OWNED and THIN (step 4). -/
def Ptn.putTrained (x : Ptn) (b : List Byte) (hs : List Nat) : Ptn :=
  let w := ckSect b 3; let o := ckSect b 4; let t := ckSect b 6
  putThin b hs t.2 t.1 (putOwned b hs o.2 o.1 (putSets b hs (w.2 + 32 * w.1) (ckSets b) x))

/-! ## The model image of a negative (R416) -/

/-- Replaces bytes from offset o. -/
def patch (b : List Byte) (o : Nat) (x : List Byte) : List Byte := if o + x.length ≤ b.length then b.take o ++ x ++ b.drop (o + x.length) else b

/-- Element and scale arrays of one slice, in BLOCK mode to nearest even with SAT = 1, as R67 forms slices, and what remains of each value. -/
def sliceArrays (t : TensorDesc) (vals : List XVal) : List Byte × List Byte × List XVal :=
  let ty := tensorTy t; let sh := t.shape.toNat; let cols := t.cols.toNat
  let d : SDesc := { dstType := t.type.toNat, dstShape := sh, length := vals.length, rowLen := cols }
  let es := vals.mapIdx fun i v => ({ r := i / cols, c := i % cols, idx := i, active := true, v := v, scale := 0 } : SElem)
  let o := d.convertAll {} 0 0 false (List.replicate (elemBytes ty sh t.rows.toNat cols) 0) (List.replicate (scaleBytes ty sh t.rows.toNat cols) 0) es
  (o.arr, o.sc, vals.mapIdx fun i v => match v with
    | .num _ _ _ => v.sub (memValue ty (codeAt ty sh cols o.arr (i / cols) (i % cols)) (scaleAt ty sh cols o.sc (i / cols) (i % cols)))
    | _ => XVal.zero)

/-- Slices in order: all element arrays, and all scale arrays. -/
def tensorArrays (t : TensorDesc) : Nat → List XVal → List Byte × List Byte
  | 0, _ => ([], [])
  | n + 1, vals =>
    let a := sliceArrays t vals
    let r := tensorArrays t n a.2.2
    (a.1 ++ r.1, a.2.1 ++ r.2)

/-- The shipped image: a set's WEIGHTS carry its current buffer, TRAINABLE is clear, and the header holds the source VERSION. -/
def negativeImage (b : List Byte) (im : Image) (w : WSet) : List Byte :=
  let t := im.tensors.getD w.tensor {}
  let vals := (w.current.getList 0 0 (tensorParams t)).map fun v => b32.decode v.toNat
  let a := tensorArrays t (t.slices.toNat + 1) vals
  let b := match im.weights with
    | some x => if t.shared then b else
        let b := patch b (x.1 + t.addr.toNat) a.1
        if isShortCode t.type.toNat then patch b (x.1 + t.scaleAddr.toNat) a.2 else b
    | none => b
  let b := match sectOf (sections b (fld b 8 2)) 1 with
    | some x => (List.range x.count).foldl (fun b i => patch b (x.off + 32 * i + 1) [BitVec.ofNat 8 (fld b (x.off + 32 * i + 1) 1) &&& 0xFD]) b
    | none => b
  patch b 32 (leBytes 8 w.version.toNat)

end Sys2Proof.Machine
end

