-- ==== Sys2Proof/Machine/Fixer.lean ====
section
/-! DEFINITION. The Fixer: saving and restoring checkpoints, partners, and negatives (R391 to R416). The layout of its packets' payloads is the model's (DESIGN CHOICE, log entry 25). -/

namespace Sys2Proof.Machine

def FixP.working (f : FixP) : Bool := !f.copies.isEmpty || f.restore.isSome || f.ship.isSome

namespace State

def updFix (s : State) (p : PtnId) (f : FixP → FixP) : State := s.updPtn p fun x => { x with fix := f x.fix }

/-- The Fixer works on four other partitions already (R391). -/
def fixerFull (s : State) (p : PtnId) : Bool := (ptnIds.filter fun q => q ≠ p && (s.ptn q).fix.working).length ≥ 4

/-- A command that behaves as though FENCE = 1 (R394, R410). -/
def fenced (s : State) (h : Hdr) (opcode : W16) : State :=
  (s.ensureCmd h opcode false).updCmd h fun c => { c with hdr := { c.hdr with fence := true } }

/-- Sends Fixer packets on VL2 through the ports of FIX_PORTS; false where none of them reaches the node (R391, R393). -/
def fixSend (s : State) (p : PtnId) (dest : Endpoint) (kind : Byte) (xfer : W32) (off : W64) (last : Bool) (bs : List Byte) : State × Bool :=
  let m := (s.ptn p).fix.ports
  let k : QPkt := { dstNode := dest.node, dstPtn := if dest.kind = 1 then dest.ptn else 0, srcPtn := p, vl := 2, kind := kind, enc := dest.enc, keyId := dest.keyId, last := last, xfer := xfer, offset := off }
  (s.sendPkts m (if bs = [] then [k] else cutPkts k bs), s.portsTo dest.node m ≠ [])

end State

/-! ## CKPT_SAVE (R394, R397, R402 to R405) -/

/-- The flags word of the result block, from STORE_ACKED, PARTNER_ACKED and NON_INDEPENDENT (R403, R404). -/
def ckptFlags (a : BitVec 3) : Nat := b2n (bitAt a.toNat 0 || (bitAt a.toNat 1 && !bitAt a.toNat 2)) + 2 * a.toNat

def ckptResult (num : W32) (total : Nat) (digest : List Byte) (a : BitVec 3) : List Byte :=
  leBytes 8 num.toNat ++ leBytes 8 total ++ digest ++ leBytes 8 (ckptFlags a)

namespace State

/-- Sends one copy and its end, or fails its item where no port reaches its destination. -/
def sendCopy (s : State) (h : Hdr) (item : Nat) (partner : Bool) (num : W32) (dest : Endpoint) (b : List Byte) : State :=
  let dig := b.drop (b.length - 32)
  let r := s.fixSend h.ptn dest 0x20 num 0 false b
  if !r.2 then s.closeItem h item (some St.eParam)
  else
    let s := (r.1.fixSend h.ptn dest 0x21 num 0 true (leBytes 8 num.toNat ++ leBytes 8 b.length ++ dig)).1
    s.updFix h.ptn fun f => { f with copies := f.copies ++ [{ hdr := h, item := item, partner := partner, num := num, total := b.length, digest := dig, dest := dest }] }

/-- What keeps a checkpoint from being taken (R394, R402). -/
def saveBusy (s : State) (p : PtnId) (toPartner : Bool) : Option Status :=
  let x := s.ptn p
  if !x.train.mbs.isEmpty || (x.groups.any fun g => g.st ≠ .active) || (x.models.any fun m => m.sets.any (·.invalid)) then some St.eBusy
  else if toPartner && !x.fix.partner.valid then some St.eParam
  else none

/-- Takes the checkpoint as the partition stands, and sends its copies (DESIGN CHOICE, log entry 36). -/
def saveNow (s : State) (h : Hdr) (store : Endpoint) (toStore toPartner : Bool) : State :=
  let p := h.ptn
  let f := (s.ptn p).fix
  let ni := f.partner.nonIndep
  let a := s.ckptBytes p f.nextCkpt false false f.suspect
  let b := s.ckptBytes p f.nextCkpt ni true f.suspect
  let acked : BitVec 3 := if toPartner && ni then 4 else 0
  let main := if toStore then a else b
  let s := s.updFix p fun f => { f with nextCkpt := f.nextCkpt + 1, suspect := false, acked := acked }
  let s := s.setResult h (ckptResult f.nextCkpt main.length (main.drop (main.length - 32)) acked)
  let s := if toStore then s.sendCopy h 0 false f.nextCkpt store a else s
  if toPartner then s.sendCopy h (b2n toStore) true f.nextCkpt f.peer b else s

end State

/-- Waits for its fence, and for the Fixer; a command whose block is out of range, or that may not be saved now, is rejected. -/
def execCkptSave (h : Hdr) (store : Endpoint) (toStore toPartner : Bool) (timeoutMs : W16) (s : State) : Res State :=
  .next (
    if s.fixerFull h.ptn then s
    else (s.fenced h 0x601).queued h 0x601 (.ckptSave h store toStore toPartner timeoutMs)
      (fun s =>
        if (!toStore && !toPartner) || (toStore && (endpointBad store false || store.kind ≠ 2)) || (timeoutMs ≠ 0 && (timeoutMs.toNat < 100 || timeoutMs.toNat > 60000)) then some St.eParam
        else s.saveBusy h.ptn toPartner)
      (fun _ => b2n toStore + b2n toPartner)
      (fun s => s.saveNow h store toStore toPartner))

namespace State

/-- A copy ends: its flag is set and a durable checkpoint is recorded, or its item fails. -/
def endCopy (s : State) (p : PtnId) (c : Copy) (failed : Option Status) : State :=
  let s := s.updFix p fun f =>
    let a : BitVec 3 := if failed.isSome then f.acked else f.acked ||| (if c.partner then 2 else 1)
    { f with copies := dropFirst (fun d => d = c) f.copies, acked := a,
             lastDurable := if failed.isNone && ckptFlags a % 2 = 1 then c.num else f.lastDurable }
  let a := (s.ptn p).fix.acked
  let s := s.updCmd c.hdr fun r => { r with result := r.result.take 48 ++ leBytes 8 (ckptFlags a) }
  (s.closeItem c.hdr c.item failed).settle c.hdr

end State

/-- CK_ACK: STATUS 0 completes the copy's item, any other fails it with E_HW_FAULT (R401, R403). -/
def execCkAck (qp : QpId) (h : QHdr) (num : W32) (status : W16) (_digest : List Byte) (s : State) : Res State :=
  s.onQp qp h false fun s =>
    let p := h.dstPtn
    match (s.ptn p).fix.copies.find? fun c => c.num = num && c.dest.node = h.srcNode && (!c.partner || c.dest.ptn = h.srcPtn) with
    | none => s.dropPkt qp
    | some c => s.endCopy p c (if status = 0 then none else some St.eHwFault)

/-- No acknowledgement within TIMEOUT_MS of CK_END (R401, R403). -/
def execCopyTimeout (p : PtnId) (partner : Bool) (s : State) : Res State :=
  .next (match (s.ptn p).fix.copies.find? fun c => c.partner = partner with | some c => s.endCopy p c (some St.eHwFault) | none => s)

/-! ## PARTNER_SET and HELLO (R406, R407) -/

/-- Size of a copy that a partner is told to expect: the checkpoint as the partition stands. -/
def State.copySize (s : State) (p : PtnId) : Nat := (s.ckptBytes p (s.ptn p).fix.nextCkpt false true false).length

/-- The area of a role lies in the partition's windows. -/
def Ptn.areaOk (x : Ptn) (addr bytes : Nat) : Bool :=
  addr % gib = 0 && bytes % gib = 0 && decide (winBase ≤ addr) && decide (addr + bytes ≤ winTop) && (x.check addr bytes true).isNone

/-- One HELLO of a partition at a time: a second SOURCE command waits. -/
def execPartnerSet (h : Hdr) (role : Byte) (override : Bool) (peer : Endpoint) (addr bytes : W64) (s : State) : Res State :=
  .next (
    if role = 0 && (s.ptn h.ptn).fix.hello.isSome then s
    else s.queued h 0x603 (.partnerSet h role override peer addr bytes)
    (fun s =>
      if role.toNat > 2 || (override && role ≠ 0) || endpointBad peer true || peer.kind ≠ 1 then some St.eParam
      else if role ≠ 0 && peer.node ≠ 0x1FFF then
        (if role = 1 && bytes.toNat % (2 * gib) ≠ 0 then some St.eParam else if (s.ptn h.ptn).areaOk addr.toNat bytes.toNat then none else some St.eAccess)
      else none)
    (fun _ => 1)
    (fun s =>
      let p := h.ptn
      let gone := peer.node = 0x1FFF
      let area : Option AreaRole := if gone then none else some { src := peer, addr := addr.toNat, bytes := bytes.toNat }
      if role = 1 then (s.updFix p fun f => { f with hold := area }).closeItem h 0 none
      else if role = 2 then (s.updFix p fun f => { f with neg := area }).closeItem h 0 none
      else if gone then (s.updFix p fun f => { f with partner := {}, peer := { node := 0x1FFF } }).closeItem h 0 none
      else
        let r := s.fixSend p peer 0x25 0 0 true (leBytes 8 s.pins.feedId.toNat ++ leBytes 8 (s.copySize p))
        if !r.2 then s.closeItem h 0 (some St.eParam)
        else r.1.updFix p fun f => { f with hello := some (h, peer, override) }))

/-- A role whose source is the packet's sender. -/
def roleOf (r : Option AreaRole) (h : QHdr) : Option AreaRole := r.filter fun a => a.src.node = h.srcNode && a.src.ptn = h.srcPtn

/-- The endpoint that answers go to. -/
def replyTo (r : Option AreaRole) (h : QHdr) : Endpoint :=
  match r with | some a => a.src | none => { node := h.srcNode, kind := 1, ptn := h.srcPtn, enc := h.enc, keyId := h.keyId }

/-- A holder answers HELLO: it refuses when it has no HOLD role that names the sender. -/
def execHello (qp : QpId) (h : QHdr) (_feed : BitVec 4) (_size : W64) (s : State) : Res State :=
  s.onQp qp h false fun s =>
    let p := h.dstPtn
    let r := roleOf (s.ptn p).fix.hold h
    (s.fixSend p (replyTo r h) 0x26 h.xfer 0 true (leBytes 4 s.pins.feedId.toNat ++ leBytes 4 (if r.isSome then 0 else 3) ++ leBytes 8 (match r with | some a => a.bytes / 2 | none => 0))).1

namespace State

/-- A SOURCE PARTNER_SET ends. -/
def endHello (s : State) (p : PtnId) (h : Hdr) (failed : Option Status) : State :=
  ((s.updFix p fun f => { f with hello := none }).closeItem h 0 failed).settle h

end State

def execHelloAck (qp : QpId) (h : QHdr) (feed : BitVec 4) (status : W16) (_half : W64) (s : State) : Res State :=
  s.onQp qp h false fun s =>
    let p := h.dstPtn
    match (s.ptn p).fix.hello with
    | none => s.dropPkt qp
    | some (c, peer, override) =>
      if peer.node ≠ h.srcNode || peer.ptn ≠ h.srcPtn then s.dropPkt qp
      else
        let same := feed = s.pins.feedId
        if status ≠ 0 || (same && !override) then s.endHello p c (some St.eParam)
        else
          let r : Partner := { node := peer.node, ptn := peer.ptn, feed := feed, valid := true, nonIndep := same, override := override }
          (s.updFix p fun f => { f with partner := r, peer := peer }).endHello p c none

def execHelloTimeout (p : PtnId) (s : State) : Res State :=
  .next (match (s.ptn p).fix.hello with | some (c, _, _) => s.endHello p c (some St.eParam) | none => s)

/-! ## The holder's side (R400, R401, R408) -/

namespace AreaRole

/-- Half that holds copy c: its place, and where it begins. -/
def half (a : AreaRole) (c : W32) : Half := if c.toNat % 2 = 1 then a.half1 else a.half0
def setHalf (a : AreaRole) (c : W32) (x : Half) : AreaRole := if c.toNat % 2 = 1 then { a with half1 := x } else { a with half0 := x }
def base (a : AreaRole) (c : W32) : Nat := a.addr + if c.toNat % 2 = 1 then a.bytes / 2 else 0

/-- What arrives is over. -/
def idle (a : AreaRole) : AreaRole := { a with cur := none, total := none, got := 0, seen := [], early := [], refused := false, fin := none }

/-- A packet of copy or image number n: it begins a new one where another number was arriving. -/
def start (a : AreaRole) (n : W32) : AreaRole := if a.cur = some n then a else { idle a with cur := some n }

end AreaRole

/-- Which role a packet is for: HOLD, or NEG_RECV. -/
def FixP.role (f : FixP) (hold : Bool) : Option AreaRole := if hold then f.hold else f.neg

namespace State

def setRole (s : State) (p : PtnId) (hold : Bool) (a : AreaRole) : State :=
  s.updFix p fun f => if hold then { f with hold := some a } else { f with neg := some a }

/-- Where a role writes what it receives, and how much may come. -/
def roleRoom (hold : Bool) (a : AreaRole) : Nat × Nat := if hold then (a.base (a.cur.getD 0), a.bytes / 2) else (a.addr, a.bytes)

/-- Writes bytes of what arrives; a violation is recorded and the packet discarded (R275, R366). -/
def roleWrite (s : State) (p : PtnId) (qp : QpId) (hold : Bool) (a : AreaRole) (off : Nat) (bs : List Byte) : State × AreaRole :=
  match s.pWrite p (Who.fixer.via qp) ((roleRoom hold a).1 + off) bs with
  | (s, .error _) => (s.dropPkt qp, a)
  | (s, .ok _) => (s, { a with got := a.got + bs.length })

/-- STATUS and DIGEST of an acknowledgement (R400). -/
def ackBody (hold : Bool) (num : W32) (status : Nat) (digest : List Byte) : List Byte :=
  (if hold then leBytes 4 num.toNat else []) ++ leBytes 4 status ++ if hold then padTo 32 digest else []

def roleAck (s : State) (p : PtnId) (hold : Bool) (a : AreaRole) (status : Nat) (digest : List Byte) : State :=
  ((s.fixSend p a.src (if hold then 0x22 else 0x29) (a.cur.getD 0) 0 true (ackBody hold (a.cur.getD 0) status digest)).1).setRole p hold a.idle

/-- Ends what arrives once its end packet and every byte are in: the digest is checked and an acknowledgement goes out. -/
def roleEnd (s : State) (p : PtnId) (hold : Bool) (a : AreaRole) : State :=
  match a.fin, a.total with
  | some want, some total =>
    if a.refused then s.roleAck p hold a 1 []
    else if a.got < total then s.setRole p hold a
    else
      match s.pRead p Who.fixer (roleRoom hold a).1 total with
      | (s, .error _) => s.roleAck p hold a 3 []
      | (s, .ok b) =>
        let dig := sha256 (if hold then b.take (total - 32) else b)
        let good := dig = want
        let a := if hold && good then a.setHalf (a.cur.getD 0) { num := a.cur.getD 0, total := total, complete := true } else a
        s.roleAck p hold a (if good then 0 else 2) dig
  | _, _ => s.setRole p hold a

/-- The length of what arrives is known: the half is marked empty, or nothing is written; packets that came earlier are written now. -/
def roleSize (s : State) (p : PtnId) (qp : QpId) (hold : Bool) (a : AreaRole) (total : Nat) : State × AreaRole :=
  if a.total.isSome then (s, a)
  else if total > (roleRoom hold a).2 then (s, { a with total := some total, refused := true, early := [] })
  else
    let n := a.cur.getD 0
    let a0 : AreaRole := { a with total := some total, early := [] }
    let a1 := if hold then a0.setHalf n { num := n, total := total } else a0
    a.early.foldl (fun x e => if e.1 + e.2.length ≤ total then x.1.roleWrite p qp hold x.2 e.1 e.2 else (x.1.dropPkt qp, x.2)) (s, a1)

/-- A packet for a role waits where no slot serves the role's area (R510). -/
def roleWaits (s : State) (h : QHdr) (hold : Bool) : Bool :=
  match roleOf ((s.ptn h.dstPtn).fix.role hold) h with
  | some a => let a := a.start h.xfer; !decide (pktTag h ∈ a.seen) && s.noSlot h.dstPtn (roleRoom hold a).1 1
  | none => false

/-- Bytes of a copy or an image arrive. -/
def roleData (s : State) (qp : QpId) (h : QHdr) (hold : Bool) (bytes : List Byte) : State :=
  let p := h.dstPtn
  match roleOf ((s.ptn p).fix.role hold) h with
  | none => s.dropPkt qp
  | some a =>
    let a := a.start h.xfer
    if decide (pktTag h ∈ a.seen) then s
    else
      let bs := s.clear h bytes
      let off := h.offset.toNat
      let a0 := a
      let a := { a with seen := a.seen ++ [pktTag h] }
      let r := if hold && off = 0 && bs.length ≥ 32 then s.roleSize p qp hold a (fld bs 24 8)
        else if !hold && a.total.isNone && off + bs.length > a.bytes then (s, { a with refused := true })
        else (s, a)
      let s := r.1; let a := r.2
      if a.refused then s.roleEnd p hold a
      else
        let w := match a.total with
          | some total => if off + bs.length ≤ total then s.roleWrite p qp hold a off bs else (s.dropPkt qp, { a with seen := a0.seen })
          | none => if hold then (s, { a with early := a.early ++ [(off, bs)] }) else s.roleWrite p qp hold a off bs
        w.1.roleEnd p hold w.2

/-- The end packet arrives; a packet that no role provides for is refused. -/
def roleFin (s : State) (qp : QpId) (h : QHdr) (hold : Bool) (num : W32) (total : Nat) (digest : List Byte) : State :=
  let p := h.dstPtn
  match roleOf ((s.ptn p).fix.role hold) h with
  | none => (s.fixSend p (replyTo none h) (if hold then 0x22 else 0x29) h.xfer 0 true (ackBody hold num 3 [])).1
  | some a =>
    let a := a.start h.xfer
    if decide (pktTag h ∈ a.seen) then s
    else
      let a := { a with seen := a.seen ++ [pktTag h], fin := some digest }
      let r := s.roleSize p qp hold a total
      r.1.roleEnd p hold r.2

end State

def execCkData (qp : QpId) (h : QHdr) (bytes : List Byte) (s : State) : Res State := s.onQp qp h (s.roleWaits h true) fun s => s.roleData qp h true bytes

def execCkEnd (qp : QpId) (h : QHdr) (num : W32) (total : W64) (digest : List Byte) (s : State) : Res State :=
  s.onQp qp h (s.roleWaits h true) fun s => s.roleFin qp h true num total.toNat digest

def execNegData (qp : QpId) (h : QHdr) (bytes : List Byte) (s : State) : Res State := s.onQp qp h (s.roleWaits h false) fun s => s.roleData qp h false bytes

def execNegEnd (qp : QpId) (h : QHdr) (total : W64) (sha : List Byte) (s : State) : Res State :=
  s.onQp qp h (s.roleWaits h false) fun s => s.roleFin qp h false h.xfer total.toNat sha

/-- The half of a holder's area that holds a complete copy with the bytes asked for. -/
def FixP.served (f : FixP) (num : W32) (off len : Nat) : Option AreaRole :=
  f.hold.filter fun a => (a.half num).complete && decide ((a.half num).num = num) && decide (off + len ≤ (a.half num).total)

/-- A holder serves CK_READ from the half that holds the complete copy asked for (R408); it waits where no slot serves the area (R510). -/
def execCkRead (qp : QpId) (h : QHdr) (num : W32) (offset : W64) (len : Nat) (s : State) : Res State :=
  let held := (s.ptn h.dstPtn).fix.served num offset.toNat len
  s.onQp qp h (held.any fun a => s.noSlot h.dstPtn (a.base num + offset.toNat) len) fun s =>
    let p := h.dstPtn
    match held with
    | none => s.dropPkt qp
    | some a =>
        match s.pRead p (Who.fixer.via qp) (a.base num + offset.toNat) len with
        | (s, .error _) => s.dropPkt qp
        | (s, .ok bs) => (s.fixSend p (replyTo none h) 0x24 h.xfer offset true bs).1

/-! ## CKPT_RESTORE (R410 to R412) -/

namespace State

/-- Asks the source for bytes of the string. -/
def askRestore (s : State) (p : PtnId) (r : Restore) (off n : Nat) : State × Bool :=
  s.fixSend p r.source 0x23 r.num 0 true (leBytes 8 r.num.toNat ++ leBytes 8 off ++ leBytes 8 n)

def setRestore (s : State) (p : PtnId) (r : Option Restore) : State := s.updFix p fun f => { f with restore := r }

/-- The restore's item ends. -/
def endRestore (s : State) (p : PtnId) (r : Restore) (failed : Option Status) : State :=
  ((s.setRestore p none).closeItem r.hdr 0 failed).settle r.hdr

/-- What keeps a restore from starting (R410). -/
def restoreBusy (s : State) (p : PtnId) : Bool := !(s.ptn p).train.mbs.isEmpty || (s.ptn p).groups.any fun g => !g.rounds.isEmpty

/-- Step 3: sets invalid, groups that the checkpoint does not name removed and the others in RESTORING, traffic keys cleared; and REGS written. -/
def restoreBegin (s : State) (p : PtnId) (b : List Byte) : State :=
  let named := (ckGroups b).map (·.1.group)
  (s.updPtn p fun x => { x with
    models := x.models.map fun m => { m with sets := m.sets.map fun w => { w with invalid := true } }
    groups := (x.groups.filter fun g => decide (g.block.group ∈ named)).map Group.restore
    tkeys := [] }).putRegs p b

/-- Step 6 for one group. -/
def restoreGroup (s : State) (p : PtnId) (g : GroupBlock × W64 × List Nat) : State :=
  let x := s.ptn p
  let old : Group := (x.group? g.1.group).getD {}
  let ep := if old.epoch.toNat < g.1.epoch.toNat then g.1.epoch else old.epoch
  let y : Group := { old with
    block := { g.1 with epoch := ep }, epoch := ep, st := .restoring, roundTotal := g.2.1, restored := true
    maxEpoch := if old.maxEpoch.toNat < ep.toNat then ep else old.maxEpoch }
  let s := s.updPtn p fun x => { x with groups := if (x.group? g.1.group).isSome then updFirst (fun z => z.block.group = g.1.group) (fun _ => y) x.groups else x.groups ++ [y] }
  (g.1.members.zip g.2.2).foldl (fun s e =>
    (qpIds.filter fun n => bitAt e.2 n.val && (s.qp n).st = 2).foldl (fun s n => s.updQp n fun q => { q with routes := q.routes ||| BitVec.ofNat 8192 (2 ^ e.1.1.toNat) }) s) s

/-- Steps 4 to 7 with the whole string. -/
def restoreEnd (s : State) (p : PtnId) (r : Restore) (b : List Byte) : State :=
  let s := s.updPtn p fun x => x.putTrained b r.handles
  if sha256 (b.take (b.length - 32)) ≠ b.drop (b.length - 32) then s.endRestore p r (some St.eImage)
  else
    let gs := ckGroups b
    let s := gs.foldl (fun s g => s.restoreGroup p g) s
    let s := (ckSets b).foldl (fun s e => s.updPtn p fun x => x.updSet (r.handles.getD e.model 0) e.set fun w => { w with invalid := false }) s
    let s := s.updFix p fun f => { f with nextCkpt := r.num + 1 }
    let s := if bitAt (fld b 6 2) 2 then s.updCmd r.hdr fun c => { c with items := c.items.map fun i => { i with suspect := true } } else s
    gs.foldl (fun s g => s.joinNow p g.1.group) (s.endRestore p r none)

/-- Goes on with a restore once every byte asked for is in: the header, then the records of the models and sets, then the rest (DESIGN CHOICE, log entry 36). -/
def restoreStep (s : State) (p : PtnId) (r : Restore) : State :=
  if !((List.range r.want).all fun i => (r.got.get none i).isSome) then s.setRestore p (some r)
  else
    let b := (r.got.getList none 0 r.want).map (·.getD 0)
    if r.total = 0 then
      if ckHeadBad b r.num then s.endRestore p r (some St.eImage)
      else
        let total := fld b 24 8; let n := ckHeadEnd b
        if n > total - 32 then s.endRestore p r (some St.eImage)
        else
          let r := { r with total := total, want := n }
          (s.askRestore p r 160 (n - 160)).1.setRestore p (some r)
    else if !r.started then
      match s.ckMatch p b with
      | none => s.endRestore p r (some St.eParam)
      | some hs =>
        let r := { r with handles := hs, started := true, want := r.total }
        let s := s.restoreBegin p b
        (s.askRestore p r b.length (r.total - b.length)).1.setRestore p (some r)
    else s.restoreEnd p r b

end State

def execCkptRestore (h : Hdr) (source : Endpoint) (num : W32) (s : State) : Res State :=
  .next (
    if s.fixerFull h.ptn then s
    else (s.fenced h 0x602).queued h 0x602 (.ckptRestore h source num)
      (fun s => if endpointBad source false then some St.eParam else if s.restoreBusy h.ptn then some St.eBusy else none) (fun _ => 1)
      (fun s =>
        let r : Restore := { hdr := h, source := source, num := num }
        let a := s.askRestore h.ptn r 0 160
        if !a.2 then s.closeItem h 0 (some St.eParam) else a.1.setRestore h.ptn (some r)))

/-- Bytes of the string arrive from the source (R411). -/
def execCkRdata (qp : QpId) (h : QHdr) (bytes : List Byte) (s : State) : Res State :=
  s.onQp qp h false fun s =>
    let p := h.dstPtn
    match (s.ptn p).fix.restore with
    | none => s.dropPkt qp
    | some r =>
      if r.source.node ≠ h.srcNode || (r.source.kind = 1 && r.source.ptn ≠ h.srcPtn) || h.offset.toNat + bytes.length > r.want then s.dropPkt qp
      else
        let bs := s.clear h bytes
        let r := { r with got := bs.zipIdx.foldl (fun t e => t.put none (h.offset.toNat + e.2) (some e.1)) r.got }
        s.restoreStep p r

/-- The source stops answering for 10,000 ms (R411, R412). -/
def execRestoreSourceTimeout (p : PtnId) (s : State) : Res State :=
  .next (match (s.ptn p).fix.restore with | some r => s.endRestore p r (some St.eHwFault) | none => s)

/-! ## NEGATIVE_SHIP (R415, R416) -/

/-- Sends a negative: its bytes under a fresh transfer number, then its length and digest. -/
def State.ship (s : State) (h : Hdr) (w : WSet) (dest : Endpoint) (b : List Byte) : State :=
  let n := s.nextXfer
  let r := ({ s with nextXfer := n + 1 } : State).fixSend h.ptn dest 0x27 n 0 false b
  if !r.2 then s.closeItem h 0 (some St.eParam)
  else
    let dig := sha256 b
    (((r.1.fixSend h.ptn dest 0x28 n 0 true (leBytes 8 b.length ++ dig)).1.updFix h.ptn fun f =>
      { f with ship := some { hdr := h, num := n, total := b.length, digest := dig, dest := dest } })).setResult h (leBytes 8 w.version.toNat)

/-- Ships a set's current version; it waits while an update writes that buffer (R198). -/
def execNegativeShip (h : Hdr) (model set : W16) (dest : Endpoint) (s : State) : Res State :=
  let x := s.ptn h.ptn
  let busy := match x.set? model.toNat set.toNat with | some w => w.writing && !w.two | none => false
  .next (
    if s.fixerFull h.ptn || x.fix.ship.isSome || busy then s
    else s.queued h 0x604 (.negativeShip h model set dest)
      (fun s =>
        let x := s.ptn h.ptn
        if endpointBad dest false || dest.kind ≠ 1 then some St.eParam
        else if (x.model? model.toNat).isNone then some St.eHandle
        else match x.set? model.toNat set.toNat with
          | none => some St.eParam
          | some w => if w.invalid then some St.eBusy else none)
      (fun _ => 1)
      (fun s =>
        let x := s.ptn h.ptn
        match x.model? model.toNat, x.set? model.toNat set.toNat with
        | some m, some w =>
          match s.pRead h.ptn Who.fixer m.addr m.bytes with
          | (s, .error c) => s.closeItem h 0 (some c)
          | (s, .ok b) => s.ship h w dest (negativeImage b m.image w)
        | _, _ => s))

/-- NEG_ACK completes the shipment, or fails it as a copy (R401, R415). -/
def execNegAck (qp : QpId) (h : QHdr) (status : W16) (s : State) : Res State :=
  s.onQp qp h false fun s =>
    let p := h.dstPtn
    match (s.ptn p).fix.ship with
    | none => s.dropPkt qp
    | some c =>
      if c.dest.node ≠ h.srcNode || c.dest.ptn ≠ h.srcPtn then s.dropPkt qp
      else ((s.updFix p fun f => { f with ship := none }).closeItem c.hdr c.item (if status = 0 then none else some St.eHwFault)).settle c.hdr

end Sys2Proof.Machine
end

