-- ==== Sys2Proof/Machine/Power.lean ====
section
/-! DEFINITION. Power states, the power limit, telemetry, platform faults and the pins that power and reset the module (R431, R466 to R480, R489 to R493). -/

namespace Sys2Proof.Machine

/-! ## Platform faults (R479) -/

/-- A PLATFORM record: the steward's die detects it, and UNIT is the bus, rail or die concerned (DESIGN CHOICE, log entry 39). -/
def platRec (severity : Byte) (cause : W16) (unit : Nat) (stamp : W64) : FRec :=
  { cls := 7, severity := severity, unitKind := 0xA, die := 1, unit := BitVec.ofNat 16 unit, cause := cause, stamp := stamp }

def State.plat (s : State) (severity : Byte) (cause : W16) (unit : Nat) (stamp : W64) : State := s.recordFault (platRec severity cause unit stamp)

/-- The rails are up: clocks, regulators and sensors are watched. -/
def State.powered (s : State) : Bool := s.phase = .ready || s.phase = .starting || s.phase = .stopped

def execInputLow (stamp : W64) (s : State) : Res State := .next (if s.powered then s.plat 1 0x0707 0 stamp else s)

/-- The reference is lost: LPDDR5X goes into self-refresh and a warm reset begins, held until the clock is back (R467). -/
def execRefLost (stamp : W64) (s : State) : Res State :=
  .next (
    if !s.powered then s
    else
      let s := { s with clk := { s.clk with refOk := false, refLosses := satInc s.clk.refLosses } }
      (s.plat 2 0x0701 0 stamp).warmBegin 0x05 .clock)

def execPllUnlock (stamp : W64) (s : State) : Res State :=
  .next (
    if !s.powered then s
    else
      let s := { s with clk := { s.clk with pllLock := false, unlocks := satInc s.clk.unlocks } }
      (s.plat 2 0x0702 0 stamp).warmBegin 0x05 .clock)

/-- The reference is back and the PLL has locked: the reset may leave its first step. -/
def execRefRestored (s : State) : Res State :=
  .next { s with clk := { s.clk with refOk := true, pllLock := true }, pwr := { s.pwr with hold := if s.pwr.hold = .clock then .none else s.pwr.hold } }

/-- A regulator reports a fault: a warm reset begins; a second one on the same rail before READY stops the start-up with FAULT_N asserted. -/
def execRailFault (rail : Fin 24) (stamp : W64) (s : State) : Res State :=
  .next (
    if !s.powered then s
    else
      let again := s.phase = .starting && bitAt s.pwr.rails.toNat rail.val
      let s := s.plat 2 0x0704 rail.val stamp
      let s := if again then { s with phase := .stopped, saf := { s.saf with faultPend := true } } else s.warmBegin 0x06 .none
      { s with pwr := { s.pwr with rails := s.pwr.rails ||| BitVec.ofNat 24 (2 ^ rail.val) } })

/-- The steward's cores disagree: it restarts, and a second mismatch within 1 s begins a warm reset (R431). -/
def execStewardLockstepMismatch (stamp : W64) (within1s : Bool) (s : State) : Res State :=
  let r : FRec := { cls := 2, severity := 2, unitKind := 4, die := 1, unit := 0, cause := 0x0202, stamp := stamp }
  .next (
    if s.phase ≠ .ready then s
    else if within1s then (s.stewardBack.recordFault r).warmBegin 0x04 .none
    else ({ s with saf := { s.saf with stewRestart := true } } : State).recordFault r)

/-! ## Sensors and the power limit (R476, R477, R479) -/

/-- Units of 1/16 degree. -/
def hotter (lim : Int) (ts : List (BitVec 16)) : Bool := ts.any fun t => decide (lim * 16 < t.toInt)
def atLeast (lim : Int) (ts : List (BitVec 16)) : Bool := ts.any fun t => decide (lim * 16 ≤ t.toInt)
def allBelow (lim : Int) (ts : List (BitVec 16)) : Bool := ts.all fun t => decide (t.toInt < lim * 16)

/-- THROTTLE: DUTY, REASON, P_IN (R483). -/
def throttleBody (duty : Nat) (power temp : Bool) (pIn : Nat) : List Byte := leBytes 1 duty ++ leBytes 1 (b2n power + 2 * b2n temp) ++ leBytes 2 pIn

/-- One comparison of the steward's, every 100 µs; input above 1,950 W at DUTY 4 is POWER_HIGH. -/
def execDutyControl (r : Readings) (stamp : W64) (s : State) : Res State :=
  .next (
    if s.phase ≠ .ready || 2 ≤ s.pwr.st.toNat then s
    else
      let d := s.pwr.duty.toNat
      let hiP := decide (s.pwr.limitW.toNat < r.powerW)
      let hiT := hotter 100 r.dies
      let low := decide (r.powerW + 50 < s.pwr.limitW.toNat) && allBelow 95 r.dies
      let d' := if hiP || hiT then max 4 (d - 1) else if low then min 16 (d + 1) else d
      let fell := decide (d' < d)
      let s := { s with pwr := { s.pwr with duty := BitVec.ofNat 5 d', thrPower := fell && hiP, thrTemp := fell && hiT, tel := r } }
      let s := if d ≠ d' && (d = 16 || d' = 16) then s.sendEvt 0x15 (throttleBody d' (fell && hiP) (fell && hiT) r.powerW) else s
      if d = 4 && r.powerW > 1950 then s.plat 1 0x0708 0 stamp else s)

/-- Every temperature of a sample. -/
def Readings.temps (r : Readings) : List (BitVec 16) := r.dies ++ r.ergs ++ [r.lpMax, r.optMax]

/-- Faults of the die sensors in ascending die. -/
def State.tempFaults (s : State) (stamp : W64) : Nat → List (BitVec 16) → State
  | _, [] => s
  | d, t :: ts =>
    let s := if atLeast 115 [t] then s.plat 2 0x0706 d stamp else if atLeast 100 [t] then s.plat 1 0x0705 d stamp else s
    s.tempFaults stamp (d + 1) ts

/-- The die sensors are sampled: TEMP_HIGH, or TEMP_TRIP with a warm reset held until every sensor reads 90 °C or less. -/
def execTempSample (r : Readings) (stamp : W64) (s : State) : Res State :=
  .next (
    if !s.powered then s
    else
      let s := { s with pwr := { s.pwr with tel := r } }
      let s := if s.pwr.hold = .thermal && !hotter 90 (Readings.temps r) then { s with pwr := { s.pwr with hold := .none } } else s
      let s := s.tempFaults stamp 0 r.dies
      if atLeast 115 r.dies then s.warmBegin 0x07 .thermal else s)

/-- The 64-byte result block of TELEMETRY_READ. -/
def State.telemetry (s : State) : List Byte :=
  let r := s.pwr.tel
  leBytes 2 r.vIn.toNat ++ leBytes 2 r.vStby.toNat ++ leBytes 2 r.powerW ++ leBytes 2 r.pStby.toNat ++
  (List.range 4).flatMap (fun i => leBytes 2 (r.dies.getD i 0).toNat) ++ (List.range 4).flatMap (fun i => leBytes 2 (r.ergs.getD i 0).toNat) ++
  leBytes 2 r.lpMax.toNat ++ leBytes 2 r.optMax.toNat ++ leBytes 1 s.pwr.duty.toNat ++ leBytes 3 s.pwr.st.toNat ++ leBytes 8 r.energyMj.toNat ++
  leBytes 8 s.cgStates.toNat ++ List.replicate 16 0

def execTelemetryRead (h : Hdr) (s : State) : Res State := .next (s.atOnce h 0x802 fun s => (s, .ok ([doneItem], s.telemetry)))

def execPwrLimit (h : Hdr) (limitW : W16) (s : State) : Res State :=
  .next (s.atOnce h 0x803 fun s =>
    if limitW.toNat < 1000 || limitW.toNat > 1850 then (s, .error St.eParam)
    else ({ s with pwr := { s.pwr with limitW := BitVec.ofNat 11 limitW.toNat } }, .ok ([doneItem], [])))

/-! ## Entering and leaving power states (R469, R472 to R475) -/

/-- Units of a core group that have computed something since their last passing strip. -/
def State.unclean (s : State) (p : PtnId) (cg : Nat) : List Nat :=
  let x := s.ptn p
  let us := (List.range 8).map (8 * cg + ·) ++ [256 + 2 * cg, 257 + 2 * cg]
  us.filter fun u => (x.flow.cmds.any fun c => c.items.any fun i => decide (u ∈ i.units)) || decide (u ∈ x.train.bwdUnits)

/-- A held core group that no job has been granted runs the strips it owes, and enters L1 when none is owed or running. -/
def execCgL1Entry (cg : CgId) (s : State) : Res State :=
  .next (
    match s.cgOwner cg.val with
    | none => s
    | some p =>
      let bit : BitVec 32 := BitVec.ofNat 32 (2 ^ cg.val)
      if !s.inL0 cg.val || (queueIds.any fun q => bitAt (s.job p q).cgs.toNat cg.val) then s
      else
        let owed := s.unclean p cg.val
        let busy := (List.range 8).any fun i => (s.mc (8 * cg.val + i)).strip.st ≠ .idle
        if !owed.isEmpty then (owed.filter (· < 256)).foldl (fun s u => s.updStrip u fun x => { x with st := if x.st = .idle then .due else x.st }) s
        else if busy then s
        else s.updPtn p fun x => { x with l1 := x.l1 ||| bit })

/-- Every core group is in L1 or deeper. -/
def State.allIdle (s : State) : Bool :=
  (List.range 32).all fun k => match s.cgOwner k with | some p => bitAt (s.ptn p).l1.toNat k | none => decide (2 ≤ s.pwr.cgState k)

def execModuleL1Entry (s : State) : Res State :=
  .next (if s.phase = .ready && s.pwr.st = 0 && s.pwr.trans.isNone && s.allIdle then { s with pwr := { s.pwr with st := 1, lp := .powerDown } } else s)

/-- Conditions of R472 for module L2. -/
def State.l2Busy (s : State) : Bool :=
  s.mod.state = 1 || ptnIds.any fun p =>
    let x := s.ptn p
    x.flow.cmds.any (fun c => !c.immediate) || x.fix.working || x.groups.any fun g => !g.rounds.isEmpty

/-- Conditions of R473 for module L3. -/
def State.l3Busy (s : State) : Bool := s.mod.state = 1 || ptnIds.any fun p => (s.ptn p).st ≠ 0

/-- Everything a core group loses in L3 (R484). -/
def State.cgLose (s : State) (mask : W32) : State :=
  let s := (mcsOf mask).foldl (fun s m => s.updMc m fun c => { strip := Strip.survive false c.strip }) s
  let s := (tesOf mask).foldl (fun s t => s.updTe t fun e => { strip := Strip.survive false e.strip }) s
  { s with ths := s.ths.dropKeys fun t => decide (t / 256 ∈ mcsOf mask) }

/-- PWR_STATE: its checks in order; core groups move under one transition and the reply follows its end; for the module the reply goes first. -/
def execPwrState (h : Hdr) (target scope : Byte) (cgMask : W32) (s : State) : Res State :=
  let s := s.ensureCmd h 0x801 true
  match s.cmdOf h with
  | none => .next s
  | some c =>
    if !s.mayStart c then .next s
    else
      let t := target.toNat
      let held := ptnIds.foldl (fun (m : W32) p => m ||| (s.ptn p).cgs) 0
      .next (
        if !(t = 2 || t = 3 || t = 0x10 || t = 0x11) || scope.toNat > 1 || (scope = 0 && (t ≥ 0x10 || cgMask = 0)) then s.reject h 0x801 St.eParam
        else if scope = 0 && cgMask &&& held ≠ 0 then s.reject h 0x801 St.eCgBusy
        else if scope = 1 && ((t = 2 && s.l2Busy) || (t = 3 && s.l3Busy)) then s.reject h 0x801 St.eBusy
        else if scope = 0 then
          let s := s.open' h 1
          (s.transBegin { target := BitVec.ofNat 2 t, mask := cgMask, hdr := some c.hdr }).powerEvent t 0 0 0 cgMask
        else
          let s := (((s.open' h 1).closeItem h 0 none).settle h)
          let s := { s with pwr := { s.pwr with due := some target } }
          if t = 3 then s.powerEvent 3 0 0 0 0
          else if t = 0x11 then s.sendEvt 0x12 (resetBody 0 0x03 (ptnIds.map s.lastEsnOf))
          else s)

/-- A transition of the module that was to begin is given up. -/
def State.dropDue (s : State) (target : Nat) : State := ({ s with pwr := { s.pwr with due := none } } : State).powerEvent target 2 1 0 0

/-- Entry into module L2 begins, unless activity has come in the meantime. -/
def execModuleL2Entry (s : State) : Res State :=
  .next (
    if s.phase ≠ .ready || s.pwr.due ≠ some 2 then s
    else if s.l2Busy then s.dropDue 2
    else (({ s with pwr := { s.pwr with due := none, lp := .selfRefresh } } : State).transBegin { target := 2, module := true }).powerEvent 2 0 0 0 0)

/-- Entry into module L3 begins: the log is written to the flash, and LPDDR5X goes to the standby supply in self-refresh (R473 steps 2 to 4). -/
def execModuleL3Entry (s : State) : Res State :=
  .next (
    if s.phase ≠ .ready || s.pwr.due ≠ some 3 then s
    else if s.l3Busy then s.dropDue 3
    else ({ s with
      pwr := { s.pwr with due := none, lp := .selfRefresh }
      saf := { s.saf with logSeed := some s.fresh }
      fresh := s.fresh + 1
      flash := s.flash.dropKeys fun o => decide (0x30000 ≤ o) && decide (o < 0x40000)
      flashBusy := true } : State).transBegin { target := 3, module := true })

/-- The L3 exit begins: the start-up on its L3 path (R474, R486). -/
def State.leaveL3 (s : State) (src : BitVec 4) (port : BitVec 6) : State :=
  { s with phase := .starting, pwr := { s.pwr with st := 0, lastWake := src, wakePort := port, wakeHeld := none, wakeN := true, boot := some (2, 0x08) } }

/-- The module stands in L3. -/
def State.inL3 (s : State) : Bool := s.phase = .standby && s.pwr.st = 3

/-- A wake source acts on a module in L2 or L3, or on its way there (R472 to R474, R493). -/
def State.wake (s : State) (src : BitVec 4) (port : BitVec 6) : State :=
  if s.inL3 then (if s.pins.pwrgd && !s.pins.lockout then s.leaveL3 src port else { s with pwr := { s.pwr with wakeHeld := s.pwr.wakeHeld.orElse fun _ => some (src, port) } })
  else
    match s.pwr.trans with
    | some t => if t.module && t.target = 3 then { s with pwr := { s.pwr with wakeHeld := s.pwr.wakeHeld.orElse fun _ => some (src, port) } } else s.wakeL2 src port
    | none => s.wakeL2 src port

/-- Six conforming pulses on a port whose bit is set. -/
def execWakeBurst (port : Fin 50) (s : State) : Res State :=
  let on := if port.val < 48 then bitAt s.pwr.wakeQp.toNat port.val else bitAt s.pwr.uapWake.toNat (port.val - 48)
  .next (if on then s.wake 2 (BitVec.ofNat 6 port.val) else s)

/-- WAKE_N low for 10 µs, not driven by the module itself. -/
def execWakeNInput (s : State) : Res State := .next (if s.pwr.wakeNEn && !s.pwr.wakeN then s.wake 3 0 else s)

/-- A transition has reached its end. -/
def State.transDone (s : State) (t : PTrans) : State :=
  let s := s.transSupplied t
  let s := { s with pwr := { s.pwr with trans := none } }
  if !t.module then
    let s := if t.target = 3 then s.cgLose t.mask else s
    let s := ({ s with pwr := s.pwr.setCgs t.mask t.target.toNat } : State).powerEvent t.target.toNat 1 0 0 t.mask
    match t.hdr with
    | some h => (s.closeItem h 0 none).settle h
    | none => s
  else if t.target = 2 then
    let s := ptnIds.foldl (fun s p => if (s.ptn p).st = 0 then s else s.updPtn p fun x => { x with l1 := x.cgs }) s
    ({ s with pwr := { s.pwr with st := 2, lp := .selfRefresh } } : State).powerEvent 2 1 0 0 0
  else if t.target = 3 then
    let s := State.survive { s with phase := .standby } 2
    let s := { s with pwr := { s.pwr.allOff with st := 3 } }
    match s.pwr.wakeHeld with
    | some w => if s.pins.pwrgd && !s.pins.lockout then s.leaveL3 w.1 w.2 else s
    | none => s
  else
    ({ s with pwr := { s.pwr with st := 0, lp := .normal, wakeN := false } } : State).powerEvent 0 1 s.pwr.lastWake s.pwr.wakePort 0

/-- An AVSBus exchange has missed a step: it is repeated, and the third failure records AVS_TIMEOUT and stops the transition (R471). -/
def State.avsMiss (s : State) (bus : Fin 5) (when' : Option W64) : State :=
  let n := s.pwr.avs.get 0 bus.val + 1
  if n < 3 then { s with pwr := { s.pwr with avs := s.pwr.avs.put 0 bus.val n } }
  else
    let c := match when' with | some t => (s, t) | none => s.now
    let s := { c.1 with pwr := { c.1.pwr with avs := c.1.pwr.avs.put 0 bus.val 0 } }
    let tr := c.1.pwr.trans
    let s := s.plat 2 0x0703 bus.val c.2
    match tr with
    | none => s
    | some t =>
      let s := s.transStop t
      let s := { s with pwr := { s.pwr with lp := if s.pwr.st = 2 then .selfRefresh else .normal } }
      let s := s.powerEvent t.target.toNat 2 0 0 t.mask
      match t.hdr with
      | some h => (s.closeItem h 0 (some St.eHwFault)).settle h
      | none => s

def execAvsRetry (bus : Fin 5) (stamp : W64) (s : State) : Res State := .next (if s.powered then s.avsMiss bus (some stamp) else s)

/-- Step 4 of an exchange; the last one of a transition ends it. -/
def execRegulatorTransitionComplete (bus : Fin 5) (readbackOk : Bool) (last : Bool) (s : State) : Res State :=
  .next (
    if !s.powered then s
    else if !readbackOk then s.avsMiss bus none
    else
      let s := { s with pwr := { s.pwr with avs := s.pwr.avs.put 0 bus.val 0 } }
      match s.pwr.trans with
      | some t => let s := s.transRails t bus.val; if last then s.transDone t else s
      | none => s)

/-! ## Inputs and pins (R480, R490 to R493, R498) -/

/-- Every rail except the standby domain goes off. In module L3 they are off already; elsewhere LPDDR5X loses its contents. -/
def State.railsOff (s : State) : State :=
  if s.inL3 then s
  else
    let t := s.survive 2
    { t with phase := .off, mem := {}, pwr := { t.pwr.allOff with boot := none, hold := .none, rails := 0, lastWake := 0, wakePort := 0, wakeN := false, wakeHeld := none, lp := .normal } }

/-- A cold start begins; it waits in the standby domain while MOD_RST_N is low. -/
def State.coldBegin (s : State) : State :=
  { s with phase := if s.pins.rstN then .starting else .standby, pwr := { s.pwr with boot := some (0, 0x01), hold := .none, rails := 0 } }

def execPwrgdInFall (s : State) : Res State :=
  .next (if !s.pins.pwrgd then s else ({ s with pins := { s.pins with pwrgd := false } } : State).railsOff)

/-- In module L3 the module waits for a wake, or takes up the one it holds. -/
def execPwrgdInRise (s : State) : Res State :=
  .next (
    if s.pins.pwrgd then s
    else
      let s := { s with pins := { s.pins with pwrgd := true } }
      if s.pins.lockout then s
      else if s.inL3 then (match s.pwr.wakeHeld with | some w => s.leaveL3 w.1 w.2 | none => s)
      else if s.phase = .off && s.pins.stby12 then s.coldBegin
      else s)

/-- While PWRGD_IN is high the lockout acts as its fall. -/
def execUndervoltageLockout (s : State) : Res State :=
  .next (
    let s := { s with pins := { s.pins with in54 := false, lockout := true } }
    if s.pins.pwrgd then s.railsOff else s)

/-- The input has been in range for 10 ms after a lockout: a cold reset, but not in module L3, which waits for a wake. -/
def execInputRestored (s : State) : Res State :=
  .next (
    let was := s.pins.lockout
    let s := { s with pins := { s.pins with in54 := true, lockout := false } }
    if !was || !s.pins.pwrgd then s
    else if s.inL3 then (match s.pwr.wakeHeld with | some w => s.leaveL3 w.1 w.2 | none => s)
    else if s.phase = .off && s.pins.stby12 then s.coldBegin
    else s)

/-- Outside module L3 only V_STBY changes, to a value that no row gives. In module L3 everything is lost; the next power-up is a cold start. -/
def execStandbyInputLoss (s : State) : Res State :=
  .next (
    if !s.pins.stby12 then s
    else
      let s := { s with pins := { s.pins with stby12 := false } }
      if s.inL3 || s.phase = .off || s.phase = .standby then
        let t := s.survive 0
        { t with phase := .off, i3c := {}, pwr := { t.pwr.allOff with boot := none, hold := .none, rails := 0 } }
      else { s with fresh := s.fresh + 1, pwr := { s.pwr with tel := { s.pwr.tel with vStby := BitVec.ofNat 16 (Config.free s.fresh 0) } } })

/-- The standby domain is powered again; with the 54 V input and PWRGD_IN there its sequencer begins a cold start. -/
def execStandbyInputReturn (s : State) : Res State :=
  .next (
    if s.pins.stby12 then s
    else
      let s := { s with pins := { s.pins with stby12 := true } }
      if s.phase = .off then (if s.pins.pwrgd && !s.pins.lockout then s.coldBegin else s)
      else { s with fresh := s.fresh + 1, pwr := { s.pwr with tel := { s.pwr.tel with vStby := BitVec.ofNat 16 (Config.free s.fresh 0) } } })

/-- MOD_RST_N low for 1 µs: after READY a warm reset begins, before it the start-up restarts; the flash goes to I3C once no steward write runs. -/
def execModRstNFall (s : State) : Res State :=
  .next (
    if !s.pins.rstN then s
    else
      let s := { s with pins := { s.pins with rstN := false }, i3c := { s.i3c with owned := !s.flashBusy } }
      match s.phase with
      | .ready => s.warmBegin 0x02 .none
      | .stopped => { s with phase := .starting }
      | _ => s)

/-- MOD_RST_N rises: the flash returns to the steward, an I3C operation still running is aborted and leaves what it was changing undefined, and a cold start that waited begins. -/
def execModRstNRise (s : State) : Res State :=
  .next (
    if s.pins.rstN then s
    else
      let s := match s.i3c.op with
        | some (o, bs) => { s with fresh := s.fresh + 1, flash := s.flash.putList none o ((List.range bs.length).map fun i => some (BitVec.ofNat 8 (Config.free s.fresh i))) }
        | none => s
      let s := { s with pins := { s.pins with rstN := true }, i3c := { s.i3c with owned := false, busy := false, op := none } }
      if s.phase = .standby && s.pwr.boot = some (0, 0x01) then { s with phase := .starting } else s)

end Sys2Proof.Machine
end

