-- ==== Sys2Proof/Machine/Security.lean ====
section
/-! DEFINITION. Quotes, traffic keys, Safelight and the random generator (R449 to R464). -/

namespace Sys2Proof.Machine

/-! ## Keys -/

/-- The number of a private key or of a signature made from 32 bytes. -/
def scalarOf (b : List Byte) : Nat := beNat b % (P256.n - 1) + 1

namespace State

/-- A signature's own number, which the spec does not say how the module makes: a free value (DESIGN CHOICE, log entry 4). -/
def signNonce (s : State) : State × Nat := ({ s with fresh := s.fresh + 1 }, Config.free s.fresh 0 % (P256.n - 1) + 1)

/-- The attestation key of a partition (R449). -/
def attestKey (s : State) (p : PtnId) : Nat :=
  let x := s.ptn p
  P256.keygen s.sec.cdi1 (ascii "AQD9-PAK" ++ leBytes 1 p.val ++ leBytes 8 x.mem.keyLabel.toNat ++ leBytes 8 x.flow.createMen.toNat)

def aliasKey (s : State) : Nat := P256.keygen s.sec.cdi1 (ascii "AQD9-ALIAS")
def deviceKey (s : State) : Nat := P256.keygen s.sec.uds (ascii "AQD9-DEVID")

/-- Signs bytes with the attestation key of a partition. -/
def attestSign (s : State) (p : PtnId) (bs : List Byte) : State × List Byte :=
  let k := s.signNonce
  (k.1, P256.sign (s.attestKey p) (sha256 bs) k.2)

end State

/-- A number as upper-case hex digits, two for each byte. -/
def hexDigit (n : Nat) : Byte := BitVec.ofNat 8 (if n < 10 then 48 + n else 55 + n)
def hexText (bs : List Byte) : List Byte := bs.flatMap fun b => [hexDigit (b.toNat / 16), hexDigit (b.toNat % 16)]

namespace State

/-- What every certificate holds: its serial, its notAfter and its key identifiers, from the subject's and the issuer's public keys (R451). -/
def certInfo (subject issuer cn : List Byte) : Config.CertInfo :=
  { subjectKey := subject, serial := (sha256 subject).take 16, notAfter := ascii "99991231235959Z", cn := cn, subjectKeyId := keyId subject, authorityKeyId := keyId issuer }

/-- A certificate signed with an issuer's private key in this boot. -/
def certify (s : State) (issuer : Nat) (c : Config.CertInfo) : List Byte :=
  let tbs := Config.tbsCertificate c
  derCertificate tbs (P256.sign issuer (sha256 tbs) (Config.certNonce s.sec.boots tbs % (P256.n - 1) + 1))

/-- The Alias certificate, issued by the DeviceID key (R451). -/
def aliasCert (s : State) : List Byte :=
  s.certify s.deviceKey { certInfo (P256.publicKey s.aliasKey) (P256.publicKey s.deviceKey) (ascii "AQD9 Alias ") with
    caPathLen := some 0, keyCertSign := true
    tcbInfo := some { vendor := ascii "Synartum", model := ascii "AQD9", version := s.sec.fwVersion, svn := s.sec.fwVersion, fwids := [s.sec.fwDigest, s.sec.cfgDigest] } }

/-- The certificate of a partition, issued by the Alias key (R451). -/
def ptnCert (s : State) (p : PtnId) : List Byte :=
  let x := s.ptn p
  s.certify s.aliasKey { certInfo (P256.publicKey (s.attestKey p)) (P256.publicKey s.aliasKey)
      (ascii "AQD9 " ++ hexText s.sec.ueid ++ ascii " P" ++ [BitVec.ofNat 8 (48 + p.val / 10), BitVec.ofNat 8 (48 + p.val % 10)]) with
    subjectSerial := some (hexText (beBytes 8 x.mem.keyLabel.toNat) ++ ascii "-" ++ hexText (beBytes 8 x.flow.createMen.toNat)), digitalSignature := true }

end State

/-! ## ATTEST_QUOTE (R458) -/

/-- Resident models in ascending handle. -/
def insertModel (m : Model) : List Model → List Model
  | [] => [m]
  | k :: r => if m.handle ≤ k.handle then m :: k :: r else k :: insertModel m r

def byHandle (ms : List Model) : List Model := ms.foldr insertModel []

/-- MODELS_DIGEST. -/
def modelsDigest (ms : List Model) : List Byte :=
  if ms.isEmpty then List.replicate 32 0 else sha256 ((byHandle ms).flatMap fun m => leBytes 2 m.handle ++ padTo 32 m.hash)

namespace State

/-- Bytes 0 to 239 of a quote. -/
def quoteBody (s : State) (h : Hdr) (nonce : List Byte) : List Byte :=
  let p := h.ptn
  let x := s.ptn p
  let sealed := s.mod.state = 2
  let flags := b2n (decide sealed) + 2 * b2n x.sharedMapped + 4 * b2n (s.slOpen p) + 8 * b2n x.flow.slSeen + 16 * b2n s.sec.unlock.isSome
  leBytes 4 0x54515141 ++ leBytes 2 1 ++ leBytes 2 flags ++ leBytes 8 p.val ++ padTo 16 s.sec.ueid ++
    leBytes 8 x.flow.createMen.toNat ++ leBytes 8 x.mem.keyLabel.toNat ++ leBytes 4 h.seq.toNat ++ leBytes 4 h.queue.val ++
    leBytes 4 s.sec.fwVersion.toNat ++ leBytes 4 s.sec.cfgVersion.toNat ++ padTo 32 s.sec.fwDigest ++ padTo 32 s.sec.cfgDigest ++
    padTo 32 (if sealed then s.mod.hash else []) ++ leBytes 8 (if sealed then s.mod.fill.toNat else 0) ++ leBytes 8 0 ++
    modelsDigest x.models ++ padTo 32 nonce

/-- The quote, and with CHAIN the two certificates, each after its length. -/
def quote (s : State) (h : Hdr) (nonce : List Byte) (chain : Bool) : State × List Byte :=
  let body := s.quoteBody h nonce
  let g := s.attestSign h.ptn body
  let cert := fun (c : List Byte) => leBytes 4 c.length ++ c
  (g.1, body ++ g.2 ++ if chain then cert (s.ptnCert h.ptn) ++ cert s.aliasCert else [])

/-- Completes the one item of a command with a result block. -/
def answer (s : State) (h : Hdr) (r : List Byte) : State := (s.setResult h r).closeItem h 0 none

end State

/-- Samples its state when it starts, in queue order. -/
def execAttestQuote (h : Hdr) (nonce : List Byte) (chain : Bool) (s : State) : Res State :=
  .next (s.queued h 0x130 (.attestQuote h nonce chain) (fun _ => none) (fun _ => 1) fun s =>
    let q := s.quote h nonce chain
    q.1.answer h q.2)

/-! ## KEY_EXCHANGE (R459) -/

namespace State

def tkey (s : State) (p : PtnId) (slot : Nat) : TKey := (s.ptn p).tkeys.get {} slot
def setTkey (s : State) (p : PtnId) (slot : Nat) (t : TKey) : State := s.updPtn p fun x => { x with tkeys := x.tkeys.put {} slot t }

/-- GENERATE: a pair for the slot, whose key is cleared. -/
def kxGenerate (s : State) (h : Hdr) (slot : Nat) (nonce : List Byte) : State :=
  let d := s.draw
  let k := scalarOf d.2
  let pub := P256.publicKey k
  let s := d.1.setTkey h.ptn slot { key := none, pend := some k }
  let g := s.attestSign h.ptn (ascii "AQD9-KX" ++ pub ++ nonce ++ leBytes 8 (s.ptn h.ptn).flow.createMen.toNat)
  g.1.answer h (pub ++ nonce ++ g.2)

/-- Order of two public keys as strings of bytes. -/
def keyPair (a b : List Byte) : List Byte := if beNat a ≤ beNat b then a ++ b else b ++ a

/-- COMPLETE: the slot's key from its pending pair and the peer's public key. -/
def kxComplete (s : State) (h : Hdr) (slot : Nat) (d : Nat) (peer : List Byte) (q : Nat × Nat) : State :=
  let key := hkdf (P256.ecdh d q) [] (ascii "AQD9-QTK" ++ sha256 (keyPair (P256.publicKey d) peer)) 32
  (s.setTkey h.ptn slot { key := some key }).closeItem h 0 none

/-- RANDOM: a key from the random generator; a pending pair of the slot stays. -/
def kxRandom (s : State) (h : Hdr) (slot : Nat) : State :=
  let d := s.draw
  (d.1.setTkey h.ptn slot { s.tkey h.ptn slot with key := some d.2, pktNum := 1 }).closeItem h 0 none

/-- EXPORT; the wrap of a slot that holds no key is a free value. -/
def kxExport (s : State) (h : Hdr) (slot : Nat) (kek : List Byte) : State :=
  match (s.tkey h.ptn slot).key with
  | some key => s.answer h (keyWrap kek key)
  | none => ({ s with fresh := s.fresh + 1 } : State).answer h ((List.range 40).map fun i => BitVec.ofNat 8 (Config.free s.fresh i))

/-- IMPORT: the slot takes the key, and the wrapping slot is cleared. -/
def kxImport (s : State) (h : Hdr) (slot src : Nat) (key : List Byte) : State :=
  ((s.setTkey h.ptn slot { s.tkey h.ptn slot with key := some key, pktNum := 1 }).setTkey h.ptn src {}).closeItem h 0 none

/-- A mode whose conditions fail changes nothing but its item (DESIGN CHOICE, log entry 41). -/
def kxRun (s : State) (h : Hdr) (mode slot src : Nat) (data : List Byte) : State :=
  let t := s.tkey h.ptn slot
  let bad := s.closeItem h 0 (some St.eParam)
  match mode with
  | 0 => s.kxGenerate h slot (data.take 32)
  | 1 => match t.pend, P256.ofBytes data with | some d, some q => s.kxComplete h slot d data q | _, _ => bad
  | 2 => s.kxRandom h slot
  | 3 => match (s.tkey h.ptn src).key with | some kek => s.kxExport h slot kek | none => bad
  | _ =>
    match (s.tkey h.ptn src).key with
    | none => bad
    | some kek => match keyUnwrap kek (data.take 40) with | some key => s.kxImport h slot src key | none => bad

end State

def execKeyExchange (h : Hdr) (mode slot srcSlot : Byte) (data : List Byte) (s : State) : Res State :=
  .next (s.queued h 0x131 (.keyExchange h mode slot srcSlot data)
    (fun _ => if mode.toNat > 4 || slot.toNat > 15 || srcSlot.toNat > 15 then some St.eParam else none) (fun _ => 1)
    fun s => s.kxRun h mode.toNat slot.toNat srcSlot.toNat (padTo 64 data))

/-! ## Safelight (R461 to R463) -/

namespace State

/-- What UNLOCK checks besides the token's form (R462; DESIGN CHOICE, log entry 41). -/
def tokenBad (s : State) (t : Token) : Bool :=
  !P256.verify s.sec.slKey (sha256 (Token.signed t)) t.sig || decide (t.ueid ≠ s.sec.ueid) || decide (s.sec.challenge ≠ some t.challenge) ||
    decide (t.scope &&& ~~~s.sec.slScopes ≠ 0) || (ptnIds.any fun p => bitAt t.ptnMask.toNat p && (s.ptn p).st = 0)

/-- Opens the scope for the named partitions as they were created; the challenge is used. -/
def openSafelight (s : State) (t : Token) : State :=
  let named : List PtnId := ptnIds.filter fun p => bitAt t.ptnMask.toNat p.val
  let u : Unlock := { ptns := named.map fun p => (p.val, (s.ptn p).flow.createMen), mask := t.ptnMask, scope := BitVec.ofNat 5 t.scope.toNat, remainS := BitVec.ofNat 17 t.durationS.toNat }
  named.foldl (fun s p => s.updFlow p fun f => { f with slSeen := true }) { s with sec := { s.sec with unlock := some u, challenge := none } }

end State

/-- CHALLENGE, UNLOCK or LOCK; a token of another form is E_PARAM. -/
def execSafelightUnlock (h : Hdr) (mode : Byte) (t : Token) (s : State) : Res State :=
  .next (s.atOnce h 0xF04 fun s =>
    match mode.toNat with
    | 0 =>
      let d := s.draw
      ({ d.1 with sec := { d.1.sec with challenge := some d.2 } }, .ok ([doneItem], d.2 ++ padTo 16 s.sec.ueid))
    | 1 =>
      if t.magic ≠ 0x4B535141 || t.durationS = 0 || t.durationS.toNat > 86400 then (s, .error St.eParam)
      else if s.tokenBad t then (s, .error St.eAccess)
      else (s.openSafelight t, .ok ([doneItem], []))
    | 2 => ({ s with sec := { s.sec with unlock := none } }, .ok ([doneItem], []))
    | _ => (s, .error St.eParam))

def execSafelightChallengeExpiry (s : State) : Res State := .next { s with sec := { s.sec with challenge := none } }

def execSafelightExpiry (s : State) : Res State := .next { s with sec := { s.sec with unlock := none } }

/-- The generator is reseeded: its count of requests starts again. -/
def execDrbgReseed (s : State) : Res State := .next { s with sec := { s.sec with drbgCount := 0 } }

namespace State

/-- A debug access that the unlock in force exposes: the port's data register takes what it reads. -/
def debugDone (s : State) (v : W64) : State := { s with pins := { s.pins with jtag := 4, tdo := v } }

/-- The window of a partition address, if its span of 8 bytes lies in one granule that may be reached so. -/
def debugWin (s : State) (p : PtnId) (a : Nat) (shared write : Bool) : Bool :=
  inLp a && ((s.ptn p).check a 8 write).isNone && decide (winOf a = winOf (a + 7)) && ((s.ptn p).mem.wins.get {} (winOf a)).shared = shared

/-- Reads through the partition's windows, under their keys. -/
def debugRead (s : State) (p : PtnId) (a : Nat) : State :=
  match s.pRead p Who.firmware a 8 with
  | (s, .ok b) => s.debugDone (BitVec.ofNat 64 (leNat b))
  | (s, .error _) => { s with fresh := s.fresh + 1 }.debugDone (BitVec.ofNat 64 (Config.free s.fresh 0))

def debugWrite (s : State) (p : PtnId) (a : Nat) (v : W64) : State := ((s.pWrite p Who.firmware a (leBytes 8 v.toNat)).1).debugDone v

/-- Blocks that REGS exposes for a partition: its PTN_ block, and MC_ and TE_ of its core groups. -/
def debugBlk (s : State) (p : PtnId) (b : Blk) : Bool :=
  match b with
  | .ptn q => q = p
  | .mc n => bitAt (s.ptn p).cgs.toNat (n / 8)
  | .te n => bitAt (s.ptn p).cgs.toNat (n / 2)
  | _ => false

/-- REGS: a register of an exposed block. -/
def debugReg (s : State) (p : PtnId) (a : Nat) (write : Option W64) : State :=
  match regBlock a with
  | some (b, o) =>
    if a % 8 ≠ 0 || !s.debugBlk p b then s
    else match write with
      | none => s.debugDone (s.peek a)
      | some v => (s.putBlk b o true { v := v }).1.debugDone v
  | none => s

/-- What an access does within its scope bit (DESIGN CHOICE, log entry 49). -/
def debugAccess (s : State) (p : PtnId) (mc a : Nat) (write : Option W64) : Nat → State
  | 0 => if bitAt (s.ptn p).cgs.toNat (mc / 8) then { s with fresh := s.fresh + 1 }.debugDone (BitVec.ofNat 64 (Config.free s.fresh 0)) else s
  | 1 => if write.isNone && s.debugWin p a false false then s.debugRead p a else s
  | 2 => match write with | some v => if s.debugWin p a false true then s.debugWrite p a v else s | none => s
  | 3 => s.debugReg p a write
  | _ => if write.isNone && (s.ptn p).sharedMapped && s.debugWin p a true false then s.debugRead p a else s

end State

/-- Within the scope in force and for a partition it covers, the access is made; every other one is refused and changes nothing. -/
def execSafelightDebugAccess (scopeBit : Fin 5) (p : PtnId) (mc : McId) (addr : W64) (write : Option W64) (s : State) : Res State :=
  .next (
    match s.sec.unlock with
    | none => s
    | some u => if s.slOpen p && bitAt u.scope.toNat scopeBit then s.debugAccess p mc.val addr.toNat write scopeBit.val else s)

end Sys2Proof.Machine
end

