-- ==== Sys2Proof/Machine/Kv.lean ====
section
/-! DEFINITION. KV pages, and the forward pass of a generation model over them: prefill chunks, verify steps, drafts (R201 to R209, R212). -/

namespace Sys2Proof.Machine

/-! ## Pages (R202 to R205) -/

/-- Where position i of a page with keys of width w has its K elements, K scales, V elements and V scales: offset and length. -/
def kvParts (w i : Nat) : List (Nat × Nat) :=
  [(i * w, w), (64 * w + i * (w / 32), w / 32), (66 * w + i * w, w), (130 * w + i * (w / 32), w / 32)]

/-- Elements and scales of a position in Q8, 1 × 32 ROW blocks (R34, R202). -/
def kvBytes (t : Short) (w r : Nat) : List (List Byte) :=
  [(List.range w).map fun e => BitVec.ofNat 8 (Tab.get 0 t (r * w + e)).toNat,
   (List.range (w / 32)).map fun b => BitVec.ofNat 8 ((Tab.get 0 t (r * w + 32 * b)).toNat / 256)]

/-- A position's exact values. -/
def kvRow (el sc : List Byte) (w : Nat) : List Nat :=
  (List.range w).map fun e => (b32.round (memValue .q8 (el.getD e 0).toNat (sc.getD (e / 32) 0).toNat)).1

/-- A layer's K or V conversion, of rows from position p0: BLOCK mode, SAT = 1, the command's rounding. Index i of R47 counts from position 0, so that a block depends on its own position only (R203). -/
def kvQuant (sr : Nat → Option Nat) (p0 : Nat) (x : Mat) : Short × Ev := quantise q8 true (fun i => sr (p0 * x.cols + i)) 1 x.rows x.cols x.val

/-- The values that a page then holds. -/
def kvMat (t : Short) (rows cols : Nat) : Mat := Mat.of rows cols fun r c => (b32.round (shortValue q8 t (r * cols + c))).1

/-- K and V that a pass has computed, by layer. -/
abbrev KvNew := List (Nat × Short × Short)

namespace State

/-- Accesses one after another, their answers gathered in order. -/
def accAll {α β : Type} (f : State → α → Acc β) : List α → State → Acc (List β)
  | [], s => (s, .ok [])
  | x :: l, s => Acc.bind (f s x) fun s y => Acc.bind (accAll f l s) fun s r => (s, .ok (y :: r))

def poolRead (s : State) (p : PtnId) (m : Model) (off n : Nat) : Acc (List Byte) :=
  Acc.bind (accAll (fun s (e : Nat × Nat) => s.pRead p Who.firmware e.1 e.2) (m.poolPieces off n) s) fun s r => (s, .ok r.flatten)

def poolWrite (s : State) (p : PtnId) (m : Model) (off : Nat) (bs : List Byte) : Acc Unit :=
  let ps := m.poolPieces off bs.length
  Acc.bind (accAll (fun s (e : (Nat × Nat) × Nat) => s.pWrite p Who.firmware e.1.1 ((bs.drop e.2).take e.1.2)) (ps.zip (0 :: ps.map (·.2))) s) fun s _ => (s, .ok ())

/-- Offset in the pool of position n of a stream in one layer. -/
def pageOff (m : Model) (pages : List Nat) (n : Nat) : Nat := pages.getD (n / 64) 0 * m.pageUnit

/-- K and V of a position in one layer, as its page holds them. -/
def kvRead (s : State) (p : PtnId) (m : Model) (pages : List Nat) (w n : Nat) : Acc (List Nat × List Nat) :=
  Acc.bind (accAll (fun s (e : Nat × Nat) => s.poolRead p m (pageOff m pages n + e.1) e.2) (kvParts w (n % 64)) s) fun s b =>
    (s, .ok (kvRow (b.getD 0 []) (b.getD 1 []) w, kvRow (b.getD 2 []) (b.getD 3 []) w))

/-- K and V of the first n positions of one layer. -/
def kvLayer (s : State) (p : PtnId) (m : Model) (pages : List Nat) (w n : Nat) : Acc (Mat × Mat) :=
  Acc.bind (accAll (fun s i => s.kvRead p m pages w i) (List.range n) s) fun s rs => (s, .ok (Mat.ofRows w (rs.map (·.1)), Mat.ofRows w (rs.map (·.2))))

/-- K and V of the first n positions of each attention layer, from a stream's pages. -/
def kvAll (s : State) (p : PtnId) (m : Model) (pages : List (List Nat)) (n : Nat) : Acc (List (Nat × Mat × Mat)) :=
  accAll (fun s (e : (Nat × Layer) × Nat) => Acc.bind (s.kvLayer p m (pages.getD e.2 []) (m.image.kvWidth e.1.2) n) fun s x => (s, .ok (e.1.1, x)))
    (m.image.numbered.filter (·.2.kind = 3)).zipIdx s

/-- Writes one position of a layer to its slot (R203, R205). -/
def kvWrite (s : State) (p : PtnId) (m : Model) (pages : List Nat) (w n r : Nat) (k v : Short) : Acc Unit :=
  Acc.bind (accAll (fun s (e : (Nat × Nat) × List Byte) => s.poolWrite p m (pageOff m pages n + e.1.1) e.2) ((kvParts w (n % 64)).zip (kvBytes k w r ++ kvBytes v w r)) s) fun s _ => (s, .ok ())

/-- Writes the K and V of a pass: `rows` positions from p0. -/
def kvPut (s : State) (p : PtnId) (m : Model) (pages : List (List Nat)) (p0 rows : Nat) (new : KvNew) : Acc Unit :=
  Acc.bind (accAll (fun s (e : ((Nat × Short × Short) × Nat) × Nat) =>
    s.kvWrite p m (pages.getD e.1.2 []) (m.image.kvWidth (m.image.layers.getD e.1.1.1 {})) (p0 + e.2) e.2 e.1.1.2.1 e.1.1.2.2)
      (new.zipIdx.flatMap fun e => (List.range rows).map fun r => (e, r)) s) fun s _ => (s, .ok ())

end State

/-! ## Attention over pages (R205, R206) -/

namespace Net

/-- Rows of one head of a matrix up to position n. -/
def headRows (x : Mat) (c0 d n : Nat) : List (List W32) := (List.range n).map fun j => (List.range d).map fun e => BitVec.ofNat 32 (x.get j (c0 + e))

/-- Decode and verify attention on the scalar cores: each row sees the committed slots and those of its own step up to itself. The spec gives no order of its binary32 arithmetic, so its output is a free function of the exact operands (DESIGN CHOICE, log entry 30). -/
def decodeAttend (w : Net) (l : Layer) (p0 : Nat) (q ks vs : Mat) : Mat :=
  let d := w.headWidth l
  Mat.of q.rows (qHeads l * d) fun i c =>
    let kh := c / d / (qHeads l / kvHeads l) * d
    (Config.decodeAttend l.fval ((List.range d).map fun e => BitVec.ofNat 32 (q.get i (c / d * d + e)))
      (headRows ks kh d (p0 + i + 1)) (headRows vs kh d (p0 + i + 1)) (c % d)).toNat

/-- A short operand made by one conversion in BLOCK mode. -/
def copyOf (sat : Bool) (sr : Nat → Option Nat) (shape : Nat) (x : Mat) : Ct Elem := do
  let c ← Ct.lift (quantise q6 sat sr shape x.rows x.cols x.val)
  pure (shortOperand x.cols c)

/-- Prefill attention on the arrays: a Q6 copy of K in 1 × 32 blocks along the head, one of V along positions, SAT = 1 and to nearest even; queries and probabilities are streamed operands (R206). -/
def chunkAttend (w : Net) (l : Layer) (p0 : Nat) (q ks vs : Mat) : Ct Mat := do
  let ke ← copyOf true (fun _ => none) 1 ks
  let ve ← copyOf true (fun _ => none) 3 vs
  let qe ← w.quant q6 0 q
  let d := w.headWidth l
  let hs ← (List.range (qHeads l)).mapM fun h => do
    let y ← w.scores l h q.rows ks.rows qe ke
    let lam ← w.lambdas p0 y
    let p ← w.probs p0 y lam
    let pe ← w.quant q6 0 p
    one q.rows ks.rows d pe (slab ve (h / (qHeads l / kvHeads l) * d))
  pure (Mat.of q.rows (qHeads l * d) fun r c => (hs.getD (c / d) {}).get r (c % d))

/-- One layer of a generation pass: K and V go to their slots before attention reads them (R207, R212). -/
def serveLayer (w : Net) (chunk : Bool) (l : Layer) (i p0 : Nat) (kv : Nat → Mat × Mat) (toks : List Nat) (st : Fwd × KvNew) : Ct (Fwd × KvNew) :=
  if l.kind ≠ 3 then do
    let f ← w.layer l i p0 (fun _ => ({}, {})) toks st.1
    pure (f, st.2)
  else do
    let q ← w.apply (role l 0) st.1.cur
    let k ← w.apply (role l 1) st.1.cur
    let v ← w.apply (role l 2) st.1.cur
    let k8 ← Ct.lift (kvQuant w.sr p0 k)
    let v8 ← Ct.lift (kvQuant w.sr p0 v)
    let ks := (kv i).1.under (kvMat k8 k.rows k.cols)
    let vs := (kv i).2.under (kvMat v8 v.rows v.cols)
    let a ← if chunk then w.chunkAttend l p0 q ks vs else pure (w.decodeAttend l p0 q ks vs)
    let y ← w.linear (role l 3) a st.1.res.load
    let res := Mat.sums st.1.res.rows st.1.res.cols y
    pure ({ st.1 with res := res, saves := st.1.saves ++ [{}], outs := st.1.outs ++ [res] }, st.2 ++ [(i, k8, v8)])

/-- A model over positions p0 onwards of one stream, with the K and V of the positions before. -/
def serve (w : Net) (chunk : Bool) (p0 : Nat) (kv : Nat → Mat × Mat) (toks : List Nat) : Ct (Fwd × KvNew) :=
  (w.im.numbered).foldlM (fun st e => w.serveLayer chunk e.2 e.1 p0 kv toks st) ({}, [])

end Net

/-- Erg bytes of a chunk's copies of the first n positions (R206). -/
def Image.chunkCopies (im : Image) (n : Nat) : Nat :=
  (im.attention.map fun l =>
    let t : TensorDesc := { type := 5, rows := BitVec.ofNat 32 n, cols := BitVec.ofNat 32 (im.kvWidth l) }
    descBytes { t with shape := 1 } + descBytes { t with shape := 3 }).sum

/-! ## A pass of a stream's model -/

/-- Keys of a stream's program and images: what an expert program's logits may depend on (R209). -/
def Ptn.streamKey (x : Ptn) (t : Stream) : List Byte :=
  (((x.model? t.model).map (·.hash)).getD []) ++ t.prog ++ (((t.versions.getD []).filter (·.1 = t.model)).flatMap fun e => leBytes 8 e.2.1 ++ leBytes 8 e.2.2.toNat) ++
    if t.onFallback then leBytes 4 t.fallbackFirst.toNat else []

def Ptn.streamVocab (x : Ptn) (t : Stream) : Nat := ((x.model? t.req.model.toNat).map (·.image.vocab)).getD 0

def Stream.hdr (t : Stream) (p : PtnId) : Hdr := { ptn := p, queue := t.queue, seq := t.seq }

/-- What a pass gives: the logits of its rows, as SUM words, and what it counts. -/
structure Pass where
  logits : List (List Nat) := []
  ev : Ev := {}
deriving DecidableEq, Repr

namespace State

/-- The hash of the variant that a stream sampled, for the passes of its verifier (R214). -/
def variantOf (s : State) (p : PtnId) (t : Stream) (model : Nat) : Option (List Byte) :=
  match t.variant with
  | none => none
  | some v => if t.onFallback || model ≠ t.req.model.toNat then none
    else ((s.ptn p).serve.variants.find? fun a => a.model = model && a.tag = t.req.customerTag && a.version = v).map (·.hash)

/-- K and V that an expert program's kernels write, and what they count: free values (DESIGN CHOICE, log entry 30). -/
def expertPass (s : State) (p : PtnId) (t : Stream) (m : Model) (n : Nat) (seq : List W32) (rows : List Nat) : KvNew × Pass :=
  let new := (m.image.numbered.filter (·.2.kind = 3)).map fun e =>
    let w := m.image.kvWidth e.2
    let f := fun (k : Nat) => (kvQuant (fun _ => none) 0 (Mat.of n w fun r c => (Config.kernelWord s.fresh (40 + k) e.1 (r * w + c)).toNat)).1
    (e.1, f 0, f 1)
  let x := s.ptn p
  let key := x.streamKey t
  let ver := if t.onFallback then 0 else t.variant.getD 0
  (new, { logits := rows.map fun r => (List.range (x.streamVocab t)).map fun v => (Config.logit key ver t.chunkMax (seq.take (seq.length - n + r + 1)) v).toNat, ev := kernelEv s.fresh 0 })

/-- A pass of a basic-level stream: the net, the K and V of the positions before, the layers, then K and V of its own positions. Decode attention counts what its kernel counts. -/
def netPass (s : State) (p : PtnId) (t : Stream) (m : Model) (c : CmdRec) (pages : List (List Nat)) (chunk : Bool) (seq : List W32) (n : Nat) (rows : List Nat) : Acc Pass :=
  let p0 := seq.length - n
  Acc.bind (s.netOf p m (t.versions.getD []) c (fun _ => 0) (s.variantOf p t m.handle)) fun s w =>
    let w := { w with keep := false, row0 := p0 }
    let toks := (seq.drop p0).map (·.toNat)
    match netsBad w none toks with
    | some e => (s, .error e)
    | none => Acc.bind (s.kvAll p m pages p0) fun s kv =>
        let o := (w.serve chunk p0 (kvAt kv) toks).run'
        let y := (w.project 7 (Mat.ofRows o.1.1.cur.cols (rows.map o.1.1.cur.row))).run'
        let ev := (o.2.add y.2).add (if decide (m.handle ∈ c.sliced) then {} else w.weightEv)
        Acc.bind (s.kvPut p m pages p0 n o.1.2) fun s _ => (s, .ok { logits := (List.range rows.length).map y.1.row, ev := if chunk then ev else ev.add (kernelEv s.fresh 0) })

/-- Runs the last n tokens of a sequence through a model of a stream, on the arrays as a chunk or as a decode step: K and V into the pages, and the logits of the rows named. The slices of its trainable weights count once for the command. -/
def pass (s : State) (p : PtnId) (t : Stream) (model : Nat) (pages : List (List Nat)) (chunk : Bool) (seq : List W32) (n : Nat) (rows : List Nat) : Acc Pass :=
  match (s.ptn p).model? model, s.cmdOf (t.hdr p) with
  | some m, some c =>
    let copies := if chunk then m.image.chunkCopies seq.length else 0
    if !(s.ptn p).ergFits copies then (s, .error St.eErgFull)
    else
      let s := s.updPtn p (·.trim copies)
      Acc.bind (if t.prog ≠ [] then
          let r := s.expertPass p t m n seq rows
          Acc.bind (s.kvPut p m pages (seq.length - n) n r.1) fun s _ => (s, .ok r.2)
        else s.netPass p t m c pages chunk seq n rows) fun s r =>
        (({ s with fresh := s.fresh + 1 } : State).updCmd (t.hdr p) fun c => { c with sliced := if decide (model ∈ c.sliced) then c.sliced else c.sliced ++ [model] }, .ok r)
  | _, _ => (s, .error St.eHandle)

end State

/-! ## Choosing a token (R207, R208) -/

/-- The verifier's choice from the logits at position p (R208). Where no entry qualifies the spec states no choice: a free value. -/
def Stream.choose (t : Stream) (p : Nat) (a : List Nat) : Ct W32 := do
  let none' := Config.noToken (a.map (BitVec.ofNat 32 ·))
  let temp := if t.req.sample then t.req.temp.toNat else fOne
  let ys ← scaled (b32.fdiv log2eW temp).1 a
  let l ← lseAll ys
  if !t.req.sample then
    match ((ys.mapIdx fun i y => (y, i)).foldl (topkAdd 1) []).head? with
    | some e => pure (BitVec.ofNat 32 e.2)
    | none => pure none'
  else do
    let u := (XVal.ofNat (srWord t.req.seed.toNat 0 p)).scale (-32)
    let r ← ys.zipIdx.foldlM (fun (st : Entry × Option Nat × Option Nat) e => do
      let d ← Ct.fsub e.1 l
      let q ← Ct.exp2 d
      let acc ← Ct.promote st.1 q
      let hit := match st.2.1 with | some v => some v | none => if u.lt (b32.decode acc.sum.toNat) then some e.2 else none
      pure (acc, hit, if isPos q then some e.2 else st.2.2)) ({}, none, none)
    match r.2.1, r.2.2 with
    | some v, _ => pure (BitVec.ofNat 32 v)
    | none, some v => pure (BitVec.ofNat 32 v)
    | none, none => pure none'

/-- The choices of a verify step, at positions p onwards (R207 step 3). -/
def Stream.chooseAll (t : Stream) (p : Nat) (rows : List (List Nat)) : Ct (List W32) := rows.zipIdx.mapM fun e => t.choose (p + e.2) e.1

/-- How many drafts the choices agree with (R207 step 4). -/
def agreed : List W32 → List W32 → Nat
  | d :: ds, v :: vs => if d = v then agreed ds vs + 1 else 0
  | _, _ => 0

namespace State

/-- Drafts after a sequence (R207 step 1): the first pass also takes the committed tokens the draft has not seen. More than nine positions run as a chunk does (DEDUCED, log entry 30). -/
def draft (p : PtnId) (t : Stream) : Nat → Nat → List W32 → State → Acc (List W32 × Ev)
  | 0, _, _, s => (s, .ok ([], {}))
  | d + 1, n, seq, s =>
    Acc.bind (s.pass p t t.req.draft.toNat t.dpages (decide (9 < n)) seq n [n - 1]) fun s r =>
      let k := Config.draftToken ((r.logits.headD []).map (BitVec.ofNat 32 ·))
      let tok := BitVec.ofNat 32 (k.toNat % max 1 ((s.ptn p).streamVocab t))
      Acc.bind (draft p t d 1 (seq ++ [tok]) s) fun s x => (s, .ok (tok :: x.1, r.ev.add x.2))

/-- A Mirage step of a stream: its accepted drafts, the verifier's own token, and what it counts (R207). -/
def mirage (s : State) (p : PtnId) (t : Stream) : Acc (List W32 × W32 × Ev) :=
  let base := t.prompt ++ t.toks ++ [t.pending]
  Acc.bind (draft p t t.stepDepth (base.length - t.dc) base s) fun s (ds, e1) =>
    let n := 1 + ds.length
    Acc.bind (s.pass p t t.model t.pages false (base ++ ds) n (List.range n)) fun s r =>
      let vs := (t.chooseAll t.c r.logits).run'
      let a := agreed ds vs.1
      (s, .ok (ds.take a, vs.1.getD a 0, (e1.add r.ev).add vs.2))

end State

end Sys2Proof.Machine
end

