-- ==== Sys2Proof/Machine/Training.lean ====
section
/-! DEFINITION. Training commands: distillation steps, evaluation, single micro-batches, updates, and the events of the stash and the contact path (R143 to R167, R182 to R198, R330, R331, R412). -/

namespace Sys2Proof.Machine

/-! ## Checks at the start -/

/-- A set of a model that commands name is invalid (R412). -/
def Ptn.invalidSet (x : Ptn) (ms : List Nat) : Bool := ms.any fun m => match x.model? m with | some y => y.sets.any (·.invalid) | none => false

/-- A set of a model is in training: micro-batches refer to it, or it has received an update (R198). -/
def Ptn.inTraining (x : Ptn) (m : Nat) : Bool :=
  match x.model? m with
  | some y => y.sets.any (·.updated) || x.train.mbs.any fun b => b.versions.any fun e => e.1 = m
  | none => false

/-- A weight set that a program reads is in training (R198). -/
def Ptn.setsInTraining (x : Ptn) (vs : List (Nat × Nat × W64)) : Bool := vs.any fun e =>
  ((x.set? e.1 e.2.1).map (·.updated)).getD false || x.train.mbs.any fun b => b.versions.any fun y => y.1 = e.1 && y.2.1 = e.2.1

/-- The firmware's own conversions go from long operands to short ones, which KEEP does not allow (R44). -/
def Ptn.keepBad (x : Ptn) (ms : List Nat) : Bool := ms.any fun m => match x.model? m with
  | some y => y.image.layers.any (·.kind = 3) || (productTensors y.image.layers).any fun i => !(y.image.tensors.getD i {}).trainable
  | none => false

/-- d_T summed over the taps, each rounded up to 32 and with its scales (R166). -/
def Ptn.tapBytes (x : Ptn) (r : Train) (prog : Option Image) : Nat :=
  ((x.tapDims r prog).map fun d => let d := 32 * ceilDiv d 32; r.contact.tapRows.toNat * (d + d / 32)).sum

/-- Contact buffer of a command (R145, R166). -/
def Ptn.contactBuf (x : Ptn) (r : Train) (prog : Option Image) : Nat := contactBytes { r.contact with taps := 0 } (x.lanesOf r) 0 + x.tapBytes r prog

/-- Slices that may hold a command's contact buffer: the home slices of its student's matrix cores, then the loose ones (R144). A job that has no grant yet takes the upper core groups of its footprint; an expert program's sides are not told apart (DEDUCED, log entry 75). -/
def Ptn.bufSlices (x : Ptn) (r : Train) (cgs : W32) : List Nat :=
  let gs := setBits (if cgs = 0 then x.cgs else cgs).toNat 32
  let t := if r.expert then 0 else x.teacherShare r gs.length
  ((gs.drop t).flatMap fun g => (List.range 8).map (8 * g + ·)) ++ setBits x.mem.loose.toNat 256

/-- Places a contact buffer: the slices it takes; none where they cannot hold it. A home slice has room beside its save areas (R144, R290). -/
def Ptn.placeBuf (x : Ptn) (r : Train) (cgs : W32) (n : Nat) : Option (List Nat) :=
  let used := fun (k : Nat) => x.train.runs.any fun y => decide (k ∈ y.slices)
  let saves := popcount x.qEnable.toNat 8 * (384 * 1024)
  let room := fun (k : Nat) => if bitAt x.mem.loose.toNat k then sliceBytes else sliceBytes - saves
  let o := ((x.bufSlices r cgs).filter fun k => !used k).foldl (fun (a : List Nat × Nat) k => if a.2 ≥ n then a else (a.1 ++ [k], a.2 + room k)) ([], 0)
  if o.2 < n then none else some o.1

/-- Stash checks of R182 for `n` micro-batches of `bytes` each. -/
def Ptn.stashCheck (x : Ptn) (n bytes : Nat) : Option Status :=
  let t := x.train
  if t.stashMib = 0 || bytes > t.stashMib.toNat * mib || t.mbs.length + n > 4096 then some St.eStashFull else none

/-- The tap or list table of a descriptor as it stands in memory, for the size of the buffer. -/
def State.peekTable (s : State) (p : PtnId) (r : Train) : Train :=
  let d := r.contact
  match (if r.tapCount = 0 then (s, .ok []) else s.pRead p Who.firmware d.tableAddr.toNat (16 * r.tapCount) : Acc (List Byte)).2 with
  | .ok b => { r with table := b }
  | .error _ => r

/-- Reads what a contact descriptor names, for the whole batch: target records, tap or list table, mask. -/
def State.readContact (s : State) (p : PtnId) (r : Train) : Acc Train :=
  let d := r.contact
  let n := d.tokens.toNat
  let one := fun (s : State) (a : W48) (k : Nat) => if k = 0 then (s, .ok []) else s.pRead p Who.firmware a.toNat k
  match one s d.tableAddr (if d.family = 2 then 8 * d.vocab.toNat else 16 * d.taps.toNat) with
  | (s, .error c) => (s, .error c)
  | (s, .ok table) =>
    match one s d.targetAddr (if d.family = 1 && d.tsrc then n * r.stride else 0) with
    | (s, .error c) => (s, .error c)
    | (s, .ok stored) =>
      match one s d.maskAddr (if d.maskAddr = 0 then 0 else ceilDiv n 8) with
      | (s, .error c) => (s, .error c)
      | (s, .ok mask) => (s, .ok { r with table := table, stored := stored, mask := mask, cb := { r.cb with records := stored } })

/-- A malformed tap table (R162). An expert program has no layer table, so its layers are not checked (DESIGN CHOICE, log entry 76). -/
def Ptn.tapsBad (x : Ptn) (r : Train) (prog : Option Image) : Bool :=
  let im := fun (h : Nat) => ((x.model? h).map (·.image)).getD {}
  let layers := fun (h : Nat) => if r.expert || h = 0xFFFF then 2 ^ 16 else (im h).layers.length
  (List.range r.tapCount).any fun t => Train.tapBad (r.tapEntry t) (layers r.teacher) (layers r.student) (x.tapTensors r prog).length

/-- Places the record of a training command. -/
def State.addRun (s : State) (p : PtnId) (r : Train) : State :=
  { s.updPtn p fun x => { x with train := { x.train with runs := x.train.runs ++ [{ r with seed := s.fresh }] } } with fresh := s.fresh + 1 }

/-! ## DISTILL_STEP and EVAL -/

/-- The record of a basic DISTILL_STEP or EVAL. -/
def basicRun (h : Hdr) (b : StepBlock) (eval : Bool) (sets : Nat) : Train :=
  { queue := h.queue, seq := h.seq, eval := eval, student := b.student.toNat, teacher := b.teacher.toNat, mbCount := b.mbCount.toNat, mbTokens := b.mbTokens.toNat
    adamw := b.adamw, group := b.group, opt := b.opt, contact := b.contact, batchAddr := b.batchAddr.toNat
    leftBwd := if eval then [] else (List.range b.mbCount.toNat).reverse, leftUpd := if b.update && !eval then List.range sets else [] }

/-- Resource checks of a basic DISTILL_STEP or EVAL (R144, R182, R198, R371, R412). -/
def State.basicCheck (s : State) (h : Hdr) (b : StepBlock) (eval : Bool) : Option Status :=
  let x := s.ptn h.ptn
  let ms := [b.student.toNat, b.teacher.toNat]
  let r := s.peekTable h.ptn (basicRun h b eval 0)
  let bytes := ((x.model? b.student.toNat).map fun m => m.image.stashBytes x.train.stashQ6 r.hasHead r.taps b.mbTokens.toNat).getD 0
  let buf := x.contactBuf r none
  if (s.cmdOf h).any (·.numMode.smode = 2) && x.keepBad ms then some St.eBlockShape
  else if x.invalidSet ms then some St.eBusy
  else if eval && ms.any x.inTraining then some St.eEvalInTrain
  else if b.update && !eval && b.group ≠ 0xFFFFFFFF && (x.group? b.group).isNone then some St.eParam
  else match (if eval then none else x.stashCheck b.mbCount.toNat bytes) with
    | some c => some c
    | none => if x.ergFits (buf + x.gradBytes r + x.madeBytes r) && (x.placeBuf r (x.job h.queue).cgs buf).isSome then none else some St.eErgFull

/-- c and G of R147 are formed once for a command. -/
def State.scaleEv (s : State) (h : Hdr) (d : ContactDesc) : State := s.addSheet h (·.addEv (scaling d.temp.toNat d.klWeight.toNat).run'.2)

/-- A command whose descriptor's memory cannot be read, or is malformed, fails every item, and its reply has a loss block in which nothing took part (R162, R167). -/
def State.startBasic (s : State) (h : Hdr) (b : StepBlock) (eval : Bool) : State :=
  let p := h.ptn
  let hd := match s.cmdOf h with | some c => c.hdr | none => h
  let x := s.ptn p
  let sets := ((x.model? b.student.toNat).map fun m => m.sets.length).getD 0
  let r0 := basicRun hd b eval sets
  match s.readContact p r0 with
  | (s, .error c) => ((s.addRun p r0).failOpen h c).pumpTrain p
  | (s, .ok r) =>
    let buf := x.contactBuf r none
    let r := { r with buf := buf, made := x.madeBytes r, slices := (x.placeBuf r (x.job h.queue).cgs buf).getD [] }
    let s := s.addRun p r
    if x.tapsBad r none then (s.failOpen h St.eTargets).pumpTrain p else (((s.scaleEv h b.contact).updPtn p (·.trim 0)).stageCmd h).pumpTrain p

/-- Starts the contact side of an expert program: its buffer, and what its descriptor names. -/
def State.startContact (s : State) (h : Hdr) (e : ProgBlock) (eval : Bool) : State :=
  let p := h.ptn
  let hd := match s.cmdOf h with | some c => c.hdr | none => h
  let im := ((s.ptn p).prog? e.program.toNat).map (·.image)
  let r0 : Train := { queue := hd.queue, seq := hd.seq, expert := true, eval := eval, contact := e.contact, opt := e.opt, versions := some ((s.ptn p).progVersions e.program.toNat) }
  let none' := fun (s : State) (r : Train) (c : Status) => (((s.addRun p r).countLosses h r).refreshLoss h).failOpen h c
  match s.readContact p r0 with
  | (s, .error c) => none' s r0 c
  | (s, .ok r) =>
    let x := s.ptn p
    let buf := x.contactBuf r im
    let r := { r with buf := buf, tapCols := x.tapDims r im, slices := (x.placeBuf r (x.job h.queue).cgs buf).getD [] }
    if x.tapsBad r im then none' s r St.eTargets
    else (((s.addRun p r).scaleEv h e.contact).refreshLoss h).startProg h e.program.toNat e.entry.toNat e.srStream e.binds

/-- Resource check of an expert program with a contact descriptor; an EVAL reads no set in training (R198). -/
def State.expertCheck (s : State) (h : Hdr) (e : ProgBlock) (eval : Bool) : Option Status :=
  let x := s.ptn h.ptn
  if eval && x.setsInTraining (x.progVersions e.program.toNat) then some St.eEvalInTrain else
  let im := (x.prog? e.program.toNat).map (·.image)
  let r := s.peekTable h.ptn { queue := h.queue, expert := true, contact := e.contact }
  let buf := x.contactBuf r im
  if x.ergFits (buf + (im.map (·.longBytes)).getD 0) && (x.placeBuf r (x.job h.queue).cgs buf).isSome then none else some St.eErgFull

/-- A program's forward cannot start while an update writes a set it reads (R193). -/
def State.versionWaits (s : State) (h : Hdr) (prog : Nat) : Bool := (s.ptn h.ptn).writingAny ((s.ptn h.ptn).progVersions prog)

/-- Basic level: forward, backward and update items in the order of R187. Expert level: the program runs, and the contact path pairs its row blocks. -/
def execDistillStep (h : Hdr) (b : StepBlock) (x : ProgBlock) (s : State) : Res State :=
  let i := Instr.distillStep h b x
  if h.expert && s.versionWaits h x.program.toNat then .next s
  else .next (s.queued h 0x301 i
    (fun s => (s.startCheck h i).or (if h.expert then s.expertCheck h x false else s.basicCheck h b false)) (fun s => (s.ptn h.ptn).itemsOf i)
    fun s => if h.expert then s.startContact h x false else s.startBasic h b false)

def execEval (h : Hdr) (b : StepBlock) (x : ProgBlock) (s : State) : Res State :=
  let i := Instr.eval h b x
  if h.expert && s.versionWaits h x.program.toNat then .next s
  else .next (s.queued h 0x306 i
    (fun s => (s.startCheck h i).or (if h.expert then s.expertCheck h x true else s.basicCheck h b true)) (fun s => (s.ptn h.ptn).itemsOf i)
    fun s => if h.expert then s.startContact h x true else s.startBasic h b true)

/-! ## CONTACT_FINALISE (R152 to R158) -/

/-- Writes the target records of TOPK LIVE and the output records of a row block, tokens ascending (R153, R158). -/
def State.writeTokens (s : State) (p : PtnId) (r : Train) : List (Nat × TokenOut) → Acc Unit
  | [] => (s, .ok ())
  | o :: os =>
    let d := r.contact
    let n := o.1
    match (if d.storeTargets && d.family = 1 && !d.tsrc then s.pWrite p Who.firmware (d.targetAddr.toNat + n * r.stride) ((r.cb.records.drop (n * r.stride)).take r.stride) else (s, .ok ()) : Acc Unit) with
    | (s, .error c) => (s, .error c)
    | (s, .ok _) =>
      match (if d.storeOut then s.pWrite p Who.firmware (d.outAddr.toNat + 16 * n) (Train.outRec o.2) else (s, .ok ()) : Acc Unit) with
      | (s, .error c) => (s, .error c)
      | (s, .ok _) => s.writeTokens p r os

/-- An item's row blocks fail. -/
def State.failBlock (s : State) (p : PtnId) (h : Hdr) (r : Train) (c : Status) : State := if r.expert then s.failOpen h c else s.closeFwd p r (some c)

/-- A row block is final: the means where it is the last of an expert command, the end of the forward item where it is the last of its micro-batch. -/
def State.blockDone (s : State) (p : PtnId) (h : Hdr) (block : Nat) : State :=
  let s := s.updRun p h fun r => { r with blocks := r.blocks ++ [block] }
  match s.runOf h with
  | none => s
  | some r =>
    if r.expert then (if r.blocks.length = r.blockCount && !r.lossDone then s.countLosses h r else s)
    else if ((List.range r.blockCount).filter fun b => r.mbOf b = r.nextFwd).all (fun b => decide (b ∈ r.blocks)) then
      (match s.foldLate p r with
      | (s, .error c) => s.closeFwd p r (some c)
      | (s, .ok _) => match s.runOf h with | some r => s.closeFwd p r none | none => s)
    else s

/-- The lists that an expert RANK program's row block makes final, on the program's scores, which no field maps to the scratch area (DESIGN CHOICE, log entry 30). -/
def State.finaliseRank (s : State) (p : PtnId) (h : Hdr) (r : Train) (block : Nat) : State :=
  let ls := r.listsOf block
  if ls.any r.listBad then s.failBlock p h r St.eTargets
  else
    let items := ls.flatMap fun i => let e := r.listEntry i; (List.range e.2).map (e.1 + ·)
    let r := { r with cb := { r.cb with scratch := items.foldl (fun c n =>
      (c.put 0 (4 * n) (BitVec.ofNat 32 (r.word 2 n 0))).put 0 (4 * n + 1) (BitVec.ofNat 32 (r.word 3 n 0))) r.cb.scratch } }
    let o := (ls.foldlM (fun (r : Train) i => r.foldList i) r).run'
    ((s.addSheet h (·.addEv o.2)).updRun p h fun _ => o.1).blockDone p h block

/-- Logits of a row block: both sides' vocabulary projections of the finished hidden states, or an expert program's free values; the student's net at the basic level. -/
def State.blockLogits (s : State) (p : PtnId) (r : Train) (block : Nat) : Acc (Option Net × (Mat × Mat) × Ev) :=
  let ns := r.blockTokens block
  if r.expert then (s, .ok (none, (Mat.of ns.length r.contact.vocab.toNat fun i v => r.word 0 (ns.getD i 0) v, Mat.of ns.length r.contact.vocab.toNat fun i v => r.word 1 (ns.getD i 0) v), {}))
  else
    match s.nets p r (r.versions.getD []) with
    | (s, .error c) => (s, .error c)
    | (s, .ok (w, t)) =>
      let r0 := 64 * block - r.nextFwd * r.mbTokens
      let o := (do
        let yT ← match t with | some t => t.project 7 (r.tHid.rowsOf r0 ns.length) | none => pure {}
        let yS ← w.project 7 (r.sHid.rowsOf r0 ns.length)
        -- sweep 2 forms the student's logits again and scales them again (R154)
        let y2 ← w.project 7 (r.sHid.rowsOf r0 ns.length)
        let _ ← scaled r.scale.c y2.v
        pure (yT, yS) : Ct (Mat × Mat)).run'
      (s, .ok (some w, o.1, o.2))

/-- A row block of a FULL or TOPK command: targets, losses, gradients and records of its tokens. -/
def State.finalise (s : State) (p : PtnId) (h : Hdr) (r : Train) (block : Nat) : State :=
  if r.contact.family = 2 then s.finaliseRank p h r block
  else if r.contact.tsrc && (r.blockTokens block).any fun n => (r.storedRec n).isNone then s.failBlock p h r St.eTargets
  else
    match s.blockLogits p r block with
    | (s, .error c) => s.failBlock p h r c
    | (s, .ok (w, ys, e)) =>
      let lanes := (s.ptn p).lanesOf r
      let o := (blockCt r lanes (fun i => (s.cmdOf h).bind (·.srOf i)) w block ys.1 ys.2).run'
      let s := if r.expert then s else s.addUnits h [r.nextFwd] (let d := s.sides p r; d.1 ++ d.2)
      let s := ((s.addSheet h (·.addEv (e.add o.2))).updRun p h fun _ => o.1.r).putGrad r lanes block o.1.grad
      match s.writeTokens p o.1.r o.1.outs with
      | (s, .error c) => s.failBlock p h o.1.r c
      | (s, .ok _) =>
        let s := s.blockDone p h block
        match s.runOf h, s.nets p o.1.r (r.versions.getD []) with
        | some r, (_, .ok (_, t)) => if r.fwdOpen then s.updRun p h fun _ => State.fillRings r lanes t else s
        | _, _ => s

/-- A row block whose turn in its lane has not come waits (R159). -/
def execContactFinalise (p : PtnId) (q : QueueId) (block : Nat) (s : State) : Res State :=
  .next (
    match s.running? p q with
    | none => s
    | some c =>
      let s := s.pumpRun p c.hdr
      match s.runOf c.hdr with
      | none => s
      | some r =>
        if (s.job p q).st ≠ .running || block ≥ r.blockCount || decide (block ∈ r.blocks) || (r.mbCount = 0 && !r.expert) || s.starved p ||
            (!r.expert && (r.contact.family = 2 || !r.fwdOpen || r.mbOf block ≠ r.nextFwd)) || (r.contact.family = 0 && !r.inTurn ((s.ptn p).lanesOf r) block) then s
        else ((s.finalise p c.hdr r block).refreshLoss c.hdr).pumpTrain p)

/-! ## FWD_MB, BWD_MB, MB_RELEASE (R186, R189) -/

/-- Stash bytes of an expert micro-batch: a free value that the region can hold (DESIGN CHOICE, log entry 31). -/
def State.expertStash (s : State) (p : PtnId) : Nat := Config.free s.fresh 0 % ((s.ptn p).train.stashMib.toNat * mib + 1)

/-- An MB_ID that is pending already is refused with E_BUSY (DESIGN CHOICE, log entry 32). Where the stash has to wait for room, or an update writes a set that the program reads, so does the command; the spills made for it stand (R183). Its reply has the loss block of R336, in which no mean has taken part. What the program stashes is free bytes, since its kernels write them. -/
def execFwdMb (h : Hdr) (x : ProgBlock) (s : State) : Res State :=
  let i := Instr.fwdMb h x
  let y := s.ptn h.ptn
  let bytes := s.expertStash h.ptn
  let rm := s.place h.ptn bytes
  let starts : Bool := match s.cmdOf h with | some c => s.mayStart c && decide ((s.job h.ptn h.queue).st = .running) && (s.startCheck h i).isNone | none => false
  let wait := match rm with | .wait z => some (if starts then z else s) | _ => none
  if wait.isSome then .next (wait.getD s)
  else if s.versionWaits h x.program.toNat then .next s
  else .next (s.queued h 0x302 i
    (fun s => (s.startCheck h i).or (if y.train.mbs.any fun m => m.expert && m.id = x.mbId then some St.eBusy else (y.stashCheck 1 bytes).or (s.slicesCheck h x.program.toNat)))
    (fun s => (s.ptn h.ptn).entryItems x) fun s =>
    let hd := match s.cmdOf h with | some c => c.hdr | none => h
    let seed := s.fresh
    let s := { s with fresh := s.fresh + 1 }
    let mb : Mb := { id := x.mbId, expert := true, queue := hd.queue, seq := hd.seq, versions := y.progVersions x.program.toNat }
    let s := s.setResult h (({} : Losses).bytes 0 ((mb.versions.head?.map (·.2.2)).getD 0))
    match s.place h.ptn bytes with
    | .room s =>
      let s := s.updTrain h.ptn fun t => { t with mbs := t.mbs ++ [{ mb with bytes := bytes, stash := (List.range bytes).map fun k => BitVec.ofNat 8 (Config.free seed (1 + k)) }] }
      let s := s.startProg h x.program.toNat x.entry.toNat x.srStream x.binds
      if (s.cmdOf h).any (·.isOver) then s.mbEnd h else s
    | .wait s => ((s.updTrain h.ptn fun t => { t with mbs := t.mbs ++ [mb] }).failOpen h St.eStashFull).mbEnd h
    | .full s c => ((s.updTrain h.ptn fun t => { t with mbs := t.mbs ++ [mb] }).failOpen h c).mbEnd h)

/-- A micro-batch that is not pending, or whose forward has not ended, is refused (DESIGN CHOICE, log entry 32). A failed forward fails it with the same code; a stash not resident makes it wait. -/
def execBwdMb (h : Hdr) (x : ProgBlock) (s : State) : Res State :=
  let i := Instr.bwdMb h x
  let mb := (s.ptn h.ptn).train.mbs.find? fun m => m.expert && m.id = x.mbId
  if (mb.any fun m => m.place ≠ .resident) || s.versionWaits h x.program.toNat && mb.isNone then .next s
  else .next (s.queued h 0x303 i
    (fun s => (s.startCheck h i).or (match mb with | none => some St.eParam | some m => if m.done.isNone || m.bwdRunning then some St.eBusy else s.slicesCheck h x.program.toNat))
    (fun s => (s.ptn h.ptn).entryItems x) fun s =>
    match mb with
    | none => s
    | some m =>
      let s := s.updPtn h.ptn fun z => { z with train := z.train.updMb m fun m => { m with bwdRunning := true } }
      let s := s.updCmd h fun c => { c with items := c.items.map fun i => { i with suspect := i.suspect || m.suspect } }
      match m.failed with
      | some c => (s.failOpen h c).mbEnd h
      | none =>
        let s := s.startProg h x.program.toNat x.entry.toNat x.srStream x.binds
        if (s.cmdOf h).any (·.isOver) then s.mbEnd h else s)

/-- Discards pending expert micro-batches, item by item, whatever runs on them (R186); one that is not pending fails its item with E_PARAM (DESIGN CHOICE, log entry 32). -/
def execMbRelease (h : Hdr) (ids : List W32) (s : State) : Res State :=
  .next ((s.atOnce h 0x304 fun s =>
    if ids = [] || ids.length > 256 then (s, .error St.eParam)
    else
      let r := ids.foldl (fun (a : State × List Item) id =>
        match (a.1.ptn h.ptn).train.mbs.find? fun m => m.expert && m.id = id with
        | none => (a.1, a.2 ++ [failedItem St.eParam])
        | some m =>
          (a.1.updTrain h.ptn fun t => { t with mbs := dropFirst (fun b => b = m) t.mbs }, a.2 ++ [doneItem])) (s, [])
      (r.1, .ok (r.2, []))).pumpTrain h.ptn)

/-! ## Fills (R185) -/

/-- Spilled micro-batches in the order in which backward items will need them: commands in progress, then BWD_MB commands accepted, then the rest. -/
def Ptn.fillOrder (x : Ptn) : List Mb :=
  let sp := x.train.mbs.filter fun m => m.place = .spilled
  let basic := x.train.runs.flatMap fun r => r.leftBwd.filterMap fun b => sp.find? fun m => !m.expert && m.queue = r.queue && m.seq = r.seq && m.index = b
  let ids := x.flow.cmds.filterMap fun c => match c.cmd with | some (.bwdMb _ e) => some e.mbId | _ => none
  let expert := ids.filterMap fun id => sp.find? fun m => m.expert && m.id = id
  let first := basic ++ expert
  first ++ sp.filter fun m => !decide (m ∈ first)

/-- The firmware starts the fill that comes first, making room where it must (R183, R185). -/
def execStashFill (p : PtnId) (mb : W32) (s : State) : Res State :=
  .next (
    match (s.ptn p).fillOrder with
    | m :: _ =>
      if m.id ≠ mb || (s.job p m.queue).st = .stopped then s
      else match s.place p m.bytes with
        | .room s => s.updTrain p fun t => t.updMb m fun m => { m with place := .filling }
        | .wait s => s
        | .full s _ => s
    | [] => s)

/-- A fill completes: the bytes are back in the region, and a backward item that waited goes on; a read that fails fails that item. A stopped job's fill stands still. -/
def execStashFillComplete (p : PtnId) (mb : W32) (s : State) : Res State :=
  .next (
    match (s.ptn p).train.mbs.find? fun m => m.id = mb && m.place = .filling with
    | some m =>
      if (s.job p m.queue).st = .stopped || s.starved p then s
      else match s.mbStash p m with
        | (s, .ok b) => (s.updTrain p fun t => t.updMb m fun m => { m with place := .resident, stash := b }).pumpTrain p
        | (s, .error c) => (s.updTrain p fun t => t.updMb m fun m => { m with place := .resident, failed := m.failed.or (some c) }).pumpTrain p
    | none => s)

/-! ## UPDATE and UPDATE_BUFFER_ACQUIRE (R190 to R197, R373, R383, R428) -/

/-- One update item of a weight set through its group; SET counts the trainable tensors of the image (DEDUCED, log entry 20). -/
def execUpdate (h : Hdr) (model set : W16) (adamw : Bool) (group : W32) (opt : Opt) (s : State) : Res State :=
  let i := Instr.update h model set adamw group opt
  .next (s.queued h 0x305 i
    (fun s => (s.startCheck h i).or (
      let x := s.ptn h.ptn
      match x.set? model.toNat set.toNat with
      | none => some St.eParam
      | some w => if w.invalid then some St.eBusy else if group ≠ 0xFFFFFFFF && (x.group? group).isNone then some St.eParam else none)) (fun _ => 1) fun s =>
    let hd := match s.cmdOf h with | some c => c.hdr | none => h
    (s.addRun h.ptn { queue := hd.queue, seq := hd.seq, student := model.toNat, adamw := adamw, group := group, opt := opt, contact := { family := 2 },
                      leftUpd := [set.toNat] }).refreshLoss h)

/-- The gradient of a set: of the command's own micro-batches, or of the BWD_MB commands before an UPDATE (R188, R189). -/
def Train.gradients (r : Train) (im : Image) (w : WSet) : List W32 :=
  gradOf (if r.mbCount = 0 then w.grad else Net.areaOf r.grads w.tensor) (tensorParams (im.tensors.getD w.tensor {}))

/-- Item of a set's update in its command. -/
def Train.updItem (r : Train) (set : Nat) : Nat := if r.mbCount = 0 then 0 else 2 * r.mbCount + set

/-- The training command whose update item of a set may acquire its buffer next. -/
def State.updateRun (s : State) (p : PtnId) (model set : Nat) : Option Train :=
  (s.ptn p).train.runs.find? fun r => r.student = model && decide (set ∈ r.leftUpd) && r.nextFwd = r.mbCount && r.leftBwd = [] &&
    (match s.cmdOf (Hdr.ofTrain p r) with | some c => !(c.items.getD (r.updItem set) {}).closed | none => false)

/-- Random words of an update's parameters, where the command samples stochastic rounding (R45, R47). -/
def State.updateSr (s : State) (h : Hdr) (i : Nat) : Option Nat := (s.cmdOf h).bind (·.srOf i)

/-- An update without a group: every bucket is the partition's own, and no packet is sent (R381). -/
def State.updateAlone (s : State) (p : PtnId) (h : Hdr) (r : Train) (set : Nat) (im : Image) (w : WSet) : State :=
  let gs := r.gradients im w
  let o := (optBucket (s.updateSr h) r.opt r.adamw false false (gs.map (·.toNat)) 0 w).run'
  let s := s.updPtn p fun x => x.updSet r.student set fun _ => { (o.1.1.putTargets 0 o.1.2).advance false with group := 0xFFFFFFFF, grad := [] }
  let s := (s.addSheet h (·.addEv o.2)).addUnits h [r.updItem set] (s.jobUnits p r.queue)
  s.endUpdate p h (r.updItem set) (some set) 0 none

/-- A backward item of the step is suspect (R190, R428). -/
def State.bwdSuspect (s : State) (p : PtnId) (h : Hdr) (r : Train) : Bool :=
  if r.mbCount = 0 then (s.ptn p).train.bwdBad
  else match s.cmdOf h with | some c => (List.range r.mbCount).any fun b => (c.items.getD (r.mbCount + b) {}).suspect | none => false

def State.clearBad (s : State) (p : PtnId) : State := s.updPtn p fun x => { x with train := { x.train with bwdBad := false } }

/-- Strips fall due on the cores of backward items: the closing strips before the first EXP (R428). -/
def State.closingStrips (s : State) (us : List Nat) : State :=
  us.foldl (fun s u => s.updMc u fun c => { c with strip := { c.strip with st := if c.strip.st = .idle then .due else c.strip.st } }) s

/-- What an update item of a group does: it opens its round, waits for the group, or fails. -/
def State.updateGroup (s : State) (p : PtnId) (h : Hdr) (r : Train) (set : Nat) (im : Image) (w : WSet) (g : Group) : State :=
  let item := r.updItem set
  match g.st with
  | .restoring => s.endUpdate p h item (some set) 0 (some St.eBusy)
  | .forming => if g.waiting.any fun e => e.1 = h && e.2 = item then s else s.updGroup p r.group fun y => { y with waiting := y.waiting ++ [(h, item)] }
  | .active =>
    if s.bwdSuspect p h r then ((s.sendAbsent p r.group).clearBad p).endUpdate p h item (some set) 0 (some St.eIncomplete)
    else if !(s.ptn p).train.bwdUnits.isEmpty then s.closingStrips (s.ptn p).train.bwdUnits
    else
      let gs := r.gradients im w
      let b := (g.updateBuckets im w gs).run'
      ((s.clearBad p).addSheet h (·.addEv b.2)).openRound p g h item (.update r.student set r.adamw r.opt gs) b.1

/-- An update item takes its target buffer when no pending micro-batch refers to the version it holds; one that has to wait says so in its reply (R193). -/
def execUpdateBufferAcquire (p : PtnId) (model set : W16) (s : State) : Res State :=
  .next (
    let s := s.flushFolds p
    match s.updateRun p model.toNat set.toNat with
    | none => s
    | some r =>
      let x := s.ptn p
      let k := set.toNat
      match s.cmdOf (Hdr.ofTrain p r), x.model? r.student, x.set? r.student k with
      | some c, some m, some w =>
        let h := c.hdr
        if w.writing || (s.job p r.queue).st ≠ .running then s
        else if w.invalid then s.endUpdate p h (r.updItem k) (some k) 0 (some St.eBusy)
        else if x.refersTo r.student k w.targetVersion then s.addSheet h fun c => { c with waited := true }
        else if r.group = 0xFFFFFFFF then
          let s := if s.bwdSuspect p h r then s.updCmd h fun c => { c with items := updNth (fun i => { i with suspect := true }) c.items (r.updItem k) } else s
          (s.clearBad p).updateAlone p h r k m.image w
        else match x.group? r.group with
          | none => s.endUpdate p h (r.updItem k) (some k) 0 (some St.eParam)
          | some g => s.updateGroup p h r k m.image w g
      | _, _, _ => s)

end Sys2Proof.Machine
end

