-- ==== Sys2Proof/Machine/Serving.lean ====
section
/-! DEFINITION. Generation and serving: requests, streams, steps, chunks, budgets, deadlines (R147, R149, R199 to R226, R327, R332, R336, R337). -/

namespace Sys2Proof.Machine

/-! ## Budgets (R217, R218, R327) -/

/-- A sum as BALANCE holds it: a signed 64-bit count. The spec states no value for a sum that falls outside it (DESIGN CHOICE, log entry 33). -/
def toBalance (i : Int) : BitVec 64 := if -(2 ^ 63 : Int) ≤ i && i < (2 ^ 63 : Int) then BitVec.ofInt 64 i else Config.wideBalance i

def Serve.updBudget (v : Serve) (tag : W32) (f : Budget → Budget) : Serve := { v with budgets := updFirst (fun b => b.tag = tag) f v.budgets }
/-- Streams whose tag has no balance left are on hold (R218). -/
def Serve.markHeld (v : Serve) : Serve := { v with streams := v.streams.map fun t => { t with held := t.held || !v.mayRun t.req.customerTag } }
def Serve.charge (v : Serve) (tag : W32) (n : Nat) : Serve := (v.updBudget tag fun b => { b with balance := toBalance (b.balance.toInt - n) }).markHeld

/-- One record of BUDGET_SET. -/
def Serve.setBudget (v : Serve) (r : BudgetRec) : Serve × Item :=
  if r.tokens = 0 then ({ v with budgets := v.budgets.filter (·.tag ≠ r.tag) }, doneItem)
  else if r.intervalUs.toNat < 1000 || r.intervalUs.toNat > 60000000 then (v, failedItem St.eParam)
  else if (v.budget? r.tag).isSome then
    (v.updBudget r.tag fun b => { b with tokens := r.tokens, intervalUs := r.intervalUs, balance := toBalance (min b.balance.toInt r.tokens.toNat) }, doneItem)
  else if v.budgets.length ≥ 4096 then (v, failedItem St.eBusy)
  else ({ v with budgets := v.budgets ++ [{ tag := r.tag, tokens := r.tokens, intervalUs := r.intervalUs, balance := toBalance r.tokens.toNat }] }, doneItem)

def execBudgetSet (h : Hdr) (recs : List BudgetRec) (s : State) : Res State :=
  .next (s.atOnce h 0x403 fun s =>
    if recs = [] || recs.length > 256 then (s, .error St.eParam)
    else
      let r := recs.foldl (fun (a : Serve × List Item) b => let x := a.1.setBudget b; (x.1, a.2 ++ [x.2])) ((s.ptn h.ptn).serve, [])
      (s.updPtn h.ptn fun x => ({ x with serve := r.1.markHeld } : Ptn).wake x, .ok (r.2, [])))

def Budget.bytes (b : Budget) : List Byte :=
  leBytes 4 b.tag.toNat ++ leBytes 4 0 ++ leBytes 8 b.tokens.toNat ++ leBytes 8 b.intervalUs.toNat ++ leBytes 8 b.balance.toNat

def execBudgetRead (h : Hdr) (first count : W16) (s : State) : Res State :=
  .next (s.atOnce h 0x404 fun s =>
    let bs := (s.ptn h.ptn).serve.budgets
    if count = 0 || count.toNat > 1024 then (s, .error St.eParam)
    else (s, .ok ([doneItem], leBytes 4 bs.length ++ leBytes 4 0 ++ ((bs.drop first.toNat).take count.toNat).flatMap Budget.bytes)))

/-- The start of an interval of a tag (R217). -/
def Serve.refill (v : Serve) (tag : W32) : Serve :=
  v.updBudget tag fun b => { b with balance := toBalance (min (b.balance.toInt + b.tokens.toNat) b.tokens.toNat) }

def execBudgetRefill (p : PtnId) (tag : W32) (s : State) : Res State :=
  .next (s.updPtn p fun x => ({ x with serve := (x.serve.refill tag).markHeld } : Ptn).wake x)

/-! ## Streams -/

namespace Stream
def ready (t : Stream) : Bool := t.filled = t.toFill && !t.seated
def hasDraft (t : Stream) : Bool := t.req.draft ≠ 0xFFFF
/-- The prompt and the tokens committed. -/
def known (t : Stream) : List W32 := t.prompt ++ t.toks
end Stream

namespace State

def updServe (s : State) (p : PtnId) (f : Serve → Serve) : State := s.updPtn p fun x => { x with serve := f x.serve }
def updStream (s : State) (p : PtnId) (id : Nat) (f : Stream → Stream) : State :=
  s.updServe p fun v => { v with streams := updFirst (fun t => t.id = id) f v.streams }
def stream? (s : State) (p : PtnId) (id : Nat) : Option Stream := (s.ptn p).serve.streams.find? (·.id = id)
def updModel (s : State) (p : PtnId) (h : Nat) (f : Model → Model) : State := s.updPtn p fun x => { x with models := updFirst (fun m => m.handle = h) f x.models }

/-- Grows page lists of a model's pool to n positions; none where the pool is short (R204). -/
def takePages (s : State) (p : PtnId) (model n : Nat) (ps : List (List Nat)) : Option (State × List (List Nat)) :=
  match (s.ptn p).model? model with
  | none => none
  | some m => (m.growPages ps n).map fun e => (s.updModel p model fun m => { m with pagesUsed := m.pagesUsed ++ e.2 }, e.1)

/-- Page lists of a stream and of its draft for n positions, and for d of them on the draft's side. -/
def takeBoth (s : State) (p : PtnId) (t : Stream) (n d : Nat) : Option (State × List (List Nat) × List (List Nat)) :=
  match s.takePages p t.model n t.pages with
  | none => none
  | some (s, pages) =>
    if d = 0 then some (s, pages, t.dpages)
    else (s.takePages p t.req.draft.toNat d t.dpages).map fun e => (e.1, pages, e.2)

/-- A stream closes, and its item with it (R204, R214, R225, R336). -/
def closeStream (s : State) (p : PtnId) (t : Stream) (failed : Option Status) (nowUs : Option Nat) : State :=
  ((s.endStream p t nowUs).closeItem (t.hdr p) t.item failed).settle (t.hdr p)

end State

/-! ## GEN_SUBMIT, GEN_CANCEL (R199, R200, R204, R225) -/

def outside (lo hi : Nat) (x : W32) : Bool := let v := b32.decode x.toNat; v.isNan || v.lt (b32.decode lo) || (b32.decode hi).lt v

/-- The conditions of R200, then invalid sets (R412). -/
def Ptn.reqCheck (x : Ptn) (r : GenReq) : Option Status :=
  let opt := fun (h : W16) => h = 0xFFFF || (x.model? h.toNat).isSome
  match x.model? r.model.toNat with
  | none => some St.eGenDesc
  | some m =>
    let vocab := fun (h : W16) => h = 0xFFFF || (match x.model? h.toNat with | some y => y.image.vocab = m.image.vocab | none => false)
    if r.rsvBits ≠ 0 || !opt r.draft || !opt r.fallback || (r.sample && outside 0x3E000000 0x42000000 r.temp) ||
        r.maxTokens = 0 || r.maxTokens.toNat > 2 ^ 20 || r.promptLen = 0 || r.promptLen.toNat > 131071 || r.promptLen.toNat + r.maxTokens.toNat > 131072 ||
        !vocab r.draft || !vocab r.fallback then some St.eGenDesc
    else if m.image.layers.any (fun l => l.flags.getLsbD 0) && (x.serve.variant? r.model.toNat r.customerTag).isNone then some St.eNoVariant
    else if x.invalidSet [r.model.toNat, r.draft.toNat, r.fallback.toNat] then some St.eBusy
    else if x.serve.streams.length ≥ 4096 then some St.eBusy
    else none

/-- Opens the stream of a request, or says why it fails. The time of acceptance is a free value (DESIGN CHOICE, log entry 33). -/
def State.openStream (s : State) (h : Hdr) (i : Nat) (r : GenReq) (prog : List Byte) : Acc Unit :=
  let p := h.ptn
  let x := s.ptn p
  match x.reqCheck r with
  | some c => (s, .error c)
  | none =>
    match s.pRead p Who.firmware r.promptAddr.toNat (4 * r.promptLen.toNat) with
    | (s, .error c) => (s, .error c)
    | (s, .ok bs) =>
      let n := r.promptLen.toNat
      match s.takeBoth p { req := r } (n + 1) (if r.draft = 0xFFFF then 0 else n + 1) with
      | none => (s, .error St.eKvFull)
      | some (s, pages, dpages) =>
        let m := ((s.ptn p).model? r.model.toNat).getD {}
        let var := if m.image.layers.any (fun l => l.flags.getLsbD 0) then ((s.ptn p).serve.variant? r.model.toNat r.customerTag).map (·.version) else none
        let t : Stream :=
          { id := x.serve.nextStream, queue := h.queue, seq := h.seq, item := i, req := r, chunkMax := 64 * x.serve.chunkMax.toNat, acceptUs := Config.free s.fresh 0
            variant := var, prog := prog, prompt := (List.range n).map fun k => BitVec.ofNat 32 (leNat ((bs.drop (4 * k)).take 4)), toFill := n
            depth := if r.draft = 0xFFFF then 0 else x.serve.depthInit.toNat, pages := pages, dpages := dpages }
        (({ s with fresh := s.fresh + 1 } : State).updServe p fun v => ({ v with nextStream := v.nextStream + 1, streams := v.streams ++ [t] } : Serve).markHeld, .ok ())

/-- Each request opens a stream or fails its item; at the expert level the program's entry replaces the step kernels. -/
def execGenSubmit (h : Hdr) (program entry : W16) (reqs : List GenReq) (s : State) : Res State :=
  let i := Instr.genSubmit h program entry reqs
  .next (s.queued h 0x401 i (fun s => if reqs = [] || reqs.length > 256 then some St.eParam else s.startCheck h i) (fun _ => reqs.length) fun s =>
    let hd := match s.cmdOf h with | some c => c.hdr | none => h
    let prog := if hd.expert && program ≠ 0xFFFF then (((s.ptn h.ptn).prog? program.toNat).map fun q => q.hash ++ leBytes 2 entry.toNat).getD [] else []
    let s := (s.setResult h (((List.replicate reqs.length (List.replicate 20 (0 : Byte) ++ leBytes 4 0xFFFFFFFF ++ List.replicate 8 0)).flatten))).stageCmd h
    reqs.zipIdx.foldl (fun s e => match s.openStream hd e.2 e.1 prog with
      | (s, .error c) => s.closeItem h e.2 (some c)
      | (s, .ok _) => s) s)

/-- The request of the command SEQ of this queue; a seated one closes with its step. One that is not open fails the item with E_PARAM (DESIGN CHOICE, log entry 34). -/
def execGenCancel (h : Hdr) (seq : W32) (item : W16) (s : State) : Res State :=
  .next (s.atOnce h 0x402 fun s =>
    let q := match s.cmdOf h with | some c => c.hdr.queue | none => h.queue
    match (s.ptn h.ptn).serve.streams.find? fun t => t.queue = q && t.seq = seq && t.item = item.toNat with
    | none => (s, .ok ([failedItem St.eParam], []))
    | some t =>
      let s := s.updStream h.ptn t.id fun t => { t with cancelled := true }
      if t.seated then (s, .ok ([doneItem], [])) else (s.closeStream h.ptn { t with cancelled := true } none none, .ok ([doneItem], [])))

/-! ## GEN_STEP (R204, R210, R211) -/

/-- Inserts by seating number. -/
def insSeat (t : Stream) : List Stream → List Stream
  | [] => [t]
  | a :: r => if t.seat < a.seat then t :: a :: r else a :: insSeat t r

/-- Streams that are ready: prefilled, not seated, not on hold, their job running. -/
def State.readyStreams (s : State) (p : PtnId) (model : Nat) : List Stream :=
  let x := s.ptn p
  (x.serve.streams.filter fun t => t.model = model && t.ready && x.serve.mayRun t.req.customerTag && (s.job p t.queue).st = .running).foldl (fun a t => insSeat t a) []

/-- Seats a stream: pages for the positions of the step, at the largest depth that DEPTH_MAX, the stream's pages and the free pools allow; without a page for its pending token its item fails with E_KV_FULL (R204, R210, R222). -/
def State.seat (s : State) (p : PtnId) (t : Stream) : State :=
  let top := min (s.ptn p).serve.depthMax.toNat 8
  let most := if t.hasDraft then min t.depth top else 0
  match (List.range (most + 1)).reverse.findSome? fun d => (s.takeBoth p t (t.c + 1 + d) (if d = 0 then 0 else t.c + 1 + d)).map fun e => (d, e) with
  | none => s.closeStream p t (some St.eKvFull) none
  | some (d, s, pages, dpages) =>
    let n := (s.ptn p).serve.seating
    (s.updServe p fun v => { v with seating := v.seating + 1 }).updStream p t.id fun t =>
      { t with seated := true, seat := n.toNat, stepDepth := d, stepMax := top, depth := min t.depth top, pages := pages, dpages := dpages }

/-- The private experts that a step fetches: those of each distinct customer seated in it, in the order of its first seated stream (R216). -/
def Ptn.expertSet (x : Ptn) (model : Nat) : List WorkArea :=
  let ts := (x.serve.streams.filter fun t => t.seated && t.req.model.toNat = model && !t.onFallback).foldl (fun a t => insSeat t a) []
  let ks := (ts.filterMap fun t => t.variant.map fun v => (t.req.customerTag, v)).eraseDups
  ks.map fun k => { key := .experts model k.1 k.2, bytes := ((x.serve.variants.find? fun a => a.model = model && a.tag = k.1 && a.version = k.2).map (·.bytes)).getD 0 }

/-- The firmware forms a step; a full outbound store forms none (R341). Chunk work runs beside it and ends in its own rows. -/
def execGenStep (p : PtnId) (model : W16) (s : State) : Res State :=
  .next (
    let x := s.ptn p
    if (x.model? model.toNat).isNone || decide (model.toNat ∈ x.serve.inStep) || s.storeFull (some p) then s
    else
      let v := x.serve
      let ts := (s.readyStreams p model.toNat).take (max 1 v.maxStreams.toNat)
      if ts = [] then s
      else
        let s := ts.foldl (fun s t => s.seat p t) s
        if (s.ptn p).serve.streams.any fun t => t.seated && t.model = model.toNat then
          (s.updServe p fun v => { v with inStep := v.inStep ++ [model.toNat] }).updPtn p fun x => x.stage (x.expertSet model.toNat)
        else s)

/-! ## The deadline monitor (R219 to R221) -/

/-- The projected finish exceeds the deadline; `wait` stands for the prefill still queued and the time to the refill that covers what remains, which are free values (DESIGN CHOICE, log entry 33). -/
def Stream.late (t : Stream) (nowUs wait : Nat) : Bool :=
  let n := t.toks.length
  let remaining := t.req.maxTokens.toNat - n
  let ds := (t.times.zip (t.times.drop 1)).map fun e => e.1 - e.2
  -- remaining * (sum / count) / max(1, n / steps), as a fraction
  let num := remaining * ds.sum * (if n ≤ t.steps then 1 else t.steps)
  let den := ds.length * (if n ≤ t.steps then 1 else n)
  let lim := t.acceptUs + t.req.deadlineUs.toNat
  if den = 0 then lim < nowUs + wait else lim * den < (nowUs + wait) * den + num

/-- Switches a stream to its fallback model: its pages return, and prompt and committed tokens are prefilled anew, in pages taken as they are written (R204, R221). A stream without a pending token gets one that the fallback chooses. -/
def State.switchStream (s : State) (p : PtnId) (t : Stream) : State :=
  let n := t.known.length
  let k := (s.ptn p).serve.streams.foldl (fun a u => max a u.switched) 0 + 1
  ((s.updPtn p (·.freePages t.model t.pages)).updServe p fun v => { v with fallbacks := satInc v.fallbacks }).updStream p t.id fun t =>
    { t with onFallback := true, fallbackFirst := BitVec.ofNat 32 (if t.primed then t.toks.length + 1 else t.toks.length)
             toFill := n, filled := 0, again := if t.primed then n else t.filled, pages := [], switched := k }

/-- The projection after a step or a chunk: a miss switches the stream if the projection on its fallback is earlier. -/
def State.monitor (s : State) (p : PtnId) (id nowUs : Nat) : State :=
  match s.stream? p id with
  | none => s
  | some t =>
    if t.req.deadlineUs = 0 then s
    else
      let free := fun k => Config.free s.fresh k
      let bal := match (s.ptn p).serve.budget? t.req.customerTag with | some b => b.balance.toInt | none => t.req.maxTokens.toNat
      let hold := if bal < ((t.req.maxTokens.toNat - t.toks.length : Nat) : Int) then free 1 else 0
      let wait := (if t.filled < t.toFill then free 0 else 0) + hold
      let s := { s with fresh := s.fresh + 1 }
      if t.late nowUs wait && t.req.fallback ≠ 0xFFFF && !t.onFallback && free 2 % 2 = 1 then s.switchStream p t else s

/-! ## STEP_COMMIT (R207, R210, R218, R224, R225) -/

/-- The depth after a step with `a` of `d` drafts accepted (R210). -/
def nextDepth (depth since max' d a : Nat) : Nat × Nat :=
  if 0 < d && a = 0 then (depth / 2, 0)
  else if since + 1 ≥ 64 then (min max' (max 1 (2 * depth)), 0)
  else (depth, since + 1)

/-- Tokens that a step commits: nothing follows a stop token, nor token MAX_TOKENS (DEDUCED, log entry 35). -/
def Stream.cut (t : Stream) (ts : List W32) : List W32 :=
  let ts := ts.take (t.req.maxTokens.toNat - t.toks.length)
  if t.req.stopToken = 0xFFFFFFFF then ts
  else match ts.findIdx? (· = t.req.stopToken) with | some i => ts.take (i + 1) | none => ts

def Stream.over (t : Stream) : Bool :=
  t.toks.length ≥ t.req.maxTokens.toNat || (t.req.stopToken ≠ 0xFFFFFFFF && decide (t.req.stopToken ∈ t.toks))

/-- The TOKEN event of a step (R337). -/
def tokenBody (t : Stream) (first : Nat) (ts : List W32) (last : Bool) : List Byte :=
  leBytes 2 t.item ++ leBytes 2 ts.length ++ leBytes 4 first ++ leBytes 4 (b2n (decide (t.fallbackFirst.toNat ≤ first)) + 2 * b2n last) ++ leBytes 4 0 ++ ts.flatMap fun v => leBytes 4 v.toNat

/-- Commits a seated stream. The draft keeps the K and V of what it has processed, up to the commit pointer (R207). -/
def State.commitStream (s : State) (p : PtnId) (t : Stream) (nowUs : Nat) : State :=
  match s.mirage p t with
  | (s, .error c) => (s.updStream p t.id fun t => { t with seated := false }).closeStream p { t with seated := false } (some c) (some nowUs)
  | (s, .ok (acc, next, ev)) =>
    let h := t.hdr p
    let ts := t.cut (t.pending :: acc)
    let us := s.jobUnits p t.queue
    let nd := if t.hasDraft then nextDepth t.depth t.since t.stepMax t.stepDepth acc.length else (0, 0)
    let first := t.toks.length
    let t := { t with toks := t.toks ++ ts, c := t.c + ts.length, pending := next, seated := false, depth := nd.1, since := nd.2, steps := t.steps + 1
                      dc := if t.stepDepth = 0 then t.dc else min (t.c + ts.length) (t.c + t.stepDepth)
                      proposed := t.proposed + BitVec.ofNat 32 t.stepDepth, accepted := t.accepted + BitVec.ofNat 32 acc.length, times := (nowUs :: t.times).take 17 }
    let last := t.over || t.cancelled
    let s := s.updServe p fun v => (({ v with streams := updFirst (fun u => u.id = t.id) (fun _ => t) v.streams } : Serve).charge t.req.customerTag ts.length).process t (1 + t.stepDepth)
    let s := ((s.addUnits h [t.item] us).noteTokens h t.item first us).addSheet h (·.addEv ev)
    let op : W16 := match s.cmdOf h with | some c => c.opcode | none => 0x401
    let s := s.sendEvent p t.queue 0x01 op t.seq (tokenBody t first ts last)
    match last, s.stream? p t.id with
    | true, some t => s.closeStream p t none (some nowUs)
    | _, _ => s.monitor p t.id nowUs

/-- A step of a model ends; one that failed commits nothing, and each seated stream's item fails with its code. It does not end while the job of a seated stream stands still, while no slot serves its accesses (R510), or while the outbound store is too full for its messages (R341). -/
def execStepCommit (p : PtnId) (model : W16) (failed : Option Status) (nowUs : Nat) (s : State) : Res State :=
  .next (
    let x := s.ptn p
    let ts := (x.serve.streams.filter fun t => t.seated && t.model = model.toNat).foldl (fun a t => insSeat t a) []
    if !decide (model.toNat ∈ x.serve.inStep) || (ts.any fun t => (s.job p t.queue).st ≠ .running) || s.starved p || s.storeFull (some p) then s
    else
      let s := s.updServe p fun v => { v with inStep := v.inStep.filter (· ≠ model.toNat) }
      ts.foldl (fun s t => match failed with
        | some c => (s.updStream p t.id fun t => { t with seated := false }).closeStream p { t with seated := false } (some c) (some nowUs)
        | none => s.commitStream p t nowUs) s)

/-! ## CHUNK_COMPLETE (R212, R218, R221) -/

/-- The stream whose chunk runs next: of those that have switched the last to do so, else the request accepted first, among jobs that run (R212, R221). -/
def State.chunkHead (s : State) (p : PtnId) : Option Stream :=
  let ts := (s.ptn p).serve.streams.filter fun t => t.filled < t.toFill && (s.job p t.queue).st = .running
  ((ts.filter (·.onFallback)).foldl (fun a t => match a with | some u => if u.switched < t.switched then some t else a | none => some t) none).or ts.head?

/-- Weight versions of the models of a generation command (R192). -/
def Ptn.genVersions (x : Ptn) (t : Stream) : List (Nat × Nat × W64) :=
  let hs := (x.serve.streams.filter fun u => u.queue = t.queue && u.seq = t.seq).flatMap fun u => [u.req.model.toNat, u.req.draft.toNat, u.req.fallback.toNat]
  (hs.eraseDups.filterMap x.model?).flatMap (·.versions)

/-- A stream after a chunk of n tokens, on pages already taken: the last chunk gives the first pending token, unless there is one, and a seating number. -/
def State.runChunk (s : State) (p : PtnId) (t : Stream) (n nowUs : Nat) : State :=
  let h := t.hdr p
  let fin := decide (t.filled + n = t.toFill)
  match s.pass p t t.model t.pages true (t.known.take (t.filled + n)) n (if fin then [n - 1] else []) with
  | (s, .error c) => s.closeStream p t (some c) (some nowUs)
  | (s, .ok r) =>
    let us := s.jobUnits p t.queue
    let o := if fin && !t.primed then (t.choose (t.filled + n - 1) (r.logits.headD [])).run' else (t.pending, {})
    let seat := (s.ptn p).serve.seating
    let paid := t.filled + n - max t.filled t.again
    let t : Stream := { t with filled := t.filled + n }
    let t : Stream := if fin then { t with c := t.toFill, pending := o.1, primed := true, seat := seat.toNat } else t
    let s := s.updServe p fun v =>
      (({ v with streams := updFirst (fun u => u.id = t.id) (fun _ => t) v.streams, seating := if fin then v.seating + 1 else v.seating } : Serve).charge t.req.customerTag paid).process t n
    (((s.addUnits h [t.item] us).noteTokens h t.item t.toks.length us).addSheet h fun c => (c.addEv r.ev).addEv o.2).monitor p t.id nowUs

/-- A prefill chunk ends. The command's first one samples the weight versions, and waits while an update writes one of them (R192, R193); a chunk without a page for its positions fails its request with E_KV_FULL. It waits while the outbound store is too full for its messages (R341). -/
def execChunkComplete (p : PtnId) (stream : Nat) (failed : Option Status) (nowUs : Nat) (s : State) : Res State :=
  .next (
    match s.chunkHead p with
    | none => s
    | some t =>
      if t.id ≠ stream || s.storeFull (some p) then s
      else match failed with
        | some c => s.closeStream p t (some c) (some nowUs)
        | none =>
          let x := s.ptn p
          let vs := t.versions.getD (x.genVersions t)
          if (t.versions.isNone && x.writingAny vs) || s.starved p then s
          else
            let s := s.updServe p fun v => { v with streams := v.streams.map fun u => if u.queue = t.queue && u.seq = t.seq then { u with versions := some vs } else u }
            let n := min t.chunkMax (t.toFill - t.filled)
            match s.takePages p t.model (t.filled + n) t.pages with
            | none => s.closeStream p { t with versions := some vs } (some St.eKvFull) (some nowUs)
            | some (s, pages) => s.runChunk p { t with versions := some vs, pages := pages } n nowUs)

end Sys2Proof.Machine
end

