-- ==== Sys2Proof/Machine/Sideband.lean ====
section
/-! DEFINITION. The I3C target, the boot flash behind it, and the JTAG port (R497 to R499). -/

namespace Sys2Proof.Machine

/-! ## I3C (R497, R498) -/

namespace State

/-- An access that is not allowed: ERR, and its read answers zeros (DEDUCED, log entry 50). -/
def i3cBad (s : State) (n : Nat) : State := { s with i3c := { s.i3c with err := true, read := List.replicate n 0 } }

/-- The target answers while its standby domain is powered. -/
def onI3c (s : State) (f : State → State) : Res State := .next (if s.phase = .off then s else f s)

/-- A register that REG_READ may read, and whose block is powered (R468, R497). -/
def i3cReadable (s : State) (a : Nat) : Bool :=
  match regBlock a with
  | some (b, o) =>
    let low := (b = .pwr && (o = 8 || o = 0x10 || o = 0x18)) || (b = .saf && o = 0)
    a % 8 = 0 && if s.powered && s.pwr.st ≠ 3 then low || b = .pwr || b = .sec || (b = .saf && o = 8) || (b = .mod && o = 0x600) else low
  | none => false

/-- PWR_CFG, PWR_WAKE_QP and SAF_STATUS (R497). -/
def i3cWritable (a : Nat) : Bool := a = 0xF0000020010 || a = 0xF0000020018 || a = 0xF0000040000

/-- A flash access that I3C may make now: MOD_RST_N is low, the flash is routed to it, and no operation runs. -/
def flashFree (s : State) (off n : Nat) : Bool := !s.pins.rstN && s.i3c.owned && !s.i3c.busy && decide (off + n ≤ flashBytes)

/-- A flash write or erase begins. -/
def flashStart (s : State) (off : Nat) (bs : List Byte) : State := { s with i3c := { s.i3c with busy := true, op := some (off, bs), read := [] } }

end State

def execI3cRegRead (addr : W64) (s : State) : Res State :=
  s.onI3c fun s =>
    if s.i3cReadable addr.toNat then { s with i3c := { s.i3c with read := leBytes 8 (s.peek addr.toNat).toNat } } else s.i3cBad 8

def execI3cRegWrite (addr : W64) (v : RegVal) (s : State) : Res State :=
  s.onI3c fun s =>
    match regBlock addr.toNat with
    | some (b, o) => if State.i3cWritable addr.toNat then let t := (s.putBlk b o false v).1; { t with i3c := { t.i3c with read := [] } } else s.i3cBad 0
    | none => s.i3cBad 0

def execFlashRead (off : W32) (len : W16) (s : State) : Res State :=
  s.onI3c fun s =>
    if 1 ≤ len.toNat && len.toNat ≤ 256 && s.flashFree off.toNat len.toNat then { s with i3c := { s.i3c with read := s.flashN off.toNat len.toNat } } else s.i3cBad len.toNat

/-- Takes effect when the operation ends. -/
def execFlashWrite (off : W32) (bytes : List Byte) (s : State) : Res State :=
  s.onI3c fun s => if off.toNat % 256 = 0 && bytes.length = 256 && s.flashFree off.toNat 256 then s.flashStart off.toNat bytes else s.i3cBad 0

/-- An erased byte reads 0xFF (PRESUMED, log entry 40). -/
def execFlashErase (off : W32) (s : State) : Res State :=
  s.onI3c fun s => if off.toNat % 65536 = 0 && s.flashFree off.toNat 65536 then s.flashStart off.toNat (List.replicate 65536 0xFF) else s.i3cBad 0

/-- BUSY in bit 0, ERR in bit 1, FLASH_OWNED in bit 2; reading clears ERR. -/
def execI3cStatus (s : State) : Res State :=
  s.onI3c fun s =>
    { s with i3c := { s.i3c with err := false, read := [BitVec.ofNat 8 (b2n s.i3c.busy + 2 * b2n s.i3c.err + 4 * b2n s.i3c.owned)] } }

/-- An I3C operation ends and its bytes are in the flash; or a steward write ends, and I3C owns the flash if MOD_RST_N is low (R498). -/
def execFlashOperationComplete (s : State) : Res State :=
  .next (
    match s.i3c.op with
    | some (o, bs) => { s with flash := s.flash.putList none o (bs.map some), i3c := { s.i3c with busy := false, op := none } }
    | none => if s.flashBusy then { s with flashBusy := false, i3c := { s.i3c with owned := !s.pins.rstN } } else s)

/-- A target that holds no dynamic address takes one. -/
def State.takeAddr (s : State) (addr : BitVec 7) : Res State :=
  s.onI3c fun s => { s with i3c := { s.i3c with dyn := some (s.i3c.dyn.getD addr) } }

def execSetdasa (addr : BitVec 7) (s : State) : Res State := s.takeAddr addr
def execEntdaa (addr : BitVec 7) (s : State) : Res State := s.takeAddr addr

/-! ## JTAG (R499) -/

/-- An instruction accepted, and what its data register holds. -/
def State.scan (s : State) (ir : BitVec 3) (v : W64) : Res State := .next { s with pins := { s.pins with jtag := ir, tdo := v } }

/-- The levels the boundary register captures: a free value. -/
def State.boundary (s : State) (ir : BitVec 3) : Res State := ({ s with fresh := s.fresh + 1 } : State).scan ir (BitVec.ofNat 64 (Config.free s.fresh 0))

def execBypass (s : State) : Res State := s.scan 0 0
def execIdcode (s : State) : Res State := s.scan 1 0x1AD90A5F
def execSamplePreload (s : State) : Res State := s.boundary 2

/-- Accepted only while MOD_RST_N is low. -/
def execExtest (s : State) : Res State := if s.pins.rstN then .next s else s.boundary 3

end Sys2Proof.Machine
end

