-- ==== Sys2Proof/Machine/TableOp.lean ====
section
/-! DEFINITION. TABLE_OP (R267, R332). -/

namespace Sys2Proof.Machine

/-- The descriptor of TABLE_OP names no operand cache and no accumulator file. -/
def tableOpBad (r : TeReq) : Option Status :=
  if r.srcSpace = 1 || r.srcSpace = 2 || r.dstSpace then some St.eTeDesc else TeReq.check r

/-- A command waits while an engine has no place for its requests (R265). Each request goes to the engines in service of the job's core groups in turn (DESIGN CHOICE, log entry 27). -/
def execTableOp (h : Hdr) (reqs : List TeReq) (s : State) : Res State :=
  let engines := (tesOf (s.job h.ptn h.queue).cgs).filter fun n => !s.teRetired n
  if engines.any fun n => 4096 < (s.te n).reqs.length + ceilDiv reqs.length engines.length then .next s
  else .next (s.queued h 0x230 (.tableOp h reqs) (·.startCheck h (.tableOp h reqs)) (fun _ => reqs.length) fun s =>
    let seq := match s.cmdOf h with | some c => c.hdr.seq | none => h.seq
    let es := (tesOf (s.job h.ptn h.queue).cgs).filter fun n => !s.teRetired n
    reqs.zipIdx.foldl (fun s e =>
      match tableOpBad e.1, es[e.2 % es.length]? with
      | some c, _ => s.closeItem h e.2 (some c)
      | none, none => s.closeItem h e.2 (some St.eHwFault)
      | none, some n => s.updTe n fun x => { x with reqs := x.reqs ++ [{ req := e.1, ptn := h.ptn, queue := h.queue, seq := seq, item := e.2 }] }) s)

end Sys2Proof.Machine
end

