-- ==== Sys2Proof/Machine/Dispatch.lean ====
section
/-! DEFINITION. What each command does: one arm for each constructor of Instr. -/

namespace Sys2Proof.Machine

def exec (i : Instr) (s : State) : Host.Outcome State Fault Refusal :=
  match i with
  | .packetArrival port bytes => Sys2Proof.Machine.execPacketArrival port bytes s
  | .uapraFrame port f => Sys2Proof.Machine.execUapraFrame port f s
  | .uapraFrameRetry port => Sys2Proof.Machine.execUapraFrameRetry port s
  | .uapraRetrain port up => Sys2Proof.Machine.execUapraRetrain port up s
  | .nop h => Sys2Proof.Machine.execNop h s
  | .ptnCreate h cgMask qEnable keyLabel => Sys2Proof.Machine.execPtnCreate h cgMask qEnable keyLabel s
  | .ptnDestroy h => Sys2Proof.Machine.execPtnDestroy h s
  | .cgAlloc h cgMask => Sys2Proof.Machine.execCgAlloc h cgMask s
  | .cgRelease h cgMask => Sys2Proof.Machine.execCgRelease h cgMask s
  | .cgReleaseEffect p cg => Sys2Proof.Machine.execCgReleaseEffect p cg s
  | .ptnReset h => Sys2Proof.Machine.execPtnReset h s
  | .regRead h addrs => Sys2Proof.Machine.execRegRead h addrs s
  | .regWrite h writes => Sys2Proof.Machine.execRegWrite h writes s
  | .acctRead h first count => Sys2Proof.Machine.execAcctRead h first count s
  | .acctClear h all tag => Sys2Proof.Machine.execAcctClear h all tag s
  | .attestQuote h nonce chain => Sys2Proof.Machine.execAttestQuote h nonce chain s
  | .keyExchange h mode slot srcSlot data => Sys2Proof.Machine.execKeyExchange h mode slot srcSlot data s
  | .looseGrant h slice => Sys2Proof.Machine.execLooseGrant h slice s
  | .looseRelease h slice => Sys2Proof.Machine.execLooseRelease h slice s
  | .memGrant h w count named keep granules => Sys2Proof.Machine.execMemGrant h w count named keep granules s
  | .memRelease h w count => Sys2Proof.Machine.execMemRelease h w count s
  | .sharedMap h w => Sys2Proof.Machine.execSharedMap h w s
  | .sharedUnmap h => Sys2Proof.Machine.execSharedUnmap h s
  | .sharedLoad h ep bytes data => Sys2Proof.Machine.execSharedLoad h ep bytes data s
  | .sharedSeal h => Sys2Proof.Machine.execSharedSeal h s
  | .sharedClear h => Sys2Proof.Machine.execSharedClear h s
  | .dataIn h ep addr bytes => Sys2Proof.Machine.execDataIn h ep addr bytes s
  | .dataOut h ep addr bytes => Sys2Proof.Machine.execDataOut h ep addr bytes s
  | .modelLoad h addr bytes flags kvPoolGib => Sys2Proof.Machine.execModelLoad h addr bytes flags kvPoolGib s
  | .modelUnload h handle => Sys2Proof.Machine.execModelUnload h handle s
  | .variantLoad h model tag addr bytes => Sys2Proof.Machine.execVariantLoad h model tag addr bytes s
  | .variantUnload h model tag => Sys2Proof.Machine.execVariantUnload h model tag s
  | .tableOp h reqs => Sys2Proof.Machine.execTableOp h reqs s
  | .distillStep h b x => Sys2Proof.Machine.execDistillStep h b x s
  | .fwdMb h x => Sys2Proof.Machine.execFwdMb h x s
  | .bwdMb h x => Sys2Proof.Machine.execBwdMb h x s
  | .mbRelease h ids => Sys2Proof.Machine.execMbRelease h ids s
  | .update h model set adamw group opt => Sys2Proof.Machine.execUpdate h model set adamw group opt s
  | .eval h b x => Sys2Proof.Machine.execEval h b x s
  | .genSubmit h program entry reqs => Sys2Proof.Machine.execGenSubmit h program entry reqs s
  | .genCancel h seq item => Sys2Proof.Machine.execGenCancel h seq item s
  | .budgetSet h recs => Sys2Proof.Machine.execBudgetSet h recs s
  | .budgetRead h first count => Sys2Proof.Machine.execBudgetRead h first count s
  | .groupSet h g => Sys2Proof.Machine.execGroupSet h g s
  | .groupLeave h group => Sys2Proof.Machine.execGroupLeave h group s
  | .routeSet h portMask first count value => Sys2Proof.Machine.execRouteSet h portMask first count value s
  | .reduce h group outB16 elems src dst => Sys2Proof.Machine.execReduce h group outB16 elems src dst s
  | .ckptSave h store toStore toPartner timeoutMs => Sys2Proof.Machine.execCkptSave h store toStore toPartner timeoutMs s
  | .ckptRestore h source num => Sys2Proof.Machine.execCkptRestore h source num s
  | .partnerSet h role override peer addr bytes => Sys2Proof.Machine.execPartnerSet h role override peer addr bytes s
  | .negativeShip h model set dest => Sys2Proof.Machine.execNegativeShip h model set dest s
  | .progLoad h addr bytes => Sys2Proof.Machine.execProgLoad h addr bytes s
  | .progUnload h handle => Sys2Proof.Machine.execProgUnload h handle s
  | .progRun h x => Sys2Proof.Machine.execProgRun h x s
  | .pwrState h target scope cgMask => Sys2Proof.Machine.execPwrState h target scope cgMask s
  | .telemetryRead h => Sys2Proof.Machine.execTelemetryRead h s
  | .pwrLimit h limitW => Sys2Proof.Machine.execPwrLimit h limitW s
  | .stripNow h cgMask revive cores engines => Sys2Proof.Machine.execStripNow h cgMask revive cores engines s
  | .faultLogRead h firstMen count => Sys2Proof.Machine.execFaultLogRead h firstMen count s
  | .faultLogClear h upToMen => Sys2Proof.Machine.execFaultLogClear h upToMen s
  | .safelightUnlock h mode t => Sys2Proof.Machine.execSafelightUnlock h mode t s
  | .echo h bytes => Sys2Proof.Machine.execEcho h bytes s
  | .ptnNumModeWrite h p v => Sys2Proof.Machine.execPtnNumModeWrite h p v s
  | .ptnStashCfgWrite h p v => Sys2Proof.Machine.execPtnStashCfgWrite h p v s
  | .ptnSpillBaseWrite h p v => Sys2Proof.Machine.execPtnSpillBaseWrite h p v s
  | .ptnQCfgWrite h p q v => Sys2Proof.Machine.execPtnQCfgWrite h p q v s
  | .ptnSchedCfgWrite h p v => Sys2Proof.Machine.execPtnSchedCfgWrite h p v s
  | .ptnServeCfgWrite h p v => Sys2Proof.Machine.execPtnServeCfgWrite h p v s
  | .ptnReplyCfgWrite h p v => Sys2Proof.Machine.execPtnReplyCfgWrite h p v s
  | .ptnMemSlotsWrite h p v => Sys2Proof.Machine.execPtnMemSlotsWrite h p v s
  | .ptnSemCountWrite h p sem v => Sys2Proof.Machine.execPtnSemCountWrite h p sem v s
  | .ptnViolInfoClear h p v => Sys2Proof.Machine.execPtnViolInfoClear h p v s
  | .modMemCfgWrite h v => Sys2Proof.Machine.execModMemCfgWrite h v s
  | .modSharedLabelWrite h v => Sys2Proof.Machine.execModSharedLabelWrite h v s
  | .modFabricWrite h v => Sys2Proof.Machine.execModFabricWrite h v s
  | .qlnkEnable h qp v => Sys2Proof.Machine.execQlnkEnable h qp v s
  | .qlnkResWrite h qp p v => Sys2Proof.Machine.execQlnkResWrite h qp p v s
  | .qoreaLinkReset h qp v => Sys2Proof.Machine.execQoreaLinkReset h qp v s
  | .uapraLinkReset h up v => Sys2Proof.Machine.execUapraLinkReset h up v s
  | .pwrCfgWrite h v => Sys2Proof.Machine.execPwrCfgWrite h v s
  | .safStatusClear h v newFault newAlert => Sys2Proof.Machine.execSafStatusClear h v newFault newAlert s
  | .registerWrite h addr v => Sys2Proof.Machine.execRegisterWrite h addr v s
  | .nopInstruction t w => Sys2Proof.Machine.execNopInstruction t w s
  | .mov t w => Sys2Proof.Machine.execMov t w s
  | .add t w => Sys2Proof.Machine.execAdd t w s
  | .sub t w => Sys2Proof.Machine.execSub t w s
  | .mul t w => Sys2Proof.Machine.execMul t w s
  | .and t w => Sys2Proof.Machine.execAnd t w s
  | .or t w => Sys2Proof.Machine.execOr t w s
  | .xor t w => Sys2Proof.Machine.execXor t w s
  | .shl t w => Sys2Proof.Machine.execShl t w s
  | .shr t w => Sys2Proof.Machine.execShr t w s
  | .sra t w => Sys2Proof.Machine.execSra t w s
  | .imin t w => Sys2Proof.Machine.execImin t w s
  | .imax t w => Sys2Proof.Machine.execImax t w s
  | .scl t w => Sys2Proof.Machine.execScl t w s
  | .fadd t w => Sys2Proof.Machine.execFadd t w s
  | .fsub t w => Sys2Proof.Machine.execFsub t w s
  | .fmul t w => Sys2Proof.Machine.execFmul t w s
  | .ffma t w => Sys2Proof.Machine.execFfma t w s
  | .fdiv t w => Sys2Proof.Machine.execFdiv t w s
  | .fsqrt t w => Sys2Proof.Machine.execFsqrt t w s
  | .fmax t w => Sys2Proof.Machine.execFmax t w s
  | .fmin t w => Sys2Proof.Machine.execFmin t w s
  | .fabs t w => Sys2Proof.Machine.execFabs t w s
  | .fneg t w => Sys2Proof.Machine.execFneg t w s
  | .exp2 t w => Sys2Proof.Machine.execExp2 t w s
  | .log2 t w => Sys2Proof.Machine.execLog2 t w s
  | .ceq t w => Sys2Proof.Machine.execCeq t w s
  | .cne t w => Sys2Proof.Machine.execCne t w s
  | .clt t w => Sys2Proof.Machine.execClt t w s
  | .cle t w => Sys2Proof.Machine.execCle t w s
  | .cun t w => Sys2Proof.Machine.execCun t w s
  | .cgt t w => Sys2Proof.Machine.execCgt t w s
  | .cge t w => Sys2Proof.Machine.execCge t w s
  | .sel t w => Sys2Proof.Machine.execSel t w s
  | .kand t w => Sys2Proof.Machine.execKand t w s
  | .kor t w => Sys2Proof.Machine.execKor t w s
  | .knot t w => Sys2Proof.Machine.execKnot t w s
  | .cvt t w => Sys2Proof.Machine.execCvt t w s
  | .ld t w => Sys2Proof.Machine.execLd t w s
  | .st t w => Sys2Proof.Machine.execSt t w s
  | .prom t w => Sys2Proof.Machine.execProm t w s
  | .scvt t w => Sys2Proof.Machine.execScvt t w s
  | .sred t w => Sys2Proof.Machine.execSred t w s
  | .smove t w => Sys2Proof.Machine.execSmove t w s
  | .atx t w => Sys2Proof.Machine.execAtx t w s
  | .tereq t w => Sys2Proof.Machine.execTereq t w s
  | .tewait t w => Sys2Proof.Machine.execTewait t w s
  | .br t w => Sys2Proof.Machine.execBr t w s
  | .bar t w => Sys2Proof.Machine.execBar t w s
  | .swait t w => Sys2Proof.Machine.execSwait t w s
  | .spost t w => Sys2Proof.Machine.execSpost t w s
  | .sumry t w => Sys2Proof.Machine.execSumry t w s
  | .endThread t w => Sys2Proof.Machine.execEndThread t w s
  | .loadReturn t k => Sys2Proof.Machine.execLoadReturn t k s
  | .streamDone t => Sys2Proof.Machine.execStreamDone t s
  | .barRelease launch mc => Sys2Proof.Machine.execBarRelease launch mc s
  | .semaphoreAcquire p sem => Sys2Proof.Machine.execSemaphoreAcquire p sem s
  | .gather te k => Sys2Proof.Machine.execGather te k s
  | .pool te k => Sys2Proof.Machine.execPool te k s
  | .scatterAdd te k => Sys2Proof.Machine.execScatterAdd te k s
  | .topk te k => Sys2Proof.Machine.execTopk te k s
  | .lse te k => Sys2Proof.Machine.execLse te k s
  | .teRequestComplete te k => Sys2Proof.Machine.execTeRequestComplete te k s
  | .plan p q a wait => Sys2Proof.Machine.execPlan p q a wait s
  | .launch p q a wait => Sys2Proof.Machine.execLaunch p q a wait s
  | .wait p q a isPlan => Sys2Proof.Machine.execWait p q a isPlan s
  | .cmp p q c => Sys2Proof.Machine.execCmp p q c s
  | .brt p q a => Sys2Proof.Machine.execBrt p q a s
  | .jmp p q a => Sys2Proof.Machine.execJmp p q a s
  | .copy p q a b slotA slotB => Sys2Proof.Machine.execCopy p q a b slotA slotB s
  | .setc p q c imm => Sys2Proof.Machine.execSetc p q c imm s
  | .decb p q c b => Sys2Proof.Machine.execDecb p q c b s
  | .endItem p q b code => Sys2Proof.Machine.execEndItem p q b code s
  | .programEnd p q => Sys2Proof.Machine.execProgramEnd p q s
  | .launchComplete launch => Sys2Proof.Machine.execLaunchComplete launch s
  | .run p q item mc d sd w => Sys2Proof.Machine.execRun p q item mc d sd w s
  | .runRelease mc => Sys2Proof.Machine.execRunRelease mc s
  | .split p q d => Sys2Proof.Machine.execSplit p q d s
  | .splitHandoff p q part level => Sys2Proof.Machine.execSplitHandoff p q part level s
  | .waitSem p q mc sem => Sys2Proof.Machine.execWaitSem p q mc sem s
  | .postSem p q mc sem => Sys2Proof.Machine.execPostSem p q mc sem s
  | .sliceEnd p q ns => Sys2Proof.Machine.execSliceEnd p q ns s
  | .stopBathHandover p q ns => Sys2Proof.Machine.execStopBathHandover p q ns s
  | .restoreComplete p q ns switchUs => Sys2Proof.Machine.execRestoreComplete p q ns switchUs s
  | .stashFill p mb => Sys2Proof.Machine.execStashFill p mb s
  | .updateBufferAcquire p model set => Sys2Proof.Machine.execUpdateBufferAcquire p model set s
  | .contactFinalise p q block => Sys2Proof.Machine.execContactFinalise p q block s
  | .genStep p model => Sys2Proof.Machine.execGenStep p model s
  | .stepCommit p model failed nowUs => Sys2Proof.Machine.execStepCommit p model failed nowUs s
  | .chunkComplete p stream failed nowUs => Sys2Proof.Machine.execChunkComplete p stream failed nowUs s
  | .budgetRefill p tag => Sys2Proof.Machine.execBudgetRefill p tag s
  | .stripDue mc => Sys2Proof.Machine.execStripDue mc s
  | .stripStart mc => Sys2Proof.Machine.execStripStart mc s
  | .stripEnd mc r stamp => Sys2Proof.Machine.execStripEnd mc r stamp s
  | .teStripEnd te r stamp => Sys2Proof.Machine.execTeStripEnd te r stamp s
  | .heartbeatMissed isTe unit stamp => Sys2Proof.Machine.execHeartbeatMissed isTe unit stamp s
  | .psLockstepMismatch p stamp within1s => Sys2Proof.Machine.execPsLockstepMismatch p stamp within1s s
  | .stewardLockstepMismatch stamp within1s => Sys2Proof.Machine.execStewardLockstepMismatch stamp within1s s
  | .stewardRestartComplete => Sys2Proof.Machine.execStewardRestartComplete s
  | .descCrcMismatch p q item isTe unit stamp => Sys2Proof.Machine.execDescCrcMismatch p q item isTe unit stamp s
  | .windowMismatch p q item stamp => Sys2Proof.Machine.execWindowMismatch p q item stamp s
  | .dieLinkDown a b stamp => Sys2Proof.Machine.execDieLinkDown a b stamp s
  | .patrolScrub addr double single passDone stamp => Sys2Proof.Machine.execPatrolScrub addr double single passDone stamp s
  | .slotWheelBoundary => Sys2Proof.Machine.execSlotWheelBoundary s
  | .flitReceive qp f => Sys2Proof.Machine.execFlitReceive qp f s
  | .nak qp fseq stamp => Sys2Proof.Machine.execNak qp fseq stamp s
  | .qoreaSilentTimeout qp stamp => Sys2Proof.Machine.execQoreaSilentTimeout qp stamp s
  | .trainingStepTimeout qp lanes => Sys2Proof.Machine.execTrainingStepTimeout qp lanes s
  | .data qp h bytes => Sys2Proof.Machine.execData qp h bytes s
  | .read qp h len => Sys2Proof.Machine.execRead qp h len s
  | .ack qp p cls pktNum => Sys2Proof.Machine.execAck qp p cls pktNum s
  | .join qp h g roundTotal => Sys2Proof.Machine.execJoin qp h g roundTotal s
  | .exp qp h g bucket e nonfinite => Sys2Proof.Machine.execExp qp h g bucket e nonfinite s
  | .scale qp h g bucket f mark => Sys2Proof.Machine.execScale qp h g bucket f mark s
  | .grad qp h g bucket vals => Sys2Proof.Machine.execGrad qp h g bucket vals s
  | .bucketClose p group bucket => Sys2Proof.Machine.execBucketClose p group bucket s
  | .param qp h g bucket vals => Sys2Proof.Machine.execParam qp h g bucket vals s
  | .absent qp h g => Sys2Proof.Machine.execAbsent qp h g s
  | .abort qp h g => Sys2Proof.Machine.execAbort qp h g s
  | .groupTimeout p group => Sys2Proof.Machine.execGroupTimeout p group s
  | .ckData qp h bytes => Sys2Proof.Machine.execCkData qp h bytes s
  | .ckEnd qp h num total digest => Sys2Proof.Machine.execCkEnd qp h num total digest s
  | .ckAck qp h num status digest => Sys2Proof.Machine.execCkAck qp h num status digest s
  | .ckRead qp h num offset len => Sys2Proof.Machine.execCkRead qp h num offset len s
  | .ckRdata qp h bytes => Sys2Proof.Machine.execCkRdata qp h bytes s
  | .hello qp h feed size => Sys2Proof.Machine.execHello qp h feed size s
  | .helloAck qp h feed status half => Sys2Proof.Machine.execHelloAck qp h feed status half s
  | .helloTimeout p => Sys2Proof.Machine.execHelloTimeout p s
  | .negData qp h bytes => Sys2Proof.Machine.execNegData qp h bytes s
  | .negEnd qp h total sha => Sys2Proof.Machine.execNegEnd qp h total sha s
  | .negAck qp h status => Sys2Proof.Machine.execNegAck qp h status s
  | .copyTimeout p partner => Sys2Proof.Machine.execCopyTimeout p partner s
  | .restoreSourceTimeout p => Sys2Proof.Machine.execRestoreSourceTimeout p s
  | .cgL1Entry cg => Sys2Proof.Machine.execCgL1Entry cg s
  | .moduleL1Entry => Sys2Proof.Machine.execModuleL1Entry s
  | .moduleL2Entry => Sys2Proof.Machine.execModuleL2Entry s
  | .moduleL3Entry => Sys2Proof.Machine.execModuleL3Entry s
  | .avsRetry bus stamp => Sys2Proof.Machine.execAvsRetry bus stamp s
  | .wakeBurst port => Sys2Proof.Machine.execWakeBurst port s
  | .wakeNInput => Sys2Proof.Machine.execWakeNInput s
  | .dutyControl r stamp => Sys2Proof.Machine.execDutyControl r stamp s
  | .tempSample r stamp => Sys2Proof.Machine.execTempSample r stamp s
  | .inputLow stamp => Sys2Proof.Machine.execInputLow stamp s
  | .undervoltageLockout => Sys2Proof.Machine.execUndervoltageLockout s
  | .railFault rail stamp => Sys2Proof.Machine.execRailFault rail stamp s
  | .refLost stamp => Sys2Proof.Machine.execRefLost stamp s
  | .pllUnlock stamp => Sys2Proof.Machine.execPllUnlock stamp s
  | .pwrgdInRise => Sys2Proof.Machine.execPwrgdInRise s
  | .pwrgdInFall => Sys2Proof.Machine.execPwrgdInFall s
  | .modRstNFall => Sys2Proof.Machine.execModRstNFall s
  | .modRstNRise => Sys2Proof.Machine.execModRstNRise s
  | .moduleWarmReset cause => Sys2Proof.Machine.execModuleWarmReset cause s
  | .coldReset cause => Sys2Proof.Machine.execColdReset cause s
  | .safelightChallengeExpiry => Sys2Proof.Machine.execSafelightChallengeExpiry s
  | .safelightExpiry => Sys2Proof.Machine.execSafelightExpiry s
  | .drbgReseed => Sys2Proof.Machine.execDrbgReseed s
  | .i3cRegRead addr => Sys2Proof.Machine.execI3cRegRead addr s
  | .i3cRegWrite addr v => Sys2Proof.Machine.execI3cRegWrite addr v s
  | .flashRead off len => Sys2Proof.Machine.execFlashRead off len s
  | .flashWrite off bytes => Sys2Proof.Machine.execFlashWrite off bytes s
  | .flashErase off => Sys2Proof.Machine.execFlashErase off s
  | .i3cStatus => Sys2Proof.Machine.execI3cStatus s
  | .bypass => Sys2Proof.Machine.execBypass s
  | .idcode => Sys2Proof.Machine.execIdcode s
  | .samplePreload => Sys2Proof.Machine.execSamplePreload s
  | .extest => Sys2Proof.Machine.execExtest s
  | .partitionResetComplete p => Sys2Proof.Machine.execPartitionResetComplete p s
  | .linkTrained qp peerNode => Sys2Proof.Machine.execLinkTrained qp peerNode s
  | .refRestored => Sys2Proof.Machine.execRefRestored s
  | .inputRestored => Sys2Proof.Machine.execInputRestored s
  | .standbyInputLoss => Sys2Proof.Machine.execStandbyInputLoss s
  | .standbyInputReturn => Sys2Proof.Machine.execStandbyInputReturn s
  | .stashFillComplete p mb => Sys2Proof.Machine.execStashFillComplete p mb s
  | .regulatorTransitionComplete bus readbackOk last => Sys2Proof.Machine.execRegulatorTransitionComplete bus readbackOk last s
  | .flashOperationComplete => Sys2Proof.Machine.execFlashOperationComplete s
  | .safelightDebugAccess scopeBit p mc addr write => Sys2Proof.Machine.execSafelightDebugAccess scopeBit p mc addr write s
  | .setdasa addr => Sys2Proof.Machine.execSetdasa addr s
  | .entdaa addr => Sys2Proof.Machine.execEntdaa addr s

end Sys2Proof.Machine
end

