-- ==== Sys2Proof/WellFormed.lean ====
section
/-! DEFINITION. Which commands are well formed: counts, lengths and reserved bits that a field's type does not already fix. A command that is not well formed has no bytes that spell it. -/

namespace Sys2Proof

def between (lo hi n : Nat) : Bool := decide (lo ≤ n) && decide (n ≤ hi)

/-- A transfer length: a multiple of 64, at most 1 TiB (R326, R369). -/
def wholeLines (n : W64) : Bool := decide (n.toNat % 64 = 0) && decide (n.toNat ≤ 2 ^ 40)

/-- An endpoint's reserved bits, KIND and KEY_ID (R363). -/
def Endpoint.wf (e : Endpoint) : Bool := e.rsvBits == 0 && (e.kind == 1 || e.kind == 2) && decide (e.keyId.toNat ≤ 15)

/-- A scalar-core word's TYPE is a code of R114, or zero. -/
def IWord.wf (w : IWord) : Bool := decide (w.type.toNat ≤ 9)

/-- Reserved bits of a contact descriptor, and TAPS (R145). -/
def ContactDesc.wf (d : ContactDesc) : Bool := d.rsvBits == 0 && d.family != 3 && d.rankLoss != 3 && decide (d.taps.toNat ≤ 8)

/-- Reserved bits and codes of a request descriptor (R266). -/
def TeReq.wf (r : TeReq) : Bool := r.rsvBits == 0 && decide (r.op.toNat ≤ 4) && r.srcSpace != 3

/-- SR_STREAM's reserved bits, and the number of bound operands (R331). -/
def ProgBlock.wf (x : ProgBlock) : Bool := x.srStream.extractLsb' 24 7 == 0 && decide (x.binds.length ≤ 256) && ContactDesc.wf x.contact

/-- A member list of 1 to 4,096 entries, none of them the unset node (R370). -/
def GroupBlock.wf (g : GroupBlock) : Bool := between 1 4096 g.members.length && g.members.all fun m => m.1 != 0x1FFF

/-- Lengths of a token's fields (R461). -/
def Token.wf (t : Token) : Bool := t.ueid.length == 16 && t.challenge.length == 32 && t.sig.length == 64

/-- Well-formedness, one arm for each kind of check. -/
def Instr.wf : Instr → Bool
  | .regRead _ addrs => between 1 64 addrs.length
  | .regWrite _ ws => between 1 64 ws.length
  | .acctRead _ _ n => between 1 2048 n.toNat
  | .attestQuote _ nonce _ => nonce.length == 32
  | .keyExchange _ mode slot src bs => decide (mode.toNat ≤ 4) && decide (slot.toNat ≤ 15) && decide (src.toNat ≤ 15) && decide (bs.length ≤ 64)
  | .looseGrant _ n => decide (n.toNat ≤ 255)
  | .looseRelease _ n => decide (n.toNat ≤ 255)
  | .memGrant _ w n named keep gs => decide (w.toNat < 2048) && between 1 1120 n.toNat && gs.length == (if named then n.toNat else 0) && (named || !keep)
  | .memRelease _ w n => decide (w.toNat < 2048) && between 1 1120 n.toNat
  | .sharedMap _ w => decide (w.toNat < 2048)
  | .sharedLoad _ ep n _ => Endpoint.wf ep && wholeLines n
  | .dataIn _ ep _ n => Endpoint.wf ep && wholeLines n
  | .dataOut _ ep _ n => Endpoint.wf ep && wholeLines n
  | .modelLoad _ _ _ flags _ => decide (flags.toNat ≤ 7)
  | .tableOp _ rs => between 1 256 rs.length && rs.all TeReq.wf
  | .distillStep _ b x => ContactDesc.wf b.contact && ProgBlock.wf x
  | .fwdMb _ x => ProgBlock.wf x
  | .bwdMb _ x => ProgBlock.wf x
  | .mbRelease _ ids => between 1 256 ids.length
  | .eval _ b x => ContactDesc.wf b.contact && ProgBlock.wf x
  | .genSubmit _ _ _ rs => between 1 256 rs.length && rs.all fun r => r.rsvBits == 0
  | .budgetSet _ rs => between 1 256 rs.length
  | .budgetRead _ _ n => between 1 1024 n.toNat
  | .groupSet _ g => GroupBlock.wf g
  | .routeSet _ _ first n v => between 1 8191 n.toNat && decide (first.toNat + n.toNat ≤ 8191) && decide (v.toNat ≤ 1)
  | .reduce _ _ _ n _ _ => between 1 (2 ^ 32) n.toNat
  | .ckptSave _ ep a b _ => (!a || Endpoint.wf ep) && (a || b)
  | .ckptRestore _ ep _ => Endpoint.wf ep
  | .partnerSet _ role ov ep _ _ => decide (role.toNat ≤ 2) && (!ov || role == 0) && Endpoint.wf ep
  | .negativeShip _ _ _ ep => Endpoint.wf ep
  | .progRun _ x => ProgBlock.wf x
  | .faultLogRead _ _ n => between 1 64 n.toNat
  | .safelightUnlock _ mode t => decide (mode.toNat ≤ 2) && (mode != 1 || Token.wf t)
  | .run _ _ _ _ d s w => d.rsv == 0 && s.rsvBits == 0 && w.rsvBits == 0
  | .split _ _ d => d.rsv == 0 && d.partMc.length == 8
  | .data _ _ bs => decide (bs.length ≤ 16384)
  | .ckData _ _ bs => decide (bs.length ≤ 16384)
  | .ckEnd _ _ _ _ dg => dg.length == 32
  | .ckAck _ _ _ _ dg => dg.length == 32
  | .ckRdata _ _ bs => decide (bs.length ≤ 16384)
  | .negData _ _ bs => decide (bs.length ≤ 16384)
  | .negEnd _ _ _ dg => dg.length == 32
  | .flashRead _ n => between 1 256 n.toNat
  | .flashWrite off bs => decide (off.toNat % 256 = 0) && bs.length == 256
  | .flashErase off => decide (off.toNat % 65536 = 0)
  | .nopInstruction _ w | .mov _ w | .add _ w | .sub _ w | .mul _ w | .and _ w | .or _ w | .xor _ w | .shl _ w | .shr _ w | .sra _ w | .imin _ w
  | .imax _ w | .scl _ w | .fadd _ w | .fsub _ w | .fmul _ w | .ffma _ w | .fdiv _ w | .fsqrt _ w | .fmax _ w | .fmin _ w | .fabs _ w | .fneg _ w
  | .exp2 _ w | .log2 _ w | .ceq _ w | .cne _ w | .clt _ w | .cle _ w | .cun _ w | .cgt _ w | .cge _ w | .sel _ w | .kand _ w | .kor _ w | .knot _ w
  | .cvt _ w | .ld _ w | .st _ w | .prom _ w | .scvt _ w | .sred _ w | .smove _ w | .atx _ w | .tereq _ w | .tewait _ w | .br _ w | .bar _ w | .swait _ w
  | .spost _ w | .sumry _ w | .endThread _ w => IWord.wf w
  | .packetArrival _ _ | .uapraFrame _ _ | .uapraFrameRetry _ | .uapraRetrain _ _ | .nop _ | .ptnCreate _ _ _ _ | .ptnDestroy _ | .cgAlloc _ _
  | .cgRelease _ _ | .cgReleaseEffect _ _ | .ptnReset _ | .acctClear _ _ _ | .sharedUnmap _ | .sharedSeal _ | .sharedClear _ | .modelUnload _ _
  | .variantLoad _ _ _ _ _ | .variantUnload _ _ _ | .update _ _ _ _ _ _ | .genCancel _ _ _ | .groupLeave _ _ | .progLoad _ _ _ | .progUnload _ _
  | .pwrState _ _ _ _ | .telemetryRead _ | .pwrLimit _ _ | .stripNow _ _ _ _ _ | .faultLogClear _ _ | .echo _ _ | .ptnNumModeWrite _ _ _
  | .ptnStashCfgWrite _ _ _ | .ptnSpillBaseWrite _ _ _ | .ptnQCfgWrite _ _ _ _ | .ptnSchedCfgWrite _ _ _ | .ptnServeCfgWrite _ _ _
  | .ptnReplyCfgWrite _ _ _ | .ptnMemSlotsWrite _ _ _ | .ptnSemCountWrite _ _ _ _ | .ptnViolInfoClear _ _ _ | .modMemCfgWrite _ _
  | .modSharedLabelWrite _ _ | .modFabricWrite _ _ | .qlnkEnable _ _ _ | .qlnkResWrite _ _ _ _ | .qoreaLinkReset _ _ _ | .uapraLinkReset _ _ _
  | .pwrCfgWrite _ _ | .safStatusClear _ _ _ _ | .registerWrite _ _ _ | .loadReturn _ _ | .streamDone _ | .barRelease _ _ | .semaphoreAcquire _ _
  | .gather _ _ | .pool _ _ | .scatterAdd _ _ | .topk _ _ | .lse _ _ | .teRequestComplete _ _ | .plan _ _ _ _ | .launch _ _ _ _ | .wait _ _ _ _
  | .cmp _ _ _ | .brt _ _ _ | .jmp _ _ _ | .copy _ _ _ _ _ _ | .setc _ _ _ _ | .decb _ _ _ _ | .endItem _ _ _ _ | .programEnd _ _ | .launchComplete _
  | .runRelease _ | .splitHandoff _ _ _ _ | .waitSem _ _ _ _ | .postSem _ _ _ _ | .sliceEnd _ _ _ | .stopBathHandover _ _ _ | .restoreComplete _ _ _ _
  | .stashFill _ _ | .updateBufferAcquire _ _ _ | .contactFinalise _ _ _ | .genStep _ _ | .stepCommit _ _ _ _ | .chunkComplete _ _ _ _
  | .budgetRefill _ _ | .stripDue _ | .stripStart _ | .stripEnd _ _ _ | .teStripEnd _ _ _ | .heartbeatMissed _ _ _ | .psLockstepMismatch _ _ _
  | .stewardLockstepMismatch _ _ | .stewardRestartComplete | .descCrcMismatch _ _ _ _ _ _ | .windowMismatch _ _ _ _ | .dieLinkDown _ _ _
  | .patrolScrub _ _ _ _ _ | .slotWheelBoundary | .flitReceive _ _ | .nak _ _ _ | .qoreaSilentTimeout _ _ | .trainingStepTimeout _ _ | .read _ _ _
  | .ack _ _ _ _ | .join _ _ _ _ | .exp _ _ _ _ _ _ | .scale _ _ _ _ _ _ | .grad _ _ _ _ _ | .bucketClose _ _ _ | .param _ _ _ _ _ | .absent _ _ _
  | .abort _ _ _ | .groupTimeout _ _ | .ckRead _ _ _ _ _ | .hello _ _ _ _ | .helloAck _ _ _ _ _ | .helloTimeout _ | .negAck _ _ _ | .copyTimeout _ _
  | .restoreSourceTimeout _ | .cgL1Entry _ | .moduleL1Entry | .moduleL2Entry | .moduleL3Entry | .avsRetry _ _ | .wakeBurst _ | .wakeNInput
  | .dutyControl _ _ | .tempSample _ _ | .inputLow _ | .undervoltageLockout | .railFault _ _ | .refLost _ | .pllUnlock _ | .pwrgdInRise | .pwrgdInFall
  | .modRstNFall | .modRstNRise | .moduleWarmReset _ | .coldReset _ | .safelightChallengeExpiry | .safelightExpiry | .drbgReseed | .i3cRegRead _
  | .i3cRegWrite _ _ | .i3cStatus | .bypass | .idcode | .samplePreload | .extest | .partitionResetComplete _ | .linkTrained _ _ | .refRestored
  | .inputRestored | .standbyInputLoss | .standbyInputReturn | .stashFillComplete _ _ | .regulatorTransitionComplete _ _ _ | .flashOperationComplete
  | .safelightDebugAccess _ _ _ _ _ | .setdasa _ | .entdaa _ => true

end Sys2Proof
end

