-- ==== Sys2Proof/Safety.lean ====
section
/-! DEFINITION. What a safe run of the module is, and the terms that statements are made in: when a command has its own effect, and what such an effect leaves. -/

namespace Sys2Proof.Machine

/-- A command that answers a next state. -/
def Runs (c : Instr) (s t : State) : Prop := exec c s = .next t

namespace State

/-! ## Scalar-core threads (R117, R122, R130, R131) -/

/-- The launch of thread t, when t may issue the word as an instruction of operation `op`: its launch runs, the thread waits for nothing, no register of `regs` awaits a load, and the effective word passes R117. -/
def issues (s : State) (t : ThreadId) (w : IWord) (op : Nat) (regs : IWord → List (BitVec 5)) : Option Launch :=
  match s.launch? (s.th t.val).launch with
  | none => none
  | some l => if s.canIssue t (regs (l.word w)) && (wordCheck op (l.word w) l.code.length).isNone then some l else none

/-- G[d] receives a value and the thread goes on; what was counted reaches the contact sheet of its command. -/
def wrote (s : State) (t : ThreadId) (d : BitVec 5) (v : W32) (ev : Ev) : State := (s.updTh t.val fun x => (x.set d v).next).threadEv t ev

/-- K[k] receives a truth value and the thread goes on. -/
def wroteK (s : State) (t : ThreadId) (k : Nat) (v : Bool) : State := s.updTh t.val fun x => (x.setPred k v).next

/-- The launch and the descriptor of a stream instruction whose lane is active, whose unit is free and whose descriptor lies in the launch's region, where no error stands (R124, R125, R127, R433, R508). -/
def streams (s : State) (t : ThreadId) (w : IWord) (op : Nat) : Option (Launch × SDesc) :=
  match s.issues t w op (fun e => [e.d, e.a]) with
  | none => none
  | some l =>
    let e := l.word w
    let a := ((s.th t.val).get e.a).toNat
    if (s.th t.val).pred e.pred.toNat && s.unitFree t (op = 0x41 && e.group) && (descPlace l a).isNone && !(s.mc (mcOf t)).bad 1 (a / 8) 8
    then some (l, SDesc.parse ((s.mc (mcOf t)).ocRead a 64)) else none

/-! ## Commands of a channel (R285, R318, R323, R324) -/

/-- The state in which an immediate or steward command with this header runs, when the rules of order let it start. -/
def runsNow (s : State) (h : Hdr) (opcode : W16) : Option State :=
  let s := s.ensureCmd h opcode true
  match s.cmdOf h with
  | some c => if s.mayStart c then some s else none
  | none => none

/-- The reply of a command whose items and result block are known, sent unless R25 holds it. -/
def replied (s : State) (h : Hdr) (items : List Item) (result : List Byte) : State :=
  (s.updCmd h fun c => { c with started := true, items := items, result := result }).tryReport h

/-- The state in which a queued command with this header starts, when its queue has come to it, its job runs and slots serve what it reads as it starts (R285, R292, R510). -/
def startsNow (s : State) (h : Hdr) (opcode : W16) (cmd : Instr) : Option State :=
  let s := (s.ensureCmd h opcode false).updCmd h fun c => { c with cmd := some (c.cmd.getD cmd) }
  match s.cmdOf h with
  | some c =>
    let u := s.updPtn h.ptn (·.makeReady h.queue)
    if s.mayStart c && decide ((u.job h.ptn h.queue).st = .running) && !u.slotsWait h.ptn cmd then some u else none
  | none => none

/-- The state after a queued command of one item that ends as it starts. -/
def finished (s : State) (h : Hdr) (it : Item) (result : List Byte) : State :=
  ((s.updCmd h fun c => { c with started := true, items := [it] }).setResult h result).settle h

/-- The command, the program run and the image of a sequencer that stands at a step `is` holds of and waits for nothing (R347). -/
def atStep (s : State) (p : PtnId) (q : QueueId) (is : SeqStep → Bool) : Option (CmdRec × ProgRun × Image) :=
  match s.running? p q with
  | none => none
  | some c =>
    match c.prog, (s.ptn p).imageOf c with
    | some r, some im =>
      if (s.job p q).st = .running && !r.ended && r.endCode.isNone && is (im.steps.getD r.step {})
      then (s.resolve r im).map fun r => (c, r, im) else none
    | _, _ => none

/-! ## Packets (R315 to R320, R366, R369, R373) -/

/-- The state in which a packet is admitted: its port is up, the module is awake and has left L1. -/
def admits (s : State) (port : UpId) : Option State := if s.awake && (s.up port).isUp then some s.leaveL1 else none

/-- The group of a group packet and the member that sent it, when the packet is taken. -/
def fromMember (s : State) (qp : QpId) (h : QHdr) (g : GHdr) : Option (Group × Nat) :=
  match (s.ptn h.dstPtn).group? g.group with
  | some y => if (s.qp qp).st = 2 && decide (g.epoch = y.epoch) then (y.member? h.srcNode h.srcPtn).map fun m => (y, m) else none
  | none => none

/-- The open round of a group packet that has not been taken before. -/
def inOpen (s : State) (h : QHdr) (g : GHdr) : Option (Group × Round) :=
  match s.round? h.dstPtn g.group g.round with
  | some (y, r) => if decide (pktTag h ∈ r.seen) then none else some (y, r)
  | none => none

/-- Its number is noted in the round. -/
def noted (s : State) (h : QHdr) (g : GHdr) : State := s.updRound h.dstPtn g.group g.round fun r => { r with seen := r.seen ++ [pktTag h] }

end State

/-- The round belongs to a REDUCE. -/
def RoundWork.isReduce (w : RoundWork) : Bool := match w with | .reduce _ _ _ _ => true | .update _ _ _ _ _ => false

/-- Operands of an instruction with destination D and sources A and B, or A alone. -/
def regsDAB (w : IWord) : List (BitVec 5) := w.d :: regsAB w
def regsDA (w : IWord) : List (BitVec 5) := w.d :: regsA w

/-- A register's pattern in a floating format, and the result of an operation as a register (R114). -/
def fltIn (g : LFmt) (v : W32) : Nat := v.toNat % 2 ^ (g.sbit + 1)
def fltOut (r : Nat × Ev) : W32 := BitVec.ofNat 32 r.1

end Sys2Proof.Machine
end

