-- ==== Sys2Proof/Certificates/Slice0/Obligations.lean ====
section
/-! DEFINITION. Statements about the module, for the provers. -/

open Sys2Proof Sys2Proof.Machine

/-- A step serves the first waiting command, and nothing else stands between the queue and its effect (DESIGN CHOICE, log entry 1: the queue is the model's own). -/
def Obligations.StepTakesFrontCommand : Prop :=
  ∀ (c : Instr) (rest : List Instr) (s : State), step { s with pending := c :: rest } = exec c { s with pending := rest }

/-- With nothing waiting the block idles: the model's own convention (DESIGN CHOICE, log entry 1). -/
def Obligations.EmptyQueueIdles : Prop :=
  ∀ (s : State), s.pending = [] → step s = .next s

/-- Every command is served: the module never stops on one, and serving it takes that one command off the queue and leaves the others in their order. -/
def Obligations.EveryStepServesOneCommand : Prop :=
  ∀ (s : State) (c : Instr) (rest : List Instr), s.pending = c :: rest → ∃ t, step s = .next t ∧ t.pending = rest

/-- Reset memory lists nothing, so it is in canonical form; the form is the model's own. -/
def Obligations.ResetMemoryCanonical : Prop :=
  Mem.wf State.reset.mem = true ∧ State.reset.mem = {}

/-- The invariant of device memory that every command keeps: equal memories are equal data. -/
def Obligations.EveryStepKeepsMemoryCanonical : Prop :=
  ∀ (s t : State), Mem.wf s.mem = true → step s = .next t → Mem.wf t.mem = true

/-- Integer results (R118, R119). -/
def Obligations.IntegerResults : Prop :=
  ∀ (s : State) (t : ThreadId) (w : IWord) (l : Launch),
    let e := l.word w
    let x := s.th t.val
    let a := x.get e.a
    let b := e.opB x
    let lt := fun (u v : W32) => if e.ty = 2 then decide (u.toInt < v.toInt) else decide (u.toNat < v.toNat)
    x.pred e.pred.toNat = true →
    (s.issues t w 0x01 (fun e => e.d :: if e.i then [] else [e.a]) = some l →
      exec (.mov t w) s = .next (s.wrote t e.d (if e.i then e.imm else a) {})) ∧
    (s.issues t w 0x02 regsDAB = some l → exec (.add t w) s = .next (s.wrote t e.d (a + b) {})) ∧
    (s.issues t w 0x03 regsDAB = some l → exec (.sub t w) s = .next (s.wrote t e.d (a - b) {})) ∧
    (s.issues t w 0x04 regsDAB = some l → exec (.mul t w) s = .next (s.wrote t e.d (a * b) {})) ∧
    (s.issues t w 0x05 regsDAB = some l → exec (.and t w) s = .next (s.wrote t e.d (a &&& b) {})) ∧
    (s.issues t w 0x06 regsDAB = some l → exec (.or t w) s = .next (s.wrote t e.d (a ||| b) {})) ∧
    (s.issues t w 0x07 regsDAB = some l → exec (.xor t w) s = .next (s.wrote t e.d (a ^^^ b) {})) ∧
    (s.issues t w 0x08 regsDAB = some l → exec (.shl t w) s = .next (s.wrote t e.d (a <<< (b &&& 31)) {})) ∧
    (s.issues t w 0x09 regsDAB = some l → exec (.shr t w) s = .next (s.wrote t e.d (a >>> (b &&& 31)) {})) ∧
    (s.issues t w 0x0A regsDAB = some l → exec (.sra t w) s = .next (s.wrote t e.d (a.sshiftRight (b &&& 31).toNat) {})) ∧
    (s.issues t w 0x0B regsDAB = some l → exec (.imin t w) s = .next (s.wrote t e.d (if lt b a then b else a) {})) ∧
    (s.issues t w 0x0C regsDAB = some l → exec (.imax t w) s = .next (s.wrote t e.d (if lt a b then b else a) {})) ∧
    (s.issues t w 0x0D regsDAB = some l →
      ∃ r : W32, exec (.scl t w) s = .next (s.wrote t e.d r {}) ∧
        r.extractLsb' 0 8 = a.extractLsb' 0 8 ∧ r.extractLsb' 8 8 = b.extractLsb' 0 8 ∧ r.extractLsb' 16 16 = a.extractLsb' 16 16)

/-- Floating results (R118, R119). -/
def Obligations.FloatResults : Prop :=
  ∀ (s : State) (t : ThreadId) (w : IWord) (l : Launch),
    let e := l.word w
    let x := s.th t.val
    let g := if e.ty = 7 then b16 else b32
    let a := fltIn g (x.get e.a)
    let b := fltIn g (e.opB x)
    let d := fltIn g (x.get e.d)
    let leaves := fun (c : Instr) (r : Nat × Ev) => exec c s = .next (s.wrote t e.d (fltOut r) r.2)
    x.pred e.pred.toNat = true →
    (s.issues t w 0x10 regsDAB = some l → leaves (.fadd t w) (g.fadd a b)) ∧
    (s.issues t w 0x11 regsDAB = some l → leaves (.fsub t w) (g.fsub a b)) ∧
    (s.issues t w 0x12 regsDAB = some l → leaves (.fmul t w) (g.fmul a b)) ∧
    (s.issues t w 0x13 regsDAB = some l → leaves (.ffma t w) (g.ffma a b d)) ∧
    (s.issues t w 0x14 regsDAB = some l → leaves (.fdiv t w) (g.fdiv a b)) ∧
    (s.issues t w 0x15 regsDA = some l → leaves (.fsqrt t w) (g.fsqrt a)) ∧
    (s.issues t w 0x16 regsDAB = some l → leaves (.fmax t w) (g.fmax a b, {})) ∧
    (s.issues t w 0x17 regsDAB = some l → leaves (.fmin t w) (g.fmin a b, {})) ∧
    (s.issues t w 0x18 regsDA = some l → leaves (.fabs t w) (g.fabs a, {})) ∧
    (s.issues t w 0x19 regsDA = some l → leaves (.fneg t w) (g.fneg a, {})) ∧
    (s.issues t w 0x1A regsDA = some l → leaves (.exp2 t w) (g.exp2 a)) ∧
    (s.issues t w 0x1B regsDA = some l → leaves (.log2 t w) (g.log2 a))

/-- Comparisons and predicates (R118, R122). -/
def Obligations.ComparesAndPredicates : Prop :=
  ∀ (s : State) (t : ThreadId) (w : IWord) (l : Launch),
    let e := l.word w
    let x := s.th t.val
    let k := e.d.toNat % 8
    let ka := x.pred (e.a.toNat % 8)
    let kb := x.pred (e.b.toNat % 8)
    (∀ ty, Ty.ofCode e.ty = some ty → x.pred e.pred.toNat = true →
      let a := regValue ty (x.get e.a).toNat
      let b := regValue ty (e.opB x).toNat
      (s.issues t w 0x20 regsAB = some l → exec (.ceq t w) s = .next (s.wroteK t k (a.eq b))) ∧
      (s.issues t w 0x21 regsAB = some l → exec (.cne t w) s = .next (s.wroteK t k !(a.eq b))) ∧
      (s.issues t w 0x22 regsAB = some l → exec (.clt t w) s = .next (s.wroteK t k (a.lt b))) ∧
      (s.issues t w 0x23 regsAB = some l → exec (.cle t w) s = .next (s.wroteK t k (a.le b))) ∧
      (s.issues t w 0x24 regsAB = some l → exec (.cun t w) s = .next (s.wroteK t k (a.isNan || b.isNan))) ∧
      (s.issues t w 0x29 regsAB = some l → exec (.cgt t w) s = .next (s.wroteK t k (b.lt a))) ∧
      (s.issues t w 0x2A regsAB = some l → exec (.cge t w) s = .next (s.wroteK t k (b.le a)))) ∧
    (x.pred e.pred.toNat = true →
      (s.issues t w 0x26 (fun _ => []) = some l → exec (.kand t w) s = .next (s.wroteK t k (ka && kb))) ∧
      (s.issues t w 0x27 (fun _ => []) = some l → exec (.kor t w) s = .next (s.wroteK t k (ka || kb))) ∧
      (s.issues t w 0x28 (fun _ => []) = some l → exec (.knot t w) s = .next (s.wroteK t k !ka))) ∧
    (s.issues t w 0x25 regsDAB = some l →
      exec (.sel t w) s = .next (s.updTh t.val fun x => (x.set e.d (if x.pred e.pred.toNat then x.get e.a else e.opB x)).next))

/-- The mask policy (R122, R123). -/
def Obligations.InactiveLanes : Prop :=
  ∀ (s : State) (t : ThreadId) (w : IWord) (l : Launch),
    let e := l.word w
    let idle := s.updTh t.val fun x => (if e.mz then x.set e.d 0 else x).next
    let idleK := s.updTh t.val fun x => (if e.mz then x.setPred (e.d.toNat % 8) false else x).next
    (s.th t.val).pred e.pred.toNat = false →
    (∀ op c, (op, c) ∈ [(0x02, Instr.add t w), (0x03, .sub t w), (0x04, .mul t w), (0x05, .and t w), (0x06, .or t w), (0x07, .xor t w),
        (0x08, .shl t w), (0x09, .shr t w), (0x0A, .sra t w), (0x0B, .imin t w), (0x0C, .imax t w), (0x0D, .scl t w), (0x10, .fadd t w),
        (0x11, .fsub t w), (0x12, .fmul t w), (0x13, .ffma t w), (0x14, .fdiv t w), (0x16, .fmax t w), (0x17, .fmin t w)] →
      s.issues t w op regsDAB = some l → exec c s = .next idle) ∧
    (∀ op c, (op, c) ∈ [(0x15, Instr.fsqrt t w), (0x18, .fabs t w), (0x19, .fneg t w), (0x1A, .exp2 t w), (0x1B, .log2 t w)] →
      s.issues t w op regsDA = some l → exec c s = .next idle) ∧
    (∀ op c, (op, c) ∈ [(0x20, Instr.ceq t w), (0x21, .cne t w), (0x22, .clt t w), (0x23, .cle t w), (0x24, .cun t w), (0x29, .cgt t w), (0x2A, .cge t w)] →
      s.issues t w op regsAB = some l → exec c s = .next idleK) ∧
    (∀ op c, (op, c) ∈ [(0x26, Instr.kand t w), (0x27, .kor t w), (0x28, .knot t w)] →
      s.issues t w op (fun _ => []) = some l → exec c s = .next idleK) ∧
    (s.issues t w 0x50 (fun _ => []) = some l → exec (.br t w) s = .next (s.nextPc t))

/-- What a register instruction leaves alone (R111, R118, R122), and what an unreadable register does (R433). -/
def Obligations.RegisterInstructionFrame : Prop :=
  (∀ (s u : State) (t : ThreadId) (w : IWord) (c : Instr),
    c ∈ [Instr.nopInstruction t w, .mov t w, .add t w, .sub t w, .mul t w, .and t w, .or t w, .xor t w, .shl t w, .shr t w, .sra t w, .imin t w,
      .imax t w, .scl t w, .fadd t w, .fsub t w, .fmul t w, .ffma t w, .fdiv t w, .fsqrt t w, .fmax t w, .fmin t w, .fabs t w, .fneg t w, .exp2 t w,
      .log2 t w, .ceq t w, .cne t w, .clt t w, .cle t w, .cun t w, .cgt t w, .cge t w, .sel t w, .kand t w, .kor t w, .knot t w, .cvt t w] →
    let l := (s.launch? (s.th t.val).launch).getD {}
    let d := (l.word w).d
    s.regsBad t [d, (l.word w).a, (l.word w).b] = false → exec c s = .next u →
    (∀ n, n ≠ t.val → u.th n = s.th n) ∧
    (∀ r : BitVec 5, r ≠ d → (u.th t.val).get r = (s.th t.val).get r) ∧
    (∀ k, k < 8 → k ≠ d.toNat % 8 → (u.th t.val).pred k = (s.th t.val).pred k) ∧
    (u.th t.val).b = (s.th t.val).b ∧ (u.th t.val).loads = (s.th t.val).loads ∧ (u.th t.val).wait = (s.th t.val).wait ∧
    (u.th t.val).launch = (s.th t.val).launch ∧
    u.mem = s.mem ∧ u.mcs = s.mcs ∧ u.tes = s.tes ∧ u.launches = s.launches ∧ u.ups = s.ups ∧ u.qps = s.qps ∧ u.mod = s.mod ∧ u.saf = s.saf ∧
    (∀ p : PtnId, p ≠ l.ptn → u.ptn p = s.ptn p) ∧
    ((s.ptn l.ptn).st = 1 →
      (u.ptn l.ptn).sems = (s.ptn l.ptn).sems ∧ (u.ptn l.ptn).jobs = (s.ptn l.ptn).jobs ∧ (u.ptn l.ptn).mem = (s.ptn l.ptn).mem)) ∧
  (∀ (s : State) (t : ThreadId) (w : IWord) (l : Launch), s.launch? (s.th t.val).launch = some l →
    let e := l.word w
    let stops := fun (op : Nat) (c : Instr) (regs : IWord → List (BitVec 5)) =>
      wordCheck op e l.code.length = none → s.turn t (regs e) = true → s.regsBad t (regs e) = true → exec c s = .next (s.localStop t l 2)
    (∀ op c, (op, c) ∈ [(0x02, Instr.add t w), (0x03, .sub t w), (0x04, .mul t w), (0x05, .and t w), (0x06, .or t w), (0x07, .xor t w),
        (0x08, .shl t w), (0x09, .shr t w), (0x0A, .sra t w), (0x0B, .imin t w), (0x0C, .imax t w), (0x0D, .scl t w), (0x10, .fadd t w),
        (0x11, .fsub t w), (0x12, .fmul t w), (0x13, .ffma t w), (0x14, .fdiv t w), (0x16, .fmax t w), (0x17, .fmin t w), (0x25, .sel t w)] → stops op c regsDAB) ∧
    (∀ op c, (op, c) ∈ [(0x15, Instr.fsqrt t w), (0x18, .fabs t w), (0x19, .fneg t w), (0x1A, .exp2 t w), (0x1B, .log2 t w)] → stops op c regsDA) ∧
    (∀ op c, (op, c) ∈ [(0x20, Instr.ceq t w), (0x21, .cne t w), (0x22, .clt t w), (0x23, .cle t w), (0x24, .cun t w), (0x29, .cgt t w), (0x2A, .cge t w)] →
      stops op c regsAB))

/-- CVT (R43, R49, R51, R121). -/
def Obligations.CvtResult : Prop :=
  ∀ (s : State) (t : ThreadId) (w : IWord) (l : Launch) (ty tgt : Ty),
    let e := l.word w
    let x := s.th t.val
    let m := IWord.mode l e
    let v := regValue ty (x.get e.a).toNat
    let scale := if m.smode = 2 then bits (x.get e.a).toNat 8 8 else m.given.toNat
    let word := srWord l.srSeed.toNat l.srStream.toNat (x.get e.b).toNat
    s.issues t w 0x30 (fun e => [e.d, e.a, e.b]) = some l → x.pred e.pred.toNat = true → Ty.ofCode e.ty = some ty → Ty.ofCode e.cvtTarget = some tgt →
    let k := if tgt.isShort then scale else 0
    let r := convert tgt m.sat (if m.rnd = 1 then some word else none) k v
    exec (.cvt t w) s = .next ((s.wrote t e.d (BitVec.ofNat 32 (if tgt.isShort then r.1 + k * 256 else r.1)) r.2).addSheet l.hdr (·.addAmax v))

/-- LD and the return of its value (R131, R132). -/
def Obligations.LoadResults : Prop :=
  (∀ (s : State) (t : ThreadId) (w : IWord) (l : Launch),
    let e := l.word w
    let x := s.th t.val
    let ty := (Ty.ofCode e.ty).getD .int8
    let m := s.mc (mcOf t)
    s.issues t w 0x38 (fun e => [e.d, e.a]) = some l → x.pred e.pred.toNat = true → x.loads.length < 8 →
    s.placeCheck l ty (e.place x) false = none → m.placeBad (e.place x) = none →
    (∀ n, e.place x = .acc n → m.tileHeld n = false →
      exec (.ld t w) s = .next (s.updTh t.val fun x => { x with loads := x.loads ++ [⟨e.d, (m.entry n).sum⟩], pc := x.pc + 1 })) ∧
    (∀ a n b, e.place x = .oc a n b →
      exec (.ld t w) s = .next (s.updTh t.val fun x => { x with loads := x.loads ++ [⟨e.d, loadForm ty (m.ocRead a n) b⟩], pc := x.pc + 1 })) ∧
    (∀ a n b bs, e.place x = .ptn a n b → s.pRead l.ptn (Who.scalar (mcOf t)) a n = (s, .ok bs) →
      exec (.ld t w) s = .next (s.updTh t.val fun x => { x with loads := x.loads ++ [⟨e.d, loadForm ty bs b⟩], pc := x.pc + 1 }))) ∧
  (∀ (s : State) (t : ThreadId) (k : Fin 8) (l : Load), (s.th t.val).loads[k.val]? = some l →
    exec (.loadReturn t k) s = .next (s.updTh t.val fun x => { x.set l.d l.v with loads := x.loads.eraseIdx k.val }))

/-- ST and PROM (R132, R137). -/
def Obligations.StoreResults : Prop :=
  ∀ (s : State) (t : ThreadId) (w : IWord) (l : Launch),
    let e := l.word w
    let x := s.th t.val
    let ty := (Ty.ofCode e.ty).getD .int8
    let m := s.mc (mcOf t)
    x.pred e.pred.toNat = true →
    (s.issues t w 0x39 (fun e => [e.d, e.a]) = some l → s.placeCheck l ty (e.place x) true = none →
      (∀ n, e.place x = .acc n → m.tileHeld n = false →
        exec (.st t w) s = .next ((s.updMc (mcOf t) fun m => m.setEntry n (Entry.loaded (x.get e.d).toNat 0)).nextPc t)) ∧
      (∀ a n b, e.place x = .oc a n b →
        exec (.st t w) s = .next ((s.updMc (mcOf t) fun m => m.ocWrite a (storeForm ty (m.ocRead a n) b (x.get e.d))).nextPc t)) ∧
      (∀ a n b u, e.place x = .ptn a n b → ty ≠ .q4 → ty ≠ .q6 →
        s.pWrite l.ptn (Who.scalar (mcOf t)) a (storeForm ty [] b (x.get e.d)) = (u, .ok ()) → exec (.st t w) s = .next (u.nextPc t)) ∧
      (∀ a n b old u, e.place x = .ptn a n b → (ty = .q4 ∨ ty = .q6) → s.pRead l.ptn (Who.scalar (mcOf t)) a n = (s, .ok old) →
        s.pWrite l.ptn (Who.scalar (mcOf t)) a (storeForm ty old b (x.get e.d)) = (u, .ok ()) → exec (.st t w) s = .next (u.nextPc t))) ∧
    (s.issues t w 0x3A (fun e => [e.d, e.a]) = some l →
      let n := (x.get e.a).toNat + e.immN
      let r := (m.entry n).promote (b32.decode (x.get e.d).toNat)
      n < 32768 → m.tileHeld n = false → m.bad 0 n 1 = false →
      exec (.prom t w) s = .next (((s.updMc (mcOf t) fun m => m.setEntry n r.1).nextPc t).addSheet l.hdr (·.addEv r.2)))

/-- Thread control (R118, R123, R138, R139). -/
def Obligations.ThreadControl : Prop :=
  (∀ (s : State) (t : ThreadId) (w : IWord) (l : Launch),
    let e := l.word w
    let x := s.th t.val
    (s.issues t w 0x00 (fun _ => []) = some l → exec (.nopInstruction t w) s = .next (s.updTh t.val fun x => { x with pc := x.pc + 1 })) ∧
    (s.issues t w 0x50 (fun _ => []) = some l → x.pred e.pred.toNat = true →
      exec (.br t w) s = .next (s.updTh t.val fun x => { x with pc := bits e.immN 0 16 })) ∧
    (s.issues t w 0x52 (fun _ => []) = some l →
      exec (.bar t w) s = .next (s.updTh t.val fun x => { x with pc := x.pc + 1, wait := .bar })) ∧
    (s.issues t w 0x55 (fun e => [e.a]) = some l → x.pred e.pred.toNat = true →
      exec (.sumry t w) s = .next ((s.updLaunch l.id fun l => { l with
        slots := updNth (·.add (BitVec.ofNat 2 (bits e.immN 4 2)) (x.get e.a)) l.slots (bits e.immN 0 4) }).nextPc t)) ∧
    (s.issues t w 0x45 (fun _ => []) = some l → (x.pred e.pred.toNat = false ∨ x.teOut ≤ bits e.immN 0 12) →
      exec (.tewait t w) s = .next (s.nextPc t)) ∧
    (s.issues t w 0x45 (fun _ => []) = some l → x.pred e.pred.toNat = true → bits e.immN 0 12 < x.teOut →
      exec (.tewait t w) s = .next (s.updTh t.val fun x => { x with pc := x.pc + 1, wait := .te (bits e.immN 0 12) })) ∧
    (s.issues t w 0x56 (fun _ => []) = some l →
      exec (.endThread t w) s = .next ((s.updTh t.val fun x => { x with pc := x.pc + 1, running := false }).updLaunch l.id
        fun l => { l with ended := l.ended ++ [t.val] }))) ∧
  (∀ (s : State) (id : Nat) (mc : McId) (l : Launch), s.launch? id = some l →
    (∀ t ∈ l.threadsOn mc.val, t ∈ l.ended ∨ (s.th t).launch = id ∧ (s.th t).wait = .bar) →
    ∃ u, exec (.barRelease id mc) s = .next u ∧ (∀ t, t ∉ l.threadsOn mc.val → u.th t = s.th t) ∧
      (∀ t, (s.th t).launch = id → (s.th t).wait = .bar → t ∈ l.threadsOn mc.val → (s.th t).pc ≠ 0 → u.th t = { s.th t with wait := .none }) ∧
      u.mem = s.mem ∧ u.mcs = s.mcs ∧ u.ptns = s.ptns ∧ u.launches = s.launches)

/-- Semaphores (R303, R304). -/
def Obligations.Semaphores : Prop :=
  (∀ (s : State) (t : ThreadId) (w : IWord) (l : Launch),
    let e := l.word w
    let n : SemId := Fin.ofNat 256 e.immN
    let m := s.sem l.ptn n
    (s.issues t w 0x53 (fun _ => []) = some l → m.count ≠ 0 → m.waiters = [] →
      exec (.swait t w) s = .next ((s.updSem l.ptn n fun m => { m.addBal l.queue 1 with count := m.count - 1 }).nextPc t)) ∧
    (s.issues t w 0x53 (fun _ => []) = some l → (m.count = 0 ∨ m.waiters ≠ []) →
      exec (.swait t w) s = .next (((s.updSem l.ptn n fun m => { m with waiters := m.waiters ++ [(l.queue, t.val)] }).updTh t.val
        fun x => { x with pc := x.pc + 1, wait := .sem n }).updPtn l.ptn (·.holderStart l.queue n))) ∧
    (s.issues t w 0x54 (fun _ => []) = some l →
      exec (.spost t w) s = .next (((s.updSem l.ptn n fun m =>
        if m.count = 0xFFFFFFFF then { m.addBal l.queue (-1) with ovf := true }
        else { m.addBal l.queue (-1) with count := m.count + 1 }).updPtn l.ptn Ptn.holderCheck).nextPc t))) ∧
  (∀ (s : State) (p : PtnId) (n : SemId) (w : QueueId × Nat),
    let m := s.sem p n
    let taken := (s.updSem p n fun m => { m.addBal w.1 1 with count := m.count - 1 }).updSem p n fun m => { m with waiters := m.waiters.erase w }
    m.waiters.find? (s.stillWaits p n) = some w → m.count ≠ 0 →
    (w.2 < 65536 → (∀ c ∈ (s.job p w.1).saved, c.mc ≠ w.2 / 256) →
      exec (.semaphoreAcquire p n) s = .next ((taken.updTh w.2 fun x => { x with wait := .none }).updPtn p Ptn.holderScan)) ∧
    (w.2 < 65536 → (∃ c ∈ (s.job p w.1).saved, c.mc = w.2 / 256) →
      exec (.semaphoreAcquire p n) s = .next ((taken.updJob p w.1 fun j => { j with saved := updFirst (fun c => c.mc = w.2 / 256) (fun c => { c with ths := c.ths.upd {} (w.2 % 256) fun x => { x with wait := .none } }) j.saved }).updPtn p Ptn.holderScan)) ∧
    (65536 ≤ w.2 → ∀ c r k i, taken.planWaits p w.1 n (w.2 - 65536) = some (c, r, k, i) →
      exec (.semaphoreAcquire p n) s = .next ((taken.updCmd c.hdr fun c => { c with prog := some (r.take k i) }).updPtn p Ptn.holderScan)))

/-- SCVT, SRED and STREAM_DONE (R125 to R127). -/
def Obligations.StreamConversionAndReduction : Prop :=
  (∀ (s u v z : State) (t : ThreadId) (w : IWord) (l : Launch) (d : SDesc) (es : List SElem) (old : List (List Byte)),
    let e := l.word w
    let n := mcOf t
    let m := IWord.mode l e
    let o := d.convertAll m l.srSeed.toNat l.srStream.toNat e.mz (old.getD 0 []) (old.getD 1 []) es
    s.streams t w 0x40 = some (l, d) → s.scvtCheck l d m = none → (s.mc n).anyHeld (d.srcRanges ++ d.dstRanges) = false →
    s.streamSource l n d = (u, .ok es) → u.streamReads l n d.dstRanges = (v, .ok old) →
    (d.dstSpace ≠ 2 → v.streamWrites l n (d.dstRanges.zip [o.arr, o.sc]) = (z, .ok ())) →
    (d.dstSpace = 2 → z = v.updMc n (·.putSums d.dstAddr (fun i => e.mz || (es[i]?).any (·.active)) ((chunks 4 d.length o.arr).map leNat))) →
    exec (.scvt t w) s = .next ((z.addSheet l.hdr fun sh =>
      { o.vals.foldl Sheet.addAmax (sh.addEv o.ev) with empty := sh.empty || o.vals.isEmpty }).streamWait t none 0)) ∧
  (∀ (s u : State) (t : ThreadId) (w : IWord) (l : Launch) (d : SDesc) (es : List SElem),
    let e := l.word w
    let n := mcOf t
    let k := if e.rop < 2 then 1 else 3
    let st : List SRange := if e.toAcc || e.cont then [⟨2, d.accEntry, k, true, 1⟩] else []
    let prior := if e.cont then some ((u.mc n).acc.getList {} d.accEntry k) else none
    let o := reduce e.rop e.sample prior (es.map fun x => if x.active then some (redValue d.sTy x.v) else none)
    let kept := if e.toAcc then u.updMc n fun m => ({ m with acc := m.acc.putList {} d.accEntry o.state } : MCore).mend 0 d.accEntry k else u
    let ints := if d.sTy.intRange.isSome then (es.filter (·.active)).map (·.v) else []
    s.streams t w 0x41 = some (l, d) → s.sredCheck l d e = none → (s.mc n).anyHeld (d.srcRanges ++ st) = false →
    (e.cont = true → (s.mc n).bad 0 d.accEntry k = false) → s.streamSource l n d = (u, .ok es) →
    exec (.sred t w) s = .next ((kept.addSheet l.hdr fun sh =>
      { (ints ++ o.vals).foldl Sheet.addAmax (sh.addEv o.ev) with empty := sh.empty || o.empty }).streamWait t (some e.d) o.res e.group)) ∧
  (∀ (s : State) (t : ThreadId) (d : Option (BitVec 5)) (v : W32) (g : Bool), (s.th t.val).wait = .stream d v g →
    exec (.streamDone t) s = .next (s.updTh t.val fun x => { (match d with | some r => x.set r v | none => x) with wait := .none }))

/-- SMOVE and ATX (R507). -/
def Obligations.StreamMoves : Prop :=
  (∀ (s u v : State) (t : ThreadId) (w : IWord) (l : Launch) (d : SDesc) (bs : List Byte),
    let n := mcOf t
    let src : SRange := ⟨d.srcSpace, d.srcAddr, d.length, false, 1⟩
    let dst : SRange := ⟨d.dstSpace, d.dstAddr, d.length, true, 1⟩
    s.streams t w 0x42 = some (l, d) → d.codesBad false = false → d.srcSpace ≠ 2 → d.dstSpace ≠ 2 → s.rangeCheck l [src, dst] = none →
    s.streamRead l n src = (u, .ok bs) → u.streamWrite l n dst bs = (v, .ok ()) →
    exec (.smove t w) s = .next (v.streamWait t none 0)) ∧
  (∀ (s u : State) (t : ThreadId) (w : IWord) (l : Launch) (d : SDesc) (bs : List Byte),
    let e := l.word w
    let n := mcOf t
    let form := bits e.immN 0 3
    let tile := bits e.immN 4 3
    let size := match form with | 1 => 4 | 2 => 2 | 3 => 4 | _ => 1
    s.streams t w 0x43 = some (l, d) → d.maskBad l = false → d.shapeBad = false → bitAt (s.mc n).tiles.toNat tile = false →
    (bitAt e.immN 3 = true → form ≠ 4 → d.dstSpace = 1 →
      let r : SRange := ⟨d.dstSpace, d.dstAddr, formBytes form, true, size⟩
      let es := ((s.mc n).acc.getList {} (4096 * tile) 4096).map (formStore form)
      s.rangeCheck l [r] = none → (s.mc n).bad 0 (4096 * tile) 4096 = false → s.streamWrite l n r (es.flatMap (·.1)) = (u, .ok ()) →
      exec (.atx t w) s = .next ((u.addSheet l.hdr fun sh => es.foldl (fun sh x => (sh.addEv x.2.1).addAmax x.2.2) sh).streamWait t none 0)) ∧
    (bitAt e.immN 3 = false → form ≠ 4 → d.srcSpace = 1 →
      let r : SRange := ⟨d.srcSpace, d.srcAddr, formBytes form, false, size⟩
      s.rangeCheck l [r] = none → s.streamRead l n r = (u, .ok bs) →
      exec (.atx t w) s = .next ((u.updMc n fun m => ({ m with acc := m.acc.putList {} (4096 * tile) (formLoad form bs) } : MCore).mend 0 (4096 * tile) 4096).streamWait t none 0)) ∧
    (bitAt e.immN 3 = false → form = 4 →
      exec (.atx t w) s = .next ((s.updMc n fun m => ({ m with acc := m.acc.putList {} (4096 * tile) (formLoad 4 []) } : MCore).mend 0 (4096 * tile) 4096).streamWait t none 0)))

/-- Table engines (R265 to R274). -/
def Obligations.TableEngineRequests : Prop :=
  (∀ (s : State) (t : ThreadId) (w : IWord) (l : Launch) (n : Nat),
    let e := l.word w
    let x := s.th t.val
    let a := (x.get e.a).toNat
    let r := TeReq.parse ((s.mc (mcOf t)).ocRead a 64)
    s.issues t w 0x44 (fun e => [e.a]) = some l → x.pred e.pred.toNat = true → s.teFor (mcOf t) (e.immN % 2) = some n → l.ocOk a 64 false = true →
    x.teOut < 64 → (s.te n).reqs.length < 4096 → (s.mc (mcOf t)).bad 1 (a / 8) ((a + 71) / 8 - a / 8) = false → r.check = none →
    exec (.tereq t w) s = .next ((s.updTe n fun e => { e with
      reqs := e.reqs ++ [{ req := r, ptn := l.ptn, queue := l.queue, seq := l.seq, thread := some (t.val, l.id) }] }).updTh t.val
        fun x => { x with pc := x.pc + 1, teOut := x.teOut + 1 })) ∧
  (∀ (s : State) (te : TeId) (k : Nat) (w : TeWork),
    let n := w.req.count.toNat
    (s.teTurn te.val k 0 = some w → exec (.gather te k) s = .next (s.teDone te.val k w (teLoop w (fun i s => s.gatherRow te.val w i) n 0 s {}))) ∧
    (s.teTurn te.val k 1 = some w → exec (.pool te k) s = .next (s.teDone te.val k w (teLoop w (fun i s => s.poolBag te.val w i) n 0 s {}))) ∧
    (s.teTurn te.val k 2 = some w → exec (.scatterAdd te k) s = .next (s.teDone te.val k w (teLoop w (fun i s => s.scatterRow te.val w i) n 0 s {}))) ∧
    (s.teTurn te.val k 3 = some w → exec (.topk te k) s = .next (s.teDone te.val k w (s.topkAll te.val w))) ∧
    (s.teTurn te.val k 4 = some w → exec (.lse te k) s = .next (s.teDone te.val k w (s.lseAllReq te.val w)))) ∧
  (∀ (s : State) (te : TeId) (k : Nat) (w : TeWork), (s.te te.val).reqs[k]? = some w → w.done = true →
    let gone := s.updTe te.val fun e => { e with reqs := e.reqs.eraseIdx k }
    let paid := if (s.job w.ptn w.queue).st = .stopped then
        ({ gone with fresh := gone.fresh + 1 } : State).updPtn w.ptn fun x => x.chargeMc w.queue (x.runs? w.queue) (Config.free gone.fresh 0)
      else gone
    let u := if w.failed.isNone && w.req.post then paid.semPost w.ptn w.queue (Fin.ofNat 256 w.req.sem.toNat) else paid
    (w.thread = none → exec (.teRequestComplete te k) s = .next ((u.closeItem w.hdr w.item w.failed).settle w.hdr)) ∧
    (∀ t l, w.thread = some (t, l) → w.failed = none →
      exec (.teRequestComplete te k) s = .next (u.updThread w t fun x => if x.launch ≠ l then x else { x with
        teOut := x.teOut - 1, wait := match x.wait with | .te m => if x.teOut - 1 ≤ m then .none else x.wait | y => y })))

/-- CMP, BRT, JMP, COPY, SETC, DECB and the item step (R347). -/
def Obligations.SequencerSteps : Prop :=
  ∀ (s : State) (p : PtnId) (q : QueueId) (c : CmdRec) (r : ProgRun) (im : Image),
    (∀ x : CmpStep,
      let a := r.summary im x.a.toNat x.slotA.toNat
      let y := if x.withB then (r.summary im x.b.toNat x.slotB.toNat).value else x.imm
      s.atStep p q (fun z => z.sop = 4 && z.a = x.a && z.slotA = x.slotA && bits z.fl.toNat 0 3 = x.rel.toNat && bitAt z.fl.toNat 3 == x.withB &&
        (if x.withB then z.b = x.b && z.slotB = x.slotB else z.imm = x.imm)) = some (c, r, im) →
      exec (.cmp p q x) s = .next (s.setProg c { r with step := r.step + 1, flag := summaryCmp a.kind x.rel.toNat a.value y })) ∧
    (∀ a : W16, s.atStep p q (fun z => z.sop = 5 && z.a = a) = some (c, r, im) →
      exec (.brt p q a) s = .next (s.setProg c { r with step := if r.flag then a.toNat else r.step + 1 })) ∧
    (∀ a : W16, s.atStep p q (fun z => z.sop = 6 && z.a = a) = some (c, r, im) →
      exec (.jmp p q a) s = .next (s.setProg c { r with step := a.toNat })) ∧
    (∀ (a b : W16) (sa sb : BitVec 4), s.atStep p q (fun z => z.sop = 7 && z.a = a && z.b = b && z.slotA = sa && z.slotB = sb) = some (c, r, im) →
      exec (.copy p q a b sa sb) s = .next (s.setProg c { r with
        step := r.step + 1, params := r.params.put none (16 * b.toNat + sb.toNat) (some (r.summary im a.toNat sa.toNat).value) })) ∧
    (∀ (k : BitVec 3) (imm : W32), s.atStep p q (fun z => z.sop = 8 && z.a.toNat % 8 = k.toNat && z.imm = imm) = some (c, r, im) →
      exec (.setc p q k imm) s = .next (s.setProg c { r with step := r.step + 1, counters := r.counters.put 0 k.toNat imm })) ∧
    (∀ (k : BitVec 3) (b : W16), s.atStep p q (fun z => z.sop = 9 && z.a.toNat % 8 = k.toNat && z.b = b) = some (c, r, im) →
      let v := r.counters.get 0 k.toNat - 1
      exec (.decb p q k b) s = .next (s.setProg c { r with
        step := if v = 0 then r.step + 1 else b.toNat, counters := r.counters.put 0 k.toNat v })) ∧
    (∀ (b : W16) (code : Status), s.atStep p q (fun z => z.sop = 10 && z.b = b && bits z.imm.toNat 0 16 = code.toNat) = some (c, r, im) →
      exec (.endItem p q b code) s = .next ((s.setProg c { r with step := r.step + 1 }).closeItem c.hdr b.toNat (if code = 0 then none else some code)))

/-- PLAN, LAUNCH, WAIT, LAUNCH_COMPLETE and PROGRAM_END (R139, R347, R514). -/
def Obligations.LaunchesAndPlans : Prop :=
  (∀ (s : State) (p : PtnId) (q : QueueId) (c : CmdRec) (r : ProgRun) (im : Image) (a : W16) (b : Bool),
    let go := fun (z : State) (r : ProgRun) (isPlan : Bool) => if b then z.enterWait c r im isPlan a.toNat else z.setProg c r
    (s.atStep p q (fun z => z.sop = 1 && z.a = a && bitAt z.fl.toNat 0 == b) = some (c, r, im) →
      exec (.plan p q a b) s = .next (go s { r with
        step := r.step + 1, plans := r.plans ++ [{ plan := a.toNat, left := List.range (im.plans.getD a.toNat []).length }] } true)) ∧
    (s.atStep p q (fun z => z.sop = 2 && z.a = a && bitAt z.fl.toNat 0 == b) = some (c, r, im) →
      let l := s.makeLaunch c r im a.toNat
      (∀ m ∈ l.mcs, m ∈ mcsOf (s.job p q).cgs) → l.mcs.any (s.mcRetired ·) = false → dispatchCheck c.numMode.smode l.params l.code = none → s.ocConflict l = false →
      exec (.launch p q a b) s = .next (go ((s.beginLaunch l).addUnits c.hdr (List.range c.items.length) l.mcs) { r with
        step := r.step + 1, readable := r.readable.filter (fun e => e.1 ≠ a.toNat), started := r.started ++ [(a.toNat, l.id)] } false)) ∧
    (s.atStep p q (fun z => z.sop = 3 && z.a = a && bitAt z.fl.toNat 1 == b) = some (c, r, im) →
      exec (.wait p q a b) s = .next (s.enterWait c { r with step := r.step + 1 } im b a.toNat))) ∧
  (∀ (s : State) (id : Nat) (l : Launch) (c : CmdRec) (r : ProgRun) (im : Image), s.launch? id = some l → l.failed = none →
    (∀ t ∈ l.threads, t ∈ l.ended) →
    let u := ({ s with launches := s.launches.filter fun o => o.id ≠ id } : State).updCmd l.hdr
      fun c => { c with prog := c.prog.map fun r => { r with arrived := r.arrived ++ [(l.id, l.slots)] } }
    u.cmdOf l.hdr = some c → c.prog = some r → (u.ptn l.ptn).imageOf c = some im →
    exec (.launchComplete id) s = .next (u.setProg c ((u.resolve r im).getD r))) ∧
  (∀ (s : State) (p : PtnId) (q : QueueId) (c : CmdRec) (r : ProgRun) (im : Image), s.running? p q = some c → c.prog = some r →
    (s.ptn p).imageOf c = some im → (s.job p q).st = .running → r.ended = false → r.endCode = none → (im.steps.getD r.step {}).sop = 11 →
    (s.resolve r im).isSome = true → (∀ e ∈ r.started, s.launchOver e.2 = true) → (∀ x ∈ r.plans, s.planOver r im x.plan = true) →
    let u : State := { s with launches := s.launches.filter fun l => !decide (l.id ∈ r.started.map Prod.snd) }
    exec (.programEnd p q) s = .next ((((u.setProg c { r with ended := true, waiting := none }).failOpen c.hdr St.eItemOpen).mbEnd c.hdr).settle c.hdr))

/-- RUN, RUN_RELEASE, SPLIT, SPLIT_HANDOFF, WAIT_SEM and POST_SEM (R56 to R79, R103 to R108, R513). -/
def Obligations.PlanRecords : Prop :=
  (∀ (s u v z : State) (p : PtnId) (q : QueueId) (item : W16) (mc : McId) (d : RunDesc) (st wt : TensorDesc) (c : CmdRec) (x : Elem) (we : Option Elem),
    let im := (s.ptn p).imageOf c
    let basic := c.prog.isNone
    let ops := runOperands im d st wt
    let binds := match c.prog with | some r => r.binds | none => []
    let w := if basic then s.updMc mc.val (·.closeTile d) else s
    s.running? p q = some c → mc.val ∈ mcsOf (s.job p q).cgs → w.arrayGo p q mc.val = true → w.teTouches mc.val (runTiles d) = false →
    (basic = true → (w.mc mc.val).inOrder d st wt = true) → w.mcRetired mc.val = false →
    w.takeRecord c.hdr mc.val (fun k => .run k d) = some u → u.issueCheck p mc.val basic d ops.1 ops.2 binds = none →
    u.fetchS c.hdr mc.val basic d ops.1 binds (c.passesFor im ops.1 d) = (v, .ok x) →
    v.fetchW c.hdr mc.val basic d ops.2 binds (c.passesFor im ops.2 d) = (z, .ok we) → (z.mc mc.val).entriesBad d = false →
    ∃ t, exec (.run p q item mc d st wt) s = .next t ∧ t = z.arrayWork c.hdr item.toNat mc.val basic (c.planOf im mc.val) d ops.1 ops.2 x we ∧
      let m := z.mc mc.val
      let tile := match we with | none => m.active | some e => runWeights d e
      (t.mc mc.val).acc = (runPromoted d x tile (if d.accInit then initEntries d m.acc else m.acc)).1 ∧ (t.mc mc.val).active = tile ∧
      (t.mc mc.val).tiles = m.tiles ||| runTiles d ∧ (t.mc mc.val).flight = m.flight ++ [(runTiles d, c.planOf im mc.val)]) ∧
  (∀ (s : State) (mc : McId), exec (.runRelease mc) s = .next (s.updMc mc.val fun m => { m with
    flight := m.flight.tail, tiles := m.flight.tail.foldl (fun a e => a ||| e.1) 0, boundary := m.flight.tail.isEmpty && m.tileEnd })) ∧
  (∀ (s : State) (p : PtnId) (q : QueueId) (d : SplitDesc) (c : CmdRec) (r : ProgRun) (im : Image) (k i : Nat),
    let phys := fun n => ((r.coreMap.find? (·.1 = n)).map (·.2)).getD n
    let cores := (d.partMc.take (SplitParts.count d)).map (·.toNat)
    let recs := fun k => im.plans.getD (r.plans.getD k {}).plan []
    let place := fun k => (r.plans.getD k {}).left.find? fun i => decide ((recs k)[i]? = some (PlanRec.split d)) && !r.behind im cores k i
    s.running? p q = some c → c.prog = some r → (s.ptn p).imageOf c = some im → k < r.plans.length → place k = some i → (∀ j < k, place j = none) →
    (cores.map phys).any (s.mcRetired ·) = false →
    let u := s.updCmd c.hdr fun c => { c with prog := some { r with
      plans := (r.take k i).plans
      splits := r.splits ++ [{ desc := d, mcs := cores.map phys, plan := k, recs := cores.map (SplitParts.places (recs k) i) }] } }
    exec (.split p q d) s = .next (if splitAligned (recs k) i d then u else u.addSheet c.hdr fun sh => { sh with splitUnaligned := true })) ∧
  (∀ (s u : State) (p : PtnId) (q : QueueId) (mc : McId) (n : SemId) (c : CmdRec), s.running? p q = some c → (s.job p q).st = .running →
    (s.mc mc.val).boundary = true →
    ((∀ w ∈ (s.sem p n).waiters, ¬(w.1 = q ∧ w.2 = 65536 + mc.val)) → s.takeRecord c.hdr mc.val (fun k => .waitSem k n) = some u →
      ((s.sem p n).count ≠ 0 → (s.sem p n).waiters = [] →
        exec (.waitSem p q mc n) s = .next (u.updSem p n fun m => { m.addBal q 1 with count := m.count - 1 })) ∧
      ((s.sem p n).count = 0 ∨ (s.sem p n).waiters ≠ [] →
        exec (.waitSem p q mc n) s = .next ((s.updSem p n fun m => { m with waiters := m.waiters ++ [(q, 65536 + mc.val)] }).updPtn p (·.holderStart q n)))) ∧
    (s.takeRecord c.hdr mc.val (fun k => .postSem k n) = some u → exec (.postSem p q mc n) s = .next (u.semPost p q n))) ∧
  (∀ (s : State) (p : PtnId) (q : QueueId) (part level : Nat) (c : CmdRec) (r : ProgRun) (x : SplitRun), s.running? p q = some c → c.prog = some r →
    r.splits = [x] → (s.job p q).st = .running → (part, level) ∉ x.done → r.partRun x part = true →
    let other := if x.desc.mode = 0 then part + 1 else part + 2 ^ (level - 1)
    let a := x.mcs.getD part 0
    let b := x.mcs.getD other 0
    other < SplitParts.count x.desc →
    (∀ m, m = a ∨ m = b → m ∈ mcsOf (s.job p q).cgs ∧ (s.mc m).tiles &&& x.tiles = 0) →
    s.linkDown (dieOfMc a) (dieOfMc b) = false → (s.mc a).carriedBad x.desc = false →
    let u := s.updCmd c.hdr fun c => { c with prog := some { r with splits := [{ x with done := x.done ++ [(part, level)] }] } }
    (x.desc.mode = 0 → level = 0 → (part = 0 ∨ (part - 1, 0) ∈ x.done) →
      let v := u.moveTiles x.desc a b
      exec (.splitHandoff p q part level) s = .next (v.addUnits c.hdr (v.workItems c.hdr 0) [a, b])) ∧
    (x.desc.mode ≠ 0 → 0 < level → level ≤ 3 → part % 2 ^ level = 0 → r.partRun x other = true → (s.mc b).carriedBad x.desc = false →
      (∀ g ∈ x.handoffs, g.1.2 < level → g.2.1 = part ∨ g.2.1 = other ∨ g.2.2 = part → g.1 ∈ x.done) →
      let m := u.mergeTiles x.desc a b
      let v := m.1.addSheet c.hdr (·.addEv m.2)
      exec (.splitHandoff p q part level) s = .next (v.addUnits c.hdr (v.workItems c.hdr 0) [a, b])))

/-- NOP, ECHO, ACCT_READ and ACCT_CLEAR (R295, R325, R336). -/
def Obligations.SimpleCommands : Prop :=
  ∀ (s u : State) (h : Hdr),
    (s.runsNow h 0x100 = some u → exec (.nop h) s = .next (u.replied h [doneItem] [])) ∧
    (∀ bs, s.runsNow h 0xF05 = some u → exec (.echo h bs) s = .next (u.replied h [doneItem] bs)) ∧
    (∀ first n : W16, s.runsNow h 0x120 = some u → n ≠ 0 → n.toNat ≤ 2048 →
      let as := (u.ptn h.ptn).accts
      exec (.acctRead h first n) s = .next (u.replied h [doneItem]
        (leBytes 4 as.length ++ leBytes 4 0 ++ ((as.drop first.toNat).take n.toNat).flatMap Acct.bytes))) ∧
    (∀ (all : Bool) (tag : W32), s.runsNow h 0x121 = some u →
      exec (.acctClear h all tag) s = .next ((u.updPtn h.ptn fun x => { x with
        accts := x.accts.map fun a => if all || a.tag = tag then { a with mcNs := 0, overflow := false } else a }).replied h [doneItem] []))

/-- PTN_CREATE, CG_ALLOC, CG_RELEASE and its effect, PTN_DESTROY (R278 to R282). -/
def Obligations.PartitionCommands : Prop :=
  ∀ (s u : State) (h : Hdr),
    let p := h.target
    (∀ (mask : W32) (q : Byte) (label : W64), s.runsNow h 0x101 = some u → (u.ptn p).st = 0 → bitAt u.saf.psRetired.toNat p = false →
      mask ≠ 0 → q ≠ 0 → u.cgCheck p mask (popcount q.toNat 8) = none →
      (label ≠ 0 → exec (.ptnCreate h mask q label) s =
        .next (((u.takeMen.updPtn p fun _ => Ptn.fresh q label u.saf.nextMen).addCgs p mask true).replied h [doneItem] [])) ∧
      (label = 0 → exec (.ptnCreate h mask q label) s =
        .next (((u.draw.1.takeMen.updPtn p fun _ => Ptn.fresh q (BitVec.ofNat 64 (leNat (u.draw.2.take 8))) u.saf.nextMen).addCgs p mask true).replied
          h [doneItem] []))) ∧
    (∀ mask : W32, s.runsNow h 0x103 = some u → (u.ptn p).st = 1 → mask ≠ 0 → u.cgCheck p mask (popcount (u.ptn p).qEnable.toNat 8) = none →
      exec (.cgAlloc h mask) s = .next (((u.takeMen.addCgs p mask false).updPtn p (·.schedule)).replied h [doneItem] [])) ∧
    (∀ mask : W32, let x := u.ptn p
      let n := popcount mask.toNat 32
      s.runsNow h 0x104 = some u → x.st = 1 → mask ≠ 0 → mask &&& ~~~(x.cgs &&& ~~~x.releasing) = 0 → mask ≠ x.cgs &&& ~~~x.releasing →
      (∀ k ∈ x.areaSlices, bitAt mask.toNat (k / 8) = false) →
      x.ergUsed - n * 8 * popcount x.qEnable.toNat 8 * (384 * 1024) ≤ x.ergHeld - n * 8 * sliceBytes →
      exec (.cgRelease h mask) s = .next ((u.takeMen.updPtn p fun x => { x with releasing := x.releasing ||| mask }).replied h [doneItem] [])) ∧
    (∀ (r : PtnId) (cg : CgId), bitAt (s.ptn r).releasing.toNat cg = true → (s.ptn r).cgQuiet cg = true →
      let one : BitVec 32 := BitVec.ofNat 32 (2 ^ cg.val)
      let z := s.updPtn r fun x => { x with
        cgs := x.cgs &&& ~~~one, releasing := x.releasing &&& ~~~one
        jobs := x.jobs.mapVals {} fun j => { j with kept := j.kept &&& ~~~one }
        holders := x.holders.map fun h => { h with reserved := h.reserved &&& ~~~one }
        mem := { x.mem with dataSlots := BitVec.ofNat 8 (x.mem.dataSlots.toNat - 7), fixSlots := BitVec.ofNat 8 (min x.mem.fixSlots.toNat (x.mem.dataSlots.toNat - 7)) } }
      exec (.cgReleaseEffect r cg) s = .next ((State.reserve { z.updPtn r (fun x => (x.trim 0).schedule) with pwr := s.pwr.setCg cg 2 } r true 1).reshare)) ∧
    (s.runsNow h 0x102 = some u → (u.ptn p).st = 1 → (u.ptn p).flow.cmds = [] →
      let v : State := { u.takeMen with pwr := u.pwr.setCgs (u.ptn p).cgs 2, sec := { u.sec with unlock := u.sec.unlock.map fun k => Unlock.drop k p } }
      exec (.ptnDestroy h) s = .next ((((v.reserve p true (u.ptn p).cgCount).updPtn p fun _ => {}).reshare).replied h [doneItem] []))

/-- PTN_RESET and PARTITION_RESET_COMPLETE (R284, R485). -/
def Obligations.PartitionReset : Prop :=
  (∀ (s u : State) (h : Hdr), s.runsNow h 0x105 = some u → (u.ptn h.target).st ≠ 0 →
    exec (.ptnReset h) s = .next (((u.open' h 1).takeMen).resetPtn h.target 0x10)) ∧
  (∀ (s : State) (p : PtnId), (s.ptn p).st = 2 → bitAt s.saf.psRetired.toNat p = false →
    exec (.partitionResetComplete p) s = .next ((s.updPtn p fun x => { x with st := 1 }).finishReset p)) ∧
  (∀ (s : State) (p : PtnId) (cause : Byte), ∃ v : State, ∃ hs : List Hdr, s.resetPtn p cause = hs.foldl (fun z h => z.tryReport h) v ∧
    (v.ptn p).st = 2 ∧ (v.ptn p).sems = [] ∧ (v.ptn p).holders = [] ∧ (v.ptn p).tkeys = [] ∧ (v.ptn p).train.mbs = [] ∧ (v.ptn p).train.runs = [] ∧
    (v.ptn p).serve.streams = [] ∧ (v.ptn p).flow.rstCause = cause ∧
    ∀ q ∈ (v.ptn p).jobs, q.2.st = .idle ∧ q.2.vt = 0 ∧ q.2.cgs = 0)

/-- LOOSE_GRANT, LOOSE_RELEASE, MEM_GRANT and MEM_RELEASE (R235 to R239, R510). -/
def Obligations.MemoryCommands : Prop :=
  ∀ (s u : State) (h : Hdr),
    let p := h.target
    let x := u.ptn p
    (∀ n : W16, s.runsNow h 0x201 = some u → x.st = 1 → n.toNat ≤ 255 → u.cgOwner (n.toNat / 8) = none → u.looseOwner n.toNat = none →
      let me : Option (PtnId × W64) := some (p, x.flow.createMen)
      let z := if u.mem.lastHolder.get none n.toNat = me then u else u.updMem (·.zeroSlice n.toNat)
      exec (.looseGrant h n) s = .next ((((z.updMem fun m => { m with lastHolder := m.lastHolder.put none n.toNat me }).updPMem p
        fun m => { m with loose := m.loose ||| BitVec.ofNat 256 (2 ^ n.toNat) })).replied h [doneItem] [])) ∧
    (∀ n : W16, s.runsNow h 0x202 = some u → x.st = 1 → n.toNat ≤ 255 → bitAt x.mem.loose.toNat n.toNat = true → n.toNat ∉ x.areaSlices → x.ergUsed ≤ x.ergHeld - sliceBytes →
      exec (.looseRelease h n) s = .next (((u.updPMem p fun m => { m with loose := m.loose &&& ~~~BitVec.ofNat 256 (2 ^ n.toNat) }).updPtn p (·.trim 0)).replied h [doneItem] [])) ∧
    (∀ (w n : W16) (named keep : Bool) (gr : List W16), s.runsNow h 0x203 = some u → x.st = 1 → n ≠ 0 → n.toNat ≤ 1120 → w.toNat + n.toNat ≤ 2048 →
      (keep = true → named = true) → (∀ i, i < n.toNat → (x.mem.wins.get {} (w.toNat + i)).valid = false) → (keep = true ∨ x.mem.dataSlots ≠ 0) →
      (named = true → gr.length = n.toNat → gr.eraseDups.length = n.toNat → (∀ g ∈ gr, g.toNat < 1120 ∧ g.toNat ∉ u.usedGranules) →
        exec (.memGrant h w n named keep gr) s = .next ((u.grantMem p w.toNat (gr.map (·.toNat)) keep).replied h [doneItem] [])) ∧
      (named = false → let free := (List.range 1120).filter fun g => !decide (g ∈ u.usedGranules)
        n.toNat ≤ free.length →
        exec (.memGrant h w n named keep gr) s = .next ((u.grantMem p w.toNat (free.take n.toNat) keep).replied h [doneItem] []))) ∧
    (∀ (w n : W16), s.runsNow h 0x204 = some u → x.st = 1 → n ≠ 0 → w.toNat + n.toNat ≤ 2048 →
      let ws := (List.range n.toNat).map (w.toNat + ·)
      (∀ k ∈ ws, x.winPrivate k = true ∧ k ∉ x.areaGranules) →
      exec (.memRelease h w n) s = .next ((u.updPMem p fun m => { m with wins := ws.foldl (fun t k => t.put {} k {}) m.wins }).replied h [doneItem] []))

/-- The shared region (R240 to R245) and SLOT_WHEEL_BOUNDARY (R255). -/
def Obligations.SharedRegion : Prop :=
  (∀ (s u : State) (h : Hdr),
    let x := u.ptn h.target
    let gb := u.mod.gib.toNat
    (∀ (ep : Endpoint) (n : W64) (data : List Byte), s.runsNow h 0x207 = some u → data.length = n.toNat → u.mod.state ≠ 2 →
      u.mod.fill.toNat + n.toNat ≤ gb * gib → u.portsTo ep.node 0 ≠ [] →
      let z := if u.mod.state = 0 then u.zeroShared else u
      let at' := sharedStart z + u.mod.fill.toNat
      (z.dieLinks = 0 ∨ ∀ v ∈ homeDies at' n.toNat, z.linkDown (Who.firmware.die 0) v = false) →
      let v := z.updMem fun m => (m.ueClear at' n.toNat).writeN (sharedKey z) at' data
      exec (.sharedLoad h ep n data) s = .next
        (State.replied { v with mod := { v.mod with state := 1, fill := BitVec.ofNat 64 (u.mod.fill.toNat + n.toNat) } } h [doneItem] [])) ∧
    (s.runsNow h 0x208 = some u → u.mod.state = 1 →
      exec (.sharedSeal h) s = .next (State.replied { u with mod := { u.mod with state := 2, hash := u.measure } } h [doneItem] u.measure)) ∧
    (∀ w : W16, s.runsNow h 0x205 = some u → x.st = 1 → w.toNat + gb ≤ 2048 → u.mod.state = 2 →
      (∀ i, i < gb → (x.mem.wins.get {} (w.toNat + i)).valid = false) →
      exec (.sharedMap h w) s = .next (((u.updPMem h.target fun m => { m with
        wins := mapWins true true w.toNat ((List.range gb).map (u.mod.base.toNat + ·)) m.wins }).reshare).replied h [doneItem] [])) ∧
    (s.runsNow h 0x206 = some u → x.st = 1 → u.mod.state = 2 → x.sharedMapped = true →
      exec (.sharedUnmap h) s = .next (((u.updPMem h.target fun m => { m with wins := m.wins.filter fun e => !e.2.shared }).reshare).replied h [doneItem] [])) ∧
    (s.runsNow h 0x209 = some u → u.mod.state ≠ 0 → u.mappers.isEmpty = true →
      exec (.sharedClear h) s = .next
        (State.replied { u.zeroShared with mod := { u.zeroShared.mod with state := 0, fill := 0, hash := [] } } h [doneItem] []))) ∧
  (∀ (s : State), exec .slotWheelBoundary s = .next (ptnIds.foldl (fun z p => z.updPMem p fun m =>
    match m.sharePending with | some n => { m with sharedShare := n, sharePending := none } | none => m) s))

/-- REG_READ (R329, R336) and the conditions of an access. -/
def Obligations.RegisterReads : Prop :=
  (∀ (s u : State) (h : Hdr) (addrs : List W64), s.runsNow h 0x110 = some u →
    ((∀ a ∈ addrs, u.regBad h a.toNat false = none) →
      exec (.regRead h addrs) s = .next (u.replied h (addrs.map fun _ => doneItem) (addrs.flatMap fun a => leBytes 8 (u.peek a.toNat).toNat))) ∧
    exec (.regRead h addrs) s = .next (u.replied h
      (addrs.map fun a => match u.regBad h a.toNat false with | some c => failedItem c | none => doneItem)
      (addrs.flatMap fun a => leBytes 8 (if (u.regBad h a.toNat false).isSome then 0 else (u.peek a.toNat).toNat)))) ∧
  (∀ (s : State) (h : Hdr) (a : Nat) (w : Bool),
    let align : Option Status := if a % 8 = 0 then none else some St.eAlign
    (regBlock a = none → s.regBad h a w = some St.eAccess) ∧
    (∀ b o, regBlock a = some (b, o) → h.steward = true → s.regBad h a w = align) ∧
    (∀ (p : PtnId) o, regBlock a = some (.ptn p, o) → h.steward = false → s.regBad h a w = if p ≠ h.ptn then some St.eAccess else align) ∧
    (∀ b o, regBlock a = some (b, o) → h.steward = false → b = .mod ∨ b = .clk ∨ b = .pwr ∨ b = .saf ∨ b = .fix ∨ (b = .sec ∧ w = true) ∨
      (∃ k, b = .erg k) ∨ (∃ k, b = .memc k) ∨ (∃ k, b = .qlnk k) ∨ (∃ k, b = .uap k) → s.regBad h a w = some St.eAccess) ∧
    (∀ o, regBlock a = some (.sec, o) → h.steward = false → s.regBad h a false = align) ∧
    (∀ n o, regBlock a = some (.mc n, o) → h.steward = false →
      s.regBad h a w = if w = true ∨ bitAt (s.ptn h.ptn).cgs.toNat (n / 8) = false then some St.eAccess else align) ∧
    (∀ n o, regBlock a = some (.te n, o) → h.steward = false →
      s.regBad h a w = if w = true ∨ bitAt (s.ptn h.ptn).cgs.toNat (n / 2) = false then some St.eAccess else align))

/-- The register writes of a partition's block. -/
def Obligations.PartitionRegisters : Prop :=
  ∀ (s u : State) (h : Hdr) (p : PtnId) (v : W64), s.runsNow h 0x111 = some u → h.steward = true ∨ p = h.ptn →
    let x := u.ptn p
    let n := v.toNat
    (bits n 1 2 ≠ 1 ∨ h.expert = true ∨ x.numMode.rnd = 1 →
      exec (.ptnNumModeWrite h p v) s = .next ((u.updPtn p fun y => { y with numMode := {
        sat := bitAt n 0, rnd := if bits n 1 2 ≥ 2 then x.numMode.rnd else BitVec.ofNat 2 (bits n 1 2)
        smode := if bits n 8 2 = 3 then x.numMode.smode else BitVec.ofNat 2 (bits n 8 2), given := BitVec.ofNat 8 (bits n 16 8) } }).replied h [doneItem] [])) ∧
    (let t : Trainer := { x.train with stashMib := BitVec.ofNat 16 (bits n 0 16), spillGib := BitVec.ofNat 11 (bits n 32 11), stashQ6 := bitAt n 48 }
      let y : Ptn := { x with train := t }
      x.train.mbs = [] → bits n 0 16 ≤ 16384 → y.ergFits 0 = true → y.spillFits = true →
      exec (.ptnStashCfgWrite h p v) s = .next ((u.updPtn p fun y => Ptn.trim { y with train := t } 0).replied h [doneItem] [])) ∧
    (let t : Trainer := { x.train with spillBase := BitVec.ofNat 18 (bits n 30 18) }
      let y : Ptn := { x with train := t }
      x.train.mbs = [] → y.ergFits 0 = true → y.spillFits = true →
      exec (.ptnSpillBaseWrite h p v) s = .next ((u.updPtn p fun y => Ptn.trim { y with train := t } 0).replied h [doneItem] [])) ∧
    (∀ q : QueueId,
      let bit : Byte := BitVec.ofNat 8 (2 ^ q.val)
      let on : Byte := if bitAt n 24 then x.qEnable ||| bit else x.qEnable &&& ~~~bit
      (bitAt n 24 = false → bitAt x.qEnable.toNat q = true → ∀ c ∈ x.flow.cmds, c.hdr.queue = q → c.immediate = true) →
      (bitAt n 24 = true → bitAt x.qEnable.toNat q = false → Ptn.ergFits { x with qEnable := on } 0 = true) →
      exec (.ptnQCfgWrite h p q v) s = .next ((u.updPtn p fun y =>
        Ptn.updJob (Ptn.trim { y with qEnable := on } 0) q
          fun j => { j with cfg := some (BitVec.ofNat 16 (bits n 0 16), BitVec.ofNat 6 (bits n 16 6)) }).replied h [doneItem] [])) ∧
    (100 ≤ bits n 0 16 →
      exec (.ptnSchedCfgWrite h p v) s = .next ((u.updPtn p fun y => { y with sliceUs := BitVec.ofNat 16 (bits n 0 16) }).replied h [doneItem] [])) ∧
    (let dm := min (bits n 52 4) 8;
      bits n 0 13 ≤ 4096 → 1 ≤ bits n 16 6 → bits n 16 6 ≤ 32 → bits n 48 4 ≤ dm →
      exec (.ptnServeCfgWrite h p v) s = .next ((u.updPtn p fun y => { y with serve := { y.serve with
        maxStreams := BitVec.ofNat 13 (bits n 0 13), chunkMax := BitVec.ofNat 6 (bits n 16 6), slackUs := BitVec.ofNat 12 (bits n 32 12)
        depthInit := BitVec.ofNat 4 (bits n 48 4), depthMax := BitVec.ofNat 4 dm } }).replied h [doneItem] [])) ∧
    (bits n 0 2 ≠ 3 →
      exec (.ptnReplyCfgWrite h p v) s = .next ((u.updFlow p fun f => { f with eventPort := BitVec.ofNat 2 (bits n 0 2) }).replied h [doneItem] [])) ∧
    (h.expert = true → bits n 0 8 + u.slotSum (some p) ≤ 224 → bits n 8 8 ≤ bits n 0 8 →
      exec (.ptnMemSlotsWrite h p v) s = .next ((u.updPMem p fun m => { m with
        dataSlots := BitVec.ofNat 8 (bits n 0 8), fixSlots := BitVec.ofNat 8 (bits n 8 8), lend := bitAt n 24, borrow := bitAt n 25 }).replied h [doneItem] [])) ∧
    ∀ anew : BitVec 2, let set := anew.getLsbD 0
      (∀ m : SemId, h.expert = true → (u.sem p m).waiters = [] →
        exec (.ptnSemCountWrite h p m ⟨v, anew⟩) s = .next ((u.updSem p m fun z => { z with
          ovf := z.ovf && !bitAt n 48 || set, count := BitVec.ofNat 32 (bits n 0 32) }).replied h [doneItem] [])) ∧
      (∀ m : SemId, bits n 0 32 = (u.sem p m).count.toNat →
        exec (.ptnSemCountWrite h p m ⟨v, anew⟩) s = .next ((u.updSem p m fun z => { z with ovf := z.ovf && !bitAt n 48 || set }).replied h [doneItem] [])) ∧
      exec (.ptnViolInfoClear h p ⟨v, anew⟩) s = .next ((u.updPMem p fun m => { m with
        viol := { m.viol with valid := m.viol.valid && !bitAt n 24 || set } }).replied h [doneItem] [])

/-- The register writes of the steward, and REG_WRITE. -/
def Obligations.ModuleRegisters : Prop :=
  (∀ (s u : State) (h : Hdr) (v : W64), s.runsNow h 0x111 = some u → h.steward = true →
    let n := v.toNat
    (let base := bits n 0 11
      let gb := bits n 11 11
      h.expert = true ∨ bitAt n 32 = u.mod.lendEn → bits n 24 8 + (u.slotSum none - u.mod.sharedSlots.toNat) ≤ 224 →
      (base ≠ u.mod.base.toNat ∨ gb ≠ u.mod.gib.toNat → base + gb ≤ 1120 ∧ u.mod.state = 0 ∧
        ∀ (p : PtnId) e, e ∈ (u.ptn p).mem.wins → e.2.valid = true → e.2.shared = false → ¬(base ≤ e.2.dev.toNat ∧ e.2.dev.toNat < base + gb)) →
      exec (.modMemCfgWrite h v) s = .next ((State.reshare { u with mod := { u.mod with
        base := BitVec.ofNat 11 base, gib := BitVec.ofNat 11 gb, sharedSlots := BitVec.ofNat 8 (bits n 24 8), lendEn := bitAt n 32 } }).replied h [doneItem] [])) ∧
    (u.mod.state = 0 → exec (.modSharedLabelWrite h v) s = .next (State.replied { u with mod := { u.mod with label := v } } h [doneItem] [])) ∧
    (
      let z : State := { u with mod := { u.mod with node := BitVec.ofNat 13 (bits n 0 13) } }
      (bits n 0 13 = 0x1FFF → exec (.modFabricWrite h v) s = .next (z.replied h [doneItem] [])) ∧
      (bits n 0 13 ≠ 0x1FFF → exec (.modFabricWrite h v) s = .next ((qpIds.foldl (fun w k => w.updQp k fun x => { x with atStep4 := false }) z).drainQps.replied h [doneItem] []))) ∧
    (∀ k : QpId, let z := u.updQp k fun x => { x with enable := bitAt n 0, degradeEn := bitAt n 1 }
      exec (.qlnkEnable h k v) s = .next ((if bitAt n 0 = false then z.qpDown k 4 none
        else if (u.qp k).st = 0 then z.updQp k (·.retrain 1 0) else z).replied h [doneItem] [])) ∧
    (∀ (k : QpId) (p : PtnId), let res := (u.qp k).res.put {} p (QRes.ofWord n)
      resFits res ((List.range 32).filter fun c => (u.cgOwner c).isNone).length = true →
      exec (.qlnkResWrite h k p v) s = .next (((u.updQp k fun x => { x with res := res }).giveQp k []).replied h [doneItem] [])) ∧
    (∀ k : QpId, bitAt n 0 = true → exec (.qoreaLinkReset h k v) s = .next ((u.qpLinkReset k 0x20).replied h [doneItem] [])) ∧
    (∀ k : UpId, bitAt n 0 = true → exec (.uapraLinkReset h k v) s = .next ((u.upLinkReset k 0x20).replied h [doneItem] [])) ∧
    exec (.pwrCfgWrite h v) s = .next (State.replied { u with pwr := { u.pwr with
      limitW := if 1000 ≤ bits n 0 11 ∧ bits n 0 11 ≤ 1850 then BitVec.ofNat 11 (bits n 0 11) else u.pwr.limitW
      wakeNEn := bitAt n 16, uapWake := BitVec.ofNat 2 (bits n 17 2) } } h [doneItem] []) ∧
    ∀ nf na : Bool, exec (.safStatusClear h v nf na) s = .next (State.replied { u with saf := { u.saf with
      faultPend := (u.saf.faultPend && !bitAt n 0) || nf, alertPend := (u.saf.alertPend && !bitAt n 1) || na } } h [doneItem] [])) ∧
  (∀ (s u : State) (h : Hdr), s.runsNow h 0x111 = some u →
    (∀ (a v : W64) b o, u.regBad h a.toNat true = none → regBlock a.toNat = some (b, o) →
      let r := u.putBlk b o h.expert ⟨v, 0⟩
      exec (.registerWrite h a v) s = .next (r.1.replied h [match r.2 with | some c => failedItem c | none => doneItem] [])) ∧
    ∀ ws, exec (.regWrite h ws) s = .next ((regPuts h ws u).1.replied h (regPuts h ws u).2 [])) ∧
  (∀ (s : State) (w : RegVal) (e : Bool), let v := w.v.toNat
    (∀ p : PtnId, s.putBlk (.ptn p) 0x308 e w = (s.updPtn p fun x => { x with srSeed := w.v }, none)) ∧
    s.putBlk .pwr 0x18 e w = ({ s with pwr := { s.pwr with wakeQp := BitVec.ofNat 48 v } }, none) ∧
    (∀ p : PtnId, s.putBlk .fix (0x100 + 8 * p.val) e w = (s.updPtn p fun x => { x with fix := { x.fix with ports := BitVec.ofNat 48 v } }, none)) ∧
    (∀ (k : QpId) (i : Fin 128), s.putBlk (.qlnk k) (0x800 + 8 * i.val) e w = (s.updQp k fun x => { x with
      routes := BitVec.ofNat 8192 (putBits x.routes.toNat (64 * i.val) 64 (if i.val = 127 then v % 2 ^ 63 else v)) }, none))) ∧
  (∀ (h : Hdr) (s : State), regPuts h [] s = (s, [])) ∧
  (∀ (h : Hdr) (s : State) (w : W64 × RegVal) (ws : List (W64 × RegVal)), regPuts h (w :: ws) s =
    ((regPuts h ws (s.regPut h w.1 w.2).1).1, (match (s.regPut h w.1 w.2).2 with | some c => failedItem c | none => doneItem) ::
      (regPuts h ws (s.regPut h w.1 w.2).1).2))

/-- Writes that change nothing: refused ones, and those to read-only registers (R6, R7). -/
def Obligations.RegistersUnchanged : Prop :=
  (∀ (s : State) (h : Hdr) (a : W64) (w : RegVal) c, s.regBad h a.toNat true = some c → s.regPut h a w = (s, some c)) ∧
  (∀ (s : State) (p : PtnId) (w : RegVal) (e : Bool),
    let n := w.v.toNat
    let put := fun off => s.putBlk (.ptn p) off e w
    ((s.ptn p).train.mbs ≠ [] → put 0x310 = (s, some St.eBusy) ∧ put 0x318 = (s, some St.eBusy)) ∧
    (bits n 0 16 < 100 → put 0x100 = (s, some St.eParam)) ∧
    (bits n 0 2 = 3 → put 0x448 = (s, some St.eParam)) ∧
    (e = true → bits n 0 8 + s.slotSum (some p) > 224 ∨ bits n 8 8 > bits n 0 8 → put 0x210 = (s, some St.eSlots)) ∧
    (∀ m : SemId, e = true → (s.sem p m).waiters ≠ [] → bits n 0 32 ≠ (s.sem p m).count.toNat → w.anew.getLsbD 0 = false →
      (put (0x2000 + 8 * m.val)).2 = some St.eBusy ∧ (put (0x2000 + 8 * m.val)).1.sem p m = s.sem p m) ∧
    (s.mod.state ≠ 0 → s.putBlk .mod 0x408 e w = (s, some St.eSharedState)) ∧
    (∀ (k : QpId), resFits ((s.qp k).res.put {} p (QRes.ofWord n)) ((List.range 32).filter fun c => (s.cgOwner c).isNone).length = false →
      s.putBlk (.qlnk k) (0x100 + 8 * p.val) e w = (s, some St.eParam))) ∧
  (∀ (s : State) (off : Nat) (e : Bool) (w : RegVal),
    (off ≠ 0 → s.putBlk .saf off e w = (s, none)) ∧
    (off ≠ 0x10 → off ≠ 0x18 → s.putBlk .pwr off e w = (s, none)) ∧
    (off ≠ 0x400 → off ≠ 0x408 → off ≠ 0x500 → s.putBlk .mod off e w = (s, none)) ∧
    (∀ b, b = .clk ∨ b = .sec ∨ (∃ k, b = .mc k) ∨ (∃ k, b = .te k) ∨ (∃ k, b = .erg k) ∨ (∃ k, b = .memc k) → s.putBlk b off e w = (s, none)) ∧
    ∀ (p : PtnId), off ∈ [0x000, 0x008, 0x200, 0x218, 0x220, 0x320, 0x330, 0x440, 0x460, 0x468, 0x470, 0x478, 0x480] →
      s.putBlk (.ptn p) off e w = (s, none))

/-- Register reads and writes, status and addresses over I3C (R497). -/
def Obligations.I3cTarget : Prop :=
  ∀ s : State, s.phase ≠ .off →
    (∀ a : W64, s.i3cReadable a.toNat = true → exec (.i3cRegRead a) s = .next { s with i3c := { s.i3c with read := leBytes 8 (s.peek a.toNat).toNat } }) ∧
    (∀ a : W64, s.i3cReadable a.toNat = false → exec (.i3cRegRead a) s = .next { s with i3c := { s.i3c with err := true, read := List.replicate 8 0 } }) ∧
    (∀ w : RegVal, let n := w.v.toNat
      exec (.i3cRegWrite 0xF0000020010 w) s = .next { s with
        pwr := { s.pwr with limitW := if 1000 ≤ bits n 0 11 ∧ bits n 0 11 ≤ 1850 then BitVec.ofNat 11 (bits n 0 11) else s.pwr.limitW
                            wakeNEn := bitAt n 16, uapWake := BitVec.ofNat 2 (bits n 17 2) }
        i3c := { s.i3c with read := [] } } ∧
      exec (.i3cRegWrite 0xF0000020018 w) s = .next { s with pwr := { s.pwr with wakeQp := BitVec.ofNat 48 n }, i3c := { s.i3c with read := [] } } ∧
      exec (.i3cRegWrite 0xF0000040000 w) s = .next { s with
        saf := { s.saf with faultPend := s.saf.faultPend && !bitAt n 0 || w.anew.getLsbD 0, alertPend := s.saf.alertPend && !bitAt n 1 || w.anew.getLsbD 1 }, i3c := { s.i3c with read := [] } } ∧
      ∀ a : W64, State.i3cWritable a.toNat = false → exec (.i3cRegWrite a w) s = .next { s with i3c := { s.i3c with err := true, read := [] } }) ∧
    (exec .i3cStatus s = .next { s with i3c := { s.i3c with err := false, read := [BitVec.ofNat 8 (b2n s.i3c.busy + 2 * b2n s.i3c.err + 4 * b2n s.i3c.owned)] } }) ∧
    ∀ d : BitVec 7,
      (s.i3c.dyn = none → exec (.setdasa d) s = .next { s with i3c := { s.i3c with dyn := some d } } ∧ exec (.entdaa d) s = .next { s with i3c := { s.i3c with dyn := some d } }) ∧
      (s.i3c.dyn ≠ none → exec (.setdasa d) s = .next s ∧ exec (.entdaa d) s = .next s)

/-- FLASH_READ, FLASH_WRITE, FLASH_ERASE and the end of an operation (R498). -/
def Obligations.BootFlash : Prop :=
  (∀ s : State, s.phase ≠ .off →
    (s.pins.rstN = false → s.i3c.owned = true → s.i3c.busy = false →
      (∀ (o : W32) (n : W16), 1 ≤ n.toNat → n.toNat ≤ 256 → o.toNat + n.toNat ≤ 67108864 →
        exec (.flashRead o n) s = .next { s with i3c := { s.i3c with read := (List.range n.toNat).map fun i => s.flashAt (o.toNat + i) } }) ∧
      (∀ (o : W32) (bs : List Byte), o.toNat % 256 = 0 → bs.length = 256 → o.toNat + 256 ≤ 67108864 →
        exec (.flashWrite o bs) s = .next { s with i3c := { s.i3c with busy := true, op := some (o.toNat, bs), read := [] } }) ∧
      (∀ o : W32, o.toNat % 65536 = 0 → o.toNat + 65536 ≤ 67108864 →
        exec (.flashErase o) s = .next { s with i3c := { s.i3c with busy := true, op := some (o.toNat, List.replicate 65536 0xFF), read := [] } })) ∧
    (s.pins.rstN = true ∨ s.i3c.owned = false ∨ s.i3c.busy = true → ∀ (o : W32) (n : W16) (bs : List Byte),
      exec (.flashRead o n) s = .next (s.i3cBad n.toNat) ∧ exec (.flashWrite o bs) s = .next (s.i3cBad 0) ∧ exec (.flashErase o) s = .next (s.i3cBad 0))) ∧
  (∀ (s : State) (o : Nat) (bs : List Byte), s.i3c.op = some (o, bs) →
    ∃ t, exec .flashOperationComplete s = .next t ∧ t = { s with flash := t.flash, i3c := { s.i3c with busy := false, op := none } } ∧
      (∀ i, i < bs.length → t.flashAt (o + i) = bs.getD i 0) ∧ ∀ a, a < o ∨ o + bs.length ≤ a → t.flashAt a = s.flashAt a) ∧
  (∀ s : State, s.i3c.op = none → s.flashBusy = true →
    exec .flashOperationComplete s = .next { s with flashBusy := false, i3c := { s.i3c with owned := !s.pins.rstN } })

/-- The TAP's instructions and SAFELIGHT_DEBUG_ACCESS (R463, R499). -/
def Obligations.JtagPort : Prop :=
  ∀ s : State,
    exec .bypass s = .next { s with pins := { s.pins with jtag := 0, tdo := 0 } } ∧
    exec .idcode s = .next { s with pins := { s.pins with jtag := 1, tdo := 0x1AD90A5F } } ∧
    exec .samplePreload s = .next { s with fresh := s.fresh + 1, pins := { s.pins with jtag := 2, tdo := BitVec.ofNat 64 (Config.free s.fresh 0) } } ∧
    (s.pins.rstN = false → exec .extest s = .next { s with fresh := s.fresh + 1, pins := { s.pins with jtag := 3, tdo := BitVec.ofNat 64 (Config.free s.fresh 0) } }) ∧
    (s.pins.rstN = true → exec .extest s = .next s) ∧
    (∀ (u : Unlock) (p : PtnId) (mc : McId) (a : W64), s.sec.unlock = some u → s.slOpen p = true →
      (∀ b : Fin 5, bitAt u.scope.toNat b.val = false → ∀ w, exec (.safelightDebugAccess b p mc a w) s = .next s) ∧
      (bitAt u.scope.toNat 1 = true → s.debugWin p a.toNat false false = true →
        exec (.safelightDebugAccess 1 p mc a none) s = .next (s.debugRead p a.toNat)) ∧
      (bitAt u.scope.toNat 2 = true → s.debugWin p a.toNat false true = true → ∀ v,
        exec (.safelightDebugAccess 2 p mc a (some v)) s = .next (s.debugWrite p a.toNat v)) ∧
      (bitAt u.scope.toNat 3 = true → a.toNat % 8 = 0 → ∀ o, regBlock a.toNat = some (.ptn p, o) →
        exec (.safelightDebugAccess 3 p mc a none) s = .next (s.debugDone (s.peek a.toNat)) ∧
        ∀ v, exec (.safelightDebugAccess 3 p mc a (some v)) s = .next ((s.putBlk (.ptn p) o true ⟨v, 0⟩).1.debugDone v)) ∧
      (bitAt u.scope.toNat 4 = true → (s.ptn p).sharedMapped = true → s.debugWin p a.toNat true false = true →
        exec (.safelightDebugAccess 4 p mc a none) s = .next (s.debugRead p a.toNat))) ∧
    ∀ (b : Fin 5) (p : PtnId) (mc : McId) (a : W64) w, s.slOpen p = false → exec (.safelightDebugAccess b p mc a w) s = .next s

/-- ATTEST_QUOTE and KEY_EXCHANGE (R458, R459). -/
def Obligations.QuotesAndKeys : Prop :=
  ∀ (s u : State) (h : Hdr),
    (∀ (nonce : List Byte) (chain : Bool), s.startsNow h 0x130 (.attestQuote h nonce chain) = some u →
      let z := u.open' h 1
      let body := z.quoteBody h nonce
      let sig := P256.sign (z.attestKey h.ptn) (sha256 body) (Config.free z.fresh 0 % (P256.n - 1) + 1)
      let certs := leBytes 4 (z.ptnCert h.ptn).length ++ z.ptnCert h.ptn ++ (leBytes 4 z.aliasCert.length ++ z.aliasCert)
      exec (.attestQuote h nonce chain) s = .next ((State.answer { z with fresh := z.fresh + 1 } h (body ++ sig ++ if chain then certs else [])).settle h)) ∧
    (∀ (mode slot src : Byte) (data : List Byte), s.startsNow h 0x131 (.keyExchange h mode slot src data) = some u →
      mode.toNat ≤ 4 → slot.toNat ≤ 15 → src.toNat ≤ 15 →
      let z := u.open' h 1
      let t := z.tkey h.ptn slot.toNat
      let bs := padTo 64 data
      let run := exec (.keyExchange h mode slot src data) s
      (mode = 0 → run = .next ((z.kxGenerate h slot.toNat (bs.take 32)).settle h)) ∧
      (mode = 1 → ∀ d q, t.pend = some d → P256.ofBytes bs = some q → run = .next ((z.kxComplete h slot.toNat d bs q).settle h)) ∧
      (mode = 2 → run = .next ((z.kxRandom h slot.toNat).settle h)) ∧
      (mode = 3 → ∀ kek key, (z.tkey h.ptn src.toNat).key = some kek → t.key = some key → run = .next ((z.answer h (keyWrap kek key)).settle h)) ∧
      (mode = 4 → ∀ kek, (z.tkey h.ptn src.toNat).key = some kek → run = .next ((match keyUnwrap kek (bs.take 40) with
        | some key => z.kxImport h slot.toNat src.toNat key
        | none => z.closeItem h 0 (some St.eParam)).settle h)) ∧
      (mode = 1 ∧ (t.pend = none ∨ P256.ofBytes bs = none) ∨ (mode = 3 ∨ mode = 4) ∧ (z.tkey h.ptn src.toNat).key = none →
        run = .next ((z.closeItem h 0 (some St.eParam)).settle h)))

/-- SAFELIGHT_UNLOCK, its expiries, and the reseed (R460 to R463). -/
def Obligations.Safelight : Prop :=
  (∀ (s u : State) (h : Hdr) (t : Token), s.runsNow h 0xF04 = some u →
    (∀ d bs, u.draw = (d, bs) →
      exec (.safelightUnlock h 0 t) s = .next (State.replied { d with sec := { d.sec with challenge := some bs } } h [doneItem] (bs ++ padTo 16 u.sec.ueid))) ∧
    (t.magic = 0x4B535141 → t.durationS ≠ 0 → t.durationS.toNat ≤ 86400 →
      exec (.safelightUnlock h 1 t) s = .next (if u.tokenBad t then u.reject h 0xF04 St.eAccess else (u.openSafelight t).replied h [doneItem] [])) ∧
    (t.magic ≠ 0x4B535141 ∨ t.durationS = 0 ∨ 86400 < t.durationS.toNat → exec (.safelightUnlock h 1 t) s = .next (u.reject h 0xF04 St.eParam)) ∧
    exec (.safelightUnlock h 2 t) s = .next (State.replied { u with sec := { u.sec with unlock := none } } h [doneItem] []) ∧
    ∀ m : Byte, 3 ≤ m.toNat → exec (.safelightUnlock h m t) s = .next (u.reject h 0xF04 St.eParam)) ∧
  (∀ (s : State) (t : Token), let v := s.openSafelight t
    v.sec.challenge = none ∧ ∃ k, v.sec.unlock = some k ∧ k.mask = t.ptnMask ∧
      k.ptns = (ptnIds.filter fun p => bitAt t.ptnMask.toNat p.val).map fun p => (p.val, (s.ptn p).flow.createMen)) ∧
  ∀ s : State,
    exec .safelightChallengeExpiry s = .next { s with sec := { s.sec with challenge := none } } ∧
    exec .safelightExpiry s = .next { s with sec := { s.sec with unlock := none } } ∧
    exec .drbgReseed s = .next { s with sec := { s.sec with drbgCount := 0 } }

/-- FAULT_LOG_READ, FAULT_LOG_CLEAR, TELEMETRY_READ and PWR_LIMIT. -/
def Obligations.LogAndTelemetry : Prop :=
  (∀ (s u : State) (h : Hdr),
    (∀ (m : W64) (n : W16), s.runsNow h 0xF02 = some u →
      exec (.faultLogRead h m n) s = .next (if 1 ≤ n.toNat ∧ n.toNat ≤ 64
        then u.replied h [doneItem] (leBytes 4 u.saf.log.length ++ leBytes 4 u.saf.logLost.toNat ++
          ((u.saf.log.filter fun r => decide (m.toNat ≤ r.men.toNat)).take n.toNat).flatMap FRec.bytes)
        else u.reject h 0xF02 St.eParam)) ∧
    (∀ m : W64, s.runsNow h 0xF03 = some u → exec (.faultLogClear h m) s = .next (State.replied { u with
      saf := { u.saf with log := u.saf.log.filter fun r => decide (m.toNat < r.men.toNat) } } h [doneItem] [])) ∧
    (s.runsNow h 0x802 = some u → exec (.telemetryRead h) s = .next (u.replied h [doneItem] u.telemetry)) ∧
    (∀ w : W16, s.runsNow h 0x803 = some u → exec (.pwrLimit h w) s = .next (if 1000 ≤ w.toNat ∧ w.toNat ≤ 1850
      then State.replied { u with pwr := { u.pwr with limitW := BitVec.ofNat 11 w.toNat } } h [doneItem] [] else u.reject h 0x803 St.eParam))) ∧
  ∀ s : State, let b := s.telemetry
    let r := s.pwr.tel
    b.length = 64 ∧ fld b 0 2 = r.vIn.toNat ∧ fld b 2 2 = r.vStby.toNat ∧ fld b 4 2 = r.powerW % 65536 ∧ fld b 6 2 = r.pStby.toNat ∧
    (∀ i, i < 4 → fld b (8 + 2 * i) 2 = (r.dies.getD i 0).toNat ∧ fld b (16 + 2 * i) 2 = (r.ergs.getD i 0).toNat) ∧
    fld b 24 2 = r.lpMax.toNat ∧ fld b 26 2 = r.optMax.toNat ∧ fld b 28 1 = s.pwr.duty.toNat ∧ fld b 29 1 = s.pwr.st.toNat ∧
    fld b 32 8 = r.energyMj.toNat ∧ fld b 40 8 = s.cgStates.toNat ∧ b.drop 48 = List.replicate 16 0

/-- What the steward does with a detected fault (R436 to R441). -/
def Obligations.FaultRecording : Prop :=
  (∀ (s : State) (r : FRec), s.saf.stewRestart = true → s.recordFault r = { s with saf := { s.saf with deferred := s.saf.deferred ++ [(r, [])] } }) ∧
  (∀ (s : State) (r : FRec), s.saf.stewRestart = false →
    let t := s.recordFault r
    let m : FRec := { r with men := s.saf.nextMen }
    t.saf.nextMen = s.saf.nextMen + 1 ∧
    (s.saf.log.length < 512 → t.saf.log = s.saf.log ++ [m] ∧ t.saf.logLost = s.saf.logLost) ∧
    (512 ≤ s.saf.log.length → (s.saf.log.any fun x => x.severity = 1) = true → ∃ as x bs, s.saf.log = as ++ x :: bs ∧ x.severity = 1 ∧
      (∀ y ∈ as, y.severity ≠ 1) ∧ t.saf.log = as ++ bs ++ [m] ∧ t.saf.logLost = s.saf.logLost) ∧
    (512 ≤ s.saf.log.length → (s.saf.log.any fun x => x.severity = 1) = false → t.saf.log = s.saf.log ∧ t.saf.logLost = satInc s.saf.logLost) ∧
    (r.severity = 2 → t.saf.faultPend = true ∧ t.saf.alertPend = s.saf.alertPend) ∧
    (r.severity = 1 → t.saf.alertPend = true ∧ t.saf.faultPend = s.saf.faultPend) ∧
    ∀ p : PtnId,
      (bitAt r.ptnMask.toNat p.val = true → (t.ptn p).flow.lastMen = s.saf.nextMen ∧ (t.ptn p).flow.faultEvents = satInc (s.ptn p).flow.faultEvents) ∧
      (bitAt r.ptnMask.toNat p.val = false → t.ptn p = s.ptn p)) ∧
  (∀ s : State, s.saf.stewRestart = true →
    let ds := s.saf.deferred
    exec .stewardRestartComplete s = .next (ds.foldl (fun z d => (z.recordFault d.1).decide' z.saf.nextMen d.2)
      { s with saf := { s.saf with stewRestart := false, deferred := [] } })) ∧
  ∀ s : State, s.saf.stewRestart = false → exec .stewardRestartComplete s = .next s

/-- INPUT_LOW, REF_LOST, PLL_UNLOCK, RAIL_FAULT, AVS_TIMEOUT, TEMP_HIGH and TEMP_TRIP (R467, R471, R479). -/
def Obligations.PlatformFaults : Prop :=
  ∀ (s : State) (stamp : W64), s.powered = true →
    exec (.inputLow stamp) s = .next (s.plat 1 0x0707 0 stamp) ∧
    exec (.refLost stamp) s = .next ((State.plat { s with clk := { s.clk with refOk := false, refLosses := satInc s.clk.refLosses } } 2 0x0701 0 stamp).warmBegin 0x05 .clock) ∧
    exec (.pllUnlock stamp) s = .next ((State.plat { s with clk := { s.clk with pllLock := false, unlocks := satInc s.clk.unlocks } } 2 0x0702 0 stamp).warmBegin 0x05 .clock) ∧
    exec .refRestored s = .next { s with clk := { s.clk with refOk := true, pllLock := true }, pwr := { s.pwr with hold := if s.pwr.hold = .clock then .none else s.pwr.hold } } ∧
    (∀ r : Fin 24,
      let note := fun (z : State) => ({ z with pwr := { z.pwr with rails := z.pwr.rails ||| BitVec.ofNat 24 (2 ^ r.val) } } : State)
      let z := s.plat 2 0x0704 r.val stamp
      (s.phase = .starting ∧ bitAt s.pwr.rails.toNat r.val = true →
        exec (.railFault r stamp) s = .next (note { z with phase := .stopped, saf := { z.saf with faultPend := true } })) ∧
      (s.phase ≠ .starting ∨ bitAt s.pwr.rails.toNat r.val = false → exec (.railFault r stamp) s = .next (note (z.warmBegin 0x06 .none)))) ∧
    (∀ bus : Fin 5,
      (s.pwr.avs.get 0 bus.val < 2 → exec (.avsRetry bus stamp) s = .next { s with pwr := { s.pwr with avs := s.pwr.avs.put 0 bus.val (s.pwr.avs.get 0 bus.val + 1) } }) ∧
      (2 ≤ s.pwr.avs.get 0 bus.val → s.pwr.trans = none →
        exec (.avsRetry bus stamp) s = .next (State.plat { s with pwr := { s.pwr with avs := s.pwr.avs.put 0 bus.val 0, trans := none } } 2 0x0703 bus.val stamp)) ∧
      (s.pwr.trans = none → exec (.regulatorTransitionComplete bus true true) s = .next { s with pwr := { s.pwr with avs := s.pwr.avs.put 0 bus.val 0 } })) ∧
    (∀ r : Readings,
      let kept : State := { s with pwr := { s.pwr with tel := r } }
      let z : State := if s.pwr.hold = .thermal ∧ hotter 90 (Readings.temps r) = false then { kept with pwr := { kept.pwr with hold := .none } } else kept
      (allBelow 100 r.dies = true → exec (.tempSample r stamp) s = .next z) ∧
      (atLeast 115 r.dies = true → exec (.tempSample r stamp) s = .next ((z.tempFaults stamp 0 r.dies).warmBegin 0x07 .thermal)) ∧
      (atLeast 100 r.dies = true → atLeast 115 r.dies = false → exec (.tempSample r stamp) s = .next (z.tempFaults stamp 0 r.dies))) ∧
    ∀ (d : Nat) (t : BitVec 16) (ts : List (BitVec 16)),
      (115 * 16 ≤ t.toInt → s.tempFaults stamp d (t :: ts) = (s.plat 2 0x0706 d stamp).tempFaults stamp (d + 1) ts) ∧
      (100 * 16 ≤ t.toInt → t.toInt < 115 * 16 → s.tempFaults stamp d (t :: ts) = (s.plat 1 0x0705 d stamp).tempFaults stamp (d + 1) ts) ∧
      (t.toInt < 100 * 16 → s.tempFaults stamp d (t :: ts) = s.tempFaults stamp (d + 1) ts)

/-- DUTY_CONTROL (R476). -/
def Obligations.DutyControl : Prop :=
  ∀ (s : State) (r : Readings) (stamp : W64), s.phase = .ready → s.pwr.st.toNat < 2 → 4 ≤ s.pwr.duty.toNat → s.pwr.duty.toNat ≤ 16 →
    let hiP := decide (s.pwr.limitW.toNat < r.powerW)
    let hi := hiP || hotter 100 r.dies
    let low := decide (r.powerW + 50 < s.pwr.limitW.toNat) && allBelow 95 r.dies
    ∃ t, exec (.dutyControl r stamp) s = .next t ∧ t.pwr.tel = r ∧ 4 ≤ t.pwr.duty.toNat ∧ t.pwr.duty.toNat ≤ 16 ∧
      (hi = true → t.pwr.duty.toNat = max 4 (s.pwr.duty.toNat - 1)) ∧
      (hi = false → low = true → t.pwr.duty.toNat = min 16 (s.pwr.duty.toNat + 1)) ∧
      (hi = false → low = false → t.pwr.duty = s.pwr.duty) ∧
      (¬(s.pwr.duty.toNat = 4 ∧ 1950 < r.powerW) → (s.pwr.duty = t.pwr.duty ∨ s.pwr.duty.toNat ≠ 16 ∧ t.pwr.duty.toNat ≠ 16) →
        t.saf.nextMen = s.saf.nextMen ∧ t.held = s.held ∧ t.ups = s.ups) ∧
      (s.pwr.duty ≠ t.pwr.duty → s.pwr.duty.toNat = 16 ∨ t.pwr.duty.toNat = 16 → ¬(s.pwr.duty.toNat = 4 ∧ 1950 < r.powerW) → t.saf.nextMen = s.saf.nextMen + 1)

/-- PWR_STATE, the entries, the wakes, and the end of a transition (R468 to R475). -/
def Obligations.PowerStates : Prop :=
  (∀ (s : State) (cg : CgId) (p : PtnId), s.cgOwner cg.val = some p → s.inL0 cg.val = true →
    (∀ q, bitAt (s.job p q).cgs.toNat cg.val = false) → s.unclean p cg.val = [] → (∀ i, i < 8 → (s.mc (8 * cg.val + i)).strip.st = .idle) →
    exec (.cgL1Entry cg) s = .next (s.updPtn p fun x => { x with l1 := x.l1 ||| BitVec.ofNat 32 (2 ^ cg.val) })) ∧
  (∀ s : State, s.phase = .ready → s.pwr.st = 0 → s.pwr.trans = none → s.allIdle = true →
    exec .moduleL1Entry s = .next { s with pwr := { s.pwr with st := 1, lp := .powerDown } }) ∧
  (∀ (s u : State) (h : Hdr) (t : Byte) (mask : W32), s.runsNow h 0x801 = some u →
    (t = 2 ∨ t = 3 → mask ≠ 0 → (∀ p : PtnId, (u.ptn p).cgs &&& mask = 0) → ∀ c, u.cmdOf h = some c →
      let z := u.open' h 1
      exec (.pwrState h t 0 mask) s = .next ((z.transBegin { target := BitVec.ofNat 2 t.toNat, mask := mask, hdr := some c.hdr }).powerEvent t.toNat 0 0 0 mask)) ∧
    (let z := ((u.open' h 1).closeItem h 0 none).settle h
      let due : State := { z with pwr := { z.pwr with due := some t } }
      (t = 2 → u.l2Busy = false → exec (.pwrState h t 1 mask) s = .next due) ∧
      (t = 3 → u.l3Busy = false → exec (.pwrState h t 1 mask) s = .next (due.powerEvent 3 0 0 0 0)) ∧
      (t = 0x10 → exec (.pwrState h t 1 mask) s = .next due) ∧
      (t = 0x11 → exec (.pwrState h t 1 mask) s = .next (due.sendEvt 0x12 (resetBody 0 0x03 (ptnIds.map due.lastEsnOf)))))) ∧
  (∀ s : State, s.phase = .ready →
    (s.pwr.due = some 2 → s.l2Busy = false → exec .moduleL2Entry s = .next
      ((State.transBegin { s with pwr := { s.pwr with due := none, lp := .selfRefresh } } { target := 2, module := true }).powerEvent 2 0 0 0 0)) ∧
    (s.pwr.due = some 2 → s.l2Busy = true → exec .moduleL2Entry s = .next (State.powerEvent { s with pwr := { s.pwr with due := none } } 2 2 1 0 0)) ∧
    (s.pwr.due = some 3 → s.l3Busy = false → exec .moduleL3Entry s = .next (State.transBegin { s with
      pwr := { s.pwr with due := none, lp := .selfRefresh }
      saf := { s.saf with logSeed := some s.fresh }, fresh := s.fresh + 1
      flash := s.flash.dropKeys fun o => decide (0x30000 ≤ o) && decide (o < 0x40000), flashBusy := true } { target := 3, module := true })) ∧
    (s.pwr.due = some 3 → s.l3Busy = true → exec .moduleL3Entry s = .next (State.powerEvent { s with pwr := { s.pwr with due := none } } 3 2 1 0 0))) ∧
  (∀ (s : State) (port : Fin 50), (if port.val < 48 then bitAt s.pwr.wakeQp.toNat port.val else bitAt s.pwr.uapWake.toNat (port.val - 48)) = true →
    (s.inL3 = true → s.pins.pwrgd = true → s.pins.lockout = false → exec (.wakeBurst port) s = .next (s.leaveL3 2 (BitVec.ofNat 6 port.val))) ∧
    (s.inL3 = false → s.pwr.trans = none → s.pwr.st = 2 → exec (.wakeBurst port) s = .next ((State.transBegin { s with
      pwr := { s.pwr with lastWake := 2, wakePort := BitVec.ofNat 6 port.val, wakeN := true } } { target := 0, module := true }).powerEvent 0 0 2 (BitVec.ofNat 6 port.val) 0))) ∧
  (∀ s : State, s.pwr.wakeNEn = true → s.pwr.wakeN = false →
    (s.inL3 = true → s.pins.pwrgd = true → s.pins.lockout = false → exec .wakeNInput s = .next (s.leaveL3 3 0)) ∧
    (s.inL3 = false → s.pwr.trans = none → s.pwr.st = 2 → exec .wakeNInput s = .next ((State.transBegin { s with
      pwr := { s.pwr with lastWake := 3, wakePort := 0, wakeN := true } } { target := 0, module := true }).powerEvent 0 0 3 0 0))) ∧
  (∀ (s : State) (bus : Fin 5) (t : PTrans), s.powered = true → s.pwr.trans = some t →
    let v := State.transRails { s with pwr := { s.pwr with avs := s.pwr.avs.put 0 bus.val 0 } } t bus.val
    exec (.regulatorTransitionComplete bus true false) s = .next v ∧ exec (.regulatorTransitionComplete bus true true) s = .next (v.transDone t)) ∧
  ∀ (s : State) (t : PTrans),
    (∀ k ∈ s.transCgs t, k < 32 → (s.transSupplied t).pwr.supply k = t.row) ∧ (t.module = true → (s.transSupplied t).pwr.modSup = t.row)

/-- PWRGD_IN, the inputs, and MOD_RST_N (R490 to R493, R498). -/
def Obligations.PinsAndInputs : Prop :=
  ∀ s : State,
    (s.pins.pwrgd = true →
      exec .pwrgdInFall s = .next (State.railsOff { s with pins := { s.pins with pwrgd := false } }) ∧
      exec .undervoltageLockout s = .next (State.railsOff { s with pins := { s.pins with in54 := false, lockout := true } })) ∧
    (s.pins.pwrgd = false → exec .pwrgdInFall s = .next s ∧ exec .undervoltageLockout s = .next { s with pins := { s.pins with in54 := false, lockout := true } }) ∧
    (s.inL3 = false → s.railsOff.mem = {} ∧ s.railsOff.phase = .off ∧ s.railsOff.ptns = [] ∧ s.railsOff.ths = [] ∧ s.railsOff.launches = []) ∧
    (s.inL3 = true → s.railsOff = s) ∧
    (s.pins.pwrgd = false → s.pins.lockout = false → s.pins.stby12 = true → s.phase = .off →
      exec .pwrgdInRise s = .next { s with pins := { s.pins with pwrgd := true }, phase := if s.pins.rstN then .starting else .standby
                                           pwr := { s.pwr with boot := some (0, 1), hold := .none, rails := 0 } }) ∧
    (s.pins.pwrgd = true → s.pins.lockout = true → s.pins.stby12 = true → s.phase = .off →
      exec .inputRestored s = .next { s with pins := { s.pins with in54 := true, lockout := false }, phase := if s.pins.rstN then .starting else .standby
                                             pwr := { s.pwr with boot := some (0, 1), hold := .none, rails := 0 } }) ∧
    (s.inL3 = true → s.pwr.wakeHeld = none → s.pins.pwrgd = false → s.pins.lockout = false → exec .pwrgdInRise s = .next { s with pins := { s.pins with pwrgd := true } }) ∧
    (∀ w, s.inL3 = true → s.pwr.wakeHeld = some w → s.pins.pwrgd = false → s.pins.lockout = false →
      exec .pwrgdInRise s = .next (State.leaveL3 { s with pins := { s.pins with pwrgd := true } } w.1 w.2)) ∧
    (s.pins.stby12 = true → s.phase = .ready ∨ s.phase = .starting ∨ s.phase = .stopped → exec .standbyInputLoss s = .next { s with
      pins := { s.pins with stby12 := false }, fresh := s.fresh + 1, pwr := { s.pwr with tel := { s.pwr.tel with vStby := BitVec.ofNat 16 (Config.free s.fresh 0) } } }) ∧
    (s.pins.stby12 = false → s.phase = .off → s.pins.pwrgd = true → s.pins.lockout = false → exec .standbyInputReturn s = .next { s with
      pins := { s.pins with stby12 := true }, phase := if s.pins.rstN then .starting else .standby, pwr := { s.pwr with boot := some (0, 1), hold := .none, rails := 0 } }) ∧
    (s.pins.rstN = true → s.phase = .ready →
      exec .modRstNFall s = .next (State.beginReset { s with pins := { s.pins with rstN := false }, i3c := { s.i3c with owned := !s.flashBusy } } 1 0x02 .none)) ∧
    (s.pins.rstN = false → s.i3c.op = none → exec .modRstNRise s = .next { s with
      pins := { s.pins with rstN := true }, i3c := { s.i3c with owned := false, busy := false, op := none }
      phase := if s.phase = .standby ∧ s.pwr.boot = some (0, 1) then .starting else s.phase }) ∧
    (∀ o bs, s.pins.rstN = false → s.i3c.op = some (o, bs) → ∃ t, exec .modRstNRise s = .next t ∧ t.i3c.op = none ∧ t.i3c.busy = false ∧ t.pins.rstN = true ∧
      (∀ i, i < bs.length → t.flashAt (o + i) = BitVec.ofNat 8 (Config.free s.fresh i)) ∧ ∀ a, a < o ∨ o + bs.length ≤ a → t.flashAt a = s.flashAt a)

/-- MODULE_WARM_RESET and COLD_RESET (R480 to R486). -/
def Obligations.ModuleResets : Prop :=
  (∀ (s : State) (cause : Byte), s.phase = .ready → s.pins.pwrgd = true → s.pins.rstN = true → s.pins.lockout = false →
    exec (.moduleWarmReset cause) s = .next ((s.beginReset 1 cause .none).startUp 1 cause false) ∧
    exec (.coldReset cause) s = .next (((s.beginReset 0 cause .none).survive 0).startUp 0 cause (decide (s.pwr.due = some 0x11)))) ∧
  (∀ (s : State) (cause : Byte) (hold : RstHold), let t := s.beginReset 1 cause hold
    let z := if s.saf.stewRestart then s.stewardBack else s
    t.ptns = [] ∧ t.launches = [] ∧ t.ths = [] ∧ t.mod = z.mod ∧ t.saf.log = z.saf.log ∧ t.saf.nextMen = z.saf.nextMen ∧ t.phase = .starting ∧
    (∀ k : QpId, (t.qp k).rstCause = 0 ∧ (t.qp k).rstCount = (z.qp k).rstCount ∧ (t.qp k).routes = (z.qp k).routes) ∧
    t.pwr.boot = some (1, cause) ∧ t.pwr.hold = hold ∧ t.pwr.lastEsn = ptnIds.map z.lastEsnOf ∧ t.mem.granKey = z.mem.granKey ∧ t.pending = z.pending ∧
    (∀ a, lpBase ≤ a → t.mem.bytes.get 0 a = z.mem.bytes.get 0 a) ∧ ∀ a, a < lpBase → t.mem.bytes.get 0 a = 0) ∧
  (∀ (s : State) (cause : Byte) (hold : RstHold), let t := s.beginReset 0 cause hold
    t.ptns = [] ∧ t.launches = [] ∧ t.ths = [] ∧ t.mcs = [] ∧ t.tes = [] ∧ t.mod = {} ∧ t.saf = {} ∧ t.mem = {} ∧ t.qps = [] ∧ t.ups = [] ∧
    t.pending = (if s.saf.stewRestart then s.stewardBack else s).pending) ∧
  ∀ (s : State) (kind : BitVec 2) (cause : Byte) (told : Bool), let t := s.startUp kind cause told
    t.mod.rstCause = cause ∧ t.mod.rstKind = kind ∧ (kind = 1 → t.mod.warmCount = satInc s.mod.warmCount) ∧ (kind ≠ 1 → t.mod.warmCount = 0) ∧
    t.phase = (if s.bootRom.2 then .ready else .stopped) ∧ (s.bootRom.2 || t.saf.faultPend) = true

/-- STRIP_DUE, STRIP_START, STRIP_END, TE_STRIP_END and STRIP_NOW (R419 to R429). -/
def Obligations.Strips : Prop :=
  (∀ (s : State) (m : McId), (s.mc m.val).strip.st = .idle → s.mcRetired m.val = false → s.inL0 (m.val / 8) = true →
    exec (.stripDue m) s = .next (s.updStrip m.val fun x => { x with st := .due })) ∧
  (∀ (s : State) (m : McId), (s.mc m.val).strip.st = .due → (s.mc m.val).boundary = true → (s.mc m.val).tiles = 0 → s.stopAsked m.val = false →
    exec (.stripStart m) s = .next (s.updStrip m.val fun x => { x with st := .first })) ∧
  (∀ (s : State) (m : McId) (r : StripResult) (stamp : W64), (s.mc m.val).strip.active = true → exec (.stripEnd m r stamp) s = .next ((s.exemptStrip m.val).stripResult m.val r stamp)) ∧
  (∀ (s : State) (e : TeId) (r : StripResult) (stamp : W64), (s.te e.val).strip.retired = false ∨ (s.te e.val).strip.active = true →
    exec (.teStripEnd e r stamp) s = .next (s.stripResult (256 + e.val) r stamp)) ∧
  (∀ (s : State) (u : Nat) (r : StripResult) (stamp : W64),
    let z := s.updStrip u fun x => { x with strips := satInc x.strips, rotation := x.rotation + 1, fails := if r.isSome then satInc x.fails else x.fails }
    let idle := fun (v : State) => v.updStrip u fun x => { x with st := .idle }
    (∀ sig, (unitStrip s u).st = .second sig →
      let m := z.suspectAll u
      (r = none → let v := idle m.1
        s.stripResult u r stamp = ((v.faultWith (v.unitRec u 1 1 0x0101 sig stamp) m.2).endWaiters u none).reportAll) ∧
      (r ≠ none → let t := m.1.retire u
        s.stripResult u r stamp = ((t.1.faultWith (t.1.unitRec u 1 2 0x0102 sig stamp) (m.2 ++ t.2)).endWaiters u (some St.eHwFault)).reportAll)) ∧
    (∀ n, (unitStrip s u).st = .revive n →
      (r ≠ none → s.stripResult u r stamp = (idle z).endWaiters u (some St.eHwFault)) ∧
      (r = none → n + 1 < 8 → s.stripResult u r stamp = z.updStrip u fun x => { x with st := .revive (n + 1) }) ∧
      (r = none → 8 ≤ n + 1 → s.stripResult u r stamp = ((z.updStrip u fun x => { x with st := .idle, retired := false }).service u stamp).endWaiters u none)) ∧
    ((unitStrip s u).st = .idle ∨ (unitStrip s u).st = .due ∨ (unitStrip s u).st = .first →
      (r = none → s.stripResult u r stamp = ((idle (z.clearUnit u)).endWaiters u none).reportAll) ∧
      (∀ sig, r = some sig → s.stripResult u r stamp = (z.failWaiters u).updStrip u fun x => { x with st := .second sig }))) ∧
  (∀ (s u : State) (h : Hdr) (mask : W32) (revive cores engines : Bool), s.startsNow h 0xF01 (.stripNow h mask revive cores engines) = some u →
    mask &&& ~~~(u.ptn h.ptn).cgs = 0 → cores = true ∨ engines = true →
    let us := stripUnits mask cores engines
    let z := u.open' h us.length
    let seq := match z.cmdOf h with | some c => c.hdr.seq | none => h.seq
    exec (.stripNow h mask revive cores engines) s = .next ((us.zipIdx.foldl (fun v e =>
      if (unitStrip v e.1).retired && !revive then v.closeItem h e.2 (some St.eHwFault)
      else v.updStrip e.1 fun x => { x with
        waiters := x.waiters ++ [(h.ptn, h.queue, seq, e.2)]
        st := if x.retired then (match x.st with | .revive n => .revive n | _ => .revive 0) else if x.st = .idle then .due else x.st }) z).settle h))

/-- HEARTBEAT_MISSED, the lockstep and descriptor checks, DIE_LINK_DOWN and PATROL_SCRUB. -/
def Obligations.DetectedFaults : Prop :=
  (∀ (s : State) (te : Bool) (m : McId) (stamp : W64), let u := if te then 256 + m.val % 64 else m.val
    (unitStrip s u).retired = false → s.inL0 (cgOfUnit u) = true →
    let open' : List Mark := ptnIds.flatMap fun p => (s.ptn p).flow.cmds.flatMap fun c =>
      ((List.range c.items.length).filter fun i => !(c.items.getD i {}).closed && decide (u ∈ (c.items.getD i {}).units)).map fun i =>
        { ptn := p, queue := c.hdr.queue, seq := c.hdr.seq, item := i }
    let z := open'.foldl (fun z k => z.closeItem k.hdr k.item (some (s.hangCode k u))) s
    (z.launches.filter fun l => !te && z.onCores l && decide (m.val ∈ l.mcs)) = [] → (te = true → (z.te (m.val % 64)).reqs = []) →
    let a := (if te then z.updTe (m.val % 64) fun e => { e with reqs := [] } else z).suspectAll u
    let t := a.1.retire u
    exec (.heartbeatMissed te m stamp) s = .next
      (((t.1.faultWith (t.1.unitRec u 6 2 (if te then 0x0602 else 0x0601) 0 stamp) (open' ++ a.2 ++ t.2)).endWaiters u (some St.eHwFault)).reportAll)) ∧
  (∀ (s : State) (p : PtnId) (stamp : W64), bitAt s.saf.psRetired.toNat p.val = false →
    let open' := if s.saf.stewRestart then s.allOpen p else []
    let r : FRec := { cls := 2, severity := 2, unitKind := 3, die := BitVec.ofNat 8 (p.val / 8), unit := BitVec.ofNat 16 p.val, cause := 0x0201, stamp := stamp }
    ((s.ptn p).st = 0 → exec (.psLockstepMismatch p stamp false) s = .next (s.faultWith r open')) ∧
    ((s.ptn p).st ≠ 0 → exec (.psLockstepMismatch p stamp false) s = .next ((s.faultWith { r with ptnMask := ptnBit p } open').resetPtn p 0x11) ∧
      (let z := s.faultWith { r with ptnMask := ptnBit p } open'
       exec (.psLockstepMismatch p stamp true) s = .next
        (State.resetPtn { z with saf := { z.saf with psRetired := z.saf.psRetired ||| ptnBit p } } p 0x11)))) ∧
  (∀ (s : State) (stamp : W64), s.phase = .ready →
    let r : FRec := { cls := 2, severity := 2, unitKind := 4, die := 1, unit := 0, cause := 0x0202, stamp := stamp }
    exec (.stewardLockstepMismatch stamp false) s = .next (State.recordFault { s with saf := { s.saf with stewRestart := true } } r) ∧
    (s.saf.deferred = [] → exec (.stewardLockstepMismatch stamp true) s = .next
      ((State.recordFault { s with saf := { s.saf with stewRestart := false, deferred := [] } } r).warmBegin 0x04 .none))) ∧
  (∀ (s : State) (p : PtnId) (q : QueueId) (item : W16) (m : McId) (stamp : W64) (c : CmdRec), s.running? p q = some c →
    let fail := s.closeItem c.hdr item.toNat (some St.eHwFault)
    let mark : Mark := { ptn := p, queue := q, seq := c.hdr.seq, item := item.toNat }
    (∀ te : Bool, let u := if te then m.val % 64 else m.val
      exec (.descCrcMismatch p q item te m stamp) s = .next (fail.faultWith
        { cls := 2, severity := 1, unitKind := if te then 2 else 1, die := BitVec.ofNat 8 (if te then dieOfTe u else dieOfMc u),
          unit := BitVec.ofNat 16 u, cause := 0x0203, ptnMask := ptnBit p, stamp := stamp } [mark])) ∧
    exec (.windowMismatch p q item stamp) s = .next (fail.faultWith
      { cls := 5, severity := 2, unitKind := 3, die := BitVec.ofNat 8 (p.val / 8), unit := BitVec.ofNat 16 p.val, cause := 0x0501, ptnMask := ptnBit p, stamp := stamp } [mark])) ∧
  (∀ (s : State) (a b : DieId) (stamp : W64), let k := 4 * min a.val b.val + max a.val b.val
    (a ≠ b → bitAt s.dieLinks.toNat k = false →
      let z : State := { s with dieLinks := s.dieLinks ||| BitVec.ofNat 16 (2 ^ k) }
      let ps := ptnIds.filter fun p => (s.ptn p).st ≠ 0 && s.spansDies p (min a.val b.val) (max a.val b.val)
      let on := fun (i : Item) (d : DieId) => i.units.any fun u => decide ((if u < 256 then dieOfMc u else dieOfTe (u - 256)) = d.val)
      ∃ ms : List Mark, (∀ m, m ∈ ms ↔ m.ptn ∈ ps ∧ m.event = none ∧ ∃ c ∈ (s.ptn m.ptn).flow.cmds, m.queue = c.hdr.queue ∧ m.seq = c.hdr.seq ∧
          m.item < c.items.length ∧ (c.items.getD m.item {}).closed = false ∧ on (c.items.getD m.item {}) a = true ∧ on (c.items.getD m.item {}) b = true) ∧
        exec (.dieLinkDown a b stamp) s = .next ((ms.foldl (fun z m => z.closeItem m.hdr m.item (some St.eLinkDown)) z).faultWith
          { cls := 4, severity := 2, unitKind := 7, die := BitVec.ofNat 8 a.val, unit := BitVec.ofNat 16 k, cause := 0x0401
            ptnMask := ps.foldl (fun m p => m ||| ptnBit p) 0, stamp := stamp } ms)) ∧
    (a = b ∨ bitAt s.dieLinks.toNat k = true → exec (.dieLinkDown a b stamp) s = .next s)) ∧
  ∀ (s : State) (addr : W64) (stamp : W64), let d := addr.toNat / 8 * 8
    (isMem d = false → ∀ x y z, exec (.patrolScrub addr x y z stamp) s = .next s) ∧
    (isMem d = true → ∀ pass : Bool,
      let count := fun (z : State) (f : Ecc → Ecc) => z.updMem fun m =>
        if d < ergTop then { m with erg := m.erg.upd {} (d / sliceBytes / 64) f } else { m with memc := m.memc.upd {} (Mem.channel d) f }
      let z := if pass then count s fun e => { e with passes := satInc e.passes } else s
      (∀ single, exec (.patrolScrub addr true single pass stamp) s = .next
        ((z.updMem fun m => { m with ue := insNat d m.ue }).noteUe (z.ownersOf d) d (some stamp))) ∧
      (d ∉ z.mem.ue → exec (.patrolScrub addr false false pass stamp) s = .next z ∧
        exec (.patrolScrub addr false true pass stamp) s = .next (count z fun e => { e with ce := satInc e.ce })))

/-- PACKET_ARRIVAL (R315 to R320). -/
def Obligations.PacketArrival : Prop :=
  ∀ (s z : State) (port : UpId) (bs : List Byte), s.admits port = some z →
    let h := Hdr.parse bs port
    let op := fld bs 2 2
    let opw : W16 := BitVec.ofNat 16 op
    let n := ceilDiv bs.length 256
    let block := (bs.take (bs.length - 4)).drop 32
    let run := exec (.packetArrival port bs) s
    (∀ c, wireCheck bs = some c → run = .next (z.portReply port h opw c bs)) ∧
    (wireCheck bs = none →
      (h.steward = false → (z.ptn h.ptn).st = 0 → run = .next (z.portReply port h opw St.ePtnFree bs)) ∧
      (h.steward = true ∨ (z.ptn h.ptn).st ≠ 0 →
        (∀ c, z.chanCheck h n = some c → run = .next (z.sendReply h (rejection h opw c))) ∧
        (z.chanCheck h n = none →
          (seqAfter (z.lastSeq h) h.seq = false → run = .next (z.sendReply h (rejection h opw St.eSeqReplay))) ∧
          (seqAfter (z.lastSeq h) h.seq = true →
            let v := z.setSeq h
            (h.steward = true → v.saf.stewRestart = true → run = .next (v.sendReply h (rejection h opw St.eBusy))) ∧
            (h.steward = false ∨ v.saf.stewRestart = false →
              (∀ c, v.cmdCheck h op block = .error c → run = .next (v.sendReply h (rejection h opw c))) ∧
              ∀ cmd, v.cmdCheck h op block = .ok cmd → run = .next (v.accept h op cmd n))))))

/-- UAPRA_FRAME, UAPRA_FRAME_RETRY and UAPRA_RETRAIN. -/
def Obligations.UapraLinks : Prop :=
  (∀ (s : State) (k : UpId) (f : LinkFrame), (s.up k).isUp = true → f.intact = true →
    exec (.uapraFrame k f) s = .next ((s.wakeL2 1 (BitVec.ofNat 6 (48 + k.val))).updUp k fun x => UPort.drain { x with
      unacked := x.unacked.drop f.acks, attempts := if f.acks = 0 then x.attempts else 0, credits := min 64 (x.credits + f.credits), rxSeq := x.rxSeq + 1 })) ∧
  (∀ (s : State) (k : UpId), (s.up k).isUp = true → (s.up k).unacked ≠ [] →
    ((s.up k).attempts < 8 →
      let v := if (s.up k).bufUe then (s.updUp k fun x => { x with bufUe := false }).notePort 9 (if k = 0 then 0 else 3) k.val (ptnMask ((s.up k).unacked.map (·.ptn))) else s
      exec (.uapraFrameRetry k) s = .next (v.updUp k fun x => { x with attempts := x.attempts + 1, retries := satInc x.retries })) ∧
    (8 ≤ (s.up k).attempts → exec (.uapraFrameRetry k) s = .next (s.upDown k))) ∧
  (∀ (s : State) (k : UpId), (s.up k).isUp = false → s.phase = .ready →
    exec (.uapraRetrain k true) s = .next ((s.upLinkReset k 0x21).upUp k) ∧ exec (.uapraRetrain k false) s = .next (s.upLinkReset k 0x21)) ∧
  (∀ (s : State) (k : UpId), (s.upUp k).held = [] ∧ ((s.upUp k).up k).st = 2) ∧
  (∀ (s : State) (k : UpId), let z := (s.updUp k (·.fresh 0)).upMove k (s.up k)
    let r : FRec := { cls := 4, severity := 2, unitKind := 9, die := if k = 0 then 0 else 3, unit := BitVec.ofNat 16 k.val, cause := 0x0402, stamp := z.now.2 }
    s.upDown k = z.now.1.recordFault r) ∧
  ∀ (s : State) (k : UpId) (old : UPort), (s.up (otherUp k)).isUp = false →
    s.upMove k old = { s with held := s.held ++ ((sortMsgs old.unacked).map Msg.again ++ old.unsent).map fun m => { ports := if k = 0 then 1 else 2, msg := m } }

/-- FLIT_RECEIVE, NAK, the timeouts, LINK_TRAINED and ACK. -/
def Obligations.QoreaPorts : Prop :=
  ∀ (s : State) (n : QpId),
    ((s.qp n).st = 2 → ∀ f : Flit,
      let w := if f.fkind ≠ 1 ∧ f.good = true then s.wakeL2 1 (BitVec.ofNat 6 n.val) else s
      let c := w.updQp n fun x => { x with fecCe := satInc x.fecCe f.fecCe, fecUe := satInc x.fecUe f.fecUe }
      let a := (c.updQp n (·.takeAck f.ackSeq)).giveQp n []
      let run := exec (.flitReceive n f) s
      (f.good = false ∨ f.fecUe ≠ 0 → run = .next (c.sendNak n)) ∧
      (f.good = true → f.fecUe = 0 →
        (f.fkind ≠ 0 → run = .next a) ∧
        (f.fkind = 0 → f.fseq = (s.qp n).fseqRx →
          let v := a.updQp n fun x => { x with fseqRx := x.fseqRx + 1, discarding := false, nakSent := 0 }
          run = .next (if 6 ≤ f.vl.toNat then v.dropPkt n else v)) ∧
        (f.fkind = 0 → f.fseq ≠ (s.qp n).fseqRx → run = .next (if (s.qp n).discarding then a else a.sendNak n)))) ∧
    ((s.qp n).st = 2 → ∀ (q : BitVec 12) (t : W64),
      let r := if q = (s.qp n).nakFseq ∧ (s.qp n).nakRun ≠ 0 then (s.qp n).nakRun + 1 else 1
      let w := s.wakeL2 1 (BitVec.ofNat 6 n.val)
      let e := if (s.qp n).bufUe then (w.updQp n fun x => { x with bufUe := false }).notePort 8 (BitVec.ofNat 8 (n.val / 12)) n.val (ptnMask ((s.qp n).flight.map (·.srcPtn))) else w
      let v := (e.updQp n fun x => { x.ackTo (q - 1) with retryEvents := satInc x.retryEvents, nakFseq := q, nakRun := r }).giveQp n []
      exec (.nak n q t) s = .next (if 8 ≤ r then v.qpDown n 2 (some t) else v)) ∧
    ((s.qp n).st = 2 → (s.qp n).outstanding = true → ∀ t, exec (.qoreaSilentTimeout n t) s = .next (s.qpDown n 3 (some t))) ∧
    ((s.qp n).st = 1 → (s.qp n).atStep4 = false → ∀ lanes : BitVec 8,
      let low := decide (lanes.toNat % 16 = 15)
      let high := decide (lanes.toNat / 16 = 15)
      ((s.qp n).attempts < 2 → exec (.trainingStepTimeout n lanes) s = .next (s.updQp n fun x => { x with attempts := x.attempts + 1 })) ∧
      (2 ≤ (s.qp n).attempts → (s.qp n).degradeEn = true → (s.qp n).half = false → low = true ∨ high = true →
        exec (.trainingStepTimeout n lanes) s = .next (s.updQp n fun x => { x with attempts := x.attempts + 1, half := true, laneSet := !low })) ∧
      (2 ≤ (s.qp n).attempts → (s.qp n).degradeEn = false ∨ (s.qp n).half = true ∨ low = false ∧ high = false →
        exec (.trainingStepTimeout n lanes) s = .next (s.updQp n (·.retrain 0 1)))) ∧
    ((s.qp n).st = 1 → ∀ peer : BitVec 13,
      (s.mod.node = 0x1FFF → exec (.linkTrained n peer) s = .next (s.updQp n fun x => { x with atStep4 := true })) ∧
      (s.mod.node ≠ 0x1FFF → exec (.linkTrained n peer) s = .next ((s.updQp n fun x => { x with
        st := 2, peer := peer, downCause := 0, attempts := 0, atStep4 := false, fseqTx := 0, fseqRx := 0, acked := 0xFFF }).takeMen))) ∧
    ((s.qp n).st = 2 → ∀ (p : PtnId) (cls : Fin 4) (num : W64), exec (.ack n p cls num) s = .next (((s.updQp n fun x => { x with
      flight := dropFirst (fun k => k.srcPtn = p && k.pktNum = num && (vlClass k.vl = some cls.val || vlClass k.vl = none)) x.flight }).giveQp n []).finishOuts p))

/-- DATA_IN, DATA_OUT, DATA and READ. -/
def Obligations.Transfers : Prop :=
  (∀ (s u : State) (h : Hdr) (ep : Endpoint) (a n : W64),
    let z := u.open' h 1
    (s.startsNow h 0x210 (.dataIn h ep a n) = some u →
      (n = 0 → exec (.dataIn h ep a n) s = .next ((z.closeItem h 0 none).settle h)) ∧
      (n ≠ 0 → z.portsTo ep.node 0 = [] → exec (.dataIn h ep a n) s = .next ((z.closeItem h 0 (some St.eParam)).settle h)) ∧
      (n ≠ 0 → z.portsTo ep.node 0 ≠ [] →
        exec (.dataIn h ep a n) s = .next (((z.openXfer h 0 ep a n).1.sendPkts 0 [(z.openXfer h 0 ep a n).2.readPkt]).settle h))) ∧
    (s.startsNow h 0x211 (.dataOut h ep a n) = some u →
      (n = 0 → exec (.dataOut h ep a n) s = .next ((z.closeItem h 0 none).settle h)) ∧
      (n ≠ 0 → z.portsTo ep.node 0 = [] → exec (.dataOut h ep a n) s = .next ((z.closeItem h 0 (some St.eParam)).settle h)) ∧
      (n ≠ 0 → z.portsTo ep.node 0 ≠ [] → exec (.dataOut h ep a n) s = .next (((z.openXfer h 1 ep a n).1).settle h)))) ∧
  (∀ (s : State) (n : QpId) (h : QHdr) (bs : List Byte), (s.qp n).st = 2 →
    let find := s.xfers.find? fun x => x.dir = 0 && x.ptn = h.dstPtn && x.id = h.xfer && x.ep.node = h.srcNode
    (find = none → exec (.data n h bs) s = .next ((if (s.ptn h.dstPtn).memberNode h.srcNode h.srcPtn then s else s.dropPkt n).ackPkt n h)) ∧
    (∀ x, find = some x →
      (pktTag h ∈ x.seen → exec (.data n h bs) s = .next (s.ackPkt n h)) ∧
      (pktTag h ∉ x.seen → h.offset.toNat + bs.length ≤ x.bytes →
        s.noSlot h.dstPtn (x.addr + h.offset.toNat) bs.length = false →
        let w := s.pWrite h.dstPtn (Who.firmware.via n) (x.addr + h.offset.toNat) (s.clear h bs)
        (∀ c, w.2 = .error c → exec (.data n h bs) s = .next (((w.1.dropPkt n).endXfer x (some c)).ackPkt n h)) ∧
        (w.2 = .ok () → x.moved + bs.length < x.bytes → exec (.data n h bs) s = .next (State.ackPkt { w.1 with
          xfers := updFirst (fun y => y.id = x.id) (fun y => { y with moved := x.moved + bs.length, seen := y.seen ++ [pktTag h] }) w.1.xfers } n h)) ∧
        (w.2 = .ok () → x.bytes ≤ x.moved + bs.length → exec (.data n h bs) s = .next ((w.1.endXfer x none).ackPkt n h))))) ∧
  ∀ (s : State) (n : QpId) (h : QHdr) (len : Nat), (s.qp n).st = 2 →
    let find := s.xfers.find? fun x => x.dir = 1 && x.ptn = h.dstPtn && x.ep.node = h.srcNode && h.offset.toNat + len ≤ x.bytes
    (find = none → exec (.read n h len) s = .next ((if (s.ptn h.dstPtn).memberNode h.srcNode h.srcPtn then s else s.dropPkt n).ackPkt n h)) ∧
    ∀ x, find = some x → pktTag h ∉ x.seen → s.noSlot h.dstPtn (x.addr + h.offset.toNat) len = false →
      (s.job h.dstPtn x.hdr.queue).st = .running →
      let r := s.pRead h.dstPtn (Who.firmware.via n) (x.addr + h.offset.toNat) len
      let k : QPkt := { dstNode := h.srcNode, dstPtn := h.srcPtn, srcPtn := x.ptn, vl := 3, kind := 1, enc := x.ep.enc, keyId := x.ep.keyId, last := decide (h.offset.toNat + len = x.bytes), xfer := x.id, offset := h.offset, job := some x.hdr.queue }
      (∀ c, r.2 = .error c → exec (.read n h len) s = .next ((r.1.endXfer x (some c)).ackPkt n h)) ∧
      (∀ bs, r.2 = .ok bs → let z := { r.1 with xfers := updFirst (fun y => y.id = x.id) (fun y => { y with
          moved := y.moved + len, sent := y.sent + (cutPkts k bs).length, seen := y.seen ++ [pktTag h] }) r.1.xfers }
        exec (.read n h len) s = .next ((State.sendAll z (z.portsTo h.srcNode 0) x.sent (cutPkts k bs)).ackPkt n h))

/-- ROUTE_SET, GROUP_SET, GROUP_LEAVE, REDUCE and GROUP_TIMEOUT. -/
def Obligations.GroupCommands : Prop :=
  (∀ (s u : State) (h : Hdr) (m : W64) (first n : W16) (v : Byte), s.runsNow h 0x503 = some u → n ≠ 0 → first.toNat + n.toNat ≤ 8191 →
    let k : BitVec 8192 := BitVec.ofNat 8192 ((2 ^ n.toNat - 1) <<< first.toNat)
    exec (.routeSet h m first n v) s = .next (((qpIds.filter fun q => bitAt m.toNat q.val).foldl (fun z q => z.updQp q fun x => { x with
      routes := if v = 0 then x.routes &&& ~~~k else x.routes ||| k }) u).replied h [doneItem] [])) ∧
  (∀ (s u : State) (h : Hdr) (g : GroupBlock), s.startsNow h 0x501 (.groupSet h g) = some u → u.startCheck h (.groupSet h g) = none → groupBad u h.ptn g = false →
    let x := u.ptn h.ptn
    (x.group? g.group = none → x.groups.length < 16 → x.ergFits (4 * 2 ^ g.bucketLog2.toNat) = true →
      exec (.groupSet h g) s = .next ((((u.updPtn h.ptn fun y => { y with groups := y.groups ++ [{ block := g, epoch := g.epoch, maxEpoch := g.epoch }] }).updPtn h.ptn
        (·.trim 0)).joinNow h.ptn g.group).finished h doneItem [])) ∧
    (∀ y, x.group? g.group = some y →
      (g = y.block → exec (.groupSet h g) s = .next (u.finished h doneItem [])) ∧
      (g ≠ y.block → g.epoch.toNat ≤ y.epoch.toNat → exec (.groupSet h g) s = .next (u.reject h 0x501 St.eParam)) ∧
      (g ≠ y.block → y.epoch.toNat < g.epoch.toNat → y.rounds ≠ [] → exec (.groupSet h g) s = .next (u.reject h 0x501 St.eBusy)) ∧
      (g ≠ y.block → y.epoch.toNat < g.epoch.toNat → y.rounds = [] → x.ergFits (4 * 2 ^ g.bucketLog2.toNat - 4 * 2 ^ y.block.bucketLog2.toNat) = true →
        exec (.groupSet h g) s = .next ((((u.updGroup h.ptn g.group fun y => { y with
          block := g, epoch := g.epoch, joined := [], heldExps := [], absents := [], opened := 0, newEpoch := decide (y.maxEpoch.toNat < g.epoch.toNat)
          maxEpoch := if y.maxEpoch.toNat < g.epoch.toNat then g.epoch else y.maxEpoch, st := if y.st = .restoring then .restoring else .forming }).updPtn h.ptn
          (·.trim 0)).joinNow h.ptn g.group).finished h doneItem [])))) ∧
  (∀ (s u : State) (h : Hdr) (g : W32), s.startsNow h 0x502 (.groupLeave h g) = some u → u.startCheck h (.groupLeave h g) = none →
    ∀ y, (u.ptn h.ptn).group? g = some y →
      (y.rounds = [] → y.waiting = [] → exec (.groupLeave h g) s = .next ((u.updPtn h.ptn fun x => { x with groups := x.groups.filter fun z => z.block.group ≠ g }).finished h doneItem [])) ∧
      (y.rounds ≠ [] → exec (.groupLeave h g) s = .next (u.reject h 0x502 St.eBusy))) ∧
  (∀ (s u : State) (h : Hdr) (g : W32) (half : Bool) (n src dst : W64), s.startsNow h 0x504 (.reduce h g half n src dst) = some u →
    n ≠ 0 → n.toNat ≤ 2 ^ 32 → ((u.ptn h.ptn).group? g).isSome = true →
    let z := u.open' h 1
    ∀ y c, (z.ptn h.ptn).group? g = some y → z.cmdOf h = some c →
      (y.st = .active → exec (.reduce h g half n src dst) s = .next ((z.openReduce h.ptn y c.hdr).settle h)) ∧
      (y.st = .forming → exec (.reduce h g half n src dst) s = .next ((z.updGroup h.ptn g fun y => { y with waiting := y.waiting ++ [(c.hdr, 0)] }).settle h)) ∧
      (y.st = .restoring → exec (.reduce h g half n src dst) s = .next ((z.closeItem h 0 (some St.eBusy)).settle h))) ∧
  ∀ (s : State) (p : PtnId) (id : W32) (g : Group), (s.ptn p).group? id = some g →
    (g.st = .forming → exec (.groupTimeout p id) s = .next (g.waiting.foldl (fun z w => z.endUpdate p w.1 w.2 none 0 (some St.eIncomplete))
      (s.updGroup p id fun y => { y with waiting := [] }))) ∧
    (g.st = .active → g.rounds ≠ [] → exec (.groupTimeout p id) s = .next (s.abortGroup p g)) ∧
    (g.st = .restoring ∨ g.st = .active ∧ g.rounds = [] → exec (.groupTimeout p id) s = .next s)

/-- JOIN, EXP, SCALE, GRAD, PARAM, ABSENT, ABORT and BUCKET_CLOSE. -/
def Obligations.GroupPackets : Prop :=
  (∀ (s : State) (n : QpId) (h : QHdr) (g : GHdr) (y : Group) (m : Nat), s.fromMember n h g = some (y, m) →
    let p := h.dstPtn
    (y.st = .forming → ∀ t, let z := if m ∈ y.joined then s else s.answerJoin p y m
      exec (.join n h g t) s = .next (((z.updGroup p g.group fun y => { y with joined := if m ∈ y.joined then y.joined else y.joined ++ [m] }).tryActive p g.group).ackPkt n h)) ∧
    (∀ (b : Nat) (e : BitVec 16) (nf : Bool), y.st = .active → y.opened.toNat < g.round.toNat → (y.heldExps.any fun x => x.1 = g.round && x.2.1 = b && x.2.2.1 = m) = false →
      exec (.exp n h g b e nf) s = .next ((s.updGroup p g.group fun y => { y with heldExps := y.heldExps ++ [(g.round, b, m, e, nf)] }).ackPkt n h)) ∧
    exec (.abort n h g) s = .next ((s.abortGroup p y).ackPkt n h) ∧
    (∀ z r, s.inOpen h g = some (z, r) → let v := s.noted h g
      (∀ (b : Nat) (e : BitVec 16) (nf : Bool), y.st ≠ .active ∨ g.round.toNat ≤ y.opened.toNat → z.owns b = true →
        exec (.exp n h g b e nf) s = .next ((v.addExp p g.group g.round b m e nf).ackPkt n h)) ∧
      (∀ (b : Nat) (f : BitVec 16) (k : BitVec 2) (bk : Bucket), b % z.n = m → r.buckets[b]? = some bk → bk.scale = none →
        exec (.scale n h g b f k) s = .next ((v.memberScale p g.group g.round b f k).ackPkt n h)) ∧
      (∀ (b : Nat) (xs : List W32), z.owns b = true → exec (.grad n h g b xs) s = .next ((v.addGrad p g.group g.round b m h.offset.toNat xs).ackPkt n h)) ∧
      (∀ (b : Nat) (xs : List W32), b % z.n = m → s.roundWaits p r = false →
        let half := match r.work with | .update _ _ _ _ _ => z.block.pformat | .reduce x _ _ _ => x
        let ys := if !r.work.isReduce && half then xs.map fun v => BitVec.ofNat 32 (b32.round (b16.decode (v.toNat % 2 ^ 16))).1 else xs
        exec (.param n h g b xs) s = .next ((v.memberParam p g.group g.round b (h.offset.toNat / (if half then 2 else 4)) ys).ackPkt n h))) ∧
    (∀ r, (y.rounds.find? fun r => r.num = g.round) = some r →
      let v := s.updGroup p g.group fun y => { y with rounds := y.rounds.filter fun q => q.num ≠ g.round, aborts := satInc y.aborts }
      (∀ o e src dst, r.work = .reduce o e src dst → exec (.absent n h g) s = .next ((v.endUpdate p r.hdr r.item none 0 (some St.eIncomplete)).ackPkt n h)) ∧
      (∀ k i a o gr, r.work = .update k i a o gr → exec (.absent n h g) s =
        .next (((v.updPtn p fun x => x.updSet k i fun w => { w with writing := false }).endUpdate p r.hdr r.item (some i) 0 (some St.eIncomplete)).ackPkt n h)))) ∧
  (∀ (s : State) (n : QpId) (h : QHdr) (g : GHdr) (y : Group) (t : W64), (s.qp n).st = 2 → (s.ptn h.dstPtn).group? g.group = some y → g.epoch ≠ y.epoch →
    let v := ((s.dropPkt n).updGroup h.dstPtn g.group fun y => { y with stale := satInc y.stale }).ackPkt n h
    exec (.join n h g t) s = .next v ∧ exec (.abort n h g) s = .next v ∧ exec (.absent n h g) s = .next v ∧ ∀ b xs, exec (.grad n h g b xs) s = .next v) ∧
  (∀ (s : State) (p : PtnId) (id : W32) (b : Nat) (g : Group) (r : Round) (k : Bucket), (s.ptn p).group? id = some g → g.owns b = true →
    g.rounds.find? (State.closable g b) = some r → r.buckets[b]? = some k → (s.job p r.hdr.queue).st = .running → s.roundWaits p r = false →
    (k.out = none → exec (.bucketClose p id b) s = .next ((s.closeBucket p g r b k).setScales p id)) ∧
    (∀ out, k.out = some out →
      (r.work.isReduce = true → exec (.bucketClose p id b) s = .next (s.sendParam p g r b out)) ∧
      (r.work.isReduce = false → ∀ c, s.cmdOf r.hdr = some c → let it := c.items.getD r.item {}
        exec (.bucketClose p id b) s = .next (if it.suspect then s.failRound p g r St.eHwFault else if it.units = [] then s.sendParam p g r b out else s)))) ∧
  ∀ (n : Nat) (f : BitVec 16) (x : W32), 0 < n → n ≤ 4096 →
    (quant n f x).toInt ≤ 2 ^ (31 - clog n) - 1 ∧ -(2 ^ (31 - clog n) - 1) ≤ (quant n f x).toInt ∧ (n : Int) * (2 ^ (31 - clog n) - 1) < 2 ^ 31

/-- MODEL_LOAD, MODEL_UNLOAD, VARIANT_LOAD and VARIANT_UNLOAD. -/
def Obligations.ModelCommands : Prop :=
  (∀ (s u : State) (h : Hdr) (a n : W64) (fl : W32) (kv : W16), s.startsNow h 0x220 (.modelLoad h a n fl kv) = some u →
    u.startCheck h (.modelLoad h a n fl kv) = none →
    let run := exec (.modelLoad h a n fl kv) s
    (n.toNat < 64 → run = .next (u.reject h 0x220 St.eImage)) ∧
    (64 ≤ n.toNat → ∀ z b, u.pRead h.ptn Who.firmware a.toNat n.toNat = (z, .ok b) →
      (∀ c, Image.load 1 n.toNat b (fl.getLsbD 2) z.mod.fill.toNat = .error c → run = .next (z.reject h 0x220 c)) ∧
      (∀ im m ev, Image.load 1 n.toNat b (fl.getLsbD 2) z.mod.fill.toNat = .ok im → fld b 32 8 = 0 ∨ im.tensors.any (·.shared) = false →
        z.newModel h a.toNat n.toNat fl kv.toNat b im = .ok (m, ev) →
        run = .next (((z.updPtn h.ptn fun x => { x with models := x.models ++ [m] }).addSheet h (·.addEv ev)).finished h doneItem (loadResult m.handle 0 (sha256 b))))) ∧
    (64 ≤ n.toNat → ∀ z c, u.pRead h.ptn Who.firmware a.toNat n.toNat = (z, .error c) → run = .next (z.finished h (failedItem c) (loadResult 0 0 [])))) ∧
  (∀ (s u : State) (h : Hdr) (m : W16), s.startsNow h 0x221 (.modelUnload h m) = some u → u.startCheck h (.modelUnload h m) = none →
    ((u.ptn h.ptn).model? m.toNat).isSome = true →
    ((u.ptn h.ptn).modelInUse h m.toNat = false →
      exec (.modelUnload h m) s = .next ((u.updPtn h.ptn (·.dropModel m.toNat)).finished h doneItem []) ∧
        ((u.ptn h.ptn).dropModel m.toNat).models = (u.ptn h.ptn).models.filter (fun y => y.handle ≠ m.toNat)) ∧
    ((u.ptn h.ptn).modelInUse h m.toNat = true → exec (.modelUnload h m) s = .next (u.reject h 0x221 St.eBusy))) ∧
  (∀ (s u : State) (h : Hdr) (m : W16) (tag : W32) (a n : W64), s.startsNow h 0x222 (.variantLoad h m tag a n) = some u →
    u.startCheck h (.variantLoad h m tag a n) = none → ((u.ptn h.ptn).model? m.toNat).isSome = true →
    (∀ v z b area, u.pRead h.ptn Who.firmware a.toNat n.toNat = (v, .ok b) → (v.ptn h.ptn).takeGranules (ceilDiv b.length gib) (granulesOf a.toNat n.toNat) = some area →
      v.fillGranules h.ptn area b = (z, .ok ()) →
      let ver : W64 := BitVec.ofNat 64 (Config.free z.fresh 0)
      exec (.variantLoad h m tag a n) s = .next ((State.updPtn { z with fresh := z.fresh + 1 } h.ptn fun x => { x with serve := { x.serve.retireVariant m.toNat tag with
        variants := (x.serve.retireVariant m.toNat tag).variants ++ [{ model := m.toNat, tag := tag, version := ver, addr := a.toNat, bytes := n.toNat, hash := sha256 b, area := area }] } }).finished
        h doneItem (loadResult (Config.free z.fresh 1 % 2 ^ 16) ver (sha256 b)))) ∧
    ∀ v code, u.loadVariant h.ptn m.toNat tag a.toNat n.toNat = (v, .error code) → exec (.variantLoad h m tag a n) s = .next (v.finished h (failedItem code) (loadResult 0 0 []))) ∧
  (∀ (s u : State) (h : Hdr) (m : W16) (tag : W32), s.startsNow h 0x223 (.variantUnload h m tag) = some u → u.startCheck h (.variantUnload h m tag) = none →
    ((u.ptn h.ptn).model? m.toNat).isSome = true →
    (((u.ptn h.ptn).serve.variant? m.toNat tag).isSome = true →
      exec (.variantUnload h m tag) s = .next ((u.updPtn h.ptn fun x => { x with serve := x.serve.retireVariant m.toNat tag }).finished h doneItem [])) ∧
    (((u.ptn h.ptn).serve.variant? m.toNat tag) = none → exec (.variantUnload h m tag) s = .next (u.reject h 0x223 St.eNoVariant))) ∧
  ∀ (s : State) (h : Hdr) (a n : Nat) (fl : W32) (kv : Nat) (b : List Byte) (im : Image) (m : Model) (ev : Ev), s.newModel h a n fl kv b im = .ok (m, ev) →
    m.hash = sha256 b ∧ m.image = im ∧ m.flags = fl ∧ m.addr = a ∧ m.bytes = n ∧ (∀ y ∈ (s.ptn h.ptn).models, y.handle ≠ m.handle) ∧ ∀ w ∈ m.sets, w.buf0 = w.master ∧ w.version = 0

/-- PROG_LOAD, PROG_UNLOAD, PROG_RUN and TABLE_OP. -/
def Obligations.ProgramCommands : Prop :=
  (∀ (s u : State) (h : Hdr) (a n : W64), s.startsNow h 0x701 (.progLoad h a n) = some u → u.startCheck h (.progLoad h a n) = none →
    (n.toNat < 64 → exec (.progLoad h a n) s = .next (u.reject h 0x701 St.eImage)) ∧
    (64 ≤ n.toNat →
      (∀ z c, u.pRead h.ptn Who.firmware a.toNat n.toNat = (z, .error c) → exec (.progLoad h a n) s = .next (z.finished h (failedItem c) (loadResult 0 0 []))) ∧
      ∀ z b, u.pRead h.ptn Who.firmware a.toNat n.toNat = (z, .ok b) →
        (∀ c, Image.load 2 n.toNat b false 0 = .error c → exec (.progLoad h a n) s = .next (z.reject h 0x701 c)) ∧
        ∀ im k, Image.load 2 n.toNat b false 0 = .ok im → freeHandle 0x8000 ((z.ptn h.ptn).progs.map (·.handle)) = some k →
          exec (.progLoad h a n) s = .next ((z.updPtn h.ptn fun x => { x with progs := x.progs ++ [{ handle := k, image := im, hash := sha256 b, bytes := n.toNat }] }).finished
            h doneItem (loadResult k 0 (sha256 b))))) ∧
  (∀ (s u : State) (h : Hdr) (k : W16), s.startsNow h 0x702 (.progUnload h k) = some u → u.startCheck h (.progUnload h k) = none →
    (((u.ptn h.ptn).prog? k.toNat) = none → exec (.progUnload h k) s = .next (u.reject h 0x702 St.eHandle)) ∧
    (((u.ptn h.ptn).prog? k.toNat).isSome = true → (u.ptn h.ptn).progInUse k.toNat = true → exec (.progUnload h k) s = .next (u.reject h 0x702 St.eBusy)) ∧
    (((u.ptn h.ptn).prog? k.toNat).isSome = true → (u.ptn h.ptn).progInUse k.toNat = false →
      exec (.progUnload h k) s = .next ((u.updPtn h.ptn fun x => { x with progs := x.progs.filter fun p => p.handle ≠ k.toNat }).finished h doneItem []))) ∧
  (∀ (s u : State) (h : Hdr) (e : ProgBlock), s.startsNow h 0x703 (.progRun h e) = some u → u.startCheck h (.progRun h e) = none → u.slicesCheck h e.program.toNat = none →
    exec (.progRun h e) s = .next (((u.open' h ((u.ptn h.ptn).entryItems e)).startProg h e.program.toNat e.entry.toNat e.srStream e.binds).settle h)) ∧
  (∀ (s : State) (h : Hdr) (prog entry : Nat) (sr : W32) (binds : List W64) (pr : Program) (e : EntryRec) (m : List (Nat × Nat)) (c : CmdRec),
    (s.ptn h.ptn).prog? prog = some pr → pr.image.entries[entry]? = some e → s.mapCores h.ptn h.queue pr.image e.fixed binds = some m → s.cmdOf h = some c →
    let n : W32 := BitVec.ofNat 32 ((if sr.getLsbD 31 then sr else c.hdr.seq).toNat % 2 ^ 24)
    s.startProg h prog entry sr binds = ((s.updCmd h fun k => { k with
      ergKept := pr.image.longBytes, prog := some { prog := prog, entry := entry, step := e.first, coreMap := m, binds := binds, srStream := n } }).updPtn h.ptn (·.trim 0)).stageCmd h) ∧
  ∀ (s u : State) (h : Hdr) (rs : List TeReq), s.startsNow h 0x230 (.tableOp h rs) = some u → u.startCheck h (.tableOp h rs) = none →
    let z := u.open' h rs.length
    let es := (tesOf (z.job h.ptn h.queue).cgs).filter fun n => !z.teRetired n
    let now := (tesOf (s.job h.ptn h.queue).cgs).filter fun n => !s.teRetired n
    (∀ n ∈ now, (s.te n).reqs.length + ceilDiv rs.length now.length ≤ 4096) →
    ∀ c, z.cmdOf h = some c → es ≠ [] → (∀ r ∈ rs, tableOpBad r = none) →
      exec (.tableOp h rs) s = .next ((rs.zipIdx.foldl (fun v e => v.updTe (es.getD (e.2 % es.length) 0) fun x => { x with
        reqs := x.reqs ++ [{ req := e.1, ptn := h.ptn, queue := h.queue, seq := c.hdr.seq, item := e.2 }] }) z).settle h)

/-- DISTILL_STEP, EVAL, FWD_MB, BWD_MB, MB_RELEASE and UPDATE. -/
def Obligations.TrainingCommands : Prop :=
  (∀ (s u : State) (h : Hdr) (b : StepBlock) (e : ProgBlock) (c : CmdRec),
    let starts := fun (i : Instr) (op : W16) (eval : Bool) =>
      s.startsNow h op i = some u → u.startCheck h i = none →
      let z := u.open' h ((u.ptn h.ptn).itemsOf i)
      let x := z.ptn h.ptn
      z.cmdOf h = some c →
      (h.expert = false → u.basicCheck h b eval = none →
        ∀ v r, z.readContact h.ptn (basicRun c.hdr b eval (((x.model? b.student.toNat).map fun m => m.sets.length).getD 0)) = (v, .ok r) →
        let buf := x.contactBuf r none
        let k : Train := { r with buf := buf, made := x.madeBytes r, slices := (x.placeBuf r (x.job h.queue).cgs buf).getD [] }
        (x.tapsBad k none = false →
          exec i s = .next ((((((v.addRun h.ptn k).scaleEv h b.contact).updPtn h.ptn (·.trim 0)).stageCmd h).pumpTrain h.ptn).settle h)) ∧
        (x.tapsBad k none = true → exec i s = .next ((((v.addRun h.ptn k).failOpen h St.eTargets).pumpTrain h.ptn).settle h))) ∧
      (h.expert = false → ∀ code, u.basicCheck h b eval = some code → exec i s = .next (u.reject h op code)) ∧
      (h.expert = true → s.versionWaits h e.program.toNat = false → u.expertCheck h e eval = none →
        let im := (x.prog? e.program.toNat).map (·.image)
        ∀ v r, z.readContact h.ptn { queue := c.hdr.queue, seq := c.hdr.seq, expert := true, eval := eval, contact := e.contact, opt := e.opt, versions := some (x.progVersions e.program.toNat) } = (v, .ok r) →
        let y := v.ptn h.ptn
        let buf := y.contactBuf r im
        let k : Train := { r with buf := buf, tapCols := y.tapDims r im, slices := (y.placeBuf r (y.job h.queue).cgs buf).getD [] }
        y.tapsBad k im = false →
        exec i s = .next (((((v.addRun h.ptn k).scaleEv h e.contact).refreshLoss h).startProg h e.program.toNat e.entry.toNat e.srStream e.binds).settle h))
    starts (.distillStep h b e) 0x301 false ∧ starts (.eval h b e) 0x306 true) ∧
  (∀ (s u : State) (h : Hdr) (e : ProgBlock), s.startsNow h 0x302 (.fwdMb h e) = some u → u.startCheck h (.fwdMb h e) = none →
    let y := s.ptn h.ptn
    let n := s.expertStash h.ptn
    let z := u.open' h ((u.ptn h.ptn).entryItems e)
    y.train.fits n = true → (z.ptn h.ptn).train.fits n = true → s.versionWaits h e.program.toNat = false →
    (y.train.mbs.any fun m => m.expert && m.id = e.mbId) = false → y.stashCheck 1 n = none → u.slicesCheck h e.program.toNat = none →
    ∀ c, z.cmdOf h = some c →
      let vs := y.progVersions e.program.toNat
      let v := State.setResult { z with fresh := z.fresh + 1 } h (({} : Losses).bytes 0 ((vs.head?.map (·.2.2)).getD 0))
      let m : Mb := { id := e.mbId, expert := true, queue := c.hdr.queue, seq := c.hdr.seq, versions := y.progVersions e.program.toNat, bytes := n
                      stash := (List.range n).map fun k => BitVec.ofNat 8 (Config.free z.fresh (1 + k)) }
      let w := (State.updTrain v h.ptn fun t => { t with mbs := t.mbs ++ [m] }).startProg h e.program.toNat e.entry.toNat e.srStream e.binds
      exec (.fwdMb h e) s = .next ((if (w.cmdOf h).any (·.isOver) then w.mbEnd h else w).settle h)) ∧
  (∀ (s u : State) (h : Hdr) (e : ProgBlock) (m : Mb), s.startsNow h 0x303 (.bwdMb h e) = some u → u.startCheck h (.bwdMb h e) = none →
    ((s.ptn h.ptn).train.mbs.find? fun m => m.expert && m.id = e.mbId) = some m → m.place = .resident → m.done.isSome = true → m.bwdRunning = false →
    u.slicesCheck h e.program.toNat = none →
    let z := ((u.open' h ((u.ptn h.ptn).entryItems e)).updPtn h.ptn fun x => { x with train := x.train.updMb m fun k => { k with bwdRunning := true } }).updCmd h
      fun c => { c with items := c.items.map fun i => { i with suspect := i.suspect || m.suspect } }
    (∀ c, m.failed = some c → exec (.bwdMb h e) s = .next (((z.failOpen h c).mbEnd h).settle h)) ∧
    (m.failed = none → let w := z.startProg h e.program.toNat e.entry.toNat e.srStream e.binds
      exec (.bwdMb h e) s = .next ((if (w.cmdOf h).any (·.isOver) then w.mbEnd h else w).settle h))) ∧
  (∀ (s u : State) (h : Hdr) (ids : List W32), s.runsNow h 0x304 = some u → ids ≠ [] → ids.length ≤ 256 →
    let find := fun (v : State) (id : W32) => (v.ptn h.ptn).train.mbs.find? fun m => m.expert && m.id = id
    let drop := fun (v : State) (m : Mb) => v.updTrain h.ptn fun t => { t with mbs := dropFirst (fun b => b = m) t.mbs }
    (∀ id m, ids = [id] → find u id = some m → exec (.mbRelease h ids) s = .next (((drop u m).replied h [doneItem] []).pumpTrain h.ptn)) ∧
    let r := ids.foldl (fun (a : State × List Item) id => match find a.1 id with
      | none => (a.1, a.2 ++ [failedItem St.eParam])
      | some m => (drop a.1 m, a.2 ++ [doneItem])) (u, [])
    exec (.mbRelease h ids) s = .next ((r.1.replied h r.2 []).pumpTrain h.ptn)) ∧
  ∀ (s u : State) (h : Hdr) (m k : W16) (adamw : Bool) (g : W32) (o : Opt) (w : WSet), s.startsNow h 0x305 (.update h m k adamw g o) = some u →
    u.startCheck h (.update h m k adamw g o) = none → (u.ptn h.ptn).set? m.toNat k.toNat = some w →
    (w.invalid = true → exec (.update h m k adamw g o) s = .next (u.reject h 0x305 St.eBusy)) ∧
    (w.invalid = false → g = 0xFFFFFFFF ∨ ((u.ptn h.ptn).group? g).isSome = true →
      let z := u.open' h 1
      ∀ c, z.cmdOf h = some c → exec (.update h m k adamw g o) s = .next (((z.addRun h.ptn {
        queue := c.hdr.queue, seq := c.hdr.seq, student := m.toNat, adamw := adamw, group := g, opt := o, contact := { family := 2 }, leftUpd := [k.toNat] }).refreshLoss h).settle h))

/-- CONTACT_FINALISE, STASH_FILL, STASH_FILL_COMPLETE and UPDATE_BUFFER_ACQUIRE. -/
def Obligations.TrainingEvents : Prop :=
  (∀ (s : State) (p : PtnId) (q : QueueId) (b : Nat) (c : CmdRec) (r : Train), s.running? p q = some c → let z := s.pumpRun p c.hdr
    z.runOf c.hdr = some r → (z.job p q).st = .running → z.starved p = false → b < r.blockCount → b ∉ r.blocks →
    (r.expert = true ∨ r.contact.family ≠ 2 ∧ r.mbCount ≠ 0 ∧ r.fwdOpen = true ∧ r.mbOf b = r.nextFwd) →
    (r.contact.family = 0 → r.inTurn ((z.ptn p).lanesOf r) b = true) →
    exec (.contactFinalise p q b) s = .next (((z.finalise p c.hdr r b).refreshLoss c.hdr).pumpTrain p)) ∧
  (∀ (s v : State) (p : PtnId) (m : Mb) (ms : List Mb), (s.ptn p).fillOrder = m :: ms → (s.job p m.queue).st ≠ .stopped → s.place p m.bytes = .room v →
    exec (.stashFill p m.id) s = .next (v.updTrain p fun t => t.updMb m fun m => { m with place := .filling })) ∧
  (∀ (s v : State) (p : PtnId) (id : W32) (m : Mb) (b : List Byte), ((s.ptn p).train.mbs.find? fun m => m.id = id && m.place = .filling) = some m →
    (s.job p m.queue).st ≠ .stopped → s.starved p = false → s.mbStash p m = (v, .ok b) →
    exec (.stashFillComplete p id) s = .next ((v.updTrain p fun t => t.updMb m fun m => { m with place := .resident, stash := b }).pumpTrain p)) ∧
  (∀ (s0 : State) (p : PtnId) (m k : W16) (r : Train) (c : CmdRec) (y : Model) (w : WSet), let s := s0.flushFolds p
    s.updateRun p m.toNat k.toNat = some r →
    let x := s.ptn p
    s.cmdOf (Hdr.ofTrain p r) = some c → x.model? r.student = some y → x.set? r.student k.toNat = some w → w.writing = false → (s.job p r.queue).st = .running →
    let run := exec (.updateBufferAcquire p m k) s0
    let item := r.updItem k.toNat
    (w.invalid = true → run = .next (s.endUpdate p c.hdr item (some k.toNat) 0 (some St.eBusy))) ∧
    (w.invalid = false →
      (x.refersTo r.student k.toNat w.targetVersion = true → run = .next (s.addSheet c.hdr fun c => { c with waited := true })) ∧
      (x.refersTo r.student k.toNat w.targetVersion = false →
        (r.group = 0xFFFFFFFF →
          let v := if s.bwdSuspect p c.hdr r then s.updCmd c.hdr fun c => { c with items := updNth (fun i => { i with suspect := true }) c.items item } else s
          run = .next ((v.clearBad p).updateAlone p c.hdr r k.toNat y.image w)) ∧
        (r.group ≠ 0xFFFFFFFF → ∀ g, x.group? r.group = some g → run = .next (s.updateGroup p c.hdr r k.toNat y.image w g))))) ∧
  (∀ (o : Opt) (g w m v : Nat), let n := (optStep o true g w m v).run'.1
    let f := fun a b => (b32.fmul a b).1
    let gs := f g o.gradScale.toNat
    n.2.1 = (b32.fadd (f o.b1.toNat m) (f o.c1.toNat gs)).1 ∧ n.2.2 = (b32.fadd (f o.b2.toNat v) (f o.c2.toNat (f gs gs))).1 ∧
    n.1 = (b32.fsub (b32.fsub w (f o.lrT.toNat (b32.fdiv n.2.1 (b32.fadd (b32.fsqrt n.2.2).1 o.eps.toNat).1).1)).1 (f o.wd.toNat w)).1) ∧
  ∀ (w : WSet) (half : Bool), (w.advance half).version = w.version + 1 ∧ (w.advance half).writing = false ∧ (w.advance half).updated = true

/-- GEN_SUBMIT, GEN_CANCEL, the budget commands, GEN_STEP, STEP_COMMIT and CHUNK_COMPLETE. -/
def Obligations.Serving : Prop :=
  (∀ (s u : State) (h : Hdr) (p e : W16) (rs : List GenReq), s.startsNow h 0x401 (.genSubmit h p e rs) = some u → u.startCheck h (.genSubmit h p e rs) = none →
    rs ≠ [] → rs.length ≤ 256 →
    let z := u.open' h rs.length
    ∀ c, z.cmdOf h = some c →
      let prog := if c.hdr.expert && p ≠ 0xFFFF then (((z.ptn h.ptn).prog? p.toNat).map fun q => q.hash ++ leBytes 2 e.toNat).getD [] else []
      exec (.genSubmit h p e rs) s = .next ((rs.zipIdx.foldl (fun v k => match v.openStream c.hdr k.2 k.1 prog with
        | (v, .error code) => v.closeItem h k.2 (some code)
        | (v, .ok _) => v) ((z.setResult h (List.replicate rs.length (List.replicate 20 0 ++ leBytes 4 0xFFFFFFFF ++ List.replicate 8 0)).flatten).stageCmd h)).settle h)) ∧
  (∀ (s u : State) (h : Hdr) (seq : W32) (i : W16) (c : CmdRec) (t : Stream), s.runsNow h 0x402 = some u → u.cmdOf h = some c →
    ((u.ptn h.ptn).serve.streams.find? fun t => t.queue = c.hdr.queue && t.seq = seq && t.item = i.toNat) = some t →
    let v := u.updStream h.ptn t.id fun t => { t with cancelled := true }
    exec (.genCancel h seq i) s = .next (State.replied (if t.seated then v else v.closeStream h.ptn { t with cancelled := true } none none) h [doneItem] [])) ∧
  (∀ (s u : State) (h : Hdr) (rs : List BudgetRec), s.runsNow h 0x403 = some u → rs ≠ [] → rs.length ≤ 256 →
    let r := rs.foldl (fun (a : Serve × List Item) b => ((a.1.setBudget b).1, a.2 ++ [(a.1.setBudget b).2])) ((u.ptn h.ptn).serve, [])
    exec (.budgetSet h rs) s = .next ((u.updPtn h.ptn fun x => Ptn.wake { x with serve := r.1.markHeld } x).replied h r.2 [])) ∧
  (∀ (s u : State) (h : Hdr) (first n : W16), s.runsNow h 0x404 = some u → n ≠ 0 → n.toNat ≤ 1024 →
    let bs := (u.ptn h.ptn).serve.budgets
    exec (.budgetRead h first n) s = .next (u.replied h [doneItem] (leBytes 4 bs.length ++ leBytes 4 0 ++ ((bs.drop first.toNat).take n.toNat).flatMap Budget.bytes))) ∧
  (∀ (s : State) (p : PtnId) (tag : W32), exec (.budgetRefill p tag) s = .next (s.updPtn p fun x => Ptn.wake { x with serve := Serve.markHeld (x.serve.updBudget tag fun b => { b with
    balance := toBalance (min (b.balance.toInt + b.tokens.toNat) b.tokens.toNat) }) } x)) ∧
  (∀ (s : State) (p : PtnId) (m : W16), let x := s.ptn p
    (x.model? m.toNat).isSome = true → m.toNat ∉ x.serve.inStep → s.storeFull (some p) = false →
    let ts := (s.readyStreams p m.toNat).take (max 1 x.serve.maxStreams.toNat)
    let w := ts.foldl (fun w t => w.seat p t) s
    (ts = [] → exec (.genStep p m) s = .next s) ∧
    (ts ≠ [] → exec (.genStep p m) s = .next (if (w.ptn p).serve.streams.any fun t => t.seated && t.model = m.toNat
      then (w.updServe p fun v => { v with inStep := v.inStep ++ [m.toNat] }).updPtn p fun x => x.stage (x.expertSet m.toNat) else w))) ∧
  (∀ (s : State) (p : PtnId) (m : W16) (now : Nat), let x := s.ptn p
    let ts := (x.serve.streams.filter fun t => t.seated && t.model = m.toNat).foldl (fun a t => insSeat t a) []
    let z := s.updServe p fun v => { v with inStep := v.inStep.filter (· ≠ m.toNat) }
    m.toNat ∈ x.serve.inStep → (∀ t ∈ ts, (s.job p t.queue).st = .running) → s.starved p = false → s.storeFull (some p) = false →
      exec (.stepCommit p m none now) s = .next (ts.foldl (fun w t => w.commitStream p t now) z) ∧
      ∀ c, exec (.stepCommit p m (some c) now) s = .next (ts.foldl (fun w t =>
        (w.updStream p t.id fun t => { t with seated := false }).closeStream p { t with seated := false } (some c) (some now)) z)) ∧
  (∀ (s : State) (p : PtnId) (t : Stream) (now : Nat), s.chunkHead p = some t → s.storeFull (some p) = false →
    (∀ c, exec (.chunkComplete p t.id (some c) now) s = .next (s.closeStream p t (some c) (some now))) ∧
    let x := s.ptn p
    let vs := t.versions.getD (x.genVersions t)
    let n := min t.chunkMax (t.toFill - t.filled)
    let z := s.updServe p fun v => { v with streams := v.streams.map fun u => if u.queue = t.queue && u.seq = t.seq then { u with versions := some vs } else u }
    (t.versions = none → x.writingAny vs = false) → s.starved p = false →
      (z.takePages p t.model (t.filled + n) t.pages = none →
        exec (.chunkComplete p t.id none now) s = .next (z.closeStream p { t with versions := some vs } (some St.eKvFull) (some now))) ∧
      ∀ v pages, z.takePages p t.model (t.filled + n) t.pages = some (v, pages) →
        exec (.chunkComplete p t.id none now) s = .next (v.runChunk p { t with versions := some vs, pages := pages } n now)) ∧
  (∀ (s v : State) (p : PtnId) (t : Stream) (n now : Nat) (r : Pass), t.filled + n < t.toFill →
    s.pass p t t.model t.pages true (t.known.take (t.filled + n)) n [] = (v, .ok r) →
    let us := v.jobUnits p t.queue
    let z := v.updServe p fun v => (Serve.charge { v with streams := updFirst (fun u => u.id = t.id) (fun _ => { t with filled := t.filled + n }) v.streams }
      t.req.customerTag (t.filled + n - max t.filled t.again)).process { t with filled := t.filled + n } n
    s.runChunk p t n now = ((((z.addUnits (t.hdr p) [t.item] us).noteTokens (t.hdr p) t.item t.toks.length us).addSheet (t.hdr p) fun c => (c.addEv r.ev).addEv {}).monitor p t.id now)) ∧
  ∀ (depth since mx d : Nat), (0 < d → nextDepth depth since mx d 0 = (depth / 2, 0)) ∧
    ∀ a, (d = 0 ∨ a ≠ 0) → (since + 1 < 64 → nextDepth depth since mx d a = (depth, since + 1)) ∧ (64 ≤ since + 1 → nextDepth depth since mx d a = (min mx (max 1 (2 * depth)), 0))

/-- SLICE_END, STOP_BATH_HANDOVER and RESTORE_COMPLETE. -/
def Obligations.SlicesAndRestores : Prop :=
  (∀ (s : State) (p : PtnId) (q : QueueId) (ns : Nat), (s.job p q).st = .running → (s.ptn p).inHolder q = false →
    let z := s.charge p q ns
    (∀ c, z.running? p q = some c → c.np = false → exec (.sliceEnd p q ns) s = .next (z.updPtn p fun x => (x.latch.sliceCompare q).schedule)) ∧
    (∀ c, z.running? p q = some c → c.np = true → (s.job p q).overrunning = false →
      let v := z.updJob p q fun j => { j with overrunning := true, overruns := satInc j.overruns }
      exec (.sliceEnd p q ns) s = .next (State.updCmd { v with fresh := v.fresh + 1 } c.hdr fun c => { c with overrunUs := BitVec.ofNat 32 (Config.free v.fresh 0) }))) ∧
  (∀ (x : Ptn) (q c : QueueId) (r : List QueueId), x.candidates = c :: r →
    (((x.job c).share ≠ 0 ∧ (x.job q).share = 0) ∨ (((x.job c).share = 0 ↔ (x.job q).share = 0) ∧ (x.job c).vt.toNat < (x.job q).vt.toNat) →
      x.sliceCompare q = x.updJob q fun j => { j with st := .stopping, stopFor := some c }) ∧
    (((x.job c).share = 0 ∧ (x.job q).share ≠ 0) ∨ (((x.job c).share = 0 ↔ (x.job q).share = 0) ∧ (x.job q).vt.toNat ≤ (x.job c).vt.toNat) → x.sliceCompare q = x)) ∧
  (∀ (s : State) (p : PtnId) (q : QueueId) (ns : Nat), (s.job p q).st = .stopping → s.drained p q = true →
    let z := s.charge p q ns
    let j := z.job p q
    (∀ h ∈ (z.ptn p).holders, ¬(h.holder = q ∧ h.running = true)) → (∀ h ∈ (s.ptn p).holders, ¬(h.holder = q ∧ h.running = true)) → ∀ c, z.running? p q = some c →
      let saved := ((mcsOf j.cgs).filter fun m => !z.mcRetired m).map z.saveCore
      let v := (mcsOf j.cgs).foldl (fun v m => (v.clearThreads m).updMc m MCore.idle) z
      ∃ t, exec (.stopBathHandover p q ns) s = .next t ∧ t.ths = v.ths ∧ t.mcs = v.mcs ∧
        ∃ w : Ptn, t.ptn p = w.schedule ∧ (w.job q).st = .stopped ∧ (w.job q).cgs = 0 ∧ (w.job q).saved = saved ∧ (w.job q).preempts = satInc j.preempts) ∧
  (∀ (s : State) (p : PtnId) (q : QueueId) (ns us : Nat), (s.job p q).st = .restoring ∨ (s.job p q).st = .running → (∀ e ∈ s.tes, ∀ w ∈ e.2.reqs, ¬(w.ptn = p ∧ w.queue = q)) →
    let z := s.charge p q ns
    ((s.job p q).st = .restoring → ∀ c, (z.restore p q).running? p q = some c →
      exec (.restoreComplete p q ns us) s = .next (((z.restore p q).stageCmd c.hdr).updCmd c.hdr (·.countSwitch us))) ∧
    ((s.job p q).st = .running → ∀ c, z.running? p q = some c → exec (.restoreComplete p q ns us) s = .next (z.updCmd c.hdr (·.countSwitch us)))) ∧
  (∀ (c : CmdRec) (us : Nat), (c.switching = true → (c.countSwitch us).switchUs = satInc c.switchUs us ∧ (c.countSwitch us).switching = false) ∧ (c.switching = false → c.countSwitch us = c))

/-- CKPT_SAVE, CKPT_RESTORE, PARTNER_SET, NEGATIVE_SHIP and their timeouts. -/
def Obligations.FixerCommands : Prop :=
  (∀ (s u : State) (h : Hdr) (store : Endpoint) (a b : Bool) (ms : W16), s.fixerFull h.ptn = false →
    (s.fenced h 0x601).startsNow h 0x601 (.ckptSave h store a b ms) = some u →
    a = true ∨ b = true → (a = true → endpointBad store false = false ∧ store.kind = 2) → (ms = 0 ∨ 100 ≤ ms.toNat ∧ ms.toNat ≤ 60000) →
    (u.saveBusy h.ptn b = none → exec (.ckptSave h store a b ms) s = .next (((u.open' h (b2n a + b2n b)).saveNow h store a b).settle h)) ∧
    (∀ c, u.saveBusy h.ptn b = some c → exec (.ckptSave h store a b ms) s = .next (u.reject h 0x601 c))) ∧
  (∀ (s u : State) (h : Hdr) (src : Endpoint) (n : W32), s.fixerFull h.ptn = false → (s.fenced h 0x602).startsNow h 0x602 (.ckptRestore h src n) = some u →
    endpointBad src false = false →
    (u.restoreBusy h.ptn = true → exec (.ckptRestore h src n) s = .next (u.reject h 0x602 St.eBusy)) ∧
    (u.restoreBusy h.ptn = false →
      let z := u.open' h 1
      let r : Restore := { hdr := h, source := src, num := n }
      exec (.ckptRestore h src n) s = .next ((if (z.askRestore h.ptn r 0 160).2 then (z.askRestore h.ptn r 0 160).1.setRestore h.ptn (some r)
        else z.closeItem h 0 (some St.eParam)).settle h))) ∧
  (∀ (s u : State) (h : Hdr) (role : Byte) (o : Bool) (peer : Endpoint) (a n : W64), s.startsNow h 0x603 (.partnerSet h role o peer a n) = some u →
    (o = true → role = 0) → endpointBad peer true = false → peer.kind = 1 →
    let z := u.open' h 1
    let area : AreaRole := { src := peer, addr := a.toNat, bytes := n.toNat }
    (role = 1 → peer.node ≠ 0x1FFF → n.toNat % (2 * gib) = 0 → (u.ptn h.ptn).areaOk a.toNat n.toNat = true →
      exec (.partnerSet h role o peer a n) s = .next (((z.updFix h.ptn fun f => { f with hold := some area }).closeItem h 0 none).settle h)) ∧
    (role = 2 → peer.node ≠ 0x1FFF → (u.ptn h.ptn).areaOk a.toNat n.toNat = true →
      exec (.partnerSet h role o peer a n) s = .next (((z.updFix h.ptn fun f => { f with neg := some area }).closeItem h 0 none).settle h)) ∧
    (role = 1 → peer.node = 0x1FFF → exec (.partnerSet h role o peer a n) s = .next (((z.updFix h.ptn fun f => { f with hold := none }).closeItem h 0 none).settle h)) ∧
    (role = 2 → peer.node = 0x1FFF → exec (.partnerSet h role o peer a n) s = .next (((z.updFix h.ptn fun f => { f with neg := none }).closeItem h 0 none).settle h)) ∧
    (role = 0 → (s.ptn h.ptn).fix.hello = none → peer.node = 0x1FFF → exec (.partnerSet h role o peer a n) s = .next (((z.updFix h.ptn fun f => { f with
      partner := {}, peer := { node := 0x1FFF } }).closeItem h 0 none).settle h)) ∧
    (role = 0 → (s.ptn h.ptn).fix.hello = none → peer.node ≠ 0x1FFF →
      let r := z.fixSend h.ptn peer 0x25 0 0 true (leBytes 8 z.pins.feedId.toNat ++ leBytes 8 (z.copySize h.ptn))
      exec (.partnerSet h role o peer a n) s = .next ((if r.2 then r.1.updFix h.ptn fun f => { f with hello := some (h, peer, o) }
        else z.closeItem h 0 (some St.eParam)).settle h))) ∧
  (∀ (s u : State) (h : Hdr) (m k : W16) (dest : Endpoint) (y : Model) (w : WSet), s.fixerFull h.ptn = false → (s.ptn h.ptn).fix.ship = none →
    (∀ x, (s.ptn h.ptn).set? m.toNat k.toNat = some x → x.writing = false ∨ x.two = true) → s.startsNow h 0x604 (.negativeShip h m k dest) = some u →
    endpointBad dest false = false → dest.kind = 1 → (u.ptn h.ptn).model? m.toNat = some y → (u.ptn h.ptn).set? m.toNat k.toNat = some w → w.invalid = false →
    let z := u.open' h 1
    (z.ptn h.ptn).model? m.toNat = some y → (z.ptn h.ptn).set? m.toNat k.toNat = some w →
    (∀ v c, z.pRead h.ptn Who.fixer y.addr y.bytes = (v, .error c) → exec (.negativeShip h m k dest) s = .next ((v.closeItem h 0 (some c)).settle h)) ∧
    (∀ v b, z.pRead h.ptn Who.fixer y.addr y.bytes = (v, .ok b) →
      let im := negativeImage b y.image w
      let v1 : State := { v with nextXfer := v.nextXfer + 1 }
      let r := v1.fixSend h.ptn dest 0x27 v.nextXfer 0 false im
      (r.2 = false → exec (.negativeShip h m k dest) s = .next ((v.closeItem h 0 (some St.eParam)).settle h)) ∧
      (r.2 = true →
        let e := (r.1.fixSend h.ptn dest 0x28 v.nextXfer 0 true (leBytes 8 im.length ++ sha256 im)).1
        exec (.negativeShip h m k dest) s = .next (((e.updFix h.ptn fun f => { f with
          ship := some { hdr := h, num := v.nextXfer, total := im.length, digest := sha256 im, dest := dest } }).setResult h (leBytes 8 w.version.toNat)).settle h)))) ∧
  ∀ (s : State) (p : PtnId),
    (∀ b c, ((s.ptn p).fix.copies.find? fun c => c.partner = b) = some c → exec (.copyTimeout p b) s = .next (s.endCopy p c (some St.eHwFault))) ∧
    (∀ r, (s.ptn p).fix.restore = some r → exec (.restoreSourceTimeout p) s = .next (s.endRestore p r (some St.eHwFault))) ∧
    (∀ c e o, (s.ptn p).fix.hello = some (c, e, o) → exec (.helloTimeout p) s = .next (s.endHello p c (some St.eParam)))

/-- CK_DATA, CK_END, CK_ACK, CK_READ, CK_RDATA, HELLO, HELLO_ACK, NEG_DATA, NEG_END and NEG_ACK. -/
def Obligations.FixerPackets : Prop :=
  ∀ (s : State) (n : QpId) (h : QHdr), (s.qp n).st = 2 →
    let p := h.dstPtn
    let f := (s.ptn p).fix
    (s.roleWaits h true = false → ∀ bs, exec (.ckData n h bs) s = .next (State.ackPkt (if roleOf f.hold h = none then s.dropPkt n else s.roleData n h true bs) n h)) ∧
    (s.roleWaits h false = false → ∀ bs, exec (.negData n h bs) s = .next (State.ackPkt (if roleOf f.neg h = none then s.dropPkt n else s.roleData n h false bs) n h)) ∧
    (∀ (num : W32) (t : W64) (d : List Byte),
      (roleOf f.hold h = none → exec (.ckEnd n h num t d) s = .next (State.ackPkt (s.fixSend p (replyTo none h) 0x22 h.xfer 0 true (State.ackBody true num 3 [])).1 n h)) ∧
      ∀ a, roleOf f.hold h = some a → let z := a.start h.xfer
        pktTag h ∉ z.seen → s.noSlot p (State.roleRoom true z).1 1 = false → let r := s.roleSize p n true { z with seen := z.seen ++ [pktTag h], fin := some d } t.toNat
        exec (.ckEnd n h num t d) s = .next (State.ackPkt (r.1.roleEnd p true r.2) n h)) ∧
    (∀ (t : W64) (d : List Byte),
      (roleOf f.neg h = none → exec (.negEnd n h t d) s = .next (State.ackPkt (s.fixSend p (replyTo none h) 0x29 h.xfer 0 true (State.ackBody false h.xfer 3 [])).1 n h)) ∧
      ∀ a, roleOf f.neg h = some a → let z := a.start h.xfer
        pktTag h ∉ z.seen → s.noSlot p (State.roleRoom false z).1 1 = false → let r := s.roleSize p n false { z with seen := z.seen ++ [pktTag h], fin := some d } t.toNat
        exec (.negEnd n h t d) s = .next (State.ackPkt (r.1.roleEnd p false r.2) n h)) ∧
    (∀ (num : W32) (o : W64) (len : Nat) (a : AreaRole), f.hold = some a → (a.half num).complete = true → (a.half num).num = num → o.toNat + len ≤ (a.half num).total →
      s.noSlot p (a.base num + o.toNat) len = false →
      (∀ v bs, s.pRead p (Who.fixer.via n) (a.base num + o.toNat) len = (v, .ok bs) →
        exec (.ckRead n h num o len) s = .next (State.ackPkt (v.fixSend p (replyTo none h) 0x24 h.xfer o true bs).1 n h))) ∧
    (∀ (r : Restore) (bs : List Byte), f.restore = some r → r.source.node = h.srcNode → (r.source.kind = 1 → r.source.ptn = h.srcPtn) → h.offset.toNat + bs.length ≤ r.want →
      exec (.ckRdata n h bs) s = .next (State.ackPkt (s.restoreStep p { r with
        got := (s.clear h bs).zipIdx.foldl (fun t e => t.put none (h.offset.toNat + e.2) (some e.1)) r.got }) n h)) ∧
    (∀ (fd : BitVec 4) (sz : W64), exec (.hello n h fd sz) s = .next (State.ackPkt (s.fixSend p (replyTo (roleOf f.hold h) h) 0x26 h.xfer 0 true
      (leBytes 4 s.pins.feedId.toNat ++ leBytes 4 (if (roleOf f.hold h).isSome then 0 else 3) ++ leBytes 8 (match roleOf f.hold h with | some a => a.bytes / 2 | none => 0))).1 n h)) ∧
    (∀ (c : Hdr) (peer : Endpoint) (o : Bool) (fd : BitVec 4) (st : W16) (half : W64), f.hello = some (c, peer, o) → peer.node = h.srcNode → peer.ptn = h.srcPtn →
      (st ≠ 0 ∨ fd = s.pins.feedId ∧ o = false → exec (.helloAck n h fd st half) s = .next (State.ackPkt (s.endHello p c (some St.eParam)) n h)) ∧
      (st = 0 → fd ≠ s.pins.feedId ∨ o = true → exec (.helloAck n h fd st half) s = .next (State.ackPkt ((s.updFix p fun f => { f with
        partner := { node := peer.node, ptn := peer.ptn, feed := fd, valid := true, nonIndep := decide (fd = s.pins.feedId), override := o }, peer := peer }).endHello p c none) n h))) ∧
    (∀ (num : W32) (st : W16) (d : List Byte) (c : Copy), (f.copies.find? fun c => c.num = num && c.dest.node = h.srcNode && (!c.partner || c.dest.ptn = h.srcPtn)) = some c →
      exec (.ckAck n h num st d) s = .next (State.ackPkt (s.endCopy p c (if st = 0 then none else some St.eHwFault)) n h)) ∧
    (∀ (st : W16) (c : Copy), f.ship = some c → c.dest.node = h.srcNode → c.dest.ptn = h.srcPtn →
      exec (.negAck n h st) s = .next (State.ackPkt (((s.updFix p fun f => { f with ship := none }).closeItem c.hdr c.item (if st = 0 then none else some St.eHwFault)).settle c.hdr) n h)) ∧
    (f.hello = none → ∀ fd st half, exec (.helloAck n h fd st half) s = .next (State.ackPkt (s.dropPkt n) n h)) ∧
    (f.ship = none → ∀ st, exec (.negAck n h st) s = .next (State.ackPkt (s.dropPkt n) n h)) ∧ (f.restore = none → ∀ bs, exec (.ckRdata n h bs) s = .next (State.ackPkt (s.dropPkt n) n h))

/-- R41: maximumNumber and minimumNumber, on codes. -/
def Obligations.MaximumAndMinimum : Prop :=
  ∀ g : LFmt, g = b16 ∨ g = b32 ∨ g = a20 →
    (∀ a b : Nat, a < 2 ^ (g.sbit + 1) → b < 2 ^ (g.sbit + 1) →
      let x := g.decode a
      let y := g.decode b
      (x.isNan = true → y.isNan = true → g.fmax a b = g.qnan ∧ g.fmin a b = g.qnan) ∧
      (x.isNan = true → y.isNan = false → g.fmax a b = b ∧ g.fmin a b = b) ∧
      (x.isNan = false → y.isNan = true → g.fmax a b = a ∧ g.fmin a b = a) ∧
      (x.isNan = false → y.isNan = false →
        (g.fmax a b = a ∨ g.fmax a b = b) ∧ x.le (g.decode (g.fmax a b)) = true ∧ y.le (g.decode (g.fmax a b)) = true ∧
        (g.fmin a b = a ∨ g.fmin a b = b) ∧ (g.decode (g.fmin a b)).le x = true ∧ (g.decode (g.fmin a b)).le y = true)) ∧
    let minus := 2 ^ g.sbit
    g.fmax 0 minus = 0 ∧ g.fmax minus 0 = 0 ∧ g.fmin 0 minus = minus ∧ g.fmin minus 0 = minus

/-- R444: the MEN register and the registers of retired units. -/
def Obligations.RetiredUnitRegisters : Prop :=
  let saf : Nat := 0xF0000040000
  (∀ s : State, s.peek (saf + 0x008) = s.saf.nextMen ∧ s.takeMen.peek (saf + 0x008) = s.peek (saf + 0x008) + 1 ∧
    (∀ (h : Hdr) (m : Msg), h.steward = true → s.sendReply h m = s.takeMen.deliver (replyPorts h.replyPort h.port) { m with order := s.peek (saf + 0x008) }) ∧
    (∀ i b : Nat, i < 4 → b < 64 → (s.peek (saf + 0x100 + 8 * i)).getLsbD b = s.mcRetired (64 * i + b)) ∧
    (∀ n : Nat, n < 64 → (s.peek (saf + 0x120)).getLsbD n = s.teRetired n) ∧
    ∀ (h : Hdr) (a : W64) (v : RegVal), h.steward = true → a.toNat = saf + 0x008 ∨ a.toNat = saf + 0x120 ∨ (∃ i, i < 4 ∧ a.toNat = saf + 0x100 + 8 * i) →
      s.regPut h a v = (s, none)) ∧
  State.reset.peek (saf + 0x008) = 1 ∧ State.reset.peek (saf + 0x120) = 0 ∧ ∀ i : Nat, i < 4 → State.reset.peek (saf + 0x100 + 8 * i) = 0
end

