-- ==== Sys2Proof/Laws/Tab.lean ====
section
/-! SUPPORT. Laws of tables: what a write leaves to be read, and that every operation keeps the canonical form. -/

namespace Sys2Proof.Machine.Tab

variable {α : Type}

@[simp] theorem get_nil (d : α) (k : Nat) : Tab.get d [] k = d := rfl

/-- Every key listed is above `lo`. -/
def Above (lo : Nat) (t : Tab α) : Prop := ∀ e ∈ t, lo < e.1

theorem get_above {d : α} {t : Tab α} {lo k : Nat} (h : Above lo t) (hk : k ≤ lo) : Tab.get d t k = d := by
  induction t with
  | nil => rfl
  | cons e r ih =>
    obtain ⟨a, v⟩ := e
    have ha : lo < a := h (a, v) (by simp)
    have hr : Above lo r := fun e he => h e (by simp [he])
    have hne : ¬ a = k := by omega
    simp only [Tab.get, if_neg hne]
    exact ih hr

variable [DecidableEq α]

theorem wfFrom_cons {d : α} {lo : Option Nat} {a : Nat} {v : α} {r : Tab α} :
    wfFrom d lo ((a, v) :: r) = true ↔ (∀ l, lo = some l → l < a) ∧ v ≠ d ∧ wfFrom d (some a) r = true := by
  cases lo <;> simp [wfFrom, and_assoc]

theorem wfFrom_weaken {d : α} {lo : Option Nat} {l : Nat} {t : Tab α} (h : wfFrom d (some l) t = true) (hl : ∀ m, lo = some m → m ≤ l) :
    wfFrom d lo t = true := by
  cases t with
  | nil => rfl
  | cons e r =>
    obtain ⟨a, v⟩ := e
    rw [wfFrom_cons] at h ⊢
    exact ⟨fun m hm => by have := h.1 l rfl; have := hl m hm; omega, h.2⟩

theorem above_of_wfFrom {d : α} {l : Nat} {t : Tab α} (h : wfFrom d (some l) t = true) : Above l t := by
  induction t generalizing l with
  | nil => intro e he; cases he
  | cons e r ih =>
    obtain ⟨a, v⟩ := e
    rw [wfFrom_cons] at h
    intro e he
    rcases List.mem_cons.mp he with rfl | he
    · exact h.1 l rfl
    · have := ih h.2.2 e he; have := h.1 l rfl; omega

/-- A write keeps the canonical form, above any bound below the key. -/
theorem wfFrom_put {d : α} {lo : Option Nat} {t : Tab α} {k : Nat} (v : α) (h : wfFrom d lo t = true) (hk : ∀ l, lo = some l → l < k) :
    wfFrom d lo (t.put d k v) = true := by
  induction t generalizing lo with
  | nil =>
    unfold Tab.put; split
    · rfl
    · rw [wfFrom_cons]; exact ⟨hk, ‹_›, rfl⟩
  | cons e r ih =>
    obtain ⟨a, x⟩ := e
    rw [wfFrom_cons] at h
    unfold Tab.put
    split
    · split
      · rw [wfFrom_cons]; exact h
      · rw [wfFrom_cons, wfFrom_cons]
        exact ⟨hk, ‹_›, fun l hl => by cases hl; assumption, h.2⟩
    · split
      · split
        · exact wfFrom_weaken h.2.2 fun m hm => by have := h.1 m hm; omega
        · rw [wfFrom_cons]; rename_i he _; subst he; exact ⟨hk, ‹_›, h.2.2⟩
      · rw [wfFrom_cons]
        exact ⟨h.1, h.2.1, ih h.2.2 fun l hl => by cases hl; omega⟩

theorem wf_nil (d : α) : Tab.wf d [] = true := rfl

theorem wf_put {d : α} {t : Tab α} (k : Nat) (v : α) (h : t.wf d = true) : (t.put d k v).wf d = true :=
  wfFrom_put v h fun _ hl => by cases hl

theorem wf_upd {d : α} {t : Tab α} (k : Nat) (f : α → α) (h : t.wf d = true) : (t.upd d k f).wf d = true := wf_put k _ h

theorem wf_putList {d : α} {t : Tab α} (k : Nat) (vs : List α) (h : t.wf d = true) : (t.putList d k vs).wf d = true := by
  induction vs generalizing t k with
  | nil => exact h
  | cons v vs ih => exact ih (k + 1) (wf_put k v h)

theorem wfFrom_dropKeys {d : α} {lo : Option Nat} {t : Tab α} (p : Nat → Bool) (h : wfFrom d lo t = true) : wfFrom d lo (t.dropKeys p) = true := by
  induction t generalizing lo with
  | nil => rfl
  | cons e r ih =>
    obtain ⟨a, v⟩ := e
    rw [wfFrom_cons] at h
    unfold dropKeys
    split
    · exact wfFrom_weaken (ih h.2.2) fun m hm => by have := h.1 m hm; omega
    · rw [wfFrom_cons]; exact ⟨h.1, h.2.1, ih h.2.2⟩

theorem wf_dropKeys {d : α} {t : Tab α} (p : Nat → Bool) (h : t.wf d = true) : (t.dropKeys p).wf d = true := wfFrom_dropKeys p h

theorem wfFrom_mapVals {d : α} {lo : Option Nat} {t : Tab α} (f : α → α) (h : wfFrom d lo t = true) : wfFrom d lo (t.mapVals d f) = true := by
  induction t generalizing lo with
  | nil => rfl
  | cons e r ih =>
    obtain ⟨a, v⟩ := e
    rw [wfFrom_cons] at h
    unfold mapVals
    split
    · exact wfFrom_weaken (ih h.2.2) fun m hm => by have := h.1 m hm; omega
    · rw [wfFrom_cons]; exact ⟨h.1, ‹_›, ih h.2.2⟩

theorem wf_mapVals {d : α} {t : Tab α} (f : α → α) (h : t.wf d = true) : (t.mapVals d f).wf d = true := wfFrom_mapVals f h

theorem get_cons (d : α) (a : Nat) (x : α) (r : Tab α) (k : Nat) : Tab.get d ((a, x) :: r) k = if a = k then x else Tab.get d r k := rfl

/-- What is read at a key after a write at a key, on a table in canonical form. -/
theorem get_put {d : α} {lo : Option Nat} {t : Tab α} (k j : Nat) (v : α) (h : wfFrom d lo t = true) :
    (t.put d k v).get d j = if j = k then v else t.get d j := by
  induction t generalizing lo with
  | nil =>
    unfold Tab.put
    by_cases hv : v = d
    · rw [if_pos hv, get_nil]; split
      · exact hv.symm
      · rfl
    · rw [if_neg hv, get_cons]; simp only [eq_comm]
  | cons e r ih =>
    obtain ⟨a, x⟩ := e
    rw [wfFrom_cons] at h
    have habove := above_of_wfFrom h.2.2
    unfold Tab.put
    by_cases hka : k < a
    · rw [if_pos hka]
      have hk : Tab.get d ((a, x) :: r) k = d := by
        rw [get_cons, if_neg (by omega)]; exact get_above habove (by omega)
      by_cases hv : v = d
      · rw [if_pos hv]; split
        · rename_i hj; rw [hj, hk, hv]
        · rfl
      · rw [if_neg hv, get_cons]; simp only [eq_comm]
    · rw [if_neg hka]
      by_cases he : k = a
      · rw [if_pos he]
        have hr : j ≠ k → Tab.get d ((a, x) :: r) j = Tab.get d r j := fun hj => by rw [get_cons, if_neg (by omega)]
        by_cases hv : v = d
        · rw [if_pos hv]; split
          · rename_i hj; rw [hv]; exact get_above habove (by omega)
          · rename_i hj; exact (hr hj).symm
        · rw [if_neg hv, get_cons]
          by_cases hj : j = k
          · rw [if_pos hj.symm, if_pos hj]
          · rw [if_neg (Ne.symm hj), if_neg hj, hr hj]
      · rw [if_neg he, get_cons, get_cons, ih h.2.2]
        by_cases hj : a = j
        · rw [if_pos hj, if_pos hj, if_neg (by omega)]
        · rw [if_neg hj, if_neg hj]

/-- A write at one key leaves every other key, whatever the table. -/
theorem get_put_ne {d : α} (t : Tab α) (k j : Nat) (v : α) (hj : j ≠ k) : (t.put d k v).get d j = t.get d j := by
  induction t with
  | nil => unfold Tab.put; split <;> simp [Tab.get, hj.symm]
  | cons a r ih =>
    obtain ⟨a, x⟩ := a
    unfold Tab.put
    split
    · split <;> simp [Tab.get, hj.symm]
    · split
      · subst_vars; split <;> simp [Tab.get, hj.symm]
      · simp only [Tab.get]; split <;> simp_all

/-- A value other than the default reads back, whatever the table. -/
theorem get_put_eq {d : α} (t : Tab α) (k : Nat) (v : α) (hv : v ≠ d) : (t.put d k v).get d k = v := by
  induction t with
  | nil => simp [Tab.put, Tab.get, hv]
  | cons a r ih =>
    obtain ⟨a, x⟩ := a
    unfold Tab.put
    split
    · simp [Tab.get, hv]
    · split
      · subst_vars; simp [Tab.get, hv]
      · rename_i h1 h2; simp only [Tab.get]; rw [if_neg (fun e => h2 e.symm)]; exact ih

theorem get_put_same {d : α} {t : Tab α} (k : Nat) (v : α) (h : t.wf d = true) : (t.put d k v).get d k = v := by
  rw [get_put k k v h, if_pos rfl]

theorem get_put_other {d : α} {t : Tab α} {k j : Nat} (v : α) (h : t.wf d = true) (hj : j ≠ k) : (t.put d k v).get d j = t.get d j := by
  rw [get_put k j v h, if_neg hj]

/-- A list written at a key leaves every other key as it was. -/
theorem get_putList_out {d : α} {t : Tab α} (k j : Nat) (vs : List α) (h : t.wf d = true) (hj : j < k ∨ k + vs.length ≤ j) :
    (t.putList d k vs).get d j = t.get d j := by
  induction vs generalizing t k with
  | nil => rfl
  | cons v vs ih =>
    simp only [List.length_cons] at hj
    rw [putList, ih (k + 1) (wf_put k v h) (by omega), get_put_other v h (by omega)]

/-- A list written at a key is read at that key. -/
theorem get_putList_in {d : α} {t : Tab α} (k i : Nat) (vs : List α) (h : t.wf d = true) (hi : i < vs.length) :
    (t.putList d k vs).get d (k + i) = vs[i] := by
  induction vs generalizing t k i with
  | nil => simp at hi
  | cons v vs ih =>
    rw [putList]
    cases i with
    | zero => rw [get_putList_out _ _ _ (wf_put k v h) (by omega)]; exact get_put_same k v h
    | succ i =>
      have := ih (k + 1) i (wf_put k v h) (by simpa using hi)
      rw [show k + (i + 1) = k + 1 + i by omega, this]; rfl

theorem get_dropKeys {d : α} {lo : Option Nat} {t : Tab α} (p : Nat → Bool) (k : Nat) (h : wfFrom d lo t = true) :
    (t.dropKeys p).get d k = if p k then d else t.get d k := by
  induction t generalizing lo with
  | nil => simp [dropKeys]
  | cons e r ih =>
    obtain ⟨a, v⟩ := e
    rw [wfFrom_cons] at h
    have ih := ih h.2.2
    unfold dropKeys
    by_cases ha : p a = true
    · rw [if_pos ha, ih, get_cons]
      by_cases hk : a = k
      · rw [← hk, if_pos ha, if_pos ha]
      · rw [if_neg hk]
    · rw [if_neg ha, get_cons, get_cons, ih]
      by_cases hk : a = k
      · rw [← hk, if_pos rfl, if_pos rfl, if_neg ha]
      · rw [if_neg hk, if_neg hk]

end Sys2Proof.Machine.Tab
end

