-- ==== Sys2Proof/Laws/State.lean ====
section
/-! SUPPORT. What each named update of the state leaves of every other field, and what it leaves to be read. -/

namespace Sys2Proof.Machine.State

@[simp] theorem updPtn_fresh (s : State) (p : PtnId) (f : Ptn → Ptn) : (s.updPtn p f).fresh = s.fresh := rfl
@[simp] theorem updPtn_phase (s : State) (p : PtnId) (f : Ptn → Ptn) : (s.updPtn p f).phase = s.phase := rfl
@[simp] theorem updPtn_mcs (s : State) (p : PtnId) (f : Ptn → Ptn) : (s.updPtn p f).mcs = s.mcs := rfl
@[simp] theorem updPtn_ths (s : State) (p : PtnId) (f : Ptn → Ptn) : (s.updPtn p f).ths = s.ths := rfl
@[simp] theorem updPtn_tes (s : State) (p : PtnId) (f : Ptn → Ptn) : (s.updPtn p f).tes = s.tes := rfl
@[simp] theorem updPtn_launches (s : State) (p : PtnId) (f : Ptn → Ptn) : (s.updPtn p f).launches = s.launches := rfl
@[simp] theorem updPtn_nextLaunch (s : State) (p : PtnId) (f : Ptn → Ptn) : (s.updPtn p f).nextLaunch = s.nextLaunch := rfl
@[simp] theorem updPtn_ups (s : State) (p : PtnId) (f : Ptn → Ptn) : (s.updPtn p f).ups = s.ups := rfl
@[simp] theorem updPtn_mod (s : State) (p : PtnId) (f : Ptn → Ptn) : (s.updPtn p f).mod = s.mod := rfl
@[simp] theorem updPtn_clk (s : State) (p : PtnId) (f : Ptn → Ptn) : (s.updPtn p f).clk = s.clk := rfl
@[simp] theorem updPtn_saf (s : State) (p : PtnId) (f : Ptn → Ptn) : (s.updPtn p f).saf = s.saf := rfl
@[simp] theorem updPtn_stew (s : State) (p : PtnId) (f : Ptn → Ptn) : (s.updPtn p f).stew = s.stew := rfl
@[simp] theorem updPtn_held (s : State) (p : PtnId) (f : Ptn → Ptn) : (s.updPtn p f).held = s.held := rfl
@[simp] theorem updPtn_dieLinks (s : State) (p : PtnId) (f : Ptn → Ptn) : (s.updPtn p f).dieLinks = s.dieLinks := rfl
@[simp] theorem updPtn_qps (s : State) (p : PtnId) (f : Ptn → Ptn) : (s.updPtn p f).qps = s.qps := rfl
@[simp] theorem updPtn_xfers (s : State) (p : PtnId) (f : Ptn → Ptn) : (s.updPtn p f).xfers = s.xfers := rfl
@[simp] theorem updPtn_nextXfer (s : State) (p : PtnId) (f : Ptn → Ptn) : (s.updPtn p f).nextXfer = s.nextXfer := rfl
@[simp] theorem updPtn_pwr (s : State) (p : PtnId) (f : Ptn → Ptn) : (s.updPtn p f).pwr = s.pwr := rfl
@[simp] theorem updPtn_sec (s : State) (p : PtnId) (f : Ptn → Ptn) : (s.updPtn p f).sec = s.sec := rfl
@[simp] theorem updPtn_i3c (s : State) (p : PtnId) (f : Ptn → Ptn) : (s.updPtn p f).i3c = s.i3c := rfl
@[simp] theorem updPtn_flash (s : State) (p : PtnId) (f : Ptn → Ptn) : (s.updPtn p f).flash = s.flash := rfl
@[simp] theorem updPtn_flashBusy (s : State) (p : PtnId) (f : Ptn → Ptn) : (s.updPtn p f).flashBusy = s.flashBusy := rfl
@[simp] theorem updPtn_pins (s : State) (p : PtnId) (f : Ptn → Ptn) : (s.updPtn p f).pins = s.pins := rfl

@[simp] theorem updMc_fresh (s : State) (n : Nat) (f : MCore → MCore) : (s.updMc n f).fresh = s.fresh := rfl
@[simp] theorem updMc_phase (s : State) (n : Nat) (f : MCore → MCore) : (s.updMc n f).phase = s.phase := rfl
@[simp] theorem updMc_ptns (s : State) (n : Nat) (f : MCore → MCore) : (s.updMc n f).ptns = s.ptns := rfl
@[simp] theorem updMc_ths (s : State) (n : Nat) (f : MCore → MCore) : (s.updMc n f).ths = s.ths := rfl
@[simp] theorem updMc_tes (s : State) (n : Nat) (f : MCore → MCore) : (s.updMc n f).tes = s.tes := rfl
@[simp] theorem updMc_launches (s : State) (n : Nat) (f : MCore → MCore) : (s.updMc n f).launches = s.launches := rfl
@[simp] theorem updMc_nextLaunch (s : State) (n : Nat) (f : MCore → MCore) : (s.updMc n f).nextLaunch = s.nextLaunch := rfl
@[simp] theorem updMc_ups (s : State) (n : Nat) (f : MCore → MCore) : (s.updMc n f).ups = s.ups := rfl
@[simp] theorem updMc_mod (s : State) (n : Nat) (f : MCore → MCore) : (s.updMc n f).mod = s.mod := rfl
@[simp] theorem updMc_clk (s : State) (n : Nat) (f : MCore → MCore) : (s.updMc n f).clk = s.clk := rfl
@[simp] theorem updMc_saf (s : State) (n : Nat) (f : MCore → MCore) : (s.updMc n f).saf = s.saf := rfl
@[simp] theorem updMc_stew (s : State) (n : Nat) (f : MCore → MCore) : (s.updMc n f).stew = s.stew := rfl
@[simp] theorem updMc_held (s : State) (n : Nat) (f : MCore → MCore) : (s.updMc n f).held = s.held := rfl
@[simp] theorem updMc_dieLinks (s : State) (n : Nat) (f : MCore → MCore) : (s.updMc n f).dieLinks = s.dieLinks := rfl
@[simp] theorem updMc_qps (s : State) (n : Nat) (f : MCore → MCore) : (s.updMc n f).qps = s.qps := rfl
@[simp] theorem updMc_xfers (s : State) (n : Nat) (f : MCore → MCore) : (s.updMc n f).xfers = s.xfers := rfl
@[simp] theorem updMc_nextXfer (s : State) (n : Nat) (f : MCore → MCore) : (s.updMc n f).nextXfer = s.nextXfer := rfl
@[simp] theorem updMc_pwr (s : State) (n : Nat) (f : MCore → MCore) : (s.updMc n f).pwr = s.pwr := rfl
@[simp] theorem updMc_sec (s : State) (n : Nat) (f : MCore → MCore) : (s.updMc n f).sec = s.sec := rfl
@[simp] theorem updMc_i3c (s : State) (n : Nat) (f : MCore → MCore) : (s.updMc n f).i3c = s.i3c := rfl
@[simp] theorem updMc_flash (s : State) (n : Nat) (f : MCore → MCore) : (s.updMc n f).flash = s.flash := rfl
@[simp] theorem updMc_flashBusy (s : State) (n : Nat) (f : MCore → MCore) : (s.updMc n f).flashBusy = s.flashBusy := rfl
@[simp] theorem updMc_pins (s : State) (n : Nat) (f : MCore → MCore) : (s.updMc n f).pins = s.pins := rfl

@[simp] theorem updTh_fresh (s : State) (t : Nat) (f : Thread → Thread) : (s.updTh t f).fresh = s.fresh := rfl
@[simp] theorem updTh_phase (s : State) (t : Nat) (f : Thread → Thread) : (s.updTh t f).phase = s.phase := rfl
@[simp] theorem updTh_ptns (s : State) (t : Nat) (f : Thread → Thread) : (s.updTh t f).ptns = s.ptns := rfl
@[simp] theorem updTh_mcs (s : State) (t : Nat) (f : Thread → Thread) : (s.updTh t f).mcs = s.mcs := rfl
@[simp] theorem updTh_tes (s : State) (t : Nat) (f : Thread → Thread) : (s.updTh t f).tes = s.tes := rfl
@[simp] theorem updTh_launches (s : State) (t : Nat) (f : Thread → Thread) : (s.updTh t f).launches = s.launches := rfl
@[simp] theorem updTh_nextLaunch (s : State) (t : Nat) (f : Thread → Thread) : (s.updTh t f).nextLaunch = s.nextLaunch := rfl
@[simp] theorem updTh_ups (s : State) (t : Nat) (f : Thread → Thread) : (s.updTh t f).ups = s.ups := rfl
@[simp] theorem updTh_mod (s : State) (t : Nat) (f : Thread → Thread) : (s.updTh t f).mod = s.mod := rfl
@[simp] theorem updTh_clk (s : State) (t : Nat) (f : Thread → Thread) : (s.updTh t f).clk = s.clk := rfl
@[simp] theorem updTh_saf (s : State) (t : Nat) (f : Thread → Thread) : (s.updTh t f).saf = s.saf := rfl
@[simp] theorem updTh_stew (s : State) (t : Nat) (f : Thread → Thread) : (s.updTh t f).stew = s.stew := rfl
@[simp] theorem updTh_held (s : State) (t : Nat) (f : Thread → Thread) : (s.updTh t f).held = s.held := rfl
@[simp] theorem updTh_dieLinks (s : State) (t : Nat) (f : Thread → Thread) : (s.updTh t f).dieLinks = s.dieLinks := rfl
@[simp] theorem updTh_qps (s : State) (t : Nat) (f : Thread → Thread) : (s.updTh t f).qps = s.qps := rfl
@[simp] theorem updTh_xfers (s : State) (t : Nat) (f : Thread → Thread) : (s.updTh t f).xfers = s.xfers := rfl
@[simp] theorem updTh_nextXfer (s : State) (t : Nat) (f : Thread → Thread) : (s.updTh t f).nextXfer = s.nextXfer := rfl
@[simp] theorem updTh_pwr (s : State) (t : Nat) (f : Thread → Thread) : (s.updTh t f).pwr = s.pwr := rfl
@[simp] theorem updTh_sec (s : State) (t : Nat) (f : Thread → Thread) : (s.updTh t f).sec = s.sec := rfl
@[simp] theorem updTh_i3c (s : State) (t : Nat) (f : Thread → Thread) : (s.updTh t f).i3c = s.i3c := rfl
@[simp] theorem updTh_flash (s : State) (t : Nat) (f : Thread → Thread) : (s.updTh t f).flash = s.flash := rfl
@[simp] theorem updTh_flashBusy (s : State) (t : Nat) (f : Thread → Thread) : (s.updTh t f).flashBusy = s.flashBusy := rfl
@[simp] theorem updTh_pins (s : State) (t : Nat) (f : Thread → Thread) : (s.updTh t f).pins = s.pins := rfl

@[simp] theorem updTe_fresh (s : State) (n : Nat) (f : TEng → TEng) : (s.updTe n f).fresh = s.fresh := rfl
@[simp] theorem updTe_phase (s : State) (n : Nat) (f : TEng → TEng) : (s.updTe n f).phase = s.phase := rfl
@[simp] theorem updTe_ptns (s : State) (n : Nat) (f : TEng → TEng) : (s.updTe n f).ptns = s.ptns := rfl
@[simp] theorem updTe_mcs (s : State) (n : Nat) (f : TEng → TEng) : (s.updTe n f).mcs = s.mcs := rfl
@[simp] theorem updTe_ths (s : State) (n : Nat) (f : TEng → TEng) : (s.updTe n f).ths = s.ths := rfl
@[simp] theorem updTe_launches (s : State) (n : Nat) (f : TEng → TEng) : (s.updTe n f).launches = s.launches := rfl
@[simp] theorem updTe_nextLaunch (s : State) (n : Nat) (f : TEng → TEng) : (s.updTe n f).nextLaunch = s.nextLaunch := rfl
@[simp] theorem updTe_ups (s : State) (n : Nat) (f : TEng → TEng) : (s.updTe n f).ups = s.ups := rfl
@[simp] theorem updTe_mod (s : State) (n : Nat) (f : TEng → TEng) : (s.updTe n f).mod = s.mod := rfl
@[simp] theorem updTe_clk (s : State) (n : Nat) (f : TEng → TEng) : (s.updTe n f).clk = s.clk := rfl
@[simp] theorem updTe_saf (s : State) (n : Nat) (f : TEng → TEng) : (s.updTe n f).saf = s.saf := rfl
@[simp] theorem updTe_stew (s : State) (n : Nat) (f : TEng → TEng) : (s.updTe n f).stew = s.stew := rfl
@[simp] theorem updTe_held (s : State) (n : Nat) (f : TEng → TEng) : (s.updTe n f).held = s.held := rfl
@[simp] theorem updTe_dieLinks (s : State) (n : Nat) (f : TEng → TEng) : (s.updTe n f).dieLinks = s.dieLinks := rfl
@[simp] theorem updTe_qps (s : State) (n : Nat) (f : TEng → TEng) : (s.updTe n f).qps = s.qps := rfl
@[simp] theorem updTe_xfers (s : State) (n : Nat) (f : TEng → TEng) : (s.updTe n f).xfers = s.xfers := rfl
@[simp] theorem updTe_nextXfer (s : State) (n : Nat) (f : TEng → TEng) : (s.updTe n f).nextXfer = s.nextXfer := rfl
@[simp] theorem updTe_pwr (s : State) (n : Nat) (f : TEng → TEng) : (s.updTe n f).pwr = s.pwr := rfl
@[simp] theorem updTe_sec (s : State) (n : Nat) (f : TEng → TEng) : (s.updTe n f).sec = s.sec := rfl
@[simp] theorem updTe_i3c (s : State) (n : Nat) (f : TEng → TEng) : (s.updTe n f).i3c = s.i3c := rfl
@[simp] theorem updTe_flash (s : State) (n : Nat) (f : TEng → TEng) : (s.updTe n f).flash = s.flash := rfl
@[simp] theorem updTe_flashBusy (s : State) (n : Nat) (f : TEng → TEng) : (s.updTe n f).flashBusy = s.flashBusy := rfl
@[simp] theorem updTe_pins (s : State) (n : Nat) (f : TEng → TEng) : (s.updTe n f).pins = s.pins := rfl

@[simp] theorem updUp_fresh (s : State) (u : UpId) (f : UPort → UPort) : (s.updUp u f).fresh = s.fresh := rfl
@[simp] theorem updUp_phase (s : State) (u : UpId) (f : UPort → UPort) : (s.updUp u f).phase = s.phase := rfl
@[simp] theorem updUp_ptns (s : State) (u : UpId) (f : UPort → UPort) : (s.updUp u f).ptns = s.ptns := rfl
@[simp] theorem updUp_mcs (s : State) (u : UpId) (f : UPort → UPort) : (s.updUp u f).mcs = s.mcs := rfl
@[simp] theorem updUp_ths (s : State) (u : UpId) (f : UPort → UPort) : (s.updUp u f).ths = s.ths := rfl
@[simp] theorem updUp_tes (s : State) (u : UpId) (f : UPort → UPort) : (s.updUp u f).tes = s.tes := rfl
@[simp] theorem updUp_launches (s : State) (u : UpId) (f : UPort → UPort) : (s.updUp u f).launches = s.launches := rfl
@[simp] theorem updUp_nextLaunch (s : State) (u : UpId) (f : UPort → UPort) : (s.updUp u f).nextLaunch = s.nextLaunch := rfl
@[simp] theorem updUp_mod (s : State) (u : UpId) (f : UPort → UPort) : (s.updUp u f).mod = s.mod := rfl
@[simp] theorem updUp_clk (s : State) (u : UpId) (f : UPort → UPort) : (s.updUp u f).clk = s.clk := rfl
@[simp] theorem updUp_saf (s : State) (u : UpId) (f : UPort → UPort) : (s.updUp u f).saf = s.saf := rfl
@[simp] theorem updUp_stew (s : State) (u : UpId) (f : UPort → UPort) : (s.updUp u f).stew = s.stew := rfl
@[simp] theorem updUp_held (s : State) (u : UpId) (f : UPort → UPort) : (s.updUp u f).held = s.held := rfl
@[simp] theorem updUp_dieLinks (s : State) (u : UpId) (f : UPort → UPort) : (s.updUp u f).dieLinks = s.dieLinks := rfl
@[simp] theorem updUp_qps (s : State) (u : UpId) (f : UPort → UPort) : (s.updUp u f).qps = s.qps := rfl
@[simp] theorem updUp_xfers (s : State) (u : UpId) (f : UPort → UPort) : (s.updUp u f).xfers = s.xfers := rfl
@[simp] theorem updUp_nextXfer (s : State) (u : UpId) (f : UPort → UPort) : (s.updUp u f).nextXfer = s.nextXfer := rfl
@[simp] theorem updUp_pwr (s : State) (u : UpId) (f : UPort → UPort) : (s.updUp u f).pwr = s.pwr := rfl
@[simp] theorem updUp_sec (s : State) (u : UpId) (f : UPort → UPort) : (s.updUp u f).sec = s.sec := rfl
@[simp] theorem updUp_i3c (s : State) (u : UpId) (f : UPort → UPort) : (s.updUp u f).i3c = s.i3c := rfl
@[simp] theorem updUp_flash (s : State) (u : UpId) (f : UPort → UPort) : (s.updUp u f).flash = s.flash := rfl
@[simp] theorem updUp_flashBusy (s : State) (u : UpId) (f : UPort → UPort) : (s.updUp u f).flashBusy = s.flashBusy := rfl
@[simp] theorem updUp_pins (s : State) (u : UpId) (f : UPort → UPort) : (s.updUp u f).pins = s.pins := rfl

@[simp] theorem updLaunch_fresh (s : State) (n : Nat) (f : Launch → Launch) : (s.updLaunch n f).fresh = s.fresh := rfl
@[simp] theorem updLaunch_phase (s : State) (n : Nat) (f : Launch → Launch) : (s.updLaunch n f).phase = s.phase := rfl
@[simp] theorem updLaunch_ptns (s : State) (n : Nat) (f : Launch → Launch) : (s.updLaunch n f).ptns = s.ptns := rfl
@[simp] theorem updLaunch_mcs (s : State) (n : Nat) (f : Launch → Launch) : (s.updLaunch n f).mcs = s.mcs := rfl
@[simp] theorem updLaunch_ths (s : State) (n : Nat) (f : Launch → Launch) : (s.updLaunch n f).ths = s.ths := rfl
@[simp] theorem updLaunch_tes (s : State) (n : Nat) (f : Launch → Launch) : (s.updLaunch n f).tes = s.tes := rfl
@[simp] theorem updLaunch_nextLaunch (s : State) (n : Nat) (f : Launch → Launch) : (s.updLaunch n f).nextLaunch = s.nextLaunch := rfl
@[simp] theorem updLaunch_ups (s : State) (n : Nat) (f : Launch → Launch) : (s.updLaunch n f).ups = s.ups := rfl
@[simp] theorem updLaunch_mod (s : State) (n : Nat) (f : Launch → Launch) : (s.updLaunch n f).mod = s.mod := rfl
@[simp] theorem updLaunch_clk (s : State) (n : Nat) (f : Launch → Launch) : (s.updLaunch n f).clk = s.clk := rfl
@[simp] theorem updLaunch_saf (s : State) (n : Nat) (f : Launch → Launch) : (s.updLaunch n f).saf = s.saf := rfl
@[simp] theorem updLaunch_stew (s : State) (n : Nat) (f : Launch → Launch) : (s.updLaunch n f).stew = s.stew := rfl
@[simp] theorem updLaunch_held (s : State) (n : Nat) (f : Launch → Launch) : (s.updLaunch n f).held = s.held := rfl
@[simp] theorem updLaunch_dieLinks (s : State) (n : Nat) (f : Launch → Launch) : (s.updLaunch n f).dieLinks = s.dieLinks := rfl
@[simp] theorem updLaunch_qps (s : State) (n : Nat) (f : Launch → Launch) : (s.updLaunch n f).qps = s.qps := rfl
@[simp] theorem updLaunch_xfers (s : State) (n : Nat) (f : Launch → Launch) : (s.updLaunch n f).xfers = s.xfers := rfl
@[simp] theorem updLaunch_nextXfer (s : State) (n : Nat) (f : Launch → Launch) : (s.updLaunch n f).nextXfer = s.nextXfer := rfl
@[simp] theorem updLaunch_pwr (s : State) (n : Nat) (f : Launch → Launch) : (s.updLaunch n f).pwr = s.pwr := rfl
@[simp] theorem updLaunch_sec (s : State) (n : Nat) (f : Launch → Launch) : (s.updLaunch n f).sec = s.sec := rfl
@[simp] theorem updLaunch_i3c (s : State) (n : Nat) (f : Launch → Launch) : (s.updLaunch n f).i3c = s.i3c := rfl
@[simp] theorem updLaunch_flash (s : State) (n : Nat) (f : Launch → Launch) : (s.updLaunch n f).flash = s.flash := rfl
@[simp] theorem updLaunch_flashBusy (s : State) (n : Nat) (f : Launch → Launch) : (s.updLaunch n f).flashBusy = s.flashBusy := rfl
@[simp] theorem updLaunch_pins (s : State) (n : Nat) (f : Launch → Launch) : (s.updLaunch n f).pins = s.pins := rfl

@[simp] theorem updFlow_fresh (s : State) (p : PtnId) (f : PFlow → PFlow) : (s.updFlow p f).fresh = s.fresh := rfl
@[simp] theorem updFlow_phase (s : State) (p : PtnId) (f : PFlow → PFlow) : (s.updFlow p f).phase = s.phase := rfl
@[simp] theorem updFlow_mcs (s : State) (p : PtnId) (f : PFlow → PFlow) : (s.updFlow p f).mcs = s.mcs := rfl
@[simp] theorem updFlow_ths (s : State) (p : PtnId) (f : PFlow → PFlow) : (s.updFlow p f).ths = s.ths := rfl
@[simp] theorem updFlow_tes (s : State) (p : PtnId) (f : PFlow → PFlow) : (s.updFlow p f).tes = s.tes := rfl
@[simp] theorem updFlow_launches (s : State) (p : PtnId) (f : PFlow → PFlow) : (s.updFlow p f).launches = s.launches := rfl
@[simp] theorem updFlow_nextLaunch (s : State) (p : PtnId) (f : PFlow → PFlow) : (s.updFlow p f).nextLaunch = s.nextLaunch := rfl
@[simp] theorem updFlow_ups (s : State) (p : PtnId) (f : PFlow → PFlow) : (s.updFlow p f).ups = s.ups := rfl
@[simp] theorem updFlow_mod (s : State) (p : PtnId) (f : PFlow → PFlow) : (s.updFlow p f).mod = s.mod := rfl
@[simp] theorem updFlow_clk (s : State) (p : PtnId) (f : PFlow → PFlow) : (s.updFlow p f).clk = s.clk := rfl
@[simp] theorem updFlow_saf (s : State) (p : PtnId) (f : PFlow → PFlow) : (s.updFlow p f).saf = s.saf := rfl
@[simp] theorem updFlow_stew (s : State) (p : PtnId) (f : PFlow → PFlow) : (s.updFlow p f).stew = s.stew := rfl
@[simp] theorem updFlow_held (s : State) (p : PtnId) (f : PFlow → PFlow) : (s.updFlow p f).held = s.held := rfl
@[simp] theorem updFlow_dieLinks (s : State) (p : PtnId) (f : PFlow → PFlow) : (s.updFlow p f).dieLinks = s.dieLinks := rfl
@[simp] theorem updFlow_qps (s : State) (p : PtnId) (f : PFlow → PFlow) : (s.updFlow p f).qps = s.qps := rfl
@[simp] theorem updFlow_xfers (s : State) (p : PtnId) (f : PFlow → PFlow) : (s.updFlow p f).xfers = s.xfers := rfl
@[simp] theorem updFlow_nextXfer (s : State) (p : PtnId) (f : PFlow → PFlow) : (s.updFlow p f).nextXfer = s.nextXfer := rfl
@[simp] theorem updFlow_pwr (s : State) (p : PtnId) (f : PFlow → PFlow) : (s.updFlow p f).pwr = s.pwr := rfl
@[simp] theorem updFlow_sec (s : State) (p : PtnId) (f : PFlow → PFlow) : (s.updFlow p f).sec = s.sec := rfl
@[simp] theorem updFlow_i3c (s : State) (p : PtnId) (f : PFlow → PFlow) : (s.updFlow p f).i3c = s.i3c := rfl
@[simp] theorem updFlow_flash (s : State) (p : PtnId) (f : PFlow → PFlow) : (s.updFlow p f).flash = s.flash := rfl
@[simp] theorem updFlow_flashBusy (s : State) (p : PtnId) (f : PFlow → PFlow) : (s.updFlow p f).flashBusy = s.flashBusy := rfl
@[simp] theorem updFlow_pins (s : State) (p : PtnId) (f : PFlow → PFlow) : (s.updFlow p f).pins = s.pins := rfl

@[simp] theorem updPMem_fresh (s : State) (p : PtnId) (f : PMem → PMem) : (s.updPMem p f).fresh = s.fresh := rfl
@[simp] theorem updPMem_phase (s : State) (p : PtnId) (f : PMem → PMem) : (s.updPMem p f).phase = s.phase := rfl
@[simp] theorem updPMem_mcs (s : State) (p : PtnId) (f : PMem → PMem) : (s.updPMem p f).mcs = s.mcs := rfl
@[simp] theorem updPMem_ths (s : State) (p : PtnId) (f : PMem → PMem) : (s.updPMem p f).ths = s.ths := rfl
@[simp] theorem updPMem_tes (s : State) (p : PtnId) (f : PMem → PMem) : (s.updPMem p f).tes = s.tes := rfl
@[simp] theorem updPMem_launches (s : State) (p : PtnId) (f : PMem → PMem) : (s.updPMem p f).launches = s.launches := rfl
@[simp] theorem updPMem_nextLaunch (s : State) (p : PtnId) (f : PMem → PMem) : (s.updPMem p f).nextLaunch = s.nextLaunch := rfl
@[simp] theorem updPMem_ups (s : State) (p : PtnId) (f : PMem → PMem) : (s.updPMem p f).ups = s.ups := rfl
@[simp] theorem updPMem_mod (s : State) (p : PtnId) (f : PMem → PMem) : (s.updPMem p f).mod = s.mod := rfl
@[simp] theorem updPMem_clk (s : State) (p : PtnId) (f : PMem → PMem) : (s.updPMem p f).clk = s.clk := rfl
@[simp] theorem updPMem_saf (s : State) (p : PtnId) (f : PMem → PMem) : (s.updPMem p f).saf = s.saf := rfl
@[simp] theorem updPMem_stew (s : State) (p : PtnId) (f : PMem → PMem) : (s.updPMem p f).stew = s.stew := rfl
@[simp] theorem updPMem_held (s : State) (p : PtnId) (f : PMem → PMem) : (s.updPMem p f).held = s.held := rfl
@[simp] theorem updPMem_dieLinks (s : State) (p : PtnId) (f : PMem → PMem) : (s.updPMem p f).dieLinks = s.dieLinks := rfl
@[simp] theorem updPMem_qps (s : State) (p : PtnId) (f : PMem → PMem) : (s.updPMem p f).qps = s.qps := rfl
@[simp] theorem updPMem_xfers (s : State) (p : PtnId) (f : PMem → PMem) : (s.updPMem p f).xfers = s.xfers := rfl
@[simp] theorem updPMem_nextXfer (s : State) (p : PtnId) (f : PMem → PMem) : (s.updPMem p f).nextXfer = s.nextXfer := rfl
@[simp] theorem updPMem_pwr (s : State) (p : PtnId) (f : PMem → PMem) : (s.updPMem p f).pwr = s.pwr := rfl
@[simp] theorem updPMem_sec (s : State) (p : PtnId) (f : PMem → PMem) : (s.updPMem p f).sec = s.sec := rfl
@[simp] theorem updPMem_i3c (s : State) (p : PtnId) (f : PMem → PMem) : (s.updPMem p f).i3c = s.i3c := rfl
@[simp] theorem updPMem_flash (s : State) (p : PtnId) (f : PMem → PMem) : (s.updPMem p f).flash = s.flash := rfl
@[simp] theorem updPMem_flashBusy (s : State) (p : PtnId) (f : PMem → PMem) : (s.updPMem p f).flashBusy = s.flashBusy := rfl
@[simp] theorem updPMem_pins (s : State) (p : PtnId) (f : PMem → PMem) : (s.updPMem p f).pins = s.pins := rfl

@[simp] theorem updJob_fresh (s : State) (p : PtnId) (q : QueueId) (f : Job → Job) : (s.updJob p q f).fresh = s.fresh := rfl
@[simp] theorem updJob_phase (s : State) (p : PtnId) (q : QueueId) (f : Job → Job) : (s.updJob p q f).phase = s.phase := rfl
@[simp] theorem updJob_mcs (s : State) (p : PtnId) (q : QueueId) (f : Job → Job) : (s.updJob p q f).mcs = s.mcs := rfl
@[simp] theorem updJob_ths (s : State) (p : PtnId) (q : QueueId) (f : Job → Job) : (s.updJob p q f).ths = s.ths := rfl
@[simp] theorem updJob_tes (s : State) (p : PtnId) (q : QueueId) (f : Job → Job) : (s.updJob p q f).tes = s.tes := rfl
@[simp] theorem updJob_launches (s : State) (p : PtnId) (q : QueueId) (f : Job → Job) : (s.updJob p q f).launches = s.launches := rfl
@[simp] theorem updJob_nextLaunch (s : State) (p : PtnId) (q : QueueId) (f : Job → Job) : (s.updJob p q f).nextLaunch = s.nextLaunch := rfl
@[simp] theorem updJob_ups (s : State) (p : PtnId) (q : QueueId) (f : Job → Job) : (s.updJob p q f).ups = s.ups := rfl
@[simp] theorem updJob_mod (s : State) (p : PtnId) (q : QueueId) (f : Job → Job) : (s.updJob p q f).mod = s.mod := rfl
@[simp] theorem updJob_clk (s : State) (p : PtnId) (q : QueueId) (f : Job → Job) : (s.updJob p q f).clk = s.clk := rfl
@[simp] theorem updJob_saf (s : State) (p : PtnId) (q : QueueId) (f : Job → Job) : (s.updJob p q f).saf = s.saf := rfl
@[simp] theorem updJob_stew (s : State) (p : PtnId) (q : QueueId) (f : Job → Job) : (s.updJob p q f).stew = s.stew := rfl
@[simp] theorem updJob_held (s : State) (p : PtnId) (q : QueueId) (f : Job → Job) : (s.updJob p q f).held = s.held := rfl
@[simp] theorem updJob_dieLinks (s : State) (p : PtnId) (q : QueueId) (f : Job → Job) : (s.updJob p q f).dieLinks = s.dieLinks := rfl
@[simp] theorem updJob_qps (s : State) (p : PtnId) (q : QueueId) (f : Job → Job) : (s.updJob p q f).qps = s.qps := rfl
@[simp] theorem updJob_xfers (s : State) (p : PtnId) (q : QueueId) (f : Job → Job) : (s.updJob p q f).xfers = s.xfers := rfl
@[simp] theorem updJob_nextXfer (s : State) (p : PtnId) (q : QueueId) (f : Job → Job) : (s.updJob p q f).nextXfer = s.nextXfer := rfl
@[simp] theorem updJob_pwr (s : State) (p : PtnId) (q : QueueId) (f : Job → Job) : (s.updJob p q f).pwr = s.pwr := rfl
@[simp] theorem updJob_sec (s : State) (p : PtnId) (q : QueueId) (f : Job → Job) : (s.updJob p q f).sec = s.sec := rfl
@[simp] theorem updJob_i3c (s : State) (p : PtnId) (q : QueueId) (f : Job → Job) : (s.updJob p q f).i3c = s.i3c := rfl
@[simp] theorem updJob_flash (s : State) (p : PtnId) (q : QueueId) (f : Job → Job) : (s.updJob p q f).flash = s.flash := rfl
@[simp] theorem updJob_flashBusy (s : State) (p : PtnId) (q : QueueId) (f : Job → Job) : (s.updJob p q f).flashBusy = s.flashBusy := rfl
@[simp] theorem updJob_pins (s : State) (p : PtnId) (q : QueueId) (f : Job → Job) : (s.updJob p q f).pins = s.pins := rfl

@[simp] theorem updSem_fresh (s : State) (p : PtnId) (n : SemId) (f : Sem → Sem) : (s.updSem p n f).fresh = s.fresh := rfl
@[simp] theorem updSem_phase (s : State) (p : PtnId) (n : SemId) (f : Sem → Sem) : (s.updSem p n f).phase = s.phase := rfl
@[simp] theorem updSem_mcs (s : State) (p : PtnId) (n : SemId) (f : Sem → Sem) : (s.updSem p n f).mcs = s.mcs := rfl
@[simp] theorem updSem_ths (s : State) (p : PtnId) (n : SemId) (f : Sem → Sem) : (s.updSem p n f).ths = s.ths := rfl
@[simp] theorem updSem_tes (s : State) (p : PtnId) (n : SemId) (f : Sem → Sem) : (s.updSem p n f).tes = s.tes := rfl
@[simp] theorem updSem_launches (s : State) (p : PtnId) (n : SemId) (f : Sem → Sem) : (s.updSem p n f).launches = s.launches := rfl
@[simp] theorem updSem_nextLaunch (s : State) (p : PtnId) (n : SemId) (f : Sem → Sem) : (s.updSem p n f).nextLaunch = s.nextLaunch := rfl
@[simp] theorem updSem_ups (s : State) (p : PtnId) (n : SemId) (f : Sem → Sem) : (s.updSem p n f).ups = s.ups := rfl
@[simp] theorem updSem_mod (s : State) (p : PtnId) (n : SemId) (f : Sem → Sem) : (s.updSem p n f).mod = s.mod := rfl
@[simp] theorem updSem_clk (s : State) (p : PtnId) (n : SemId) (f : Sem → Sem) : (s.updSem p n f).clk = s.clk := rfl
@[simp] theorem updSem_saf (s : State) (p : PtnId) (n : SemId) (f : Sem → Sem) : (s.updSem p n f).saf = s.saf := rfl
@[simp] theorem updSem_stew (s : State) (p : PtnId) (n : SemId) (f : Sem → Sem) : (s.updSem p n f).stew = s.stew := rfl
@[simp] theorem updSem_held (s : State) (p : PtnId) (n : SemId) (f : Sem → Sem) : (s.updSem p n f).held = s.held := rfl
@[simp] theorem updSem_dieLinks (s : State) (p : PtnId) (n : SemId) (f : Sem → Sem) : (s.updSem p n f).dieLinks = s.dieLinks := rfl
@[simp] theorem updSem_qps (s : State) (p : PtnId) (n : SemId) (f : Sem → Sem) : (s.updSem p n f).qps = s.qps := rfl
@[simp] theorem updSem_xfers (s : State) (p : PtnId) (n : SemId) (f : Sem → Sem) : (s.updSem p n f).xfers = s.xfers := rfl
@[simp] theorem updSem_nextXfer (s : State) (p : PtnId) (n : SemId) (f : Sem → Sem) : (s.updSem p n f).nextXfer = s.nextXfer := rfl
@[simp] theorem updSem_pwr (s : State) (p : PtnId) (n : SemId) (f : Sem → Sem) : (s.updSem p n f).pwr = s.pwr := rfl
@[simp] theorem updSem_sec (s : State) (p : PtnId) (n : SemId) (f : Sem → Sem) : (s.updSem p n f).sec = s.sec := rfl
@[simp] theorem updSem_i3c (s : State) (p : PtnId) (n : SemId) (f : Sem → Sem) : (s.updSem p n f).i3c = s.i3c := rfl
@[simp] theorem updSem_flash (s : State) (p : PtnId) (n : SemId) (f : Sem → Sem) : (s.updSem p n f).flash = s.flash := rfl
@[simp] theorem updSem_flashBusy (s : State) (p : PtnId) (n : SemId) (f : Sem → Sem) : (s.updSem p n f).flashBusy = s.flashBusy := rfl
@[simp] theorem updSem_pins (s : State) (p : PtnId) (n : SemId) (f : Sem → Sem) : (s.updSem p n f).pins = s.pins := rfl

@[simp] theorem updMem_fresh (s : State) (f : Mem → Mem) : (s.updMem f).fresh = s.fresh := rfl
@[simp] theorem updMem_phase (s : State) (f : Mem → Mem) : (s.updMem f).phase = s.phase := rfl
@[simp] theorem updMem_ptns (s : State) (f : Mem → Mem) : (s.updMem f).ptns = s.ptns := rfl
@[simp] theorem updMem_mcs (s : State) (f : Mem → Mem) : (s.updMem f).mcs = s.mcs := rfl
@[simp] theorem updMem_ths (s : State) (f : Mem → Mem) : (s.updMem f).ths = s.ths := rfl
@[simp] theorem updMem_tes (s : State) (f : Mem → Mem) : (s.updMem f).tes = s.tes := rfl
@[simp] theorem updMem_launches (s : State) (f : Mem → Mem) : (s.updMem f).launches = s.launches := rfl
@[simp] theorem updMem_nextLaunch (s : State) (f : Mem → Mem) : (s.updMem f).nextLaunch = s.nextLaunch := rfl
@[simp] theorem updMem_ups (s : State) (f : Mem → Mem) : (s.updMem f).ups = s.ups := rfl
@[simp] theorem updMem_mod (s : State) (f : Mem → Mem) : (s.updMem f).mod = s.mod := rfl
@[simp] theorem updMem_clk (s : State) (f : Mem → Mem) : (s.updMem f).clk = s.clk := rfl
@[simp] theorem updMem_saf (s : State) (f : Mem → Mem) : (s.updMem f).saf = s.saf := rfl
@[simp] theorem updMem_stew (s : State) (f : Mem → Mem) : (s.updMem f).stew = s.stew := rfl
@[simp] theorem updMem_held (s : State) (f : Mem → Mem) : (s.updMem f).held = s.held := rfl
@[simp] theorem updMem_dieLinks (s : State) (f : Mem → Mem) : (s.updMem f).dieLinks = s.dieLinks := rfl
@[simp] theorem updMem_qps (s : State) (f : Mem → Mem) : (s.updMem f).qps = s.qps := rfl
@[simp] theorem updMem_xfers (s : State) (f : Mem → Mem) : (s.updMem f).xfers = s.xfers := rfl
@[simp] theorem updMem_nextXfer (s : State) (f : Mem → Mem) : (s.updMem f).nextXfer = s.nextXfer := rfl
@[simp] theorem updMem_pwr (s : State) (f : Mem → Mem) : (s.updMem f).pwr = s.pwr := rfl
@[simp] theorem updMem_sec (s : State) (f : Mem → Mem) : (s.updMem f).sec = s.sec := rfl
@[simp] theorem updMem_i3c (s : State) (f : Mem → Mem) : (s.updMem f).i3c = s.i3c := rfl
@[simp] theorem updMem_flash (s : State) (f : Mem → Mem) : (s.updMem f).flash = s.flash := rfl
@[simp] theorem updMem_flashBusy (s : State) (f : Mem → Mem) : (s.updMem f).flashBusy = s.flashBusy := rfl
@[simp] theorem updMem_pins (s : State) (f : Mem → Mem) : (s.updMem f).pins = s.pins := rfl

@[simp] theorem takeMen_fresh (s : State) : (s.takeMen ).fresh = s.fresh := rfl
@[simp] theorem takeMen_phase (s : State) : (s.takeMen ).phase = s.phase := rfl
@[simp] theorem takeMen_ptns (s : State) : (s.takeMen ).ptns = s.ptns := rfl
@[simp] theorem takeMen_mcs (s : State) : (s.takeMen ).mcs = s.mcs := rfl
@[simp] theorem takeMen_ths (s : State) : (s.takeMen ).ths = s.ths := rfl
@[simp] theorem takeMen_tes (s : State) : (s.takeMen ).tes = s.tes := rfl
@[simp] theorem takeMen_launches (s : State) : (s.takeMen ).launches = s.launches := rfl
@[simp] theorem takeMen_nextLaunch (s : State) : (s.takeMen ).nextLaunch = s.nextLaunch := rfl
@[simp] theorem takeMen_ups (s : State) : (s.takeMen ).ups = s.ups := rfl
@[simp] theorem takeMen_mod (s : State) : (s.takeMen ).mod = s.mod := rfl
@[simp] theorem takeMen_clk (s : State) : (s.takeMen ).clk = s.clk := rfl
@[simp] theorem takeMen_stew (s : State) : (s.takeMen ).stew = s.stew := rfl
@[simp] theorem takeMen_held (s : State) : (s.takeMen ).held = s.held := rfl
@[simp] theorem takeMen_dieLinks (s : State) : (s.takeMen ).dieLinks = s.dieLinks := rfl
@[simp] theorem takeMen_qps (s : State) : (s.takeMen ).qps = s.qps := rfl
@[simp] theorem takeMen_xfers (s : State) : (s.takeMen ).xfers = s.xfers := rfl
@[simp] theorem takeMen_nextXfer (s : State) : (s.takeMen ).nextXfer = s.nextXfer := rfl
@[simp] theorem takeMen_pwr (s : State) : (s.takeMen ).pwr = s.pwr := rfl
@[simp] theorem takeMen_sec (s : State) : (s.takeMen ).sec = s.sec := rfl
@[simp] theorem takeMen_i3c (s : State) : (s.takeMen ).i3c = s.i3c := rfl
@[simp] theorem takeMen_flash (s : State) : (s.takeMen ).flash = s.flash := rfl
@[simp] theorem takeMen_flashBusy (s : State) : (s.takeMen ).flashBusy = s.flashBusy := rfl
@[simp] theorem takeMen_pins (s : State) : (s.takeMen ).pins = s.pins := rfl

theorem th_updTh_same (s : State) (t : Nat) (f : Thread → Thread) (h : f (s.th t) ≠ {}) : (s.updTh t f).th t = f (s.th t) := Tab.get_put_eq _ _ _ h
theorem th_updTh_wf (s : State) (t : Nat) (f : Thread → Thread) (h : Tab.wf {} s.ths = true) : (s.updTh t f).th t = f (s.th t) := Tab.get_put_same _ _ h
theorem th_updTh_other (s : State) (t t' : Nat) (f : Thread → Thread) (h : t' ≠ t) : (s.updTh t f).th t' = s.th t' :=
  Tab.get_put_ne _ _ _ _ h

theorem mc_updMc_same (s : State) (n : Nat) (f : MCore → MCore) (h : f (s.mc n) ≠ {}) : (s.updMc n f).mc n = f (s.mc n) := Tab.get_put_eq _ _ _ h
theorem mc_updMc_wf (s : State) (n : Nat) (f : MCore → MCore) (h : Tab.wf {} s.mcs = true) : (s.updMc n f).mc n = f (s.mc n) := Tab.get_put_same _ _ h
theorem mc_updMc_other (s : State) (n n' : Nat) (f : MCore → MCore) (h : n' ≠ n) : (s.updMc n f).mc n' = s.mc n' :=
  Tab.get_put_ne _ _ _ _ h

theorem te_updTe_same (s : State) (n : Nat) (f : TEng → TEng) (h : f (s.te n) ≠ {}) : (s.updTe n f).te n = f (s.te n) := Tab.get_put_eq _ _ _ h
theorem te_updTe_wf (s : State) (n : Nat) (f : TEng → TEng) (h : Tab.wf {} s.tes = true) : (s.updTe n f).te n = f (s.te n) := Tab.get_put_same _ _ h
theorem te_updTe_other (s : State) (n n' : Nat) (f : TEng → TEng) (h : n' ≠ n) : (s.updTe n f).te n' = s.te n' :=
  Tab.get_put_ne _ _ _ _ h

theorem ptn_updPtn_same (s : State) (p : PtnId) (f : Ptn → Ptn) (h : f (s.ptn p) ≠ {}) : (s.updPtn p f).ptn p = f (s.ptn p) := Tab.get_put_eq _ _ _ h
theorem ptn_updPtn_wf (s : State) (p : PtnId) (f : Ptn → Ptn) (h : Tab.wf {} s.ptns = true) : (s.updPtn p f).ptn p = f (s.ptn p) := Tab.get_put_same _ _ h
theorem ptn_updPtn_other (s : State) (p p' : PtnId) (f : Ptn → Ptn) (h : p' ≠ p) : (s.updPtn p f).ptn p' = s.ptn p' :=
  Tab.get_put_ne _ _ _ _ (fun e => h (Fin.ext e))

theorem up_updUp_same (s : State) (u : UpId) (f : UPort → UPort) (h : f (s.up u) ≠ {}) : (s.updUp u f).up u = f (s.up u) := Tab.get_put_eq _ _ _ h
theorem up_updUp_wf (s : State) (u : UpId) (f : UPort → UPort) (h : Tab.wf {} s.ups = true) : (s.updUp u f).up u = f (s.up u) := Tab.get_put_same _ _ h
theorem up_updUp_other (s : State) (u u' : UpId) (f : UPort → UPort) (h : u' ≠ u) : (s.updUp u f).up u' = s.up u' :=
  Tab.get_put_ne _ _ _ _ (fun e => h (Fin.ext e))

@[simp] theorem mc_updTh (s : State) (t : Nat) (f : Thread → Thread) (n' : Nat) : (s.updTh t f).mc n' = s.mc n' := rfl
@[simp] theorem te_updTh (s : State) (t : Nat) (f : Thread → Thread) (n' : Nat) : (s.updTh t f).te n' = s.te n' := rfl
@[simp] theorem ptn_updTh (s : State) (t : Nat) (f : Thread → Thread) (p' : PtnId) : (s.updTh t f).ptn p' = s.ptn p' := rfl
@[simp] theorem up_updTh (s : State) (t : Nat) (f : Thread → Thread) (u' : UpId) : (s.updTh t f).up u' = s.up u' := rfl
@[simp] theorem th_updMem (s : State) (f : Mem → Mem) (t : Nat) : (s.updMem f).th t = s.th t := rfl
@[simp] theorem th_updMc (s : State) (n : Nat) (f : MCore → MCore) (t' : Nat) : (s.updMc n f).th t' = s.th t' := rfl
@[simp] theorem te_updMc (s : State) (n : Nat) (f : MCore → MCore) (n' : Nat) : (s.updMc n f).te n' = s.te n' := rfl
@[simp] theorem ptn_updMc (s : State) (n : Nat) (f : MCore → MCore) (p' : PtnId) : (s.updMc n f).ptn p' = s.ptn p' := rfl
@[simp] theorem up_updMc (s : State) (n : Nat) (f : MCore → MCore) (u' : UpId) : (s.updMc n f).up u' = s.up u' := rfl
@[simp] theorem mc_updMem (s : State) (f : Mem → Mem) (n : Nat) : (s.updMem f).mc n = s.mc n := rfl
@[simp] theorem th_updTe (s : State) (n : Nat) (f : TEng → TEng) (t' : Nat) : (s.updTe n f).th t' = s.th t' := rfl
@[simp] theorem mc_updTe (s : State) (n : Nat) (f : TEng → TEng) (n' : Nat) : (s.updTe n f).mc n' = s.mc n' := rfl
@[simp] theorem ptn_updTe (s : State) (n : Nat) (f : TEng → TEng) (p' : PtnId) : (s.updTe n f).ptn p' = s.ptn p' := rfl
@[simp] theorem up_updTe (s : State) (n : Nat) (f : TEng → TEng) (u' : UpId) : (s.updTe n f).up u' = s.up u' := rfl
@[simp] theorem te_updMem (s : State) (f : Mem → Mem) (n : Nat) : (s.updMem f).te n = s.te n := rfl
@[simp] theorem th_updPtn (s : State) (p : PtnId) (f : Ptn → Ptn) (t' : Nat) : (s.updPtn p f).th t' = s.th t' := rfl
@[simp] theorem mc_updPtn (s : State) (p : PtnId) (f : Ptn → Ptn) (n' : Nat) : (s.updPtn p f).mc n' = s.mc n' := rfl
@[simp] theorem te_updPtn (s : State) (p : PtnId) (f : Ptn → Ptn) (n' : Nat) : (s.updPtn p f).te n' = s.te n' := rfl
@[simp] theorem up_updPtn (s : State) (p : PtnId) (f : Ptn → Ptn) (u' : UpId) : (s.updPtn p f).up u' = s.up u' := rfl
@[simp] theorem ptn_updMem (s : State) (f : Mem → Mem) (p : PtnId) : (s.updMem f).ptn p = s.ptn p := rfl
@[simp] theorem th_updUp (s : State) (u : UpId) (f : UPort → UPort) (t' : Nat) : (s.updUp u f).th t' = s.th t' := rfl
@[simp] theorem mc_updUp (s : State) (u : UpId) (f : UPort → UPort) (n' : Nat) : (s.updUp u f).mc n' = s.mc n' := rfl
@[simp] theorem te_updUp (s : State) (u : UpId) (f : UPort → UPort) (n' : Nat) : (s.updUp u f).te n' = s.te n' := rfl
@[simp] theorem ptn_updUp (s : State) (u : UpId) (f : UPort → UPort) (p' : PtnId) : (s.updUp u f).ptn p' = s.ptn p' := rfl
@[simp] theorem up_updMem (s : State) (f : Mem → Mem) (u : UpId) : (s.updMem f).up u = s.up u := rfl

end Sys2Proof.Machine.State
end

