-- ==== Sys2Proof/Laws/Commands.lean ====
section
/-! SUPPORT. What the shared operations of a channel do, said once each: a command at once, a queued command, a queued command of one item, a step of a sequencer, a table engine's turn. -/

namespace Sys2Proof.Machine

theorem runsNow_some {s u : State} {h : Hdr} {op : W16} (hu : s.runsNow h op = some u) :
    u = s.ensureCmd h op true ∧ ∃ c, u.cmdOf h = some c ∧ u.mayStart c = true := by
  unfold State.runsNow at hu
  dsimp only at hu
  split at hu
  · rename_i c hc
    split at hu
    · rename_i hm; cases hu; exact ⟨rfl, c, hc, hm⟩
    · cases hu
  · cases hu

/-- An immediate or steward command that may start: what `f` answers is rejected or replied. -/
theorem atOnce_run {s u : State} {h : Hdr} {op : W16} {f : State → State × Except Status (List Item × List Byte)} (hu : s.runsNow h op = some u) :
    s.atOnce h op f = match f u with
      | (v, .error code) => v.reject h op code
      | (v, .ok (items, result)) => v.replied h items result := by
  obtain ⟨rfl, c, hc, hm⟩ := runsNow_some hu
  unfold State.atOnce
  dsimp only
  rw [hc]
  dsimp only
  rw [hm]
  rfl

theorem startsNow_some {s u : State} {h : Hdr} {op : W16} {cmd : Instr} (hu : s.startsNow h op cmd = some u) :
    ∃ z c, z = (s.ensureCmd h op false).updCmd h (fun c => { c with cmd := some (c.cmd.getD cmd) }) ∧ z.cmdOf h = some c ∧ z.mayStart c = true ∧
      u = z.updPtn h.ptn (·.makeReady h.queue) ∧ (u.job h.ptn h.queue).st = .running ∧ u.slotsWait h.ptn cmd = false := by
  unfold State.startsNow at hu
  dsimp only at hu
  split at hu
  · rename_i c hc
    split at hu
    · rename_i hm
      cases hu
      simp only [Bool.and_eq_true, decide_eq_true_eq, Bool.not_eq_true'] at hm
      exact ⟨_, c, rfl, hc, hm.1.1, rfl, hm.1.2, hm.2⟩
    · cases hu
  · cases hu

/-- A queued command whose turn has come, whose job runs and whose first access slots serve. -/
theorem queued_run {s u : State} {h : Hdr} {op : W16} {cmd : Instr} {check : State → Option Status} {items : State → Nat} {f : State → State}
    (hu : s.startsNow h op cmd = some u) :
    s.queued h op cmd check items f = match check u with
      | some code => u.reject h op code
      | none => (f (u.open' h (items u))).settle h := by
  obtain ⟨z, c, rfl, hc, hm, rfl, hj, hw⟩ := startsNow_some hu
  unfold State.queued
  dsimp only
  rw [hc]
  dsimp only
  rw [hm, hj, hw]
  simp only [ne_eq, not_true_eq_false, if_false, Bool.not_true, Bool.false_eq_true]
  all_goals rfl

/-- A queued command of one item that ends as it starts. -/
theorem queuedDone_run {s u : State} {h : Hdr} {op : W16} {cmd : Instr} {f : State → State × Except Status (Item × List Byte)}
    (hu : s.startsNow h op cmd = some u) :
    s.queuedDone h op cmd f = match u.startCheck h cmd with
      | some code => u.reject h op code
      | none => match f u with
        | (v, .error code) => v.reject h op code
        | (v, .ok (it, r)) => v.finished h it r := by
  obtain ⟨z, c, rfl, hc, hm, rfl, hj, hw⟩ := startsNow_some hu
  unfold State.queuedDone
  dsimp only
  rw [hc]
  dsimp only
  rw [hm, hj, hw]
  simp only [ne_eq, not_true_eq_false, if_false, Bool.not_true, Bool.false_eq_true]
  try rfl

theorem atStep_run {s : State} {p : PtnId} {q : QueueId} {is : SeqStep → Bool} {c : CmdRec} {r : ProgRun} {im : Image}
    {f : State → CmdRec → ProgRun → Image → State} (h : s.atStep p q is = some (c, r, im)) : s.seqStep p q is f = f s c r im := by
  unfold State.atStep at h
  unfold State.seqStep
  split at h
  · cases h
  · rename_i c' hc
    try rw [hc]
    try dsimp only
    split at h
    · rename_i r' im' hr him
      try rw [hr]
      try rw [him]
      try dsimp only
      split at h
      · rename_i hcond
        simp only [Bool.and_eq_true, decide_eq_true_eq, Bool.not_eq_true', Option.isNone_iff_eq_none] at hcond
        obtain ⟨⟨⟨h1, h2⟩, h3⟩, h4⟩ := hcond
        simp only [h1, h2, h3, h4]
        simp only [ne_eq, not_true_eq_false, decide_false, Option.isSome_none, Bool.not_true, Bool.or_self, Bool.false_eq_true, if_false]
        cases hres : s.resolve r' im' with
        | none => rw [hres] at h; cases h
        | some r'' => rw [hres] at h; cases h; rfl
      · cases h
    · cases h

theorem teTurn_run {s : State} {te k op : Nat} {w : TeWork} {f : TeWork → Acc Sheet} (h : s.teTurn te k op = some w) :
    s.teExec te k op f = s.teDone te k w (f w) := by
  unfold State.teExec; rw [h]

@[simp] theorem Sem.addBal_count (m : Sem) (q : QueueId) (i : Int) : (m.addBal q i).count = m.count := by unfold Sem.addBal; split <;> rfl
@[simp] theorem Sem.addBal_waiters (m : Sem) (q : QueueId) (i : Int) : (m.addBal q i).waiters = m.waiters := by unfold Sem.addBal; split <;> rfl

end Sys2Proof.Machine
end

