-- ==== Sys2Proof/Laws/Mem.lean ====
section
/-! SUPPORT. Laws of device memory: every operation keeps the canonical form, and what a write leaves to be read. -/

namespace Sys2Proof.Machine.Mem

theorem wf_iff (m : Mem) : m.wf = true ↔ Tab.wf 0 m.bytes = true ∧ Tab.wf none m.granKey = true ∧ Tab.wf none m.sectKey = true ∧
    Tab.wf none m.lastHolder = true ∧ Tab.wf {} m.erg = true ∧ Tab.wf {} m.memc = true ∧ m.ue.Pairwise (· < ·) := by
  simp [Mem.wf, and_assoc]

/-- The memory after reset is in canonical form. -/
theorem reset_wf : ({} : Mem).wf = true := by decide

theorem bytes_wf {m : Mem} (h : m.wf = true) : Tab.wf 0 m.bytes = true := ((wf_iff m).mp h).1

theorem setBytes_wf {m : Mem} {b : Tab Byte} (h : m.wf = true) (hb : Tab.wf 0 b = true) : ({ m with bytes := b } : Mem).wf = true := by
  rw [wf_iff] at *; exact ⟨hb, h.2⟩

theorem filterUe_wf {m : Mem} (p : Nat → Bool) (h : m.wf = true) : ({ m with ue := m.ue.filter p } : Mem).wf = true := by
  rw [wf_iff] at *; exact ⟨h.1, h.2.1, h.2.2.1, h.2.2.2.1, h.2.2.2.2.1, h.2.2.2.2.2.1, h.2.2.2.2.2.2.filter _⟩

theorem setSector_wf {m : Mem} {b : Tab Byte} (n : Nat) (v : Option KeyTag) (h : m.wf = true) (hb : Tab.wf 0 b = true) :
    ({ m with bytes := b, sectKey := m.sectKey.put none n v } : Mem).wf = true := by
  rw [wf_iff] at *; exact ⟨hb, h.2.1, Tab.wf_put _ _ h.2.2.1, h.2.2.2⟩

theorem rekey_wf {m : Mem} (key : KeyTag) (n : Nat) (h : m.wf = true) : (m.rekey key n).wf = true := by
  unfold rekey
  generalize m.readN key (n * 64) 64 = bs
  split
  · exact h
  · exact setSector_wf _ _ h (Tab.wf_putList _ _ (bytes_wf h))

theorem writeN_wf {m : Mem} (key : KeyTag) (d : Nat) (bs : List Byte) (h : m.wf = true) : (m.writeN key d bs).wf = true := by
  unfold writeN
  have hk : ∀ (l : List Nat) (m : Mem), m.wf = true → (l.foldl (fun m i => m.rekey key (d / 64 + i)) m).wf = true := by
    intro l; induction l with
    | nil => intro m h; exact h
    | cons i l ih => intro m h; exact ih _ (rekey_wf _ _ h)
  have hput : ∀ m : Mem, m.wf = true → ({ m with bytes := m.bytes.putList 0 d bs } : Mem).wf = true :=
    fun m h => setBytes_wf h (Tab.wf_putList _ _ (bytes_wf h))
  refine hput _ ?_
  split
  · exact h
  · exact hk _ _ h

theorem zeroRange_wf {m : Mem} (d n : Nat) (h : m.wf = true) : (m.zeroRange d n).wf = true := by
  unfold zeroRange
  exact setBytes_wf (filterUe_wf _ h) (Tab.wf_dropKeys _ (bytes_wf h))

theorem zeroGranule_wf {m : Mem} (key : KeyTag) (g : Nat) (h : m.wf = true) : (m.zeroGranule key g).wf = true := by
  have hz := zeroRange_wf (lpBase + g * gib) gib h
  unfold zeroGranule
  rw [wf_iff] at *
  exact ⟨hz.1, Tab.wf_put _ _ hz.2.1, Tab.wf_dropKeys _ hz.2.2.1, hz.2.2.2⟩

theorem zeroSlice_wf {m : Mem} (n : Nat) (h : m.wf = true) : (m.zeroSlice n).wf = true := zeroRange_wf _ _ h

theorem ueClear_wf {m : Mem} (d n : Nat) (h : m.wf = true) : (m.ueClear d n).wf = true := filterUe_wf _ h

theorem setHolder_wf {m : Mem} (n : Nat) (v : Option (PtnId × W64)) (h : m.wf = true) :
    ({ m with lastHolder := m.lastHolder.put none n v } : Mem).wf = true := by
  rw [wf_iff] at *; exact ⟨h.1, h.2.1, h.2.2.1, Tab.wf_put _ _ h.2.2.2.1, h.2.2.2.2⟩

theorem updErg_wf {m : Mem} (n : Nat) (f : Ecc → Ecc) (h : m.wf = true) : ({ m with erg := m.erg.upd {} n f } : Mem).wf = true := by
  rw [wf_iff] at *; exact ⟨h.1, h.2.1, h.2.2.1, h.2.2.2.1, Tab.wf_upd _ _ h.2.2.2.2.1, h.2.2.2.2.2⟩

theorem updMemc_wf {m : Mem} (n : Nat) (f : Ecc → Ecc) (h : m.wf = true) : ({ m with memc := m.memc.upd {} n f } : Mem).wf = true := by
  rw [wf_iff] at *; exact ⟨h.1, h.2.1, h.2.2.1, h.2.2.2.1, h.2.2.2.2.1, Tab.wf_upd _ _ h.2.2.2.2.2.1, h.2.2.2.2.2.2⟩

theorem mem_insNat {n a : Nat} {l : List Nat} (h : a ∈ insNat n l) : a = n ∨ a ∈ l := by
  induction l with
  | nil => simpa [insNat] using h
  | cons b r ih =>
    unfold insNat at h
    split at h
    · simpa using h
    · split at h
      · exact Or.inr h
      · rcases List.mem_cons.mp h with rfl | h
        · simp
        · rcases ih h with h | h <;> simp [h]

theorem pairwise_insNat (n : Nat) {l : List Nat} (h : l.Pairwise (· < ·)) : (insNat n l).Pairwise (· < ·) := by
  induction l with
  | nil => simp [insNat]
  | cons b r ih =>
    rw [List.pairwise_cons] at h
    unfold insNat
    split
    · rw [List.pairwise_cons]
      refine ⟨fun a ha => ?_, List.pairwise_cons.mpr h⟩
      rcases List.mem_cons.mp ha with rfl | ha
      · assumption
      · have := h.1 a ha; omega
    · split
      · exact List.pairwise_cons.mpr h
      · rw [List.pairwise_cons]
        refine ⟨fun a ha => ?_, ih h.2⟩
        rcases mem_insNat ha with rfl | ha
        · omega
        · exact h.1 a ha

theorem noteWord_wf {m : Mem} (d : Nat) (h : m.wf = true) : ({ m with ue := insNat d m.ue } : Mem).wf = true := by
  rw [wf_iff] at *; exact ⟨h.1, h.2.1, h.2.2.1, h.2.2.2.1, h.2.2.2.2.1, h.2.2.2.2.2.1, pairwise_insNat d h.2.2.2.2.2.2⟩

theorem survive_wf {m : Mem} (warm : Bool) (h : m.wf = true) : (Mem.survive warm m).wf = true := by
  unfold survive
  rw [wf_iff] at *
  refine ⟨Tab.wf_dropKeys _ h.1, h.2.1, h.2.2.1, rfl, ?_, ?_, h.2.2.2.2.2.2.filter _⟩
  · split
    · exact h.2.2.2.2.1
    · rfl
  · split
    · exact h.2.2.2.2.2.1
    · rfl

/-! ## Read after write, in the Erg, which no key covers -/

theorem writeN_erg {m : Mem} {key : KeyTag} {d : Nat} {bs : List Byte} (hd : d < ergTop) :
    m.writeN key d bs = { m with bytes := m.bytes.putList 0 d bs } := by
  unfold writeN; simp [hd]

/-- A byte written to the Erg is read there. -/
theorem read1_writeN_in {m : Mem} {key key' : KeyTag} {d i : Nat} {bs : List Byte} (h : m.wf = true) (hd : d + bs.length ≤ ergTop) (hi : i < bs.length) :
    (m.writeN key d bs).read1 key' (d + i) = bs[i] := by
  rw [writeN_erg (by omega)]
  unfold read1
  rw [if_pos (by omega)]
  exact Tab.get_putList_in _ _ _ (bytes_wf h) hi

/-- A write to the Erg leaves every other byte of the Erg as it was. -/
theorem read1_writeN_out {m : Mem} {key key' : KeyTag} {d j : Nat} {bs : List Byte} (h : m.wf = true) (hd : d < ergTop) (hj : j < ergTop)
    (ho : j < d ∨ d + bs.length ≤ j) : (m.writeN key d bs).read1 key' j = m.read1 key' j := by
  rw [writeN_erg hd]
  unfold read1
  rw [if_pos hj, if_pos hj]
  exact Tab.get_putList_out _ _ _ (bytes_wf h) ho

end Sys2Proof.Machine.Mem
end

