-- ==== Sys2Proof/Laws/Stash.lean ====
section
/-! SUPPORT. When a stash finds room at once (R182, R183), and the state that making room leaves. -/

namespace Sys2Proof.Machine

/-- The state that making room leaves, whatever comes of it. -/
def State.Room.state : State.Room → State
  | .room s | .wait s | .full s _ => s

@[simp] theorem State.Room.state_room (s : State) : (State.Room.room s).state = s := rfl
@[simp] theorem State.Room.state_wait (s : State) : (State.Room.wait s).state = s := rfl
@[simp] theorem State.Room.state_full (s : State) (c : Status) : (State.Room.full s c).state = s := rfl

theorem State.place_room {s : State} {p : PtnId} {n : Nat} (h : (s.ptn p).train.regionUsed + n ≤ (s.ptn p).train.stashMib.toNat * mib) :
    s.place p n = .room s := by
  unfold State.place State.makeRoom
  dsimp only
  rw [if_pos (by simpa only [Trainer.fits, decide_eq_true_eq] using h)]

theorem Ptn.stashCheck_none {x : Ptn} {n bytes : Nat} (h0 : x.train.stashMib ≠ 0) (h : bytes ≤ x.train.stashMib.toNat * mib) (hn : x.train.mbs.length + n ≤ 4096) :
    x.stashCheck n bytes = none := by
  unfold Ptn.stashCheck
  dsimp only
  rw [if_neg]
  simp only [Bool.or_eq_true, decide_eq_true_eq, not_or]
  exact ⟨⟨h0, Nat.not_lt.mpr h⟩, Nat.not_lt.mpr hn⟩

end Sys2Proof.Machine
end

