-- ==== Sys2Proof/Laws/Memory.lean ====
section
/-! SUPPORT. What every operation does to device memory: it leaves it as it was (`_mem`), or it keeps its canonical form (`_memWf`). For each command, `KeepsMem` or `SafeMem`: it completes, with memory unchanged or in canonical form. -/

set_option linter.unusedTactic false
set_option linter.unreachableTactic false
set_option linter.unusedSimpArgs false
set_option linter.unusedVariables false
set_option linter.unnecessarySeqFocus false

namespace Sys2Proof.Machine

def KeepsMem (r : Res State) (s : State) : Prop := ∃ t, r = .next t ∧ t.mem = s.mem

@[simp] theorem keepsMem_next (t s : State) : KeepsMem (.next t) s ↔ t.mem = s.mem := by
  constructor
  · rintro ⟨_, h, h'⟩; cases h; exact h'
  · intro h; exact ⟨t, rfl, h⟩

def SafeMem (r : Res State) : Prop := ∃ t, r = .next t ∧ Mem.wf t.mem = true

theorem ite_memWf {c : Prop} [Decidable c] {a b : State} (ha : Mem.wf a.mem = true) (hb : Mem.wf b.mem = true) : Mem.wf (if c then a else b).mem = true := by
  split <;> assumption

theorem Mem.root_wf (m : Mem) (r : List Byte) : Mem.wf { m with root := r } = Mem.wf m := rfl

theorem safe_ite {c : Prop} [Decidable c] {a b : Res State} (ha : SafeMem a) (hb : SafeMem b) : SafeMem (if c then a else b) := by
  split <;> assumption

theorem ite_acc_memWf {α : Type} {c : Prop} [Decidable c] {a b : Acc α} (ha : Mem.wf a.1.mem = true) (hb : Mem.wf b.1.mem = true) :
    Mem.wf (if c then a else b).1.mem = true := by
  split <;> assumption

@[simp] theorem foldl_mem {α : Type} (f : State → α → State) (h : ∀ s a, (f s a).mem = s.mem) (l : List α) (s : State) :
    (l.foldl f s).mem = s.mem := by
  induction l generalizing s with
  | nil => rfl
  | cons a l ih => simp [ih, h]

theorem foldl_fst_mem {α β : Type} (f : State × β → α → State × β) (h : ∀ x a, (f x a).1.mem = x.1.mem) (l : List α) (x : State × β) :
    (l.foldl f x).1.mem = x.1.mem := by
  induction l generalizing x with
  | nil => rfl
  | cons a l ih => simp [ih, h]

theorem fst_mem {α : Type} {x : State × α} {t s : State} {a : α} (h : x = (t, a)) (hx : x.1.mem = s.mem) : t.mem = s.mem := by
  rw [h] at hx; exact hx

@[simp] theorem memWf_next (t : State) : SafeMem (.next t) ↔ Mem.wf t.mem = true := by
  constructor
  · rintro ⟨_, h, h'⟩; cases h; exact h'
  · intro h; exact ⟨t, rfl, h⟩

theorem foldl_memWf {α : Type} (f : State → α → State) (h : ∀ s a, Mem.wf s.mem = true → Mem.wf (f s a).mem = true) (l : List α) (s : State)
    (hs : Mem.wf s.mem = true) : Mem.wf (l.foldl f s).mem = true := by
  induction l generalizing s with
  | nil => exact hs
  | cons a l ih => exact ih _ (h _ _ hs)

theorem foldl_fst_memWf {α β : Type} (f : State × β → α → State × β) (h : ∀ x a, Mem.wf x.1.mem = true → Mem.wf (f x a).1.mem = true) (l : List α)
    (x : State × β) (hx : Mem.wf x.1.mem = true) : Mem.wf (l.foldl f x).1.mem = true := by
  induction l generalizing x with
  | nil => exact hx
  | cons a l ih => exact ih _ (h _ _ hx)

theorem fst_memWf {α : Type} {x : State × α} {t : State} {a : α} (h : x = (t, a)) (hx : Mem.wf x.1.mem = true) : Mem.wf t.mem = true := by
  rw [h] at hx; exact hx

@[simp] theorem Acc.bind_memWf {α β : Type} (a : Acc α) (f : State → α → Acc β) (hf : ∀ s x, Mem.wf s.mem = true → Mem.wf (f s x).1.mem = true)
    (ha : Mem.wf a.1.mem = true) : Mem.wf (Acc.bind a f).1.mem = true := by
  unfold Acc.bind; split <;> simp [hf, ha]

theorem Acc.bind_safe {α β : Type} (a : Acc α) (f : State → α → Acc β) (hf : ∀ s x y, f s x = y → Mem.wf s.mem = true → Mem.wf y.1.mem = true)
    (ha : Mem.wf a.1.mem = true) : Mem.wf (Acc.bind a f).1.mem = true := by
  unfold Acc.bind; split
  · exact ha
  · exact hf _ _ _ rfl ha

@[simp] theorem State.accAll_memWf {α β : Type} (f : State → α → Acc β) (hf : ∀ s x, Mem.wf s.mem = true → Mem.wf (f s x).1.mem = true) (l : List α) (s : State)
    (hm : Mem.wf s.mem = true) : Mem.wf (State.accAll f l s).1.mem = true := by
  induction l generalizing s with
  | nil => exact hm
  | cons x l ih =>
    unfold State.accAll
    exact Acc.bind_memWf _ _ (fun s y hs => Acc.bind_memWf _ _ (fun s r hs => hs) (ih s hs)) (hf _ _ hm)

@[simp] theorem State.updPtn_mem (s : State) (p : PtnId) (f : Ptn → Ptn) : (State.updPtn s p f).mem = s.mem := rfl

@[simp] theorem State.updMc_mem (s : State) (n : Nat) (f : MCore → MCore) : (State.updMc s n f).mem = s.mem := rfl

@[simp] theorem State.updTh_mem (s : State) (t : Nat) (f : Thread → Thread) : (State.updTh s t f).mem = s.mem := rfl

@[simp] theorem State.updTe_mem (s : State) (n : Nat) (f : TEng → TEng) : (State.updTe s n f).mem = s.mem := rfl

@[simp] theorem State.updUp_mem (s : State) (u : UpId) (f : UPort → UPort) : (State.updUp s u f).mem = s.mem := rfl

@[simp] theorem State.updLaunch_mem (s : State) (id : Nat) (f : Launch → Launch) : (State.updLaunch s id f).mem = s.mem := rfl

@[simp] theorem State.updFlow_mem (s : State) (p : PtnId) (f : PFlow → PFlow) : (State.updFlow s p f).mem = s.mem := by
  unfold State.updFlow; (try dsimp only); all_goals ((repeat' split) <;> simp_all)

@[simp] theorem State.updPMem_mem (s : State) (p : PtnId) (f : PMem → PMem) : (State.updPMem s p f).mem = s.mem := by
  unfold State.updPMem; (try dsimp only); all_goals ((repeat' split) <;> simp_all)

@[simp] theorem State.updJob_mem (s : State) (p : PtnId) (q : QueueId) (f : Job → Job) : (State.updJob s p q f).mem = s.mem := by
  unfold State.updJob; (try dsimp only); all_goals ((repeat' split) <;> simp_all)

@[simp] theorem State.updSem_mem (s : State) (p : PtnId) (n : SemId) (f : Sem → Sem) : (State.updSem s p n f).mem = s.mem := by
  unfold State.updSem; (try dsimp only); all_goals ((repeat' split) <;> simp_all)

@[simp] theorem State.draw_mem (s : State) : (State.draw s).1.mem = s.mem := rfl

@[simp] theorem State.now_mem (s : State) : (State.now s).1.mem = s.mem := rfl

theorem State.updMem_memWf (s : State) (f : Mem → Mem) (hf : ∀ m, Mem.wf m = true → Mem.wf (f m) = true) (hm : Mem.wf s.mem = true) :
    Mem.wf (s.updMem f).mem = true := hf _ hm

@[simp] theorem State.violate_mem (s : State) (p : PtnId) (who : Who) (a : Nat) (write : Bool) (kind : BitVec 4) : (State.violate s p who a write kind).mem = s.mem := by
  unfold State.violate; (try dsimp only); all_goals ((repeat' split) <;> simp_all)

@[simp] theorem State.deliver_mem (s : State) (ports : BitVec 2) (m : Msg) : (State.deliver s ports m).mem = s.mem := by
  unfold State.deliver; (try dsimp only); all_goals ((repeat' split) <;> simp_all)

@[simp] theorem State.sendPtn_mem (s : State) (p : PtnId) (ports : BitVec 2) (m : Msg) : (State.sendPtn s p ports m).mem = s.mem := by
  unfold State.sendPtn; (try dsimp only); all_goals ((repeat' split) <;> simp_all)

@[simp] theorem State.sendEvent_mem (s : State) (p : PtnId) (q : QueueId) (kind : Byte) (opcode : W16) (seq : W32) (body : List Byte) : (State.sendEvent s p q kind opcode seq body).mem = s.mem := by
  unfold State.sendEvent; (try dsimp only); all_goals ((repeat' split) <;> simp_all)

@[simp] theorem State.takeMen_mem (s : State) : (State.takeMen s).mem = s.mem := rfl

@[simp] theorem State.sendModule_mem (s : State) (kind : Byte) (men : W64) (body : List Byte) : (State.sendModule s kind men body).mem = s.mem := by
  unfold State.sendModule; (try dsimp only); all_goals ((repeat' split) <;> simp_all)

@[simp] theorem State.ptnFault_mem (s : State) (p : PtnId) (r : FRec) : (State.ptnFault s p r).mem = s.mem := by
  unfold State.ptnFault; (try dsimp only); all_goals ((repeat' split) <;> simp_all)

@[simp] theorem State.recordFault_mem (s : State) (r : FRec) : (State.recordFault s r).mem = s.mem := by
  unfold State.recordFault; (try dsimp only); all_goals ((repeat' split) <;> simp_all)

@[simp] theorem State.noteUe_memWf (s : State) (mask : W32) (w : Nat) (when' : Option W64) (hm : Mem.wf s.mem = true) :
    Mem.wf (s.noteUe mask w when').mem = true := by
  unfold State.noteUe; dsimp only
  split <;> (rw [State.recordFault_mem]; refine State.updMem_memWf _ _ (fun m h => ?_) ?_)
  · exact Mem.updErg_wf _ _ h
  · split <;> simp [hm]
  · exact Mem.updMemc_wf _ _ h
  · split <;> simp [hm]

@[simp] theorem State.notePort_mem (s : State) (kind : Byte) (die : Byte) (port : Nat) (mask : W32) : (State.notePort s kind die port mask).mem = s.mem := by
  unfold State.notePort; (try dsimp only); all_goals ((repeat' split) <;> simp_all)

@[simp] theorem State.pRead_memWf (s : State) (p : PtnId) (who : Who) (a : Nat) (n : Nat) (hm : Mem.wf s.mem = true) : Mem.wf (State.pRead s p who a n).1.mem = true := by
  unfold State.pRead; (try dsimp only); all_goals ((repeat' split) <;> simp_all)

@[simp] theorem State.writeParts_memWf (s : State) (p : PtnId) (ps : List (Nat × Nat)) (bs : List Byte) (hm : Mem.wf s.mem = true) :
    Mem.wf (s.writeParts p ps bs).mem = true := by
  induction ps generalizing s bs with
  | nil => exact hm
  | cons e r ih =>
    unfold State.writeParts
    exact ih _ _ (State.updMem_memWf _ _ (fun m h => Mem.writeN_wf _ _ _ (Mem.ueClear_wf _ _ h)) hm)

@[simp] theorem State.pWrite_memWf (s : State) (p : PtnId) (who : Who) (a : Nat) (bs : List Byte) (hm : Mem.wf s.mem = true) : Mem.wf (State.pWrite s p who a bs).1.mem = true := by
  unfold State.pWrite; (try dsimp only); all_goals ((repeat' split) <;> simp_all)

@[simp] theorem State.setChan_mem (s : State) (h : Hdr) (f : List CmdRec → List CmdRec) : (State.setChan s h f).mem = s.mem := by
  unfold State.setChan; (try dsimp only); all_goals ((repeat' split) <;> simp_all)

@[simp] theorem State.updCmd_mem (s : State) (h : Hdr) (f : CmdRec → CmdRec) : (State.updCmd s h f).mem = s.mem := by
  unfold State.updCmd; (try dsimp only); all_goals ((repeat' split) <;> simp_all)

@[simp] theorem State.sendReply_mem (s : State) (h : Hdr) (m : Msg) : (State.sendReply s h m).mem = s.mem := by
  unfold State.sendReply; (try dsimp only); all_goals ((repeat' split) <;> simp_all)

@[simp] theorem State.dropCmd_mem (s : State) (h : Hdr) : (State.dropCmd s h).mem = s.mem := by
  unfold State.dropCmd; (try dsimp only); all_goals ((repeat' split) <;> simp_all)

@[simp] theorem State.advance_mem (s : State) (p : PtnId) (q : QueueId) : (State.advance s p q).mem = s.mem := by
  unfold State.advance; (try dsimp only); all_goals ((repeat' split) <;> simp_all)

@[simp] theorem State.tryReport_mem (s : State) (h : Hdr) : (State.tryReport s h).mem = s.mem := by
  unfold State.tryReport; (try dsimp only); all_goals ((repeat' split) <;> simp_all)

@[simp] theorem State.closeCharge_mem (s : State) (c : CmdRec) : (State.closeCharge s c).mem = s.mem := by
  unfold State.closeCharge; (try dsimp only); all_goals ((repeat' split) <;> simp_all)

@[simp] theorem State.charge_mem (s : State) (p : PtnId) (q : QueueId) (ns : Nat) : (State.charge s p q ns).mem = s.mem := by
  unfold State.charge; (try dsimp only); all_goals ((repeat' split) <;> simp_all)

@[simp] theorem State.giveQp_mem (s : State) (n : QpId) (ks : List QPkt) : (State.giveQp s n ks).mem = s.mem := by
  rfl

@[simp] theorem State.settle_mem (s : State) (h : Hdr) : (State.settle s h).mem = s.mem := by
  unfold State.settle; (try dsimp only); all_goals ((repeat' split) <;> simp_all)

@[simp] theorem State.endStream_mem (s : State) (p : PtnId) (t : Stream) (nowUs : Option Nat) : (State.endStream s p t nowUs).mem = s.mem := by
  unfold State.endStream; (try dsimp only); all_goals ((repeat' split) <;> simp_all)

@[simp] theorem State.endStreams_mem (s : State) (h : Hdr) (f : Nat → Bool) : (State.endStreams s h f).mem = s.mem := by
  unfold State.endStreams; (try dsimp only); all_goals ((repeat' split) <;> simp_all)

@[simp] theorem State.closeItem_mem (s : State) (h : Hdr) (i : Nat) (failed : Option Status) : (State.closeItem s h i failed).mem = s.mem := by
  unfold State.closeItem; (try dsimp only); all_goals ((repeat' split) <;> simp_all)

@[simp] theorem State.failOpen_mem (s : State) (h : Hdr) (code : Status) : (State.failOpen s h code).mem = s.mem := by
  unfold State.failOpen; (try dsimp only); all_goals ((repeat' split) <;> simp_all)

@[simp] theorem State.addSheet_mem (s : State) (h : Hdr) (f : Sheet → Sheet) : (State.addSheet s h f).mem = s.mem := by
  unfold State.addSheet; (try dsimp only); all_goals ((repeat' split) <;> simp_all)

@[simp] theorem State.addUnits_mem (s : State) (h : Hdr) (items : List Nat) (units : List Nat) : (State.addUnits s h items units).mem = s.mem := by
  unfold State.addUnits; (try dsimp only); all_goals ((repeat' split) <;> simp_all)

@[simp] theorem State.noteTokens_mem (s : State) (h : Hdr) (i : Nat) (n : Nat) (units : List Nat) : (State.noteTokens s h i n units).mem = s.mem := by
  unfold State.noteTokens; (try dsimp only); all_goals ((repeat' split) <;> simp_all)

@[simp] theorem State.ensureCmd_mem (s : State) (h : Hdr) (opcode : W16) (immediate : Bool) : (State.ensureCmd s h opcode immediate).mem = s.mem := by
  unfold State.ensureCmd; (try dsimp only); all_goals ((repeat' split) <;> simp_all)

@[simp] theorem State.reject_mem (s : State) (h : Hdr) (opcode : W16) (code : Status) : (State.reject s h opcode code).mem = s.mem := by
  unfold State.reject; (try dsimp only); all_goals ((repeat' split) <;> simp_all)

@[simp] theorem State.open'_mem (s : State) (h : Hdr) (n : Nat) : (State.open' s h n).mem = s.mem := by
  unfold State.open'; (try dsimp only); all_goals ((repeat' split) <;> simp_all)

theorem State.atOnce_mem (s : State) (h : Hdr) (opcode : W16) (f : State → State × Except Status (List Item × List Byte))
    (hf : ∀ s, (f s).1.mem = s.mem) : (s.atOnce h opcode f).mem = s.mem := by
  unfold State.atOnce; dsimp only
  have h2 := hf (s.ensureCmd h opcode true)
  repeat' split
  all_goals simp_all

theorem State.queued_mem (s : State) (h : Hdr) (opcode : W16) (cmd : Instr) (check : State → Option Status) (items : State → Nat) (f : State → State)
    (hf : ∀ s, (f s).mem = s.mem) : (s.queued h opcode cmd check items f).mem = s.mem := by
  unfold State.queued; dsimp only
  repeat' split
  all_goals simp_all

theorem State.atOnce_memWf (s : State) (h : Hdr) (opcode : W16) (f : State → State × Except Status (List Item × List Byte))
    (hf : ∀ s, Mem.wf s.mem = true → Mem.wf (f s).1.mem = true) (hm : Mem.wf s.mem = true) : Mem.wf (s.atOnce h opcode f).mem = true := by
  unfold State.atOnce; dsimp only
  have h2 := hf (s.ensureCmd h opcode true) (by simpa using hm)
  repeat' split
  all_goals simp_all

theorem State.queued_memWf (s : State) (h : Hdr) (opcode : W16) (cmd : Instr) (check : State → Option Status) (items : State → Nat) (f : State → State)
    (hf : ∀ s, Mem.wf s.mem = true → Mem.wf (f s).mem = true) (hm : Mem.wf s.mem = true) : Mem.wf (s.queued h opcode cmd check items f).mem = true := by
  unfold State.queued; dsimp only
  repeat' split
  all_goals simp_all

@[simp] theorem State.noteLocal_mem (s : State) (p : PtnId) (mc : Nat) (kind : Nat) : (State.noteLocal s p mc kind).mem = s.mem := by
  unfold State.noteLocal; (try dsimp only); all_goals ((repeat' split) <;> simp_all)

@[simp] theorem State.failLaunch_mem (s : State) (id : Nat) (code : Status) : (State.failLaunch s id code).mem = s.mem := by
  unfold State.failLaunch; (try rw [keepsMem_next]); (try dsimp only); ((repeat' split) <;> (try simp only [Prod.ext_iff] at *) <;> (try casesm* _ ∧ _) <;> (try subst_vars) <;> (try simp_all) <;> (repeat' (first | rw [foldl_mem] | rw [foldl_fst_mem])) <;> (try intros) <;> (try dsimp only) <;> ((repeat' split) <;> simp_all))

@[simp] theorem State.threadFault_mem (s : State) (t : ThreadId) (code : Status) : (State.threadFault s t code).mem = s.mem := by
  unfold State.threadFault; (try dsimp only); all_goals ((repeat' split) <;> simp_all)

@[simp] theorem State.localStop_mem (s : State) (t : ThreadId) (l : Launch) (kind : Nat) : (State.localStop s t l kind).mem = s.mem := by
  unfold State.localStop; (try dsimp only); all_goals ((repeat' split) <;> simp_all)

@[simp] theorem State.noIssue_mem (s : State) (t : ThreadId) (l : Launch) (regs : List (BitVec 5)) (bad : Bool) : (State.noIssue s t l regs bad).mem = s.mem := by
  unfold State.noIssue; (try dsimp only); all_goals ((repeat' split) <;> simp_all)

@[simp] theorem State.threadEv_mem (s : State) (t : ThreadId) (e : Ev) : (State.threadEv s t e).mem = s.mem := by
  unfold State.threadEv; (try dsimp only); all_goals ((repeat' split) <;> simp_all)

@[simp] theorem State.alu_mem (s : State) (t : ThreadId) (w : IWord) (op : Nat) (regs : IWord → List (BitVec 5)) (f : Launch → IWord → Thread → W32 × Ev) : (State.alu s t w op regs f).mem = s.mem := by
  unfold State.alu; (try dsimp only); all_goals ((repeat' split) <;> simp_all)

@[simp] theorem State.intOp_mem (s : State) (t : ThreadId) (w : IWord) (op : Nat) (f : Nat → W32 → W32 → W32) : (State.intOp s t w op f).mem = s.mem := by
  unfold State.intOp; (try dsimp only); all_goals ((repeat' split) <;> simp_all)

@[simp] theorem State.fltOp_mem (s : State) (t : ThreadId) (w : IWord) (op : Nat) (f : LFmt → Nat → Nat → Nat × Ev) : (State.fltOp s t w op f).mem = s.mem := by
  unfold State.fltOp; (try dsimp only); all_goals ((repeat' split) <;> simp_all)

@[simp] theorem State.predOp_mem (s : State) (t : ThreadId) (w : IWord) (op : Nat) (regs : IWord → List (BitVec 5)) (f : IWord → Thread → Bool) : (State.predOp s t w op regs f).mem = s.mem := by
  unfold State.predOp; (try dsimp only); all_goals ((repeat' split) <;> simp_all)

@[simp] theorem State.cmpOp_mem (s : State) (t : ThreadId) (w : IWord) (op : Nat) (r : Rel) : (State.cmpOp s t w op r).mem = s.mem := by
  unfold State.cmpOp; (try dsimp only); all_goals ((repeat' split) <;> simp_all)

@[simp] theorem State.nextPc_mem (s : State) (t : ThreadId) : (State.nextPc s t).mem = s.mem := by
  unfold State.nextPc; (try dsimp only); all_goals ((repeat' split) <;> simp_all)

@[simp] theorem State.placeFault_mem (s : State) (t : ThreadId) (l : Launch) (pl : Place) (write : Bool) (c : Status × Option (BitVec 4)) : (State.placeFault s t l pl write c).mem = s.mem := by
  unfold State.placeFault; (try dsimp only); all_goals ((repeat' split) <;> simp_all)

@[simp] theorem State.masked_mem (s : State) (t : ThreadId) (w : IWord) : (State.masked s t w).mem = s.mem := by
  unfold State.masked; (try dsimp only); all_goals ((repeat' split) <;> simp_all)

theorem State.issue_mem (s : State) (t : ThreadId) (w : IWord) (op : Nat) (regs : IWord → List (BitVec 5)) (f : Launch → IWord → State)
    (hf : ∀ l w, (f l w).mem = s.mem) : (s.issue t w op regs f).mem = s.mem := by
  unfold State.issue; dsimp only; (repeat' split) <;> simp_all

theorem State.issue_memWf (s : State) (t : ThreadId) (w : IWord) (op : Nat) (regs : IWord → List (BitVec 5)) (f : Launch → IWord → State)
    (hf : ∀ l w, Mem.wf (f l w).mem = true) (hm : Mem.wf s.mem = true) : Mem.wf (s.issue t w op regs f).mem = true := by
  unfold State.issue; dsimp only; (repeat' split) <;> simp_all

theorem execLd_memWf (t : ThreadId) (w : IWord) (s : State) (hm : Mem.wf s.mem = true) : SafeMem (execLd t w s) := by
  unfold execLd; (try rw [memWf_next]); (first | apply State.issue_memWf | apply State.atOnce_memWf | apply State.queued_memWf) <;> (try assumption) <;> intros <;> (try dsimp only) <;> all_goals ((repeat' split) <;> (try simp only [Prod.ext_iff] at *) <;> (try casesm* _ ∧ _) <;> (try subst_vars) <;> ((repeat' split) <;> simp_all))

theorem execSt_memWf (t : ThreadId) (w : IWord) (s : State) (hm : Mem.wf s.mem = true) : SafeMem (execSt t w s) := by
  unfold execSt; (try rw [memWf_next]); (first | apply State.issue_memWf | apply State.atOnce_memWf | apply State.queued_memWf) <;> (try assumption) <;> intros <;> (try dsimp only) <;> all_goals ((repeat' split) <;> (try simp only [Prod.ext_iff] at *) <;> (try casesm* _ ∧ _) <;> (try subst_vars) <;> ((repeat' split) <;> simp_all))

theorem execProm_mem (t : ThreadId) (w : IWord) (s : State) : KeepsMem (execProm t w s) s := by
  unfold execProm; (try rw [keepsMem_next]); (first | apply State.issue_mem | apply State.atOnce_mem | apply State.queued_mem) <;> (try assumption) <;> intros <;> (try dsimp only) <;> all_goals ((repeat' split) <;> simp_all)

theorem execLoadReturn_mem (t : ThreadId) (k : Fin 8) (s : State) : KeepsMem (execLoadReturn t k s) s := by
  unfold execLoadReturn; (try dsimp only); all_goals ((repeat' split) <;> simp_all)

theorem execBr_mem (t : ThreadId) (w : IWord) (s : State) : KeepsMem (execBr t w s) s := by
  unfold execBr; (try rw [keepsMem_next]); (first | apply State.issue_mem | apply State.atOnce_mem | apply State.queued_mem) <;> (try assumption) <;> intros <;> (try dsimp only) <;> all_goals ((repeat' split) <;> simp_all)

theorem execBar_mem (t : ThreadId) (w : IWord) (s : State) : KeepsMem (execBar t w s) s := by
  unfold execBar; (try rw [keepsMem_next]); (first | apply State.issue_mem | apply State.atOnce_mem | apply State.queued_mem) <;> (try assumption) <;> intros <;> (try dsimp only) <;> all_goals ((repeat' split) <;> simp_all)

theorem execBarRelease_mem (launch : Nat) (mc : McId) (s : State) : KeepsMem (execBarRelease launch mc s) s := by
  unfold execBarRelease; (try rw [keepsMem_next]); (try dsimp only); ((repeat' split) <;> (try simp only [Prod.ext_iff] at *) <;> (try casesm* _ ∧ _) <;> (try subst_vars) <;> (try simp_all) <;> (repeat' (first | rw [foldl_mem] | rw [foldl_fst_mem])) <;> (try intros) <;> (try dsimp only) <;> ((repeat' split) <;> simp_all))

@[simp] theorem State.semTake_mem (s : State) (p : PtnId) (q : QueueId) (n : SemId) : (State.semTake s p q n).mem = s.mem := by
  unfold State.semTake; (try dsimp only); all_goals ((repeat' split) <;> simp_all)

@[simp] theorem State.semPost_mem (s : State) (p : PtnId) (q : QueueId) (n : SemId) : (State.semPost s p q n).mem = s.mem := by
  unfold State.semPost; (try dsimp only); all_goals ((repeat' split) <;> simp_all)

@[simp] theorem State.serve_mem (s : State) (p : PtnId) (n : SemId) (w : QueueId × Nat) : (s.serve p n w).mem = s.mem := by
  unfold State.serve; (repeat' split) <;> simp

theorem execSwait_mem (t : ThreadId) (w : IWord) (s : State) : KeepsMem (execSwait t w s) s := by
  unfold execSwait; (try rw [keepsMem_next]); (first | apply State.issue_mem | apply State.atOnce_mem | apply State.queued_mem) <;> (try assumption) <;> intros <;> (try dsimp only) <;> all_goals ((repeat' split) <;> simp_all)

theorem execSpost_mem (t : ThreadId) (w : IWord) (s : State) : KeepsMem (execSpost t w s) s := by
  unfold execSpost; (try rw [keepsMem_next]); (first | apply State.issue_mem | apply State.atOnce_mem | apply State.queued_mem) <;> (try assumption) <;> intros <;> (try dsimp only) <;> all_goals ((repeat' split) <;> simp_all)

theorem execSemaphoreAcquire_mem (p : PtnId) (sem : SemId) (s : State) : KeepsMem (execSemaphoreAcquire p sem s) s := by
  unfold execSemaphoreAcquire; (try dsimp only); all_goals ((repeat' split) <;> simp_all)

theorem execSumry_mem (t : ThreadId) (w : IWord) (s : State) : KeepsMem (execSumry t w s) s := by
  unfold execSumry; (try rw [keepsMem_next]); (first | apply State.issue_mem | apply State.atOnce_mem | apply State.queued_mem) <;> (try assumption) <;> intros <;> (try dsimp only) <;> all_goals ((repeat' split) <;> simp_all)

theorem execEndThread_mem (t : ThreadId) (w : IWord) (s : State) : KeepsMem (execEndThread t w s) s := by
  unfold execEndThread; (try rw [keepsMem_next]); (first | apply State.issue_mem | apply State.atOnce_mem | apply State.queued_mem) <;> (try assumption) <;> intros <;> (try dsimp only) <;> all_goals ((repeat' split) <;> simp_all)

theorem execStreamDone_mem (t : ThreadId) (s : State) : KeepsMem (execStreamDone t s) s := by
  unfold execStreamDone; (try dsimp only); all_goals ((repeat' split) <;> simp_all)

theorem execTewait_mem (t : ThreadId) (w : IWord) (s : State) : KeepsMem (execTewait t w s) s := by
  unfold execTewait; (try rw [keepsMem_next]); (first | apply State.issue_mem | apply State.atOnce_mem | apply State.queued_mem) <;> (try assumption) <;> intros <;> (try dsimp only) <;> all_goals ((repeat' split) <;> simp_all)

theorem execNopInstruction_mem (t : ThreadId) (w : IWord) (s : State) : KeepsMem (execNopInstruction t w s) s := by
  unfold execNopInstruction; (try rw [keepsMem_next]); (first | apply State.issue_mem | apply State.atOnce_mem | apply State.queued_mem) <;> (try assumption) <;> intros <;> (try dsimp only) <;> all_goals ((repeat' split) <;> simp_all)

theorem execMov_mem (t : ThreadId) (w : IWord) (s : State) : KeepsMem (execMov t w s) s := by
  unfold execMov; (try dsimp only); all_goals ((repeat' split) <;> simp_all)

theorem execAdd_mem (t : ThreadId) (w : IWord) (s : State) : KeepsMem (execAdd t w s) s := by
  unfold execAdd; (try dsimp only); all_goals ((repeat' split) <;> simp_all)

theorem execSub_mem (t : ThreadId) (w : IWord) (s : State) : KeepsMem (execSub t w s) s := by
  unfold execSub; (try dsimp only); all_goals ((repeat' split) <;> simp_all)

theorem execMul_mem (t : ThreadId) (w : IWord) (s : State) : KeepsMem (execMul t w s) s := by
  unfold execMul; (try dsimp only); all_goals ((repeat' split) <;> simp_all)

theorem execAnd_mem (t : ThreadId) (w : IWord) (s : State) : KeepsMem (execAnd t w s) s := by
  unfold execAnd; (try dsimp only); all_goals ((repeat' split) <;> simp_all)

theorem execOr_mem (t : ThreadId) (w : IWord) (s : State) : KeepsMem (execOr t w s) s := by
  unfold execOr; (try dsimp only); all_goals ((repeat' split) <;> simp_all)

theorem execXor_mem (t : ThreadId) (w : IWord) (s : State) : KeepsMem (execXor t w s) s := by
  unfold execXor; (try dsimp only); all_goals ((repeat' split) <;> simp_all)

theorem execShl_mem (t : ThreadId) (w : IWord) (s : State) : KeepsMem (execShl t w s) s := by
  unfold execShl; (try dsimp only); all_goals ((repeat' split) <;> simp_all)

theorem execShr_mem (t : ThreadId) (w : IWord) (s : State) : KeepsMem (execShr t w s) s := by
  unfold execShr; (try dsimp only); all_goals ((repeat' split) <;> simp_all)

theorem execSra_mem (t : ThreadId) (w : IWord) (s : State) : KeepsMem (execSra t w s) s := by
  unfold execSra; (try dsimp only); all_goals ((repeat' split) <;> simp_all)

theorem execImin_mem (t : ThreadId) (w : IWord) (s : State) : KeepsMem (execImin t w s) s := by
  unfold execImin; (try dsimp only); all_goals ((repeat' split) <;> simp_all)

theorem execImax_mem (t : ThreadId) (w : IWord) (s : State) : KeepsMem (execImax t w s) s := by
  unfold execImax; (try dsimp only); all_goals ((repeat' split) <;> simp_all)

theorem execScl_mem (t : ThreadId) (w : IWord) (s : State) : KeepsMem (execScl t w s) s := by
  unfold execScl; (try dsimp only); all_goals ((repeat' split) <;> simp_all)

theorem execFadd_mem (t : ThreadId) (w : IWord) (s : State) : KeepsMem (execFadd t w s) s := by
  unfold execFadd; (try dsimp only); all_goals ((repeat' split) <;> simp_all)

theorem execFsub_mem (t : ThreadId) (w : IWord) (s : State) : KeepsMem (execFsub t w s) s := by
  unfold execFsub; (try dsimp only); all_goals ((repeat' split) <;> simp_all)

theorem execFmul_mem (t : ThreadId) (w : IWord) (s : State) : KeepsMem (execFmul t w s) s := by
  unfold execFmul; (try dsimp only); all_goals ((repeat' split) <;> simp_all)

theorem execFfma_mem (t : ThreadId) (w : IWord) (s : State) : KeepsMem (execFfma t w s) s := by
  unfold execFfma; (try dsimp only); all_goals ((repeat' split) <;> simp_all)

theorem execFdiv_mem (t : ThreadId) (w : IWord) (s : State) : KeepsMem (execFdiv t w s) s := by
  unfold execFdiv; (try dsimp only); all_goals ((repeat' split) <;> simp_all)

@[simp] theorem State.flt1_mem (s : State) (t : ThreadId) (w : IWord) (op : Nat) (f : LFmt → Nat → Nat × Ev) : (State.flt1 s t w op f).mem = s.mem := by
  unfold State.flt1; (try dsimp only); all_goals ((repeat' split) <;> simp_all)

theorem execFsqrt_mem (t : ThreadId) (w : IWord) (s : State) : KeepsMem (execFsqrt t w s) s := by
  unfold execFsqrt; (try dsimp only); all_goals ((repeat' split) <;> simp_all)

theorem execFmax_mem (t : ThreadId) (w : IWord) (s : State) : KeepsMem (execFmax t w s) s := by
  unfold execFmax; (try dsimp only); all_goals ((repeat' split) <;> simp_all)

theorem execFmin_mem (t : ThreadId) (w : IWord) (s : State) : KeepsMem (execFmin t w s) s := by
  unfold execFmin; (try dsimp only); all_goals ((repeat' split) <;> simp_all)

theorem execFabs_mem (t : ThreadId) (w : IWord) (s : State) : KeepsMem (execFabs t w s) s := by
  unfold execFabs; (try dsimp only); all_goals ((repeat' split) <;> simp_all)

theorem execFneg_mem (t : ThreadId) (w : IWord) (s : State) : KeepsMem (execFneg t w s) s := by
  unfold execFneg; (try dsimp only); all_goals ((repeat' split) <;> simp_all)

theorem execExp2_mem (t : ThreadId) (w : IWord) (s : State) : KeepsMem (execExp2 t w s) s := by
  unfold execExp2; (try dsimp only); all_goals ((repeat' split) <;> simp_all)

theorem execLog2_mem (t : ThreadId) (w : IWord) (s : State) : KeepsMem (execLog2 t w s) s := by
  unfold execLog2; (try dsimp only); all_goals ((repeat' split) <;> simp_all)

theorem execCeq_mem (t : ThreadId) (w : IWord) (s : State) : KeepsMem (execCeq t w s) s := by
  unfold execCeq; (try dsimp only); all_goals ((repeat' split) <;> simp_all)

theorem execCne_mem (t : ThreadId) (w : IWord) (s : State) : KeepsMem (execCne t w s) s := by
  unfold execCne; (try dsimp only); all_goals ((repeat' split) <;> simp_all)

theorem execClt_mem (t : ThreadId) (w : IWord) (s : State) : KeepsMem (execClt t w s) s := by
  unfold execClt; (try dsimp only); all_goals ((repeat' split) <;> simp_all)

theorem execCle_mem (t : ThreadId) (w : IWord) (s : State) : KeepsMem (execCle t w s) s := by
  unfold execCle; (try dsimp only); all_goals ((repeat' split) <;> simp_all)

theorem execCun_mem (t : ThreadId) (w : IWord) (s : State) : KeepsMem (execCun t w s) s := by
  unfold execCun; (try dsimp only); all_goals ((repeat' split) <;> simp_all)

theorem execCgt_mem (t : ThreadId) (w : IWord) (s : State) : KeepsMem (execCgt t w s) s := by
  unfold execCgt; (try dsimp only); all_goals ((repeat' split) <;> simp_all)

theorem execCge_mem (t : ThreadId) (w : IWord) (s : State) : KeepsMem (execCge t w s) s := by
  unfold execCge; (try dsimp only); all_goals ((repeat' split) <;> simp_all)

theorem execSel_mem (t : ThreadId) (w : IWord) (s : State) : KeepsMem (execSel t w s) s := by
  unfold execSel; (try rw [keepsMem_next]); (first | apply State.issue_mem | apply State.atOnce_mem | apply State.queued_mem) <;> (try assumption) <;> intros <;> (try dsimp only) <;> all_goals ((repeat' split) <;> simp_all)

theorem execKand_mem (t : ThreadId) (w : IWord) (s : State) : KeepsMem (execKand t w s) s := by
  unfold execKand; (try dsimp only); all_goals ((repeat' split) <;> simp_all)

theorem execKor_mem (t : ThreadId) (w : IWord) (s : State) : KeepsMem (execKor t w s) s := by
  unfold execKor; (try dsimp only); all_goals ((repeat' split) <;> simp_all)

theorem execKnot_mem (t : ThreadId) (w : IWord) (s : State) : KeepsMem (execKnot t w s) s := by
  unfold execKnot; (try dsimp only); all_goals ((repeat' split) <;> simp_all)

theorem execCvt_mem (t : ThreadId) (w : IWord) (s : State) : KeepsMem (execCvt t w s) s := by
  unfold execCvt; (try rw [keepsMem_next]); (first | apply State.issue_mem | apply State.atOnce_mem | apply State.queued_mem) <;> (try assumption) <;> intros <;> (try dsimp only) <;> all_goals ((repeat' split) <;> simp_all)

@[simp] theorem State.streamRead_memWf (s : State) (l : Launch) (mc : Nat) (r : SRange) (hm : Mem.wf s.mem = true) : Mem.wf (State.streamRead s l mc r).1.mem = true := by
  unfold State.streamRead; (try dsimp only); all_goals ((repeat' split) <;> simp_all)

@[simp] theorem State.streamWrite_memWf (s : State) (l : Launch) (mc : Nat) (r : SRange) (bs : List Byte) (hm : Mem.wf s.mem = true) : Mem.wf (State.streamWrite s l mc r bs).1.mem = true := by
  unfold State.streamWrite; (try dsimp only); all_goals ((repeat' split) <;> simp_all)

@[simp] theorem State.streamReads_memWf (s : State) (l : Launch) (mc : Nat) (z0 : List SRange) (hm : Mem.wf s.mem = true) : Mem.wf (State.streamReads s l mc z0).1.mem = true := by
  fun_induction State.streamReads s l mc z0 <;> (try simp only [Prod.ext_iff] at *) <;> (try casesm* _ ∧ _) <;> (try subst_vars) <;> ((repeat' split) <;> simp_all)

@[simp] theorem State.streamWrites_memWf (s : State) (l : Launch) (mc : Nat) (z0 : List (SRange × List Byte)) (hm : Mem.wf s.mem = true) : Mem.wf (State.streamWrites s l mc z0).1.mem = true := by
  fun_induction State.streamWrites s l mc z0 <;> (try simp only [Prod.ext_iff] at *) <;> (try casesm* _ ∧ _) <;> (try subst_vars) <;> ((repeat' split) <;> simp_all)

@[simp] theorem State.streamSource_memWf (s : State) (l : Launch) (mc : Nat) (d : SDesc) (hm : Mem.wf s.mem = true) : Mem.wf (State.streamSource s l mc d).1.mem = true := by
  unfold State.streamSource; (try dsimp only); all_goals ((repeat' split) <;> (try simp only [Prod.ext_iff] at *) <;> (try casesm* _ ∧ _) <;> (try subst_vars) <;> ((repeat' split) <;> simp_all))

@[simp] theorem State.streamWait_mem (s : State) (t : ThreadId) (d : Option (BitVec 5)) (v : W32) (grouped : Bool) : (State.streamWait s t d v grouped).mem = s.mem := by
  unfold State.streamWait; (try dsimp only); all_goals ((repeat' split) <;> simp_all)

@[simp] theorem State.streamFail_mem (s : State) (t : ThreadId) (l : Launch) (f : SFail) : (State.streamFail s t l f).mem = s.mem := by
  unfold State.streamFail; (try dsimp only); all_goals ((repeat' split) <;> simp_all)

theorem State.streamIssue_mem (s : State) (t : ThreadId) (w : IWord) (op : Nat) (f : Launch → IWord → SDesc → State)
    (hf : ∀ l w d, (f l w d).mem = s.mem) : (s.streamIssue t w op f).mem = s.mem := by
  unfold State.streamIssue
  apply State.issue_mem; intros; dsimp only; (repeat' split) <;> simp_all

theorem State.streamIssue_memWf (s : State) (t : ThreadId) (w : IWord) (op : Nat) (f : Launch → IWord → SDesc → State)
    (hf : ∀ l w d, Mem.wf (f l w d).mem = true) (hm : Mem.wf s.mem = true) : Mem.wf (s.streamIssue t w op f).mem = true := by
  unfold State.streamIssue
  apply State.issue_memWf _ _ _ _ _ _ _ hm; intros; (repeat' split) <;> simp_all <;> ((repeat' split) <;> simp_all)

theorem execScvt_memWf (t : ThreadId) (w : IWord) (s : State) (hm : Mem.wf s.mem = true) : SafeMem (execScvt t w s) := by
  unfold execScvt; (try rw [memWf_next]); (try dsimp only); (repeat' split) <;> (try rw [memWf_next]) <;> (first | (first | apply State.issue_memWf | apply State.streamIssue_memWf | apply State.atOnce_memWf | apply State.queued_memWf) | skip) <;> (try assumption) <;> (try intros) <;> (try dsimp only) <;> (repeat' split) <;> (try simp only [Prod.ext_iff] at *) <;> (try casesm* _ ∧ _) <;> (try subst_vars) <;> (try simp (maxDischargeDepth := 12) [hm]) <;> (with_reducible repeat' (first | assumption | apply foldl_memWf | apply foldl_fst_memWf)) <;> (try intros) <;> (try dsimp only) <;> (repeat' split) <;> (try simp only [Prod.ext_iff] at *) <;> (try casesm* _ ∧ _) <;> (try subst_vars) <;> simp (maxDischargeDepth := 12) [*]

theorem execSred_memWf (t : ThreadId) (w : IWord) (s : State) (hm : Mem.wf s.mem = true) : SafeMem (execSred t w s) := by
  unfold execSred; (try rw [memWf_next]); (first | apply State.issue_memWf | apply State.streamIssue_memWf | apply State.atOnce_memWf | apply State.queued_memWf) <;> (try assumption) <;> intros <;> (try dsimp only) <;> all_goals ((repeat' split) <;> (try simp only [Prod.ext_iff] at *) <;> (try casesm* _ ∧ _) <;> (try subst_vars) <;> ((repeat' split) <;> simp_all))

theorem execSmove_memWf (t : ThreadId) (w : IWord) (s : State) (hm : Mem.wf s.mem = true) : SafeMem (execSmove t w s) := by
  unfold execSmove; (try rw [memWf_next]); (first | apply State.issue_memWf | apply State.streamIssue_memWf | apply State.atOnce_memWf | apply State.queued_memWf) <;> (try assumption) <;> intros <;> (try dsimp only) <;> all_goals ((repeat' split) <;> (try simp only [Prod.ext_iff] at *) <;> (try casesm* _ ∧ _) <;> (try subst_vars) <;> ((repeat' split) <;> simp_all))

theorem execAtx_memWf (t : ThreadId) (w : IWord) (s : State) (hm : Mem.wf s.mem = true) : SafeMem (execAtx t w s) := by
  unfold execAtx; (try rw [memWf_next]); (first | apply State.issue_memWf | apply State.streamIssue_memWf | apply State.atOnce_memWf | apply State.queued_memWf) <;> (try assumption) <;> intros <;> (try dsimp only) <;> all_goals ((repeat' split) <;> (try simp only [Prod.ext_iff] at *) <;> (try casesm* _ ∧ _) <;> (try subst_vars) <;> ((repeat' split) <;> simp_all))

@[simp] theorem State.updSaved_mem (s : State) (w : TeWork) (f : SavedCore → SavedCore) : (State.updSaved s w f).mem = s.mem := by
  unfold State.updSaved; (try dsimp only); all_goals ((repeat' split) <;> simp_all)

@[simp] theorem State.updThread_mem (s : State) (w : TeWork) (t : Nat) (f : Thread → Thread) : (State.updThread s w t f).mem = s.mem := by
  unfold State.updThread; (try dsimp only); all_goals ((repeat' split) <;> simp_all)

@[simp] theorem State.teRead_memWf (s : State) (te : Nat) (w : TeWork) (space : Nat) (a : Nat) (n : Nat) (hm : Mem.wf s.mem = true) : Mem.wf (State.teRead s te w space a n).1.mem = true := by
  unfold State.teRead; (try dsimp only); all_goals ((repeat' split) <;> simp_all)

@[simp] theorem State.teWrite_memWf (s : State) (te : Nat) (w : TeWork) (space : Nat) (a : Nat) (bs : List Byte) (hm : Mem.wf s.mem = true) : Mem.wf (State.teWrite s te w space a bs).1.mem = true := by
  unfold State.teWrite; (try dsimp only); all_goals ((repeat' split) <;> simp_all)

@[simp] theorem State.teCount_mem (s : State) (w : TeWork) (e : Sheet) : (s.teCount w e).mem = s.mem := by simp [State.teCount]

theorem teLoop_mem (w : TeWork) (f : Nat → State → Acc Sheet) (hf : ∀ i s, (f i s).1.mem = s.mem) (n i : Nat) (s : State) (sh : Sheet) :
    (teLoop w f n i s sh).1.mem = s.mem := by
  induction n generalizing i s sh with
  | zero => rfl
  | succ n ih =>
    unfold teLoop
    split
    · rw [State.teCount_mem]; exact fst_mem ‹_› (hf i s)
    · rw [ih]; exact fst_mem ‹_› (hf i s)

theorem teLoop_memWf (w : TeWork) (f : Nat → State → Acc Sheet) (hf : ∀ i s, Mem.wf s.mem = true → Mem.wf (f i s).1.mem = true) (n i : Nat) (s : State) (sh : Sheet)
    (hm : Mem.wf s.mem = true) : Mem.wf (teLoop w f n i s sh).1.mem = true := by
  induction n generalizing i s sh with
  | zero => exact hm
  | succ n ih =>
    unfold teLoop
    split
    · rw [State.teCount_mem]; exact fst_memWf ‹_› (hf i s hm)
    · exact ih _ _ _ (fst_memWf ‹_› (hf i s hm))

@[simp] theorem State.teIndex_memWf (s : State) (te : Nat) (w : TeWork) (i : Nat) (hm : Mem.wf s.mem = true) : Mem.wf (State.teIndex s te w i).1.mem = true := by
  unfold State.teIndex; (try dsimp only); all_goals ((repeat' split) <;> (try simp only [Prod.ext_iff] at *) <;> (try casesm* _ ∧ _) <;> (try subst_vars) <;> ((repeat' split) <;> simp_all))

@[simp] theorem State.teRow_memWf (s : State) (te : Nat) (w : TeWork) (idx : Nat) (hm : Mem.wf s.mem = true) : Mem.wf (State.teRow s te w idx).1.mem = true := by
  unfold State.teRow; (try dsimp only); all_goals ((repeat' split) <;> simp_all)

@[simp] theorem State.gatherRow_memWf (s : State) (te : Nat) (w : TeWork) (i : Nat) (hm : Mem.wf s.mem = true) : Mem.wf (State.gatherRow s te w i).1.mem = true := by
  unfold State.gatherRow
  (repeat' split) <;> (try simp only [Prod.ext_iff] at *) <;> (try casesm* _ ∧ _) <;> (try subst_vars) <;> (with_reducible repeat' (first | exact hm | apply teIndex_memWf | apply teRow_memWf | apply teWrite_memWf))

@[simp] theorem State.bagRows_memWf (s : State) (te : Nat) (w : TeWork) (n i : Nat) (hm : Mem.wf s.mem = true) : Mem.wf (State.bagRows s te w n i).1.mem = true := by
  induction n generalizing s i with
  | zero => exact hm
  | succ n ih =>
    unfold State.bagRows
    have hr : ∀ (s : State) (c : Prop) [Decidable c] (a k : Nat), Mem.wf s.mem = true →
        Mem.wf (if c then s.pRead w.ptn (Who.te te) a k else (s, .ok [])).1.mem = true := fun s c _ a k h => by split <;> simp [h]
    (repeat' split) <;> (try simp only [Prod.ext_iff] at *) <;> (try casesm* _ ∧ _) <;> (try subst_vars) <;>
      (with_reducible repeat' (first | exact hm | apply hr | apply ih | apply teIndex_memWf | apply teRow_memWf))

@[simp] theorem State.poolBag_memWf (s : State) (te : Nat) (w : TeWork) (b : Nat) (hm : Mem.wf s.mem = true) : Mem.wf (State.poolBag s te w b).1.mem = true := by
  unfold State.poolBag; dsimp only
  (repeat' split) <;> (try simp only [Prod.ext_iff] at *) <;> (try casesm* _ ∧ _) <;> (try subst_vars) <;> (with_reducible repeat' (first | exact hm | (rw [State.teCount_mem]) | apply bagRows_memWf | apply pRead_memWf | apply teWrite_memWf))

@[simp] theorem State.scatterRow_memWf (s : State) (te : Nat) (w : TeWork) (i : Nat) (hm : Mem.wf s.mem = true) : Mem.wf (State.scatterRow s te w i).1.mem = true := by
  unfold State.scatterRow; (try rw [memWf_next]); (try dsimp only); (repeat' split) <;> (try simp only [Prod.ext_iff] at *) <;> (try casesm* _ ∧ _) <;> (try subst_vars) <;> simp (maxDischargeDepth := 12) [hm]

@[simp] theorem State.teVector_memWf (s : State) (te : Nat) (w : TeWork) (hm : Mem.wf s.mem = true) : Mem.wf (State.teVector s te w).1.mem = true := by
  unfold State.teVector; (try dsimp only); all_goals ((repeat' split) <;> (try simp only [Prod.ext_iff] at *) <;> (try casesm* _ ∧ _) <;> (try subst_vars) <;> ((repeat' split) <;> simp_all))

@[simp] theorem State.topkAll_memWf (s : State) (te : Nat) (w : TeWork) (hm : Mem.wf s.mem = true) : Mem.wf (State.topkAll s te w).1.mem = true := by
  unfold State.topkAll; (try rw [memWf_next]); (try dsimp only); (repeat' split) <;> (try rw [memWf_next]) <;> (try simp only [Prod.ext_iff] at *) <;> (try casesm* _ ∧ _) <;> (try subst_vars) <;> (try simp (maxDischargeDepth := 12) [hm]) <;> (with_reducible repeat' (first | assumption | apply foldl_memWf | apply foldl_fst_memWf)) <;> (try intros) <;> (try dsimp only) <;> (repeat' split) <;> (try simp only [Prod.ext_iff] at *) <;> (try casesm* _ ∧ _) <;> (try subst_vars) <;> simp (maxDischargeDepth := 12) [*]

@[simp] theorem State.lseAllReq_memWf (s : State) (te : Nat) (w : TeWork) (hm : Mem.wf s.mem = true) : Mem.wf (State.lseAllReq s te w).1.mem = true := by
  unfold State.lseAllReq; dsimp only
  have hr : ∀ (s : State) (c : Prop) [Decidable c] (a k : Nat), Mem.wf s.mem = true →
        Mem.wf (if c then s.pRead w.ptn (Who.te te) a k else (s, .ok [])).1.mem = true := fun s c _ a k h => by split <;> simp [h]
  (repeat' split) <;> (try simp only [Prod.ext_iff] at *) <;> (try casesm* _ ∧ _) <;> (try subst_vars) <;> (with_reducible repeat' (first | exact hm | (rw [State.teCount_mem]) | apply hr | apply teVector_memWf | apply pWrite_memWf))

@[simp] theorem State.teDone_mem (s : State) (te k : Nat) (w : TeWork) (r : Acc Sheet) : (s.teDone te k w r).mem = r.1.mem := by
  unfold State.teDone; dsimp only; (repeat' split) <;> simp

theorem State.teExec_mem (s : State) (te k op : Nat) (f : TeWork → Acc Sheet) (hf : ∀ w, (f w).1.mem = s.mem) :
    (s.teExec te k op f).mem = s.mem := by
  unfold State.teExec; (repeat' split) <;> simp [hf]

theorem State.teExec_memWf (s : State) (te k op : Nat) (f : TeWork → Acc Sheet) (hf : ∀ w, Mem.wf (f w).1.mem = true) (hm : Mem.wf s.mem = true) :
    Mem.wf (s.teExec te k op f).mem = true := by
  unfold State.teExec; (repeat' split) <;> simp [hf, hm]

theorem execGather_memWf (te : TeId) (k : Nat) (s : State) (hm : Mem.wf s.mem = true) : SafeMem (execGather te k s) :=
  ⟨_, rfl, State.teExec_memWf _ _ _ _ _ (fun _ => teLoop_memWf _ _ (fun _ _ h => by simp [h]) _ _ _ _ hm) hm⟩

theorem execPool_memWf (te : TeId) (k : Nat) (s : State) (hm : Mem.wf s.mem = true) : SafeMem (execPool te k s) :=
  ⟨_, rfl, State.teExec_memWf _ _ _ _ _ (fun _ => teLoop_memWf _ _ (fun _ _ h => by simp [h]) _ _ _ _ hm) hm⟩

theorem execScatterAdd_memWf (te : TeId) (k : Nat) (s : State) (hm : Mem.wf s.mem = true) : SafeMem (execScatterAdd te k s) :=
  ⟨_, rfl, State.teExec_memWf _ _ _ _ _ (fun _ => teLoop_memWf _ _ (fun _ _ h => by simp [h]) _ _ _ _ hm) hm⟩

theorem execTopk_memWf (te : TeId) (k : Nat) (s : State) (hm : Mem.wf s.mem = true) : SafeMem (execTopk te k s) :=
  ⟨_, rfl, State.teExec_memWf _ _ _ _ _ (fun _ => by simp [hm]) hm⟩

theorem execLse_memWf (te : TeId) (k : Nat) (s : State) (hm : Mem.wf s.mem = true) : SafeMem (execLse te k s) :=
  ⟨_, rfl, State.teExec_memWf _ _ _ _ _ (fun _ => by simp [hm]) hm⟩

theorem execTeRequestComplete_mem (te : TeId) (k : Nat) (s : State) : KeepsMem (execTeRequestComplete te k s) s := by
  unfold execTeRequestComplete; (try dsimp only); all_goals ((repeat' split) <;> simp_all)

theorem execTereq_mem (t : ThreadId) (w : IWord) (s : State) : KeepsMem (execTereq t w s) s := by
  unfold execTereq; (try rw [keepsMem_next]); (first | apply State.issue_mem | apply State.streamIssue_mem | apply State.atOnce_mem | apply State.queued_mem) <;> (try assumption) <;> intros <;> (try dsimp only) <;> all_goals ((repeat' split) <;> simp_all)

@[simp] theorem State.updQp_mem (s : State) (n : QpId) (f : QPort → QPort) : (State.updQp s n f).mem = s.mem := rfl

@[simp] theorem State.drainQps_mem (s : State) : s.drainQps.mem = s.mem := by
  unfold State.drainQps; rw [foldl_mem]; intro s n; rfl

@[simp] theorem State.reserve_mem (s : State) (p : PtnId) (neg : Bool) (k : Nat) : (s.reserve p neg k).mem = s.mem := by
  unfold State.reserve; rw [State.drainQps_mem, foldl_mem]; intro s n; rfl

@[simp] theorem State.stampPkt_mem (s : State) (k : QPkt) : (State.stampPkt s k).1.mem = s.mem := by
  unfold State.stampPkt; (try dsimp only); all_goals ((repeat' split) <;> simp_all)

@[simp] theorem State.sendAll_mem (s : State) (ports : List QpId) (i : Nat) (ks : List QPkt) : (s.sendAll ports i ks).mem = s.mem := by
  induction ks generalizing s i with
  | nil => rfl
  | cons k ks ih => unfold State.sendAll; split <;> simp [ih]

@[simp] theorem State.sendPkts_mem (s : State) (mask : BitVec 48) (ks : List QPkt) : (State.sendPkts s mask ks).mem = s.mem := by
  unfold State.sendPkts; (try dsimp only); all_goals ((repeat' split) <;> simp_all)

@[simp] theorem State.dropPkt_mem (s : State) (qp : QpId) : (State.dropPkt s qp).mem = s.mem := by
  unfold State.dropPkt; (try dsimp only); all_goals ((repeat' split) <;> simp_all)

@[simp] theorem State.stageCmd_mem (s : State) (h : Hdr) : (State.stageCmd s h).mem = s.mem := by
  unfold State.stageCmd; (try dsimp only); all_goals ((repeat' split) <;> simp_all)

@[simp] theorem State.reshare_mem (s : State) : (State.reshare s).mem = s.mem := by
  unfold State.reshare; (try dsimp only); all_goals ((repeat' split) <;> simp_all)

@[simp] theorem State.fetchShort_memWf (s : State) (p : PtnId) (mc : Nat) (t : TensorDesc) (binds : List W64) (r0 r1 c0 c1 n sl : Nat) (hm : Mem.wf s.mem = true) :
    Mem.wf (s.fetchShort p mc t binds r0 r1 c0 c1 n sl).1.mem = true := by
  induction n generalizing s sl with
  | zero => exact hm
  | succ n ih =>
    unfold State.fetchShort; dsimp only
    (repeat' split) <;> (try simp only [Prod.ext_iff] at *) <;> (try casesm* _ ∧ _) <;> (try subst_vars) <;> (with_reducible repeat' (first | exact hm | apply ih | apply pRead_memWf))

@[simp] theorem State.formedOf_memWf (s : State) (h : Hdr) (mc : Nat) (t : TensorDesc) (binds : List W64) (k : Nat) (hm : Mem.wf s.mem = true) : Mem.wf (State.formedOf s h mc t binds k).1.mem = true := by
  unfold State.formedOf; (try dsimp only); all_goals ((repeat' split) <;> (try simp only [Prod.ext_iff] at *) <;> (try casesm* _ ∧ _) <;> (try subst_vars) <;> ((repeat' split) <;> simp_all))

@[simp] theorem State.copyOf_memWf (s : State) (h : Hdr) (mc : Nat) (q4f : Bool) (streamed : Bool) (t : TensorDesc) (binds : List W64) (hm : Mem.wf s.mem = true) : Mem.wf (State.copyOf s h mc q4f streamed t binds).1.mem = true := by
  unfold State.copyOf; (try dsimp only); all_goals ((repeat' split) <;> (try simp only [Prod.ext_iff] at *) <;> (try casesm* _ ∧ _) <;> (try subst_vars) <;> simp (maxDischargeDepth := 12) [*])

@[simp] theorem State.fetch_memWf (s : State) (h : Hdr) (mc : Nat) (t : TensorDesc) (binds : List W64) (k : Nat) (passes : Nat) (r0 : Nat) (r1 : Nat) (c0 : Nat) (c1 : Nat) (hm : Mem.wf s.mem = true) : Mem.wf (State.fetch s h mc t binds k passes r0 r1 c0 c1).1.mem = true := by
  unfold State.fetch; (try dsimp only); all_goals ((repeat' split) <;> (try simp only [Prod.ext_iff] at *) <;> (try casesm* _ ∧ _) <;> (try subst_vars) <;> ((repeat' split) <;> simp_all))

@[simp] theorem State.fetchOp_memWf (s : State) (h : Hdr) (mc : Nat) (basic : Bool) (q4f : Bool) (streamed : Bool) (turned : Bool) (t : TensorDesc) (binds : List W64) (k : Nat) (passes : Nat) (r0 : Nat) (r1 : Nat) (c0 : Nat) (c1 : Nat) (hm : Mem.wf s.mem = true) : Mem.wf (State.fetchOp s h mc basic q4f streamed turned t binds k passes r0 r1 c0 c1).1.mem = true := by
  unfold State.fetchOp; (try dsimp only); all_goals ((repeat' split) <;> (try simp only [Prod.ext_iff] at *) <;> (try casesm* _ ∧ _) <;> (try subst_vars) <;> simp (maxDischargeDepth := 12) [*])

theorem State.takeRecord_mem {s t : State} {h : Hdr} {mc : Nat} {make : Nat → PlanRec} (e : s.takeRecord h mc make = some t) : t.mem = s.mem := by
  unfold State.takeRecord at e; dsimp only at e
  split at e
  · cases e
  · split at e
    · obtain ⟨_, _, rfl⟩ := Option.map_eq_some_iff.mp e; simp
    · cases e; rfl
    · cases e

@[simp] theorem State.failWork_mem (s : State) (h : Hdr) (item : Nat) (code : Status) : (s.failWork h item code).mem = s.mem := by
  have e : ∀ l : List Nat, (l.foldl (fun s n => s.updMc n MCore.endTile) s).mem = s.mem := fun l => foldl_mem _ (fun _ _ => by simp) l s
  unfold State.failWork; split <;> simp [e]

@[simp] theorem State.failRun_mem (s : State) (h : Hdr) (item mc : Nat) (code : Status) : (s.failRun h item mc code).mem = s.mem := by simp [State.failRun]

@[simp] theorem State.fetchS_memWf (s : State) (h : Hdr) (mc : Nat) (basic : Bool) (d : RunDesc) (st : TensorDesc) (binds : List W64) (ks : Nat) (hm : Mem.wf s.mem = true) : Mem.wf (s.fetchS h mc basic d st binds ks).1.mem = true := by
  unfold State.fetchS; dsimp only; split <;> simp [hm]

@[simp] theorem State.fetchW_memWf (s : State) (h : Hdr) (mc : Nat) (basic : Bool) (d : RunDesc) (wt : TensorDesc) (binds : List W64) (kw : Nat) (hm : Mem.wf s.mem = true) : Mem.wf (s.fetchW h mc basic d wt binds kw).1.mem = true := by
  unfold State.fetchW; dsimp only; split
  · exact hm
  · split <;> (rename_i h3; refine fst_memWf h3 ?_; split <;> simp [hm])

@[simp] theorem State.arrayWork_memWf (s : State) (h : Hdr) (item mc : Nat) (basic : Bool) (plan : Option Nat) (d : RunDesc) (st wt : TensorDesc) (x : Elem) (we : Option Elem) (hm : Mem.wf s.mem = true) :
    Mem.wf (s.arrayWork h item mc basic plan d st wt x we).mem = true := by
  unfold State.arrayWork; simp [hm]

@[simp] theorem State.doRun_memWf (s : State) (h : Hdr) (item mc : Nat) (basic : Bool) (plan : Option Nat) (d : RunDesc) (st wt : TensorDesc) (binds : List W64) (ks kw : Nat) (hm : Mem.wf s.mem = true) :
    Mem.wf (s.doRun h item mc basic plan d st wt binds ks kw).mem = true := by
  unfold State.doRun
  split
  · rename_i h1
    rw [State.failRun_mem]
    exact fst_memWf h1 (by simp [hm])
  · rename_i s1 x h1
    have e1 := fst_memWf h1 (by simp [hm])
    split
    · rename_i h2
      rw [State.failRun_mem]
      exact fst_memWf h2 (by simp [e1])
    · rename_i s2 we h2
      have e2 := fst_memWf h2 (by simp [e1])
      split <;> simp [e2]

theorem execRun_memWf (p : PtnId) (q : QueueId) (item : W16) (mc : McId) (d : RunDesc) (st wt : TensorDesc) (s : State) (hm : Mem.wf s.mem = true) :
    SafeMem (execRun p q item mc d st wt s) := by
  unfold execRun; rw [memWf_next]
  split
  · exact hm
  · extract_lets h n im basic ops s1
    have e1 : Mem.wf s1.mem = true := ite_memWf (by simpa using hm) hm
    clear_value s1
    split
    · exact e1
    · split
      · simp [e1]
      · split
        · exact e1
        · rename_i h; have := State.takeRecord_mem h
          split <;> simp [this, e1]

theorem execRunRelease_mem (mc : McId) (s : State) : KeepsMem (execRunRelease mc s) s := by
  unfold execRunRelease; (try dsimp only); all_goals ((repeat' split) <;> simp_all)

theorem execSplit_mem (p : PtnId) (q : QueueId) (d : SplitDesc) (s : State) : KeepsMem (execSplit p q d s) s := by
  unfold execSplit; (try dsimp only); all_goals ((repeat' split) <;> simp_all)

@[simp] theorem State.moveTiles_mem (s : State) (d : SplitDesc) (a : Nat) (b : Nat) : (State.moveTiles s d a b).mem = s.mem := by
  unfold State.moveTiles; (try dsimp only); all_goals ((repeat' split) <;> simp_all)

@[simp] theorem State.mergeTiles_mem (s : State) (d : SplitDesc) (low : Nat) (high : Nat) : (State.mergeTiles s d low high).1.mem = s.mem := by
  unfold State.mergeTiles; (try dsimp only); all_goals ((repeat' split) <;> simp_all)

theorem execSplitHandoff_mem (p : PtnId) (q : QueueId) (part : Nat) (level : Nat) (s : State) : KeepsMem (execSplitHandoff p q part level s) s := by
  unfold execSplitHandoff; (try dsimp only); all_goals ((repeat' split) <;> simp_all)

theorem execWaitSem_mem (p : PtnId) (q : QueueId) (mc : McId) (sem : SemId) (s : State) : KeepsMem (execWaitSem p q mc sem s) s := by
  unfold execWaitSem; rw [keepsMem_next]
  (repeat' split) <;> (try rfl) <;> (rename_i h _; have := State.takeRecord_mem h; simpa)

theorem execPostSem_mem (p : PtnId) (q : QueueId) (mc : McId) (sem : SemId) (s : State) : KeepsMem (execPostSem p q mc sem s) s := by
  unfold execPostSem; rw [keepsMem_next]
  (repeat' split) <;> (try rfl) <;> (rename_i h; have := State.takeRecord_mem h; simpa)

theorem execNop_mem (h : Hdr) (s : State) : KeepsMem (execNop h s) s := by
  first
  | (unfold execNop; (try dsimp only); all_goals ((repeat' split) <;> simp_all); done)
  | (unfold execNop; (try dsimp only); all_goals ((repeat' split) <;> (try simp only [Prod.ext_iff] at *) <;> (try casesm* _ ∧ _) <;> (try subst_vars) <;> ((repeat' split) <;> simp_all)); done)
  | (unfold execNop; (try rw [keepsMem_next]); (first | apply State.issue_mem | apply State.streamIssue_mem | apply State.atOnce_mem | apply State.queued_mem) <;> (try assumption) <;> intros <;> (try dsimp only) <;> all_goals ((repeat' split) <;> simp_all); done)
  | (unfold execNop; (try rw [keepsMem_next]); (first | apply State.issue_mem | apply State.streamIssue_mem | apply State.atOnce_mem | apply State.queued_mem) <;> (try assumption) <;> intros <;> (try dsimp only) <;> all_goals ((repeat' split) <;> (try simp only [Prod.ext_iff] at *) <;> (try casesm* _ ∧ _) <;> (try subst_vars) <;> ((repeat' split) <;> simp_all)); done)
  | (unfold execNop; (try rw [keepsMem_next]); (try dsimp only); ((repeat' split) <;> (try simp only [Prod.ext_iff] at *) <;> (try casesm* _ ∧ _) <;> (try subst_vars) <;> (try simp_all) <;> (repeat' (first | rw [foldl_mem] | rw [foldl_fst_mem])) <;> (try intros) <;> (try dsimp only) <;> ((repeat' split) <;> simp_all)); done)
  | (unfold execNop; (try rw [keepsMem_next]); (try dsimp only); (repeat' split) <;> (try rw [keepsMem_next]) <;> (first | (first | apply State.issue_mem | apply State.streamIssue_mem | apply State.atOnce_mem | apply State.queued_mem) | skip) <;> (try assumption) <;> (try intros) <;> (try dsimp only) <;> ((repeat' split) <;> (try simp only [Prod.ext_iff] at *) <;> (try casesm* _ ∧ _) <;> (try subst_vars) <;> (try simp_all) <;> (repeat' (first | rw [foldl_mem] | rw [foldl_fst_mem])) <;> (try intros) <;> (try dsimp only) <;> ((repeat' split) <;> simp_all)))

theorem execEcho_mem (h : Hdr) (bytes : List Byte) (s : State) : KeepsMem (execEcho h bytes s) s := by
  first
  | (unfold execEcho; (try dsimp only); all_goals ((repeat' split) <;> simp_all); done)
  | (unfold execEcho; (try dsimp only); all_goals ((repeat' split) <;> (try simp only [Prod.ext_iff] at *) <;> (try casesm* _ ∧ _) <;> (try subst_vars) <;> ((repeat' split) <;> simp_all)); done)
  | (unfold execEcho; (try rw [keepsMem_next]); (first | apply State.issue_mem | apply State.streamIssue_mem | apply State.atOnce_mem | apply State.queued_mem) <;> (try assumption) <;> intros <;> (try dsimp only) <;> all_goals ((repeat' split) <;> simp_all); done)
  | (unfold execEcho; (try rw [keepsMem_next]); (first | apply State.issue_mem | apply State.streamIssue_mem | apply State.atOnce_mem | apply State.queued_mem) <;> (try assumption) <;> intros <;> (try dsimp only) <;> all_goals ((repeat' split) <;> (try simp only [Prod.ext_iff] at *) <;> (try casesm* _ ∧ _) <;> (try subst_vars) <;> ((repeat' split) <;> simp_all)); done)
  | (unfold execEcho; (try rw [keepsMem_next]); (try dsimp only); ((repeat' split) <;> (try simp only [Prod.ext_iff] at *) <;> (try casesm* _ ∧ _) <;> (try subst_vars) <;> (try simp_all) <;> (repeat' (first | rw [foldl_mem] | rw [foldl_fst_mem])) <;> (try intros) <;> (try dsimp only) <;> ((repeat' split) <;> simp_all)); done)
  | (unfold execEcho; (try rw [keepsMem_next]); (try dsimp only); (repeat' split) <;> (try rw [keepsMem_next]) <;> (first | (first | apply State.issue_mem | apply State.streamIssue_mem | apply State.atOnce_mem | apply State.queued_mem) | skip) <;> (try assumption) <;> (try intros) <;> (try dsimp only) <;> ((repeat' split) <;> (try simp only [Prod.ext_iff] at *) <;> (try casesm* _ ∧ _) <;> (try subst_vars) <;> (try simp_all) <;> (repeat' (first | rw [foldl_mem] | rw [foldl_fst_mem])) <;> (try intros) <;> (try dsimp only) <;> ((repeat' split) <;> simp_all)))

theorem execAcctRead_mem (h : Hdr) (first : W16) (count : W16) (s : State) : KeepsMem (execAcctRead h first count s) s := by
  unfold execAcctRead; (try rw [keepsMem_next]); (first | apply State.issue_mem | apply State.streamIssue_mem | apply State.atOnce_mem | apply State.queued_mem) <;> (try assumption) <;> intros <;> (try dsimp only) <;> all_goals ((repeat' split) <;> simp_all)

theorem execAcctClear_mem (h : Hdr) (all : Bool) (tag : W32) (s : State) : KeepsMem (execAcctClear h all tag s) s := by
  unfold execAcctClear; (try rw [keepsMem_next]); (first | apply State.issue_mem | apply State.streamIssue_mem | apply State.atOnce_mem | apply State.queued_mem) <;> (try assumption) <;> intros <;> (try dsimp only) <;> all_goals ((repeat' split) <;> simp_all)

@[simp] theorem State.addCgs_memWf (s : State) (p : PtnId) (mask : W32) (fresh : Bool) (hm : Mem.wf s.mem = true) : Mem.wf (s.addCgs p mask fresh).mem = true := by
  unfold State.addCgs; dsimp only
  simp only [State.reshare_mem, State.reserve_mem, State.updPtn_mem]
  refine foldl_memWf _ (fun s a h => ?_) _ _ hm
  refine State.updMem_memWf _ _ (fun m h => Mem.setHolder_wf _ _ h) ?_
  split
  · exact h
  · exact State.updMem_memWf _ _ (fun m h => Mem.zeroSlice_wf _ h) h

theorem execPtnCreate_memWf (h : Hdr) (cgMask : W32) (qEnable : Byte) (keyLabel : W64) (s : State) (hm : Mem.wf s.mem = true) : SafeMem (execPtnCreate h cgMask qEnable keyLabel s) := by
  unfold execPtnCreate; (try rw [memWf_next]); with_reducible (first | apply State.issue_memWf | apply State.streamIssue_memWf | apply State.atOnce_memWf | apply State.queued_memWf | apply State.queuedDone_memWf | apply State.seqStep_memWf | apply State.onQp_memWf | apply State.onGroup_memWf | apply State.inRound_memWf | apply State.onI3c_memWf) <;> (try with_reducible assumption) <;> intros <;> (try dsimp only) <;> (repeat' split) <;> (try simp only [Prod.ext_iff] at *) <;> (try casesm* _ ∧ _) <;> (try subst_vars) <;> simp (maxDischargeDepth := 12) [*]

theorem execCgAlloc_memWf (h : Hdr) (cgMask : W32) (s : State) (hm : Mem.wf s.mem = true) : SafeMem (execCgAlloc h cgMask s) := by
  unfold execCgAlloc; (try rw [memWf_next]); with_reducible (first | apply State.issue_memWf | apply State.streamIssue_memWf | apply State.atOnce_memWf | apply State.queued_memWf | apply State.queuedDone_memWf | apply State.seqStep_memWf | apply State.onQp_memWf | apply State.onGroup_memWf | apply State.inRound_memWf | apply State.onI3c_memWf) <;> (try with_reducible assumption) <;> intros <;> (try dsimp only) <;> (repeat' split) <;> (try simp only [Prod.ext_iff] at *) <;> (try casesm* _ ∧ _) <;> (try subst_vars) <;> simp (maxDischargeDepth := 12) [*]

theorem execCgRelease_mem (h : Hdr) (cgMask : W32) (s : State) : KeepsMem (execCgRelease h cgMask s) s := by
  unfold execCgRelease; (try rw [keepsMem_next]); (first | apply State.issue_mem | apply State.streamIssue_mem | apply State.atOnce_mem | apply State.queued_mem) <;> (try assumption) <;> intros <;> (try dsimp only) <;> all_goals ((repeat' split) <;> simp_all)

theorem execCgReleaseEffect_mem (p : PtnId) (cg : CgId) (s : State) : KeepsMem (execCgReleaseEffect p cg s) s := by
  unfold execCgReleaseEffect; (try dsimp only); all_goals ((repeat' split) <;> simp_all)

theorem execPtnDestroy_mem (h : Hdr) (s : State) : KeepsMem (execPtnDestroy h s) s := by
  unfold execPtnDestroy; (try rw [keepsMem_next]); (first | apply State.issue_mem | apply State.streamIssue_mem | apply State.atOnce_mem | apply State.queued_mem) <;> (try assumption) <;> intros <;> (try dsimp only) <;> all_goals ((repeat' split) <;> simp_all)

@[simp] theorem State.toMembers_mem (s : State) (p : PtnId) (g : Group) (kind : Byte) (vl : BitVec 4) (payload : List Byte) : (State.toMembers s p g kind vl payload).mem = s.mem := by
  unfold State.toMembers; (try dsimp only); all_goals ((repeat' split) <;> simp_all)

@[simp] theorem State.updGroup_mem (s : State) (p : PtnId) (g : W32) (f : Group → Group) : (State.updGroup s p g f).mem = s.mem := by
  unfold State.updGroup; (try dsimp only); all_goals ((repeat' split) <;> simp_all)

@[simp] theorem State.abortGroups_mem (s : State) (p : PtnId) : (State.abortGroups s p).mem = s.mem := by
  unfold State.abortGroups; (try dsimp only); all_goals ((repeat' split) <;> simp_all)

@[simp] theorem State.stopWork_mem (s : State) (p : PtnId) : (s.stopWork p).mem = s.mem := by
  unfold State.stopWork; extract_lets mine s1 s2 s3 s4
  rw [foldl_mem]
  · simp only [s4]; rw [foldl_mem]
    · simp only [s3]; rw [foldl_mem]
      · simp only [s2, s1]; rw [foldl_mem]; intro s n; rfl
      · intro s n; rfl
    · intro s n; rfl
  · intro s n; rfl

@[simp] theorem State.resetPtn_mem (s : State) (p : PtnId) (cause : Byte) : (State.resetPtn s p cause).mem = s.mem := by
  unfold State.resetPtn; (try dsimp only); all_goals ((repeat' split) <;> simp_all)

@[simp] theorem State.finishReset_mem (s : State) (p : PtnId) : (State.finishReset s p).mem = s.mem := by
  unfold State.finishReset; (try dsimp only); all_goals ((repeat' split) <;> simp_all)

theorem execPtnReset_mem (h : Hdr) (s : State) : KeepsMem (execPtnReset h s) s := by
  unfold execPtnReset; (try dsimp only); all_goals ((repeat' split) <;> simp_all)

theorem execPartitionResetComplete_mem (p : PtnId) (s : State) : KeepsMem (execPartitionResetComplete p s) s := by
  unfold execPartitionResetComplete; (try dsimp only); all_goals ((repeat' split) <;> simp_all)

@[simp] theorem State.updRun_mem (s : State) (p : PtnId) (h : Hdr) (f : Train → Train) : (State.updRun s p h f).mem = s.mem := by
  unfold State.updRun; (try dsimp only); all_goals ((repeat' split) <;> simp_all)

@[simp] theorem State.refreshLoss_mem (s : State) (h : Hdr) : (State.refreshLoss s h).mem = s.mem := by
  unfold State.refreshLoss; (try dsimp only); all_goals ((repeat' split) <;> simp_all)

@[simp] theorem State.countLosses_mem (s : State) (h : Hdr) (r : Train) : (State.countLosses s h r).mem = s.mem := by
  unfold State.countLosses; (try dsimp only); all_goals ((repeat' split) <;> simp_all)

@[simp] theorem State.sharedRead_memWf (s : State) (p : PtnId) (hm : Mem.wf s.mem = true) : Mem.wf (s.sharedRead p).1.mem = true := by
  unfold State.sharedRead; dsimp only; (repeat' split) <;> simp [hm]

@[simp] theorem State.netOf_memWf (s : State) (p : PtnId) (m : Model) (vs : List (Nat × Nat × W64)) (c : CmdRec) (start : Nat → Nat) (variant : Option (List Byte)) (hm : Mem.wf s.mem = true) : Mem.wf (State.netOf s p m vs c start variant).1.mem = true := by
  have own : ∀ s2 r, (match m.image.weights with
      | some w => if m.flags.getLsbD 2 then (s, .ok []) else s.pRead p Who.firmware (m.addr + w.1) w.2
      | none => (s, .ok []) : Acc (List Byte)) = (s2, r) → Mem.wf s2.mem = true := by
    intro s2 r h; refine fst_memWf h ?_
    split
    · exact ite_acc_memWf hm (State.pRead_memWf _ _ _ _ _ hm)
    · exact hm
  unfold State.netOf; dsimp only
  split
  · exact own _ _ ‹_›
  · rename_i h1
    have e := own _ _ h1
    split <;> (rename_i h2; refine fst_memWf h2 (ite_acc_memWf (State.sharedRead_memWf _ _ e) e))

@[simp] theorem State.updTrain_mem (s : State) (p : PtnId) (f : Trainer → Trainer) : (State.updTrain s p f).mem = s.mem := by
  unfold State.updTrain; (try dsimp only); all_goals ((repeat' split) <;> simp_all)

@[simp] theorem State.mbStash_memWf (s : State) (p : PtnId) (m : Mb) (hm : Mem.wf s.mem = true) : Mem.wf (State.mbStash s p m).1.mem = true := by
  unfold State.mbStash; (try dsimp only); all_goals ((repeat' split) <;> simp_all)

@[simp] theorem State.spillMb_memWf (s : State) (p : PtnId) (m : Mb) (hm : Mem.wf s.mem = true) : Mem.wf (State.spillMb s p m).1.mem = true := by
  unfold State.spillMb; (try dsimp only); all_goals ((repeat' split) <;> (try simp only [Prod.ext_iff] at *) <;> (try casesm* _ ∧ _) <;> (try subst_vars) <;> simp (maxDischargeDepth := 12) [*])

@[simp] theorem State.makeRoom_memWf (z0 : Nat) (z1 : PtnId) (z2 : Nat) (z3 : State) (hm : Mem.wf z3.mem = true) : Mem.wf (State.makeRoom z0 z1 z2 z3).state.mem = true := by
  fun_induction State.makeRoom <;> (try simp only [Prod.ext_iff] at *) <;> (try casesm* _ ∧ _) <;> (try subst_vars) <;> ((repeat' split) <;> simp (maxDischargeDepth := 12) [*])

@[simp] theorem State.place_memWf (s : State) (p : PtnId) (n : Nat) (hm : Mem.wf s.mem = true) : Mem.wf (State.place s p n).state.mem = true := by
  unfold State.place; (try dsimp only); all_goals ((repeat' split) <;> (try simp only [Prod.ext_iff] at *) <;> (try casesm* _ ∧ _) <;> (try subst_vars) <;> simp (maxDischargeDepth := 12) [*])

@[simp] theorem State.dropMb_mem (s : State) (p : PtnId) (r : Train) (i : Nat) : (State.dropMb s p r i).mem = s.mem := by
  unfold State.dropMb; (try dsimp only); all_goals ((repeat' split) <;> simp_all)

theorem State.room_memWf {s : State} {p : PtnId} {n : Nat} {r : State.Room} (h : s.place p n = r) (hm : Mem.wf s.mem = true) : Mem.wf r.state.mem = true :=
  h ▸ State.place_memWf s p n hm

@[simp] theorem State.stashedKv_memWf (s : State) (p : PtnId) (r : Train) (im : Image) (i : Nat) (hm : Mem.wf s.mem = true) : Mem.wf (State.stashedKv s p r im i).1.mem = true := by
  induction i with
  | zero => exact hm
  | succ i ih =>
    unfold State.stashedKv; dsimp only
    split
    · rename_i h1; exact fst_memWf h1 ih
    · rename_i s1 a h1
      have e1 : Mem.wf s1.mem = true := fst_memWf h1 ih
      split <;> (rename_i h2; refine fst_memWf h2 ?_; split <;> simp [e1])

@[simp] theorem State.nets_memWf (s : State) (p : PtnId) (r : Train) (vs : List (Nat × Nat × W64)) (hm : Mem.wf s.mem = true) : Mem.wf (State.nets s p r vs).1.mem = true := by
  unfold State.nets
  split
  · split
    · rename_i h1; exact fst_memWf h1 (State.netOf_memWf _ _ _ _ _ _ _ hm)
    · rename_i s1 w h1
      have e1 : Mem.wf s1.mem = true := fst_memWf h1 (State.netOf_memWf _ _ _ _ _ _ _ hm)
      split
      · exact e1
      · split <;> (rename_i h2; exact fst_memWf h2 (State.netOf_memWf _ _ _ _ _ _ _ e1))
  · exact hm

@[simp] theorem State.closeFwd_mem (s : State) (p : PtnId) (r : Train) (failed : Option Status) : (State.closeFwd s p r failed).mem = s.mem := by
  unfold State.closeFwd; (try dsimp only); all_goals ((repeat' split) <;> simp_all)

@[simp] theorem State.rankFwd_mem (s : State) (p : PtnId) (r : Train) : (State.rankFwd s p r).mem = s.mem := by
  unfold State.rankFwd; (try dsimp only); all_goals ((repeat' split) <;> simp_all)

@[simp] theorem State.runFwd_memWf (s : State) (p : PtnId) (r : Train) (vs : List (Nat × Nat × W64)) (hm : Mem.wf s.mem = true) : Mem.wf (State.runFwd s p r vs).mem = true := by
  unfold State.runFwd; dsimp only
  split
  · rename_i h1; rw [State.closeFwd_mem]; exact fst_memWf h1 (State.pRead_memWf _ _ _ _ _ hm)
  · rename_i s1 b h1
    have e1 : Mem.wf s1.mem = true := fst_memWf h1 (State.pRead_memWf _ _ _ _ _ hm)
    split
    · rename_i h2; rw [State.closeFwd_mem]; exact fst_memWf h2 (State.nets_memWf _ _ _ _ e1)
    · rename_i s2 w t h2
      have e2 : Mem.wf s2.mem = true := fst_memWf h2 (State.nets_memWf _ _ _ _ e1)
      split
      · simp [e2]
      · have e3 : ∀ x : Acc (List (Nat × Mat × Mat)), (if r.eval then (s2, .ok r.sKv) else match s2.stashedKv p r w.im r.nextFwd with
            | (s, .error c) => (s, .error c)
            | (s, .ok a) => (s, .ok (joinKv a r.sKv))) = x → Mem.wf x.1.mem = true := by
          rintro x rfl
          split
          · exact e2
          · split <;> (rename_i h4; exact fst_memWf h4 (State.stashedKv_memWf _ _ _ _ _ e2))
        split
        · rename_i h3; rw [State.closeFwd_mem]; exact e3 _ h3
        · rename_i h3
          have := e3 _ h3
          split <;> simp_all

@[simp] theorem State.openFwd_memWf (s : State) (p : PtnId) (r : Train) (hm : Mem.wf s.mem = true) : ∀ t ∈ State.openFwd s p r, Mem.wf t.mem = true := by
  intro t ht; unfold State.openFwd at ht; dsimp only at ht
  split at ht
  · cases ht
  · split at ht
    · rename_i s1 h1
      split at ht
      · cases ht
      · cases ht; exact State.room_memWf h1 hm
    · rename_i s1 c h1
      have e1 : Mem.wf s1.mem = true := State.room_memWf h1 hm
      cases ht
      rw [State.updRun_mem, foldl_mem _ (fun s a => by simp)]
      exact e1
    · rename_i s1 h1
      have e1 : Mem.wf s1.mem = true := State.room_memWf h1 hm
      rw [← apply_ite some] at ht
      cases ht
      refine ite_memWf ?_ ?_
      · rw [State.closeFwd_mem]; split <;> simp [e1]
      · apply State.runFwd_memWf
        rw [State.updRun_mem, State.addUnits_mem]
        split <;> simp [e1]

@[simp] theorem State.putGrad_mem (s : State) (r : Train) (lanes : Nat) (block : Nat) (g : Mat) : (State.putGrad s r lanes block g).mem = s.mem := by
  unfold State.putGrad; (try dsimp only); all_goals ((repeat' split) <;> simp_all)

@[simp] theorem State.nextBwd_memWf (s : State) (p : PtnId) (r : Train) (b : Nat) (rest : List Nat) (hm : Mem.wf s.mem = true) : ∀ t ∈ State.nextBwd s p r b rest, Mem.wf t.mem = true := by
  unfold State.nextBwd; (try dsimp only); all_goals ((repeat' split) <;> (try simp only [Prod.ext_iff] at *) <;> (try casesm* _ ∧ _) <;> (try subst_vars) <;> simp (maxDischargeDepth := 12) [*])

@[simp] theorem State.sendAbsent_mem (s : State) (p : PtnId) (group : W32) : (State.sendAbsent s p group).mem = s.mem := by
  unfold State.sendAbsent; (try dsimp only); all_goals ((repeat' split) <;> simp_all)

@[simp] theorem State.failUpdates_mem (s : State) (p : PtnId) (r : Train) : (State.failUpdates s p r).mem = s.mem := by
  unfold State.failUpdates; (try dsimp only); all_goals ((repeat' split) <;> simp_all)

theorem State.stepRun_memWf {s t : State} {p : PtnId} {r : Train} (e : s.stepRun p r = some t) (hm : Mem.wf s.mem = true) : Mem.wf t.mem = true := by
  unfold State.stepRun at e
  (repeat' split at e) <;> (try cases e) <;> (try simp [hm]) <;> first | exact State.openFwd_memWf _ _ _ hm _ e | exact State.nextBwd_memWf _ _ _ _ _ hm _ e

@[simp] theorem State.stepRuns_memWf (n : Nat) (p : PtnId) (h : Hdr) (s : State) (hm : Mem.wf s.mem = true) : Mem.wf (State.stepRuns n p h s).mem = true := by
  induction n generalizing s with
  | zero => exact hm
  | succ n ih =>
    unfold State.stepRuns
    (repeat' split) <;> (try exact hm)
    exact ih _ (State.stepRun_memWf ‹_› hm)

@[simp] theorem State.pumpRun_memWf (s : State) (p : PtnId) (h : Hdr) (hm : Mem.wf s.mem = true) : Mem.wf (State.pumpRun s p h).mem = true := by
  unfold State.pumpRun; (try dsimp only); all_goals ((repeat' split) <;> simp_all)

@[simp] theorem State.pumpTrain_memWf (s : State) (p : PtnId) (hm : Mem.wf s.mem = true) : Mem.wf (State.pumpTrain s p).mem = true := by
  unfold State.pumpTrain; exact foldl_memWf _ (fun s h e => State.pumpRun_memWf _ _ _ e) _ _ hm

@[simp] theorem State.foldMb_mem (s : State) (p : PtnId) (m : Mb) (seed : Nat) : (State.foldMb s p m seed).mem = s.mem := by
  unfold State.foldMb; (try dsimp only); all_goals ((repeat' split) <;> simp_all)

@[simp] theorem State.flushFolds_mem (s : State) (p : PtnId) : (s.flushFolds p).mem = s.mem := by
  unfold State.flushFolds; dsimp only
  rw [State.updTrain_mem]; exact foldl_mem _ (fun _ _ => by simp) _ _

@[simp] theorem State.mbEnd_memWf (s : State) (h : Hdr) (hm : Mem.wf s.mem = true) : Mem.wf (State.mbEnd s h).mem = true := by
  unfold State.mbEnd; (try dsimp only); all_goals ((repeat' split) <;> simp_all)

@[simp] theorem State.setResult_mem (s : State) (h : Hdr) (r : List Byte) : (State.setResult s h r).mem = s.mem := by
  unfold State.setResult; (try dsimp only); all_goals ((repeat' split) <;> simp_all)

theorem State.queuedDone_mem (s : State) (h : Hdr) (opcode : W16) (cmd : Instr) (f : State → State × Except Status (Item × List Byte))
    (hf : ∀ s, (f s).1.mem = s.mem) : (s.queuedDone h opcode cmd f).mem = s.mem := by
  unfold State.queuedDone; dsimp only
  repeat' split
  all_goals first | (simp_all; done) | (rename_i h; have h3 := fst_mem h (hf _); simp_all)

theorem State.seqStep_mem (s : State) (p : PtnId) (q : QueueId) (is : SeqStep → Bool) (f : State → CmdRec → ProgRun → Image → State)
    (hf : ∀ s c r im, (f s c r im).mem = s.mem) : (s.seqStep p q is f).mem = s.mem := by
  unfold State.seqStep
  repeat' split
  all_goals simp_all

theorem State.queuedDone_memWf (s : State) (h : Hdr) (opcode : W16) (cmd : Instr) (f : State → State × Except Status (Item × List Byte))
    (hf : ∀ s, Mem.wf s.mem = true → Mem.wf (f s).1.mem = true) (hm : Mem.wf s.mem = true) : Mem.wf (s.queuedDone h opcode cmd f).mem = true := by
  unfold State.queuedDone; dsimp only
  repeat' split
  all_goals first | (simp_all; done) | (rename_i h; have h3 := fst_memWf h (hf _ (by simpa using hm)); simp_all)

theorem State.seqStep_memWf (s : State) (p : PtnId) (q : QueueId) (is : SeqStep → Bool) (f : State → CmdRec → ProgRun → Image → State)
    (hf : ∀ s c r im, Mem.wf s.mem = true → Mem.wf (f s c r im).mem = true) (hm : Mem.wf s.mem = true) : Mem.wf (s.seqStep p q is f).mem = true := by
  unfold State.seqStep
  repeat' split
  all_goals simp_all

theorem execProgLoad_memWf (h : Hdr) (addr : W64) (bytes : W64) (s : State) (hm : Mem.wf s.mem = true) : SafeMem (execProgLoad h addr bytes s) := by
  unfold execProgLoad; rw [memWf_next]
  refine State.queuedDone_memWf _ _ _ _ _ (fun s hm => ?_) hm
  dsimp only
  split
  · exact hm
  · split
    · rename_i h1; exact fst_memWf h1 (State.pRead_memWf _ _ _ _ _ hm)
    · rename_i h1
      have e1 := fst_memWf h1 (State.pRead_memWf _ _ _ _ _ hm)
      split
      · exact e1
      · split
        · exact e1
        · simpa using e1

theorem execProgUnload_mem (h : Hdr) (handle : W16) (s : State) : KeepsMem (execProgUnload h handle s) s := by
  unfold execProgUnload; (try rw [keepsMem_next]); (first | apply State.issue_mem | apply State.streamIssue_mem | apply State.atOnce_mem | apply State.queued_mem | apply State.queuedDone_mem | apply State.seqStep_mem) <;> (try assumption) <;> intros <;> (try dsimp only) <;> all_goals ((repeat' split) <;> simp_all)

@[simp] theorem State.startProg_mem (s : State) (h : Hdr) (prog : Nat) (entry : Nat) (srStream : W32) (binds : List W64) : (State.startProg s h prog entry srStream binds).mem = s.mem := by
  unfold State.startProg; (try dsimp only); all_goals ((repeat' split) <;> simp_all)

theorem execProgRun_mem (h : Hdr) (x : ProgBlock) (s : State) : KeepsMem (execProgRun h x s) s := by
  unfold execProgRun; (try rw [keepsMem_next]); (first | apply State.issue_mem | apply State.streamIssue_mem | apply State.atOnce_mem | apply State.queued_mem | apply State.queuedDone_mem | apply State.seqStep_mem) <;> (try assumption) <;> intros <;> (try dsimp only) <;> all_goals ((repeat' split) <;> simp_all)

@[simp] theorem State.setProg_mem (s : State) (c : CmdRec) (r : ProgRun) : (State.setProg s c r).mem = s.mem := by
  unfold State.setProg; (try dsimp only); all_goals ((repeat' split) <;> simp_all)

@[simp] theorem State.enterWait_mem (s : State) (c : CmdRec) (r : ProgRun) (im : Image) (isPlan : Bool) (a : Nat) : (State.enterWait s c r im isPlan a).mem = s.mem := by
  unfold State.enterWait; (try dsimp only); all_goals ((repeat' split) <;> simp_all)

theorem execPlan_mem (p : PtnId) (q : QueueId) (a : W16) (wait : Bool) (s : State) : KeepsMem (execPlan p q a wait s) s := by
  unfold execPlan; (try rw [keepsMem_next]); (first | apply State.issue_mem | apply State.streamIssue_mem | apply State.atOnce_mem | apply State.queued_mem | apply State.queuedDone_mem | apply State.seqStep_mem) <;> (try assumption) <;> intros <;> (try dsimp only) <;> all_goals ((repeat' split) <;> simp_all)

@[simp] theorem State.beginLaunch_mem (s : State) (l : Launch) : (s.beginLaunch l).mem = s.mem := by
  unfold State.beginLaunch; extract_lets code start s1
  have h : ∀ s e, (start s e).mem = s.mem := by
    intro s e; simp only [start]; rw [foldl_mem]
    · rfl
    · intro s t; rfl
  exact foldl_mem start h _ _

theorem execLaunch_mem (p : PtnId) (q : QueueId) (a : W16) (wait : Bool) (s : State) : KeepsMem (execLaunch p q a wait s) s := by
  unfold execLaunch; (try rw [keepsMem_next]); (first | apply State.issue_mem | apply State.streamIssue_mem | apply State.atOnce_mem | apply State.queued_mem | apply State.queuedDone_mem | apply State.seqStep_mem) <;> (try assumption) <;> intros <;> (try dsimp only) <;> all_goals ((repeat' split) <;> simp_all)

theorem execWait_mem (p : PtnId) (q : QueueId) (a : W16) (isPlan : Bool) (s : State) : KeepsMem (execWait p q a isPlan s) s := by
  unfold execWait; (try rw [keepsMem_next]); (first | apply State.issue_mem | apply State.streamIssue_mem | apply State.atOnce_mem | apply State.queued_mem | apply State.queuedDone_mem | apply State.seqStep_mem) <;> (try assumption) <;> intros <;> (try dsimp only) <;> all_goals ((repeat' split) <;> simp_all)

theorem execLaunchComplete_mem (launch : Nat) (s : State) : KeepsMem (execLaunchComplete launch s) s := by
  unfold execLaunchComplete; (try dsimp only); all_goals ((repeat' split) <;> simp_all)

theorem execCmp_mem (p : PtnId) (q : QueueId) (c : CmpStep) (s : State) : KeepsMem (execCmp p q c s) s := by
  unfold execCmp; (try rw [keepsMem_next]); (first | apply State.issue_mem | apply State.streamIssue_mem | apply State.atOnce_mem | apply State.queued_mem | apply State.queuedDone_mem | apply State.seqStep_mem) <;> (try assumption) <;> intros <;> (try dsimp only) <;> all_goals ((repeat' split) <;> simp_all)

theorem execBrt_mem (p : PtnId) (q : QueueId) (a : W16) (s : State) : KeepsMem (execBrt p q a s) s := by
  unfold execBrt; (try rw [keepsMem_next]); (first | apply State.issue_mem | apply State.streamIssue_mem | apply State.atOnce_mem | apply State.queued_mem | apply State.queuedDone_mem | apply State.seqStep_mem) <;> (try assumption) <;> intros <;> (try dsimp only) <;> all_goals ((repeat' split) <;> simp_all)

theorem execJmp_mem (p : PtnId) (q : QueueId) (a : W16) (s : State) : KeepsMem (execJmp p q a s) s := by
  unfold execJmp; (try rw [keepsMem_next]); (first | apply State.issue_mem | apply State.streamIssue_mem | apply State.atOnce_mem | apply State.queued_mem | apply State.queuedDone_mem | apply State.seqStep_mem) <;> (try assumption) <;> intros <;> (try dsimp only) <;> all_goals ((repeat' split) <;> simp_all)

theorem execCopy_mem (p : PtnId) (q : QueueId) (a : W16) (b : W16) (slotA : BitVec 4) (slotB : BitVec 4) (s : State) : KeepsMem (execCopy p q a b slotA slotB s) s := by
  unfold execCopy; (try rw [keepsMem_next]); (first | apply State.issue_mem | apply State.streamIssue_mem | apply State.atOnce_mem | apply State.queued_mem | apply State.queuedDone_mem | apply State.seqStep_mem) <;> (try assumption) <;> intros <;> (try dsimp only) <;> all_goals ((repeat' split) <;> simp_all)

theorem execSetc_mem (p : PtnId) (q : QueueId) (c : BitVec 3) (imm : W32) (s : State) : KeepsMem (execSetc p q c imm s) s := by
  unfold execSetc; (try rw [keepsMem_next]); (first | apply State.issue_mem | apply State.streamIssue_mem | apply State.atOnce_mem | apply State.queued_mem | apply State.queuedDone_mem | apply State.seqStep_mem) <;> (try assumption) <;> intros <;> (try dsimp only) <;> all_goals ((repeat' split) <;> simp_all)

theorem execDecb_mem (p : PtnId) (q : QueueId) (c : BitVec 3) (b : W16) (s : State) : KeepsMem (execDecb p q c b s) s := by
  unfold execDecb; (try rw [keepsMem_next]); (first | apply State.issue_mem | apply State.streamIssue_mem | apply State.atOnce_mem | apply State.queued_mem | apply State.queuedDone_mem | apply State.seqStep_mem) <;> (try assumption) <;> intros <;> (try dsimp only) <;> all_goals ((repeat' split) <;> simp_all)

theorem execEndItem_mem (p : PtnId) (q : QueueId) (b : W16) (code : Status) (s : State) : KeepsMem (execEndItem p q b code s) s := by
  unfold execEndItem; (try rw [keepsMem_next]); (first | apply State.issue_mem | apply State.streamIssue_mem | apply State.atOnce_mem | apply State.queued_mem | apply State.queuedDone_mem | apply State.seqStep_mem) <;> (try assumption) <;> intros <;> (try dsimp only) <;> all_goals ((repeat' split) <;> simp_all)

theorem execProgramEnd_memWf (p : PtnId) (q : QueueId) (s : State) (hm : Mem.wf s.mem = true) : SafeMem (execProgramEnd p q s) := by
  unfold execProgramEnd; (try dsimp only); all_goals ((repeat' split) <;> simp_all)

@[simp] theorem State.renameCores_mem (s : State) (p : PtnId) (q : QueueId) (f : Nat → Nat) : (State.renameCores s p q f).mem = s.mem := by
  unfold State.renameCores; (try dsimp only); all_goals ((repeat' split) <;> simp_all)

@[simp] theorem State.clearThreads_mem (s : State) (m : Nat) : (State.clearThreads s m).mem = s.mem := by
  first
  | (unfold State.clearThreads; (try dsimp only); all_goals ((repeat' split) <;> simp_all); done)
  | (unfold State.clearThreads; (try dsimp only); all_goals ((repeat' split) <;> (try simp only [Prod.ext_iff] at *) <;> (try casesm* _ ∧ _) <;> (try subst_vars) <;> ((repeat' split) <;> simp_all)); done)
  | (unfold State.clearThreads; (try rw [keepsMem_next]); (first | apply State.issue_mem | apply State.streamIssue_mem | apply State.atOnce_mem | apply State.queued_mem | apply State.queuedDone_mem | apply State.seqStep_mem) <;> (try assumption) <;> intros <;> (try dsimp only) <;> all_goals ((repeat' split) <;> simp_all); done)
  | (unfold State.clearThreads; (try rw [keepsMem_next]); (first | apply State.issue_mem | apply State.streamIssue_mem | apply State.atOnce_mem | apply State.queued_mem | apply State.queuedDone_mem | apply State.seqStep_mem) <;> (try assumption) <;> intros <;> (try dsimp only) <;> all_goals ((repeat' split) <;> (try simp only [Prod.ext_iff] at *) <;> (try casesm* _ ∧ _) <;> (try subst_vars) <;> ((repeat' split) <;> simp_all)); done)
  | (unfold State.clearThreads; (try rw [keepsMem_next]); (try dsimp only); ((repeat' split) <;> (try simp only [Prod.ext_iff] at *) <;> (try casesm* _ ∧ _) <;> (try subst_vars) <;> (try simp_all) <;> (repeat' (first | rw [foldl_mem] | rw [foldl_fst_mem])) <;> (try intros) <;> (try dsimp only) <;> ((repeat' split) <;> simp_all)); done)
  | (unfold State.clearThreads; (try rw [keepsMem_next]); (try dsimp only); (repeat' split) <;> (try rw [keepsMem_next]) <;> (first | (first | apply State.issue_mem | apply State.streamIssue_mem | apply State.atOnce_mem | apply State.queued_mem | apply State.queuedDone_mem | apply State.seqStep_mem) | skip) <;> (try assumption) <;> (try intros) <;> (try dsimp only) <;> ((repeat' split) <;> (try simp only [Prod.ext_iff] at *) <;> (try casesm* _ ∧ _) <;> (try subst_vars) <;> (try simp_all) <;> (repeat' (first | rw [foldl_mem] | rw [foldl_fst_mem])) <;> (try intros) <;> (try dsimp only) <;> ((repeat' split) <;> simp_all)))

@[simp] theorem State.loadCore_mem (s : State) (c : SavedCore) (m : Nat) : (State.loadCore s c m).mem = s.mem := by
  unfold State.loadCore; (try rw [keepsMem_next]); (try dsimp only); ((repeat' split) <;> (try simp only [Prod.ext_iff] at *) <;> (try casesm* _ ∧ _) <;> (try subst_vars) <;> (try simp_all) <;> (repeat' (first | rw [foldl_mem] | rw [foldl_fst_mem])) <;> (try intros) <;> (try dsimp only) <;> ((repeat' split) <;> simp_all))

@[simp] theorem State.moveCore_mem (s : State) (a : Nat) (b : Nat) : (State.moveCore s a b).mem = s.mem := by
  unfold State.moveCore; (try dsimp only); all_goals ((repeat' split) <;> simp_all)

theorem execSliceEnd_mem (p : PtnId) (q : QueueId) (ns : Nat) (s : State) : KeepsMem (execSliceEnd p q ns s) s := by
  unfold execSliceEnd; (try dsimp only); all_goals ((repeat' split) <;> simp_all)

theorem execStopBathHandover_mem (p : PtnId) (q : QueueId) (ns : Nat) (s : State) : KeepsMem (execStopBathHandover p q ns s) s := by
  unfold execStopBathHandover; (try dsimp only); all_goals ((repeat' split) <;> simp_all)

@[simp] theorem State.resume_mem (s : State) (p : PtnId) (c : CmdRec) : (State.resume s p c).mem = s.mem := by
  unfold State.resume; (try dsimp only); all_goals ((repeat' split) <;> simp_all)

@[simp] theorem State.restore_mem (s : State) (p : PtnId) (q : QueueId) : (State.restore s p q).mem = s.mem := by
  unfold State.restore; (try dsimp only); all_goals ((repeat' split) <;> simp_all)

theorem execRestoreComplete_mem (p : PtnId) (q : QueueId) (ns : Nat) (switchUs : Nat) (s : State) : KeepsMem (execRestoreComplete p q ns switchUs s) s := by
  unfold execRestoreComplete; (try dsimp only); all_goals ((repeat' split) <;> simp_all)

@[simp] theorem State.updItem_mem (s : State) (m : Mark) (f : Item → Item) : (State.updItem s m f).mem = s.mem := by
  unfold State.updItem; (try dsimp only); all_goals ((repeat' split) <;> simp_all)

@[simp] theorem State.decide'_mem (s : State) (men : W64) (marks : List Mark) : (State.decide' s men marks).mem = s.mem := by
  unfold State.decide'; (try rw [keepsMem_next]); (try dsimp only); ((repeat' split) <;> (try simp only [Prod.ext_iff] at *) <;> (try casesm* _ ∧ _) <;> (try subst_vars) <;> (try simp_all) <;> (repeat' (first | rw [foldl_mem] | rw [foldl_fst_mem])) <;> (try intros) <;> (try dsimp only) <;> ((repeat' split) <;> simp_all))

@[simp] theorem State.faultWith_mem (s : State) (r : FRec) (marks : List Mark) : (State.faultWith s r marks).mem = s.mem := by
  unfold State.faultWith; (try dsimp only); all_goals ((repeat' split) <;> simp_all)

@[simp] theorem State.stewardBack_mem (s : State) : s.stewardBack.mem = s.mem := by
  unfold State.stewardBack; dsimp only; rw [foldl_mem]; intro s d; simp

theorem execStewardRestartComplete_mem (s : State) : KeepsMem (execStewardRestartComplete s) s := by
  unfold execStewardRestartComplete; (try dsimp only); all_goals ((repeat' split) <;> simp_all)

@[simp] theorem State.clearUnit_mem (s : State) (u : Nat) : (s.clearUnit u).mem = s.mem := by
  unfold State.clearUnit; rw [foldl_mem]; intro s p; rfl

@[simp] theorem State.suspectAll_mem (s : State) (u : Nat) : (s.suspectAll u).1.mem = s.mem := by
  unfold State.suspectAll; extract_lets ms s1
  have h : s1.mem = s.mem := by simp only [s1]; rw [foldl_mem]; intro s p; rfl
  clear_value s1
  rw [State.clearUnit_mem, foldl_mem]
  · exact h
  · intro s m; simp

@[simp] theorem State.reportAll_mem (s : State) : (State.reportAll s).mem = s.mem := by
  unfold State.reportAll; (try dsimp only); all_goals ((repeat' split) <;> simp_all)

@[simp] theorem State.updStrip_mem (s : State) (u : Nat) (f : Strip → Strip) : (State.updStrip s u f).mem = s.mem := by
  unfold State.updStrip; (try dsimp only); all_goals ((repeat' split) <;> simp_all)

@[simp] theorem State.haltLaunch_mem (s : State) (l : Launch) (code : Status) : (State.haltLaunch s l code).1.mem = s.mem := by
  unfold State.haltLaunch; (try rw [keepsMem_next]); (try dsimp only); ((repeat' split) <;> (try simp only [Prod.ext_iff] at *) <;> (try casesm* _ ∧ _) <;> (try subst_vars) <;> (try simp_all) <;> (repeat' (first | rw [foldl_mem] | rw [foldl_fst_mem])) <;> (try intros) <;> (try dsimp only) <;> ((repeat' split) <;> simp_all))

@[simp] theorem State.remap_mem (s : State) (p : PtnId) (m : Nat) : (s.remap p m).1.mem = s.mem := by
  unfold State.remap; dsimp only
  refine foldl_fst_mem _ (fun a q => ?_) _ _
  (repeat' split) <;> simp

@[simp] theorem State.shiftReqs_mem (s : State) (n : Nat) : (State.shiftReqs s n).1.mem = s.mem := by
  unfold State.shiftReqs; (try rw [keepsMem_next]); (try dsimp only); ((repeat' split) <;> (try simp only [Prod.ext_iff] at *) <;> (try casesm* _ ∧ _) <;> (try subst_vars) <;> (try simp_all) <;> (repeat' (first | rw [foldl_mem] | rw [foldl_fst_mem])) <;> (try intros) <;> (try dsimp only) <;> ((repeat' split) <;> simp_all))

@[simp] theorem State.retire_mem (s : State) (u : Nat) : (State.retire s u).1.mem = s.mem := by
  unfold State.retire; (try dsimp only); all_goals ((repeat' split) <;> simp_all)

theorem execStripDue_mem (mc : McId) (s : State) : KeepsMem (execStripDue mc s) s := by
  unfold execStripDue; (try dsimp only); all_goals ((repeat' split) <;> simp_all)

theorem execStripStart_mem (mc : McId) (s : State) : KeepsMem (execStripStart mc s) s := by
  unfold execStripStart; (try dsimp only); all_goals ((repeat' split) <;> simp_all)

@[simp] theorem State.service_mem (s : State) (u : Nat) (stamp : W64) : (State.service s u stamp).mem = s.mem := by
  unfold State.service; (try dsimp only); all_goals ((repeat' split) <;> simp_all)

@[simp] theorem State.endWaiters_mem (s : State) (u : Nat) (failed : Option Status) : (State.endWaiters s u failed).mem = s.mem := by
  unfold State.endWaiters; (try dsimp only); all_goals ((repeat' split) <;> simp_all)

@[simp] theorem State.failWaiters_mem (s : State) (u : Nat) : (State.failWaiters s u).mem = s.mem := by
  unfold State.failWaiters; (try dsimp only); all_goals ((repeat' split) <;> simp_all)

@[simp] theorem State.stripResult_mem (s : State) (u : Nat) (r : StripResult) (stamp : W64) : (State.stripResult s u r stamp).mem = s.mem := by
  unfold State.stripResult; (try dsimp only); all_goals ((repeat' split) <;> simp_all)

@[simp] theorem State.exemptStrip_mem (s : State) (m : Nat) : (s.exemptStrip m).mem = s.mem := by
  unfold State.exemptStrip; split <;> simp

theorem execStripEnd_mem (mc : McId) (r : StripResult) (stamp : W64) (s : State) : KeepsMem (execStripEnd mc r stamp s) s := by
  unfold execStripEnd; (try dsimp only); all_goals ((repeat' split) <;> simp_all)

theorem execTeStripEnd_mem (te : TeId) (r : StripResult) (stamp : W64) (s : State) : KeepsMem (execTeStripEnd te r stamp s) s := by
  unfold execTeStripEnd; (try dsimp only); all_goals ((repeat' split) <;> simp_all)

theorem execStripNow_mem (h : Hdr) (cgMask : W32) (revive : Bool) (cores : Bool) (engines : Bool) (s : State) : KeepsMem (execStripNow h cgMask revive cores engines s) s := by
  unfold execStripNow; (try rw [keepsMem_next]); (try dsimp only); (repeat' split) <;> (try rw [keepsMem_next]) <;> (first | (first | apply State.issue_mem | apply State.streamIssue_mem | apply State.atOnce_mem | apply State.queued_mem | apply State.queuedDone_mem | apply State.seqStep_mem) | skip) <;> (try assumption) <;> (try intros) <;> (try dsimp only) <;> ((repeat' split) <;> (try simp only [Prod.ext_iff] at *) <;> (try casesm* _ ∧ _) <;> (try subst_vars) <;> (try simp_all) <;> (repeat' (first | rw [foldl_mem] | rw [foldl_fst_mem])) <;> (try intros) <;> (try dsimp only) <;> ((repeat' split) <;> simp_all))

theorem execHeartbeatMissed_mem (isTe : Bool) (unit : McId) (stamp : W64) (s : State) : KeepsMem (execHeartbeatMissed isTe unit stamp s) s := by
  unfold execHeartbeatMissed; (try rw [keepsMem_next]); (try dsimp only); ((repeat' split) <;> (try simp only [Prod.ext_iff] at *) <;> (try casesm* _ ∧ _) <;> (try subst_vars) <;> (try simp_all) <;> (repeat' (first | rw [foldl_mem] | rw [foldl_fst_mem])) <;> (try intros) <;> (try dsimp only) <;> ((repeat' split) <;> simp_all))

theorem execPsLockstepMismatch_mem (p : PtnId) (stamp : W64) (within1s : Bool) (s : State) : KeepsMem (execPsLockstepMismatch p stamp within1s s) s := by
  unfold execPsLockstepMismatch; (try dsimp only); all_goals ((repeat' split) <;> simp_all)

@[simp] theorem State.failByFault_mem (s : State) (p : PtnId) (q : QueueId) (item : Nat) (r : FRec) : (State.failByFault s p q item r).mem = s.mem := by
  unfold State.failByFault; (try dsimp only); all_goals ((repeat' split) <;> simp_all)

theorem execDescCrcMismatch_mem (p : PtnId) (q : QueueId) (item : W16) (isTe : Bool) (unit : McId) (stamp : W64) (s : State) : KeepsMem (execDescCrcMismatch p q item isTe unit stamp s) s := by
  unfold execDescCrcMismatch; (try dsimp only); all_goals ((repeat' split) <;> simp_all)

theorem execWindowMismatch_mem (p : PtnId) (q : QueueId) (item : W16) (stamp : W64) (s : State) : KeepsMem (execWindowMismatch p q item stamp s) s := by
  unfold execWindowMismatch; (try dsimp only); all_goals ((repeat' split) <;> simp_all)

theorem execDieLinkDown_mem (a : DieId) (b : DieId) (stamp : W64) (s : State) : KeepsMem (execDieLinkDown a b stamp s) s := by
  unfold execDieLinkDown; (try dsimp only); all_goals ((repeat' split) <;> simp_all)

theorem execPatrolScrub_memWf (addr : W64) (double single passDone : Bool) (stamp : W64) (s : State) (hm : Mem.wf s.mem = true) :
    SafeMem (execPatrolScrub addr double single passDone stamp s) := by
  unfold execPatrolScrub; rw [memWf_next]; extract_lets d upd s1
  have hu : ∀ s f, Mem.wf s.mem = true → Mem.wf (upd s f).mem = true := by
    intro s f h
    refine State.updMem_memWf _ _ (fun m h => ?_) h
    split
    · exact Mem.updErg_wf _ _ h
    · exact Mem.updMemc_wf _ _ h
  clear_value upd
  have h1 : Mem.wf s1.mem = true := by simp only [s1]; split <;> simp [hm, hu]
  clear_value s1
  split
  · exact hm
  · split
    · exact State.noteUe_memWf _ _ _ _ (State.updMem_memWf _ _ (fun m h => Mem.noteWord_wf _ h) h1)
    · split <;> simp [h1, hu]

theorem execFaultLogRead_mem (h : Hdr) (firstMen : W64) (count : W16) (s : State) : KeepsMem (execFaultLogRead h firstMen count s) s := by
  unfold execFaultLogRead; (try rw [keepsMem_next]); (first | apply State.issue_mem | apply State.streamIssue_mem | apply State.atOnce_mem | apply State.queued_mem | apply State.queuedDone_mem | apply State.seqStep_mem) <;> (try assumption) <;> intros <;> (try dsimp only) <;> all_goals ((repeat' split) <;> simp_all)

theorem execFaultLogClear_mem (h : Hdr) (upToMen : W64) (s : State) : KeepsMem (execFaultLogClear h upToMen s) s := by
  first
  | (unfold execFaultLogClear; (try dsimp only); all_goals ((repeat' split) <;> simp_all); done)
  | (unfold execFaultLogClear; (try dsimp only); all_goals ((repeat' split) <;> (try simp only [Prod.ext_iff] at *) <;> (try casesm* _ ∧ _) <;> (try subst_vars) <;> ((repeat' split) <;> simp_all)); done)
  | (unfold execFaultLogClear; (try rw [keepsMem_next]); (first | apply State.issue_mem | apply State.streamIssue_mem | apply State.atOnce_mem | apply State.queued_mem | apply State.queuedDone_mem | apply State.seqStep_mem) <;> (try assumption) <;> intros <;> (try dsimp only) <;> all_goals ((repeat' split) <;> simp_all); done)
  | (unfold execFaultLogClear; (try rw [keepsMem_next]); (first | apply State.issue_mem | apply State.streamIssue_mem | apply State.atOnce_mem | apply State.queued_mem | apply State.queuedDone_mem | apply State.seqStep_mem) <;> (try assumption) <;> intros <;> (try dsimp only) <;> all_goals ((repeat' split) <;> (try simp only [Prod.ext_iff] at *) <;> (try casesm* _ ∧ _) <;> (try subst_vars) <;> ((repeat' split) <;> simp_all)); done)
  | (unfold execFaultLogClear; (try rw [keepsMem_next]); (try dsimp only); ((repeat' split) <;> (try simp only [Prod.ext_iff] at *) <;> (try casesm* _ ∧ _) <;> (try subst_vars) <;> (try simp_all) <;> (repeat' (first | rw [foldl_mem] | rw [foldl_fst_mem])) <;> (try intros) <;> (try dsimp only) <;> ((repeat' split) <;> simp_all)); done)
  | (unfold execFaultLogClear; (try rw [keepsMem_next]); (try dsimp only); (repeat' split) <;> (try rw [keepsMem_next]) <;> (first | (first | apply State.issue_mem | apply State.streamIssue_mem | apply State.atOnce_mem | apply State.queued_mem | apply State.queuedDone_mem | apply State.seqStep_mem) | skip) <;> (try assumption) <;> (try intros) <;> (try dsimp only) <;> ((repeat' split) <;> (try simp only [Prod.ext_iff] at *) <;> (try casesm* _ ∧ _) <;> (try subst_vars) <;> (try simp_all) <;> (repeat' (first | rw [foldl_mem] | rw [foldl_fst_mem])) <;> (try intros) <;> (try dsimp only) <;> ((repeat' split) <;> simp_all)))

theorem execLooseGrant_memWf (h : Hdr) (slice : W16) (s : State) (hm : Mem.wf s.mem = true) : SafeMem (execLooseGrant h slice s) := by
  unfold execLooseGrant; rw [memWf_next]; refine State.atOnce_memWf _ _ _ _ (fun s hs => ?_) hm; dsimp only
  have hl : ∀ (s : State) (n : Nat) (v : Option (PtnId × W64)), Mem.wf s.mem = true →
      Mem.wf (s.updMem fun x => ({ x with lastHolder := Tab.put none x.lastHolder n v } : Mem)).mem = true :=
    fun s n v h => State.updMem_memWf _ _ (fun m h => Mem.setHolder_wf _ _ h) h
  have hz : ∀ (s : State) (n : Nat), Mem.wf s.mem = true → Mem.wf (s.updMem fun x => x.zeroSlice n).mem = true :=
    fun s n h => State.updMem_memWf _ _ (fun m h => Mem.zeroSlice_wf _ h) h
  (repeat' split) <;> simp (maxDischargeDepth := 12) [hs, hl, hz]

theorem execLooseRelease_mem (h : Hdr) (slice : W16) (s : State) : KeepsMem (execLooseRelease h slice s) s := by
  unfold execLooseRelease; (try rw [keepsMem_next]); (first | apply State.issue_mem | apply State.streamIssue_mem | apply State.atOnce_mem | apply State.queued_mem | apply State.queuedDone_mem | apply State.seqStep_mem) <;> (try assumption) <;> intros <;> (try dsimp only) <;> all_goals ((repeat' split) <;> simp_all)

@[simp] theorem State.grantMem_memWf (s : State) (p : PtnId) (w : Nat) (gs : List Nat) (keep : Bool) (hm : Mem.wf s.mem = true) :
    Mem.wf (s.grantMem p w gs keep).mem = true := by
  unfold State.grantMem; dsimp only
  simp only [State.updPMem_mem]
  split
  · exact hm
  · exact foldl_memWf _ (fun s a h => State.updMem_memWf _ _ (fun m h => Mem.zeroGranule_wf _ _ h) h) _ _ hm

theorem execMemGrant_memWf (h : Hdr) (w : W16) (count : W16) (named : Bool) (keep : Bool) (granules : List W16) (s : State) (hm : Mem.wf s.mem = true) : SafeMem (execMemGrant h w count named keep granules s) := by
  unfold execMemGrant; (try rw [memWf_next]); with_reducible (first | apply State.issue_memWf | apply State.streamIssue_memWf | apply State.atOnce_memWf | apply State.queued_memWf | apply State.queuedDone_memWf | apply State.seqStep_memWf | apply State.onQp_memWf | apply State.onGroup_memWf | apply State.inRound_memWf | apply State.onI3c_memWf) <;> (try with_reducible assumption) <;> intros <;> (try dsimp only) <;> (repeat' split) <;> (try simp only [Prod.ext_iff] at *) <;> (try casesm* _ ∧ _) <;> (try subst_vars) <;> simp (maxDischargeDepth := 12) [*]

theorem execMemRelease_mem (h : Hdr) (w : W16) (count : W16) (s : State) : KeepsMem (execMemRelease h w count s) s := by
  unfold execMemRelease; (try rw [keepsMem_next]); (first | apply State.issue_mem | apply State.streamIssue_mem | apply State.atOnce_mem | apply State.queued_mem | apply State.queuedDone_mem | apply State.seqStep_mem) <;> (try assumption) <;> intros <;> (try dsimp only) <;> all_goals ((repeat' split) <;> simp_all)

theorem execSharedMap_mem (h : Hdr) (w : W16) (s : State) : KeepsMem (execSharedMap h w s) s := by
  unfold execSharedMap; (try rw [keepsMem_next]); (first | apply State.issue_mem | apply State.streamIssue_mem | apply State.atOnce_mem | apply State.queued_mem | apply State.queuedDone_mem | apply State.seqStep_mem) <;> (try assumption) <;> intros <;> (try dsimp only) <;> all_goals ((repeat' split) <;> simp_all)

theorem execSharedUnmap_mem (h : Hdr) (s : State) : KeepsMem (execSharedUnmap h s) s := by
  unfold execSharedUnmap; (try rw [keepsMem_next]); (first | apply State.issue_mem | apply State.streamIssue_mem | apply State.atOnce_mem | apply State.queued_mem | apply State.queuedDone_mem | apply State.seqStep_mem) <;> (try assumption) <;> intros <;> (try dsimp only) <;> all_goals ((repeat' split) <;> simp_all)

@[simp] theorem State.zeroShared_memWf (s : State) (hm : Mem.wf s.mem = true) : Mem.wf s.zeroShared.mem = true := by
  unfold State.zeroShared
  exact foldl_memWf _ (fun s a h => State.updMem_memWf _ _ (fun m h => Mem.zeroGranule_wf _ _ h) h) _ _ hm

theorem execSharedLoad_memWf (h : Hdr) (ep : Endpoint) (bytes : W64) (data : List Byte) (s : State) (hm : Mem.wf s.mem = true) : SafeMem (execSharedLoad h ep bytes data s) := by
  have h0 : ∀ (s : State) (k : KeyTag) (d e n : Nat), Mem.wf s.mem = true → Mem.wf (s.updMem fun x => (x.ueClear e n).writeN k d data).mem = true :=
    fun s k d e n h => State.updMem_memWf _ _ (fun m h => Mem.writeN_wf _ _ _ (Mem.ueClear_wf _ _ h)) h
  unfold execSharedLoad; split
  · exact ⟨_, rfl, hm⟩
  · rw [memWf_next]; refine State.atOnce_memWf _ _ _ _ (fun s hs => ?_) hm
    extract_lets fill
    split
    · exact hs
    · split
      · exact hs
      · have e1 : Mem.wf (if s.mod.state = 0 then s.zeroShared else s).mem = true := ite_memWf (State.zeroShared_memWf _ hs) hs
        split
        · exact e1
        · exact h0 _ _ _ _ _ e1

theorem execSharedSeal_mem (h : Hdr) (s : State) : KeepsMem (execSharedSeal h s) s := by
  unfold execSharedSeal; (try rw [keepsMem_next]); (first | apply State.issue_mem | apply State.streamIssue_mem | apply State.atOnce_mem | apply State.queued_mem | apply State.queuedDone_mem | apply State.seqStep_mem) <;> (try assumption) <;> intros <;> (try dsimp only) <;> all_goals ((repeat' split) <;> simp_all)

theorem execSharedClear_memWf (h : Hdr) (s : State) (hm : Mem.wf s.mem = true) : SafeMem (execSharedClear h s) := by
  unfold execSharedClear; (try rw [memWf_next]); with_reducible (first | apply State.issue_memWf | apply State.streamIssue_memWf | apply State.atOnce_memWf | apply State.queued_memWf | apply State.queuedDone_memWf | apply State.seqStep_memWf | apply State.onQp_memWf | apply State.onGroup_memWf | apply State.inRound_memWf | apply State.onI3c_memWf) <;> (try with_reducible assumption) <;> intros <;> (try dsimp only) <;> (repeat' split) <;> (try simp only [Prod.ext_iff] at *) <;> (try casesm* _ ∧ _) <;> (try subst_vars) <;> simp (maxDischargeDepth := 12) [*]

theorem execSlotWheelBoundary_mem (s : State) : KeepsMem (execSlotWheelBoundary s) s := by
  unfold execSlotWheelBoundary; (try dsimp only); all_goals ((repeat' split) <;> simp_all)

@[simp] theorem State.dropRound_memWf (s : State) (p : PtnId) (r : Round) (code : Status) (hm : Mem.wf s.mem = true) : Mem.wf (State.dropRound s p r code).mem = true := by
  unfold State.dropRound; (try dsimp only); all_goals ((repeat' split) <;> simp_all)

@[simp] theorem State.abortGroup_memWf (s : State) (p : PtnId) (g : Group) (hm : Mem.wf s.mem = true) : Mem.wf (State.abortGroup s p g).mem = true := by
  unfold State.abortGroup; (try rw [memWf_next]); (try dsimp only); (repeat' split) <;> (try rw [memWf_next]) <;> (try simp only [Prod.ext_iff] at *) <;> (try casesm* _ ∧ _) <;> (try subst_vars) <;> (try simp (maxDischargeDepth := 12) [hm]) <;> (with_reducible repeat' (first | assumption | apply foldl_memWf | apply foldl_fst_memWf)) <;> (try intros) <;> (try dsimp only) <;> (repeat' split) <;> (try simp only [Prod.ext_iff] at *) <;> (try casesm* _ ∧ _) <;> (try subst_vars) <;> simp (maxDischargeDepth := 12) [*]

@[simp] theorem State.unreachable_memWf (s : State) (k : QPkt) (hm : Mem.wf s.mem = true) : Mem.wf (State.unreachable s k).mem = true := by
  unfold State.unreachable; extract_lets p' s1 fx lost s2 s3 s4 s5
  have e1 : s1.mem = s.mem := by simp only [s1]; split <;> simp
  clear_value s1
  have e2 : s2.mem = s.mem := by simp only [s2]; rw [State.updPtn_mem, e1]
  clear_value s2
  have e3 : s3.mem = s.mem := by simp only [s3]; rw [foldl_mem _ (fun s c => by simp), e2]
  clear_value s3
  have e4 : s4.mem = s.mem := by simp only [s4]; (repeat' split) <;> simp [e3]
  clear_value s4
  have e5 : s5.mem = s.mem := by simp only [s5]; (repeat' split) <;> simp [e4]
  clear_value s5
  exact foldl_memWf _ (fun s p h => foldl_memWf _ (fun s g h => State.abortGroup_memWf _ _ _ h) _ _ h) _ _ (e5 ▸ hm)

@[simp] theorem State.resend_memWf (s : State) (n : QpId) (z0 : List QPkt) (hm : Mem.wf s.mem = true) : Mem.wf (State.resend s n z0).mem = true := by
  fun_induction State.resend s n z0 <;> (try simp only [Prod.ext_iff] at *) <;> (try casesm* _ ∧ _) <;> (try subst_vars) <;> ((repeat' split) <;> simp_all)

@[simp] theorem State.ackPkt_mem (s : State) (n : QpId) (h : QHdr) : (s.ackPkt n h).mem = s.mem := by unfold State.ackPkt; split <;> rfl

@[simp] theorem State.ackAgain_mem (s : State) (n : QpId) (hs : List QHdr) : (s.ackAgain n hs).mem = s.mem := by
  unfold State.ackAgain; rw [foldl_mem]; intro s h; split <;> simp

@[simp] theorem State.qpDown_memWf (s : State) (n : QpId) (cause : BitVec 4) (when' : Option W64) (hm : Mem.wf s.mem = true) : Mem.wf (State.qpDown s n cause when').mem = true := by
  unfold State.qpDown; (try rw [memWf_next]); (try dsimp only); (repeat' split) <;> simp (maxDischargeDepth := 12) [hm]

@[simp] theorem State.qpLinkReset_memWf (s : State) (n : QpId) (cause : Byte) (hm : Mem.wf s.mem = true) : Mem.wf (State.qpLinkReset s n cause).mem = true := by
  unfold State.qpLinkReset; (try dsimp only); all_goals ((repeat' split) <;> simp_all)

@[simp] theorem State.upMove_mem (s : State) (u : UpId) (old : UPort) : (State.upMove s u old).mem = s.mem := by
  unfold State.upMove; (try dsimp only); all_goals ((repeat' split) <;> simp_all)

@[simp] theorem State.upDown_mem (s : State) (u : UpId) : (State.upDown s u).mem = s.mem := by
  unfold State.upDown; (try dsimp only); all_goals ((repeat' split) <;> simp_all)

@[simp] theorem State.upLinkReset_mem (s : State) (u : UpId) (cause : Byte) : (State.upLinkReset s u cause).mem = s.mem := by
  unfold State.upLinkReset; (try dsimp only); all_goals ((repeat' split) <;> simp_all)

@[simp] theorem State.upUp_mem (s : State) (u : UpId) : (State.upUp s u).mem = s.mem := by
  unfold State.upUp; (try dsimp only); all_goals ((repeat' split) <;> simp_all)

@[simp] theorem State.putNumMode_mem (s : State) (p : PtnId) (expert : Bool) (v : Nat) : (State.putNumMode s p expert v).1.mem = s.mem := by
  unfold State.putNumMode; (try dsimp only); all_goals ((repeat' split) <;> simp_all)

@[simp] theorem State.putTrainer_mem (s : State) (p : PtnId) (t : Trainer) : (State.putTrainer s p t).1.mem = s.mem := by
  unfold State.putTrainer; (try dsimp only); all_goals ((repeat' split) <;> simp_all)

@[simp] theorem State.putStashCfg_mem (s : State) (p : PtnId) (v : Nat) : (State.putStashCfg s p v).1.mem = s.mem := by
  unfold State.putStashCfg; (try dsimp only); all_goals ((repeat' split) <;> simp_all)

@[simp] theorem State.putSpillBase_mem (s : State) (p : PtnId) (v : Nat) : (State.putSpillBase s p v).1.mem = s.mem := by
  unfold State.putSpillBase; (try dsimp only); all_goals ((repeat' split) <;> simp_all)

@[simp] theorem State.putQCfg_mem (s : State) (p : PtnId) (q : QueueId) (v : Nat) : (State.putQCfg s p q v).1.mem = s.mem := by
  unfold State.putQCfg; (try dsimp only); all_goals ((repeat' split) <;> simp_all)

@[simp] theorem State.putSchedCfg_mem (s : State) (p : PtnId) (v : Nat) : (State.putSchedCfg s p v).1.mem = s.mem := by
  unfold State.putSchedCfg; (try dsimp only); all_goals ((repeat' split) <;> simp_all)

@[simp] theorem State.putServeCfg_mem (s : State) (p : PtnId) (v : Nat) : (State.putServeCfg s p v).1.mem = s.mem := by
  unfold State.putServeCfg; (try dsimp only); all_goals ((repeat' split) <;> simp_all)

@[simp] theorem State.putReplyCfg_mem (s : State) (p : PtnId) (v : Nat) : (State.putReplyCfg s p v).1.mem = s.mem := by
  unfold State.putReplyCfg; (try dsimp only); all_goals ((repeat' split) <;> simp_all)

@[simp] theorem State.putMemSlots_mem (s : State) (p : PtnId) (expert : Bool) (v : Nat) : (State.putMemSlots s p expert v).1.mem = s.mem := by
  unfold State.putMemSlots; (try dsimp only); all_goals ((repeat' split) <;> simp_all)

@[simp] theorem State.putSem_mem (s : State) (p : PtnId) (n : SemId) (expert : Bool) (v : Nat) (anew : Bool) : (State.putSem s p n expert v anew).1.mem = s.mem := by
  unfold State.putSem; (try dsimp only); all_goals ((repeat' split) <;> simp_all)

@[simp] theorem State.putViolInfo_mem (s : State) (p : PtnId) (v : Nat) (anew : Bool) : (State.putViolInfo s p v anew).1.mem = s.mem := by
  unfold State.putViolInfo; (try dsimp only); all_goals ((repeat' split) <;> simp_all)

@[simp] theorem State.putMemCfg_mem (s : State) (expert : Bool) (v : Nat) : (State.putMemCfg s expert v).1.mem = s.mem := by
  unfold State.putMemCfg; (try dsimp only); all_goals ((repeat' split) <;> simp_all)

@[simp] theorem State.putSharedLabel_mem (s : State) (v : Nat) : (State.putSharedLabel s v).1.mem = s.mem := by
  unfold State.putSharedLabel; (try dsimp only); all_goals ((repeat' split) <;> simp_all)

@[simp] theorem State.putFabric_mem (s : State) (v : Nat) : (State.putFabric s v).1.mem = s.mem := by
  first
  | (unfold State.putFabric; (try dsimp only); all_goals ((repeat' split) <;> simp_all); done)
  | (unfold State.putFabric; (try dsimp only); all_goals ((repeat' split) <;> (try simp only [Prod.ext_iff] at *) <;> (try casesm* _ ∧ _) <;> (try subst_vars) <;> ((repeat' split) <;> simp_all)); done)
  | (unfold State.putFabric; (try rw [keepsMem_next]); (first | apply State.issue_mem | apply State.streamIssue_mem | apply State.atOnce_mem | apply State.queued_mem | apply State.queuedDone_mem | apply State.seqStep_mem) <;> (try assumption) <;> intros <;> (try dsimp only) <;> all_goals ((repeat' split) <;> simp_all); done)
  | (unfold State.putFabric; (try rw [keepsMem_next]); (first | apply State.issue_mem | apply State.streamIssue_mem | apply State.atOnce_mem | apply State.queued_mem | apply State.queuedDone_mem | apply State.seqStep_mem) <;> (try assumption) <;> intros <;> (try dsimp only) <;> all_goals ((repeat' split) <;> (try simp only [Prod.ext_iff] at *) <;> (try casesm* _ ∧ _) <;> (try subst_vars) <;> ((repeat' split) <;> simp_all)); done)
  | (unfold State.putFabric; (try rw [keepsMem_next]); (try dsimp only); ((repeat' split) <;> (try simp only [Prod.ext_iff] at *) <;> (try casesm* _ ∧ _) <;> (try subst_vars) <;> (try simp_all) <;> (repeat' (first | rw [foldl_mem] | rw [foldl_fst_mem])) <;> (try intros) <;> (try dsimp only) <;> ((repeat' split) <;> simp_all)); done)
  | (unfold State.putFabric; (try rw [keepsMem_next]); (try dsimp only); (repeat' split) <;> (try rw [keepsMem_next]) <;> (first | (first | apply State.issue_mem | apply State.streamIssue_mem | apply State.atOnce_mem | apply State.queued_mem | apply State.queuedDone_mem | apply State.seqStep_mem) | skip) <;> (try assumption) <;> (try intros) <;> (try dsimp only) <;> ((repeat' split) <;> (try simp only [Prod.ext_iff] at *) <;> (try casesm* _ ∧ _) <;> (try subst_vars) <;> (try simp_all) <;> (repeat' (first | rw [foldl_mem] | rw [foldl_fst_mem])) <;> (try intros) <;> (try dsimp only) <;> ((repeat' split) <;> simp_all)))

@[simp] theorem State.putQlnkCfg_memWf (s : State) (n : QpId) (v : Nat) (hm : Mem.wf s.mem = true) : Mem.wf (State.putQlnkCfg s n v).1.mem = true := by
  unfold State.putQlnkCfg; (try rw [memWf_next]); (try dsimp only); (repeat' split) <;> simp (maxDischargeDepth := 12) [hm]

@[simp] theorem State.putRes_mem (s : State) (n : QpId) (p : PtnId) (v : Nat) : (State.putRes s n p v).1.mem = s.mem := by
  unfold State.putRes; (try dsimp only); all_goals ((repeat' split) <;> simp_all)

@[simp] theorem State.putRoute_mem (s : State) (n : QpId) (i : Nat) (v : Nat) : (State.putRoute s n i v).1.mem = s.mem := by
  unfold State.putRoute; (try dsimp only); all_goals ((repeat' split) <;> simp_all)

@[simp] theorem State.putPwrCfg_mem (s : State) (v : Nat) : (State.putPwrCfg s v).1.mem = s.mem := by
  first
  | (unfold State.putPwrCfg; (try dsimp only); all_goals ((repeat' split) <;> simp_all); done)
  | (unfold State.putPwrCfg; (try dsimp only); all_goals ((repeat' split) <;> (try simp only [Prod.ext_iff] at *) <;> (try casesm* _ ∧ _) <;> (try subst_vars) <;> ((repeat' split) <;> simp_all)); done)
  | (unfold State.putPwrCfg; (try rw [keepsMem_next]); (first | apply State.issue_mem | apply State.streamIssue_mem | apply State.atOnce_mem | apply State.queued_mem | apply State.queuedDone_mem | apply State.seqStep_mem) <;> (try assumption) <;> intros <;> (try dsimp only) <;> all_goals ((repeat' split) <;> simp_all); done)
  | (unfold State.putPwrCfg; (try rw [keepsMem_next]); (first | apply State.issue_mem | apply State.streamIssue_mem | apply State.atOnce_mem | apply State.queued_mem | apply State.queuedDone_mem | apply State.seqStep_mem) <;> (try assumption) <;> intros <;> (try dsimp only) <;> all_goals ((repeat' split) <;> (try simp only [Prod.ext_iff] at *) <;> (try casesm* _ ∧ _) <;> (try subst_vars) <;> ((repeat' split) <;> simp_all)); done)
  | (unfold State.putPwrCfg; (try rw [keepsMem_next]); (try dsimp only); ((repeat' split) <;> (try simp only [Prod.ext_iff] at *) <;> (try casesm* _ ∧ _) <;> (try subst_vars) <;> (try simp_all) <;> (repeat' (first | rw [foldl_mem] | rw [foldl_fst_mem])) <;> (try intros) <;> (try dsimp only) <;> ((repeat' split) <;> simp_all)); done)
  | (unfold State.putPwrCfg; (try rw [keepsMem_next]); (try dsimp only); (repeat' split) <;> (try rw [keepsMem_next]) <;> (first | (first | apply State.issue_mem | apply State.streamIssue_mem | apply State.atOnce_mem | apply State.queued_mem | apply State.queuedDone_mem | apply State.seqStep_mem) | skip) <;> (try assumption) <;> (try intros) <;> (try dsimp only) <;> ((repeat' split) <;> (try simp only [Prod.ext_iff] at *) <;> (try casesm* _ ∧ _) <;> (try subst_vars) <;> (try simp_all) <;> (repeat' (first | rw [foldl_mem] | rw [foldl_fst_mem])) <;> (try intros) <;> (try dsimp only) <;> ((repeat' split) <;> simp_all)))

@[simp] theorem State.putSafStatus_mem (s : State) (v : Nat) (newFault : Bool) (newAlert : Bool) : (State.putSafStatus s v newFault newAlert).1.mem = s.mem := by
  first
  | (unfold State.putSafStatus; (try dsimp only); all_goals ((repeat' split) <;> simp_all); done)
  | (unfold State.putSafStatus; (try dsimp only); all_goals ((repeat' split) <;> (try simp only [Prod.ext_iff] at *) <;> (try casesm* _ ∧ _) <;> (try subst_vars) <;> ((repeat' split) <;> simp_all)); done)
  | (unfold State.putSafStatus; (try rw [keepsMem_next]); (first | apply State.issue_mem | apply State.streamIssue_mem | apply State.atOnce_mem | apply State.queued_mem | apply State.queuedDone_mem | apply State.seqStep_mem) <;> (try assumption) <;> intros <;> (try dsimp only) <;> all_goals ((repeat' split) <;> simp_all); done)
  | (unfold State.putSafStatus; (try rw [keepsMem_next]); (first | apply State.issue_mem | apply State.streamIssue_mem | apply State.atOnce_mem | apply State.queued_mem | apply State.queuedDone_mem | apply State.seqStep_mem) <;> (try assumption) <;> intros <;> (try dsimp only) <;> all_goals ((repeat' split) <;> (try simp only [Prod.ext_iff] at *) <;> (try casesm* _ ∧ _) <;> (try subst_vars) <;> ((repeat' split) <;> simp_all)); done)
  | (unfold State.putSafStatus; (try rw [keepsMem_next]); (try dsimp only); ((repeat' split) <;> (try simp only [Prod.ext_iff] at *) <;> (try casesm* _ ∧ _) <;> (try subst_vars) <;> (try simp_all) <;> (repeat' (first | rw [foldl_mem] | rw [foldl_fst_mem])) <;> (try intros) <;> (try dsimp only) <;> ((repeat' split) <;> simp_all)); done)
  | (unfold State.putSafStatus; (try rw [keepsMem_next]); (try dsimp only); (repeat' split) <;> (try rw [keepsMem_next]) <;> (first | (first | apply State.issue_mem | apply State.streamIssue_mem | apply State.atOnce_mem | apply State.queued_mem | apply State.queuedDone_mem | apply State.seqStep_mem) | skip) <;> (try assumption) <;> (try intros) <;> (try dsimp only) <;> ((repeat' split) <;> (try simp only [Prod.ext_iff] at *) <;> (try casesm* _ ∧ _) <;> (try subst_vars) <;> (try simp_all) <;> (repeat' (first | rw [foldl_mem] | rw [foldl_fst_mem])) <;> (try intros) <;> (try dsimp only) <;> ((repeat' split) <;> simp_all)))

@[simp] theorem State.putPtn_mem (s : State) (p : PtnId) (expert : Bool) (off : Nat) (v : Nat) (anew : Bool) : (State.putPtn s p expert off v anew).1.mem = s.mem := by
  unfold State.putPtn; (try dsimp only); all_goals ((repeat' split) <;> simp_all)

@[simp] theorem State.putQlnk_memWf (s : State) (n : QpId) (off : Nat) (v : Nat) (hm : Mem.wf s.mem = true) : Mem.wf (State.putQlnk s n off v).1.mem = true := by
  unfold State.putQlnk; (try dsimp only); all_goals ((repeat' split) <;> simp_all)

@[simp] theorem State.putBlk_memWf (s : State) (b : Blk) (off : Nat) (expert : Bool) (w : RegVal) (hm : Mem.wf s.mem = true) : Mem.wf (State.putBlk s b off expert w).1.mem = true := by
  unfold State.putBlk; (try dsimp only); all_goals ((repeat' split) <;> simp_all)

@[simp] theorem State.regPut_memWf (s : State) (h : Hdr) (a : W64) (v : RegVal) (hm : Mem.wf s.mem = true) : Mem.wf (State.regPut s h a v).1.mem = true := by
  unfold State.regPut; (try dsimp only); all_goals ((repeat' split) <;> simp_all)

theorem execRegRead_mem (h : Hdr) (addrs : List W64) (s : State) : KeepsMem (execRegRead h addrs s) s := by
  first
  | (unfold execRegRead; (try dsimp only); all_goals ((repeat' split) <;> simp_all); done)
  | (unfold execRegRead; (try dsimp only); all_goals ((repeat' split) <;> (try simp only [Prod.ext_iff] at *) <;> (try casesm* _ ∧ _) <;> (try subst_vars) <;> ((repeat' split) <;> simp_all)); done)
  | (unfold execRegRead; (try rw [keepsMem_next]); (first | apply State.issue_mem | apply State.streamIssue_mem | apply State.atOnce_mem | apply State.queued_mem | apply State.queuedDone_mem | apply State.seqStep_mem) <;> (try assumption) <;> intros <;> (try dsimp only) <;> all_goals ((repeat' split) <;> simp_all); done)
  | (unfold execRegRead; (try rw [keepsMem_next]); (first | apply State.issue_mem | apply State.streamIssue_mem | apply State.atOnce_mem | apply State.queued_mem | apply State.queuedDone_mem | apply State.seqStep_mem) <;> (try assumption) <;> intros <;> (try dsimp only) <;> all_goals ((repeat' split) <;> (try simp only [Prod.ext_iff] at *) <;> (try casesm* _ ∧ _) <;> (try subst_vars) <;> ((repeat' split) <;> simp_all)); done)
  | (unfold execRegRead; (try rw [keepsMem_next]); (try dsimp only); ((repeat' split) <;> (try simp only [Prod.ext_iff] at *) <;> (try casesm* _ ∧ _) <;> (try subst_vars) <;> (try simp_all) <;> (repeat' (first | rw [foldl_mem] | rw [foldl_fst_mem])) <;> (try intros) <;> (try dsimp only) <;> ((repeat' split) <;> simp_all)); done)
  | (unfold execRegRead; (try rw [keepsMem_next]); (try dsimp only); (repeat' split) <;> (try rw [keepsMem_next]) <;> (first | (first | apply State.issue_mem | apply State.streamIssue_mem | apply State.atOnce_mem | apply State.queued_mem | apply State.queuedDone_mem | apply State.seqStep_mem) | skip) <;> (try assumption) <;> (try intros) <;> (try dsimp only) <;> ((repeat' split) <;> (try simp only [Prod.ext_iff] at *) <;> (try casesm* _ ∧ _) <;> (try subst_vars) <;> (try simp_all) <;> (repeat' (first | rw [foldl_mem] | rw [foldl_fst_mem])) <;> (try intros) <;> (try dsimp only) <;> ((repeat' split) <;> simp_all)))

@[simp] theorem regPuts_memWf (h : Hdr) (ws : List (W64 × RegVal)) (s : State) (hm : Mem.wf s.mem = true) : Mem.wf (regPuts h ws s).1.mem = true := by
  induction ws generalizing s with
  | nil => exact hm
  | cons a l ih => exact ih _ (by simp [hm])

@[simp] theorem State.regWrite_memWf (s : State) (h : Hdr) (ws : List (W64 × RegVal)) (hm : Mem.wf s.mem = true) : Mem.wf (State.regWrite s h ws).mem = true :=
  State.atOnce_memWf _ _ _ _ (fun s hs => regPuts_memWf h ws s hs) hm

theorem execRegWrite_memWf (h : Hdr) (writes : List (W64 × RegVal)) (s : State) (hm : Mem.wf s.mem = true) : SafeMem (execRegWrite h writes s) := by
  unfold execRegWrite; (try dsimp only); all_goals ((repeat' split) <;> simp_all)

@[simp] theorem State.regOne_memWf (s : State) (h : Hdr) (a : W64) (v : W64) (anew : BitVec 2) (hm : Mem.wf s.mem = true) : SafeMem (State.regOne s h a v anew) := by
  unfold State.regOne; (try dsimp only); all_goals ((repeat' split) <;> simp_all)

theorem execPtnNumModeWrite_memWf (h : Hdr) (p : PtnId) (v : W64) (s : State) (hm : Mem.wf s.mem = true) : SafeMem (execPtnNumModeWrite h p v s) := by
  unfold execPtnNumModeWrite; (try dsimp only); all_goals ((repeat' split) <;> simp_all)

theorem execPtnStashCfgWrite_memWf (h : Hdr) (p : PtnId) (v : W64) (s : State) (hm : Mem.wf s.mem = true) : SafeMem (execPtnStashCfgWrite h p v s) := by
  unfold execPtnStashCfgWrite; (try dsimp only); all_goals ((repeat' split) <;> simp_all)

theorem execPtnSpillBaseWrite_memWf (h : Hdr) (p : PtnId) (v : W64) (s : State) (hm : Mem.wf s.mem = true) : SafeMem (execPtnSpillBaseWrite h p v s) := by
  unfold execPtnSpillBaseWrite; (try dsimp only); all_goals ((repeat' split) <;> simp_all)

theorem execPtnQCfgWrite_memWf (h : Hdr) (p : PtnId) (q : QueueId) (v : W64) (s : State) (hm : Mem.wf s.mem = true) : SafeMem (execPtnQCfgWrite h p q v s) := by
  unfold execPtnQCfgWrite; (try dsimp only); all_goals ((repeat' split) <;> simp_all)

theorem execPtnSchedCfgWrite_memWf (h : Hdr) (p : PtnId) (v : W64) (s : State) (hm : Mem.wf s.mem = true) : SafeMem (execPtnSchedCfgWrite h p v s) := by
  unfold execPtnSchedCfgWrite; (try dsimp only); all_goals ((repeat' split) <;> simp_all)

theorem execPtnServeCfgWrite_memWf (h : Hdr) (p : PtnId) (v : W64) (s : State) (hm : Mem.wf s.mem = true) : SafeMem (execPtnServeCfgWrite h p v s) := by
  unfold execPtnServeCfgWrite; (try dsimp only); all_goals ((repeat' split) <;> simp_all)

theorem execPtnReplyCfgWrite_memWf (h : Hdr) (p : PtnId) (v : W64) (s : State) (hm : Mem.wf s.mem = true) : SafeMem (execPtnReplyCfgWrite h p v s) := by
  unfold execPtnReplyCfgWrite; (try dsimp only); all_goals ((repeat' split) <;> simp_all)

theorem execPtnMemSlotsWrite_memWf (h : Hdr) (p : PtnId) (v : W64) (s : State) (hm : Mem.wf s.mem = true) : SafeMem (execPtnMemSlotsWrite h p v s) := by
  unfold execPtnMemSlotsWrite; (try dsimp only); all_goals ((repeat' split) <;> simp_all)

theorem execPtnSemCountWrite_memWf (h : Hdr) (p : PtnId) (sem : SemId) (v : RegVal) (s : State) (hm : Mem.wf s.mem = true) : SafeMem (execPtnSemCountWrite h p sem v s) := by
  unfold execPtnSemCountWrite; (try dsimp only); all_goals ((repeat' split) <;> simp_all)

theorem execPtnViolInfoClear_memWf (h : Hdr) (p : PtnId) (v : RegVal) (s : State) (hm : Mem.wf s.mem = true) : SafeMem (execPtnViolInfoClear h p v s) := by
  unfold execPtnViolInfoClear; (try dsimp only); all_goals ((repeat' split) <;> simp_all)

theorem execModMemCfgWrite_memWf (h : Hdr) (v : W64) (s : State) (hm : Mem.wf s.mem = true) : SafeMem (execModMemCfgWrite h v s) := by
  unfold execModMemCfgWrite; (try dsimp only); all_goals ((repeat' split) <;> simp_all)

theorem execModSharedLabelWrite_memWf (h : Hdr) (v : W64) (s : State) (hm : Mem.wf s.mem = true) : SafeMem (execModSharedLabelWrite h v s) := by
  unfold execModSharedLabelWrite; (try dsimp only); all_goals ((repeat' split) <;> simp_all)

theorem execModFabricWrite_memWf (h : Hdr) (v : W64) (s : State) (hm : Mem.wf s.mem = true) : SafeMem (execModFabricWrite h v s) := by
  unfold execModFabricWrite; (try dsimp only); all_goals ((repeat' split) <;> simp_all)

theorem execQlnkEnable_memWf (h : Hdr) (qp : QpId) (v : W64) (s : State) (hm : Mem.wf s.mem = true) : SafeMem (execQlnkEnable h qp v s) := by
  unfold execQlnkEnable; (try dsimp only); all_goals ((repeat' split) <;> simp_all)

theorem execQlnkResWrite_memWf (h : Hdr) (qp : QpId) (p : PtnId) (v : W64) (s : State) (hm : Mem.wf s.mem = true) : SafeMem (execQlnkResWrite h qp p v s) := by
  unfold execQlnkResWrite; (try dsimp only); all_goals ((repeat' split) <;> simp_all)

theorem execQoreaLinkReset_memWf (h : Hdr) (qp : QpId) (v : W64) (s : State) (hm : Mem.wf s.mem = true) : SafeMem (execQoreaLinkReset h qp v s) := by
  unfold execQoreaLinkReset; (try dsimp only); all_goals ((repeat' split) <;> simp_all)

theorem execUapraLinkReset_memWf (h : Hdr) (up : UpId) (v : W64) (s : State) (hm : Mem.wf s.mem = true) : SafeMem (execUapraLinkReset h up v s) := by
  unfold execUapraLinkReset; (try dsimp only); all_goals ((repeat' split) <;> simp_all)

theorem execPwrCfgWrite_memWf (h : Hdr) (v : W64) (s : State) (hm : Mem.wf s.mem = true) : SafeMem (execPwrCfgWrite h v s) := by
  unfold execPwrCfgWrite; (try dsimp only); all_goals ((repeat' split) <;> simp_all)

theorem execSafStatusClear_memWf (h : Hdr) (v : W64) (newFault : Bool) (newAlert : Bool) (s : State) (hm : Mem.wf s.mem = true) : SafeMem (execSafStatusClear h v newFault newAlert s) := by
  unfold execSafStatusClear; (try dsimp only); all_goals ((repeat' split) <;> simp_all)

theorem execRegisterWrite_memWf (h : Hdr) (addr : W64) (v : W64) (s : State) (hm : Mem.wf s.mem = true) : SafeMem (execRegisterWrite h addr v s) := by
  unfold execRegisterWrite; (try dsimp only); all_goals ((repeat' split) <;> simp_all)

@[simp] theorem State.powerEvent_mem (s : State) (target : Nat) (phase : Nat) (src : BitVec 4) (port : BitVec 6) (mask : W32) : (State.powerEvent s target phase src port mask).mem = s.mem := by
  unfold State.powerEvent; (try dsimp only); all_goals ((repeat' split) <;> simp_all)

@[simp] theorem State.leaveL1_mem (s : State) : (State.leaveL1 s).mem = s.mem := by
  unfold State.leaveL1; (try dsimp only); all_goals ((repeat' split) <;> simp_all)

@[simp] theorem State.transBegin_mem (s : State) (t : PTrans) : (State.transBegin s t).mem = s.mem := by
  unfold State.transBegin; (try dsimp only); all_goals ((repeat' split) <;> simp_all)

@[simp] theorem State.transRails_mem (s : State) (t : PTrans) (bus : Nat) : (State.transRails s t bus).mem = s.mem := by
  unfold State.transRails; (try dsimp only); all_goals ((repeat' split) <;> simp_all)

@[simp] theorem State.transSupplied_mem (s : State) (t : PTrans) : (State.transSupplied s t).mem = s.mem := by
  unfold State.transSupplied; (try dsimp only); all_goals ((repeat' split) <;> simp_all)

@[simp] theorem State.transStop_mem (s : State) (t : PTrans) : (State.transStop s t).mem = s.mem := by
  unfold State.transStop; (try dsimp only); all_goals ((repeat' split) <;> simp_all)

@[simp] theorem State.wakeL2_mem (s : State) (src : BitVec 4) (port : BitVec 6) : (State.wakeL2 s src port).mem = s.mem := by
  unfold State.wakeL2; (try dsimp only); all_goals ((repeat' split) <;> simp_all)

@[simp] theorem State.portReply_mem (s : State) (u : UpId) (h : Hdr) (opcode : W16) (code : Status) (bytes : List Byte) : (State.portReply s u h opcode code bytes).mem = s.mem := by
  unfold State.portReply; (try dsimp only); all_goals ((repeat' split) <;> simp_all)

@[simp] theorem State.setSeq_mem (s : State) (h : Hdr) : (State.setSeq s h).mem = s.mem := by
  unfold State.setSeq; (try dsimp only); all_goals ((repeat' split) <;> simp_all)

@[simp] theorem State.accept_mem (s : State) (h : Hdr) (op : Nat) (cmd : Instr) (credits : Nat) : (State.accept s h op cmd credits).mem = s.mem := by
  unfold State.accept; (try dsimp only); all_goals ((repeat' split) <;> simp_all)

theorem execPacketArrival_mem (port : UpId) (bytes : List Byte) (s : State) : KeepsMem (execPacketArrival port bytes s) s := by
  unfold execPacketArrival; (try dsimp only); all_goals ((repeat' split) <;> simp_all)

theorem execUapraFrame_mem (port : UpId) (f : LinkFrame) (s : State) : KeepsMem (execUapraFrame port f s) s := by
  unfold execUapraFrame; (try dsimp only); all_goals ((repeat' split) <;> simp_all)

theorem execUapraFrameRetry_mem (port : UpId) (s : State) : KeepsMem (execUapraFrameRetry port s) s := by
  unfold execUapraFrameRetry; (try dsimp only); all_goals ((repeat' split) <;> simp_all)

theorem execUapraRetrain_mem (port : UpId) (up : Bool) (s : State) : KeepsMem (execUapraRetrain port up s) s := by
  unfold execUapraRetrain; (try dsimp only); all_goals ((repeat' split) <;> simp_all)

@[simp] theorem State.survive_memWf (s : State) (kind : Nat) (hm : Mem.wf s.mem = true) : Mem.wf (s.survive kind).mem = true := by
  unfold State.survive; dsimp only
  split
  · rfl
  · exact Mem.survive_wf _ hm

@[simp] theorem State.beginReset_memWf (s : State) (kind : Nat) (cause : Byte) (hold : RstHold) (hm : Mem.wf s.mem = true) : Mem.wf (State.beginReset s kind cause hold).mem = true := by
  unfold State.beginReset; (try dsimp only); all_goals ((repeat' split) <;> simp_all)

@[simp] theorem State.warmBegin_memWf (s : State) (cause : Byte) (hold : RstHold) (hm : Mem.wf s.mem = true) : Mem.wf (State.warmBegin s cause hold).mem = true := by
  unfold State.warmBegin; (try dsimp only); all_goals ((repeat' split) <;> simp_all)

@[simp] theorem State.sendEvt_mem (s : State) (kind : Byte) (body : List Byte) : (State.sendEvt s kind body).mem = s.mem := by
  unfold State.sendEvt; (try dsimp only); all_goals ((repeat' split) <;> simp_all)

@[simp] theorem State.startStrips_mem (s : State) : s.startStrips.mem = s.mem := by
  unfold State.startStrips; extract_lets one s1
  rw [foldl_mem]
  · simp only [s1]; rw [foldl_mem]; intro s n; rfl
  · intro s n; rfl

@[simp] theorem State.startPorts_mem (s : State) : s.startPorts.mem = s.mem := by
  unfold State.startPorts; extract_lets s1
  rw [foldl_mem]
  · simp only [s1]; rw [foldl_mem]; intro s n; rfl
  · intro s n; simp

@[simp] theorem State.startUp_memWf (s : State) (kind : BitVec 2) (cause : Byte) (told : Bool) (hm : Mem.wf s.mem = true) : Mem.wf (s.startUp kind cause told).mem = true := by
  unfold State.startUp; extract_lets b m md e s2 saf esns pw s3 s4 s5
  have e2 : Mem.wf s2.mem = true := (Mem.root_wf _ _).trans hm
  clear_value s2
  split
  · exact e2
  · rw [State.sendEvt_mem]
    have e4 : Mem.wf s4.mem = true := by simp only [s4]; rw [State.startPorts_mem, State.startStrips_mem]; exact e2
    clear_value s4
    simp only [s5]
    split
    · exact e4
    · rw [State.sendEvt_mem]; exact e4

theorem execModuleWarmReset_memWf (cause : Byte) (s : State) (hm : Mem.wf s.mem = true) : SafeMem (execModuleWarmReset cause s) := by
  unfold execModuleWarmReset; (try dsimp only); all_goals ((repeat' split) <;> simp_all)

theorem execColdReset_memWf (cause : Byte) (s : State) (hm : Mem.wf s.mem = true) : SafeMem (execColdReset cause s) := by
  unfold execColdReset; extract_lets told s1
  have e1 : Mem.wf s1.mem = true := ite_memWf (State.beginReset_memWf _ _ _ _ hm) hm
  clear_value s1
  rw [memWf_next]
  refine ite_memWf e1 ?_
  split
  · exact State.startUp_memWf _ _ _ _ (State.survive_memWf _ _ e1)
  · exact State.startUp_memWf _ _ _ _ (State.survive_memWf _ _ e1)
  · exact State.startUp_memWf _ _ _ _ e1
  · exact e1

@[simp] theorem State.sendNak_memWf (s : State) (n : QpId) (hm : Mem.wf s.mem = true) : Mem.wf (State.sendNak s n).mem = true := by
  unfold State.sendNak; (try rw [memWf_next]); (try dsimp only); (repeat' split) <;> simp (maxDischargeDepth := 12) [hm]

theorem execFlitReceive_memWf (qp : QpId) (f : Flit) (s : State) (hm : Mem.wf s.mem = true) : SafeMem (execFlitReceive qp f s) := by
  unfold execFlitReceive; (try dsimp only); all_goals ((repeat' split) <;> simp_all)

theorem execNak_memWf (qp : QpId) (fseq : BitVec 12) (stamp : W64) (s : State) (hm : Mem.wf s.mem = true) : SafeMem (execNak qp fseq stamp s) := by
  unfold execNak; (try rw [memWf_next]); (try dsimp only); (repeat' split) <;> simp (maxDischargeDepth := 12) [hm]

theorem execQoreaSilentTimeout_memWf (qp : QpId) (stamp : W64) (s : State) (hm : Mem.wf s.mem = true) : SafeMem (execQoreaSilentTimeout qp stamp s) := by
  unfold execQoreaSilentTimeout; (try rw [memWf_next]); (try dsimp only); (repeat' split) <;> simp (maxDischargeDepth := 12) [hm]

theorem execTrainingStepTimeout_mem (qp : QpId) (lanes : BitVec 8) (s : State) : KeepsMem (execTrainingStepTimeout qp lanes s) s := by
  unfold execTrainingStepTimeout; (try dsimp only); all_goals ((repeat' split) <;> simp_all)

theorem execLinkTrained_mem (qp : QpId) (peerNode : BitVec 13) (s : State) : KeepsMem (execLinkTrained qp peerNode s) s := by
  unfold execLinkTrained; (try dsimp only); all_goals ((repeat' split) <;> simp_all)

@[simp] theorem State.endXfer_mem (s : State) (x : Xfer) (failed : Option Status) : (State.endXfer s x failed).mem = s.mem := by
  unfold State.endXfer; (try dsimp only); all_goals ((repeat' split) <;> simp_all)

@[simp] theorem State.openXfer_mem (s : State) (h : Hdr) (dir : BitVec 2) (ep : Endpoint) (addr : W64) (bytes : W64) : (State.openXfer s h dir ep addr bytes).1.mem = s.mem := by
  first
  | (unfold State.openXfer; (try dsimp only); all_goals ((repeat' split) <;> simp_all); done)
  | (unfold State.openXfer; (try dsimp only); all_goals ((repeat' split) <;> (try simp only [Prod.ext_iff] at *) <;> (try casesm* _ ∧ _) <;> (try subst_vars) <;> ((repeat' split) <;> simp_all)); done)
  | (unfold State.openXfer; (try rw [keepsMem_next]); (first | apply State.issue_mem | apply State.streamIssue_mem | apply State.atOnce_mem | apply State.queued_mem | apply State.queuedDone_mem | apply State.seqStep_mem) <;> (try assumption) <;> intros <;> (try dsimp only) <;> all_goals ((repeat' split) <;> simp_all); done)
  | (unfold State.openXfer; (try rw [keepsMem_next]); (first | apply State.issue_mem | apply State.streamIssue_mem | apply State.atOnce_mem | apply State.queued_mem | apply State.queuedDone_mem | apply State.seqStep_mem) <;> (try assumption) <;> intros <;> (try dsimp only) <;> all_goals ((repeat' split) <;> (try simp only [Prod.ext_iff] at *) <;> (try casesm* _ ∧ _) <;> (try subst_vars) <;> ((repeat' split) <;> simp_all)); done)
  | (unfold State.openXfer; (try rw [keepsMem_next]); (try dsimp only); ((repeat' split) <;> (try simp only [Prod.ext_iff] at *) <;> (try casesm* _ ∧ _) <;> (try subst_vars) <;> (try simp_all) <;> (repeat' (first | rw [foldl_mem] | rw [foldl_fst_mem])) <;> (try intros) <;> (try dsimp only) <;> ((repeat' split) <;> simp_all)); done)
  | (unfold State.openXfer; (try rw [keepsMem_next]); (try dsimp only); (repeat' split) <;> (try rw [keepsMem_next]) <;> (first | (first | apply State.issue_mem | apply State.streamIssue_mem | apply State.atOnce_mem | apply State.queued_mem | apply State.queuedDone_mem | apply State.seqStep_mem) | skip) <;> (try assumption) <;> (try intros) <;> (try dsimp only) <;> ((repeat' split) <;> (try simp only [Prod.ext_iff] at *) <;> (try casesm* _ ∧ _) <;> (try subst_vars) <;> (try simp_all) <;> (repeat' (first | rw [foldl_mem] | rw [foldl_fst_mem])) <;> (try intros) <;> (try dsimp only) <;> ((repeat' split) <;> simp_all)))

theorem State.onQp_mem (s : State) (n : QpId) (h : QHdr) (wait : Bool) (f : State → State) (hf : ∀ s, (f s).mem = s.mem) : KeepsMem (s.onQp n h wait f) s := by
  unfold State.onQp; simp; split <;> simp [hf]

theorem State.onQp_memWf (s : State) (n : QpId) (h : QHdr) (wait : Bool) (f : State → State) (hf : ∀ s, Mem.wf s.mem = true → Mem.wf (f s).mem = true) (hm : Mem.wf s.mem = true) :
    SafeMem (s.onQp n h wait f) := by
  unfold State.onQp; simp; split <;> simp [hf, hm]

theorem execDataIn_mem (h : Hdr) (ep : Endpoint) (addr : W64) (bytes : W64) (s : State) : KeepsMem (execDataIn h ep addr bytes s) s := by
  unfold execDataIn; (try rw [keepsMem_next]); (first | apply State.issue_mem | apply State.streamIssue_mem | apply State.atOnce_mem | apply State.queued_mem | apply State.queuedDone_mem | apply State.seqStep_mem | apply State.onQp_mem) <;> (try assumption) <;> intros <;> (try dsimp only) <;> all_goals ((repeat' split) <;> simp_all)

theorem execDataOut_mem (h : Hdr) (ep : Endpoint) (addr : W64) (bytes : W64) (s : State) : KeepsMem (execDataOut h ep addr bytes s) s := by
  unfold execDataOut; (try rw [keepsMem_next]); (first | apply State.issue_mem | apply State.streamIssue_mem | apply State.atOnce_mem | apply State.queued_mem | apply State.queuedDone_mem | apply State.seqStep_mem | apply State.onQp_mem) <;> (try assumption) <;> intros <;> (try dsimp only) <;> all_goals ((repeat' split) <;> simp_all)

theorem execData_memWf (qp : QpId) (h : QHdr) (bytes : List Byte) (s : State) (hm : Mem.wf s.mem = true) : SafeMem (execData qp h bytes s) := by
  unfold execData; (try rw [memWf_next]); (first | apply State.issue_memWf | apply State.streamIssue_memWf | apply State.atOnce_memWf | apply State.queued_memWf | apply State.queuedDone_memWf | apply State.seqStep_memWf | apply State.onQp_memWf) <;> (try assumption) <;> intros <;> (try dsimp only) <;> all_goals ((repeat' split) <;> (try simp only [Prod.ext_iff] at *) <;> (try casesm* _ ∧ _) <;> (try subst_vars) <;> ((repeat' split) <;> simp_all))

theorem execRead_memWf (qp : QpId) (h : QHdr) (len : Nat) (s : State) (hm : Mem.wf s.mem = true) : SafeMem (execRead qp h len s) := by
  unfold execRead; (try rw [memWf_next]); (first | apply State.issue_memWf | apply State.streamIssue_memWf | apply State.atOnce_memWf | apply State.queued_memWf | apply State.queuedDone_memWf | apply State.seqStep_memWf | apply State.onQp_memWf) <;> (try assumption) <;> intros <;> (try dsimp only) <;> all_goals ((repeat' split) <;> (try simp only [Prod.ext_iff] at *) <;> (try casesm* _ ∧ _) <;> (try subst_vars) <;> ((repeat' split) <;> simp_all))

@[simp] theorem State.finishOuts_mem (s : State) (p : PtnId) : (State.finishOuts s p).mem = s.mem := by
  unfold State.finishOuts; (try rw [keepsMem_next]); (try dsimp only); ((repeat' split) <;> (try simp only [Prod.ext_iff] at *) <;> (try casesm* _ ∧ _) <;> (try subst_vars) <;> (try simp_all) <;> (repeat' (first | rw [foldl_mem] | rw [foldl_fst_mem])) <;> (try intros) <;> (try dsimp only) <;> ((repeat' split) <;> simp_all))

theorem execAck_mem (qp : QpId) (p : PtnId) (cls : Fin 4) (pktNum : W64) (s : State) : KeepsMem (execAck qp p cls pktNum s) s := by
  unfold execAck; rw [keepsMem_next]; split <;> simp

theorem execRouteSet_mem (h : Hdr) (portMask : W64) (first : W16) (count : W16) (value : Byte) (s : State) : KeepsMem (execRouteSet h portMask first count value s) s := by
  unfold execRouteSet; (try rw [keepsMem_next]); (try dsimp only); (repeat' split) <;> (try rw [keepsMem_next]) <;> (first | (first | apply State.issue_mem | apply State.streamIssue_mem | apply State.atOnce_mem | apply State.queued_mem | apply State.queuedDone_mem | apply State.seqStep_mem | apply State.onQp_mem) | skip) <;> (try assumption) <;> (try intros) <;> (try dsimp only) <;> ((repeat' split) <;> (try simp only [Prod.ext_iff] at *) <;> (try casesm* _ ∧ _) <;> (try subst_vars) <;> (try simp_all) <;> (repeat' (first | rw [foldl_mem] | rw [foldl_fst_mem])) <;> (try intros) <;> (try dsimp only) <;> ((repeat' split) <;> simp_all))

@[simp] theorem State.updRound_mem (s : State) (p : PtnId) (g : W32) (num : W64) (f : Round → Round) : (State.updRound s p g num f).mem = s.mem := by
  unfold State.updRound; (try dsimp only); all_goals ((repeat' split) <;> simp_all)

@[simp] theorem State.updBucket_mem (s : State) (p : PtnId) (g : W32) (num : W64) (b : Nat) (f : Bucket → Bucket) : (State.updBucket s p g num b f).mem = s.mem := by
  unfold State.updBucket; (try dsimp only); all_goals ((repeat' split) <;> simp_all)

@[simp] theorem State.toMember_mem (s : State) (p : PtnId) (g : Group) (i : Nat) (kind : Byte) (vl : BitVec 4) (round : W64) (b : Nat) (body : List Byte) : (State.toMember s p g i kind vl round b body).mem = s.mem := by
  unfold State.toMember; (try dsimp only); all_goals ((repeat' split) <;> simp_all)

@[simp] theorem State.endUpdate_memWf (s : State) (p : PtnId) (h : Hdr) (item : Nat) (set : Option Nat) (skipped : W32) (failed : Option Status) (hm : Mem.wf s.mem = true) : Mem.wf (State.endUpdate s p h item set skipped failed).mem = true := by
  unfold State.endUpdate; (try dsimp only); all_goals ((repeat' split) <;> simp_all)

@[simp] theorem State.finishRound_memWf (s : State) (p : PtnId) (g : Group) (r : Round) (hm : Mem.wf s.mem = true) : Mem.wf (State.finishRound s p g r).mem = true := by
  unfold State.finishRound; (try dsimp only); all_goals ((repeat' split) <;> simp_all)

@[simp] theorem State.failRound_memWf (s : State) (p : PtnId) (g : Group) (r : Round) (code : Status) (hm : Mem.wf s.mem = true) : Mem.wf (State.failRound s p g r code).mem = true := by
  unfold State.failRound; (try dsimp only); all_goals ((repeat' split) <;> simp_all)

@[simp] theorem State.addGrad_mem (s : State) (p : PtnId) (g : W32) (num : W64) (b : Nat) (member : Nat) (off : Nat) (qs : List W32) : (State.addGrad s p g num b member off qs).mem = s.mem := by
  unfold State.addGrad; (try dsimp only); all_goals ((repeat' split) <;> simp_all)

@[simp] theorem State.memberScale_mem (s : State) (p : PtnId) (g : W32) (num : W64) (b : Nat) (f : BitVec 16) (mark : BitVec 2) : (State.memberScale s p g num b f mark).mem = s.mem := by
  unfold State.memberScale; (try dsimp only); all_goals ((repeat' split) <;> simp_all)

@[simp] theorem State.setScale_mem (s : State) (p : PtnId) (g : W32) (num : W64) (b : Nat) : (State.setScale s p g num b).mem = s.mem := by
  unfold State.setScale; (try dsimp only); all_goals ((repeat' split) <;> simp_all)

@[simp] theorem State.setScales_mem (s : State) (p : PtnId) (g : W32) : (State.setScales s p g).mem = s.mem := by
  unfold State.setScales; (try dsimp only); all_goals ((repeat' split) <;> simp_all)

@[simp] theorem State.addExp_mem (s : State) (p : PtnId) (g : W32) (num : W64) (b : Nat) (member : Nat) (e : BitVec 16) (nf : Bool) : (State.addExp s p g num b member e nf).mem = s.mem := by
  unfold State.addExp; (try dsimp only); all_goals ((repeat' split) <;> simp_all)

@[simp] theorem State.sendExp_mem (s : State) (p : PtnId) (g : W32) (num : W64) (b : Nat) : (State.sendExp s p g num b).mem = s.mem := by
  unfold State.sendExp; (try dsimp only); all_goals ((repeat' split) <;> simp_all)

@[simp] theorem State.openRound_memWf (s : State) (p : PtnId) (g : Group) (h : Hdr) (item : Nat) (work : RoundWork) (buckets : List Bucket) (hm : Mem.wf s.mem = true) : Mem.wf (State.openRound s p g h item work buckets).mem = true := by
  unfold State.openRound; (try dsimp only); all_goals ((repeat' split) <;> simp_all)

@[simp] theorem State.closeBucket_mem (s : State) (p : PtnId) (g : Group) (r : Round) (b : Nat) (k : Bucket) : (State.closeBucket s p g r b k).mem = s.mem := by
  unfold State.closeBucket; (try rw [keepsMem_next]); (try dsimp only); ((repeat' split) <;> (try simp only [Prod.ext_iff] at *) <;> (try casesm* _ ∧ _) <;> (try subst_vars) <;> (try simp_all) <;> (repeat' (first | rw [foldl_mem] | rw [foldl_fst_mem])) <;> (try intros) <;> (try dsimp only) <;> ((repeat' split) <;> simp_all))

@[simp] theorem State.paramsDone_mem (s : State) (p : PtnId) (g : W32) (num : W64) (b : Nat) : (State.paramsDone s p g num b).mem = s.mem := by
  unfold State.paramsDone; (try dsimp only); all_goals ((repeat' split) <;> simp_all)

@[simp] theorem State.storeParams_memWf (s : State) (p : PtnId) (y : Group) (r : Round) (b : Nat) (k : Bucket) (i : Nat) (vs : List W32) (hm : Mem.wf s.mem = true) : Mem.wf (State.storeParams s p y r b k i vs).1.mem = true := by
  unfold State.storeParams; (try dsimp only); all_goals ((repeat' split) <;> simp_all)

@[simp] theorem State.memberParam_memWf (s : State) (p : PtnId) (g : W32) (num : W64) (b : Nat) (i : Nat) (vs : List W32) (hm : Mem.wf s.mem = true) : Mem.wf (State.memberParam s p g num b i vs).mem = true := by
  unfold State.memberParam; (try dsimp only); all_goals ((repeat' split) <;> (try simp only [Prod.ext_iff] at *) <;> (try casesm* _ ∧ _) <;> (try subst_vars) <;> ((repeat' split) <;> simp_all))

@[simp] theorem State.sendParam_memWf (s : State) (p : PtnId) (g : Group) (r : Round) (b : Nat) (out : List W32) (hm : Mem.wf s.mem = true) : Mem.wf (State.sendParam s p g r b out).mem = true := by
  unfold State.sendParam; (try dsimp only); all_goals ((repeat' split) <;> simp_all)

theorem execBucketClose_memWf (p : PtnId) (group : W32) (bucket : Nat) (s : State) (hm : Mem.wf s.mem = true) : SafeMem (execBucketClose p group bucket s) := by
  unfold execBucketClose; (try dsimp only); all_goals ((repeat' split) <;> simp_all)

theorem State.onGroup_mem (s : State) (qp : QpId) (h : QHdr) (g : GHdr) (wait : Bool) (f : State → Group → Nat → State)
    (hf : ∀ s y m, (f s y m).mem = s.mem) : KeepsMem (s.onGroup qp h g wait f) s := by
  unfold State.onGroup; apply State.onQp_mem; intros; (repeat' split) <;> simp_all

theorem State.inRound_mem (s : State) (h : QHdr) (g : GHdr) (f : State → Group → Round → State)
    (hf : ∀ s y r, (f s y r).mem = s.mem) : (s.inRound h g f).mem = s.mem := by
  unfold State.inRound; (repeat' split) <;> simp_all

theorem State.onGroup_memWf (s : State) (qp : QpId) (h : QHdr) (g : GHdr) (wait : Bool) (f : State → Group → Nat → State)
    (hf : ∀ s y m, Mem.wf s.mem = true → Mem.wf (f s y m).mem = true) (hm : Mem.wf s.mem = true) : SafeMem (s.onGroup qp h g wait f) := by
  unfold State.onGroup; apply State.onQp_memWf _ _ _ _ _ _ hm; intros; (repeat' split) <;> simp_all

theorem State.inRound_memWf (s : State) (h : QHdr) (g : GHdr) (f : State → Group → Round → State)
    (hf : ∀ s y r, Mem.wf s.mem = true → Mem.wf (f s y r).mem = true) (hm : Mem.wf s.mem = true) : Mem.wf (s.inRound h g f).mem = true := by
  unfold State.inRound; (repeat' split) <;> simp_all

theorem execExp_mem (qp : QpId) (h : QHdr) (g : GHdr) (bucket : Nat) (e : BitVec 16) (nonfinite : Bool) (s : State) :
    KeepsMem (execExp qp h g bucket e nonfinite s) s := by
  unfold execExp; refine State.onGroup_mem _ _ _ _ _ _ fun s y m => ?_
  (repeat' split) <;> (try simp)
  refine State.inRound_mem _ _ _ _ fun s y r => ?_
  split <;> simp

theorem execScale_mem (qp : QpId) (h : QHdr) (g : GHdr) (bucket : Nat) (f : BitVec 16) (mark : BitVec 2) (s : State) :
    KeepsMem (execScale qp h g bucket f mark s) s :=
  State.onGroup_mem _ _ _ _ _ _ fun s y m => State.inRound_mem _ _ _ _ fun s y r => by (repeat' split) <;> simp

theorem execGrad_mem (qp : QpId) (h : QHdr) (g : GHdr) (bucket : Nat) (vals : List W32) (s : State) : KeepsMem (execGrad qp h g bucket vals s) s :=
  State.onGroup_mem _ _ _ _ _ _ fun s y m => State.inRound_mem _ _ _ _ fun s y r => by split <;> simp

theorem execParam_memWf (qp : QpId) (h : QHdr) (g : GHdr) (bucket : Nat) (vals : List W32) (s : State) (hm : Mem.wf s.mem = true) :
    SafeMem (execParam qp h g bucket vals s) :=
  State.onGroup_memWf _ _ _ _ _ _ (fun s y m hm =>
    State.inRound_memWf _ _ _ _ (fun s y r hm => by dsimp only; (repeat' split) <;> simp [hm]) hm) hm

theorem execAbsent_memWf (qp : QpId) (h : QHdr) (g : GHdr) (s : State) (hm : Mem.wf s.mem = true) : SafeMem (execAbsent qp h g s) := by
  unfold execAbsent; (try rw [memWf_next]); (first | apply State.issue_memWf | apply State.streamIssue_memWf | apply State.atOnce_memWf | apply State.queued_memWf | apply State.queuedDone_memWf | apply State.seqStep_memWf | apply State.onQp_memWf | apply State.onGroup_memWf | apply State.inRound_memWf) <;> (try assumption) <;> intros <;> (try dsimp only) <;> all_goals ((repeat' split) <;> simp_all)

theorem execAbort_memWf (qp : QpId) (h : QHdr) (g : GHdr) (s : State) (hm : Mem.wf s.mem = true) : SafeMem (execAbort qp h g s) := by
  unfold execAbort; (try rw [memWf_next]); (first | apply State.issue_memWf | apply State.streamIssue_memWf | apply State.atOnce_memWf | apply State.queued_memWf | apply State.queuedDone_memWf | apply State.seqStep_memWf | apply State.onQp_memWf | apply State.onGroup_memWf | apply State.inRound_memWf) <;> (try assumption) <;> intros <;> (try dsimp only) <;> all_goals ((repeat' split) <;> simp_all)

@[simp] theorem State.openReduce_memWf (s : State) (p : PtnId) (g : Group) (h : Hdr) (hm : Mem.wf s.mem = true) : Mem.wf (State.openReduce s p g h).mem = true := by
  unfold State.openReduce; (try dsimp only); all_goals ((repeat' split) <;> (try simp only [Prod.ext_iff] at *) <;> (try casesm* _ ∧ _) <;> (try subst_vars) <;> ((repeat' split) <;> simp_all))

@[simp] theorem State.activate_memWf (s : State) (p : PtnId) (id : W32) (hm : Mem.wf s.mem = true) : Mem.wf (State.activate s p id).mem = true := by
  unfold State.activate; (try rw [memWf_next]); (try dsimp only); (repeat' split) <;> (try rw [memWf_next]) <;> (try simp only [Prod.ext_iff] at *) <;> (try casesm* _ ∧ _) <;> (try subst_vars) <;> (try simp (maxDischargeDepth := 12) [hm]) <;> (with_reducible repeat' (first | assumption | apply foldl_memWf | apply foldl_fst_memWf)) <;> (try intros) <;> (try dsimp only) <;> (repeat' split) <;> (try simp only [Prod.ext_iff] at *) <;> (try casesm* _ ∧ _) <;> (try subst_vars) <;> simp (maxDischargeDepth := 12) [*]

@[simp] theorem State.tryActive_memWf (s : State) (p : PtnId) (id : W32) (hm : Mem.wf s.mem = true) : Mem.wf (State.tryActive s p id).mem = true := by
  unfold State.tryActive; (try dsimp only); all_goals ((repeat' split) <;> simp_all)

@[simp] theorem State.answerJoin_mem (s : State) (p : PtnId) (g : Group) (m : Nat) : (s.answerJoin p g m).mem = s.mem := by simp [State.answerJoin]

@[simp] theorem State.sendJoin_mem (s : State) (p : PtnId) (g : Group) : (State.sendJoin s p g).mem = s.mem := by
  unfold State.sendJoin; (try dsimp only); all_goals ((repeat' split) <;> simp_all)

@[simp] theorem State.joinNow_memWf (s : State) (p : PtnId) (id : W32) (hm : Mem.wf s.mem = true) : Mem.wf (State.joinNow s p id).mem = true := by
  unfold State.joinNow; (try dsimp only); all_goals ((repeat' split) <;> simp_all)

theorem execJoin_memWf (qp : QpId) (h : QHdr) (g : GHdr) (roundTotal : W64) (s : State) (hm : Mem.wf s.mem = true) : SafeMem (execJoin qp h g roundTotal s) := by
  unfold execJoin; (try rw [memWf_next]); (first | apply State.issue_memWf | apply State.streamIssue_memWf | apply State.atOnce_memWf | apply State.queued_memWf | apply State.queuedDone_memWf | apply State.seqStep_memWf | apply State.onQp_memWf | apply State.onGroup_memWf | apply State.inRound_memWf) <;> (try assumption) <;> intros <;> (try dsimp only) <;> all_goals ((repeat' split) <;> simp_all)

theorem execGroupSet_memWf (h : Hdr) (g : GroupBlock) (s : State) (hm : Mem.wf s.mem = true) : SafeMem (execGroupSet h g s) := by
  unfold execGroupSet; (try rw [memWf_next]); with_reducible (first | apply State.issue_memWf | apply State.streamIssue_memWf | apply State.atOnce_memWf | apply State.queued_memWf | apply State.queuedDone_memWf | apply State.seqStep_memWf | apply State.onQp_memWf | apply State.onGroup_memWf | apply State.inRound_memWf | apply State.onI3c_memWf) <;> (try with_reducible assumption) <;> intros <;> (try dsimp only) <;> (repeat' split) <;> (try simp only [Prod.ext_iff] at *) <;> (try casesm* _ ∧ _) <;> (try subst_vars) <;> simp (maxDischargeDepth := 12) [*]

theorem execGroupLeave_memWf (h : Hdr) (group : W32) (s : State) (hm : Mem.wf s.mem = true) : SafeMem (execGroupLeave h group s) := by
  unfold execGroupLeave; rw [memWf_next]; refine State.queuedDone_memWf _ _ _ _ _ (fun s hs => ?_) hm
  split
  · exact hs
  · split
    · exact hs
    · exact foldl_memWf _ (fun s w h => State.endUpdate_memWf _ _ _ _ _ _ _ h) _ _ (by simpa using hs)

theorem execGroupTimeout_memWf (p : PtnId) (group : W32) (s : State) (hm : Mem.wf s.mem = true) : SafeMem (execGroupTimeout p group s) := by
  unfold execGroupTimeout; (try rw [memWf_next]); (try dsimp only); (repeat' split) <;> (try rw [memWf_next]) <;> (try simp only [Prod.ext_iff] at *) <;> (try casesm* _ ∧ _) <;> (try subst_vars) <;> (try simp (maxDischargeDepth := 12) [hm]) <;> (with_reducible repeat' (first | assumption | apply foldl_memWf | apply foldl_fst_memWf)) <;> (try intros) <;> (try dsimp only) <;> (repeat' split) <;> (try simp only [Prod.ext_iff] at *) <;> (try casesm* _ ∧ _) <;> (try subst_vars) <;> simp (maxDischargeDepth := 12) [*]

theorem execReduce_memWf (h : Hdr) (group : W32) (outB16 : Bool) (elems : W64) (src : W64) (dst : W64) (s : State) (hm : Mem.wf s.mem = true) : SafeMem (execReduce h group outB16 elems src dst s) := by
  unfold execReduce; (try rw [memWf_next]); with_reducible (first | apply State.issue_memWf | apply State.streamIssue_memWf | apply State.atOnce_memWf | apply State.queued_memWf | apply State.queuedDone_memWf | apply State.seqStep_memWf | apply State.onQp_memWf | apply State.onGroup_memWf | apply State.inRound_memWf | apply State.onI3c_memWf) <;> (try with_reducible assumption) <;> intros <;> (try dsimp only) <;> (repeat' split) <;> (try simp only [Prod.ext_iff] at *) <;> (try casesm* _ ∧ _) <;> (try subst_vars) <;> simp (maxDischargeDepth := 12) [*]

@[simp] theorem State.sharedDiffers_mem (s : State) (im : Image) (version : Nat) : (State.sharedDiffers s im version).1.mem = s.mem := by
  unfold State.sharedDiffers; (try dsimp only); all_goals ((repeat' split) <;> simp_all)

@[simp] theorem State.placeModel_mem (s : State) (h : Hdr) (m : Except Status (Model × Ev)) : (State.placeModel s h m).1.mem = s.mem := by
  unfold State.placeModel; (try dsimp only); all_goals ((repeat' split) <;> simp_all)

theorem execModelLoad_memWf (h : Hdr) (addr : W64) (bytes : W64) (flags : W32) (kvPoolGib : W16) (s : State) (hm : Mem.wf s.mem = true) : SafeMem (execModelLoad h addr bytes flags kvPoolGib s) := by
  unfold execModelLoad; rw [memWf_next]
  refine State.queuedDone_memWf _ _ _ _ _ (fun s hm => ?_) hm
  split
  · exact hm
  · split
    · rename_i h1; exact fst_memWf h1 (State.pRead_memWf _ _ _ _ _ hm)
    · rename_i h1
      have e1 := fst_memWf h1 (State.pRead_memWf _ _ _ _ _ hm)
      split
      · exact e1
      · split
        · rename_i h2; exact fst_memWf h2 (by simpa using e1)
        · rename_i h2
          have e2 := fst_memWf h2 (by simpa using e1)
          simpa using e2

theorem execModelUnload_mem (h : Hdr) (handle : W16) (s : State) : KeepsMem (execModelUnload h handle s) s := by
  unfold execModelUnload; (try rw [keepsMem_next]); (first | apply State.issue_mem | apply State.streamIssue_mem | apply State.atOnce_mem | apply State.queued_mem | apply State.queuedDone_mem | apply State.seqStep_mem | apply State.onQp_mem | apply State.onGroup_mem | apply State.inRound_mem) <;> (try assumption) <;> intros <;> (try dsimp only) <;> all_goals ((repeat' split) <;> simp_all)

@[simp] theorem State.fillGranules_memWf (s : State) (p : PtnId) (ws : List Nat) (bs : List Byte) (hm : Mem.wf s.mem = true) : Mem.wf (s.fillGranules p ws bs).1.mem = true := by
  induction ws generalizing s bs with
  | nil => exact hm
  | cons w ws ih =>
    unfold State.fillGranules
    split
    · rename_i h1; exact fst_memWf h1 (State.pWrite_memWf _ _ _ _ _ hm)
    · rename_i h1; exact ih _ _ (fst_memWf h1 (State.pWrite_memWf _ _ _ _ _ hm))

@[simp] theorem State.loadVariant_memWf (s : State) (p : PtnId) (model : Nat) (tag : W32) (addr bytes : Nat) (hm : Mem.wf s.mem = true) :
    Mem.wf (s.loadVariant p model tag addr bytes).1.mem = true := by
  unfold State.loadVariant
  refine Acc.bind_safe _ _ ?_ (State.pRead_memWf _ _ _ _ _ hm)
  rintro s b _ rfl hm
  refine Acc.bind_safe _ _ ?_ hm
  rintro s b _ rfl hm
  refine Acc.bind_safe _ _ ?_ (State.fillGranules_memWf _ _ _ _ hm)
  rintro s b _ rfl hm; exact hm

theorem execVariantLoad_memWf (h : Hdr) (model : W16) (tag : W32) (addr : W64) (bytes : W64) (s : State) (hm : Mem.wf s.mem = true) : SafeMem (execVariantLoad h model tag addr bytes s) := by
  unfold execVariantLoad; rw [memWf_next]; apply State.queuedDone_memWf _ _ _ _ _ _ hm; intro s hm
  split
  · exact hm
  · split <;> (rename_i h1; exact fst_memWf h1 (State.loadVariant_memWf _ _ _ _ _ _ hm))

theorem execVariantUnload_mem (h : Hdr) (model : W16) (tag : W32) (s : State) : KeepsMem (execVariantUnload h model tag s) s := by
  unfold execVariantUnload; (try rw [keepsMem_next]); (first | apply State.issue_mem | apply State.streamIssue_mem | apply State.atOnce_mem | apply State.queued_mem | apply State.queuedDone_mem | apply State.seqStep_mem | apply State.onQp_mem | apply State.onGroup_mem | apply State.inRound_mem) <;> (try assumption) <;> intros <;> (try dsimp only) <;> all_goals ((repeat' split) <;> simp_all)

@[simp] theorem State.putRegs_mem (s : State) (p : PtnId) (b : List Byte) : (State.putRegs s p b).mem = s.mem := by
  unfold State.putRegs; (try dsimp only); all_goals ((repeat' split) <;> simp_all)

@[simp] theorem State.updFix_mem (s : State) (p : PtnId) (f : FixP → FixP) : (State.updFix s p f).mem = s.mem := by
  unfold State.updFix; (try dsimp only); all_goals ((repeat' split) <;> simp_all)

@[simp] theorem State.fenced_mem (s : State) (h : Hdr) (opcode : W16) : (State.fenced s h opcode).mem = s.mem := by
  unfold State.fenced; (try dsimp only); all_goals ((repeat' split) <;> simp_all)

@[simp] theorem State.fixSend_mem (s : State) (p : PtnId) (dest : Endpoint) (kind : Byte) (xfer : W32) (off : W64) (last : Bool) (bs : List Byte) : (State.fixSend s p dest kind xfer off last bs).1.mem = s.mem := by
  unfold State.fixSend; (try dsimp only); all_goals ((repeat' split) <;> simp_all)

@[simp] theorem State.sendCopy_mem (s : State) (h : Hdr) (item : Nat) (partner : Bool) (num : W32) (dest : Endpoint) (b : List Byte) : (State.sendCopy s h item partner num dest b).mem = s.mem := by
  unfold State.sendCopy; (try dsimp only); all_goals ((repeat' split) <;> simp_all)

@[simp] theorem State.saveNow_mem (s : State) (h : Hdr) (store : Endpoint) (toStore : Bool) (toPartner : Bool) : (State.saveNow s h store toStore toPartner).mem = s.mem := by
  unfold State.saveNow; (try dsimp only); all_goals ((repeat' split) <;> simp_all)

theorem execCkptSave_mem (h : Hdr) (store : Endpoint) (toStore toPartner : Bool) (timeoutMs : W16) (s : State) :
    KeepsMem (execCkptSave h store toStore toPartner timeoutMs s) s := by
  unfold execCkptSave; rw [keepsMem_next]; split
  · rfl
  · exact (State.queued_mem _ _ _ _ _ _ _ fun _ => by simp).trans (by simp)

@[simp] theorem State.endCopy_mem (s : State) (p : PtnId) (c : Copy) (failed : Option Status) : (State.endCopy s p c failed).mem = s.mem := by
  unfold State.endCopy; (try dsimp only); all_goals ((repeat' split) <;> simp_all)

theorem execCkAck_mem (qp : QpId) (h : QHdr) (num : W32) (status : W16) (_digest : List Byte) (s : State) : KeepsMem (execCkAck qp h num status _digest s) s := by
  unfold execCkAck; (try rw [keepsMem_next]); (first | apply State.issue_mem | apply State.streamIssue_mem | apply State.atOnce_mem | apply State.queued_mem | apply State.queuedDone_mem | apply State.seqStep_mem | apply State.onQp_mem | apply State.onGroup_mem | apply State.inRound_mem) <;> (try assumption) <;> intros <;> (try dsimp only) <;> all_goals ((repeat' split) <;> simp_all)

theorem execCopyTimeout_mem (p : PtnId) (partner : Bool) (s : State) : KeepsMem (execCopyTimeout p partner s) s := by
  unfold execCopyTimeout; (try dsimp only); all_goals ((repeat' split) <;> simp_all)

theorem execPartnerSet_mem (h : Hdr) (role : Byte) (override : Bool) (peer : Endpoint) (addr bytes : W64) (s : State) :
    KeepsMem (execPartnerSet h role override peer addr bytes s) s := by
  unfold execPartnerSet; rw [keepsMem_next]; split
  · rfl
  · refine State.queued_mem _ _ _ _ _ _ _ fun s => ?_
    dsimp only
    (repeat' split) <;> simp

theorem execHello_mem (qp : QpId) (h : QHdr) (_feed : BitVec 4) (_size : W64) (s : State) : KeepsMem (execHello qp h _feed _size s) s := by
  unfold execHello; (try rw [keepsMem_next]); (first | apply State.issue_mem | apply State.streamIssue_mem | apply State.atOnce_mem | apply State.queued_mem | apply State.queuedDone_mem | apply State.seqStep_mem | apply State.onQp_mem | apply State.onGroup_mem | apply State.inRound_mem) <;> (try assumption) <;> intros <;> (try dsimp only) <;> all_goals ((repeat' split) <;> simp_all)

@[simp] theorem State.endHello_mem (s : State) (p : PtnId) (h : Hdr) (failed : Option Status) : (State.endHello s p h failed).mem = s.mem := by
  unfold State.endHello; (try dsimp only); all_goals ((repeat' split) <;> simp_all)

theorem execHelloAck_mem (qp : QpId) (h : QHdr) (feed : BitVec 4) (status : W16) (_half : W64) (s : State) : KeepsMem (execHelloAck qp h feed status _half s) s := by
  unfold execHelloAck; (try rw [keepsMem_next]); (first | apply State.issue_mem | apply State.streamIssue_mem | apply State.atOnce_mem | apply State.queued_mem | apply State.queuedDone_mem | apply State.seqStep_mem | apply State.onQp_mem | apply State.onGroup_mem | apply State.inRound_mem) <;> (try assumption) <;> intros <;> (try dsimp only) <;> all_goals ((repeat' split) <;> simp_all)

theorem execHelloTimeout_mem (p : PtnId) (s : State) : KeepsMem (execHelloTimeout p s) s := by
  unfold execHelloTimeout; (try dsimp only); all_goals ((repeat' split) <;> simp_all)

@[simp] theorem State.setRole_mem (s : State) (p : PtnId) (hold : Bool) (a : AreaRole) : (State.setRole s p hold a).mem = s.mem := by
  unfold State.setRole; (try dsimp only); all_goals ((repeat' split) <;> simp_all)

@[simp] theorem State.roleWrite_memWf (s : State) (p : PtnId) (qp : QpId) (hold : Bool) (a : AreaRole) (off : Nat) (bs : List Byte) (hm : Mem.wf s.mem = true) : Mem.wf (State.roleWrite s p qp hold a off bs).1.mem = true := by
  unfold State.roleWrite; (try dsimp only); all_goals ((repeat' split) <;> (try simp only [Prod.ext_iff] at *) <;> (try casesm* _ ∧ _) <;> (try subst_vars) <;> ((repeat' split) <;> simp_all))

@[simp] theorem State.roleAck_mem (s : State) (p : PtnId) (hold : Bool) (a : AreaRole) (status : Nat) (digest : List Byte) : (State.roleAck s p hold a status digest).mem = s.mem := by
  unfold State.roleAck; (try dsimp only); all_goals ((repeat' split) <;> simp_all)

@[simp] theorem State.roleEnd_memWf (s : State) (p : PtnId) (hold : Bool) (a : AreaRole) (hm : Mem.wf s.mem = true) : Mem.wf (State.roleEnd s p hold a).mem = true := by
  unfold State.roleEnd; (try dsimp only); all_goals ((repeat' split) <;> (try simp only [Prod.ext_iff] at *) <;> (try casesm* _ ∧ _) <;> (try subst_vars) <;> ((repeat' split) <;> simp_all))

@[simp] theorem State.roleSize_memWf (s : State) (p : PtnId) (qp : QpId) (hold : Bool) (a : AreaRole) (total : Nat) (hm : Mem.wf s.mem = true) :
    Mem.wf (s.roleSize p qp hold a total).1.mem = true := by
  unfold State.roleSize; dsimp only
  split
  · exact hm
  · split
    · exact hm
    · refine foldl_fst_memWf _ (fun x e h => ?_) _ _ hm
      split <;> simp [h]

@[simp] theorem State.roleData_memWf (s : State) (qp : QpId) (h : QHdr) (hold : Bool) (bytes : List Byte) (hm : Mem.wf s.mem = true) : Mem.wf (State.roleData s qp h hold bytes).mem = true := by
  unfold State.roleData; extract_lets p bs off
  split
  · rw [State.dropPkt_mem]; exact hm
  · extract_lets a a0 a1 r s1 a2 w
    refine ite_memWf hm ?_
    have er : Mem.wf r.1.mem = true := by
      simp only [r]; split
      · exact State.roleSize_memWf _ _ _ _ _ _ hm
      · split <;> exact hm
    have e1 : Mem.wf s1.mem = true := er
    clear_value s1
    refine ite_memWf (State.roleEnd_memWf _ _ _ _ e1) (State.roleEnd_memWf _ _ _ _ ?_)
    simp only [w]; split
    · split
      · exact State.roleWrite_memWf _ _ _ _ _ _ _ e1
      · exact (State.dropPkt_mem _ _).symm ▸ e1
    · split
      · exact e1
      · exact State.roleWrite_memWf _ _ _ _ _ _ _ e1

@[simp] theorem State.roleFin_memWf (s : State) (qp : QpId) (h : QHdr) (hold : Bool) (num : W32) (total : Nat) (digest : List Byte) (hm : Mem.wf s.mem = true) : Mem.wf (State.roleFin s qp h hold num total digest).mem = true := by
  unfold State.roleFin; (try dsimp only); all_goals ((repeat' split) <;> simp_all)

theorem execCkData_memWf (qp : QpId) (h : QHdr) (bytes : List Byte) (s : State) (hm : Mem.wf s.mem = true) : SafeMem (execCkData qp h bytes s) := by
  unfold execCkData; (try rw [memWf_next]); (first | apply State.issue_memWf | apply State.streamIssue_memWf | apply State.atOnce_memWf | apply State.queued_memWf | apply State.queuedDone_memWf | apply State.seqStep_memWf | apply State.onQp_memWf | apply State.onGroup_memWf | apply State.inRound_memWf) <;> (try assumption) <;> intros <;> (try dsimp only) <;> all_goals ((repeat' split) <;> simp_all)

theorem execCkEnd_memWf (qp : QpId) (h : QHdr) (num : W32) (total : W64) (digest : List Byte) (s : State) (hm : Mem.wf s.mem = true) : SafeMem (execCkEnd qp h num total digest s) := by
  unfold execCkEnd; (try rw [memWf_next]); (first | apply State.issue_memWf | apply State.streamIssue_memWf | apply State.atOnce_memWf | apply State.queued_memWf | apply State.queuedDone_memWf | apply State.seqStep_memWf | apply State.onQp_memWf | apply State.onGroup_memWf | apply State.inRound_memWf) <;> (try assumption) <;> intros <;> (try dsimp only) <;> all_goals ((repeat' split) <;> simp_all)

theorem execNegData_memWf (qp : QpId) (h : QHdr) (bytes : List Byte) (s : State) (hm : Mem.wf s.mem = true) : SafeMem (execNegData qp h bytes s) := by
  unfold execNegData; (try rw [memWf_next]); (first | apply State.issue_memWf | apply State.streamIssue_memWf | apply State.atOnce_memWf | apply State.queued_memWf | apply State.queuedDone_memWf | apply State.seqStep_memWf | apply State.onQp_memWf | apply State.onGroup_memWf | apply State.inRound_memWf) <;> (try assumption) <;> intros <;> (try dsimp only) <;> all_goals ((repeat' split) <;> simp_all)

theorem execNegEnd_memWf (qp : QpId) (h : QHdr) (total : W64) (sha : List Byte) (s : State) (hm : Mem.wf s.mem = true) : SafeMem (execNegEnd qp h total sha s) := by
  unfold execNegEnd; (try rw [memWf_next]); (first | apply State.issue_memWf | apply State.streamIssue_memWf | apply State.atOnce_memWf | apply State.queued_memWf | apply State.queuedDone_memWf | apply State.seqStep_memWf | apply State.onQp_memWf | apply State.onGroup_memWf | apply State.inRound_memWf) <;> (try assumption) <;> intros <;> (try dsimp only) <;> all_goals ((repeat' split) <;> simp_all)

theorem execCkRead_memWf (qp : QpId) (h : QHdr) (num : W32) (offset : W64) (len : Nat) (s : State) (hm : Mem.wf s.mem = true) : SafeMem (execCkRead qp h num offset len s) := by
  unfold execCkRead; (try rw [memWf_next]); (first | apply State.issue_memWf | apply State.streamIssue_memWf | apply State.atOnce_memWf | apply State.queued_memWf | apply State.queuedDone_memWf | apply State.seqStep_memWf | apply State.onQp_memWf | apply State.onGroup_memWf | apply State.inRound_memWf) <;> (try assumption) <;> intros <;> (try dsimp only) <;> all_goals ((repeat' split) <;> (try simp only [Prod.ext_iff] at *) <;> (try casesm* _ ∧ _) <;> (try subst_vars) <;> ((repeat' split) <;> simp_all))

@[simp] theorem State.askRestore_mem (s : State) (p : PtnId) (r : Restore) (off : Nat) (n : Nat) : (State.askRestore s p r off n).1.mem = s.mem := by
  unfold State.askRestore; (try dsimp only); all_goals ((repeat' split) <;> simp_all)

@[simp] theorem State.setRestore_mem (s : State) (p : PtnId) (r : Option Restore) : (State.setRestore s p r).mem = s.mem := by
  unfold State.setRestore; (try dsimp only); all_goals ((repeat' split) <;> simp_all)

@[simp] theorem State.endRestore_mem (s : State) (p : PtnId) (r : Restore) (failed : Option Status) : (State.endRestore s p r failed).mem = s.mem := by
  unfold State.endRestore; (try dsimp only); all_goals ((repeat' split) <;> simp_all)

@[simp] theorem State.restoreBegin_mem (s : State) (p : PtnId) (b : List Byte) : (State.restoreBegin s p b).mem = s.mem := by
  unfold State.restoreBegin; (try dsimp only); all_goals ((repeat' split) <;> simp_all)

@[simp] theorem State.restoreGroup_mem (s : State) (p : PtnId) (g : GroupBlock × W64 × List Nat) : (s.restoreGroup p g).mem = s.mem := by
  unfold State.restoreGroup; extract_lets x old ep y s1
  rw [foldl_mem]
  · rfl
  · intro s e; rw [foldl_mem]; intro s n; rfl

@[simp] theorem State.restoreEnd_memWf (s : State) (p : PtnId) (r : Restore) (b : List Byte) (hm : Mem.wf s.mem = true) : Mem.wf (s.restoreEnd p r b).mem = true := by
  have h1 : ∀ (l : List (GroupBlock × W64 × List Nat)) (s : State), Mem.wf s.mem = true → Mem.wf (l.foldl (fun s g => s.joinNow p g.1.group) s).mem = true :=
    fun l s hs => foldl_memWf _ (fun s _ h => by simp [h]) l s hs
  have h2 : ∀ (l : List (GroupBlock × W64 × List Nat)) (s : State), Mem.wf s.mem = true → Mem.wf (l.foldl (fun s g => s.restoreGroup p g) s).mem = true :=
    fun l s hs => foldl_memWf _ (fun s _ h => by simp [h]) l s hs
  have h3 : ∀ {α : Type} (l : List α) (f : State → α → Ptn → Ptn) (s : State), Mem.wf s.mem = true → Mem.wf (l.foldl (fun s g => s.updPtn p (f s g)) s).mem = true :=
    fun l f s hs => by
      rw [foldl_mem (fun s g => s.updPtn p (f s g)) (fun _ _ => rfl)]; exact hs
  unfold State.restoreEnd; dsimp only; split
  · simp [hm]
  · split <;> with_reducible apply h1
    all_goals simp [hm, h3]

@[simp] theorem State.restoreStep_memWf (s : State) (p : PtnId) (r : Restore) (hm : Mem.wf s.mem = true) : Mem.wf (State.restoreStep s p r).mem = true := by
  unfold State.restoreStep; (try dsimp only); all_goals ((repeat' split) <;> simp_all)

theorem execCkptRestore_mem (h : Hdr) (source : Endpoint) (num : W32) (s : State) : KeepsMem (execCkptRestore h source num s) s := by
  unfold execCkptRestore; rw [keepsMem_next]; split
  · rfl
  · refine (State.queued_mem _ _ _ _ _ _ _ fun s => ?_).trans (by simp)
    dsimp only; split <;> simp

theorem execCkRdata_memWf (qp : QpId) (h : QHdr) (bytes : List Byte) (s : State) (hm : Mem.wf s.mem = true) : SafeMem (execCkRdata qp h bytes s) := by
  unfold execCkRdata; (try rw [memWf_next]); (first | apply State.issue_memWf | apply State.streamIssue_memWf | apply State.atOnce_memWf | apply State.queued_memWf | apply State.queuedDone_memWf | apply State.seqStep_memWf | apply State.onQp_memWf | apply State.onGroup_memWf | apply State.inRound_memWf) <;> (try assumption) <;> intros <;> (try dsimp only) <;> all_goals ((repeat' split) <;> simp_all)

theorem execRestoreSourceTimeout_mem (p : PtnId) (s : State) : KeepsMem (execRestoreSourceTimeout p s) s := by
  unfold execRestoreSourceTimeout; (try dsimp only); all_goals ((repeat' split) <;> simp_all)

@[simp] theorem State.ship_mem (s : State) (h : Hdr) (w : WSet) (dest : Endpoint) (b : List Byte) : (s.ship h w dest b).mem = s.mem := by
  unfold State.ship; dsimp only
  split
  · rw [State.closeItem_mem]
  · rw [State.setResult_mem, State.updFix_mem, State.fixSend_mem, State.fixSend_mem]

theorem execNegativeShip_memWf (h : Hdr) (model : W16) (set : W16) (dest : Endpoint) (s : State) (hm : Mem.wf s.mem = true) : SafeMem (execNegativeShip h model set dest s) := by
  unfold execNegativeShip; extract_lets x busy
  rw [memWf_next]
  refine ite_memWf hm (State.queued_memWf _ _ _ _ _ _ _ (fun s hm => ?_) hm)
  dsimp only
  split
  · split
    · rename_i h1; rw [State.closeItem_mem]; exact fst_memWf h1 (State.pRead_memWf _ _ _ _ _ hm)
    · rename_i h1; rw [State.ship_mem]; exact fst_memWf h1 (State.pRead_memWf _ _ _ _ _ hm)
  · exact hm

theorem execNegAck_mem (qp : QpId) (h : QHdr) (status : W16) (s : State) : KeepsMem (execNegAck qp h status s) s := by
  unfold execNegAck; (try rw [keepsMem_next]); (first | apply State.issue_mem | apply State.streamIssue_mem | apply State.atOnce_mem | apply State.queued_mem | apply State.queuedDone_mem | apply State.seqStep_mem | apply State.onQp_mem | apply State.onGroup_mem | apply State.inRound_mem) <;> (try assumption) <;> intros <;> (try dsimp only) <;> all_goals ((repeat' split) <;> simp_all)

@[simp] theorem State.plat_mem (s : State) (severity : Byte) (cause : W16) (unit : Nat) (stamp : W64) : (State.plat s severity cause unit stamp).mem = s.mem := by
  unfold State.plat; (try dsimp only); all_goals ((repeat' split) <;> simp_all)

theorem execInputLow_mem (stamp : W64) (s : State) : KeepsMem (execInputLow stamp s) s := by
  unfold execInputLow; (try dsimp only); all_goals ((repeat' split) <;> simp_all)

theorem execRefLost_memWf (stamp : W64) (s : State) (hm : Mem.wf s.mem = true) : SafeMem (execRefLost stamp s) := by
  unfold execRefLost; (try dsimp only); all_goals ((repeat' split) <;> simp_all)

theorem execPllUnlock_memWf (stamp : W64) (s : State) (hm : Mem.wf s.mem = true) : SafeMem (execPllUnlock stamp s) := by
  unfold execPllUnlock; (try dsimp only); all_goals ((repeat' split) <;> simp_all)

theorem execRefRestored_mem (s : State) : KeepsMem (execRefRestored s) s := by
  unfold execRefRestored; (try dsimp only); all_goals ((repeat' split) <;> simp_all)

theorem execRailFault_memWf (rail : Fin 24) (stamp : W64) (s : State) (hm : Mem.wf s.mem = true) : SafeMem (execRailFault rail stamp s) := by
  unfold execRailFault; (try dsimp only); all_goals ((repeat' split) <;> simp_all)

theorem execStewardLockstepMismatch_memWf (stamp : W64) (within1s : Bool) (s : State) (hm : Mem.wf s.mem = true) : SafeMem (execStewardLockstepMismatch stamp within1s s) := by
  unfold execStewardLockstepMismatch; (try dsimp only); all_goals ((repeat' split) <;> simp_all)

theorem execDutyControl_mem (r : Readings) (stamp : W64) (s : State) : KeepsMem (execDutyControl r stamp s) s := by
  unfold execDutyControl; (try dsimp only); all_goals ((repeat' split) <;> simp_all)

@[simp] theorem State.tempFaults_mem (s : State) (stamp : W64) (d : Nat) (ts : List (BitVec 16)) : (s.tempFaults stamp d ts).mem = s.mem := by
  induction ts generalizing s d with
  | nil => rfl
  | cons t ts ih => unfold State.tempFaults; dsimp only; rw [ih]; (repeat' split) <;> simp

theorem execTempSample_memWf (r : Readings) (stamp : W64) (s : State) (hm : Mem.wf s.mem = true) : SafeMem (execTempSample r stamp s) := by
  unfold execTempSample; (try dsimp only); all_goals ((repeat' split) <;> simp_all)

theorem execTelemetryRead_mem (h : Hdr) (s : State) : KeepsMem (execTelemetryRead h s) s := by
  first
  | (unfold execTelemetryRead; (try dsimp only); all_goals ((repeat' split) <;> simp_all); done)
  | (unfold execTelemetryRead; (try dsimp only); all_goals ((repeat' split) <;> (try simp only [Prod.ext_iff] at *) <;> (try casesm* _ ∧ _) <;> (try subst_vars) <;> ((repeat' split) <;> simp_all)); done)
  | (unfold execTelemetryRead; (try rw [keepsMem_next]); (first | apply State.issue_mem | apply State.streamIssue_mem | apply State.atOnce_mem | apply State.queued_mem | apply State.queuedDone_mem | apply State.seqStep_mem | apply State.onQp_mem | apply State.onGroup_mem | apply State.inRound_mem) <;> (try assumption) <;> intros <;> (try dsimp only) <;> all_goals ((repeat' split) <;> simp_all); done)
  | (unfold execTelemetryRead; (try rw [keepsMem_next]); (first | apply State.issue_mem | apply State.streamIssue_mem | apply State.atOnce_mem | apply State.queued_mem | apply State.queuedDone_mem | apply State.seqStep_mem | apply State.onQp_mem | apply State.onGroup_mem | apply State.inRound_mem) <;> (try assumption) <;> intros <;> (try dsimp only) <;> all_goals ((repeat' split) <;> (try simp only [Prod.ext_iff] at *) <;> (try casesm* _ ∧ _) <;> (try subst_vars) <;> ((repeat' split) <;> simp_all)); done)
  | (unfold execTelemetryRead; (try rw [keepsMem_next]); (try dsimp only); ((repeat' split) <;> (try simp only [Prod.ext_iff] at *) <;> (try casesm* _ ∧ _) <;> (try subst_vars) <;> (try simp_all) <;> (repeat' (first | rw [foldl_mem] | rw [foldl_fst_mem])) <;> (try intros) <;> (try dsimp only) <;> ((repeat' split) <;> simp_all)); done)
  | (unfold execTelemetryRead; (try rw [keepsMem_next]); (try dsimp only); (repeat' split) <;> (try rw [keepsMem_next]) <;> (first | (first | apply State.issue_mem | apply State.streamIssue_mem | apply State.atOnce_mem | apply State.queued_mem | apply State.queuedDone_mem | apply State.seqStep_mem | apply State.onQp_mem | apply State.onGroup_mem | apply State.inRound_mem) | skip) <;> (try assumption) <;> (try intros) <;> (try dsimp only) <;> ((repeat' split) <;> (try simp only [Prod.ext_iff] at *) <;> (try casesm* _ ∧ _) <;> (try subst_vars) <;> (try simp_all) <;> (repeat' (first | rw [foldl_mem] | rw [foldl_fst_mem])) <;> (try intros) <;> (try dsimp only) <;> ((repeat' split) <;> simp_all)))

theorem execPwrLimit_mem (h : Hdr) (limitW : W16) (s : State) : KeepsMem (execPwrLimit h limitW s) s := by
  unfold execPwrLimit; (try rw [keepsMem_next]); (first | apply State.issue_mem | apply State.streamIssue_mem | apply State.atOnce_mem | apply State.queued_mem | apply State.queuedDone_mem | apply State.seqStep_mem | apply State.onQp_mem | apply State.onGroup_mem | apply State.inRound_mem) <;> (try assumption) <;> intros <;> (try dsimp only) <;> all_goals ((repeat' split) <;> simp_all)

theorem execCgL1Entry_mem (cg : CgId) (s : State) : KeepsMem (execCgL1Entry cg s) s := by
  unfold execCgL1Entry; (try dsimp only); all_goals ((repeat' split) <;> simp_all)

theorem execModuleL1Entry_mem (s : State) : KeepsMem (execModuleL1Entry s) s := by
  unfold execModuleL1Entry; (try dsimp only); all_goals ((repeat' split) <;> simp_all)

@[simp] theorem State.cgLose_memWf (s : State) (mask : W32) (hm : Mem.wf s.mem = true) : Mem.wf (State.cgLose s mask).mem = true := by
  unfold State.cgLose; (try rw [memWf_next]); (try dsimp only); (repeat' split) <;> (try rw [memWf_next]) <;> (try simp only [Prod.ext_iff] at *) <;> (try casesm* _ ∧ _) <;> (try subst_vars) <;> (try simp (maxDischargeDepth := 12) [hm]) <;> (with_reducible repeat' (first | assumption | apply foldl_memWf | apply foldl_fst_memWf)) <;> (try intros) <;> (try dsimp only) <;> (repeat' split) <;> (try simp only [Prod.ext_iff] at *) <;> (try casesm* _ ∧ _) <;> (try subst_vars) <;> simp (maxDischargeDepth := 12) [*]

theorem execPwrState_mem (h : Hdr) (target : Byte) (scope : Byte) (cgMask : W32) (s : State) : KeepsMem (execPwrState h target scope cgMask s) s := by
  unfold execPwrState; (try dsimp only); all_goals ((repeat' split) <;> simp_all)

@[simp] theorem State.dropDue_mem (s : State) (target : Nat) : (State.dropDue s target).mem = s.mem := by
  unfold State.dropDue; (try dsimp only); all_goals ((repeat' split) <;> simp_all)

theorem execModuleL2Entry_mem (s : State) : KeepsMem (execModuleL2Entry s) s := by
  unfold execModuleL2Entry; (try dsimp only); all_goals ((repeat' split) <;> simp_all)

theorem execModuleL3Entry_mem (s : State) : KeepsMem (execModuleL3Entry s) s := by
  unfold execModuleL3Entry; (try dsimp only); all_goals ((repeat' split) <;> simp_all)

@[simp] theorem State.leaveL3_mem (s : State) (src : BitVec 4) (port : BitVec 6) : (State.leaveL3 s src port).mem = s.mem := by
  first
  | (unfold State.leaveL3; (try dsimp only); all_goals ((repeat' split) <;> simp_all); done)
  | (unfold State.leaveL3; (try dsimp only); all_goals ((repeat' split) <;> (try simp only [Prod.ext_iff] at *) <;> (try casesm* _ ∧ _) <;> (try subst_vars) <;> ((repeat' split) <;> simp_all)); done)
  | (unfold State.leaveL3; (try rw [keepsMem_next]); (first | apply State.issue_mem | apply State.streamIssue_mem | apply State.atOnce_mem | apply State.queued_mem | apply State.queuedDone_mem | apply State.seqStep_mem | apply State.onQp_mem | apply State.onGroup_mem | apply State.inRound_mem) <;> (try assumption) <;> intros <;> (try dsimp only) <;> all_goals ((repeat' split) <;> simp_all); done)
  | (unfold State.leaveL3; (try rw [keepsMem_next]); (first | apply State.issue_mem | apply State.streamIssue_mem | apply State.atOnce_mem | apply State.queued_mem | apply State.queuedDone_mem | apply State.seqStep_mem | apply State.onQp_mem | apply State.onGroup_mem | apply State.inRound_mem) <;> (try assumption) <;> intros <;> (try dsimp only) <;> all_goals ((repeat' split) <;> (try simp only [Prod.ext_iff] at *) <;> (try casesm* _ ∧ _) <;> (try subst_vars) <;> ((repeat' split) <;> simp_all)); done)
  | (unfold State.leaveL3; (try rw [keepsMem_next]); (try dsimp only); ((repeat' split) <;> (try simp only [Prod.ext_iff] at *) <;> (try casesm* _ ∧ _) <;> (try subst_vars) <;> (try simp_all) <;> (repeat' (first | rw [foldl_mem] | rw [foldl_fst_mem])) <;> (try intros) <;> (try dsimp only) <;> ((repeat' split) <;> simp_all)); done)
  | (unfold State.leaveL3; (try rw [keepsMem_next]); (try dsimp only); (repeat' split) <;> (try rw [keepsMem_next]) <;> (first | (first | apply State.issue_mem | apply State.streamIssue_mem | apply State.atOnce_mem | apply State.queued_mem | apply State.queuedDone_mem | apply State.seqStep_mem | apply State.onQp_mem | apply State.onGroup_mem | apply State.inRound_mem) | skip) <;> (try assumption) <;> (try intros) <;> (try dsimp only) <;> ((repeat' split) <;> (try simp only [Prod.ext_iff] at *) <;> (try casesm* _ ∧ _) <;> (try subst_vars) <;> (try simp_all) <;> (repeat' (first | rw [foldl_mem] | rw [foldl_fst_mem])) <;> (try intros) <;> (try dsimp only) <;> ((repeat' split) <;> simp_all)))

@[simp] theorem State.wake_mem (s : State) (src : BitVec 4) (port : BitVec 6) : (State.wake s src port).mem = s.mem := by
  unfold State.wake; (try dsimp only); all_goals ((repeat' split) <;> simp_all)

theorem execWakeBurst_mem (port : Fin 50) (s : State) : KeepsMem (execWakeBurst port s) s := by
  unfold execWakeBurst; (try dsimp only); all_goals ((repeat' split) <;> simp_all)

theorem execWakeNInput_mem (s : State) : KeepsMem (execWakeNInput s) s := by
  unfold execWakeNInput; (try dsimp only); all_goals ((repeat' split) <;> simp_all)

@[simp] theorem State.transDone_memWf (s : State) (t : PTrans) (hm : Mem.wf s.mem = true) : Mem.wf (State.transDone s t).mem = true := by
  unfold State.transDone; extract_lets s1 pw s2 s3 s4 s5 s6 s7 s8 s9
  have e2 : Mem.wf s2.mem = true := (State.transSupplied_mem s t).symm ▸ hm
  clear_value s2
  have e3 : Mem.wf s3.mem = true := ite_memWf (State.cgLose_memWf _ _ e2) e2
  clear_value s3
  have e4 : Mem.wf s4.mem = true := by simp only [s4]; rw [State.powerEvent_mem]; exact e3
  clear_value s4
  have e5 : Mem.wf s5.mem = true := by simp only [s5]; rw [foldl_mem _ (fun s p => by split <;> simp)]; exact e2
  clear_value s5
  have e7 : Mem.wf s7.mem = true := State.survive_memWf _ _ e2
  clear_value s7
  have e9 : Mem.wf s9.mem = true := e7
  clear_value s9
  refine ite_memWf ?_ (ite_memWf ?_ (ite_memWf ?_ ?_))
  · split
    · rw [State.settle_mem, State.closeItem_mem]; exact e4
    · exact e4
  · rw [State.powerEvent_mem]; exact e5
  · split
    · refine ite_memWf ?_ e9
      rw [State.leaveL3_mem]; exact e9
    · exact e9
  · rw [State.powerEvent_mem]; exact e2

@[simp] theorem State.avsMiss_mem (s : State) (bus : Fin 5) (when' : Option W64) : (State.avsMiss s bus when').mem = s.mem := by
  unfold State.avsMiss; (try dsimp only); all_goals ((repeat' split) <;> simp_all)

theorem execAvsRetry_mem (bus : Fin 5) (stamp : W64) (s : State) : KeepsMem (execAvsRetry bus stamp s) s := by
  unfold execAvsRetry; (try dsimp only); all_goals ((repeat' split) <;> simp_all)

theorem execRegulatorTransitionComplete_memWf (bus : Fin 5) (readbackOk : Bool) (last : Bool) (s : State) (hm : Mem.wf s.mem = true) : SafeMem (execRegulatorTransitionComplete bus readbackOk last s) := by
  unfold execRegulatorTransitionComplete; (try dsimp only); all_goals ((repeat' split) <;> simp_all)

@[simp] theorem State.railsOff_memWf (s : State) (hm : Mem.wf s.mem = true) : Mem.wf s.railsOff.mem = true := by
  unfold State.railsOff; split
  · exact hm
  · exact (by decide : Mem.wf {} = true)

@[simp] theorem State.coldBegin_mem (s : State) : (State.coldBegin s).mem = s.mem := by
  first
  | (unfold State.coldBegin; (try dsimp only); all_goals ((repeat' split) <;> simp_all); done)
  | (unfold State.coldBegin; (try dsimp only); all_goals ((repeat' split) <;> (try simp only [Prod.ext_iff] at *) <;> (try casesm* _ ∧ _) <;> (try subst_vars) <;> ((repeat' split) <;> simp_all)); done)
  | (unfold State.coldBegin; (try rw [keepsMem_next]); (first | apply State.issue_mem | apply State.streamIssue_mem | apply State.atOnce_mem | apply State.queued_mem | apply State.queuedDone_mem | apply State.seqStep_mem | apply State.onQp_mem | apply State.onGroup_mem | apply State.inRound_mem) <;> (try assumption) <;> intros <;> (try dsimp only) <;> all_goals ((repeat' split) <;> simp_all); done)
  | (unfold State.coldBegin; (try rw [keepsMem_next]); (first | apply State.issue_mem | apply State.streamIssue_mem | apply State.atOnce_mem | apply State.queued_mem | apply State.queuedDone_mem | apply State.seqStep_mem | apply State.onQp_mem | apply State.onGroup_mem | apply State.inRound_mem) <;> (try assumption) <;> intros <;> (try dsimp only) <;> all_goals ((repeat' split) <;> (try simp only [Prod.ext_iff] at *) <;> (try casesm* _ ∧ _) <;> (try subst_vars) <;> ((repeat' split) <;> simp_all)); done)
  | (unfold State.coldBegin; (try rw [keepsMem_next]); (try dsimp only); ((repeat' split) <;> (try simp only [Prod.ext_iff] at *) <;> (try casesm* _ ∧ _) <;> (try subst_vars) <;> (try simp_all) <;> (repeat' (first | rw [foldl_mem] | rw [foldl_fst_mem])) <;> (try intros) <;> (try dsimp only) <;> ((repeat' split) <;> simp_all)); done)
  | (unfold State.coldBegin; (try rw [keepsMem_next]); (try dsimp only); (repeat' split) <;> (try rw [keepsMem_next]) <;> (first | (first | apply State.issue_mem | apply State.streamIssue_mem | apply State.atOnce_mem | apply State.queued_mem | apply State.queuedDone_mem | apply State.seqStep_mem | apply State.onQp_mem | apply State.onGroup_mem | apply State.inRound_mem) | skip) <;> (try assumption) <;> (try intros) <;> (try dsimp only) <;> ((repeat' split) <;> (try simp only [Prod.ext_iff] at *) <;> (try casesm* _ ∧ _) <;> (try subst_vars) <;> (try simp_all) <;> (repeat' (first | rw [foldl_mem] | rw [foldl_fst_mem])) <;> (try intros) <;> (try dsimp only) <;> ((repeat' split) <;> simp_all)))

theorem execPwrgdInFall_memWf (s : State) (hm : Mem.wf s.mem = true) : SafeMem (execPwrgdInFall s) := by
  unfold execPwrgdInFall; (try dsimp only); all_goals ((repeat' split) <;> simp_all)

theorem execPwrgdInRise_mem (s : State) : KeepsMem (execPwrgdInRise s) s := by
  unfold execPwrgdInRise; (try dsimp only); all_goals ((repeat' split) <;> simp_all)

theorem execUndervoltageLockout_memWf (s : State) (hm : Mem.wf s.mem = true) : SafeMem (execUndervoltageLockout s) := by
  unfold execUndervoltageLockout; (try dsimp only); all_goals ((repeat' split) <;> simp_all)

theorem execInputRestored_mem (s : State) : KeepsMem (execInputRestored s) s := by
  unfold execInputRestored; (try dsimp only); all_goals ((repeat' split) <;> simp_all)

theorem execStandbyInputLoss_memWf (s : State) (hm : Mem.wf s.mem = true) : SafeMem (execStandbyInputLoss s) := by
  unfold execStandbyInputLoss; (try dsimp only); all_goals ((repeat' split) <;> simp_all)

theorem execStandbyInputReturn_mem (s : State) : KeepsMem (execStandbyInputReturn s) s := by
  unfold execStandbyInputReturn; (try dsimp only); all_goals ((repeat' split) <;> simp_all)

theorem execModRstNFall_memWf (s : State) (hm : Mem.wf s.mem = true) : SafeMem (execModRstNFall s) := by
  unfold execModRstNFall; (try dsimp only); all_goals ((repeat' split) <;> simp_all)

theorem execModRstNRise_mem (s : State) : KeepsMem (execModRstNRise s) s := by
  unfold execModRstNRise; (try dsimp only); all_goals ((repeat' split) <;> simp_all)

@[simp] theorem State.signNonce_mem (s : State) : (State.signNonce s).1.mem = s.mem := rfl

@[simp] theorem State.attestSign_mem (s : State) (p : PtnId) (bs : List Byte) : (State.attestSign s p bs).1.mem = s.mem := by
  unfold State.attestSign; (try dsimp only); all_goals ((repeat' split) <;> simp_all)

@[simp] theorem State.quote_mem (s : State) (h : Hdr) (nonce : List Byte) (chain : Bool) : (State.quote s h nonce chain).1.mem = s.mem := by
  unfold State.quote; (try dsimp only); all_goals ((repeat' split) <;> simp_all)

@[simp] theorem State.answer_mem (s : State) (h : Hdr) (r : List Byte) : (State.answer s h r).mem = s.mem := by
  unfold State.answer; (try dsimp only); all_goals ((repeat' split) <;> simp_all)

theorem execAttestQuote_mem (h : Hdr) (nonce : List Byte) (chain : Bool) (s : State) : KeepsMem (execAttestQuote h nonce chain s) s := by
  unfold execAttestQuote; (try rw [keepsMem_next]); (first | apply State.issue_mem | apply State.streamIssue_mem | apply State.atOnce_mem | apply State.queued_mem | apply State.queuedDone_mem | apply State.seqStep_mem | apply State.onQp_mem | apply State.onGroup_mem | apply State.inRound_mem) <;> (try assumption) <;> intros <;> (try dsimp only) <;> all_goals ((repeat' split) <;> simp_all)

@[simp] theorem State.setTkey_mem (s : State) (p : PtnId) (slot : Nat) (t : TKey) : (State.setTkey s p slot t).mem = s.mem := by
  unfold State.setTkey; (try dsimp only); all_goals ((repeat' split) <;> simp_all)

@[simp] theorem State.kxGenerate_mem (s : State) (h : Hdr) (slot : Nat) (nonce : List Byte) : (State.kxGenerate s h slot nonce).mem = s.mem := by
  unfold State.kxGenerate; (try dsimp only); all_goals ((repeat' split) <;> simp_all)

@[simp] theorem State.kxComplete_mem (s : State) (h : Hdr) (slot : Nat) (d : Nat) (peer : List Byte) (q : Nat × Nat) : (State.kxComplete s h slot d peer q).mem = s.mem := by
  unfold State.kxComplete; (try dsimp only); all_goals ((repeat' split) <;> simp_all)

@[simp] theorem State.kxRandom_mem (s : State) (h : Hdr) (slot : Nat) : (State.kxRandom s h slot).mem = s.mem := by
  unfold State.kxRandom; (try dsimp only); all_goals ((repeat' split) <;> simp_all)

@[simp] theorem State.kxExport_mem (s : State) (h : Hdr) (slot : Nat) (kek : List Byte) : (State.kxExport s h slot kek).mem = s.mem := by
  unfold State.kxExport; (try dsimp only); all_goals ((repeat' split) <;> simp_all)

@[simp] theorem State.kxImport_mem (s : State) (h : Hdr) (slot : Nat) (src : Nat) (key : List Byte) : (State.kxImport s h slot src key).mem = s.mem := by
  unfold State.kxImport; (try dsimp only); all_goals ((repeat' split) <;> simp_all)

@[simp] theorem State.kxRun_mem (s : State) (h : Hdr) (mode : Nat) (slot : Nat) (src : Nat) (data : List Byte) : (State.kxRun s h mode slot src data).mem = s.mem := by
  unfold State.kxRun; (try dsimp only); all_goals ((repeat' split) <;> simp_all)

theorem execKeyExchange_mem (h : Hdr) (mode : Byte) (slot : Byte) (srcSlot : Byte) (data : List Byte) (s : State) : KeepsMem (execKeyExchange h mode slot srcSlot data s) s := by
  unfold execKeyExchange; (try rw [keepsMem_next]); (first | apply State.issue_mem | apply State.streamIssue_mem | apply State.atOnce_mem | apply State.queued_mem | apply State.queuedDone_mem | apply State.seqStep_mem | apply State.onQp_mem | apply State.onGroup_mem | apply State.inRound_mem) <;> (try assumption) <;> intros <;> (try dsimp only) <;> all_goals ((repeat' split) <;> simp_all)

@[simp] theorem State.openSafelight_mem (s : State) (t : Token) : (State.openSafelight s t).mem = s.mem := by
  unfold State.openSafelight; (try dsimp only); all_goals ((repeat' split) <;> simp_all)

theorem execSafelightUnlock_mem (h : Hdr) (mode : Byte) (t : Token) (s : State) : KeepsMem (execSafelightUnlock h mode t s) s := by
  unfold execSafelightUnlock; (try rw [keepsMem_next]); (first | apply State.issue_mem | apply State.streamIssue_mem | apply State.atOnce_mem | apply State.queued_mem | apply State.queuedDone_mem | apply State.seqStep_mem | apply State.onQp_mem | apply State.onGroup_mem | apply State.inRound_mem) <;> (try assumption) <;> intros <;> (try dsimp only) <;> all_goals ((repeat' split) <;> simp_all)

theorem execSafelightChallengeExpiry_mem (s : State) : KeepsMem (execSafelightChallengeExpiry s) s := by
  unfold execSafelightChallengeExpiry; (try dsimp only); all_goals ((repeat' split) <;> simp_all)

theorem execSafelightExpiry_mem (s : State) : KeepsMem (execSafelightExpiry s) s := by
  unfold execSafelightExpiry; (try dsimp only); all_goals ((repeat' split) <;> simp_all)

theorem execDrbgReseed_mem (s : State) : KeepsMem (execDrbgReseed s) s := by
  unfold execDrbgReseed; (try dsimp only); all_goals ((repeat' split) <;> simp_all)

@[simp] theorem State.debugDone_mem (s : State) (v : W64) : (State.debugDone s v).mem = s.mem := by
  first
  | (unfold State.debugDone; (try dsimp only); all_goals ((repeat' split) <;> simp_all); done)
  | (unfold State.debugDone; (try dsimp only); all_goals ((repeat' split) <;> (try simp only [Prod.ext_iff] at *) <;> (try casesm* _ ∧ _) <;> (try subst_vars) <;> ((repeat' split) <;> simp_all)); done)
  | (unfold State.debugDone; (try rw [keepsMem_next]); (first | apply State.issue_mem | apply State.streamIssue_mem | apply State.atOnce_mem | apply State.queued_mem | apply State.queuedDone_mem | apply State.seqStep_mem | apply State.onQp_mem | apply State.onGroup_mem | apply State.inRound_mem) <;> (try assumption) <;> intros <;> (try dsimp only) <;> all_goals ((repeat' split) <;> simp_all); done)
  | (unfold State.debugDone; (try rw [keepsMem_next]); (first | apply State.issue_mem | apply State.streamIssue_mem | apply State.atOnce_mem | apply State.queued_mem | apply State.queuedDone_mem | apply State.seqStep_mem | apply State.onQp_mem | apply State.onGroup_mem | apply State.inRound_mem) <;> (try assumption) <;> intros <;> (try dsimp only) <;> all_goals ((repeat' split) <;> (try simp only [Prod.ext_iff] at *) <;> (try casesm* _ ∧ _) <;> (try subst_vars) <;> ((repeat' split) <;> simp_all)); done)
  | (unfold State.debugDone; (try rw [keepsMem_next]); (try dsimp only); ((repeat' split) <;> (try simp only [Prod.ext_iff] at *) <;> (try casesm* _ ∧ _) <;> (try subst_vars) <;> (try simp_all) <;> (repeat' (first | rw [foldl_mem] | rw [foldl_fst_mem])) <;> (try intros) <;> (try dsimp only) <;> ((repeat' split) <;> simp_all)); done)
  | (unfold State.debugDone; (try rw [keepsMem_next]); (try dsimp only); (repeat' split) <;> (try rw [keepsMem_next]) <;> (first | (first | apply State.issue_mem | apply State.streamIssue_mem | apply State.atOnce_mem | apply State.queued_mem | apply State.queuedDone_mem | apply State.seqStep_mem | apply State.onQp_mem | apply State.onGroup_mem | apply State.inRound_mem) | skip) <;> (try assumption) <;> (try intros) <;> (try dsimp only) <;> ((repeat' split) <;> (try simp only [Prod.ext_iff] at *) <;> (try casesm* _ ∧ _) <;> (try subst_vars) <;> (try simp_all) <;> (repeat' (first | rw [foldl_mem] | rw [foldl_fst_mem])) <;> (try intros) <;> (try dsimp only) <;> ((repeat' split) <;> simp_all)))

@[simp] theorem State.debugRead_memWf (s : State) (p : PtnId) (a : Nat) (hm : Mem.wf s.mem = true) : Mem.wf (State.debugRead s p a).mem = true := by
  unfold State.debugRead; (try dsimp only); all_goals ((repeat' split) <;> (try simp only [Prod.ext_iff] at *) <;> (try casesm* _ ∧ _) <;> (try subst_vars) <;> ((repeat' split) <;> simp_all))

@[simp] theorem State.debugWrite_memWf (s : State) (p : PtnId) (a : Nat) (v : W64) (hm : Mem.wf s.mem = true) : Mem.wf (State.debugWrite s p a v).mem = true := by
  unfold State.debugWrite; (try dsimp only); all_goals ((repeat' split) <;> simp_all)

@[simp] theorem State.debugReg_memWf (s : State) (p : PtnId) (a : Nat) (write : Option W64) (hm : Mem.wf s.mem = true) : Mem.wf (State.debugReg s p a write).mem = true := by
  unfold State.debugReg; (try dsimp only); all_goals ((repeat' split) <;> simp_all)

@[simp] theorem State.debugAccess_memWf (s : State) (p : PtnId) (mc : Nat) (a : Nat) (write : Option W64) (z0 : Nat) (hm : Mem.wf s.mem = true) : Mem.wf (State.debugAccess s p mc a write z0).mem = true := by
  unfold State.debugAccess; (try dsimp only); all_goals ((repeat' split) <;> simp_all)

theorem execSafelightDebugAccess_memWf (scopeBit : Fin 5) (p : PtnId) (mc : McId) (addr : W64) (write : Option W64) (s : State) (hm : Mem.wf s.mem = true) : SafeMem (execSafelightDebugAccess scopeBit p mc addr write s) := by
  unfold execSafelightDebugAccess; (try dsimp only); all_goals ((repeat' split) <;> simp_all)

@[simp] theorem State.poolRead_memWf (s : State) (p : PtnId) (m : Model) (off : Nat) (n : Nat) (hm : Mem.wf s.mem = true) : Mem.wf (State.poolRead s p m off n).1.mem = true := by
  exact Acc.bind_memWf _ _ (fun s x h => h) (State.accAll_memWf _ (fun s x h => State.pRead_memWf _ _ _ _ _ h) _ _ hm)

@[simp] theorem State.poolWrite_memWf (s : State) (p : PtnId) (m : Model) (off : Nat) (bs : List Byte) (hm : Mem.wf s.mem = true) : Mem.wf (State.poolWrite s p m off bs).1.mem = true := by
  exact Acc.bind_memWf _ _ (fun s x h => h) (State.accAll_memWf _ (fun s x h => State.pWrite_memWf _ _ _ _ _ h) _ _ hm)

@[simp] theorem State.kvRead_memWf (s : State) (p : PtnId) (m : Model) (pages : List Nat) (w : Nat) (n : Nat) (hm : Mem.wf s.mem = true) : Mem.wf (State.kvRead s p m pages w n).1.mem = true := by
  exact Acc.bind_memWf _ _ (fun s x h => h) (State.accAll_memWf _ (fun s x h => State.poolRead_memWf _ _ _ _ _ h) _ _ hm)

@[simp] theorem State.kvLayer_memWf (s : State) (p : PtnId) (m : Model) (pages : List Nat) (w : Nat) (n : Nat) (hm : Mem.wf s.mem = true) : Mem.wf (State.kvLayer s p m pages w n).1.mem = true := by
  exact Acc.bind_memWf _ _ (fun s x h => h) (State.accAll_memWf _ (fun s x h => State.kvRead_memWf _ _ _ _ _ _ h) _ _ hm)

@[simp] theorem State.kvAll_memWf (s : State) (p : PtnId) (m : Model) (pages : List (List Nat)) (n : Nat) (hm : Mem.wf s.mem = true) : Mem.wf (State.kvAll s p m pages n).1.mem = true := by
  exact State.accAll_memWf _ (fun s x h => Acc.bind_memWf _ _ (fun s x h => h) (State.kvLayer_memWf _ _ _ _ _ _ h)) _ _ hm

@[simp] theorem State.kvWrite_memWf (s : State) (p : PtnId) (m : Model) (pages : List Nat) (w : Nat) (n : Nat) (r : Nat) (k : Short) (v : Short) (hm : Mem.wf s.mem = true) : Mem.wf (State.kvWrite s p m pages w n r k v).1.mem = true := by
  exact Acc.bind_memWf _ _ (fun s x h => h) (State.accAll_memWf _ (fun s x h => State.poolWrite_memWf _ _ _ _ _ h) _ _ hm)

@[simp] theorem State.kvPut_memWf (s : State) (p : PtnId) (m : Model) (pages : List (List Nat)) (p0 : Nat) (rows : Nat) (new : KvNew) (hm : Mem.wf s.mem = true) : Mem.wf (State.kvPut s p m pages p0 rows new).1.mem = true := by
  exact Acc.bind_memWf _ _ (fun s x h => h) (State.accAll_memWf _ (fun s x h => State.kvWrite_memWf _ _ _ _ _ _ _ _ _ h) _ _ hm)

@[simp] theorem State.netPass_memWf (s : State) (p : PtnId) (t : Stream) (m : Model) (c : CmdRec) (pages : List (List Nat)) (chunk : Bool) (seq : List W32) (n : Nat) (rows : List Nat) (hm : Mem.wf s.mem = true) : Mem.wf (State.netPass s p t m c pages chunk seq n rows).1.mem = true := by
  unfold State.netPass; dsimp only
  refine Acc.bind_memWf _ _ (fun s w h => ?_) (State.netOf_memWf _ _ _ _ _ _ _ hm)
  split
  · exact h
  · refine Acc.bind_memWf _ _ (fun s kv h => ?_) (State.kvAll_memWf _ _ _ _ _ h)
    exact Acc.bind_memWf _ _ (fun s kv h => h) (State.kvPut_memWf _ _ _ _ _ _ _ h)

@[simp] theorem State.pass_memWf (s : State) (p : PtnId) (t : Stream) (model : Nat) (pages : List (List Nat)) (chunk : Bool) (seq : List W32) (n : Nat) (rows : List Nat) (hm : Mem.wf s.mem = true) : Mem.wf (State.pass s p t model pages chunk seq n rows).1.mem = true := by
  unfold State.pass; dsimp only
  split
  · refine ite_acc_memWf hm (Acc.bind_memWf _ _ (fun s w h => by simpa using h) (ite_acc_memWf ?_ ?_))
    · exact Acc.bind_memWf _ _ (fun s w h => h) (State.kvPut_memWf _ _ _ _ _ _ _ hm)
    · exact State.netPass_memWf _ _ _ _ _ _ _ _ _ _ hm
  · exact hm

@[simp] theorem State.draft_memWf (p : PtnId) (t : Stream) (d n : Nat) (seq : List W32) (s : State) (hm : Mem.wf s.mem = true) : Mem.wf (State.draft p t d n seq s).1.mem = true := by
  induction d generalizing n seq s with
  | zero => exact hm
  | succ d ih =>
    unfold State.draft
    refine Acc.bind_memWf _ _ (fun s r h => ?_) (State.pass_memWf _ _ _ _ _ _ _ _ _ hm)
    exact Acc.bind_memWf _ _ (fun s r h => h) (ih _ _ _ h)

@[simp] theorem State.mirage_memWf (s : State) (p : PtnId) (t : Stream) (hm : Mem.wf s.mem = true) : Mem.wf (State.mirage s p t).1.mem = true := by
  unfold State.mirage; dsimp only
  refine Acc.bind_memWf _ _ (fun s r h => ?_) (State.draft_memWf _ _ _ _ _ _ hm)
  exact Acc.bind_memWf _ _ (fun s r h => h) (State.pass_memWf _ _ _ _ _ _ _ _ _ h)

@[simp] theorem State.readContact_memWf (s : State) (p : PtnId) (r : Train) (hm : Mem.wf s.mem = true) : Mem.wf (s.readContact p r).1.mem = true := by
  unfold State.readContact; extract_lets d n one
  have h1 : ∀ s a k, Mem.wf s.mem = true → Mem.wf (one s a k).1.mem = true := by intro s a k h; simp only [one]; split <;> simp [h]
  clear_value one
  split
  · exact fst_memWf ‹_› (h1 _ _ _ hm)
  · have e1 := fst_memWf ‹_› (h1 _ _ _ hm)
    split
    · exact fst_memWf ‹_› (h1 _ _ _ e1)
    · have e2 := fst_memWf ‹_› (h1 _ _ _ e1)
      split
      · exact fst_memWf ‹_› (h1 _ _ _ e2)
      · exact fst_memWf ‹_› (h1 _ _ _ e2)

@[simp] theorem State.addRun_mem (s : State) (p : PtnId) (r : Train) : (State.addRun s p r).mem = s.mem := by
  unfold State.addRun; (try dsimp only); all_goals ((repeat' split) <;> simp_all)

@[simp] theorem State.scaleEv_mem (s : State) (h : Hdr) (d : ContactDesc) : (s.scaleEv h d).mem = s.mem := by simp [State.scaleEv]

@[simp] theorem State.startBasic_memWf (s : State) (h : Hdr) (b : StepBlock) (eval : Bool) (hm : Mem.wf s.mem = true) : Mem.wf (s.startBasic h b eval).mem = true := by
  unfold State.startBasic; extract_lets p hd x sets r0
  split
  · have e := fst_memWf ‹_› (State.readContact_memWf _ _ _ hm); simp [e]
  · have e := fst_memWf ‹_› (State.readContact_memWf _ _ _ hm)
    extract_lets buf r1 s1
    have e1 : Mem.wf (s1).mem = true := by simp [s1, e]
    clear_value s1
    split <;> simp [e1]

@[simp] theorem State.startContact_memWf (s : State) (h : Hdr) (e : ProgBlock) (eval : Bool) (hm : Mem.wf s.mem = true) : Mem.wf (s.startContact h e eval).mem = true := by
  unfold State.startContact; extract_lets p hd im r0 f
  have hf : ∀ s' r c, (f s' r c).mem = s'.mem := by intro s' r c; simp [f]
  clear_value f
  split
  · have e := fst_memWf ‹_› (State.readContact_memWf _ _ _ hm); rw [hf]; exact e
  · have e := fst_memWf ‹_› (State.readContact_memWf _ _ _ hm)
    extract_lets x buf r1
    split
    · rw [hf]; exact e
    · simp [e]

theorem execDistillStep_memWf (h : Hdr) (b : StepBlock) (x : ProgBlock) (s : State) (hm : Mem.wf s.mem = true) : SafeMem (execDistillStep h b x s) := by
  unfold execDistillStep; extract_lets i
  refine safe_ite (by simpa using hm) ?_
  rw [memWf_next]
  refine State.queued_memWf _ _ _ _ _ _ _ (fun s hm => ?_) hm
  exact ite_memWf (State.startContact_memWf _ _ _ _ hm) (State.startBasic_memWf _ _ _ _ hm)

theorem execEval_memWf (h : Hdr) (b : StepBlock) (x : ProgBlock) (s : State) (hm : Mem.wf s.mem = true) : SafeMem (execEval h b x s) := by
  unfold execEval; extract_lets i
  refine safe_ite (by simpa using hm) ?_
  rw [memWf_next]
  refine State.queued_memWf _ _ _ _ _ _ _ (fun s hm => ?_) hm
  exact ite_memWf (State.startContact_memWf _ _ _ _ hm) (State.startBasic_memWf _ _ _ _ hm)

@[simp] theorem State.writeTokens_memWf (s : State) (p : PtnId) (r : Train) (os : List (Nat × TokenOut)) (hm : Mem.wf s.mem = true) : Mem.wf (State.writeTokens s p r os).1.mem = true := by
  induction os generalizing s with
  | nil => exact hm
  | cons n ns ih =>
    unfold State.writeTokens; dsimp only
    split
    · rename_i h1; exact fst_memWf h1 (ite_acc_memWf (State.pWrite_memWf _ _ _ _ _ hm) hm)
    · rename_i s1 _ h1
      have e1 : Mem.wf s1.mem = true := fst_memWf h1 (ite_acc_memWf (State.pWrite_memWf _ _ _ _ _ hm) hm)
      split
      · rename_i h2; exact fst_memWf h2 (ite_acc_memWf (State.pWrite_memWf _ _ _ _ _ e1) e1)
      · rename_i h2; exact ih _ (fst_memWf h2 (ite_acc_memWf (State.pWrite_memWf _ _ _ _ _ e1) e1))

@[simp] theorem State.failBlock_mem (s : State) (p : PtnId) (h : Hdr) (r : Train) (c : Status) : (State.failBlock s p h r c).mem = s.mem := by
  unfold State.failBlock; (try dsimp only); all_goals ((repeat' split) <;> simp_all)

@[simp] theorem State.foldLate_memWf (s : State) (p : PtnId) (r : Train) (hm : Mem.wf s.mem = true) : Mem.wf (s.foldLate p r).1.mem = true := by
  unfold State.foldLate; dsimp only
  split
  · exact hm
  · split
    · exact fst_memWf ‹_› (State.nets_memWf _ _ _ _ hm)
    · have e := fst_memWf ‹_› (State.nets_memWf _ _ _ _ hm)
      simp [e]

@[simp] theorem State.blockDone_memWf (s : State) (p : PtnId) (h : Hdr) (block : Nat) (hm : Mem.wf s.mem = true) : Mem.wf (s.blockDone p h block).mem = true := by
  unfold State.blockDone; extract_lets s1
  have e1 : Mem.wf s1.mem = true := by simpa [s1] using hm
  clear_value s1
  split
  · exact e1
  · split
    · split <;> simp [e1]
    · split
      · split
        · have e := fst_memWf ‹_› (State.foldLate_memWf _ _ _ e1); simp [e]
        · have e := fst_memWf ‹_› (State.foldLate_memWf _ _ _ e1)
          split <;> simp [e]
      · exact e1

@[simp] theorem State.finaliseRank_memWf (s : State) (p : PtnId) (h : Hdr) (r : Train) (block : Nat) (hm : Mem.wf s.mem = true) : Mem.wf (State.finaliseRank s p h r block).mem = true := by
  unfold State.finaliseRank; dsimp only; split <;> simp [hm]

@[simp] theorem State.blockLogits_memWf (s : State) (p : PtnId) (r : Train) (block : Nat) (hm : Mem.wf s.mem = true) : Mem.wf (State.blockLogits s p r block).1.mem = true := by
  unfold State.blockLogits; (try dsimp only); all_goals ((repeat' split) <;> (try simp only [Prod.ext_iff] at *) <;> (try casesm* _ ∧ _) <;> (try subst_vars) <;> simp (maxDischargeDepth := 12) [*])

@[simp] theorem State.finalise_memWf (s : State) (p : PtnId) (h : Hdr) (r : Train) (block : Nat) (hm : Mem.wf s.mem = true) : Mem.wf (State.finalise s p h r block).mem = true := by
  unfold State.finalise
  split
  · exact State.finaliseRank_memWf _ _ _ _ _ hm
  · split
    · simp [hm]
    · split
      · have e := fst_memWf ‹_› (State.blockLogits_memWf _ _ _ _ hm); simp [e]
      · have e := fst_memWf ‹_› (State.blockLogits_memWf _ _ _ _ hm)
        extract_lets lanes o d s1 s2
        have e2 : Mem.wf s2.mem = true := by simp only [s2, State.putGrad_mem, State.updRun_mem, State.addSheet_mem, s1]; split <;> simp [e]
        clear_value s2
        split
        · rename_i h3; have e3 := fst_memWf h3 (State.writeTokens_memWf _ _ _ _ e2); simp [e3]
        · rename_i h3; have e3 := fst_memWf h3 (State.writeTokens_memWf _ _ _ _ e2)
          have e4 := State.blockDone_memWf _ p h block e3
          dsimp only
          split
          · split <;> simpa using e4
          · exact e4

theorem execContactFinalise_memWf (p : PtnId) (q : QueueId) (block : Nat) (s : State) (hm : Mem.wf s.mem = true) : SafeMem (execContactFinalise p q block s) := by
  unfold execContactFinalise; (try rw [memWf_next]); (try dsimp only); (repeat' split) <;> (try rw [memWf_next]) <;> (try simp only [Prod.ext_iff] at *) <;> (try casesm* _ ∧ _) <;> (try subst_vars) <;> (try simp (maxDischargeDepth := 12) [hm]) <;> (with_reducible repeat' (first | assumption | apply foldl_memWf | apply foldl_fst_memWf)) <;> (try intros) <;> (try dsimp only) <;> (repeat' split) <;> (try simp only [Prod.ext_iff] at *) <;> (try casesm* _ ∧ _) <;> (try subst_vars) <;> simp (maxDischargeDepth := 12) [*]

theorem execFwdMb_memWf (h : Hdr) (x : ProgBlock) (s : State) (hm : Mem.wf s.mem = true) : SafeMem (execFwdMb h x s) := by
  unfold execFwdMb; extract_lets i y bytes rm starts wait
  refine safe_ite ?_ (safe_ite (by simpa using hm) ?_)
  · rw [memWf_next]
    have hw : ∀ z ∈ wait, Mem.wf z.mem = true := by
      intro z hz; simp only [wait, rm] at hz
      split at hz
      · rename_i z' h1
        simp only [Option.mem_def, Option.some.injEq] at hz; subst hz
        exact ite_memWf (State.room_memWf h1 hm) hm
      · cases hz
    clear_value wait
    cases wait with
    | none => exact hm
    | some z => exact hw z rfl
  · rw [memWf_next]; refine State.queued_memWf _ _ _ _ _ _ _ (fun s hm => ?_) hm
    extract_lets hd seed s1 mb s2
    have e2 : Mem.wf s2.mem = true := by simpa [s2, s1] using hm
    clear_value s2
    split
    · rename_i h1
      have e1 := State.room_memWf h1 e2
      exact ite_memWf (State.mbEnd_memWf _ _ (by simpa using e1)) (by simpa using e1)
    · rename_i h1
      apply State.mbEnd_memWf; simpa using State.room_memWf h1 e2
    · rename_i h1
      apply State.mbEnd_memWf; simpa using State.room_memWf h1 e2

theorem execBwdMb_memWf (h : Hdr) (x : ProgBlock) (s : State) (hm : Mem.wf s.mem = true) : SafeMem (execBwdMb h x s) := by
  unfold execBwdMb; dsimp only
  split
  · simpa using hm
  · rw [memWf_next]
    refine State.queued_memWf _ _ _ _ _ _ _ (fun s hm => ?_) hm
    split
    · exact hm
    · split
      · apply State.mbEnd_memWf; simpa using hm
      · exact ite_memWf (State.mbEnd_memWf _ _ (by simpa using hm)) (by simpa using hm)

theorem execMbRelease_memWf (h : Hdr) (ids : List W32) (s : State) (hm : Mem.wf s.mem = true) : SafeMem (execMbRelease h ids s) := by
  unfold execMbRelease; rw [memWf_next]
  refine State.pumpTrain_memWf _ _ (State.atOnce_memWf _ _ _ _ (fun s hm => ?_) hm)
  split
  · exact hm
  · refine foldl_fst_memWf _ (fun a id h => ?_) _ _ hm
    (repeat' split) <;> simp [h]

theorem execStashFill_memWf (p : PtnId) (mb : W32) (s : State) (hm : Mem.wf s.mem = true) : SafeMem (execStashFill p mb s) := by
  unfold execStashFill; rw [memWf_next]
  split
  · split
    · exact hm
    · split <;> (rename_i h1; simpa using State.room_memWf h1 hm)
  · exact hm

theorem execStashFillComplete_memWf (p : PtnId) (mb : W32) (s : State) (hm : Mem.wf s.mem = true) : SafeMem (execStashFillComplete p mb s) := by
  unfold execStashFillComplete; (try dsimp only); all_goals ((repeat' split) <;> (try simp only [Prod.ext_iff] at *) <;> (try casesm* _ ∧ _) <;> (try subst_vars) <;> simp (maxDischargeDepth := 12) [*])

theorem execUpdate_mem (h : Hdr) (model : W16) (set : W16) (adamw : Bool) (group : W32) (opt : Opt) (s : State) : KeepsMem (execUpdate h model set adamw group opt s) s := by
  unfold execUpdate; (try rw [keepsMem_next]); (first | apply State.issue_mem | apply State.streamIssue_mem | apply State.atOnce_mem | apply State.queued_mem | apply State.queuedDone_mem | apply State.seqStep_mem | apply State.onQp_mem | apply State.onGroup_mem | apply State.inRound_mem) <;> (try assumption) <;> intros <;> (try dsimp only) <;> all_goals ((repeat' split) <;> simp_all)

@[simp] theorem State.updateAlone_memWf (s : State) (p : PtnId) (h : Hdr) (r : Train) (set : Nat) (im : Image) (w : WSet) (hm : Mem.wf s.mem = true) : Mem.wf (State.updateAlone s p h r set im w).mem = true := by
  unfold State.updateAlone; (try dsimp only); all_goals ((repeat' split) <;> simp_all)

@[simp] theorem State.clearBad_mem (s : State) (p : PtnId) : (State.clearBad s p).mem = s.mem := by
  unfold State.clearBad; (try dsimp only); all_goals ((repeat' split) <;> simp_all)

@[simp] theorem State.closingStrips_mem (s : State) (us : List Nat) : (State.closingStrips s us).mem = s.mem := by
  unfold State.closingStrips; (try rw [keepsMem_next]); (try dsimp only); ((repeat' split) <;> (try simp only [Prod.ext_iff] at *) <;> (try casesm* _ ∧ _) <;> (try subst_vars) <;> (try simp_all) <;> (repeat' (first | rw [foldl_mem] | rw [foldl_fst_mem])) <;> (try intros) <;> (try dsimp only) <;> ((repeat' split) <;> simp_all))

@[simp] theorem State.updateGroup_memWf (s : State) (p : PtnId) (h : Hdr) (r : Train) (set : Nat) (im : Image) (w : WSet) (g : Group) (hm : Mem.wf s.mem = true) : Mem.wf (State.updateGroup s p h r set im w g).mem = true := by
  unfold State.updateGroup; (try dsimp only); all_goals ((repeat' split) <;> simp_all)

theorem execUpdateBufferAcquire_memWf (p : PtnId) (model : W16) (set : W16) (s : State) (hm : Mem.wf s.mem = true) : SafeMem (execUpdateBufferAcquire p model set s) := by
  unfold execUpdateBufferAcquire; (try dsimp only); all_goals ((repeat' split) <;> simp_all)

theorem execBudgetSet_mem (h : Hdr) (recs : List BudgetRec) (s : State) : KeepsMem (execBudgetSet h recs s) s := by
  unfold execBudgetSet; (try rw [keepsMem_next]); (first | apply State.issue_mem | apply State.streamIssue_mem | apply State.atOnce_mem | apply State.queued_mem | apply State.queuedDone_mem | apply State.seqStep_mem | apply State.onQp_mem | apply State.onGroup_mem | apply State.inRound_mem) <;> (try assumption) <;> intros <;> (try dsimp only) <;> all_goals ((repeat' split) <;> simp_all)

theorem execBudgetRead_mem (h : Hdr) (first : W16) (count : W16) (s : State) : KeepsMem (execBudgetRead h first count s) s := by
  unfold execBudgetRead; (try rw [keepsMem_next]); (first | apply State.issue_mem | apply State.streamIssue_mem | apply State.atOnce_mem | apply State.queued_mem | apply State.queuedDone_mem | apply State.seqStep_mem | apply State.onQp_mem | apply State.onGroup_mem | apply State.inRound_mem) <;> (try assumption) <;> intros <;> (try dsimp only) <;> all_goals ((repeat' split) <;> simp_all)

theorem execBudgetRefill_mem (p : PtnId) (tag : W32) (s : State) : KeepsMem (execBudgetRefill p tag s) s := by
  unfold execBudgetRefill; (try dsimp only); all_goals ((repeat' split) <;> simp_all)

@[simp] theorem State.updServe_mem (s : State) (p : PtnId) (f : Serve → Serve) : (State.updServe s p f).mem = s.mem := by
  unfold State.updServe; (try dsimp only); all_goals ((repeat' split) <;> simp_all)

@[simp] theorem State.updStream_mem (s : State) (p : PtnId) (id : Nat) (f : Stream → Stream) : (State.updStream s p id f).mem = s.mem := by
  unfold State.updStream; (try dsimp only); all_goals ((repeat' split) <;> simp_all)

@[simp] theorem State.updModel_mem (s : State) (p : PtnId) (h : Nat) (f : Model → Model) : (State.updModel s p h f).mem = s.mem := by
  unfold State.updModel; (try dsimp only); all_goals ((repeat' split) <;> simp_all)

theorem State.takePages_mem {s t : State} {p : PtnId} {model n : Nat} {ps ps' : List (List Nat)} (e : s.takePages p model n ps = some (t, ps')) : t.mem = s.mem := by
  unfold State.takePages at e
  split at e
  · cases e
  · obtain ⟨_, _, h⟩ := Option.map_eq_some_iff.mp e
    cases h; simp

theorem State.takeBoth_mem {s u : State} {p : PtnId} {t : Stream} {n d : Nat} {a b : List (List Nat)} (e : s.takeBoth p t n d = some (u, a, b)) : u.mem = s.mem := by
  unfold State.takeBoth at e
  split at e
  · cases e
  · have h1 := State.takePages_mem ‹_›
    split at e
    · cases e; exact h1
    · obtain ⟨x, hx, h⟩ := Option.map_eq_some_iff.mp e
      cases h; exact (State.takePages_mem hx).trans h1

@[simp] theorem State.closeStream_mem (s : State) (p : PtnId) (t : Stream) (failed : Option Status) (nowUs : Option Nat) : (State.closeStream s p t failed nowUs).mem = s.mem := by
  unfold State.closeStream; (try dsimp only); all_goals ((repeat' split) <;> simp_all)

@[simp] theorem State.openStream_memWf (s : State) (h : Hdr) (i : Nat) (r : GenReq) (prog : List Byte) (hm : Mem.wf s.mem = true) :
    Mem.wf (s.openStream h i r prog).1.mem = true := by
  unfold State.openStream; extract_lets p x n
  split
  · exact hm
  · split
    · exact fst_memWf ‹_› (State.pRead_memWf _ _ _ _ _ hm)
    · have e1 := fst_memWf ‹_› (State.pRead_memWf _ _ _ _ _ hm)
      split
      · exact e1
      · have e2 := State.takeBoth_mem ‹_›
        simp [e1, e2]

theorem execGenSubmit_memWf (h : Hdr) (program entry : W16) (reqs : List GenReq) (s : State) (hm : Mem.wf s.mem = true) : SafeMem (execGenSubmit h program entry reqs s) := by
  unfold execGenSubmit; rw [memWf_next]
  refine State.queued_memWf _ _ _ _ _ _ _ (fun s hm => ?_) hm
  refine foldl_memWf _ (fun s e hm => ?_) _ _ (by simp [hm])
  split
  · rw [State.closeItem_mem]; exact fst_memWf ‹_› (State.openStream_memWf _ _ _ _ _ hm)
  · exact fst_memWf ‹_› (State.openStream_memWf _ _ _ _ _ hm)

theorem execGenCancel_mem (h : Hdr) (seq : W32) (item : W16) (s : State) : KeepsMem (execGenCancel h seq item s) s := by
  unfold execGenCancel; (try rw [keepsMem_next]); (first | apply State.issue_mem | apply State.streamIssue_mem | apply State.atOnce_mem | apply State.queued_mem | apply State.queuedDone_mem | apply State.seqStep_mem | apply State.onQp_mem | apply State.onGroup_mem | apply State.inRound_mem) <;> (try assumption) <;> intros <;> (try dsimp only) <;> all_goals ((repeat' split) <;> simp_all)

@[simp] theorem State.seat_mem (s : State) (p : PtnId) (t : Stream) : (s.seat p t).mem = s.mem := by
  unfold State.seat; dsimp only
  split
  · simp
  · rename_i h
    obtain ⟨_, _, h⟩ := List.exists_of_findSome?_eq_some h
    obtain ⟨_, he, hx⟩ := Option.map_eq_some_iff.mp h
    cases hx; simp [State.takeBoth_mem he]

theorem execGenStep_mem (p : PtnId) (model : W16) (s : State) : KeepsMem (execGenStep p model s) s := by
  unfold execGenStep; (try dsimp only); all_goals ((repeat' split) <;> simp_all)

@[simp] theorem State.switchStream_mem (s : State) (p : PtnId) (t : Stream) : (State.switchStream s p t).mem = s.mem := by
  unfold State.switchStream; (try dsimp only); all_goals ((repeat' split) <;> simp_all)

@[simp] theorem State.monitor_mem (s : State) (p : PtnId) (id : Nat) (nowUs : Nat) : (State.monitor s p id nowUs).mem = s.mem := by
  unfold State.monitor; (try dsimp only); all_goals ((repeat' split) <;> simp_all)

@[simp] theorem State.commitStream_memWf (s : State) (p : PtnId) (t : Stream) (nowUs : Nat) (hm : Mem.wf s.mem = true) : Mem.wf (State.commitStream s p t nowUs).mem = true := by
  unfold State.commitStream; dsimp only
  split
  · rename_i h1; simp [fst_memWf h1 (State.mirage_memWf _ _ _ hm)]
  · rename_i h1
    have e1 := fst_memWf h1 (State.mirage_memWf _ _ _ hm)
    split <;> simp [e1]

theorem execStepCommit_memWf (p : PtnId) (model : W16) (failed : Option Status) (nowUs : Nat) (s : State) (hm : Mem.wf s.mem = true) : SafeMem (execStepCommit p model failed nowUs s) := by
  unfold execStepCommit; rw [memWf_next]; dsimp only
  split
  · exact hm
  · refine foldl_memWf _ (fun s t h => ?_) _ _ (by simpa using hm)
    split
    · simpa using h
    · exact State.commitStream_memWf _ _ _ _ h

@[simp] theorem State.runChunk_memWf (s : State) (p : PtnId) (t : Stream) (n : Nat) (nowUs : Nat) (hm : Mem.wf s.mem = true) : Mem.wf (State.runChunk s p t n nowUs).mem = true := by
  unfold State.runChunk; dsimp only
  split <;> (rename_i h1; simp [fst_memWf h1 (State.pass_memWf _ _ _ _ _ _ _ _ _ hm)])

theorem execChunkComplete_memWf (p : PtnId) (stream : Nat) (failed : Option Status) (nowUs : Nat) (s : State) (hm : Mem.wf s.mem = true) : SafeMem (execChunkComplete p stream failed nowUs s) := by
  unfold execChunkComplete; rw [memWf_next]; dsimp only
  split
  · exact hm
  · split
    · exact hm
    · split
      · simp [hm]
      · split
        · exact hm
        · split
          · simp [hm]
          · rename_i h; simp [State.takePages_mem h, hm]

@[simp] theorem State.i3cBad_mem (s : State) (n : Nat) : (State.i3cBad s n).mem = s.mem := by
  first
  | (unfold State.i3cBad; (try dsimp only); all_goals ((repeat' split) <;> simp_all); done)
  | (unfold State.i3cBad; (try dsimp only); all_goals ((repeat' split) <;> (try simp only [Prod.ext_iff] at *) <;> (try casesm* _ ∧ _) <;> (try subst_vars) <;> ((repeat' split) <;> simp_all)); done)
  | (unfold State.i3cBad; (try rw [keepsMem_next]); (first | apply State.issue_mem | apply State.streamIssue_mem | apply State.atOnce_mem | apply State.queued_mem | apply State.queuedDone_mem | apply State.seqStep_mem | apply State.onQp_mem | apply State.onGroup_mem | apply State.inRound_mem) <;> (try assumption) <;> intros <;> (try dsimp only) <;> all_goals ((repeat' split) <;> simp_all); done)
  | (unfold State.i3cBad; (try rw [keepsMem_next]); (first | apply State.issue_mem | apply State.streamIssue_mem | apply State.atOnce_mem | apply State.queued_mem | apply State.queuedDone_mem | apply State.seqStep_mem | apply State.onQp_mem | apply State.onGroup_mem | apply State.inRound_mem) <;> (try assumption) <;> intros <;> (try dsimp only) <;> all_goals ((repeat' split) <;> (try simp only [Prod.ext_iff] at *) <;> (try casesm* _ ∧ _) <;> (try subst_vars) <;> ((repeat' split) <;> simp_all)); done)
  | (unfold State.i3cBad; (try rw [keepsMem_next]); (try dsimp only); ((repeat' split) <;> (try simp only [Prod.ext_iff] at *) <;> (try casesm* _ ∧ _) <;> (try subst_vars) <;> (try simp_all) <;> (repeat' (first | rw [foldl_mem] | rw [foldl_fst_mem])) <;> (try intros) <;> (try dsimp only) <;> ((repeat' split) <;> simp_all)); done)
  | (unfold State.i3cBad; (try rw [keepsMem_next]); (try dsimp only); (repeat' split) <;> (try rw [keepsMem_next]) <;> (first | (first | apply State.issue_mem | apply State.streamIssue_mem | apply State.atOnce_mem | apply State.queued_mem | apply State.queuedDone_mem | apply State.seqStep_mem | apply State.onQp_mem | apply State.onGroup_mem | apply State.inRound_mem) | skip) <;> (try assumption) <;> (try intros) <;> (try dsimp only) <;> ((repeat' split) <;> (try simp only [Prod.ext_iff] at *) <;> (try casesm* _ ∧ _) <;> (try subst_vars) <;> (try simp_all) <;> (repeat' (first | rw [foldl_mem] | rw [foldl_fst_mem])) <;> (try intros) <;> (try dsimp only) <;> ((repeat' split) <;> simp_all)))

@[simp] theorem State.flashStart_mem (s : State) (off : Nat) (bs : List Byte) : (State.flashStart s off bs).mem = s.mem := by
  first
  | (unfold State.flashStart; (try dsimp only); all_goals ((repeat' split) <;> simp_all); done)
  | (unfold State.flashStart; (try dsimp only); all_goals ((repeat' split) <;> (try simp only [Prod.ext_iff] at *) <;> (try casesm* _ ∧ _) <;> (try subst_vars) <;> ((repeat' split) <;> simp_all)); done)
  | (unfold State.flashStart; (try rw [keepsMem_next]); (first | apply State.issue_mem | apply State.streamIssue_mem | apply State.atOnce_mem | apply State.queued_mem | apply State.queuedDone_mem | apply State.seqStep_mem | apply State.onQp_mem | apply State.onGroup_mem | apply State.inRound_mem) <;> (try assumption) <;> intros <;> (try dsimp only) <;> all_goals ((repeat' split) <;> simp_all); done)
  | (unfold State.flashStart; (try rw [keepsMem_next]); (first | apply State.issue_mem | apply State.streamIssue_mem | apply State.atOnce_mem | apply State.queued_mem | apply State.queuedDone_mem | apply State.seqStep_mem | apply State.onQp_mem | apply State.onGroup_mem | apply State.inRound_mem) <;> (try assumption) <;> intros <;> (try dsimp only) <;> all_goals ((repeat' split) <;> (try simp only [Prod.ext_iff] at *) <;> (try casesm* _ ∧ _) <;> (try subst_vars) <;> ((repeat' split) <;> simp_all)); done)
  | (unfold State.flashStart; (try rw [keepsMem_next]); (try dsimp only); ((repeat' split) <;> (try simp only [Prod.ext_iff] at *) <;> (try casesm* _ ∧ _) <;> (try subst_vars) <;> (try simp_all) <;> (repeat' (first | rw [foldl_mem] | rw [foldl_fst_mem])) <;> (try intros) <;> (try dsimp only) <;> ((repeat' split) <;> simp_all)); done)
  | (unfold State.flashStart; (try rw [keepsMem_next]); (try dsimp only); (repeat' split) <;> (try rw [keepsMem_next]) <;> (first | (first | apply State.issue_mem | apply State.streamIssue_mem | apply State.atOnce_mem | apply State.queued_mem | apply State.queuedDone_mem | apply State.seqStep_mem | apply State.onQp_mem | apply State.onGroup_mem | apply State.inRound_mem) | skip) <;> (try assumption) <;> (try intros) <;> (try dsimp only) <;> ((repeat' split) <;> (try simp only [Prod.ext_iff] at *) <;> (try casesm* _ ∧ _) <;> (try subst_vars) <;> (try simp_all) <;> (repeat' (first | rw [foldl_mem] | rw [foldl_fst_mem])) <;> (try intros) <;> (try dsimp only) <;> ((repeat' split) <;> simp_all)))

theorem State.onI3c_mem (s : State) (f : State → State) (hf : ∀ s, (f s).mem = s.mem) : KeepsMem (s.onI3c f) s := by
  unfold State.onI3c; simp; split <;> simp [hf]

theorem State.onI3c_memWf (s : State) (f : State → State) (hf : ∀ s, Mem.wf s.mem = true → Mem.wf (f s).mem = true) (hm : Mem.wf s.mem = true) :
    SafeMem (s.onI3c f) := by
  unfold State.onI3c; simp; split <;> simp [hf, hm]

theorem execI3cRegRead_mem (addr : W64) (s : State) : KeepsMem (execI3cRegRead addr s) s := by
  unfold execI3cRegRead; (try rw [keepsMem_next]); (first | apply State.issue_mem | apply State.streamIssue_mem | apply State.atOnce_mem | apply State.queued_mem | apply State.queuedDone_mem | apply State.seqStep_mem | apply State.onQp_mem | apply State.onGroup_mem | apply State.inRound_mem | apply State.onI3c_mem) <;> (try assumption) <;> intros <;> (try dsimp only) <;> all_goals ((repeat' split) <;> simp_all)

theorem execI3cRegWrite_memWf (addr : W64) (v : RegVal) (s : State) (hm : Mem.wf s.mem = true) : SafeMem (execI3cRegWrite addr v s) := by
  unfold execI3cRegWrite; (try rw [memWf_next]); (first | apply State.issue_memWf | apply State.streamIssue_memWf | apply State.atOnce_memWf | apply State.queued_memWf | apply State.queuedDone_memWf | apply State.seqStep_memWf | apply State.onQp_memWf | apply State.onGroup_memWf | apply State.inRound_memWf | apply State.onI3c_memWf) <;> (try assumption) <;> intros <;> (try dsimp only) <;> all_goals ((repeat' split) <;> simp_all)

theorem execFlashRead_mem (off : W32) (len : W16) (s : State) : KeepsMem (execFlashRead off len s) s := by
  unfold execFlashRead; (try rw [keepsMem_next]); (first | apply State.issue_mem | apply State.streamIssue_mem | apply State.atOnce_mem | apply State.queued_mem | apply State.queuedDone_mem | apply State.seqStep_mem | apply State.onQp_mem | apply State.onGroup_mem | apply State.inRound_mem | apply State.onI3c_mem) <;> (try assumption) <;> intros <;> (try dsimp only) <;> all_goals ((repeat' split) <;> simp_all)

theorem execFlashWrite_mem (off : W32) (bytes : List Byte) (s : State) : KeepsMem (execFlashWrite off bytes s) s := by
  unfold execFlashWrite; (try rw [keepsMem_next]); (first | apply State.issue_mem | apply State.streamIssue_mem | apply State.atOnce_mem | apply State.queued_mem | apply State.queuedDone_mem | apply State.seqStep_mem | apply State.onQp_mem | apply State.onGroup_mem | apply State.inRound_mem | apply State.onI3c_mem) <;> (try assumption) <;> intros <;> (try dsimp only) <;> all_goals ((repeat' split) <;> simp_all)

theorem execFlashErase_mem (off : W32) (s : State) : KeepsMem (execFlashErase off s) s := by
  refine State.onI3c_mem _ _ fun s => ?_
  split
  · rfl
  · simp

theorem execI3cStatus_mem (s : State) : KeepsMem (execI3cStatus s) s := by
  first
  | (unfold execI3cStatus; (try dsimp only); all_goals ((repeat' split) <;> simp_all); done)
  | (unfold execI3cStatus; (try dsimp only); all_goals ((repeat' split) <;> (try simp only [Prod.ext_iff] at *) <;> (try casesm* _ ∧ _) <;> (try subst_vars) <;> ((repeat' split) <;> simp_all)); done)
  | (unfold execI3cStatus; (try rw [keepsMem_next]); (first | apply State.issue_mem | apply State.streamIssue_mem | apply State.atOnce_mem | apply State.queued_mem | apply State.queuedDone_mem | apply State.seqStep_mem | apply State.onQp_mem | apply State.onGroup_mem | apply State.inRound_mem | apply State.onI3c_mem) <;> (try assumption) <;> intros <;> (try dsimp only) <;> all_goals ((repeat' split) <;> simp_all); done)
  | (unfold execI3cStatus; (try rw [keepsMem_next]); (first | apply State.issue_mem | apply State.streamIssue_mem | apply State.atOnce_mem | apply State.queued_mem | apply State.queuedDone_mem | apply State.seqStep_mem | apply State.onQp_mem | apply State.onGroup_mem | apply State.inRound_mem | apply State.onI3c_mem) <;> (try assumption) <;> intros <;> (try dsimp only) <;> all_goals ((repeat' split) <;> (try simp only [Prod.ext_iff] at *) <;> (try casesm* _ ∧ _) <;> (try subst_vars) <;> ((repeat' split) <;> simp_all)); done)
  | (unfold execI3cStatus; (try rw [keepsMem_next]); (try dsimp only); ((repeat' split) <;> (try simp only [Prod.ext_iff] at *) <;> (try casesm* _ ∧ _) <;> (try subst_vars) <;> (try simp_all) <;> (repeat' (first | rw [foldl_mem] | rw [foldl_fst_mem])) <;> (try intros) <;> (try dsimp only) <;> ((repeat' split) <;> simp_all)); done)
  | (unfold execI3cStatus; (try rw [keepsMem_next]); (try dsimp only); (repeat' split) <;> (try rw [keepsMem_next]) <;> (first | (first | apply State.issue_mem | apply State.streamIssue_mem | apply State.atOnce_mem | apply State.queued_mem | apply State.queuedDone_mem | apply State.seqStep_mem | apply State.onQp_mem | apply State.onGroup_mem | apply State.inRound_mem | apply State.onI3c_mem) | skip) <;> (try assumption) <;> (try intros) <;> (try dsimp only) <;> ((repeat' split) <;> (try simp only [Prod.ext_iff] at *) <;> (try casesm* _ ∧ _) <;> (try subst_vars) <;> (try simp_all) <;> (repeat' (first | rw [foldl_mem] | rw [foldl_fst_mem])) <;> (try intros) <;> (try dsimp only) <;> ((repeat' split) <;> simp_all)))

theorem execFlashOperationComplete_mem (s : State) : KeepsMem (execFlashOperationComplete s) s := by
  unfold execFlashOperationComplete; (try dsimp only); all_goals ((repeat' split) <;> simp_all)

@[simp] theorem State.takeAddr_mem (s : State) (addr : BitVec 7) : KeepsMem (State.takeAddr s addr) s := by
  first
  | (unfold State.takeAddr; (try dsimp only); all_goals ((repeat' split) <;> simp_all); done)
  | (unfold State.takeAddr; (try dsimp only); all_goals ((repeat' split) <;> (try simp only [Prod.ext_iff] at *) <;> (try casesm* _ ∧ _) <;> (try subst_vars) <;> ((repeat' split) <;> simp_all)); done)
  | (unfold State.takeAddr; (try rw [keepsMem_next]); (first | apply State.issue_mem | apply State.streamIssue_mem | apply State.atOnce_mem | apply State.queued_mem | apply State.queuedDone_mem | apply State.seqStep_mem | apply State.onQp_mem | apply State.onGroup_mem | apply State.inRound_mem | apply State.onI3c_mem) <;> (try assumption) <;> intros <;> (try dsimp only) <;> all_goals ((repeat' split) <;> simp_all); done)
  | (unfold State.takeAddr; (try rw [keepsMem_next]); (first | apply State.issue_mem | apply State.streamIssue_mem | apply State.atOnce_mem | apply State.queued_mem | apply State.queuedDone_mem | apply State.seqStep_mem | apply State.onQp_mem | apply State.onGroup_mem | apply State.inRound_mem | apply State.onI3c_mem) <;> (try assumption) <;> intros <;> (try dsimp only) <;> all_goals ((repeat' split) <;> (try simp only [Prod.ext_iff] at *) <;> (try casesm* _ ∧ _) <;> (try subst_vars) <;> ((repeat' split) <;> simp_all)); done)
  | (unfold State.takeAddr; (try rw [keepsMem_next]); (try dsimp only); ((repeat' split) <;> (try simp only [Prod.ext_iff] at *) <;> (try casesm* _ ∧ _) <;> (try subst_vars) <;> (try simp_all) <;> (repeat' (first | rw [foldl_mem] | rw [foldl_fst_mem])) <;> (try intros) <;> (try dsimp only) <;> ((repeat' split) <;> simp_all)); done)
  | (unfold State.takeAddr; (try rw [keepsMem_next]); (try dsimp only); (repeat' split) <;> (try rw [keepsMem_next]) <;> (first | (first | apply State.issue_mem | apply State.streamIssue_mem | apply State.atOnce_mem | apply State.queued_mem | apply State.queuedDone_mem | apply State.seqStep_mem | apply State.onQp_mem | apply State.onGroup_mem | apply State.inRound_mem | apply State.onI3c_mem) | skip) <;> (try assumption) <;> (try intros) <;> (try dsimp only) <;> ((repeat' split) <;> (try simp only [Prod.ext_iff] at *) <;> (try casesm* _ ∧ _) <;> (try subst_vars) <;> (try simp_all) <;> (repeat' (first | rw [foldl_mem] | rw [foldl_fst_mem])) <;> (try intros) <;> (try dsimp only) <;> ((repeat' split) <;> simp_all)))

theorem execSetdasa_mem (addr : BitVec 7) (s : State) : KeepsMem (execSetdasa addr s) s := by
  unfold execSetdasa; (try dsimp only); all_goals ((repeat' split) <;> simp_all)

theorem execEntdaa_mem (addr : BitVec 7) (s : State) : KeepsMem (execEntdaa addr s) s := by
  unfold execEntdaa; (try dsimp only); all_goals ((repeat' split) <;> simp_all)

@[simp] theorem State.scan_mem (s : State) (ir : BitVec 3) (v : W64) : KeepsMem (State.scan s ir v) s := by
  unfold State.scan; (try dsimp only); all_goals ((repeat' split) <;> simp_all)

@[simp] theorem State.boundary_mem (s : State) (ir : BitVec 3) : KeepsMem (s.boundary ir) s := ⟨_, rfl, rfl⟩

theorem execBypass_mem (s : State) : KeepsMem (execBypass s) s := by
  unfold execBypass; (try dsimp only); all_goals ((repeat' split) <;> simp_all)

theorem execIdcode_mem (s : State) : KeepsMem (execIdcode s) s := by
  unfold execIdcode; (try dsimp only); all_goals ((repeat' split) <;> simp_all)

theorem execSamplePreload_mem (s : State) : KeepsMem (execSamplePreload s) s := State.boundary_mem _ _

theorem execExtest_mem (s : State) : KeepsMem (execExtest s) s := by
  unfold execExtest; split
  · simp
  · exact State.boundary_mem _ _

theorem execTableOp_mem (h : Hdr) (reqs : List TeReq) (s : State) : KeepsMem (execTableOp h reqs s) s := by
  unfold execTableOp; (try rw [keepsMem_next]); (try dsimp only); (repeat' split) <;> (try rw [keepsMem_next]) <;> (first | (first | apply State.issue_mem | apply State.streamIssue_mem | apply State.atOnce_mem | apply State.queued_mem | apply State.queuedDone_mem | apply State.seqStep_mem | apply State.onQp_mem | apply State.onGroup_mem | apply State.inRound_mem | apply State.onI3c_mem) | skip) <;> (try assumption) <;> (try intros) <;> (try dsimp only) <;> ((repeat' split) <;> (try simp only [Prod.ext_iff] at *) <;> (try casesm* _ ∧ _) <;> (try subst_vars) <;> (try simp_all) <;> (repeat' (first | rw [foldl_mem] | rw [foldl_fst_mem])) <;> (try intros) <;> (try dsimp only) <;> ((repeat' split) <;> simp_all))

end Sys2Proof.Machine
end

