-- ==== Sys2Proof/Laws/Queue.lean ====
section
/-! SUPPORT. What every operation does to the queue of waiting commands: nothing. One lemma for each operation that answers a state, and `Keeps` for each command: it completes and leaves the queue as it was. -/

set_option linter.unusedTactic false
set_option linter.unreachableTactic false
set_option linter.unusedSimpArgs false
set_option linter.unusedVariables false
set_option linter.unnecessarySeqFocus false

namespace Sys2Proof.Machine

def Keeps (r : Res State) (s : State) : Prop := ∃ t, r = .next t ∧ t.pending = s.pending

@[simp] theorem keeps_next (t s : State) : Keeps (.next t) s ↔ t.pending = s.pending := by
  constructor
  · rintro ⟨_, h, h'⟩; cases h; exact h'
  · intro h; exact ⟨t, rfl, h⟩

theorem keeps_ite {c : Prop} [Decidable c] {a b : Res State} {s : State} (ha : Keeps a s) (hb : Keeps b s) : Keeps (if c then a else b) s := by
  split <;> assumption

theorem ite_acc_pending {α : Type} {c : Prop} [Decidable c] {a b : Acc α} {q : List Instr} (ha : a.1.pending = q) (hb : b.1.pending = q) :
    (if c then a else b).1.pending = q := by
  split <;> assumption

@[simp] theorem foldl_pending {α : Type} (f : State → α → State) (h : ∀ s a, (f s a).pending = s.pending) (l : List α) (s : State) :
    (l.foldl f s).pending = s.pending := by
  induction l generalizing s with
  | nil => rfl
  | cons a l ih => simp [ih, h]

theorem foldl_fst_pending {α β : Type} (f : State × β → α → State × β) (h : ∀ x a, (f x a).1.pending = x.1.pending) (l : List α) (x : State × β) :
    (l.foldl f x).1.pending = x.1.pending := by
  induction l generalizing x with
  | nil => rfl
  | cons a l ih => simp [ih, h]

theorem fst_pending {α : Type} {x : State × α} {t s : State} {a : α} (h : x = (t, a)) (hx : x.1.pending = s.pending) : t.pending = s.pending := by
  rw [h] at hx; exact hx

@[simp] theorem Acc.bind_pending {α β : Type} (a : Acc α) (f : State → α → Acc β) (hf : ∀ s x, (f s x).1.pending = s.pending) :
    (Acc.bind a f).1.pending = a.1.pending := by
  unfold Acc.bind; split <;> simp [hf]

theorem Acc.bind_keeps {α β : Type} (a : Acc α) (f : State → α → Acc β) (hf : ∀ s x y, f s x = y → y.1.pending = s.pending) :
    (Acc.bind a f).1.pending = a.1.pending := by
  unfold Acc.bind; split
  · rfl
  · exact hf _ _ _ rfl

@[simp] theorem State.accAll_pending {α β : Type} (f : State → α → Acc β) (hf : ∀ s x, (f s x).1.pending = s.pending) (l : List α) (s : State) :
    (State.accAll f l s).1.pending = s.pending := by
  induction l generalizing s with
  | nil => rfl
  | cons x l ih => simp [State.accAll, hf, ih]

@[simp] theorem State.updPtn_pending (s : State) (p : PtnId) (f : Ptn → Ptn) : (State.updPtn s p f).pending = s.pending := rfl

@[simp] theorem State.updMc_pending (s : State) (n : Nat) (f : MCore → MCore) : (State.updMc s n f).pending = s.pending := rfl

@[simp] theorem State.updTh_pending (s : State) (t : Nat) (f : Thread → Thread) : (State.updTh s t f).pending = s.pending := rfl

@[simp] theorem State.updTe_pending (s : State) (n : Nat) (f : TEng → TEng) : (State.updTe s n f).pending = s.pending := rfl

@[simp] theorem State.updUp_pending (s : State) (u : UpId) (f : UPort → UPort) : (State.updUp s u f).pending = s.pending := rfl

@[simp] theorem State.updLaunch_pending (s : State) (id : Nat) (f : Launch → Launch) : (State.updLaunch s id f).pending = s.pending := rfl

@[simp] theorem State.updFlow_pending (s : State) (p : PtnId) (f : PFlow → PFlow) : (State.updFlow s p f).pending = s.pending := by
  unfold State.updFlow; (try dsimp only); all_goals ((repeat' split) <;> simp_all)

@[simp] theorem State.updPMem_pending (s : State) (p : PtnId) (f : PMem → PMem) : (State.updPMem s p f).pending = s.pending := by
  unfold State.updPMem; (try dsimp only); all_goals ((repeat' split) <;> simp_all)

@[simp] theorem State.updJob_pending (s : State) (p : PtnId) (q : QueueId) (f : Job → Job) : (State.updJob s p q f).pending = s.pending := by
  unfold State.updJob; (try dsimp only); all_goals ((repeat' split) <;> simp_all)

@[simp] theorem State.updSem_pending (s : State) (p : PtnId) (n : SemId) (f : Sem → Sem) : (State.updSem s p n f).pending = s.pending := by
  unfold State.updSem; (try dsimp only); all_goals ((repeat' split) <;> simp_all)

@[simp] theorem State.draw_pending (s : State) : (State.draw s).1.pending = s.pending := rfl

@[simp] theorem State.now_pending (s : State) : (State.now s).1.pending = s.pending := rfl

@[simp] theorem State.updMem_pending (s : State) (f : Mem → Mem) : (State.updMem s f).pending = s.pending := rfl

@[simp] theorem State.violate_pending (s : State) (p : PtnId) (who : Who) (a : Nat) (write : Bool) (kind : BitVec 4) : (State.violate s p who a write kind).pending = s.pending := by
  unfold State.violate; (try dsimp only); all_goals ((repeat' split) <;> simp_all)

@[simp] theorem State.deliver_pending (s : State) (ports : BitVec 2) (m : Msg) : (State.deliver s ports m).pending = s.pending := by
  unfold State.deliver; (try dsimp only); all_goals ((repeat' split) <;> simp_all)

@[simp] theorem State.sendPtn_pending (s : State) (p : PtnId) (ports : BitVec 2) (m : Msg) : (State.sendPtn s p ports m).pending = s.pending := by
  unfold State.sendPtn; (try dsimp only); all_goals ((repeat' split) <;> simp_all)

@[simp] theorem State.sendEvent_pending (s : State) (p : PtnId) (q : QueueId) (kind : Byte) (opcode : W16) (seq : W32) (body : List Byte) : (State.sendEvent s p q kind opcode seq body).pending = s.pending := by
  unfold State.sendEvent; (try dsimp only); all_goals ((repeat' split) <;> simp_all)

@[simp] theorem State.takeMen_pending (s : State) : (State.takeMen s).pending = s.pending := rfl

@[simp] theorem State.sendModule_pending (s : State) (kind : Byte) (men : W64) (body : List Byte) : (State.sendModule s kind men body).pending = s.pending := by
  unfold State.sendModule; (try dsimp only); all_goals ((repeat' split) <;> simp_all)

@[simp] theorem State.ptnFault_pending (s : State) (p : PtnId) (r : FRec) : (State.ptnFault s p r).pending = s.pending := by
  unfold State.ptnFault; (try dsimp only); all_goals ((repeat' split) <;> simp_all)

@[simp] theorem State.recordFault_pending (s : State) (r : FRec) : (State.recordFault s r).pending = s.pending := by
  unfold State.recordFault; (try dsimp only); all_goals ((repeat' split) <;> simp_all)

@[simp] theorem State.noteUe_pending (s : State) (mask : W32) (w : Nat) (when' : Option W64) : (State.noteUe s mask w when').pending = s.pending := by
  unfold State.noteUe; (try dsimp only); all_goals ((repeat' split) <;> simp_all)

@[simp] theorem State.notePort_pending (s : State) (kind : Byte) (die : Byte) (port : Nat) (mask : W32) : (State.notePort s kind die port mask).pending = s.pending := by
  unfold State.notePort; (try dsimp only); all_goals ((repeat' split) <;> simp_all)

@[simp] theorem State.pRead_pending (s : State) (p : PtnId) (who : Who) (a : Nat) (n : Nat) : (State.pRead s p who a n).1.pending = s.pending := by
  unfold State.pRead; (try dsimp only); all_goals ((repeat' split) <;> simp_all)

@[simp] theorem State.writeParts_pending (s : State) (p : PtnId) (z0 : List (Nat × Nat)) (z1 : List Byte) : (State.writeParts s p z0 z1).pending = s.pending := by
  fun_induction State.writeParts s p z0 z1 <;> (try simp only [Prod.ext_iff] at *) <;> (try casesm* _ ∧ _) <;> (try subst_vars) <;> ((repeat' split) <;> simp_all)

@[simp] theorem State.pWrite_pending (s : State) (p : PtnId) (who : Who) (a : Nat) (bs : List Byte) : (State.pWrite s p who a bs).1.pending = s.pending := by
  unfold State.pWrite; (try dsimp only); all_goals ((repeat' split) <;> simp_all)

@[simp] theorem State.setChan_pending (s : State) (h : Hdr) (f : List CmdRec → List CmdRec) : (State.setChan s h f).pending = s.pending := by
  unfold State.setChan; (try dsimp only); all_goals ((repeat' split) <;> simp_all)

@[simp] theorem State.updCmd_pending (s : State) (h : Hdr) (f : CmdRec → CmdRec) : (State.updCmd s h f).pending = s.pending := by
  unfold State.updCmd; (try dsimp only); all_goals ((repeat' split) <;> simp_all)

@[simp] theorem State.sendReply_pending (s : State) (h : Hdr) (m : Msg) : (State.sendReply s h m).pending = s.pending := by
  unfold State.sendReply; (try dsimp only); all_goals ((repeat' split) <;> simp_all)

@[simp] theorem State.dropCmd_pending (s : State) (h : Hdr) : (State.dropCmd s h).pending = s.pending := by
  unfold State.dropCmd; (try dsimp only); all_goals ((repeat' split) <;> simp_all)

@[simp] theorem State.advance_pending (s : State) (p : PtnId) (q : QueueId) : (State.advance s p q).pending = s.pending := by
  unfold State.advance; (try dsimp only); all_goals ((repeat' split) <;> simp_all)

@[simp] theorem State.tryReport_pending (s : State) (h : Hdr) : (State.tryReport s h).pending = s.pending := by
  unfold State.tryReport; (try dsimp only); all_goals ((repeat' split) <;> simp_all)

@[simp] theorem State.closeCharge_pending (s : State) (c : CmdRec) : (State.closeCharge s c).pending = s.pending := by
  unfold State.closeCharge; (try dsimp only); all_goals ((repeat' split) <;> simp_all)

@[simp] theorem State.charge_pending (s : State) (p : PtnId) (q : QueueId) (ns : Nat) : (State.charge s p q ns).pending = s.pending := by
  unfold State.charge; (try dsimp only); all_goals ((repeat' split) <;> simp_all)

@[simp] theorem State.giveQp_pending (s : State) (n : QpId) (ks : List QPkt) : (State.giveQp s n ks).pending = s.pending := by
  rfl

@[simp] theorem State.settle_pending (s : State) (h : Hdr) : (State.settle s h).pending = s.pending := by
  unfold State.settle; (try dsimp only); all_goals ((repeat' split) <;> simp_all)

@[simp] theorem State.endStream_pending (s : State) (p : PtnId) (t : Stream) (nowUs : Option Nat) : (State.endStream s p t nowUs).pending = s.pending := by
  unfold State.endStream; (try dsimp only); all_goals ((repeat' split) <;> simp_all)

@[simp] theorem State.endStreams_pending (s : State) (h : Hdr) (f : Nat → Bool) : (State.endStreams s h f).pending = s.pending := by
  unfold State.endStreams; (try dsimp only); all_goals ((repeat' split) <;> simp_all)

@[simp] theorem State.closeItem_pending (s : State) (h : Hdr) (i : Nat) (failed : Option Status) : (State.closeItem s h i failed).pending = s.pending := by
  unfold State.closeItem; (try dsimp only); all_goals ((repeat' split) <;> simp_all)

@[simp] theorem State.failOpen_pending (s : State) (h : Hdr) (code : Status) : (State.failOpen s h code).pending = s.pending := by
  unfold State.failOpen; (try dsimp only); all_goals ((repeat' split) <;> simp_all)

@[simp] theorem State.addSheet_pending (s : State) (h : Hdr) (f : Sheet → Sheet) : (State.addSheet s h f).pending = s.pending := by
  unfold State.addSheet; (try dsimp only); all_goals ((repeat' split) <;> simp_all)

@[simp] theorem State.addUnits_pending (s : State) (h : Hdr) (items : List Nat) (units : List Nat) : (State.addUnits s h items units).pending = s.pending := by
  unfold State.addUnits; (try dsimp only); all_goals ((repeat' split) <;> simp_all)

@[simp] theorem State.noteTokens_pending (s : State) (h : Hdr) (i : Nat) (n : Nat) (units : List Nat) : (State.noteTokens s h i n units).pending = s.pending := by
  unfold State.noteTokens; (try dsimp only); all_goals ((repeat' split) <;> simp_all)

@[simp] theorem State.ensureCmd_pending (s : State) (h : Hdr) (opcode : W16) (immediate : Bool) : (State.ensureCmd s h opcode immediate).pending = s.pending := by
  unfold State.ensureCmd; (try dsimp only); all_goals ((repeat' split) <;> simp_all)

@[simp] theorem State.reject_pending (s : State) (h : Hdr) (opcode : W16) (code : Status) : (State.reject s h opcode code).pending = s.pending := by
  unfold State.reject; (try dsimp only); all_goals ((repeat' split) <;> simp_all)

@[simp] theorem State.open'_pending (s : State) (h : Hdr) (n : Nat) : (State.open' s h n).pending = s.pending := by
  unfold State.open'; (try dsimp only); all_goals ((repeat' split) <;> simp_all)

theorem State.atOnce_pending (s : State) (h : Hdr) (opcode : W16) (f : State → State × Except Status (List Item × List Byte))
    (hf : ∀ s, (f s).1.pending = s.pending) : (s.atOnce h opcode f).pending = s.pending := by
  unfold State.atOnce; dsimp only
  have h2 := hf (s.ensureCmd h opcode true)
  repeat' split
  all_goals simp_all

theorem State.queued_pending (s : State) (h : Hdr) (opcode : W16) (cmd : Instr) (check : State → Option Status) (items : State → Nat) (f : State → State)
    (hf : ∀ s, (f s).pending = s.pending) : (s.queued h opcode cmd check items f).pending = s.pending := by
  unfold State.queued; dsimp only
  repeat' split
  all_goals simp_all

@[simp] theorem State.noteLocal_pending (s : State) (p : PtnId) (mc : Nat) (kind : Nat) : (State.noteLocal s p mc kind).pending = s.pending := by
  unfold State.noteLocal; (try dsimp only); all_goals ((repeat' split) <;> simp_all)

@[simp] theorem State.failLaunch_pending (s : State) (id : Nat) (code : Status) : (State.failLaunch s id code).pending = s.pending := by
  unfold State.failLaunch; (try rw [keeps_next]); (try dsimp only); ((repeat' split) <;> (try simp only [Prod.ext_iff] at *) <;> (try casesm* _ ∧ _) <;> (try subst_vars) <;> (try simp_all) <;> (repeat' (first | rw [foldl_pending] | rw [foldl_fst_pending])) <;> (try intros) <;> (try dsimp only) <;> ((repeat' split) <;> simp_all))

@[simp] theorem State.threadFault_pending (s : State) (t : ThreadId) (code : Status) : (State.threadFault s t code).pending = s.pending := by
  unfold State.threadFault; (try dsimp only); all_goals ((repeat' split) <;> simp_all)

@[simp] theorem State.localStop_pending (s : State) (t : ThreadId) (l : Launch) (kind : Nat) : (State.localStop s t l kind).pending = s.pending := by
  unfold State.localStop; (try dsimp only); all_goals ((repeat' split) <;> simp_all)

@[simp] theorem State.noIssue_pending (s : State) (t : ThreadId) (l : Launch) (regs : List (BitVec 5)) (bad : Bool) : (State.noIssue s t l regs bad).pending = s.pending := by
  unfold State.noIssue; (try dsimp only); all_goals ((repeat' split) <;> simp_all)

@[simp] theorem State.threadEv_pending (s : State) (t : ThreadId) (e : Ev) : (State.threadEv s t e).pending = s.pending := by
  unfold State.threadEv; (try dsimp only); all_goals ((repeat' split) <;> simp_all)

@[simp] theorem State.alu_pending (s : State) (t : ThreadId) (w : IWord) (op : Nat) (regs : IWord → List (BitVec 5)) (f : Launch → IWord → Thread → W32 × Ev) : (State.alu s t w op regs f).pending = s.pending := by
  unfold State.alu; (try dsimp only); all_goals ((repeat' split) <;> simp_all)

@[simp] theorem State.intOp_pending (s : State) (t : ThreadId) (w : IWord) (op : Nat) (f : Nat → W32 → W32 → W32) : (State.intOp s t w op f).pending = s.pending := by
  unfold State.intOp; (try dsimp only); all_goals ((repeat' split) <;> simp_all)

@[simp] theorem State.fltOp_pending (s : State) (t : ThreadId) (w : IWord) (op : Nat) (f : LFmt → Nat → Nat → Nat × Ev) : (State.fltOp s t w op f).pending = s.pending := by
  unfold State.fltOp; (try dsimp only); all_goals ((repeat' split) <;> simp_all)

@[simp] theorem State.predOp_pending (s : State) (t : ThreadId) (w : IWord) (op : Nat) (regs : IWord → List (BitVec 5)) (f : IWord → Thread → Bool) : (State.predOp s t w op regs f).pending = s.pending := by
  unfold State.predOp; (try dsimp only); all_goals ((repeat' split) <;> simp_all)

@[simp] theorem State.cmpOp_pending (s : State) (t : ThreadId) (w : IWord) (op : Nat) (r : Rel) : (State.cmpOp s t w op r).pending = s.pending := by
  unfold State.cmpOp; (try dsimp only); all_goals ((repeat' split) <;> simp_all)

@[simp] theorem State.nextPc_pending (s : State) (t : ThreadId) : (State.nextPc s t).pending = s.pending := by
  unfold State.nextPc; (try dsimp only); all_goals ((repeat' split) <;> simp_all)

@[simp] theorem State.placeFault_pending (s : State) (t : ThreadId) (l : Launch) (pl : Place) (write : Bool) (c : Status × Option (BitVec 4)) : (State.placeFault s t l pl write c).pending = s.pending := by
  unfold State.placeFault; (try dsimp only); all_goals ((repeat' split) <;> simp_all)

@[simp] theorem State.masked_pending (s : State) (t : ThreadId) (w : IWord) : (State.masked s t w).pending = s.pending := by
  unfold State.masked; (try dsimp only); all_goals ((repeat' split) <;> simp_all)

theorem State.issue_pending (s : State) (t : ThreadId) (w : IWord) (op : Nat) (regs : IWord → List (BitVec 5)) (f : Launch → IWord → State)
    (hf : ∀ l w, (f l w).pending = s.pending) : (s.issue t w op regs f).pending = s.pending := by
  unfold State.issue; dsimp only; (repeat' split) <;> simp_all

theorem execLd_pending (t : ThreadId) (w : IWord) (s : State) : Keeps (execLd t w s) s := by
  unfold execLd; (try rw [keeps_next]); (first | apply State.issue_pending | apply State.atOnce_pending | apply State.queued_pending); intros; (try dsimp only); all_goals ((repeat' split) <;> (try simp only [Prod.ext_iff] at *) <;> (try casesm* _ ∧ _) <;> (try subst_vars) <;> ((repeat' split) <;> simp_all))

theorem execSt_pending (t : ThreadId) (w : IWord) (s : State) : Keeps (execSt t w s) s := by
  unfold execSt; (try rw [keeps_next]); (first | apply State.issue_pending | apply State.atOnce_pending | apply State.queued_pending); intros; (try dsimp only); all_goals ((repeat' split) <;> (try simp only [Prod.ext_iff] at *) <;> (try casesm* _ ∧ _) <;> (try subst_vars) <;> ((repeat' split) <;> simp_all))

theorem execProm_pending (t : ThreadId) (w : IWord) (s : State) : Keeps (execProm t w s) s := by
  unfold execProm; (try rw [keeps_next]); (first | apply State.issue_pending | apply State.atOnce_pending | apply State.queued_pending); intros; (try dsimp only); all_goals ((repeat' split) <;> simp_all)

theorem execLoadReturn_pending (t : ThreadId) (k : Fin 8) (s : State) : Keeps (execLoadReturn t k s) s := by
  unfold execLoadReturn; (try dsimp only); all_goals ((repeat' split) <;> simp_all)

theorem execBr_pending (t : ThreadId) (w : IWord) (s : State) : Keeps (execBr t w s) s := by
  unfold execBr; (try rw [keeps_next]); (first | apply State.issue_pending | apply State.atOnce_pending | apply State.queued_pending); intros; (try dsimp only); all_goals ((repeat' split) <;> simp_all)

theorem execBar_pending (t : ThreadId) (w : IWord) (s : State) : Keeps (execBar t w s) s := by
  unfold execBar; (try rw [keeps_next]); (first | apply State.issue_pending | apply State.atOnce_pending | apply State.queued_pending); intros; (try dsimp only); all_goals ((repeat' split) <;> simp_all)

theorem execBarRelease_pending (launch : Nat) (mc : McId) (s : State) : Keeps (execBarRelease launch mc s) s := by
  unfold execBarRelease; (try rw [keeps_next]); (try dsimp only); ((repeat' split) <;> (try simp only [Prod.ext_iff] at *) <;> (try casesm* _ ∧ _) <;> (try subst_vars) <;> (try simp_all) <;> (repeat' (first | rw [foldl_pending] | rw [foldl_fst_pending])) <;> (try intros) <;> (try dsimp only) <;> ((repeat' split) <;> simp_all))

@[simp] theorem State.semTake_pending (s : State) (p : PtnId) (q : QueueId) (n : SemId) : (State.semTake s p q n).pending = s.pending := by
  unfold State.semTake; (try dsimp only); all_goals ((repeat' split) <;> simp_all)

@[simp] theorem State.semPost_pending (s : State) (p : PtnId) (q : QueueId) (n : SemId) : (State.semPost s p q n).pending = s.pending := by
  unfold State.semPost; (try dsimp only); all_goals ((repeat' split) <;> simp_all)

@[simp] theorem State.serve_pending (s : State) (p : PtnId) (n : SemId) (w : QueueId × Nat) : (s.serve p n w).pending = s.pending := by
  unfold State.serve; (repeat' split) <;> simp

theorem execSwait_pending (t : ThreadId) (w : IWord) (s : State) : Keeps (execSwait t w s) s := by
  unfold execSwait; (try rw [keeps_next]); (first | apply State.issue_pending | apply State.atOnce_pending | apply State.queued_pending); intros; (try dsimp only); all_goals ((repeat' split) <;> simp_all)

theorem execSpost_pending (t : ThreadId) (w : IWord) (s : State) : Keeps (execSpost t w s) s := by
  unfold execSpost; (try rw [keeps_next]); (first | apply State.issue_pending | apply State.atOnce_pending | apply State.queued_pending); intros; (try dsimp only); all_goals ((repeat' split) <;> simp_all)

theorem execSemaphoreAcquire_pending (p : PtnId) (sem : SemId) (s : State) : Keeps (execSemaphoreAcquire p sem s) s := by
  unfold execSemaphoreAcquire; (try dsimp only); all_goals ((repeat' split) <;> simp_all)

theorem execSumry_pending (t : ThreadId) (w : IWord) (s : State) : Keeps (execSumry t w s) s := by
  unfold execSumry; (try rw [keeps_next]); (first | apply State.issue_pending | apply State.atOnce_pending | apply State.queued_pending); intros; (try dsimp only); all_goals ((repeat' split) <;> simp_all)

theorem execEndThread_pending (t : ThreadId) (w : IWord) (s : State) : Keeps (execEndThread t w s) s := by
  unfold execEndThread; (try rw [keeps_next]); (first | apply State.issue_pending | apply State.atOnce_pending | apply State.queued_pending); intros; (try dsimp only); all_goals ((repeat' split) <;> simp_all)

theorem execStreamDone_pending (t : ThreadId) (s : State) : Keeps (execStreamDone t s) s := by
  unfold execStreamDone; (try dsimp only); all_goals ((repeat' split) <;> simp_all)

theorem execTewait_pending (t : ThreadId) (w : IWord) (s : State) : Keeps (execTewait t w s) s := by
  unfold execTewait; (try rw [keeps_next]); (first | apply State.issue_pending | apply State.atOnce_pending | apply State.queued_pending); intros; (try dsimp only); all_goals ((repeat' split) <;> simp_all)

theorem execNopInstruction_pending (t : ThreadId) (w : IWord) (s : State) : Keeps (execNopInstruction t w s) s := by
  unfold execNopInstruction; (try rw [keeps_next]); (first | apply State.issue_pending | apply State.atOnce_pending | apply State.queued_pending); intros; (try dsimp only); all_goals ((repeat' split) <;> simp_all)

theorem execMov_pending (t : ThreadId) (w : IWord) (s : State) : Keeps (execMov t w s) s := by
  unfold execMov; (try dsimp only); all_goals ((repeat' split) <;> simp_all)

theorem execAdd_pending (t : ThreadId) (w : IWord) (s : State) : Keeps (execAdd t w s) s := by
  unfold execAdd; (try dsimp only); all_goals ((repeat' split) <;> simp_all)

theorem execSub_pending (t : ThreadId) (w : IWord) (s : State) : Keeps (execSub t w s) s := by
  unfold execSub; (try dsimp only); all_goals ((repeat' split) <;> simp_all)

theorem execMul_pending (t : ThreadId) (w : IWord) (s : State) : Keeps (execMul t w s) s := by
  unfold execMul; (try dsimp only); all_goals ((repeat' split) <;> simp_all)

theorem execAnd_pending (t : ThreadId) (w : IWord) (s : State) : Keeps (execAnd t w s) s := by
  unfold execAnd; (try dsimp only); all_goals ((repeat' split) <;> simp_all)

theorem execOr_pending (t : ThreadId) (w : IWord) (s : State) : Keeps (execOr t w s) s := by
  unfold execOr; (try dsimp only); all_goals ((repeat' split) <;> simp_all)

theorem execXor_pending (t : ThreadId) (w : IWord) (s : State) : Keeps (execXor t w s) s := by
  unfold execXor; (try dsimp only); all_goals ((repeat' split) <;> simp_all)

theorem execShl_pending (t : ThreadId) (w : IWord) (s : State) : Keeps (execShl t w s) s := by
  unfold execShl; (try dsimp only); all_goals ((repeat' split) <;> simp_all)

theorem execShr_pending (t : ThreadId) (w : IWord) (s : State) : Keeps (execShr t w s) s := by
  unfold execShr; (try dsimp only); all_goals ((repeat' split) <;> simp_all)

theorem execSra_pending (t : ThreadId) (w : IWord) (s : State) : Keeps (execSra t w s) s := by
  unfold execSra; (try dsimp only); all_goals ((repeat' split) <;> simp_all)

theorem execImin_pending (t : ThreadId) (w : IWord) (s : State) : Keeps (execImin t w s) s := by
  unfold execImin; (try dsimp only); all_goals ((repeat' split) <;> simp_all)

theorem execImax_pending (t : ThreadId) (w : IWord) (s : State) : Keeps (execImax t w s) s := by
  unfold execImax; (try dsimp only); all_goals ((repeat' split) <;> simp_all)

theorem execScl_pending (t : ThreadId) (w : IWord) (s : State) : Keeps (execScl t w s) s := by
  unfold execScl; (try dsimp only); all_goals ((repeat' split) <;> simp_all)

theorem execFadd_pending (t : ThreadId) (w : IWord) (s : State) : Keeps (execFadd t w s) s := by
  unfold execFadd; (try dsimp only); all_goals ((repeat' split) <;> simp_all)

theorem execFsub_pending (t : ThreadId) (w : IWord) (s : State) : Keeps (execFsub t w s) s := by
  unfold execFsub; (try dsimp only); all_goals ((repeat' split) <;> simp_all)

theorem execFmul_pending (t : ThreadId) (w : IWord) (s : State) : Keeps (execFmul t w s) s := by
  unfold execFmul; (try dsimp only); all_goals ((repeat' split) <;> simp_all)

theorem execFfma_pending (t : ThreadId) (w : IWord) (s : State) : Keeps (execFfma t w s) s := by
  unfold execFfma; (try dsimp only); all_goals ((repeat' split) <;> simp_all)

theorem execFdiv_pending (t : ThreadId) (w : IWord) (s : State) : Keeps (execFdiv t w s) s := by
  unfold execFdiv; (try dsimp only); all_goals ((repeat' split) <;> simp_all)

@[simp] theorem State.flt1_pending (s : State) (t : ThreadId) (w : IWord) (op : Nat) (f : LFmt → Nat → Nat × Ev) : (State.flt1 s t w op f).pending = s.pending := by
  unfold State.flt1; (try dsimp only); all_goals ((repeat' split) <;> simp_all)

theorem execFsqrt_pending (t : ThreadId) (w : IWord) (s : State) : Keeps (execFsqrt t w s) s := by
  unfold execFsqrt; (try dsimp only); all_goals ((repeat' split) <;> simp_all)

theorem execFmax_pending (t : ThreadId) (w : IWord) (s : State) : Keeps (execFmax t w s) s := by
  unfold execFmax; (try dsimp only); all_goals ((repeat' split) <;> simp_all)

theorem execFmin_pending (t : ThreadId) (w : IWord) (s : State) : Keeps (execFmin t w s) s := by
  unfold execFmin; (try dsimp only); all_goals ((repeat' split) <;> simp_all)

theorem execFabs_pending (t : ThreadId) (w : IWord) (s : State) : Keeps (execFabs t w s) s := by
  unfold execFabs; (try dsimp only); all_goals ((repeat' split) <;> simp_all)

theorem execFneg_pending (t : ThreadId) (w : IWord) (s : State) : Keeps (execFneg t w s) s := by
  unfold execFneg; (try dsimp only); all_goals ((repeat' split) <;> simp_all)

theorem execExp2_pending (t : ThreadId) (w : IWord) (s : State) : Keeps (execExp2 t w s) s := by
  unfold execExp2; (try dsimp only); all_goals ((repeat' split) <;> simp_all)

theorem execLog2_pending (t : ThreadId) (w : IWord) (s : State) : Keeps (execLog2 t w s) s := by
  unfold execLog2; (try dsimp only); all_goals ((repeat' split) <;> simp_all)

theorem execCeq_pending (t : ThreadId) (w : IWord) (s : State) : Keeps (execCeq t w s) s := by
  unfold execCeq; (try dsimp only); all_goals ((repeat' split) <;> simp_all)

theorem execCne_pending (t : ThreadId) (w : IWord) (s : State) : Keeps (execCne t w s) s := by
  unfold execCne; (try dsimp only); all_goals ((repeat' split) <;> simp_all)

theorem execClt_pending (t : ThreadId) (w : IWord) (s : State) : Keeps (execClt t w s) s := by
  unfold execClt; (try dsimp only); all_goals ((repeat' split) <;> simp_all)

theorem execCle_pending (t : ThreadId) (w : IWord) (s : State) : Keeps (execCle t w s) s := by
  unfold execCle; (try dsimp only); all_goals ((repeat' split) <;> simp_all)

theorem execCun_pending (t : ThreadId) (w : IWord) (s : State) : Keeps (execCun t w s) s := by
  unfold execCun; (try dsimp only); all_goals ((repeat' split) <;> simp_all)

theorem execCgt_pending (t : ThreadId) (w : IWord) (s : State) : Keeps (execCgt t w s) s := by
  unfold execCgt; (try dsimp only); all_goals ((repeat' split) <;> simp_all)

theorem execCge_pending (t : ThreadId) (w : IWord) (s : State) : Keeps (execCge t w s) s := by
  unfold execCge; (try dsimp only); all_goals ((repeat' split) <;> simp_all)

theorem execSel_pending (t : ThreadId) (w : IWord) (s : State) : Keeps (execSel t w s) s := by
  unfold execSel; (try rw [keeps_next]); (first | apply State.issue_pending | apply State.atOnce_pending | apply State.queued_pending); intros; (try dsimp only); all_goals ((repeat' split) <;> simp_all)

theorem execKand_pending (t : ThreadId) (w : IWord) (s : State) : Keeps (execKand t w s) s := by
  unfold execKand; (try dsimp only); all_goals ((repeat' split) <;> simp_all)

theorem execKor_pending (t : ThreadId) (w : IWord) (s : State) : Keeps (execKor t w s) s := by
  unfold execKor; (try dsimp only); all_goals ((repeat' split) <;> simp_all)

theorem execKnot_pending (t : ThreadId) (w : IWord) (s : State) : Keeps (execKnot t w s) s := by
  unfold execKnot; (try dsimp only); all_goals ((repeat' split) <;> simp_all)

theorem execCvt_pending (t : ThreadId) (w : IWord) (s : State) : Keeps (execCvt t w s) s := by
  unfold execCvt; (try rw [keeps_next]); (first | apply State.issue_pending | apply State.atOnce_pending | apply State.queued_pending); intros; (try dsimp only); all_goals ((repeat' split) <;> simp_all)

@[simp] theorem State.streamRead_pending (s : State) (l : Launch) (mc : Nat) (r : SRange) : (State.streamRead s l mc r).1.pending = s.pending := by
  unfold State.streamRead; (try dsimp only); all_goals ((repeat' split) <;> simp_all)

@[simp] theorem State.streamWrite_pending (s : State) (l : Launch) (mc : Nat) (r : SRange) (bs : List Byte) : (State.streamWrite s l mc r bs).1.pending = s.pending := by
  unfold State.streamWrite; (try dsimp only); all_goals ((repeat' split) <;> simp_all)

@[simp] theorem State.streamReads_pending (s : State) (l : Launch) (mc : Nat) (z0 : List SRange) : (State.streamReads s l mc z0).1.pending = s.pending := by
  fun_induction State.streamReads s l mc z0 <;> (try simp only [Prod.ext_iff] at *) <;> (try casesm* _ ∧ _) <;> (try subst_vars) <;> ((repeat' split) <;> simp_all)

@[simp] theorem State.streamWrites_pending (s : State) (l : Launch) (mc : Nat) (z0 : List (SRange × List Byte)) : (State.streamWrites s l mc z0).1.pending = s.pending := by
  fun_induction State.streamWrites s l mc z0 <;> (try simp only [Prod.ext_iff] at *) <;> (try casesm* _ ∧ _) <;> (try subst_vars) <;> ((repeat' split) <;> simp_all)

@[simp] theorem State.streamSource_pending (s : State) (l : Launch) (mc : Nat) (d : SDesc) : (State.streamSource s l mc d).1.pending = s.pending := by
  unfold State.streamSource; (try dsimp only); all_goals ((repeat' split) <;> (try simp only [Prod.ext_iff] at *) <;> (try casesm* _ ∧ _) <;> (try subst_vars) <;> ((repeat' split) <;> simp_all))

@[simp] theorem State.streamWait_pending (s : State) (t : ThreadId) (d : Option (BitVec 5)) (v : W32) (grouped : Bool) : (State.streamWait s t d v grouped).pending = s.pending := by
  unfold State.streamWait; (try dsimp only); all_goals ((repeat' split) <;> simp_all)

@[simp] theorem State.streamFail_pending (s : State) (t : ThreadId) (l : Launch) (f : SFail) : (State.streamFail s t l f).pending = s.pending := by
  unfold State.streamFail; (try dsimp only); all_goals ((repeat' split) <;> simp_all)

theorem State.streamIssue_pending (s : State) (t : ThreadId) (w : IWord) (op : Nat) (f : Launch → IWord → SDesc → State)
    (hf : ∀ l w d, (f l w d).pending = s.pending) : (s.streamIssue t w op f).pending = s.pending := by
  unfold State.streamIssue
  apply State.issue_pending; intros; dsimp only; (repeat' split) <;> simp_all

theorem execScvt_pending (t : ThreadId) (w : IWord) (s : State) : Keeps (execScvt t w s) s := by
  unfold execScvt; (try rw [keeps_next]); (first | apply State.issue_pending | apply State.streamIssue_pending | apply State.atOnce_pending | apply State.queued_pending); intros; (try dsimp only); all_goals ((repeat' split) <;> (try simp only [Prod.ext_iff] at *) <;> (try casesm* _ ∧ _) <;> (try subst_vars) <;> ((repeat' split) <;> simp_all))

theorem execSred_pending (t : ThreadId) (w : IWord) (s : State) : Keeps (execSred t w s) s := by
  unfold execSred; (try rw [keeps_next]); (first | apply State.issue_pending | apply State.streamIssue_pending | apply State.atOnce_pending | apply State.queued_pending); intros; (try dsimp only); all_goals ((repeat' split) <;> (try simp only [Prod.ext_iff] at *) <;> (try casesm* _ ∧ _) <;> (try subst_vars) <;> ((repeat' split) <;> simp_all))

theorem execSmove_pending (t : ThreadId) (w : IWord) (s : State) : Keeps (execSmove t w s) s := by
  unfold execSmove; (try rw [keeps_next]); (first | apply State.issue_pending | apply State.streamIssue_pending | apply State.atOnce_pending | apply State.queued_pending); intros; (try dsimp only); all_goals ((repeat' split) <;> (try simp only [Prod.ext_iff] at *) <;> (try casesm* _ ∧ _) <;> (try subst_vars) <;> ((repeat' split) <;> simp_all))

theorem execAtx_pending (t : ThreadId) (w : IWord) (s : State) : Keeps (execAtx t w s) s := by
  unfold execAtx; (try rw [keeps_next]); (first | apply State.issue_pending | apply State.streamIssue_pending | apply State.atOnce_pending | apply State.queued_pending); intros; (try dsimp only); all_goals ((repeat' split) <;> (try simp only [Prod.ext_iff] at *) <;> (try casesm* _ ∧ _) <;> (try subst_vars) <;> ((repeat' split) <;> simp_all))

@[simp] theorem State.updSaved_pending (s : State) (w : TeWork) (f : SavedCore → SavedCore) : (State.updSaved s w f).pending = s.pending := by
  unfold State.updSaved; (try dsimp only); all_goals ((repeat' split) <;> simp_all)

@[simp] theorem State.updThread_pending (s : State) (w : TeWork) (t : Nat) (f : Thread → Thread) : (State.updThread s w t f).pending = s.pending := by
  unfold State.updThread; (try dsimp only); all_goals ((repeat' split) <;> simp_all)

@[simp] theorem State.teRead_pending (s : State) (te : Nat) (w : TeWork) (space : Nat) (a : Nat) (n : Nat) : (State.teRead s te w space a n).1.pending = s.pending := by
  unfold State.teRead; (try dsimp only); all_goals ((repeat' split) <;> simp_all)

@[simp] theorem State.teWrite_pending (s : State) (te : Nat) (w : TeWork) (space : Nat) (a : Nat) (bs : List Byte) : (State.teWrite s te w space a bs).1.pending = s.pending := by
  unfold State.teWrite; (try dsimp only); all_goals ((repeat' split) <;> simp_all)

@[simp] theorem State.teCount_pending (s : State) (w : TeWork) (e : Sheet) : (s.teCount w e).pending = s.pending := by simp [State.teCount]

theorem teLoop_pending (w : TeWork) (f : Nat → State → Acc Sheet) (hf : ∀ i s, (f i s).1.pending = s.pending) (n i : Nat) (s : State) (sh : Sheet) :
    (teLoop w f n i s sh).1.pending = s.pending := by
  induction n generalizing i s sh with
  | zero => rfl
  | succ n ih =>
    unfold teLoop
    split
    · rw [State.teCount_pending]; exact fst_pending ‹_› (hf i s)
    · rw [ih]; exact fst_pending ‹_› (hf i s)

@[simp] theorem State.teIndex_pending (s : State) (te : Nat) (w : TeWork) (i : Nat) : (State.teIndex s te w i).1.pending = s.pending := by
  unfold State.teIndex; (try dsimp only); all_goals ((repeat' split) <;> (try simp only [Prod.ext_iff] at *) <;> (try casesm* _ ∧ _) <;> (try subst_vars) <;> ((repeat' split) <;> simp_all))

@[simp] theorem State.teRow_pending (s : State) (te : Nat) (w : TeWork) (idx : Nat) : (State.teRow s te w idx).1.pending = s.pending := by
  unfold State.teRow; (try dsimp only); all_goals ((repeat' split) <;> simp_all)

@[simp] theorem State.gatherRow_pending (s : State) (te : Nat) (w : TeWork) (i : Nat) : (State.gatherRow s te w i).1.pending = s.pending := by
  unfold State.gatherRow; (try dsimp only); all_goals ((repeat' split) <;> (try simp only [Prod.ext_iff] at *) <;> (try casesm* _ ∧ _) <;> (try subst_vars) <;> ((repeat' split) <;> simp_all))

@[simp] theorem State.bagRows_pending (s : State) (te : Nat) (w : TeWork) (z0 : Nat) (z1 : Nat) : (State.bagRows s te w z0 z1).1.pending = s.pending := by
  fun_induction State.bagRows s te w z0 z1 <;> (try simp only [Prod.ext_iff] at *) <;> (try casesm* _ ∧ _) <;> (try subst_vars) <;> ((repeat' split) <;> simp_all)

@[simp] theorem State.poolBag_pending (s : State) (te : Nat) (w : TeWork) (b : Nat) : (State.poolBag s te w b).1.pending = s.pending := by
  unfold State.poolBag; (try dsimp only); all_goals ((repeat' split) <;> (try simp only [Prod.ext_iff] at *) <;> (try casesm* _ ∧ _) <;> (try subst_vars) <;> ((repeat' split) <;> simp_all))

@[simp] theorem State.scatterRow_pending (s : State) (te : Nat) (w : TeWork) (i : Nat) : (State.scatterRow s te w i).1.pending = s.pending := by
  unfold State.scatterRow; (try dsimp only); all_goals ((repeat' split) <;> (try simp only [Prod.ext_iff] at *) <;> (try casesm* _ ∧ _) <;> (try subst_vars) <;> ((repeat' split) <;> simp_all))

@[simp] theorem State.teVector_pending (s : State) (te : Nat) (w : TeWork) : (State.teVector s te w).1.pending = s.pending := by
  unfold State.teVector; (try dsimp only); all_goals ((repeat' split) <;> (try simp only [Prod.ext_iff] at *) <;> (try casesm* _ ∧ _) <;> (try subst_vars) <;> ((repeat' split) <;> simp_all))

@[simp] theorem State.topkAll_pending (s : State) (te : Nat) (w : TeWork) : (State.topkAll s te w).1.pending = s.pending := by
  unfold State.topkAll; (try dsimp only); all_goals ((repeat' split) <;> (try simp only [Prod.ext_iff] at *) <;> (try casesm* _ ∧ _) <;> (try subst_vars) <;> ((repeat' split) <;> simp_all))

@[simp] theorem State.lseAllReq_pending (s : State) (te : Nat) (w : TeWork) : (State.lseAllReq s te w).1.pending = s.pending := by
  unfold State.lseAllReq; (try dsimp only); all_goals ((repeat' split) <;> (try simp only [Prod.ext_iff] at *) <;> (try casesm* _ ∧ _) <;> (try subst_vars) <;> ((repeat' split) <;> simp_all))

@[simp] theorem State.teDone_pending (s : State) (te k : Nat) (w : TeWork) (r : Acc Sheet) : (s.teDone te k w r).pending = r.1.pending := by
  unfold State.teDone; dsimp only; (repeat' split) <;> simp

theorem State.teExec_pending (s : State) (te k op : Nat) (f : TeWork → Acc Sheet) (hf : ∀ w, (f w).1.pending = s.pending) :
    (s.teExec te k op f).pending = s.pending := by
  unfold State.teExec; (repeat' split) <;> simp [hf]

theorem execGather_pending (te : TeId) (k : Nat) (s : State) : Keeps (execGather te k s) s :=
  ⟨_, rfl, State.teExec_pending _ _ _ _ _ fun _ => teLoop_pending _ _ (fun _ _ => by simp) _ _ _ _⟩

theorem execPool_pending (te : TeId) (k : Nat) (s : State) : Keeps (execPool te k s) s :=
  ⟨_, rfl, State.teExec_pending _ _ _ _ _ fun _ => teLoop_pending _ _ (fun _ _ => by simp) _ _ _ _⟩

theorem execScatterAdd_pending (te : TeId) (k : Nat) (s : State) : Keeps (execScatterAdd te k s) s :=
  ⟨_, rfl, State.teExec_pending _ _ _ _ _ fun _ => teLoop_pending _ _ (fun _ _ => by simp) _ _ _ _⟩

theorem execTopk_pending (te : TeId) (k : Nat) (s : State) : Keeps (execTopk te k s) s :=
  ⟨_, rfl, State.teExec_pending _ _ _ _ _ fun _ => by simp⟩

theorem execLse_pending (te : TeId) (k : Nat) (s : State) : Keeps (execLse te k s) s :=
  ⟨_, rfl, State.teExec_pending _ _ _ _ _ fun _ => by simp⟩

theorem execTeRequestComplete_pending (te : TeId) (k : Nat) (s : State) : Keeps (execTeRequestComplete te k s) s := by
  unfold execTeRequestComplete; (try dsimp only); all_goals ((repeat' split) <;> simp_all)

theorem execTereq_pending (t : ThreadId) (w : IWord) (s : State) : Keeps (execTereq t w s) s := by
  unfold execTereq; (try rw [keeps_next]); (first | apply State.issue_pending | apply State.streamIssue_pending | apply State.atOnce_pending | apply State.queued_pending); intros; (try dsimp only); all_goals ((repeat' split) <;> simp_all)

@[simp] theorem State.updQp_pending (s : State) (n : QpId) (f : QPort → QPort) : (State.updQp s n f).pending = s.pending := rfl

@[simp] theorem State.drainQps_pending (s : State) : s.drainQps.pending = s.pending := by
  unfold State.drainQps; rw [foldl_pending]; intro s n; rfl

@[simp] theorem State.reserve_pending (s : State) (p : PtnId) (neg : Bool) (k : Nat) : (s.reserve p neg k).pending = s.pending := by
  unfold State.reserve; rw [State.drainQps_pending, foldl_pending]; intro s n; rfl

@[simp] theorem State.stampPkt_pending (s : State) (k : QPkt) : (State.stampPkt s k).1.pending = s.pending := by
  unfold State.stampPkt; (try dsimp only); all_goals ((repeat' split) <;> simp_all)

@[simp] theorem State.sendAll_pending (s : State) (ports : List QpId) (i : Nat) (ks : List QPkt) : (s.sendAll ports i ks).pending = s.pending := by
  induction ks generalizing s i with
  | nil => rfl
  | cons k ks ih => unfold State.sendAll; split <;> simp [ih]

@[simp] theorem State.sendPkts_pending (s : State) (mask : BitVec 48) (ks : List QPkt) : (State.sendPkts s mask ks).pending = s.pending := by
  unfold State.sendPkts; (try dsimp only); all_goals ((repeat' split) <;> simp_all)

@[simp] theorem State.dropPkt_pending (s : State) (qp : QpId) : (State.dropPkt s qp).pending = s.pending := by
  unfold State.dropPkt; (try dsimp only); all_goals ((repeat' split) <;> simp_all)

@[simp] theorem State.stageCmd_pending (s : State) (h : Hdr) : (State.stageCmd s h).pending = s.pending := by
  unfold State.stageCmd; (try dsimp only); all_goals ((repeat' split) <;> simp_all)

@[simp] theorem State.reshare_pending (s : State) : (State.reshare s).pending = s.pending := by
  unfold State.reshare; (try dsimp only); all_goals ((repeat' split) <;> simp_all)

@[simp] theorem State.fetchShort_pending (s : State) (p : PtnId) (mc : Nat) (t : TensorDesc) (binds : List W64) (r0 r1 c0 c1 n sl : Nat) :
    (s.fetchShort p mc t binds r0 r1 c0 c1 n sl).1.pending = s.pending := by
  induction n generalizing s sl with
  | zero => rfl
  | succ n ih =>
    unfold State.fetchShort; dsimp only
    (repeat' split) <;> simp only [Prod.ext_iff] at * <;> (casesm* _ ∧ _) <;> subst_vars <;> simp_all

@[simp] theorem State.formedOf_pending (s : State) (h : Hdr) (mc : Nat) (t : TensorDesc) (binds : List W64) (k : Nat) : (State.formedOf s h mc t binds k).1.pending = s.pending := by
  unfold State.formedOf; (try dsimp only); all_goals ((repeat' split) <;> (try simp only [Prod.ext_iff] at *) <;> (try casesm* _ ∧ _) <;> (try subst_vars) <;> ((repeat' split) <;> simp_all))

@[simp] theorem State.copyOf_pending (s : State) (h : Hdr) (mc : Nat) (q4f : Bool) (streamed : Bool) (t : TensorDesc) (binds : List W64) : (State.copyOf s h mc q4f streamed t binds).1.pending = s.pending := by
  unfold State.copyOf; (try dsimp only); all_goals ((repeat' split) <;> (try simp only [Prod.ext_iff] at *) <;> (try casesm* _ ∧ _) <;> (try subst_vars) <;> ((repeat' split) <;> simp_all))

@[simp] theorem State.fetch_pending (s : State) (h : Hdr) (mc : Nat) (t : TensorDesc) (binds : List W64) (k : Nat) (passes : Nat) (r0 : Nat) (r1 : Nat) (c0 : Nat) (c1 : Nat) : (State.fetch s h mc t binds k passes r0 r1 c0 c1).1.pending = s.pending := by
  unfold State.fetch; (try dsimp only); all_goals ((repeat' split) <;> (try simp only [Prod.ext_iff] at *) <;> (try casesm* _ ∧ _) <;> (try subst_vars) <;> ((repeat' split) <;> simp_all))

@[simp] theorem State.fetchOp_pending (s : State) (h : Hdr) (mc : Nat) (basic : Bool) (q4f : Bool) (streamed : Bool) (turned : Bool) (t : TensorDesc) (binds : List W64) (k : Nat) (passes : Nat) (r0 : Nat) (r1 : Nat) (c0 : Nat) (c1 : Nat) : (State.fetchOp s h mc basic q4f streamed turned t binds k passes r0 r1 c0 c1).1.pending = s.pending := by
  unfold State.fetchOp; (try dsimp only); all_goals ((repeat' split) <;> (try simp only [Prod.ext_iff] at *) <;> (try casesm* _ ∧ _) <;> (try subst_vars) <;> ((repeat' split) <;> simp_all))

theorem State.takeRecord_pending {s t : State} {h : Hdr} {mc : Nat} {make : Nat → PlanRec} (e : s.takeRecord h mc make = some t) : t.pending = s.pending := by
  unfold State.takeRecord at e; dsimp only at e
  split at e
  · cases e
  · split at e
    · obtain ⟨_, _, rfl⟩ := Option.map_eq_some_iff.mp e; simp
    · cases e; rfl
    · cases e

@[simp] theorem State.failWork_pending (s : State) (h : Hdr) (item : Nat) (code : Status) : (s.failWork h item code).pending = s.pending := by
  have e : ∀ l : List Nat, (l.foldl (fun s n => s.updMc n MCore.endTile) s).pending = s.pending := fun l => foldl_pending _ (fun _ _ => by simp) l s
  unfold State.failWork; split <;> simp [e]

@[simp] theorem State.failRun_pending (s : State) (h : Hdr) (item mc : Nat) (code : Status) : (s.failRun h item mc code).pending = s.pending := by simp [State.failRun]

@[simp] theorem State.fetchS_pending (s : State) (h : Hdr) (mc : Nat) (basic : Bool) (d : RunDesc) (st : TensorDesc) (binds : List W64) (ks : Nat) : (s.fetchS h mc basic d st binds ks).1.pending = s.pending := by
  unfold State.fetchS; dsimp only; split <;> simp

@[simp] theorem State.fetchW_pending (s : State) (h : Hdr) (mc : Nat) (basic : Bool) (d : RunDesc) (wt : TensorDesc) (binds : List W64) (kw : Nat) : (s.fetchW h mc basic d wt binds kw).1.pending = s.pending := by
  unfold State.fetchW; dsimp only; split
  · rfl
  · split <;> (rename_i h3; refine fst_pending h3 ?_; split <;> simp)

@[simp] theorem State.arrayWork_pending (s : State) (h : Hdr) (item mc : Nat) (basic : Bool) (plan : Option Nat) (d : RunDesc) (st wt : TensorDesc) (x : Elem) (we : Option Elem) :
    (s.arrayWork h item mc basic plan d st wt x we).pending = s.pending := by
  unfold State.arrayWork; simp

@[simp] theorem State.doRun_pending (s : State) (h : Hdr) (item mc : Nat) (basic : Bool) (plan : Option Nat) (d : RunDesc) (st wt : TensorDesc) (binds : List W64) (ks kw : Nat) :
    (s.doRun h item mc basic plan d st wt binds ks kw).pending = s.pending := by
  unfold State.doRun
  split
  · rename_i h1
    rw [State.failRun_pending]
    exact fst_pending h1 (by simp)
  · rename_i s1 x h1
    have e1 : s1.pending = s.pending := fst_pending h1 (by simp)
    split
    · rename_i h2
      rw [State.failRun_pending]
      exact fst_pending h2 (by simp [e1])
    · rename_i s2 we h2
      have e2 : s2.pending = s.pending := fst_pending h2 (by simp [e1])
      split <;> simp [e2]

theorem execRun_pending (p : PtnId) (q : QueueId) (item : W16) (mc : McId) (d : RunDesc) (st wt : TensorDesc) (s : State) :
    Keeps (execRun p q item mc d st wt s) s := by
  unfold execRun; rw [keeps_next]
  split
  · rfl
  · extract_lets h n im basic ops s1
    have e1 : s1.pending = s.pending := by simp only [s1]; split <;> simp
    clear_value s1
    split
    · exact e1
    · split
      · simp [e1]
      · split
        · exact e1
        · rename_i h; have := State.takeRecord_pending h
          split <;> simp [this, e1]

theorem execRunRelease_pending (mc : McId) (s : State) : Keeps (execRunRelease mc s) s := by
  unfold execRunRelease; (try dsimp only); all_goals ((repeat' split) <;> simp_all)

theorem execSplit_pending (p : PtnId) (q : QueueId) (d : SplitDesc) (s : State) : Keeps (execSplit p q d s) s := by
  unfold execSplit; (try dsimp only); all_goals ((repeat' split) <;> simp_all)

@[simp] theorem State.moveTiles_pending (s : State) (d : SplitDesc) (a : Nat) (b : Nat) : (State.moveTiles s d a b).pending = s.pending := by
  unfold State.moveTiles; (try dsimp only); all_goals ((repeat' split) <;> simp_all)

@[simp] theorem State.mergeTiles_pending (s : State) (d : SplitDesc) (low : Nat) (high : Nat) : (State.mergeTiles s d low high).1.pending = s.pending := by
  unfold State.mergeTiles; (try dsimp only); all_goals ((repeat' split) <;> simp_all)

theorem execSplitHandoff_pending (p : PtnId) (q : QueueId) (part : Nat) (level : Nat) (s : State) : Keeps (execSplitHandoff p q part level s) s := by
  unfold execSplitHandoff; (try dsimp only); all_goals ((repeat' split) <;> simp_all)

theorem execWaitSem_pending (p : PtnId) (q : QueueId) (mc : McId) (sem : SemId) (s : State) : Keeps (execWaitSem p q mc sem s) s := by
  unfold execWaitSem; rw [keeps_next]
  (repeat' split) <;> (try rfl) <;> (rename_i h _; have := State.takeRecord_pending h; simpa)

theorem execPostSem_pending (p : PtnId) (q : QueueId) (mc : McId) (sem : SemId) (s : State) : Keeps (execPostSem p q mc sem s) s := by
  unfold execPostSem; rw [keeps_next]
  (repeat' split) <;> (try rfl) <;> (rename_i h; have := State.takeRecord_pending h; simpa)

theorem execNop_pending (h : Hdr) (s : State) : Keeps (execNop h s) s := by
  first
  | (unfold execNop; (try dsimp only); all_goals ((repeat' split) <;> simp_all); done)
  | (unfold execNop; (try dsimp only); all_goals ((repeat' split) <;> (try simp only [Prod.ext_iff] at *) <;> (try casesm* _ ∧ _) <;> (try subst_vars) <;> ((repeat' split) <;> simp_all)); done)
  | (unfold execNop; (try rw [keeps_next]); (first | apply State.issue_pending | apply State.streamIssue_pending | apply State.atOnce_pending | apply State.queued_pending); intros; (try dsimp only); all_goals ((repeat' split) <;> simp_all); done)
  | (unfold execNop; (try rw [keeps_next]); (first | apply State.issue_pending | apply State.streamIssue_pending | apply State.atOnce_pending | apply State.queued_pending); intros; (try dsimp only); all_goals ((repeat' split) <;> (try simp only [Prod.ext_iff] at *) <;> (try casesm* _ ∧ _) <;> (try subst_vars) <;> ((repeat' split) <;> simp_all)); done)
  | (unfold execNop; (try rw [keeps_next]); (try dsimp only); ((repeat' split) <;> (try simp only [Prod.ext_iff] at *) <;> (try casesm* _ ∧ _) <;> (try subst_vars) <;> (try simp_all) <;> (repeat' (first | rw [foldl_pending] | rw [foldl_fst_pending])) <;> (try intros) <;> (try dsimp only) <;> ((repeat' split) <;> simp_all)); done)
  | (unfold execNop; (try rw [keeps_next]); (try dsimp only); (repeat' split) <;> (try rw [keeps_next]) <;> (first | (first | apply State.issue_pending | apply State.streamIssue_pending | apply State.atOnce_pending | apply State.queued_pending) | skip) <;> (try intros) <;> (try dsimp only) <;> ((repeat' split) <;> (try simp only [Prod.ext_iff] at *) <;> (try casesm* _ ∧ _) <;> (try subst_vars) <;> (try simp_all) <;> (repeat' (first | rw [foldl_pending] | rw [foldl_fst_pending])) <;> (try intros) <;> (try dsimp only) <;> ((repeat' split) <;> simp_all)))

theorem execEcho_pending (h : Hdr) (bytes : List Byte) (s : State) : Keeps (execEcho h bytes s) s := by
  first
  | (unfold execEcho; (try dsimp only); all_goals ((repeat' split) <;> simp_all); done)
  | (unfold execEcho; (try dsimp only); all_goals ((repeat' split) <;> (try simp only [Prod.ext_iff] at *) <;> (try casesm* _ ∧ _) <;> (try subst_vars) <;> ((repeat' split) <;> simp_all)); done)
  | (unfold execEcho; (try rw [keeps_next]); (first | apply State.issue_pending | apply State.streamIssue_pending | apply State.atOnce_pending | apply State.queued_pending); intros; (try dsimp only); all_goals ((repeat' split) <;> simp_all); done)
  | (unfold execEcho; (try rw [keeps_next]); (first | apply State.issue_pending | apply State.streamIssue_pending | apply State.atOnce_pending | apply State.queued_pending); intros; (try dsimp only); all_goals ((repeat' split) <;> (try simp only [Prod.ext_iff] at *) <;> (try casesm* _ ∧ _) <;> (try subst_vars) <;> ((repeat' split) <;> simp_all)); done)
  | (unfold execEcho; (try rw [keeps_next]); (try dsimp only); ((repeat' split) <;> (try simp only [Prod.ext_iff] at *) <;> (try casesm* _ ∧ _) <;> (try subst_vars) <;> (try simp_all) <;> (repeat' (first | rw [foldl_pending] | rw [foldl_fst_pending])) <;> (try intros) <;> (try dsimp only) <;> ((repeat' split) <;> simp_all)); done)
  | (unfold execEcho; (try rw [keeps_next]); (try dsimp only); (repeat' split) <;> (try rw [keeps_next]) <;> (first | (first | apply State.issue_pending | apply State.streamIssue_pending | apply State.atOnce_pending | apply State.queued_pending) | skip) <;> (try intros) <;> (try dsimp only) <;> ((repeat' split) <;> (try simp only [Prod.ext_iff] at *) <;> (try casesm* _ ∧ _) <;> (try subst_vars) <;> (try simp_all) <;> (repeat' (first | rw [foldl_pending] | rw [foldl_fst_pending])) <;> (try intros) <;> (try dsimp only) <;> ((repeat' split) <;> simp_all)))

theorem execAcctRead_pending (h : Hdr) (first : W16) (count : W16) (s : State) : Keeps (execAcctRead h first count s) s := by
  unfold execAcctRead; (try rw [keeps_next]); (first | apply State.issue_pending | apply State.streamIssue_pending | apply State.atOnce_pending | apply State.queued_pending); intros; (try dsimp only); all_goals ((repeat' split) <;> simp_all)

theorem execAcctClear_pending (h : Hdr) (all : Bool) (tag : W32) (s : State) : Keeps (execAcctClear h all tag s) s := by
  unfold execAcctClear; (try rw [keeps_next]); (first | apply State.issue_pending | apply State.streamIssue_pending | apply State.atOnce_pending | apply State.queued_pending); intros; (try dsimp only); all_goals ((repeat' split) <;> simp_all)

@[simp] theorem State.addCgs_pending (s : State) (p : PtnId) (mask : W32) (fresh : Bool) : (s.addCgs p mask fresh).pending = s.pending := by
  unfold State.addCgs; dsimp only
  simp only [State.reshare_pending, State.reserve_pending, State.updPtn_pending]
  refine foldl_pending _ (fun s a => ?_) _ _
  split <;> simp

theorem execPtnCreate_pending (h : Hdr) (cgMask : W32) (qEnable : Byte) (keyLabel : W64) (s : State) : Keeps (execPtnCreate h cgMask qEnable keyLabel s) s := by
  unfold execPtnCreate; (try rw [keeps_next]); (first | apply State.issue_pending | apply State.streamIssue_pending | apply State.atOnce_pending | apply State.queued_pending); intros; (try dsimp only); all_goals ((repeat' split) <;> simp_all)

theorem execCgAlloc_pending (h : Hdr) (cgMask : W32) (s : State) : Keeps (execCgAlloc h cgMask s) s := by
  unfold execCgAlloc; (try rw [keeps_next]); (first | apply State.issue_pending | apply State.streamIssue_pending | apply State.atOnce_pending | apply State.queued_pending); intros; (try dsimp only); all_goals ((repeat' split) <;> simp_all)

theorem execCgRelease_pending (h : Hdr) (cgMask : W32) (s : State) : Keeps (execCgRelease h cgMask s) s := by
  unfold execCgRelease; (try rw [keeps_next]); (first | apply State.issue_pending | apply State.streamIssue_pending | apply State.atOnce_pending | apply State.queued_pending); intros; (try dsimp only); all_goals ((repeat' split) <;> simp_all)

theorem execCgReleaseEffect_pending (p : PtnId) (cg : CgId) (s : State) : Keeps (execCgReleaseEffect p cg s) s := by
  unfold execCgReleaseEffect; (try dsimp only); all_goals ((repeat' split) <;> simp_all)

theorem execPtnDestroy_pending (h : Hdr) (s : State) : Keeps (execPtnDestroy h s) s := by
  unfold execPtnDestroy; (try rw [keeps_next]); (first | apply State.issue_pending | apply State.streamIssue_pending | apply State.atOnce_pending | apply State.queued_pending); intros; (try dsimp only); all_goals ((repeat' split) <;> simp_all)

@[simp] theorem State.toMembers_pending (s : State) (p : PtnId) (g : Group) (kind : Byte) (vl : BitVec 4) (payload : List Byte) : (State.toMembers s p g kind vl payload).pending = s.pending := by
  unfold State.toMembers; (try dsimp only); all_goals ((repeat' split) <;> simp_all)

@[simp] theorem State.updGroup_pending (s : State) (p : PtnId) (g : W32) (f : Group → Group) : (State.updGroup s p g f).pending = s.pending := by
  unfold State.updGroup; (try dsimp only); all_goals ((repeat' split) <;> simp_all)

@[simp] theorem State.abortGroups_pending (s : State) (p : PtnId) : (State.abortGroups s p).pending = s.pending := by
  unfold State.abortGroups; (try dsimp only); all_goals ((repeat' split) <;> simp_all)

@[simp] theorem State.stopWork_pending (s : State) (p : PtnId) : (s.stopWork p).pending = s.pending := by
  unfold State.stopWork; extract_lets mine s1 s2 s3 s4
  rw [foldl_pending]
  · simp only [s4]; rw [foldl_pending]
    · simp only [s3]; rw [foldl_pending]
      · simp only [s2, s1]; rw [foldl_pending]; intro s n; rfl
      · intro s n; rfl
    · intro s n; rfl
  · intro s n; rfl

@[simp] theorem State.resetPtn_pending (s : State) (p : PtnId) (cause : Byte) : (State.resetPtn s p cause).pending = s.pending := by
  unfold State.resetPtn; (try dsimp only); all_goals ((repeat' split) <;> simp_all)

@[simp] theorem State.finishReset_pending (s : State) (p : PtnId) : (State.finishReset s p).pending = s.pending := by
  unfold State.finishReset; (try dsimp only); all_goals ((repeat' split) <;> simp_all)

theorem execPtnReset_pending (h : Hdr) (s : State) : Keeps (execPtnReset h s) s := by
  unfold execPtnReset; (try dsimp only); all_goals ((repeat' split) <;> simp_all)

theorem execPartitionResetComplete_pending (p : PtnId) (s : State) : Keeps (execPartitionResetComplete p s) s := by
  unfold execPartitionResetComplete; (try dsimp only); all_goals ((repeat' split) <;> simp_all)

@[simp] theorem State.updRun_pending (s : State) (p : PtnId) (h : Hdr) (f : Train → Train) : (State.updRun s p h f).pending = s.pending := by
  unfold State.updRun; (try dsimp only); all_goals ((repeat' split) <;> simp_all)

@[simp] theorem State.refreshLoss_pending (s : State) (h : Hdr) : (State.refreshLoss s h).pending = s.pending := by
  unfold State.refreshLoss; (try dsimp only); all_goals ((repeat' split) <;> simp_all)

@[simp] theorem State.countLosses_pending (s : State) (h : Hdr) (r : Train) : (State.countLosses s h r).pending = s.pending := by
  unfold State.countLosses; (try dsimp only); all_goals ((repeat' split) <;> simp_all)

@[simp] theorem State.sharedRead_pending (s : State) (p : PtnId) : (s.sharedRead p).1.pending = s.pending := by
  unfold State.sharedRead; dsimp only; (repeat' split) <;> simp

@[simp] theorem State.netOf_pending (s : State) (p : PtnId) (m : Model) (vs : List (Nat × Nat × W64)) (c : CmdRec) (start : Nat → Nat) (variant : Option (List Byte)) : (State.netOf s p m vs c start variant).1.pending = s.pending := by
  have own : ∀ s2 r, (match m.image.weights with
      | some w => if m.flags.getLsbD 2 then (s, .ok []) else s.pRead p Who.firmware (m.addr + w.1) w.2
      | none => (s, .ok []) : Acc (List Byte)) = (s2, r) → s2.pending = s.pending := by
    intro s2 r h; refine fst_pending h ?_
    (repeat' split) <;> simp
  unfold State.netOf; dsimp only
  split
  · exact own _ _ ‹_›
  · rename_i h1
    have e := own _ _ h1
    split <;> (rename_i h2; refine fst_pending h2 (ite_acc_pending ?_ e); rw [State.sharedRead_pending]; exact e)

@[simp] theorem State.updTrain_pending (s : State) (p : PtnId) (f : Trainer → Trainer) : (State.updTrain s p f).pending = s.pending := by
  unfold State.updTrain; (try dsimp only); all_goals ((repeat' split) <;> simp_all)

@[simp] theorem State.mbStash_pending (s : State) (p : PtnId) (m : Mb) : (State.mbStash s p m).1.pending = s.pending := by
  unfold State.mbStash; (try dsimp only); all_goals ((repeat' split) <;> simp_all)

@[simp] theorem State.spillMb_pending (s : State) (p : PtnId) (m : Mb) : (State.spillMb s p m).1.pending = s.pending := by
  unfold State.spillMb; (try dsimp only); all_goals ((repeat' split) <;> (try simp only [Prod.ext_iff] at *) <;> (try casesm* _ ∧ _) <;> (try subst_vars) <;> ((repeat' split) <;> simp_all))

@[simp] theorem State.makeRoom_pending (z0 : Nat) (z1 : PtnId) (z2 : Nat) (z3 : State) : (State.makeRoom z0 z1 z2 z3).state.pending = z3.pending := by
  fun_induction State.makeRoom <;> (try simp only [Prod.ext_iff] at *) <;> (try casesm* _ ∧ _) <;> (try subst_vars) <;> ((repeat' split) <;> simp_all)

@[simp] theorem State.place_pending (s : State) (p : PtnId) (n : Nat) : (State.place s p n).state.pending = s.pending := by
  unfold State.place; (try dsimp only); all_goals ((repeat' split) <;> simp_all)

@[simp] theorem State.dropMb_pending (s : State) (p : PtnId) (r : Train) (i : Nat) : (State.dropMb s p r i).pending = s.pending := by
  unfold State.dropMb; (try dsimp only); all_goals ((repeat' split) <;> simp_all)

theorem State.room_pending {s : State} {p : PtnId} {n : Nat} {r : State.Room} (h : s.place p n = r) : r.state.pending = s.pending :=
  h ▸ State.place_pending s p n

@[simp] theorem State.stashedKv_pending (s : State) (p : PtnId) (r : Train) (im : Image) (i : Nat) : (State.stashedKv s p r im i).1.pending = s.pending := by
  induction i with
  | zero => rfl
  | succ i ih =>
    unfold State.stashedKv; dsimp only
    split
    · rename_i h1; exact fst_pending h1 ih
    · rename_i s1 a h1
      have e1 : s1.pending = s.pending := fst_pending h1 ih
      split <;> (rename_i h2; refine fst_pending h2 ?_; split <;> simp [e1])

@[simp] theorem State.nets_pending (s : State) (p : PtnId) (r : Train) (vs : List (Nat × Nat × W64)) : (State.nets s p r vs).1.pending = s.pending := by
  unfold State.nets; (try dsimp only); all_goals ((repeat' split) <;> (try simp only [Prod.ext_iff] at *) <;> (try casesm* _ ∧ _) <;> (try subst_vars) <;> ((repeat' split) <;> simp_all))

@[simp] theorem State.closeFwd_pending (s : State) (p : PtnId) (r : Train) (failed : Option Status) : (State.closeFwd s p r failed).pending = s.pending := by
  unfold State.closeFwd; (try dsimp only); all_goals ((repeat' split) <;> simp_all)

@[simp] theorem State.rankFwd_pending (s : State) (p : PtnId) (r : Train) : (State.rankFwd s p r).pending = s.pending := by
  unfold State.rankFwd; (try dsimp only); all_goals ((repeat' split) <;> simp_all)

@[simp] theorem State.runFwd_pending (s : State) (p : PtnId) (r : Train) (vs : List (Nat × Nat × W64)) : (State.runFwd s p r vs).pending = s.pending := by
  unfold State.runFwd; dsimp only
  split
  · rename_i h1; rw [State.closeFwd_pending]; exact fst_pending h1 (by simp)
  · rename_i s1 b h1
    have e1 : s1.pending = s.pending := fst_pending h1 (by simp)
    split
    · rename_i h2; rw [State.closeFwd_pending]; exact fst_pending h2 (by simp [e1])
    · rename_i s2 w t h2
      have e2 : s2.pending = s.pending := fst_pending h2 (by simp [e1])
      split
      · simp [e2]
      · have e3 : ∀ x : Acc (List (Nat × Mat × Mat)), (if r.eval then (s2, .ok r.sKv) else match s2.stashedKv p r w.im r.nextFwd with
            | (s, .error c) => (s, .error c)
            | (s, .ok a) => (s, .ok (joinKv a r.sKv))) = x → x.1.pending = s.pending := by
          rintro x rfl
          split
          · exact e2
          · split <;> (rename_i h4; exact fst_pending h4 (by simp [e2]))
        split
        · rename_i h3; rw [State.closeFwd_pending]; exact e3 _ h3
        · rename_i h3
          have := e3 _ h3
          split <;> simp_all

@[simp] theorem State.openFwd_pending (s : State) (p : PtnId) (r : Train) : ∀ t ∈ State.openFwd s p r, t.pending = s.pending := by
  intro t ht; unfold State.openFwd at ht; dsimp only at ht
  split at ht
  · cases ht
  · split at ht
    · rename_i s1 h1
      split at ht
      · cases ht
      · cases ht; exact State.room_pending h1
    · rename_i s1 c h1
      have e1 : s1.pending = s.pending := State.room_pending h1
      cases ht
      rw [State.updRun_pending, foldl_pending _ (fun s a => by simp)]
      exact e1
    · rename_i s1 h1
      have e1 : s1.pending = s.pending := State.room_pending h1
      rw [← apply_ite some] at ht
      cases ht
      rw [apply_ite State.pending]
      split
      · rw [State.closeFwd_pending]; split <;> simp [e1]
      · rw [State.runFwd_pending, State.updRun_pending, State.addUnits_pending]
        split <;> simp [e1]

@[simp] theorem State.putGrad_pending (s : State) (r : Train) (lanes : Nat) (block : Nat) (g : Mat) : (State.putGrad s r lanes block g).pending = s.pending := by
  unfold State.putGrad; (try dsimp only); all_goals ((repeat' split) <;> simp_all)

@[simp] theorem State.nextBwd_pending (s : State) (p : PtnId) (r : Train) (b : Nat) (rest : List Nat) : ∀ t ∈ State.nextBwd s p r b rest, t.pending = s.pending := by
  unfold State.nextBwd; (try dsimp only); all_goals ((repeat' split) <;> (try simp only [Prod.ext_iff] at *) <;> (try casesm* _ ∧ _) <;> (try subst_vars) <;> ((repeat' split) <;> simp_all))

@[simp] theorem State.sendAbsent_pending (s : State) (p : PtnId) (group : W32) : (State.sendAbsent s p group).pending = s.pending := by
  unfold State.sendAbsent; (try dsimp only); all_goals ((repeat' split) <;> simp_all)

@[simp] theorem State.failUpdates_pending (s : State) (p : PtnId) (r : Train) : (State.failUpdates s p r).pending = s.pending := by
  unfold State.failUpdates; (try dsimp only); all_goals ((repeat' split) <;> simp_all)

theorem State.stepRun_pending {s t : State} {p : PtnId} {r : Train} (e : s.stepRun p r = some t) : t.pending = s.pending := by
  unfold State.stepRun at e
  (repeat' split at e) <;> (try cases e) <;> (try simp) <;> first | exact State.openFwd_pending _ _ _ _ e | exact State.nextBwd_pending _ _ _ _ _ _ e

@[simp] theorem State.stepRuns_pending (n : Nat) (p : PtnId) (h : Hdr) (s : State) : (State.stepRuns n p h s).pending = s.pending := by
  induction n generalizing s with
  | zero => rfl
  | succ n ih =>
    unfold State.stepRuns
    (repeat' split) <;> (try rfl)
    rw [ih]; exact State.stepRun_pending ‹_›

@[simp] theorem State.pumpRun_pending (s : State) (p : PtnId) (h : Hdr) : (State.pumpRun s p h).pending = s.pending := by
  unfold State.pumpRun; (try dsimp only); all_goals ((repeat' split) <;> simp_all)

@[simp] theorem State.pumpTrain_pending (s : State) (p : PtnId) : (State.pumpTrain s p).pending = s.pending := by
  unfold State.pumpTrain; (try dsimp only); all_goals ((repeat' split) <;> simp_all)

@[simp] theorem State.foldMb_pending (s : State) (p : PtnId) (m : Mb) (seed : Nat) : (State.foldMb s p m seed).pending = s.pending := by
  unfold State.foldMb; (try dsimp only); all_goals ((repeat' split) <;> simp_all)

@[simp] theorem State.flushFolds_pending (s : State) (p : PtnId) : (s.flushFolds p).pending = s.pending := by
  unfold State.flushFolds; dsimp only
  rw [State.updTrain_pending]; exact foldl_pending _ (fun _ _ => by simp) _ _

@[simp] theorem State.mbEnd_pending (s : State) (h : Hdr) : (State.mbEnd s h).pending = s.pending := by
  unfold State.mbEnd; (try dsimp only); all_goals ((repeat' split) <;> simp_all)

@[simp] theorem State.setResult_pending (s : State) (h : Hdr) (r : List Byte) : (State.setResult s h r).pending = s.pending := by
  unfold State.setResult; (try dsimp only); all_goals ((repeat' split) <;> simp_all)

theorem State.queuedDone_pending (s : State) (h : Hdr) (opcode : W16) (cmd : Instr) (f : State → State × Except Status (Item × List Byte))
    (hf : ∀ s, (f s).1.pending = s.pending) : (s.queuedDone h opcode cmd f).pending = s.pending := by
  unfold State.queuedDone; dsimp only
  repeat' split
  all_goals first | (simp_all; done) | (rename_i h; have h3 := fst_pending h (hf _); simp_all)

theorem State.seqStep_pending (s : State) (p : PtnId) (q : QueueId) (is : SeqStep → Bool) (f : State → CmdRec → ProgRun → Image → State)
    (hf : ∀ s c r im, (f s c r im).pending = s.pending) : (s.seqStep p q is f).pending = s.pending := by
  unfold State.seqStep
  repeat' split
  all_goals simp_all

theorem execProgLoad_pending (h : Hdr) (addr : W64) (bytes : W64) (s : State) : Keeps (execProgLoad h addr bytes s) s := by
  unfold execProgLoad; (try rw [keeps_next]); (first | apply State.issue_pending | apply State.streamIssue_pending | apply State.atOnce_pending | apply State.queued_pending | apply State.queuedDone_pending | apply State.seqStep_pending); intros; (try dsimp only); all_goals ((repeat' split) <;> (try simp only [Prod.ext_iff] at *) <;> (try casesm* _ ∧ _) <;> (try subst_vars) <;> ((repeat' split) <;> simp_all))

theorem execProgUnload_pending (h : Hdr) (handle : W16) (s : State) : Keeps (execProgUnload h handle s) s := by
  unfold execProgUnload; (try rw [keeps_next]); (first | apply State.issue_pending | apply State.streamIssue_pending | apply State.atOnce_pending | apply State.queued_pending | apply State.queuedDone_pending | apply State.seqStep_pending); intros; (try dsimp only); all_goals ((repeat' split) <;> simp_all)

@[simp] theorem State.startProg_pending (s : State) (h : Hdr) (prog : Nat) (entry : Nat) (srStream : W32) (binds : List W64) : (State.startProg s h prog entry srStream binds).pending = s.pending := by
  unfold State.startProg; (try dsimp only); all_goals ((repeat' split) <;> simp_all)

theorem execProgRun_pending (h : Hdr) (x : ProgBlock) (s : State) : Keeps (execProgRun h x s) s := by
  unfold execProgRun; (try rw [keeps_next]); (first | apply State.issue_pending | apply State.streamIssue_pending | apply State.atOnce_pending | apply State.queued_pending | apply State.queuedDone_pending | apply State.seqStep_pending); intros; (try dsimp only); all_goals ((repeat' split) <;> simp_all)

@[simp] theorem State.setProg_pending (s : State) (c : CmdRec) (r : ProgRun) : (State.setProg s c r).pending = s.pending := by
  unfold State.setProg; (try dsimp only); all_goals ((repeat' split) <;> simp_all)

@[simp] theorem State.enterWait_pending (s : State) (c : CmdRec) (r : ProgRun) (im : Image) (isPlan : Bool) (a : Nat) : (State.enterWait s c r im isPlan a).pending = s.pending := by
  unfold State.enterWait; (try dsimp only); all_goals ((repeat' split) <;> simp_all)

theorem execPlan_pending (p : PtnId) (q : QueueId) (a : W16) (wait : Bool) (s : State) : Keeps (execPlan p q a wait s) s := by
  unfold execPlan; (try rw [keeps_next]); (first | apply State.issue_pending | apply State.streamIssue_pending | apply State.atOnce_pending | apply State.queued_pending | apply State.queuedDone_pending | apply State.seqStep_pending); intros; (try dsimp only); all_goals ((repeat' split) <;> simp_all)

@[simp] theorem State.beginLaunch_pending (s : State) (l : Launch) : (s.beginLaunch l).pending = s.pending := by
  unfold State.beginLaunch; extract_lets code start s1
  have h : ∀ s e, (start s e).pending = s.pending := by
    intro s e; simp only [start]; rw [foldl_pending]
    · rfl
    · intro s t; rfl
  exact foldl_pending start h _ _

theorem execLaunch_pending (p : PtnId) (q : QueueId) (a : W16) (wait : Bool) (s : State) : Keeps (execLaunch p q a wait s) s := by
  unfold execLaunch; (try rw [keeps_next]); (first | apply State.issue_pending | apply State.streamIssue_pending | apply State.atOnce_pending | apply State.queued_pending | apply State.queuedDone_pending | apply State.seqStep_pending); intros; (try dsimp only); all_goals ((repeat' split) <;> simp_all)

theorem execWait_pending (p : PtnId) (q : QueueId) (a : W16) (isPlan : Bool) (s : State) : Keeps (execWait p q a isPlan s) s := by
  unfold execWait; (try rw [keeps_next]); (first | apply State.issue_pending | apply State.streamIssue_pending | apply State.atOnce_pending | apply State.queued_pending | apply State.queuedDone_pending | apply State.seqStep_pending); intros; (try dsimp only); all_goals ((repeat' split) <;> simp_all)

theorem execLaunchComplete_pending (launch : Nat) (s : State) : Keeps (execLaunchComplete launch s) s := by
  unfold execLaunchComplete; (try dsimp only); all_goals ((repeat' split) <;> simp_all)

theorem execCmp_pending (p : PtnId) (q : QueueId) (c : CmpStep) (s : State) : Keeps (execCmp p q c s) s := by
  unfold execCmp; (try rw [keeps_next]); (first | apply State.issue_pending | apply State.streamIssue_pending | apply State.atOnce_pending | apply State.queued_pending | apply State.queuedDone_pending | apply State.seqStep_pending); intros; (try dsimp only); all_goals ((repeat' split) <;> simp_all)

theorem execBrt_pending (p : PtnId) (q : QueueId) (a : W16) (s : State) : Keeps (execBrt p q a s) s := by
  unfold execBrt; (try rw [keeps_next]); (first | apply State.issue_pending | apply State.streamIssue_pending | apply State.atOnce_pending | apply State.queued_pending | apply State.queuedDone_pending | apply State.seqStep_pending); intros; (try dsimp only); all_goals ((repeat' split) <;> simp_all)

theorem execJmp_pending (p : PtnId) (q : QueueId) (a : W16) (s : State) : Keeps (execJmp p q a s) s := by
  unfold execJmp; (try rw [keeps_next]); (first | apply State.issue_pending | apply State.streamIssue_pending | apply State.atOnce_pending | apply State.queued_pending | apply State.queuedDone_pending | apply State.seqStep_pending); intros; (try dsimp only); all_goals ((repeat' split) <;> simp_all)

theorem execCopy_pending (p : PtnId) (q : QueueId) (a : W16) (b : W16) (slotA : BitVec 4) (slotB : BitVec 4) (s : State) : Keeps (execCopy p q a b slotA slotB s) s := by
  unfold execCopy; (try rw [keeps_next]); (first | apply State.issue_pending | apply State.streamIssue_pending | apply State.atOnce_pending | apply State.queued_pending | apply State.queuedDone_pending | apply State.seqStep_pending); intros; (try dsimp only); all_goals ((repeat' split) <;> simp_all)

theorem execSetc_pending (p : PtnId) (q : QueueId) (c : BitVec 3) (imm : W32) (s : State) : Keeps (execSetc p q c imm s) s := by
  unfold execSetc; (try rw [keeps_next]); (first | apply State.issue_pending | apply State.streamIssue_pending | apply State.atOnce_pending | apply State.queued_pending | apply State.queuedDone_pending | apply State.seqStep_pending); intros; (try dsimp only); all_goals ((repeat' split) <;> simp_all)

theorem execDecb_pending (p : PtnId) (q : QueueId) (c : BitVec 3) (b : W16) (s : State) : Keeps (execDecb p q c b s) s := by
  unfold execDecb; (try rw [keeps_next]); (first | apply State.issue_pending | apply State.streamIssue_pending | apply State.atOnce_pending | apply State.queued_pending | apply State.queuedDone_pending | apply State.seqStep_pending); intros; (try dsimp only); all_goals ((repeat' split) <;> simp_all)

theorem execEndItem_pending (p : PtnId) (q : QueueId) (b : W16) (code : Status) (s : State) : Keeps (execEndItem p q b code s) s := by
  unfold execEndItem; (try rw [keeps_next]); (first | apply State.issue_pending | apply State.streamIssue_pending | apply State.atOnce_pending | apply State.queued_pending | apply State.queuedDone_pending | apply State.seqStep_pending); intros; (try dsimp only); all_goals ((repeat' split) <;> simp_all)

theorem execProgramEnd_pending (p : PtnId) (q : QueueId) (s : State) : Keeps (execProgramEnd p q s) s := by
  unfold execProgramEnd; (try dsimp only); all_goals ((repeat' split) <;> simp_all)

@[simp] theorem State.renameCores_pending (s : State) (p : PtnId) (q : QueueId) (f : Nat → Nat) : (State.renameCores s p q f).pending = s.pending := by
  unfold State.renameCores; (try dsimp only); all_goals ((repeat' split) <;> simp_all)

@[simp] theorem State.clearThreads_pending (s : State) (m : Nat) : (State.clearThreads s m).pending = s.pending := by
  first
  | (unfold State.clearThreads; (try dsimp only); all_goals ((repeat' split) <;> simp_all); done)
  | (unfold State.clearThreads; (try dsimp only); all_goals ((repeat' split) <;> (try simp only [Prod.ext_iff] at *) <;> (try casesm* _ ∧ _) <;> (try subst_vars) <;> ((repeat' split) <;> simp_all)); done)
  | (unfold State.clearThreads; (try rw [keeps_next]); (first | apply State.issue_pending | apply State.streamIssue_pending | apply State.atOnce_pending | apply State.queued_pending | apply State.queuedDone_pending | apply State.seqStep_pending); intros; (try dsimp only); all_goals ((repeat' split) <;> simp_all); done)
  | (unfold State.clearThreads; (try rw [keeps_next]); (first | apply State.issue_pending | apply State.streamIssue_pending | apply State.atOnce_pending | apply State.queued_pending | apply State.queuedDone_pending | apply State.seqStep_pending); intros; (try dsimp only); all_goals ((repeat' split) <;> (try simp only [Prod.ext_iff] at *) <;> (try casesm* _ ∧ _) <;> (try subst_vars) <;> ((repeat' split) <;> simp_all)); done)
  | (unfold State.clearThreads; (try rw [keeps_next]); (try dsimp only); ((repeat' split) <;> (try simp only [Prod.ext_iff] at *) <;> (try casesm* _ ∧ _) <;> (try subst_vars) <;> (try simp_all) <;> (repeat' (first | rw [foldl_pending] | rw [foldl_fst_pending])) <;> (try intros) <;> (try dsimp only) <;> ((repeat' split) <;> simp_all)); done)
  | (unfold State.clearThreads; (try rw [keeps_next]); (try dsimp only); (repeat' split) <;> (try rw [keeps_next]) <;> (first | (first | apply State.issue_pending | apply State.streamIssue_pending | apply State.atOnce_pending | apply State.queued_pending | apply State.queuedDone_pending | apply State.seqStep_pending) | skip) <;> (try intros) <;> (try dsimp only) <;> ((repeat' split) <;> (try simp only [Prod.ext_iff] at *) <;> (try casesm* _ ∧ _) <;> (try subst_vars) <;> (try simp_all) <;> (repeat' (first | rw [foldl_pending] | rw [foldl_fst_pending])) <;> (try intros) <;> (try dsimp only) <;> ((repeat' split) <;> simp_all)))

@[simp] theorem State.loadCore_pending (s : State) (c : SavedCore) (m : Nat) : (State.loadCore s c m).pending = s.pending := by
  unfold State.loadCore; (try rw [keeps_next]); (try dsimp only); ((repeat' split) <;> (try simp only [Prod.ext_iff] at *) <;> (try casesm* _ ∧ _) <;> (try subst_vars) <;> (try simp_all) <;> (repeat' (first | rw [foldl_pending] | rw [foldl_fst_pending])) <;> (try intros) <;> (try dsimp only) <;> ((repeat' split) <;> simp_all))

@[simp] theorem State.moveCore_pending (s : State) (a : Nat) (b : Nat) : (State.moveCore s a b).pending = s.pending := by
  unfold State.moveCore; (try dsimp only); all_goals ((repeat' split) <;> simp_all)

theorem execSliceEnd_pending (p : PtnId) (q : QueueId) (ns : Nat) (s : State) : Keeps (execSliceEnd p q ns s) s := by
  unfold execSliceEnd; (try dsimp only); all_goals ((repeat' split) <;> simp_all)

theorem execStopBathHandover_pending (p : PtnId) (q : QueueId) (ns : Nat) (s : State) : Keeps (execStopBathHandover p q ns s) s := by
  unfold execStopBathHandover; (try dsimp only); all_goals ((repeat' split) <;> simp_all)

@[simp] theorem State.resume_pending (s : State) (p : PtnId) (c : CmdRec) : (State.resume s p c).pending = s.pending := by
  unfold State.resume; (try dsimp only); all_goals ((repeat' split) <;> simp_all)

@[simp] theorem State.restore_pending (s : State) (p : PtnId) (q : QueueId) : (State.restore s p q).pending = s.pending := by
  unfold State.restore; (try dsimp only); all_goals ((repeat' split) <;> simp_all)

theorem execRestoreComplete_pending (p : PtnId) (q : QueueId) (ns : Nat) (switchUs : Nat) (s : State) : Keeps (execRestoreComplete p q ns switchUs s) s := by
  unfold execRestoreComplete; (try dsimp only); all_goals ((repeat' split) <;> simp_all)

@[simp] theorem State.updItem_pending (s : State) (m : Mark) (f : Item → Item) : (State.updItem s m f).pending = s.pending := by
  unfold State.updItem; (try dsimp only); all_goals ((repeat' split) <;> simp_all)

@[simp] theorem State.decide'_pending (s : State) (men : W64) (marks : List Mark) : (State.decide' s men marks).pending = s.pending := by
  unfold State.decide'; (try rw [keeps_next]); (try dsimp only); ((repeat' split) <;> (try simp only [Prod.ext_iff] at *) <;> (try casesm* _ ∧ _) <;> (try subst_vars) <;> (try simp_all) <;> (repeat' (first | rw [foldl_pending] | rw [foldl_fst_pending])) <;> (try intros) <;> (try dsimp only) <;> ((repeat' split) <;> simp_all))

@[simp] theorem State.faultWith_pending (s : State) (r : FRec) (marks : List Mark) : (State.faultWith s r marks).pending = s.pending := by
  unfold State.faultWith; (try dsimp only); all_goals ((repeat' split) <;> simp_all)

@[simp] theorem State.stewardBack_pending (s : State) : s.stewardBack.pending = s.pending := by
  unfold State.stewardBack; dsimp only; rw [foldl_pending]; intro s d; simp

theorem execStewardRestartComplete_pending (s : State) : Keeps (execStewardRestartComplete s) s := by
  unfold execStewardRestartComplete; (try dsimp only); all_goals ((repeat' split) <;> simp_all)

@[simp] theorem State.clearUnit_pending (s : State) (u : Nat) : (s.clearUnit u).pending = s.pending := by
  unfold State.clearUnit; rw [foldl_pending]; intro s p; rfl

@[simp] theorem State.suspectAll_pending (s : State) (u : Nat) : (s.suspectAll u).1.pending = s.pending := by
  unfold State.suspectAll; extract_lets ms s1
  have h : s1.pending = s.pending := by simp only [s1]; rw [foldl_pending]; intro s p; rfl
  clear_value s1
  rw [State.clearUnit_pending, foldl_pending]
  · exact h
  · intro s m; simp

@[simp] theorem State.reportAll_pending (s : State) : (State.reportAll s).pending = s.pending := by
  unfold State.reportAll; (try dsimp only); all_goals ((repeat' split) <;> simp_all)

@[simp] theorem State.updStrip_pending (s : State) (u : Nat) (f : Strip → Strip) : (State.updStrip s u f).pending = s.pending := by
  unfold State.updStrip; (try dsimp only); all_goals ((repeat' split) <;> simp_all)

@[simp] theorem State.haltLaunch_pending (s : State) (l : Launch) (code : Status) : (State.haltLaunch s l code).1.pending = s.pending := by
  unfold State.haltLaunch; (try rw [keeps_next]); (try dsimp only); ((repeat' split) <;> (try simp only [Prod.ext_iff] at *) <;> (try casesm* _ ∧ _) <;> (try subst_vars) <;> (try simp_all) <;> (repeat' (first | rw [foldl_pending] | rw [foldl_fst_pending])) <;> (try intros) <;> (try dsimp only) <;> ((repeat' split) <;> simp_all))

@[simp] theorem State.remap_pending (s : State) (p : PtnId) (m : Nat) : (s.remap p m).1.pending = s.pending := by
  unfold State.remap; dsimp only
  refine foldl_fst_pending _ (fun a q => ?_) _ _
  (repeat' split) <;> simp

@[simp] theorem State.shiftReqs_pending (s : State) (n : Nat) : (State.shiftReqs s n).1.pending = s.pending := by
  unfold State.shiftReqs; (try rw [keeps_next]); (try dsimp only); ((repeat' split) <;> (try simp only [Prod.ext_iff] at *) <;> (try casesm* _ ∧ _) <;> (try subst_vars) <;> (try simp_all) <;> (repeat' (first | rw [foldl_pending] | rw [foldl_fst_pending])) <;> (try intros) <;> (try dsimp only) <;> ((repeat' split) <;> simp_all))

@[simp] theorem State.retire_pending (s : State) (u : Nat) : (State.retire s u).1.pending = s.pending := by
  unfold State.retire; (try dsimp only); all_goals ((repeat' split) <;> simp_all)

theorem execStripDue_pending (mc : McId) (s : State) : Keeps (execStripDue mc s) s := by
  unfold execStripDue; (try dsimp only); all_goals ((repeat' split) <;> simp_all)

theorem execStripStart_pending (mc : McId) (s : State) : Keeps (execStripStart mc s) s := by
  unfold execStripStart; (try dsimp only); all_goals ((repeat' split) <;> simp_all)

@[simp] theorem State.service_pending (s : State) (u : Nat) (stamp : W64) : (State.service s u stamp).pending = s.pending := by
  unfold State.service; (try dsimp only); all_goals ((repeat' split) <;> simp_all)

@[simp] theorem State.endWaiters_pending (s : State) (u : Nat) (failed : Option Status) : (State.endWaiters s u failed).pending = s.pending := by
  unfold State.endWaiters; (try dsimp only); all_goals ((repeat' split) <;> simp_all)

@[simp] theorem State.failWaiters_pending (s : State) (u : Nat) : (State.failWaiters s u).pending = s.pending := by
  unfold State.failWaiters; (try dsimp only); all_goals ((repeat' split) <;> simp_all)

@[simp] theorem State.stripResult_pending (s : State) (u : Nat) (r : StripResult) (stamp : W64) : (State.stripResult s u r stamp).pending = s.pending := by
  unfold State.stripResult; (try dsimp only); all_goals ((repeat' split) <;> simp_all)

@[simp] theorem State.exemptStrip_pending (s : State) (m : Nat) : (s.exemptStrip m).pending = s.pending := by
  unfold State.exemptStrip; split <;> simp

theorem execStripEnd_pending (mc : McId) (r : StripResult) (stamp : W64) (s : State) : Keeps (execStripEnd mc r stamp s) s := by
  unfold execStripEnd; (try dsimp only); all_goals ((repeat' split) <;> simp_all)

theorem execTeStripEnd_pending (te : TeId) (r : StripResult) (stamp : W64) (s : State) : Keeps (execTeStripEnd te r stamp s) s := by
  unfold execTeStripEnd; (try dsimp only); all_goals ((repeat' split) <;> simp_all)

theorem execStripNow_pending (h : Hdr) (cgMask : W32) (revive : Bool) (cores : Bool) (engines : Bool) (s : State) : Keeps (execStripNow h cgMask revive cores engines s) s := by
  unfold execStripNow; (try rw [keeps_next]); (try dsimp only); (repeat' split) <;> (try rw [keeps_next]) <;> (first | (first | apply State.issue_pending | apply State.streamIssue_pending | apply State.atOnce_pending | apply State.queued_pending | apply State.queuedDone_pending | apply State.seqStep_pending) | skip) <;> (try intros) <;> (try dsimp only) <;> ((repeat' split) <;> (try simp only [Prod.ext_iff] at *) <;> (try casesm* _ ∧ _) <;> (try subst_vars) <;> (try simp_all) <;> (repeat' (first | rw [foldl_pending] | rw [foldl_fst_pending])) <;> (try intros) <;> (try dsimp only) <;> ((repeat' split) <;> simp_all))

theorem execHeartbeatMissed_pending (isTe : Bool) (unit : McId) (stamp : W64) (s : State) : Keeps (execHeartbeatMissed isTe unit stamp s) s := by
  unfold execHeartbeatMissed; (try rw [keeps_next]); (try dsimp only); ((repeat' split) <;> (try simp only [Prod.ext_iff] at *) <;> (try casesm* _ ∧ _) <;> (try subst_vars) <;> (try simp_all) <;> (repeat' (first | rw [foldl_pending] | rw [foldl_fst_pending])) <;> (try intros) <;> (try dsimp only) <;> ((repeat' split) <;> simp_all))

theorem execPsLockstepMismatch_pending (p : PtnId) (stamp : W64) (within1s : Bool) (s : State) : Keeps (execPsLockstepMismatch p stamp within1s s) s := by
  unfold execPsLockstepMismatch; (try dsimp only); all_goals ((repeat' split) <;> simp_all)

@[simp] theorem State.failByFault_pending (s : State) (p : PtnId) (q : QueueId) (item : Nat) (r : FRec) : (State.failByFault s p q item r).pending = s.pending := by
  unfold State.failByFault; (try dsimp only); all_goals ((repeat' split) <;> simp_all)

theorem execDescCrcMismatch_pending (p : PtnId) (q : QueueId) (item : W16) (isTe : Bool) (unit : McId) (stamp : W64) (s : State) : Keeps (execDescCrcMismatch p q item isTe unit stamp s) s := by
  unfold execDescCrcMismatch; (try dsimp only); all_goals ((repeat' split) <;> simp_all)

theorem execWindowMismatch_pending (p : PtnId) (q : QueueId) (item : W16) (stamp : W64) (s : State) : Keeps (execWindowMismatch p q item stamp s) s := by
  unfold execWindowMismatch; (try dsimp only); all_goals ((repeat' split) <;> simp_all)

theorem execDieLinkDown_pending (a : DieId) (b : DieId) (stamp : W64) (s : State) : Keeps (execDieLinkDown a b stamp s) s := by
  unfold execDieLinkDown; (try dsimp only); all_goals ((repeat' split) <;> simp_all)

theorem execPatrolScrub_pending (addr : W64) (double : Bool) (single : Bool) (passDone : Bool) (stamp : W64) (s : State) : Keeps (execPatrolScrub addr double single passDone stamp s) s := by
  unfold execPatrolScrub; (try dsimp only); all_goals ((repeat' split) <;> simp_all)

theorem execFaultLogRead_pending (h : Hdr) (firstMen : W64) (count : W16) (s : State) : Keeps (execFaultLogRead h firstMen count s) s := by
  unfold execFaultLogRead; (try rw [keeps_next]); (first | apply State.issue_pending | apply State.streamIssue_pending | apply State.atOnce_pending | apply State.queued_pending | apply State.queuedDone_pending | apply State.seqStep_pending); intros; (try dsimp only); all_goals ((repeat' split) <;> simp_all)

theorem execFaultLogClear_pending (h : Hdr) (upToMen : W64) (s : State) : Keeps (execFaultLogClear h upToMen s) s := by
  first
  | (unfold execFaultLogClear; (try dsimp only); all_goals ((repeat' split) <;> simp_all); done)
  | (unfold execFaultLogClear; (try dsimp only); all_goals ((repeat' split) <;> (try simp only [Prod.ext_iff] at *) <;> (try casesm* _ ∧ _) <;> (try subst_vars) <;> ((repeat' split) <;> simp_all)); done)
  | (unfold execFaultLogClear; (try rw [keeps_next]); (first | apply State.issue_pending | apply State.streamIssue_pending | apply State.atOnce_pending | apply State.queued_pending | apply State.queuedDone_pending | apply State.seqStep_pending); intros; (try dsimp only); all_goals ((repeat' split) <;> simp_all); done)
  | (unfold execFaultLogClear; (try rw [keeps_next]); (first | apply State.issue_pending | apply State.streamIssue_pending | apply State.atOnce_pending | apply State.queued_pending | apply State.queuedDone_pending | apply State.seqStep_pending); intros; (try dsimp only); all_goals ((repeat' split) <;> (try simp only [Prod.ext_iff] at *) <;> (try casesm* _ ∧ _) <;> (try subst_vars) <;> ((repeat' split) <;> simp_all)); done)
  | (unfold execFaultLogClear; (try rw [keeps_next]); (try dsimp only); ((repeat' split) <;> (try simp only [Prod.ext_iff] at *) <;> (try casesm* _ ∧ _) <;> (try subst_vars) <;> (try simp_all) <;> (repeat' (first | rw [foldl_pending] | rw [foldl_fst_pending])) <;> (try intros) <;> (try dsimp only) <;> ((repeat' split) <;> simp_all)); done)
  | (unfold execFaultLogClear; (try rw [keeps_next]); (try dsimp only); (repeat' split) <;> (try rw [keeps_next]) <;> (first | (first | apply State.issue_pending | apply State.streamIssue_pending | apply State.atOnce_pending | apply State.queued_pending | apply State.queuedDone_pending | apply State.seqStep_pending) | skip) <;> (try intros) <;> (try dsimp only) <;> ((repeat' split) <;> (try simp only [Prod.ext_iff] at *) <;> (try casesm* _ ∧ _) <;> (try subst_vars) <;> (try simp_all) <;> (repeat' (first | rw [foldl_pending] | rw [foldl_fst_pending])) <;> (try intros) <;> (try dsimp only) <;> ((repeat' split) <;> simp_all)))

theorem execLooseGrant_pending (h : Hdr) (slice : W16) (s : State) : Keeps (execLooseGrant h slice s) s := by
  unfold execLooseGrant; (try rw [keeps_next]); (first | apply State.issue_pending | apply State.streamIssue_pending | apply State.atOnce_pending | apply State.queued_pending | apply State.queuedDone_pending | apply State.seqStep_pending); intros; (try dsimp only); all_goals ((repeat' split) <;> simp_all)

theorem execLooseRelease_pending (h : Hdr) (slice : W16) (s : State) : Keeps (execLooseRelease h slice s) s := by
  unfold execLooseRelease; (try rw [keeps_next]); (first | apply State.issue_pending | apply State.streamIssue_pending | apply State.atOnce_pending | apply State.queued_pending | apply State.queuedDone_pending | apply State.seqStep_pending); intros; (try dsimp only); all_goals ((repeat' split) <;> simp_all)

@[simp] theorem State.grantMem_pending (s : State) (p : PtnId) (w : Nat) (gs : List Nat) (keep : Bool) : (State.grantMem s p w gs keep).pending = s.pending := by
  unfold State.grantMem; (try rw [keeps_next]); (try dsimp only); ((repeat' split) <;> (try simp only [Prod.ext_iff] at *) <;> (try casesm* _ ∧ _) <;> (try subst_vars) <;> (try simp_all) <;> (repeat' (first | rw [foldl_pending] | rw [foldl_fst_pending])) <;> (try intros) <;> (try dsimp only) <;> ((repeat' split) <;> simp_all))

theorem execMemGrant_pending (h : Hdr) (w : W16) (count : W16) (named : Bool) (keep : Bool) (granules : List W16) (s : State) : Keeps (execMemGrant h w count named keep granules s) s := by
  unfold execMemGrant; (try rw [keeps_next]); (first | apply State.issue_pending | apply State.streamIssue_pending | apply State.atOnce_pending | apply State.queued_pending | apply State.queuedDone_pending | apply State.seqStep_pending); intros; (try dsimp only); all_goals ((repeat' split) <;> simp_all)

theorem execMemRelease_pending (h : Hdr) (w : W16) (count : W16) (s : State) : Keeps (execMemRelease h w count s) s := by
  unfold execMemRelease; (try rw [keeps_next]); (first | apply State.issue_pending | apply State.streamIssue_pending | apply State.atOnce_pending | apply State.queued_pending | apply State.queuedDone_pending | apply State.seqStep_pending); intros; (try dsimp only); all_goals ((repeat' split) <;> simp_all)

theorem execSharedMap_pending (h : Hdr) (w : W16) (s : State) : Keeps (execSharedMap h w s) s := by
  unfold execSharedMap; (try rw [keeps_next]); (first | apply State.issue_pending | apply State.streamIssue_pending | apply State.atOnce_pending | apply State.queued_pending | apply State.queuedDone_pending | apply State.seqStep_pending); intros; (try dsimp only); all_goals ((repeat' split) <;> simp_all)

theorem execSharedUnmap_pending (h : Hdr) (s : State) : Keeps (execSharedUnmap h s) s := by
  unfold execSharedUnmap; (try rw [keeps_next]); (first | apply State.issue_pending | apply State.streamIssue_pending | apply State.atOnce_pending | apply State.queued_pending | apply State.queuedDone_pending | apply State.seqStep_pending); intros; (try dsimp only); all_goals ((repeat' split) <;> simp_all)

@[simp] theorem State.zeroShared_pending (s : State) : (State.zeroShared s).pending = s.pending := by
  unfold State.zeroShared; (try rw [keeps_next]); (try dsimp only); ((repeat' split) <;> (try simp only [Prod.ext_iff] at *) <;> (try casesm* _ ∧ _) <;> (try subst_vars) <;> (try simp_all) <;> (repeat' (first | rw [foldl_pending] | rw [foldl_fst_pending])) <;> (try intros) <;> (try dsimp only) <;> ((repeat' split) <;> simp_all))

theorem execSharedLoad_pending (h : Hdr) (ep : Endpoint) (bytes : W64) (data : List Byte) (s : State) : Keeps (execSharedLoad h ep bytes data s) s := by
  unfold execSharedLoad; (try rw [keeps_next]); (try dsimp only); (repeat' split) <;> (try rw [keeps_next]) <;> (first | (first | apply State.issue_pending | apply State.streamIssue_pending | apply State.atOnce_pending | apply State.queued_pending | apply State.queuedDone_pending | apply State.seqStep_pending) | skip) <;> (try intros) <;> (try dsimp only) <;> ((repeat' split) <;> (try simp only [Prod.ext_iff] at *) <;> (try casesm* _ ∧ _) <;> (try subst_vars) <;> (try simp_all) <;> (repeat' (first | rw [foldl_pending] | rw [foldl_fst_pending])) <;> (try intros) <;> (try dsimp only) <;> ((repeat' split) <;> simp_all))

theorem execSharedSeal_pending (h : Hdr) (s : State) : Keeps (execSharedSeal h s) s := by
  unfold execSharedSeal; (try rw [keeps_next]); (first | apply State.issue_pending | apply State.streamIssue_pending | apply State.atOnce_pending | apply State.queued_pending | apply State.queuedDone_pending | apply State.seqStep_pending); intros; (try dsimp only); all_goals ((repeat' split) <;> simp_all)

theorem execSharedClear_pending (h : Hdr) (s : State) : Keeps (execSharedClear h s) s := by
  unfold execSharedClear; (try rw [keeps_next]); (first | apply State.issue_pending | apply State.streamIssue_pending | apply State.atOnce_pending | apply State.queued_pending | apply State.queuedDone_pending | apply State.seqStep_pending); intros; (try dsimp only); all_goals ((repeat' split) <;> simp_all)

theorem execSlotWheelBoundary_pending (s : State) : Keeps (execSlotWheelBoundary s) s := by
  unfold execSlotWheelBoundary; (try dsimp only); all_goals ((repeat' split) <;> simp_all)

@[simp] theorem State.dropRound_pending (s : State) (p : PtnId) (r : Round) (code : Status) : (State.dropRound s p r code).pending = s.pending := by
  unfold State.dropRound; (try dsimp only); all_goals ((repeat' split) <;> simp_all)

@[simp] theorem State.abortGroup_pending (s : State) (p : PtnId) (g : Group) : (State.abortGroup s p g).pending = s.pending := by
  unfold State.abortGroup; (try dsimp only); all_goals ((repeat' split) <;> simp_all)

@[simp] theorem State.unreachable_pending (s : State) (k : QPkt) : (State.unreachable s k).pending = s.pending := by
  unfold State.unreachable; (try dsimp only); all_goals ((repeat' split) <;> simp_all)

@[simp] theorem State.resend_pending (s : State) (n : QpId) (z0 : List QPkt) : (State.resend s n z0).pending = s.pending := by
  fun_induction State.resend s n z0 <;> (try simp only [Prod.ext_iff] at *) <;> (try casesm* _ ∧ _) <;> (try subst_vars) <;> ((repeat' split) <;> simp_all)

@[simp] theorem State.ackPkt_pending (s : State) (n : QpId) (h : QHdr) : (s.ackPkt n h).pending = s.pending := by unfold State.ackPkt; split <;> rfl

@[simp] theorem State.ackAgain_pending (s : State) (n : QpId) (hs : List QHdr) : (s.ackAgain n hs).pending = s.pending := by
  unfold State.ackAgain; rw [foldl_pending]; intro s h; split <;> simp

@[simp] theorem State.qpDown_pending (s : State) (n : QpId) (cause : BitVec 4) (when' : Option W64) : (State.qpDown s n cause when').pending = s.pending := by
  unfold State.qpDown; (try dsimp only); all_goals ((repeat' split) <;> simp_all)

@[simp] theorem State.qpLinkReset_pending (s : State) (n : QpId) (cause : Byte) : (State.qpLinkReset s n cause).pending = s.pending := by
  unfold State.qpLinkReset; (try dsimp only); all_goals ((repeat' split) <;> simp_all)

@[simp] theorem State.upMove_pending (s : State) (u : UpId) (old : UPort) : (State.upMove s u old).pending = s.pending := by
  unfold State.upMove; (try dsimp only); all_goals ((repeat' split) <;> simp_all)

@[simp] theorem State.upDown_pending (s : State) (u : UpId) : (State.upDown s u).pending = s.pending := by
  unfold State.upDown; (try dsimp only); all_goals ((repeat' split) <;> simp_all)

@[simp] theorem State.upLinkReset_pending (s : State) (u : UpId) (cause : Byte) : (State.upLinkReset s u cause).pending = s.pending := by
  unfold State.upLinkReset; (try dsimp only); all_goals ((repeat' split) <;> simp_all)

@[simp] theorem State.upUp_pending (s : State) (u : UpId) : (State.upUp s u).pending = s.pending := by
  unfold State.upUp; (try dsimp only); all_goals ((repeat' split) <;> simp_all)

@[simp] theorem State.putNumMode_pending (s : State) (p : PtnId) (expert : Bool) (v : Nat) : (State.putNumMode s p expert v).1.pending = s.pending := by
  unfold State.putNumMode; (try dsimp only); all_goals ((repeat' split) <;> simp_all)

@[simp] theorem State.putTrainer_pending (s : State) (p : PtnId) (t : Trainer) : (State.putTrainer s p t).1.pending = s.pending := by
  unfold State.putTrainer; (try dsimp only); all_goals ((repeat' split) <;> simp_all)

@[simp] theorem State.putStashCfg_pending (s : State) (p : PtnId) (v : Nat) : (State.putStashCfg s p v).1.pending = s.pending := by
  unfold State.putStashCfg; (try dsimp only); all_goals ((repeat' split) <;> simp_all)

@[simp] theorem State.putSpillBase_pending (s : State) (p : PtnId) (v : Nat) : (State.putSpillBase s p v).1.pending = s.pending := by
  unfold State.putSpillBase; (try dsimp only); all_goals ((repeat' split) <;> simp_all)

@[simp] theorem State.putQCfg_pending (s : State) (p : PtnId) (q : QueueId) (v : Nat) : (State.putQCfg s p q v).1.pending = s.pending := by
  unfold State.putQCfg; (try dsimp only); all_goals ((repeat' split) <;> simp_all)

@[simp] theorem State.putSchedCfg_pending (s : State) (p : PtnId) (v : Nat) : (State.putSchedCfg s p v).1.pending = s.pending := by
  unfold State.putSchedCfg; (try dsimp only); all_goals ((repeat' split) <;> simp_all)

@[simp] theorem State.putServeCfg_pending (s : State) (p : PtnId) (v : Nat) : (State.putServeCfg s p v).1.pending = s.pending := by
  unfold State.putServeCfg; (try dsimp only); all_goals ((repeat' split) <;> simp_all)

@[simp] theorem State.putReplyCfg_pending (s : State) (p : PtnId) (v : Nat) : (State.putReplyCfg s p v).1.pending = s.pending := by
  unfold State.putReplyCfg; (try dsimp only); all_goals ((repeat' split) <;> simp_all)

@[simp] theorem State.putMemSlots_pending (s : State) (p : PtnId) (expert : Bool) (v : Nat) : (State.putMemSlots s p expert v).1.pending = s.pending := by
  unfold State.putMemSlots; (try dsimp only); all_goals ((repeat' split) <;> simp_all)

@[simp] theorem State.putSem_pending (s : State) (p : PtnId) (n : SemId) (expert : Bool) (v : Nat) (anew : Bool) : (State.putSem s p n expert v anew).1.pending = s.pending := by
  unfold State.putSem; (try dsimp only); all_goals ((repeat' split) <;> simp_all)

@[simp] theorem State.putViolInfo_pending (s : State) (p : PtnId) (v : Nat) (anew : Bool) : (State.putViolInfo s p v anew).1.pending = s.pending := by
  unfold State.putViolInfo; (try dsimp only); all_goals ((repeat' split) <;> simp_all)

@[simp] theorem State.putMemCfg_pending (s : State) (expert : Bool) (v : Nat) : (State.putMemCfg s expert v).1.pending = s.pending := by
  unfold State.putMemCfg; (try dsimp only); all_goals ((repeat' split) <;> simp_all)

@[simp] theorem State.putSharedLabel_pending (s : State) (v : Nat) : (State.putSharedLabel s v).1.pending = s.pending := by
  unfold State.putSharedLabel; (try dsimp only); all_goals ((repeat' split) <;> simp_all)

@[simp] theorem State.putFabric_pending (s : State) (v : Nat) : (State.putFabric s v).1.pending = s.pending := by
  first
  | (unfold State.putFabric; (try dsimp only); all_goals ((repeat' split) <;> simp_all); done)
  | (unfold State.putFabric; (try dsimp only); all_goals ((repeat' split) <;> (try simp only [Prod.ext_iff] at *) <;> (try casesm* _ ∧ _) <;> (try subst_vars) <;> ((repeat' split) <;> simp_all)); done)
  | (unfold State.putFabric; (try rw [keeps_next]); (first | apply State.issue_pending | apply State.streamIssue_pending | apply State.atOnce_pending | apply State.queued_pending | apply State.queuedDone_pending | apply State.seqStep_pending); intros; (try dsimp only); all_goals ((repeat' split) <;> simp_all); done)
  | (unfold State.putFabric; (try rw [keeps_next]); (first | apply State.issue_pending | apply State.streamIssue_pending | apply State.atOnce_pending | apply State.queued_pending | apply State.queuedDone_pending | apply State.seqStep_pending); intros; (try dsimp only); all_goals ((repeat' split) <;> (try simp only [Prod.ext_iff] at *) <;> (try casesm* _ ∧ _) <;> (try subst_vars) <;> ((repeat' split) <;> simp_all)); done)
  | (unfold State.putFabric; (try rw [keeps_next]); (try dsimp only); ((repeat' split) <;> (try simp only [Prod.ext_iff] at *) <;> (try casesm* _ ∧ _) <;> (try subst_vars) <;> (try simp_all) <;> (repeat' (first | rw [foldl_pending] | rw [foldl_fst_pending])) <;> (try intros) <;> (try dsimp only) <;> ((repeat' split) <;> simp_all)); done)
  | (unfold State.putFabric; (try rw [keeps_next]); (try dsimp only); (repeat' split) <;> (try rw [keeps_next]) <;> (first | (first | apply State.issue_pending | apply State.streamIssue_pending | apply State.atOnce_pending | apply State.queued_pending | apply State.queuedDone_pending | apply State.seqStep_pending) | skip) <;> (try intros) <;> (try dsimp only) <;> ((repeat' split) <;> (try simp only [Prod.ext_iff] at *) <;> (try casesm* _ ∧ _) <;> (try subst_vars) <;> (try simp_all) <;> (repeat' (first | rw [foldl_pending] | rw [foldl_fst_pending])) <;> (try intros) <;> (try dsimp only) <;> ((repeat' split) <;> simp_all)))

@[simp] theorem State.putQlnkCfg_pending (s : State) (n : QpId) (v : Nat) : (State.putQlnkCfg s n v).1.pending = s.pending := by
  unfold State.putQlnkCfg; (try dsimp only); all_goals ((repeat' split) <;> simp_all)

@[simp] theorem State.putRes_pending (s : State) (n : QpId) (p : PtnId) (v : Nat) : (State.putRes s n p v).1.pending = s.pending := by
  unfold State.putRes; (try dsimp only); all_goals ((repeat' split) <;> simp_all)

@[simp] theorem State.putRoute_pending (s : State) (n : QpId) (i : Nat) (v : Nat) : (State.putRoute s n i v).1.pending = s.pending := by
  unfold State.putRoute; (try dsimp only); all_goals ((repeat' split) <;> simp_all)

@[simp] theorem State.putPwrCfg_pending (s : State) (v : Nat) : (State.putPwrCfg s v).1.pending = s.pending := by
  first
  | (unfold State.putPwrCfg; (try dsimp only); all_goals ((repeat' split) <;> simp_all); done)
  | (unfold State.putPwrCfg; (try dsimp only); all_goals ((repeat' split) <;> (try simp only [Prod.ext_iff] at *) <;> (try casesm* _ ∧ _) <;> (try subst_vars) <;> ((repeat' split) <;> simp_all)); done)
  | (unfold State.putPwrCfg; (try rw [keeps_next]); (first | apply State.issue_pending | apply State.streamIssue_pending | apply State.atOnce_pending | apply State.queued_pending | apply State.queuedDone_pending | apply State.seqStep_pending); intros; (try dsimp only); all_goals ((repeat' split) <;> simp_all); done)
  | (unfold State.putPwrCfg; (try rw [keeps_next]); (first | apply State.issue_pending | apply State.streamIssue_pending | apply State.atOnce_pending | apply State.queued_pending | apply State.queuedDone_pending | apply State.seqStep_pending); intros; (try dsimp only); all_goals ((repeat' split) <;> (try simp only [Prod.ext_iff] at *) <;> (try casesm* _ ∧ _) <;> (try subst_vars) <;> ((repeat' split) <;> simp_all)); done)
  | (unfold State.putPwrCfg; (try rw [keeps_next]); (try dsimp only); ((repeat' split) <;> (try simp only [Prod.ext_iff] at *) <;> (try casesm* _ ∧ _) <;> (try subst_vars) <;> (try simp_all) <;> (repeat' (first | rw [foldl_pending] | rw [foldl_fst_pending])) <;> (try intros) <;> (try dsimp only) <;> ((repeat' split) <;> simp_all)); done)
  | (unfold State.putPwrCfg; (try rw [keeps_next]); (try dsimp only); (repeat' split) <;> (try rw [keeps_next]) <;> (first | (first | apply State.issue_pending | apply State.streamIssue_pending | apply State.atOnce_pending | apply State.queued_pending | apply State.queuedDone_pending | apply State.seqStep_pending) | skip) <;> (try intros) <;> (try dsimp only) <;> ((repeat' split) <;> (try simp only [Prod.ext_iff] at *) <;> (try casesm* _ ∧ _) <;> (try subst_vars) <;> (try simp_all) <;> (repeat' (first | rw [foldl_pending] | rw [foldl_fst_pending])) <;> (try intros) <;> (try dsimp only) <;> ((repeat' split) <;> simp_all)))

@[simp] theorem State.putSafStatus_pending (s : State) (v : Nat) (newFault : Bool) (newAlert : Bool) : (State.putSafStatus s v newFault newAlert).1.pending = s.pending := by
  first
  | (unfold State.putSafStatus; (try dsimp only); all_goals ((repeat' split) <;> simp_all); done)
  | (unfold State.putSafStatus; (try dsimp only); all_goals ((repeat' split) <;> (try simp only [Prod.ext_iff] at *) <;> (try casesm* _ ∧ _) <;> (try subst_vars) <;> ((repeat' split) <;> simp_all)); done)
  | (unfold State.putSafStatus; (try rw [keeps_next]); (first | apply State.issue_pending | apply State.streamIssue_pending | apply State.atOnce_pending | apply State.queued_pending | apply State.queuedDone_pending | apply State.seqStep_pending); intros; (try dsimp only); all_goals ((repeat' split) <;> simp_all); done)
  | (unfold State.putSafStatus; (try rw [keeps_next]); (first | apply State.issue_pending | apply State.streamIssue_pending | apply State.atOnce_pending | apply State.queued_pending | apply State.queuedDone_pending | apply State.seqStep_pending); intros; (try dsimp only); all_goals ((repeat' split) <;> (try simp only [Prod.ext_iff] at *) <;> (try casesm* _ ∧ _) <;> (try subst_vars) <;> ((repeat' split) <;> simp_all)); done)
  | (unfold State.putSafStatus; (try rw [keeps_next]); (try dsimp only); ((repeat' split) <;> (try simp only [Prod.ext_iff] at *) <;> (try casesm* _ ∧ _) <;> (try subst_vars) <;> (try simp_all) <;> (repeat' (first | rw [foldl_pending] | rw [foldl_fst_pending])) <;> (try intros) <;> (try dsimp only) <;> ((repeat' split) <;> simp_all)); done)
  | (unfold State.putSafStatus; (try rw [keeps_next]); (try dsimp only); (repeat' split) <;> (try rw [keeps_next]) <;> (first | (first | apply State.issue_pending | apply State.streamIssue_pending | apply State.atOnce_pending | apply State.queued_pending | apply State.queuedDone_pending | apply State.seqStep_pending) | skip) <;> (try intros) <;> (try dsimp only) <;> ((repeat' split) <;> (try simp only [Prod.ext_iff] at *) <;> (try casesm* _ ∧ _) <;> (try subst_vars) <;> (try simp_all) <;> (repeat' (first | rw [foldl_pending] | rw [foldl_fst_pending])) <;> (try intros) <;> (try dsimp only) <;> ((repeat' split) <;> simp_all)))

@[simp] theorem State.putPtn_pending (s : State) (p : PtnId) (expert : Bool) (off : Nat) (v : Nat) (anew : Bool) : (State.putPtn s p expert off v anew).1.pending = s.pending := by
  unfold State.putPtn; (try dsimp only); all_goals ((repeat' split) <;> simp_all)

@[simp] theorem State.putQlnk_pending (s : State) (n : QpId) (off : Nat) (v : Nat) : (State.putQlnk s n off v).1.pending = s.pending := by
  unfold State.putQlnk; (try dsimp only); all_goals ((repeat' split) <;> simp_all)

@[simp] theorem State.putBlk_pending (s : State) (b : Blk) (off : Nat) (expert : Bool) (w : RegVal) : (State.putBlk s b off expert w).1.pending = s.pending := by
  unfold State.putBlk; (try dsimp only); all_goals ((repeat' split) <;> simp_all)

@[simp] theorem State.regPut_pending (s : State) (h : Hdr) (a : W64) (v : RegVal) : (State.regPut s h a v).1.pending = s.pending := by
  unfold State.regPut; (try dsimp only); all_goals ((repeat' split) <;> simp_all)

theorem execRegRead_pending (h : Hdr) (addrs : List W64) (s : State) : Keeps (execRegRead h addrs s) s := by
  first
  | (unfold execRegRead; (try dsimp only); all_goals ((repeat' split) <;> simp_all); done)
  | (unfold execRegRead; (try dsimp only); all_goals ((repeat' split) <;> (try simp only [Prod.ext_iff] at *) <;> (try casesm* _ ∧ _) <;> (try subst_vars) <;> ((repeat' split) <;> simp_all)); done)
  | (unfold execRegRead; (try rw [keeps_next]); (first | apply State.issue_pending | apply State.streamIssue_pending | apply State.atOnce_pending | apply State.queued_pending | apply State.queuedDone_pending | apply State.seqStep_pending); intros; (try dsimp only); all_goals ((repeat' split) <;> simp_all); done)
  | (unfold execRegRead; (try rw [keeps_next]); (first | apply State.issue_pending | apply State.streamIssue_pending | apply State.atOnce_pending | apply State.queued_pending | apply State.queuedDone_pending | apply State.seqStep_pending); intros; (try dsimp only); all_goals ((repeat' split) <;> (try simp only [Prod.ext_iff] at *) <;> (try casesm* _ ∧ _) <;> (try subst_vars) <;> ((repeat' split) <;> simp_all)); done)
  | (unfold execRegRead; (try rw [keeps_next]); (try dsimp only); ((repeat' split) <;> (try simp only [Prod.ext_iff] at *) <;> (try casesm* _ ∧ _) <;> (try subst_vars) <;> (try simp_all) <;> (repeat' (first | rw [foldl_pending] | rw [foldl_fst_pending])) <;> (try intros) <;> (try dsimp only) <;> ((repeat' split) <;> simp_all)); done)
  | (unfold execRegRead; (try rw [keeps_next]); (try dsimp only); (repeat' split) <;> (try rw [keeps_next]) <;> (first | (first | apply State.issue_pending | apply State.streamIssue_pending | apply State.atOnce_pending | apply State.queued_pending | apply State.queuedDone_pending | apply State.seqStep_pending) | skip) <;> (try intros) <;> (try dsimp only) <;> ((repeat' split) <;> (try simp only [Prod.ext_iff] at *) <;> (try casesm* _ ∧ _) <;> (try subst_vars) <;> (try simp_all) <;> (repeat' (first | rw [foldl_pending] | rw [foldl_fst_pending])) <;> (try intros) <;> (try dsimp only) <;> ((repeat' split) <;> simp_all)))

@[simp] theorem regPuts_pending (h : Hdr) (ws : List (W64 × RegVal)) (s : State) : (regPuts h ws s).1.pending = s.pending := by
  induction ws generalizing s with
  | nil => rfl
  | cons w ws ih => unfold regPuts; simp [ih]

@[simp] theorem State.regWrite_pending (s : State) (h : Hdr) (ws : List (W64 × RegVal)) : (State.regWrite s h ws).pending = s.pending := by
  unfold State.regWrite; (try rw [keeps_next]); (first | apply State.issue_pending | apply State.streamIssue_pending | apply State.atOnce_pending | apply State.queued_pending | apply State.queuedDone_pending | apply State.seqStep_pending); intros; (try dsimp only); all_goals ((repeat' split) <;> simp_all)

theorem execRegWrite_pending (h : Hdr) (writes : List (W64 × RegVal)) (s : State) : Keeps (execRegWrite h writes s) s := by
  unfold execRegWrite; (try dsimp only); all_goals ((repeat' split) <;> simp_all)

@[simp] theorem State.regOne_pending (s : State) (h : Hdr) (a : W64) (v : W64) (anew : BitVec 2) : Keeps (State.regOne s h a v anew) s := by
  unfold State.regOne; (try dsimp only); all_goals ((repeat' split) <;> simp_all)

theorem execPtnNumModeWrite_pending (h : Hdr) (p : PtnId) (v : W64) (s : State) : Keeps (execPtnNumModeWrite h p v s) s := by
  unfold execPtnNumModeWrite; (try dsimp only); all_goals ((repeat' split) <;> simp_all)

theorem execPtnStashCfgWrite_pending (h : Hdr) (p : PtnId) (v : W64) (s : State) : Keeps (execPtnStashCfgWrite h p v s) s := by
  unfold execPtnStashCfgWrite; (try dsimp only); all_goals ((repeat' split) <;> simp_all)

theorem execPtnSpillBaseWrite_pending (h : Hdr) (p : PtnId) (v : W64) (s : State) : Keeps (execPtnSpillBaseWrite h p v s) s := by
  unfold execPtnSpillBaseWrite; (try dsimp only); all_goals ((repeat' split) <;> simp_all)

theorem execPtnQCfgWrite_pending (h : Hdr) (p : PtnId) (q : QueueId) (v : W64) (s : State) : Keeps (execPtnQCfgWrite h p q v s) s := by
  unfold execPtnQCfgWrite; (try dsimp only); all_goals ((repeat' split) <;> simp_all)

theorem execPtnSchedCfgWrite_pending (h : Hdr) (p : PtnId) (v : W64) (s : State) : Keeps (execPtnSchedCfgWrite h p v s) s := by
  unfold execPtnSchedCfgWrite; (try dsimp only); all_goals ((repeat' split) <;> simp_all)

theorem execPtnServeCfgWrite_pending (h : Hdr) (p : PtnId) (v : W64) (s : State) : Keeps (execPtnServeCfgWrite h p v s) s := by
  unfold execPtnServeCfgWrite; (try dsimp only); all_goals ((repeat' split) <;> simp_all)

theorem execPtnReplyCfgWrite_pending (h : Hdr) (p : PtnId) (v : W64) (s : State) : Keeps (execPtnReplyCfgWrite h p v s) s := by
  unfold execPtnReplyCfgWrite; (try dsimp only); all_goals ((repeat' split) <;> simp_all)

theorem execPtnMemSlotsWrite_pending (h : Hdr) (p : PtnId) (v : W64) (s : State) : Keeps (execPtnMemSlotsWrite h p v s) s := by
  unfold execPtnMemSlotsWrite; (try dsimp only); all_goals ((repeat' split) <;> simp_all)

theorem execPtnSemCountWrite_pending (h : Hdr) (p : PtnId) (sem : SemId) (v : RegVal) (s : State) : Keeps (execPtnSemCountWrite h p sem v s) s := by
  unfold execPtnSemCountWrite; (try dsimp only); all_goals ((repeat' split) <;> simp_all)

theorem execPtnViolInfoClear_pending (h : Hdr) (p : PtnId) (v : RegVal) (s : State) : Keeps (execPtnViolInfoClear h p v s) s := by
  unfold execPtnViolInfoClear; (try dsimp only); all_goals ((repeat' split) <;> simp_all)

theorem execModMemCfgWrite_pending (h : Hdr) (v : W64) (s : State) : Keeps (execModMemCfgWrite h v s) s := by
  unfold execModMemCfgWrite; (try dsimp only); all_goals ((repeat' split) <;> simp_all)

theorem execModSharedLabelWrite_pending (h : Hdr) (v : W64) (s : State) : Keeps (execModSharedLabelWrite h v s) s := by
  unfold execModSharedLabelWrite; (try dsimp only); all_goals ((repeat' split) <;> simp_all)

theorem execModFabricWrite_pending (h : Hdr) (v : W64) (s : State) : Keeps (execModFabricWrite h v s) s := by
  unfold execModFabricWrite; (try dsimp only); all_goals ((repeat' split) <;> simp_all)

theorem execQlnkEnable_pending (h : Hdr) (qp : QpId) (v : W64) (s : State) : Keeps (execQlnkEnable h qp v s) s := by
  unfold execQlnkEnable; (try dsimp only); all_goals ((repeat' split) <;> simp_all)

theorem execQlnkResWrite_pending (h : Hdr) (qp : QpId) (p : PtnId) (v : W64) (s : State) : Keeps (execQlnkResWrite h qp p v s) s := by
  unfold execQlnkResWrite; (try dsimp only); all_goals ((repeat' split) <;> simp_all)

theorem execQoreaLinkReset_pending (h : Hdr) (qp : QpId) (v : W64) (s : State) : Keeps (execQoreaLinkReset h qp v s) s := by
  unfold execQoreaLinkReset; (try dsimp only); all_goals ((repeat' split) <;> simp_all)

theorem execUapraLinkReset_pending (h : Hdr) (up : UpId) (v : W64) (s : State) : Keeps (execUapraLinkReset h up v s) s := by
  unfold execUapraLinkReset; (try dsimp only); all_goals ((repeat' split) <;> simp_all)

theorem execPwrCfgWrite_pending (h : Hdr) (v : W64) (s : State) : Keeps (execPwrCfgWrite h v s) s := by
  unfold execPwrCfgWrite; (try dsimp only); all_goals ((repeat' split) <;> simp_all)

theorem execSafStatusClear_pending (h : Hdr) (v : W64) (newFault : Bool) (newAlert : Bool) (s : State) : Keeps (execSafStatusClear h v newFault newAlert s) s := by
  unfold execSafStatusClear; (try dsimp only); all_goals ((repeat' split) <;> simp_all)

theorem execRegisterWrite_pending (h : Hdr) (addr : W64) (v : W64) (s : State) : Keeps (execRegisterWrite h addr v s) s := by
  unfold execRegisterWrite; (try dsimp only); all_goals ((repeat' split) <;> simp_all)

@[simp] theorem State.powerEvent_pending (s : State) (target : Nat) (phase : Nat) (src : BitVec 4) (port : BitVec 6) (mask : W32) : (State.powerEvent s target phase src port mask).pending = s.pending := by
  unfold State.powerEvent; (try dsimp only); all_goals ((repeat' split) <;> simp_all)

@[simp] theorem State.leaveL1_pending (s : State) : (State.leaveL1 s).pending = s.pending := by
  unfold State.leaveL1; (try dsimp only); all_goals ((repeat' split) <;> simp_all)

@[simp] theorem State.transBegin_pending (s : State) (t : PTrans) : (State.transBegin s t).pending = s.pending := by
  unfold State.transBegin; (try dsimp only); all_goals ((repeat' split) <;> simp_all)

@[simp] theorem State.transRails_pending (s : State) (t : PTrans) (bus : Nat) : (State.transRails s t bus).pending = s.pending := by
  unfold State.transRails; (try dsimp only); all_goals ((repeat' split) <;> simp_all)

@[simp] theorem State.transSupplied_pending (s : State) (t : PTrans) : (State.transSupplied s t).pending = s.pending := by
  unfold State.transSupplied; (try dsimp only); all_goals ((repeat' split) <;> simp_all)

@[simp] theorem State.transStop_pending (s : State) (t : PTrans) : (State.transStop s t).pending = s.pending := by
  unfold State.transStop; (try dsimp only); all_goals ((repeat' split) <;> simp_all)

@[simp] theorem State.wakeL2_pending (s : State) (src : BitVec 4) (port : BitVec 6) : (State.wakeL2 s src port).pending = s.pending := by
  unfold State.wakeL2; (try dsimp only); all_goals ((repeat' split) <;> simp_all)

@[simp] theorem State.portReply_pending (s : State) (u : UpId) (h : Hdr) (opcode : W16) (code : Status) (bytes : List Byte) : (State.portReply s u h opcode code bytes).pending = s.pending := by
  unfold State.portReply; (try dsimp only); all_goals ((repeat' split) <;> simp_all)

@[simp] theorem State.setSeq_pending (s : State) (h : Hdr) : (State.setSeq s h).pending = s.pending := by
  unfold State.setSeq; (try dsimp only); all_goals ((repeat' split) <;> simp_all)

@[simp] theorem State.accept_pending (s : State) (h : Hdr) (op : Nat) (cmd : Instr) (credits : Nat) : (State.accept s h op cmd credits).pending = s.pending := by
  unfold State.accept; (try dsimp only); all_goals ((repeat' split) <;> simp_all)

theorem execPacketArrival_pending (port : UpId) (bytes : List Byte) (s : State) : Keeps (execPacketArrival port bytes s) s := by
  unfold execPacketArrival; (try dsimp only); all_goals ((repeat' split) <;> simp_all)

theorem execUapraFrame_pending (port : UpId) (f : LinkFrame) (s : State) : Keeps (execUapraFrame port f s) s := by
  unfold execUapraFrame; (try dsimp only); all_goals ((repeat' split) <;> simp_all)

theorem execUapraFrameRetry_pending (port : UpId) (s : State) : Keeps (execUapraFrameRetry port s) s := by
  unfold execUapraFrameRetry; (try dsimp only); all_goals ((repeat' split) <;> simp_all)

theorem execUapraRetrain_pending (port : UpId) (up : Bool) (s : State) : Keeps (execUapraRetrain port up s) s := by
  unfold execUapraRetrain; (try dsimp only); all_goals ((repeat' split) <;> simp_all)

@[simp] theorem State.survive_pending (s : State) (kind : Nat) : (State.survive s kind).pending = s.pending := by
  unfold State.survive; (try dsimp only); all_goals ((repeat' split) <;> simp_all)

@[simp] theorem State.beginReset_pending (s : State) (kind : Nat) (cause : Byte) (hold : RstHold) : (State.beginReset s kind cause hold).pending = s.pending := by
  unfold State.beginReset; (try dsimp only); all_goals ((repeat' split) <;> simp_all)

@[simp] theorem State.warmBegin_pending (s : State) (cause : Byte) (hold : RstHold) : (State.warmBegin s cause hold).pending = s.pending := by
  unfold State.warmBegin; (try dsimp only); all_goals ((repeat' split) <;> simp_all)

@[simp] theorem State.sendEvt_pending (s : State) (kind : Byte) (body : List Byte) : (State.sendEvt s kind body).pending = s.pending := by
  unfold State.sendEvt; (try dsimp only); all_goals ((repeat' split) <;> simp_all)

@[simp] theorem State.startStrips_pending (s : State) : s.startStrips.pending = s.pending := by
  unfold State.startStrips; extract_lets one s1
  rw [foldl_pending]
  · simp only [s1]; rw [foldl_pending]; intro s n; rfl
  · intro s n; rfl

@[simp] theorem State.startPorts_pending (s : State) : s.startPorts.pending = s.pending := by
  unfold State.startPorts; extract_lets s1
  rw [foldl_pending]
  · simp only [s1]; rw [foldl_pending]; intro s n; rfl
  · intro s n; simp

@[simp] theorem State.startUp_pending (s : State) (kind : BitVec 2) (cause : Byte) (told : Bool) : (s.startUp kind cause told).pending = s.pending := by
  unfold State.startUp; extract_lets b m md e s2 saf esns pw s3 s4 s5
  have e2 : s2.pending = s.pending := rfl
  clear_value s2
  split
  · exact e2
  · rw [State.sendEvt_pending]
    have e4 : s4.pending = s.pending := by simp only [s4]; rw [State.startPorts_pending, State.startStrips_pending]; exact e2
    clear_value s4
    simp only [s5]
    split
    · exact e4
    · rw [State.sendEvt_pending, e4]

theorem execModuleWarmReset_pending (cause : Byte) (s : State) : Keeps (execModuleWarmReset cause s) s := by
  unfold execModuleWarmReset; (try dsimp only); all_goals ((repeat' split) <;> simp_all)

theorem execColdReset_pending (cause : Byte) (s : State) : Keeps (execColdReset cause s) s := by
  unfold execColdReset; (try dsimp only); all_goals ((repeat' split) <;> simp_all)

@[simp] theorem State.sendNak_pending (s : State) (n : QpId) : (State.sendNak s n).pending = s.pending := by
  unfold State.sendNak; (try dsimp only); all_goals ((repeat' split) <;> simp_all)

theorem execFlitReceive_pending (qp : QpId) (f : Flit) (s : State) : Keeps (execFlitReceive qp f s) s := by
  unfold execFlitReceive; (try dsimp only); all_goals ((repeat' split) <;> simp_all)

theorem execNak_pending (qp : QpId) (fseq : BitVec 12) (stamp : W64) (s : State) : Keeps (execNak qp fseq stamp s) s := by
  unfold execNak; (try dsimp only); all_goals ((repeat' split) <;> simp_all)

theorem execQoreaSilentTimeout_pending (qp : QpId) (stamp : W64) (s : State) : Keeps (execQoreaSilentTimeout qp stamp s) s := by
  unfold execQoreaSilentTimeout; (try dsimp only); all_goals ((repeat' split) <;> simp_all)

theorem execTrainingStepTimeout_pending (qp : QpId) (lanes : BitVec 8) (s : State) : Keeps (execTrainingStepTimeout qp lanes s) s := by
  unfold execTrainingStepTimeout; (try dsimp only); all_goals ((repeat' split) <;> simp_all)

theorem execLinkTrained_pending (qp : QpId) (peerNode : BitVec 13) (s : State) : Keeps (execLinkTrained qp peerNode s) s := by
  unfold execLinkTrained; (try dsimp only); all_goals ((repeat' split) <;> simp_all)

@[simp] theorem State.endXfer_pending (s : State) (x : Xfer) (failed : Option Status) : (State.endXfer s x failed).pending = s.pending := by
  unfold State.endXfer; (try dsimp only); all_goals ((repeat' split) <;> simp_all)

@[simp] theorem State.openXfer_pending (s : State) (h : Hdr) (dir : BitVec 2) (ep : Endpoint) (addr : W64) (bytes : W64) : (State.openXfer s h dir ep addr bytes).1.pending = s.pending := by
  first
  | (unfold State.openXfer; (try dsimp only); all_goals ((repeat' split) <;> simp_all); done)
  | (unfold State.openXfer; (try dsimp only); all_goals ((repeat' split) <;> (try simp only [Prod.ext_iff] at *) <;> (try casesm* _ ∧ _) <;> (try subst_vars) <;> ((repeat' split) <;> simp_all)); done)
  | (unfold State.openXfer; (try rw [keeps_next]); (first | apply State.issue_pending | apply State.streamIssue_pending | apply State.atOnce_pending | apply State.queued_pending | apply State.queuedDone_pending | apply State.seqStep_pending); intros; (try dsimp only); all_goals ((repeat' split) <;> simp_all); done)
  | (unfold State.openXfer; (try rw [keeps_next]); (first | apply State.issue_pending | apply State.streamIssue_pending | apply State.atOnce_pending | apply State.queued_pending | apply State.queuedDone_pending | apply State.seqStep_pending); intros; (try dsimp only); all_goals ((repeat' split) <;> (try simp only [Prod.ext_iff] at *) <;> (try casesm* _ ∧ _) <;> (try subst_vars) <;> ((repeat' split) <;> simp_all)); done)
  | (unfold State.openXfer; (try rw [keeps_next]); (try dsimp only); ((repeat' split) <;> (try simp only [Prod.ext_iff] at *) <;> (try casesm* _ ∧ _) <;> (try subst_vars) <;> (try simp_all) <;> (repeat' (first | rw [foldl_pending] | rw [foldl_fst_pending])) <;> (try intros) <;> (try dsimp only) <;> ((repeat' split) <;> simp_all)); done)
  | (unfold State.openXfer; (try rw [keeps_next]); (try dsimp only); (repeat' split) <;> (try rw [keeps_next]) <;> (first | (first | apply State.issue_pending | apply State.streamIssue_pending | apply State.atOnce_pending | apply State.queued_pending | apply State.queuedDone_pending | apply State.seqStep_pending) | skip) <;> (try intros) <;> (try dsimp only) <;> ((repeat' split) <;> (try simp only [Prod.ext_iff] at *) <;> (try casesm* _ ∧ _) <;> (try subst_vars) <;> (try simp_all) <;> (repeat' (first | rw [foldl_pending] | rw [foldl_fst_pending])) <;> (try intros) <;> (try dsimp only) <;> ((repeat' split) <;> simp_all)))

theorem State.onQp_pending (s : State) (n : QpId) (h : QHdr) (wait : Bool) (f : State → State) (hf : ∀ s, (f s).pending = s.pending) : Keeps (s.onQp n h wait f) s := by
  unfold State.onQp; simp; split <;> simp [hf]

theorem execDataIn_pending (h : Hdr) (ep : Endpoint) (addr : W64) (bytes : W64) (s : State) : Keeps (execDataIn h ep addr bytes s) s := by
  unfold execDataIn; (try rw [keeps_next]); (first | apply State.issue_pending | apply State.streamIssue_pending | apply State.atOnce_pending | apply State.queued_pending | apply State.queuedDone_pending | apply State.seqStep_pending | apply State.onQp_pending); intros; (try dsimp only); all_goals ((repeat' split) <;> simp_all)

theorem execDataOut_pending (h : Hdr) (ep : Endpoint) (addr : W64) (bytes : W64) (s : State) : Keeps (execDataOut h ep addr bytes s) s := by
  unfold execDataOut; (try rw [keeps_next]); (first | apply State.issue_pending | apply State.streamIssue_pending | apply State.atOnce_pending | apply State.queued_pending | apply State.queuedDone_pending | apply State.seqStep_pending | apply State.onQp_pending); intros; (try dsimp only); all_goals ((repeat' split) <;> simp_all)

theorem execData_pending (qp : QpId) (h : QHdr) (bytes : List Byte) (s : State) : Keeps (execData qp h bytes s) s := by
  unfold execData; (try rw [keeps_next]); (first | apply State.issue_pending | apply State.streamIssue_pending | apply State.atOnce_pending | apply State.queued_pending | apply State.queuedDone_pending | apply State.seqStep_pending | apply State.onQp_pending); intros; (try dsimp only); all_goals ((repeat' split) <;> (try simp only [Prod.ext_iff] at *) <;> (try casesm* _ ∧ _) <;> (try subst_vars) <;> ((repeat' split) <;> simp_all))

theorem execRead_pending (qp : QpId) (h : QHdr) (len : Nat) (s : State) : Keeps (execRead qp h len s) s := by
  unfold execRead; (try rw [keeps_next]); (first | apply State.issue_pending | apply State.streamIssue_pending | apply State.atOnce_pending | apply State.queued_pending | apply State.queuedDone_pending | apply State.seqStep_pending | apply State.onQp_pending); intros; (try dsimp only); all_goals ((repeat' split) <;> (try simp only [Prod.ext_iff] at *) <;> (try casesm* _ ∧ _) <;> (try subst_vars) <;> ((repeat' split) <;> simp_all))

@[simp] theorem State.finishOuts_pending (s : State) (p : PtnId) : (State.finishOuts s p).pending = s.pending := by
  unfold State.finishOuts; (try rw [keeps_next]); (try dsimp only); ((repeat' split) <;> (try simp only [Prod.ext_iff] at *) <;> (try casesm* _ ∧ _) <;> (try subst_vars) <;> (try simp_all) <;> (repeat' (first | rw [foldl_pending] | rw [foldl_fst_pending])) <;> (try intros) <;> (try dsimp only) <;> ((repeat' split) <;> simp_all))

theorem execAck_pending (qp : QpId) (p : PtnId) (cls : Fin 4) (pktNum : W64) (s : State) : Keeps (execAck qp p cls pktNum s) s := by
  unfold execAck; rw [keeps_next]; split <;> simp

theorem execRouteSet_pending (h : Hdr) (portMask : W64) (first : W16) (count : W16) (value : Byte) (s : State) : Keeps (execRouteSet h portMask first count value s) s := by
  unfold execRouteSet; (try rw [keeps_next]); (try dsimp only); (repeat' split) <;> (try rw [keeps_next]) <;> (first | (first | apply State.issue_pending | apply State.streamIssue_pending | apply State.atOnce_pending | apply State.queued_pending | apply State.queuedDone_pending | apply State.seqStep_pending | apply State.onQp_pending) | skip) <;> (try intros) <;> (try dsimp only) <;> ((repeat' split) <;> (try simp only [Prod.ext_iff] at *) <;> (try casesm* _ ∧ _) <;> (try subst_vars) <;> (try simp_all) <;> (repeat' (first | rw [foldl_pending] | rw [foldl_fst_pending])) <;> (try intros) <;> (try dsimp only) <;> ((repeat' split) <;> simp_all))

@[simp] theorem State.updRound_pending (s : State) (p : PtnId) (g : W32) (num : W64) (f : Round → Round) : (State.updRound s p g num f).pending = s.pending := by
  unfold State.updRound; (try dsimp only); all_goals ((repeat' split) <;> simp_all)

@[simp] theorem State.updBucket_pending (s : State) (p : PtnId) (g : W32) (num : W64) (b : Nat) (f : Bucket → Bucket) : (State.updBucket s p g num b f).pending = s.pending := by
  unfold State.updBucket; (try dsimp only); all_goals ((repeat' split) <;> simp_all)

@[simp] theorem State.toMember_pending (s : State) (p : PtnId) (g : Group) (i : Nat) (kind : Byte) (vl : BitVec 4) (round : W64) (b : Nat) (body : List Byte) : (State.toMember s p g i kind vl round b body).pending = s.pending := by
  unfold State.toMember; (try dsimp only); all_goals ((repeat' split) <;> simp_all)

@[simp] theorem State.endUpdate_pending (s : State) (p : PtnId) (h : Hdr) (item : Nat) (set : Option Nat) (skipped : W32) (failed : Option Status) : (State.endUpdate s p h item set skipped failed).pending = s.pending := by
  unfold State.endUpdate; (try dsimp only); all_goals ((repeat' split) <;> simp_all)

@[simp] theorem State.finishRound_pending (s : State) (p : PtnId) (g : Group) (r : Round) : (State.finishRound s p g r).pending = s.pending := by
  unfold State.finishRound; (try dsimp only); all_goals ((repeat' split) <;> simp_all)

@[simp] theorem State.failRound_pending (s : State) (p : PtnId) (g : Group) (r : Round) (code : Status) : (State.failRound s p g r code).pending = s.pending := by
  unfold State.failRound; (try dsimp only); all_goals ((repeat' split) <;> simp_all)

@[simp] theorem State.addGrad_pending (s : State) (p : PtnId) (g : W32) (num : W64) (b : Nat) (member : Nat) (off : Nat) (qs : List W32) : (State.addGrad s p g num b member off qs).pending = s.pending := by
  unfold State.addGrad; (try dsimp only); all_goals ((repeat' split) <;> simp_all)

@[simp] theorem State.memberScale_pending (s : State) (p : PtnId) (g : W32) (num : W64) (b : Nat) (f : BitVec 16) (mark : BitVec 2) : (State.memberScale s p g num b f mark).pending = s.pending := by
  unfold State.memberScale; (try dsimp only); all_goals ((repeat' split) <;> simp_all)

@[simp] theorem State.setScale_pending (s : State) (p : PtnId) (g : W32) (num : W64) (b : Nat) : (State.setScale s p g num b).pending = s.pending := by
  unfold State.setScale; (try dsimp only); all_goals ((repeat' split) <;> simp_all)

@[simp] theorem State.setScales_pending (s : State) (p : PtnId) (g : W32) : (State.setScales s p g).pending = s.pending := by
  unfold State.setScales; (try dsimp only); all_goals ((repeat' split) <;> simp_all)

@[simp] theorem State.addExp_pending (s : State) (p : PtnId) (g : W32) (num : W64) (b : Nat) (member : Nat) (e : BitVec 16) (nf : Bool) : (State.addExp s p g num b member e nf).pending = s.pending := by
  unfold State.addExp; (try dsimp only); all_goals ((repeat' split) <;> simp_all)

@[simp] theorem State.sendExp_pending (s : State) (p : PtnId) (g : W32) (num : W64) (b : Nat) : (State.sendExp s p g num b).pending = s.pending := by
  unfold State.sendExp; (try dsimp only); all_goals ((repeat' split) <;> simp_all)

@[simp] theorem State.openRound_pending (s : State) (p : PtnId) (g : Group) (h : Hdr) (item : Nat) (work : RoundWork) (buckets : List Bucket) : (State.openRound s p g h item work buckets).pending = s.pending := by
  unfold State.openRound; (try dsimp only); all_goals ((repeat' split) <;> simp_all)

@[simp] theorem State.closeBucket_pending (s : State) (p : PtnId) (g : Group) (r : Round) (b : Nat) (k : Bucket) : (State.closeBucket s p g r b k).pending = s.pending := by
  unfold State.closeBucket; (try rw [keeps_next]); (try dsimp only); ((repeat' split) <;> (try simp only [Prod.ext_iff] at *) <;> (try casesm* _ ∧ _) <;> (try subst_vars) <;> (try simp_all) <;> (repeat' (first | rw [foldl_pending] | rw [foldl_fst_pending])) <;> (try intros) <;> (try dsimp only) <;> ((repeat' split) <;> simp_all))

@[simp] theorem State.paramsDone_pending (s : State) (p : PtnId) (g : W32) (num : W64) (b : Nat) : (State.paramsDone s p g num b).pending = s.pending := by
  unfold State.paramsDone; (try dsimp only); all_goals ((repeat' split) <;> simp_all)

@[simp] theorem State.storeParams_pending (s : State) (p : PtnId) (y : Group) (r : Round) (b : Nat) (k : Bucket) (i : Nat) (vs : List W32) : (State.storeParams s p y r b k i vs).1.pending = s.pending := by
  unfold State.storeParams; (try dsimp only); all_goals ((repeat' split) <;> simp_all)

@[simp] theorem State.memberParam_pending (s : State) (p : PtnId) (g : W32) (num : W64) (b : Nat) (i : Nat) (vs : List W32) : (State.memberParam s p g num b i vs).pending = s.pending := by
  unfold State.memberParam; (try dsimp only); all_goals ((repeat' split) <;> (try simp only [Prod.ext_iff] at *) <;> (try casesm* _ ∧ _) <;> (try subst_vars) <;> ((repeat' split) <;> simp_all))

@[simp] theorem State.sendParam_pending (s : State) (p : PtnId) (g : Group) (r : Round) (b : Nat) (out : List W32) : (State.sendParam s p g r b out).pending = s.pending := by
  unfold State.sendParam; (try dsimp only); all_goals ((repeat' split) <;> simp_all)

theorem execBucketClose_pending (p : PtnId) (group : W32) (bucket : Nat) (s : State) : Keeps (execBucketClose p group bucket s) s := by
  unfold execBucketClose; (try dsimp only); all_goals ((repeat' split) <;> simp_all)

theorem State.onGroup_pending (s : State) (qp : QpId) (h : QHdr) (g : GHdr) (wait : Bool) (f : State → Group → Nat → State)
    (hf : ∀ s y m, (f s y m).pending = s.pending) : Keeps (s.onGroup qp h g wait f) s := by
  unfold State.onGroup; apply State.onQp_pending; intros; (repeat' split) <;> simp_all

theorem State.inRound_pending (s : State) (h : QHdr) (g : GHdr) (f : State → Group → Round → State)
    (hf : ∀ s y r, (f s y r).pending = s.pending) : (s.inRound h g f).pending = s.pending := by
  unfold State.inRound; (repeat' split) <;> simp_all

theorem execExp_pending (qp : QpId) (h : QHdr) (g : GHdr) (bucket : Nat) (e : BitVec 16) (nonfinite : Bool) (s : State) :
    Keeps (execExp qp h g bucket e nonfinite s) s := by
  unfold execExp; refine State.onGroup_pending _ _ _ _ _ _ fun s y m => ?_
  (repeat' split) <;> (try simp)
  refine State.inRound_pending _ _ _ _ fun s y r => ?_
  split <;> simp

theorem execScale_pending (qp : QpId) (h : QHdr) (g : GHdr) (bucket : Nat) (f : BitVec 16) (mark : BitVec 2) (s : State) :
    Keeps (execScale qp h g bucket f mark s) s :=
  State.onGroup_pending _ _ _ _ _ _ fun s y m => State.inRound_pending _ _ _ _ fun s y r => by (repeat' split) <;> simp

theorem execGrad_pending (qp : QpId) (h : QHdr) (g : GHdr) (bucket : Nat) (vals : List W32) (s : State) : Keeps (execGrad qp h g bucket vals s) s :=
  State.onGroup_pending _ _ _ _ _ _ fun s y m => State.inRound_pending _ _ _ _ fun s y r => by split <;> simp

theorem execParam_pending (qp : QpId) (h : QHdr) (g : GHdr) (bucket : Nat) (vals : List W32) (s : State) : Keeps (execParam qp h g bucket vals s) s :=
  State.onGroup_pending _ _ _ _ _ _ fun s y m =>
    State.inRound_pending _ _ _ _ fun s y r => by dsimp only; (repeat' split) <;> simp

theorem execAbsent_pending (qp : QpId) (h : QHdr) (g : GHdr) (s : State) : Keeps (execAbsent qp h g s) s := by
  unfold execAbsent; (try rw [keeps_next]); (first | apply State.issue_pending | apply State.streamIssue_pending | apply State.atOnce_pending | apply State.queued_pending | apply State.queuedDone_pending | apply State.seqStep_pending | apply State.onQp_pending | apply State.onGroup_pending | apply State.inRound_pending); intros; (try dsimp only); all_goals ((repeat' split) <;> simp_all)

theorem execAbort_pending (qp : QpId) (h : QHdr) (g : GHdr) (s : State) : Keeps (execAbort qp h g s) s := by
  unfold execAbort; (try rw [keeps_next]); (first | apply State.issue_pending | apply State.streamIssue_pending | apply State.atOnce_pending | apply State.queued_pending | apply State.queuedDone_pending | apply State.seqStep_pending | apply State.onQp_pending | apply State.onGroup_pending | apply State.inRound_pending); intros; (try dsimp only); all_goals ((repeat' split) <;> simp_all)

@[simp] theorem State.openReduce_pending (s : State) (p : PtnId) (g : Group) (h : Hdr) : (State.openReduce s p g h).pending = s.pending := by
  unfold State.openReduce; (try dsimp only); all_goals ((repeat' split) <;> (try simp only [Prod.ext_iff] at *) <;> (try casesm* _ ∧ _) <;> (try subst_vars) <;> ((repeat' split) <;> simp_all))

@[simp] theorem State.activate_pending (s : State) (p : PtnId) (id : W32) : (State.activate s p id).pending = s.pending := by
  unfold State.activate; (try rw [keeps_next]); (try dsimp only); ((repeat' split) <;> (try simp only [Prod.ext_iff] at *) <;> (try casesm* _ ∧ _) <;> (try subst_vars) <;> (try simp_all) <;> (repeat' (first | rw [foldl_pending] | rw [foldl_fst_pending])) <;> (try intros) <;> (try dsimp only) <;> ((repeat' split) <;> simp_all))

@[simp] theorem State.tryActive_pending (s : State) (p : PtnId) (id : W32) : (State.tryActive s p id).pending = s.pending := by
  unfold State.tryActive; (try dsimp only); all_goals ((repeat' split) <;> simp_all)

@[simp] theorem State.answerJoin_pending (s : State) (p : PtnId) (g : Group) (m : Nat) : (s.answerJoin p g m).pending = s.pending := by simp [State.answerJoin]

@[simp] theorem State.sendJoin_pending (s : State) (p : PtnId) (g : Group) : (State.sendJoin s p g).pending = s.pending := by
  unfold State.sendJoin; (try dsimp only); all_goals ((repeat' split) <;> simp_all)

@[simp] theorem State.joinNow_pending (s : State) (p : PtnId) (id : W32) : (State.joinNow s p id).pending = s.pending := by
  unfold State.joinNow; (try dsimp only); all_goals ((repeat' split) <;> simp_all)

theorem execJoin_pending (qp : QpId) (h : QHdr) (g : GHdr) (roundTotal : W64) (s : State) : Keeps (execJoin qp h g roundTotal s) s := by
  unfold execJoin; (try rw [keeps_next]); (first | apply State.issue_pending | apply State.streamIssue_pending | apply State.atOnce_pending | apply State.queued_pending | apply State.queuedDone_pending | apply State.seqStep_pending | apply State.onQp_pending | apply State.onGroup_pending | apply State.inRound_pending); intros; (try dsimp only); all_goals ((repeat' split) <;> simp_all)

theorem execGroupSet_pending (h : Hdr) (g : GroupBlock) (s : State) : Keeps (execGroupSet h g s) s := by
  unfold execGroupSet; (try rw [keeps_next]); (first | apply State.issue_pending | apply State.streamIssue_pending | apply State.atOnce_pending | apply State.queued_pending | apply State.queuedDone_pending | apply State.seqStep_pending | apply State.onQp_pending | apply State.onGroup_pending | apply State.inRound_pending); intros; (try dsimp only); all_goals ((repeat' split) <;> simp_all)

theorem execGroupLeave_pending (h : Hdr) (group : W32) (s : State) : Keeps (execGroupLeave h group s) s := by
  unfold execGroupLeave; (try rw [keeps_next]); (first | apply State.issue_pending | apply State.streamIssue_pending | apply State.atOnce_pending | apply State.queued_pending | apply State.queuedDone_pending | apply State.seqStep_pending | apply State.onQp_pending | apply State.onGroup_pending | apply State.inRound_pending); intros; (try dsimp only); all_goals ((repeat' split) <;> simp_all)

theorem execGroupTimeout_pending (p : PtnId) (group : W32) (s : State) : Keeps (execGroupTimeout p group s) s := by
  unfold execGroupTimeout; (try dsimp only); all_goals ((repeat' split) <;> simp_all)

theorem execReduce_pending (h : Hdr) (group : W32) (outB16 : Bool) (elems : W64) (src : W64) (dst : W64) (s : State) : Keeps (execReduce h group outB16 elems src dst s) s := by
  unfold execReduce; (try rw [keeps_next]); (first | apply State.issue_pending | apply State.streamIssue_pending | apply State.atOnce_pending | apply State.queued_pending | apply State.queuedDone_pending | apply State.seqStep_pending | apply State.onQp_pending | apply State.onGroup_pending | apply State.inRound_pending); intros; (try dsimp only); all_goals ((repeat' split) <;> simp_all)

@[simp] theorem State.sharedDiffers_pending (s : State) (im : Image) (version : Nat) : (State.sharedDiffers s im version).1.pending = s.pending := by
  unfold State.sharedDiffers; (try dsimp only); all_goals ((repeat' split) <;> simp_all)

@[simp] theorem State.placeModel_pending (s : State) (h : Hdr) (m : Except Status (Model × Ev)) : (State.placeModel s h m).1.pending = s.pending := by
  unfold State.placeModel; (try dsimp only); all_goals ((repeat' split) <;> simp_all)

theorem execModelLoad_pending (h : Hdr) (addr : W64) (bytes : W64) (flags : W32) (kvPoolGib : W16) (s : State) : Keeps (execModelLoad h addr bytes flags kvPoolGib s) s := by
  unfold execModelLoad; (try rw [keeps_next]); (first | apply State.issue_pending | apply State.streamIssue_pending | apply State.atOnce_pending | apply State.queued_pending | apply State.queuedDone_pending | apply State.seqStep_pending | apply State.onQp_pending | apply State.onGroup_pending | apply State.inRound_pending); intros; (try dsimp only); all_goals ((repeat' split) <;> (try simp only [Prod.ext_iff] at *) <;> (try casesm* _ ∧ _) <;> (try subst_vars) <;> ((repeat' split) <;> simp_all))

theorem execModelUnload_pending (h : Hdr) (handle : W16) (s : State) : Keeps (execModelUnload h handle s) s := by
  unfold execModelUnload; (try rw [keeps_next]); (first | apply State.issue_pending | apply State.streamIssue_pending | apply State.atOnce_pending | apply State.queued_pending | apply State.queuedDone_pending | apply State.seqStep_pending | apply State.onQp_pending | apply State.onGroup_pending | apply State.inRound_pending); intros; (try dsimp only); all_goals ((repeat' split) <;> simp_all)

@[simp] theorem State.fillGranules_pending (s : State) (p : PtnId) (ws : List Nat) (bs : List Byte) : (s.fillGranules p ws bs).1.pending = s.pending := by
  induction ws generalizing s bs with
  | nil => rfl
  | cons w ws ih =>
    unfold State.fillGranules
    split
    · rename_i h1; exact fst_pending h1 (by simp)
    · rename_i h1; rw [ih]; exact fst_pending h1 (by simp)

@[simp] theorem State.loadVariant_pending (s : State) (p : PtnId) (model : Nat) (tag : W32) (addr bytes : Nat) : (s.loadVariant p model tag addr bytes).1.pending = s.pending := by
  unfold State.loadVariant
  refine (Acc.bind_keeps _ _ ?_).trans (State.pRead_pending _ _ _ _ _)
  rintro s b _ rfl
  refine (Acc.bind_keeps _ _ ?_).trans rfl
  rintro s b _ rfl
  refine (Acc.bind_keeps _ _ ?_).trans (State.fillGranules_pending _ _ _ _)
  rintro s b _ rfl; rfl

theorem execVariantLoad_pending (h : Hdr) (model : W16) (tag : W32) (addr : W64) (bytes : W64) (s : State) : Keeps (execVariantLoad h model tag addr bytes s) s := by
  unfold execVariantLoad; rw [keeps_next]; apply State.queuedDone_pending; intro s
  split
  · rfl
  · split <;> (rename_i h1; exact fst_pending h1 (by simp))

theorem execVariantUnload_pending (h : Hdr) (model : W16) (tag : W32) (s : State) : Keeps (execVariantUnload h model tag s) s := by
  unfold execVariantUnload; (try rw [keeps_next]); (first | apply State.issue_pending | apply State.streamIssue_pending | apply State.atOnce_pending | apply State.queued_pending | apply State.queuedDone_pending | apply State.seqStep_pending | apply State.onQp_pending | apply State.onGroup_pending | apply State.inRound_pending); intros; (try dsimp only); all_goals ((repeat' split) <;> simp_all)

@[simp] theorem State.putRegs_pending (s : State) (p : PtnId) (b : List Byte) : (State.putRegs s p b).pending = s.pending := by
  unfold State.putRegs; (try dsimp only); all_goals ((repeat' split) <;> simp_all)

@[simp] theorem State.updFix_pending (s : State) (p : PtnId) (f : FixP → FixP) : (State.updFix s p f).pending = s.pending := by
  unfold State.updFix; (try dsimp only); all_goals ((repeat' split) <;> simp_all)

@[simp] theorem State.fenced_pending (s : State) (h : Hdr) (opcode : W16) : (State.fenced s h opcode).pending = s.pending := by
  unfold State.fenced; (try dsimp only); all_goals ((repeat' split) <;> simp_all)

@[simp] theorem State.fixSend_pending (s : State) (p : PtnId) (dest : Endpoint) (kind : Byte) (xfer : W32) (off : W64) (last : Bool) (bs : List Byte) : (State.fixSend s p dest kind xfer off last bs).1.pending = s.pending := by
  unfold State.fixSend; (try dsimp only); all_goals ((repeat' split) <;> simp_all)

@[simp] theorem State.sendCopy_pending (s : State) (h : Hdr) (item : Nat) (partner : Bool) (num : W32) (dest : Endpoint) (b : List Byte) : (State.sendCopy s h item partner num dest b).pending = s.pending := by
  unfold State.sendCopy; (try dsimp only); all_goals ((repeat' split) <;> simp_all)

@[simp] theorem State.saveNow_pending (s : State) (h : Hdr) (store : Endpoint) (toStore : Bool) (toPartner : Bool) : (State.saveNow s h store toStore toPartner).pending = s.pending := by
  unfold State.saveNow; (try dsimp only); all_goals ((repeat' split) <;> simp_all)

theorem execCkptSave_pending (h : Hdr) (store : Endpoint) (toStore toPartner : Bool) (timeoutMs : W16) (s : State) :
    Keeps (execCkptSave h store toStore toPartner timeoutMs s) s := by
  unfold execCkptSave; rw [keeps_next]; split
  · rfl
  · exact (State.queued_pending _ _ _ _ _ _ _ fun _ => by simp).trans (by simp)

@[simp] theorem State.endCopy_pending (s : State) (p : PtnId) (c : Copy) (failed : Option Status) : (State.endCopy s p c failed).pending = s.pending := by
  unfold State.endCopy; (try dsimp only); all_goals ((repeat' split) <;> simp_all)

theorem execCkAck_pending (qp : QpId) (h : QHdr) (num : W32) (status : W16) (_digest : List Byte) (s : State) : Keeps (execCkAck qp h num status _digest s) s := by
  unfold execCkAck; (try rw [keeps_next]); (first | apply State.issue_pending | apply State.streamIssue_pending | apply State.atOnce_pending | apply State.queued_pending | apply State.queuedDone_pending | apply State.seqStep_pending | apply State.onQp_pending | apply State.onGroup_pending | apply State.inRound_pending); intros; (try dsimp only); all_goals ((repeat' split) <;> simp_all)

theorem execCopyTimeout_pending (p : PtnId) (partner : Bool) (s : State) : Keeps (execCopyTimeout p partner s) s := by
  unfold execCopyTimeout; (try dsimp only); all_goals ((repeat' split) <;> simp_all)

theorem execPartnerSet_pending (h : Hdr) (role : Byte) (override : Bool) (peer : Endpoint) (addr bytes : W64) (s : State) :
    Keeps (execPartnerSet h role override peer addr bytes s) s := by
  unfold execPartnerSet; rw [keeps_next]; split
  · rfl
  · refine State.queued_pending _ _ _ _ _ _ _ fun s => ?_
    dsimp only
    (repeat' split) <;> simp

theorem execHello_pending (qp : QpId) (h : QHdr) (_feed : BitVec 4) (_size : W64) (s : State) : Keeps (execHello qp h _feed _size s) s := by
  unfold execHello; (try rw [keeps_next]); (first | apply State.issue_pending | apply State.streamIssue_pending | apply State.atOnce_pending | apply State.queued_pending | apply State.queuedDone_pending | apply State.seqStep_pending | apply State.onQp_pending | apply State.onGroup_pending | apply State.inRound_pending); intros; (try dsimp only); all_goals ((repeat' split) <;> simp_all)

@[simp] theorem State.endHello_pending (s : State) (p : PtnId) (h : Hdr) (failed : Option Status) : (State.endHello s p h failed).pending = s.pending := by
  unfold State.endHello; (try dsimp only); all_goals ((repeat' split) <;> simp_all)

theorem execHelloAck_pending (qp : QpId) (h : QHdr) (feed : BitVec 4) (status : W16) (_half : W64) (s : State) : Keeps (execHelloAck qp h feed status _half s) s := by
  unfold execHelloAck; (try rw [keeps_next]); (first | apply State.issue_pending | apply State.streamIssue_pending | apply State.atOnce_pending | apply State.queued_pending | apply State.queuedDone_pending | apply State.seqStep_pending | apply State.onQp_pending | apply State.onGroup_pending | apply State.inRound_pending); intros; (try dsimp only); all_goals ((repeat' split) <;> simp_all)

theorem execHelloTimeout_pending (p : PtnId) (s : State) : Keeps (execHelloTimeout p s) s := by
  unfold execHelloTimeout; (try dsimp only); all_goals ((repeat' split) <;> simp_all)

@[simp] theorem State.setRole_pending (s : State) (p : PtnId) (hold : Bool) (a : AreaRole) : (State.setRole s p hold a).pending = s.pending := by
  unfold State.setRole; (try dsimp only); all_goals ((repeat' split) <;> simp_all)

@[simp] theorem State.roleWrite_pending (s : State) (p : PtnId) (qp : QpId) (hold : Bool) (a : AreaRole) (off : Nat) (bs : List Byte) : (State.roleWrite s p qp hold a off bs).1.pending = s.pending := by
  unfold State.roleWrite; (try dsimp only); all_goals ((repeat' split) <;> (try simp only [Prod.ext_iff] at *) <;> (try casesm* _ ∧ _) <;> (try subst_vars) <;> ((repeat' split) <;> simp_all))

@[simp] theorem State.roleAck_pending (s : State) (p : PtnId) (hold : Bool) (a : AreaRole) (status : Nat) (digest : List Byte) : (State.roleAck s p hold a status digest).pending = s.pending := by
  unfold State.roleAck; (try dsimp only); all_goals ((repeat' split) <;> simp_all)

@[simp] theorem State.roleEnd_pending (s : State) (p : PtnId) (hold : Bool) (a : AreaRole) : (State.roleEnd s p hold a).pending = s.pending := by
  unfold State.roleEnd; (try dsimp only); all_goals ((repeat' split) <;> (try simp only [Prod.ext_iff] at *) <;> (try casesm* _ ∧ _) <;> (try subst_vars) <;> ((repeat' split) <;> simp_all))

@[simp] theorem State.roleSize_pending (s : State) (p : PtnId) (qp : QpId) (hold : Bool) (a : AreaRole) (total : Nat) : (State.roleSize s p qp hold a total).1.pending = s.pending := by
  unfold State.roleSize; (try rw [keeps_next]); (try dsimp only); ((repeat' split) <;> (try simp only [Prod.ext_iff] at *) <;> (try casesm* _ ∧ _) <;> (try subst_vars) <;> (try simp_all) <;> (repeat' (first | rw [foldl_pending] | rw [foldl_fst_pending])) <;> (try intros) <;> (try dsimp only) <;> ((repeat' split) <;> simp_all))

@[simp] theorem State.roleData_pending (s : State) (qp : QpId) (h : QHdr) (hold : Bool) (bytes : List Byte) : (State.roleData s qp h hold bytes).pending = s.pending := by
  unfold State.roleData; (try dsimp only); all_goals ((repeat' split) <;> simp_all)

@[simp] theorem State.roleFin_pending (s : State) (qp : QpId) (h : QHdr) (hold : Bool) (num : W32) (total : Nat) (digest : List Byte) : (State.roleFin s qp h hold num total digest).pending = s.pending := by
  unfold State.roleFin; (try dsimp only); all_goals ((repeat' split) <;> simp_all)

theorem execCkData_pending (qp : QpId) (h : QHdr) (bytes : List Byte) (s : State) : Keeps (execCkData qp h bytes s) s := by
  unfold execCkData; (try rw [keeps_next]); (first | apply State.issue_pending | apply State.streamIssue_pending | apply State.atOnce_pending | apply State.queued_pending | apply State.queuedDone_pending | apply State.seqStep_pending | apply State.onQp_pending | apply State.onGroup_pending | apply State.inRound_pending); intros; (try dsimp only); all_goals ((repeat' split) <;> simp_all)

theorem execCkEnd_pending (qp : QpId) (h : QHdr) (num : W32) (total : W64) (digest : List Byte) (s : State) : Keeps (execCkEnd qp h num total digest s) s := by
  unfold execCkEnd; (try rw [keeps_next]); (first | apply State.issue_pending | apply State.streamIssue_pending | apply State.atOnce_pending | apply State.queued_pending | apply State.queuedDone_pending | apply State.seqStep_pending | apply State.onQp_pending | apply State.onGroup_pending | apply State.inRound_pending); intros; (try dsimp only); all_goals ((repeat' split) <;> simp_all)

theorem execNegData_pending (qp : QpId) (h : QHdr) (bytes : List Byte) (s : State) : Keeps (execNegData qp h bytes s) s := by
  unfold execNegData; (try rw [keeps_next]); (first | apply State.issue_pending | apply State.streamIssue_pending | apply State.atOnce_pending | apply State.queued_pending | apply State.queuedDone_pending | apply State.seqStep_pending | apply State.onQp_pending | apply State.onGroup_pending | apply State.inRound_pending); intros; (try dsimp only); all_goals ((repeat' split) <;> simp_all)

theorem execNegEnd_pending (qp : QpId) (h : QHdr) (total : W64) (sha : List Byte) (s : State) : Keeps (execNegEnd qp h total sha s) s := by
  unfold execNegEnd; (try rw [keeps_next]); (first | apply State.issue_pending | apply State.streamIssue_pending | apply State.atOnce_pending | apply State.queued_pending | apply State.queuedDone_pending | apply State.seqStep_pending | apply State.onQp_pending | apply State.onGroup_pending | apply State.inRound_pending); intros; (try dsimp only); all_goals ((repeat' split) <;> simp_all)

theorem execCkRead_pending (qp : QpId) (h : QHdr) (num : W32) (offset : W64) (len : Nat) (s : State) : Keeps (execCkRead qp h num offset len s) s := by
  unfold execCkRead; (try rw [keeps_next]); (first | apply State.issue_pending | apply State.streamIssue_pending | apply State.atOnce_pending | apply State.queued_pending | apply State.queuedDone_pending | apply State.seqStep_pending | apply State.onQp_pending | apply State.onGroup_pending | apply State.inRound_pending); intros; (try dsimp only); all_goals ((repeat' split) <;> (try simp only [Prod.ext_iff] at *) <;> (try casesm* _ ∧ _) <;> (try subst_vars) <;> ((repeat' split) <;> simp_all))

@[simp] theorem State.askRestore_pending (s : State) (p : PtnId) (r : Restore) (off : Nat) (n : Nat) : (State.askRestore s p r off n).1.pending = s.pending := by
  unfold State.askRestore; (try dsimp only); all_goals ((repeat' split) <;> simp_all)

@[simp] theorem State.setRestore_pending (s : State) (p : PtnId) (r : Option Restore) : (State.setRestore s p r).pending = s.pending := by
  unfold State.setRestore; (try dsimp only); all_goals ((repeat' split) <;> simp_all)

@[simp] theorem State.endRestore_pending (s : State) (p : PtnId) (r : Restore) (failed : Option Status) : (State.endRestore s p r failed).pending = s.pending := by
  unfold State.endRestore; (try dsimp only); all_goals ((repeat' split) <;> simp_all)

@[simp] theorem State.restoreBegin_pending (s : State) (p : PtnId) (b : List Byte) : (State.restoreBegin s p b).pending = s.pending := by
  unfold State.restoreBegin; (try dsimp only); all_goals ((repeat' split) <;> simp_all)

@[simp] theorem State.restoreGroup_pending (s : State) (p : PtnId) (g : GroupBlock × W64 × List Nat) : (s.restoreGroup p g).pending = s.pending := by
  unfold State.restoreGroup; extract_lets x old ep y s1
  rw [foldl_pending]
  · rfl
  · intro s e; rw [foldl_pending]; intro s n; rfl

@[simp] theorem State.restoreEnd_pending (s : State) (p : PtnId) (r : Restore) (b : List Byte) : (State.restoreEnd s p r b).pending = s.pending := by
  unfold State.restoreEnd; (try rw [keeps_next]); (try dsimp only); ((repeat' split) <;> (try simp only [Prod.ext_iff] at *) <;> (try casesm* _ ∧ _) <;> (try subst_vars) <;> (try simp_all) <;> (repeat' (first | rw [foldl_pending] | rw [foldl_fst_pending])) <;> (try intros) <;> (try dsimp only) <;> ((repeat' split) <;> simp_all))

@[simp] theorem State.restoreStep_pending (s : State) (p : PtnId) (r : Restore) : (State.restoreStep s p r).pending = s.pending := by
  unfold State.restoreStep; (try dsimp only); all_goals ((repeat' split) <;> simp_all)

theorem execCkptRestore_pending (h : Hdr) (source : Endpoint) (num : W32) (s : State) : Keeps (execCkptRestore h source num s) s := by
  unfold execCkptRestore; rw [keeps_next]; split
  · rfl
  · refine (State.queued_pending _ _ _ _ _ _ _ fun s => ?_).trans (by simp)
    dsimp only; split <;> simp

theorem execCkRdata_pending (qp : QpId) (h : QHdr) (bytes : List Byte) (s : State) : Keeps (execCkRdata qp h bytes s) s := by
  unfold execCkRdata; (try rw [keeps_next]); (first | apply State.issue_pending | apply State.streamIssue_pending | apply State.atOnce_pending | apply State.queued_pending | apply State.queuedDone_pending | apply State.seqStep_pending | apply State.onQp_pending | apply State.onGroup_pending | apply State.inRound_pending); intros; (try dsimp only); all_goals ((repeat' split) <;> simp_all)

theorem execRestoreSourceTimeout_pending (p : PtnId) (s : State) : Keeps (execRestoreSourceTimeout p s) s := by
  unfold execRestoreSourceTimeout; (try dsimp only); all_goals ((repeat' split) <;> simp_all)

@[simp] theorem State.ship_pending (s : State) (h : Hdr) (w : WSet) (dest : Endpoint) (b : List Byte) : (s.ship h w dest b).pending = s.pending := by
  unfold State.ship; dsimp only
  split
  · rw [State.closeItem_pending]
  · rw [State.setResult_pending, State.updFix_pending, State.fixSend_pending, State.fixSend_pending]

theorem execNegativeShip_pending (h : Hdr) (model : W16) (set : W16) (dest : Endpoint) (s : State) : Keeps (execNegativeShip h model set dest s) s := by
  unfold execNegativeShip; (try rw [keeps_next]); (try dsimp only); (repeat' split) <;> (try rw [keeps_next]) <;> (first | (first | apply State.issue_pending | apply State.streamIssue_pending | apply State.atOnce_pending | apply State.queued_pending | apply State.queuedDone_pending | apply State.seqStep_pending | apply State.onQp_pending | apply State.onGroup_pending | apply State.inRound_pending) | skip) <;> (try intros) <;> (try dsimp only) <;> ((repeat' split) <;> (try simp only [Prod.ext_iff] at *) <;> (try casesm* _ ∧ _) <;> (try subst_vars) <;> (try simp_all) <;> (repeat' (first | rw [foldl_pending] | rw [foldl_fst_pending])) <;> (try intros) <;> (try dsimp only) <;> ((repeat' split) <;> simp_all))

theorem execNegAck_pending (qp : QpId) (h : QHdr) (status : W16) (s : State) : Keeps (execNegAck qp h status s) s := by
  unfold execNegAck; (try rw [keeps_next]); (first | apply State.issue_pending | apply State.streamIssue_pending | apply State.atOnce_pending | apply State.queued_pending | apply State.queuedDone_pending | apply State.seqStep_pending | apply State.onQp_pending | apply State.onGroup_pending | apply State.inRound_pending); intros; (try dsimp only); all_goals ((repeat' split) <;> simp_all)

@[simp] theorem State.plat_pending (s : State) (severity : Byte) (cause : W16) (unit : Nat) (stamp : W64) : (State.plat s severity cause unit stamp).pending = s.pending := by
  unfold State.plat; (try dsimp only); all_goals ((repeat' split) <;> simp_all)

theorem execInputLow_pending (stamp : W64) (s : State) : Keeps (execInputLow stamp s) s := by
  unfold execInputLow; (try dsimp only); all_goals ((repeat' split) <;> simp_all)

theorem execRefLost_pending (stamp : W64) (s : State) : Keeps (execRefLost stamp s) s := by
  unfold execRefLost; (try dsimp only); all_goals ((repeat' split) <;> simp_all)

theorem execPllUnlock_pending (stamp : W64) (s : State) : Keeps (execPllUnlock stamp s) s := by
  unfold execPllUnlock; (try dsimp only); all_goals ((repeat' split) <;> simp_all)

theorem execRefRestored_pending (s : State) : Keeps (execRefRestored s) s := by
  unfold execRefRestored; (try dsimp only); all_goals ((repeat' split) <;> simp_all)

theorem execRailFault_pending (rail : Fin 24) (stamp : W64) (s : State) : Keeps (execRailFault rail stamp s) s := by
  unfold execRailFault; (try dsimp only); all_goals ((repeat' split) <;> simp_all)

theorem execStewardLockstepMismatch_pending (stamp : W64) (within1s : Bool) (s : State) : Keeps (execStewardLockstepMismatch stamp within1s s) s := by
  unfold execStewardLockstepMismatch; (try dsimp only); all_goals ((repeat' split) <;> simp_all)

theorem execDutyControl_pending (r : Readings) (stamp : W64) (s : State) : Keeps (execDutyControl r stamp s) s := by
  unfold execDutyControl; (try dsimp only); all_goals ((repeat' split) <;> simp_all)

@[simp] theorem State.tempFaults_pending (s : State) (stamp : W64) (d : Nat) (ts : List (BitVec 16)) : (s.tempFaults stamp d ts).pending = s.pending := by
  induction ts generalizing s d with
  | nil => rfl
  | cons t ts ih => unfold State.tempFaults; dsimp only; rw [ih]; (repeat' split) <;> simp

theorem execTempSample_pending (r : Readings) (stamp : W64) (s : State) : Keeps (execTempSample r stamp s) s := by
  unfold execTempSample; (try dsimp only); all_goals ((repeat' split) <;> simp_all)

theorem execTelemetryRead_pending (h : Hdr) (s : State) : Keeps (execTelemetryRead h s) s := by
  first
  | (unfold execTelemetryRead; (try dsimp only); all_goals ((repeat' split) <;> simp_all); done)
  | (unfold execTelemetryRead; (try dsimp only); all_goals ((repeat' split) <;> (try simp only [Prod.ext_iff] at *) <;> (try casesm* _ ∧ _) <;> (try subst_vars) <;> ((repeat' split) <;> simp_all)); done)
  | (unfold execTelemetryRead; (try rw [keeps_next]); (first | apply State.issue_pending | apply State.streamIssue_pending | apply State.atOnce_pending | apply State.queued_pending | apply State.queuedDone_pending | apply State.seqStep_pending | apply State.onQp_pending | apply State.onGroup_pending | apply State.inRound_pending); intros; (try dsimp only); all_goals ((repeat' split) <;> simp_all); done)
  | (unfold execTelemetryRead; (try rw [keeps_next]); (first | apply State.issue_pending | apply State.streamIssue_pending | apply State.atOnce_pending | apply State.queued_pending | apply State.queuedDone_pending | apply State.seqStep_pending | apply State.onQp_pending | apply State.onGroup_pending | apply State.inRound_pending); intros; (try dsimp only); all_goals ((repeat' split) <;> (try simp only [Prod.ext_iff] at *) <;> (try casesm* _ ∧ _) <;> (try subst_vars) <;> ((repeat' split) <;> simp_all)); done)
  | (unfold execTelemetryRead; (try rw [keeps_next]); (try dsimp only); ((repeat' split) <;> (try simp only [Prod.ext_iff] at *) <;> (try casesm* _ ∧ _) <;> (try subst_vars) <;> (try simp_all) <;> (repeat' (first | rw [foldl_pending] | rw [foldl_fst_pending])) <;> (try intros) <;> (try dsimp only) <;> ((repeat' split) <;> simp_all)); done)
  | (unfold execTelemetryRead; (try rw [keeps_next]); (try dsimp only); (repeat' split) <;> (try rw [keeps_next]) <;> (first | (first | apply State.issue_pending | apply State.streamIssue_pending | apply State.atOnce_pending | apply State.queued_pending | apply State.queuedDone_pending | apply State.seqStep_pending | apply State.onQp_pending | apply State.onGroup_pending | apply State.inRound_pending) | skip) <;> (try intros) <;> (try dsimp only) <;> ((repeat' split) <;> (try simp only [Prod.ext_iff] at *) <;> (try casesm* _ ∧ _) <;> (try subst_vars) <;> (try simp_all) <;> (repeat' (first | rw [foldl_pending] | rw [foldl_fst_pending])) <;> (try intros) <;> (try dsimp only) <;> ((repeat' split) <;> simp_all)))

theorem execPwrLimit_pending (h : Hdr) (limitW : W16) (s : State) : Keeps (execPwrLimit h limitW s) s := by
  unfold execPwrLimit; (try rw [keeps_next]); (first | apply State.issue_pending | apply State.streamIssue_pending | apply State.atOnce_pending | apply State.queued_pending | apply State.queuedDone_pending | apply State.seqStep_pending | apply State.onQp_pending | apply State.onGroup_pending | apply State.inRound_pending); intros; (try dsimp only); all_goals ((repeat' split) <;> simp_all)

theorem execCgL1Entry_pending (cg : CgId) (s : State) : Keeps (execCgL1Entry cg s) s := by
  unfold execCgL1Entry; (try dsimp only); all_goals ((repeat' split) <;> simp_all)

theorem execModuleL1Entry_pending (s : State) : Keeps (execModuleL1Entry s) s := by
  unfold execModuleL1Entry; (try dsimp only); all_goals ((repeat' split) <;> simp_all)

@[simp] theorem State.cgLose_pending (s : State) (mask : W32) : (State.cgLose s mask).pending = s.pending := by
  unfold State.cgLose; (try rw [keeps_next]); (try dsimp only); ((repeat' split) <;> (try simp only [Prod.ext_iff] at *) <;> (try casesm* _ ∧ _) <;> (try subst_vars) <;> (try simp_all) <;> (repeat' (first | rw [foldl_pending] | rw [foldl_fst_pending])) <;> (try intros) <;> (try dsimp only) <;> ((repeat' split) <;> simp_all))

theorem execPwrState_pending (h : Hdr) (target : Byte) (scope : Byte) (cgMask : W32) (s : State) : Keeps (execPwrState h target scope cgMask s) s := by
  unfold execPwrState; (try dsimp only); all_goals ((repeat' split) <;> simp_all)

@[simp] theorem State.dropDue_pending (s : State) (target : Nat) : (State.dropDue s target).pending = s.pending := by
  unfold State.dropDue; (try dsimp only); all_goals ((repeat' split) <;> simp_all)

theorem execModuleL2Entry_pending (s : State) : Keeps (execModuleL2Entry s) s := by
  unfold execModuleL2Entry; (try dsimp only); all_goals ((repeat' split) <;> simp_all)

theorem execModuleL3Entry_pending (s : State) : Keeps (execModuleL3Entry s) s := by
  unfold execModuleL3Entry; (try dsimp only); all_goals ((repeat' split) <;> simp_all)

@[simp] theorem State.leaveL3_pending (s : State) (src : BitVec 4) (port : BitVec 6) : (State.leaveL3 s src port).pending = s.pending := by
  first
  | (unfold State.leaveL3; (try dsimp only); all_goals ((repeat' split) <;> simp_all); done)
  | (unfold State.leaveL3; (try dsimp only); all_goals ((repeat' split) <;> (try simp only [Prod.ext_iff] at *) <;> (try casesm* _ ∧ _) <;> (try subst_vars) <;> ((repeat' split) <;> simp_all)); done)
  | (unfold State.leaveL3; (try rw [keeps_next]); (first | apply State.issue_pending | apply State.streamIssue_pending | apply State.atOnce_pending | apply State.queued_pending | apply State.queuedDone_pending | apply State.seqStep_pending | apply State.onQp_pending | apply State.onGroup_pending | apply State.inRound_pending); intros; (try dsimp only); all_goals ((repeat' split) <;> simp_all); done)
  | (unfold State.leaveL3; (try rw [keeps_next]); (first | apply State.issue_pending | apply State.streamIssue_pending | apply State.atOnce_pending | apply State.queued_pending | apply State.queuedDone_pending | apply State.seqStep_pending | apply State.onQp_pending | apply State.onGroup_pending | apply State.inRound_pending); intros; (try dsimp only); all_goals ((repeat' split) <;> (try simp only [Prod.ext_iff] at *) <;> (try casesm* _ ∧ _) <;> (try subst_vars) <;> ((repeat' split) <;> simp_all)); done)
  | (unfold State.leaveL3; (try rw [keeps_next]); (try dsimp only); ((repeat' split) <;> (try simp only [Prod.ext_iff] at *) <;> (try casesm* _ ∧ _) <;> (try subst_vars) <;> (try simp_all) <;> (repeat' (first | rw [foldl_pending] | rw [foldl_fst_pending])) <;> (try intros) <;> (try dsimp only) <;> ((repeat' split) <;> simp_all)); done)
  | (unfold State.leaveL3; (try rw [keeps_next]); (try dsimp only); (repeat' split) <;> (try rw [keeps_next]) <;> (first | (first | apply State.issue_pending | apply State.streamIssue_pending | apply State.atOnce_pending | apply State.queued_pending | apply State.queuedDone_pending | apply State.seqStep_pending | apply State.onQp_pending | apply State.onGroup_pending | apply State.inRound_pending) | skip) <;> (try intros) <;> (try dsimp only) <;> ((repeat' split) <;> (try simp only [Prod.ext_iff] at *) <;> (try casesm* _ ∧ _) <;> (try subst_vars) <;> (try simp_all) <;> (repeat' (first | rw [foldl_pending] | rw [foldl_fst_pending])) <;> (try intros) <;> (try dsimp only) <;> ((repeat' split) <;> simp_all)))

@[simp] theorem State.wake_pending (s : State) (src : BitVec 4) (port : BitVec 6) : (State.wake s src port).pending = s.pending := by
  unfold State.wake; (try dsimp only); all_goals ((repeat' split) <;> simp_all)

theorem execWakeBurst_pending (port : Fin 50) (s : State) : Keeps (execWakeBurst port s) s := by
  unfold execWakeBurst; (try dsimp only); all_goals ((repeat' split) <;> simp_all)

theorem execWakeNInput_pending (s : State) : Keeps (execWakeNInput s) s := by
  unfold execWakeNInput; (try dsimp only); all_goals ((repeat' split) <;> simp_all)

@[simp] theorem State.transDone_pending (s : State) (t : PTrans) : (State.transDone s t).pending = s.pending := by
  unfold State.transDone; (try rw [keeps_next]); (try dsimp only); ((repeat' split) <;> (try simp only [Prod.ext_iff] at *) <;> (try casesm* _ ∧ _) <;> (try subst_vars) <;> (try simp_all) <;> (repeat' (first | rw [foldl_pending] | rw [foldl_fst_pending])) <;> (try intros) <;> (try dsimp only) <;> ((repeat' split) <;> simp_all))

@[simp] theorem State.avsMiss_pending (s : State) (bus : Fin 5) (when' : Option W64) : (State.avsMiss s bus when').pending = s.pending := by
  unfold State.avsMiss; (try dsimp only); all_goals ((repeat' split) <;> simp_all)

theorem execAvsRetry_pending (bus : Fin 5) (stamp : W64) (s : State) : Keeps (execAvsRetry bus stamp s) s := by
  unfold execAvsRetry; (try dsimp only); all_goals ((repeat' split) <;> simp_all)

theorem execRegulatorTransitionComplete_pending (bus : Fin 5) (readbackOk : Bool) (last : Bool) (s : State) : Keeps (execRegulatorTransitionComplete bus readbackOk last s) s := by
  unfold execRegulatorTransitionComplete; (try dsimp only); all_goals ((repeat' split) <;> simp_all)

@[simp] theorem State.railsOff_pending (s : State) : (State.railsOff s).pending = s.pending := by
  unfold State.railsOff; (try dsimp only); all_goals ((repeat' split) <;> simp_all)

@[simp] theorem State.coldBegin_pending (s : State) : (State.coldBegin s).pending = s.pending := by
  first
  | (unfold State.coldBegin; (try dsimp only); all_goals ((repeat' split) <;> simp_all); done)
  | (unfold State.coldBegin; (try dsimp only); all_goals ((repeat' split) <;> (try simp only [Prod.ext_iff] at *) <;> (try casesm* _ ∧ _) <;> (try subst_vars) <;> ((repeat' split) <;> simp_all)); done)
  | (unfold State.coldBegin; (try rw [keeps_next]); (first | apply State.issue_pending | apply State.streamIssue_pending | apply State.atOnce_pending | apply State.queued_pending | apply State.queuedDone_pending | apply State.seqStep_pending | apply State.onQp_pending | apply State.onGroup_pending | apply State.inRound_pending); intros; (try dsimp only); all_goals ((repeat' split) <;> simp_all); done)
  | (unfold State.coldBegin; (try rw [keeps_next]); (first | apply State.issue_pending | apply State.streamIssue_pending | apply State.atOnce_pending | apply State.queued_pending | apply State.queuedDone_pending | apply State.seqStep_pending | apply State.onQp_pending | apply State.onGroup_pending | apply State.inRound_pending); intros; (try dsimp only); all_goals ((repeat' split) <;> (try simp only [Prod.ext_iff] at *) <;> (try casesm* _ ∧ _) <;> (try subst_vars) <;> ((repeat' split) <;> simp_all)); done)
  | (unfold State.coldBegin; (try rw [keeps_next]); (try dsimp only); ((repeat' split) <;> (try simp only [Prod.ext_iff] at *) <;> (try casesm* _ ∧ _) <;> (try subst_vars) <;> (try simp_all) <;> (repeat' (first | rw [foldl_pending] | rw [foldl_fst_pending])) <;> (try intros) <;> (try dsimp only) <;> ((repeat' split) <;> simp_all)); done)
  | (unfold State.coldBegin; (try rw [keeps_next]); (try dsimp only); (repeat' split) <;> (try rw [keeps_next]) <;> (first | (first | apply State.issue_pending | apply State.streamIssue_pending | apply State.atOnce_pending | apply State.queued_pending | apply State.queuedDone_pending | apply State.seqStep_pending | apply State.onQp_pending | apply State.onGroup_pending | apply State.inRound_pending) | skip) <;> (try intros) <;> (try dsimp only) <;> ((repeat' split) <;> (try simp only [Prod.ext_iff] at *) <;> (try casesm* _ ∧ _) <;> (try subst_vars) <;> (try simp_all) <;> (repeat' (first | rw [foldl_pending] | rw [foldl_fst_pending])) <;> (try intros) <;> (try dsimp only) <;> ((repeat' split) <;> simp_all)))

theorem execPwrgdInFall_pending (s : State) : Keeps (execPwrgdInFall s) s := by
  unfold execPwrgdInFall; (try dsimp only); all_goals ((repeat' split) <;> simp_all)

theorem execPwrgdInRise_pending (s : State) : Keeps (execPwrgdInRise s) s := by
  unfold execPwrgdInRise; (try dsimp only); all_goals ((repeat' split) <;> simp_all)

theorem execUndervoltageLockout_pending (s : State) : Keeps (execUndervoltageLockout s) s := by
  unfold execUndervoltageLockout; (try dsimp only); all_goals ((repeat' split) <;> simp_all)

theorem execInputRestored_pending (s : State) : Keeps (execInputRestored s) s := by
  unfold execInputRestored; (try dsimp only); all_goals ((repeat' split) <;> simp_all)

theorem execStandbyInputLoss_pending (s : State) : Keeps (execStandbyInputLoss s) s := by
  unfold execStandbyInputLoss; (try dsimp only); all_goals ((repeat' split) <;> simp_all)

theorem execStandbyInputReturn_pending (s : State) : Keeps (execStandbyInputReturn s) s := by
  unfold execStandbyInputReturn; (try dsimp only); all_goals ((repeat' split) <;> simp_all)

theorem execModRstNFall_pending (s : State) : Keeps (execModRstNFall s) s := by
  unfold execModRstNFall; (try dsimp only); all_goals ((repeat' split) <;> simp_all)

theorem execModRstNRise_pending (s : State) : Keeps (execModRstNRise s) s := by
  unfold execModRstNRise; (try dsimp only); all_goals ((repeat' split) <;> simp_all)

@[simp] theorem State.signNonce_pending (s : State) : (State.signNonce s).1.pending = s.pending := rfl

@[simp] theorem State.attestSign_pending (s : State) (p : PtnId) (bs : List Byte) : (State.attestSign s p bs).1.pending = s.pending := by
  unfold State.attestSign; (try dsimp only); all_goals ((repeat' split) <;> simp_all)

@[simp] theorem State.quote_pending (s : State) (h : Hdr) (nonce : List Byte) (chain : Bool) : (State.quote s h nonce chain).1.pending = s.pending := by
  unfold State.quote; (try dsimp only); all_goals ((repeat' split) <;> simp_all)

@[simp] theorem State.answer_pending (s : State) (h : Hdr) (r : List Byte) : (State.answer s h r).pending = s.pending := by
  unfold State.answer; (try dsimp only); all_goals ((repeat' split) <;> simp_all)

theorem execAttestQuote_pending (h : Hdr) (nonce : List Byte) (chain : Bool) (s : State) : Keeps (execAttestQuote h nonce chain s) s := by
  unfold execAttestQuote; (try rw [keeps_next]); (first | apply State.issue_pending | apply State.streamIssue_pending | apply State.atOnce_pending | apply State.queued_pending | apply State.queuedDone_pending | apply State.seqStep_pending | apply State.onQp_pending | apply State.onGroup_pending | apply State.inRound_pending); intros; (try dsimp only); all_goals ((repeat' split) <;> simp_all)

@[simp] theorem State.setTkey_pending (s : State) (p : PtnId) (slot : Nat) (t : TKey) : (State.setTkey s p slot t).pending = s.pending := by
  unfold State.setTkey; (try dsimp only); all_goals ((repeat' split) <;> simp_all)

@[simp] theorem State.kxGenerate_pending (s : State) (h : Hdr) (slot : Nat) (nonce : List Byte) : (State.kxGenerate s h slot nonce).pending = s.pending := by
  unfold State.kxGenerate; (try dsimp only); all_goals ((repeat' split) <;> simp_all)

@[simp] theorem State.kxComplete_pending (s : State) (h : Hdr) (slot : Nat) (d : Nat) (peer : List Byte) (q : Nat × Nat) : (State.kxComplete s h slot d peer q).pending = s.pending := by
  unfold State.kxComplete; (try dsimp only); all_goals ((repeat' split) <;> simp_all)

@[simp] theorem State.kxRandom_pending (s : State) (h : Hdr) (slot : Nat) : (State.kxRandom s h slot).pending = s.pending := by
  unfold State.kxRandom; (try dsimp only); all_goals ((repeat' split) <;> simp_all)

@[simp] theorem State.kxExport_pending (s : State) (h : Hdr) (slot : Nat) (kek : List Byte) : (State.kxExport s h slot kek).pending = s.pending := by
  unfold State.kxExport; (try dsimp only); all_goals ((repeat' split) <;> simp_all)

@[simp] theorem State.kxImport_pending (s : State) (h : Hdr) (slot : Nat) (src : Nat) (key : List Byte) : (State.kxImport s h slot src key).pending = s.pending := by
  unfold State.kxImport; (try dsimp only); all_goals ((repeat' split) <;> simp_all)

@[simp] theorem State.kxRun_pending (s : State) (h : Hdr) (mode : Nat) (slot : Nat) (src : Nat) (data : List Byte) : (State.kxRun s h mode slot src data).pending = s.pending := by
  unfold State.kxRun; (try dsimp only); all_goals ((repeat' split) <;> simp_all)

theorem execKeyExchange_pending (h : Hdr) (mode : Byte) (slot : Byte) (srcSlot : Byte) (data : List Byte) (s : State) : Keeps (execKeyExchange h mode slot srcSlot data s) s := by
  unfold execKeyExchange; (try rw [keeps_next]); (first | apply State.issue_pending | apply State.streamIssue_pending | apply State.atOnce_pending | apply State.queued_pending | apply State.queuedDone_pending | apply State.seqStep_pending | apply State.onQp_pending | apply State.onGroup_pending | apply State.inRound_pending); intros; (try dsimp only); all_goals ((repeat' split) <;> simp_all)

@[simp] theorem State.openSafelight_pending (s : State) (t : Token) : (State.openSafelight s t).pending = s.pending := by
  unfold State.openSafelight; (try dsimp only); all_goals ((repeat' split) <;> simp_all)

theorem execSafelightUnlock_pending (h : Hdr) (mode : Byte) (t : Token) (s : State) : Keeps (execSafelightUnlock h mode t s) s := by
  unfold execSafelightUnlock; (try rw [keeps_next]); (first | apply State.issue_pending | apply State.streamIssue_pending | apply State.atOnce_pending | apply State.queued_pending | apply State.queuedDone_pending | apply State.seqStep_pending | apply State.onQp_pending | apply State.onGroup_pending | apply State.inRound_pending); intros; (try dsimp only); all_goals ((repeat' split) <;> simp_all)

theorem execSafelightChallengeExpiry_pending (s : State) : Keeps (execSafelightChallengeExpiry s) s := by
  unfold execSafelightChallengeExpiry; (try dsimp only); all_goals ((repeat' split) <;> simp_all)

theorem execSafelightExpiry_pending (s : State) : Keeps (execSafelightExpiry s) s := by
  unfold execSafelightExpiry; (try dsimp only); all_goals ((repeat' split) <;> simp_all)

theorem execDrbgReseed_pending (s : State) : Keeps (execDrbgReseed s) s := by
  unfold execDrbgReseed; (try dsimp only); all_goals ((repeat' split) <;> simp_all)

@[simp] theorem State.debugDone_pending (s : State) (v : W64) : (State.debugDone s v).pending = s.pending := by
  first
  | (unfold State.debugDone; (try dsimp only); all_goals ((repeat' split) <;> simp_all); done)
  | (unfold State.debugDone; (try dsimp only); all_goals ((repeat' split) <;> (try simp only [Prod.ext_iff] at *) <;> (try casesm* _ ∧ _) <;> (try subst_vars) <;> ((repeat' split) <;> simp_all)); done)
  | (unfold State.debugDone; (try rw [keeps_next]); (first | apply State.issue_pending | apply State.streamIssue_pending | apply State.atOnce_pending | apply State.queued_pending | apply State.queuedDone_pending | apply State.seqStep_pending | apply State.onQp_pending | apply State.onGroup_pending | apply State.inRound_pending); intros; (try dsimp only); all_goals ((repeat' split) <;> simp_all); done)
  | (unfold State.debugDone; (try rw [keeps_next]); (first | apply State.issue_pending | apply State.streamIssue_pending | apply State.atOnce_pending | apply State.queued_pending | apply State.queuedDone_pending | apply State.seqStep_pending | apply State.onQp_pending | apply State.onGroup_pending | apply State.inRound_pending); intros; (try dsimp only); all_goals ((repeat' split) <;> (try simp only [Prod.ext_iff] at *) <;> (try casesm* _ ∧ _) <;> (try subst_vars) <;> ((repeat' split) <;> simp_all)); done)
  | (unfold State.debugDone; (try rw [keeps_next]); (try dsimp only); ((repeat' split) <;> (try simp only [Prod.ext_iff] at *) <;> (try casesm* _ ∧ _) <;> (try subst_vars) <;> (try simp_all) <;> (repeat' (first | rw [foldl_pending] | rw [foldl_fst_pending])) <;> (try intros) <;> (try dsimp only) <;> ((repeat' split) <;> simp_all)); done)
  | (unfold State.debugDone; (try rw [keeps_next]); (try dsimp only); (repeat' split) <;> (try rw [keeps_next]) <;> (first | (first | apply State.issue_pending | apply State.streamIssue_pending | apply State.atOnce_pending | apply State.queued_pending | apply State.queuedDone_pending | apply State.seqStep_pending | apply State.onQp_pending | apply State.onGroup_pending | apply State.inRound_pending) | skip) <;> (try intros) <;> (try dsimp only) <;> ((repeat' split) <;> (try simp only [Prod.ext_iff] at *) <;> (try casesm* _ ∧ _) <;> (try subst_vars) <;> (try simp_all) <;> (repeat' (first | rw [foldl_pending] | rw [foldl_fst_pending])) <;> (try intros) <;> (try dsimp only) <;> ((repeat' split) <;> simp_all)))

@[simp] theorem State.debugRead_pending (s : State) (p : PtnId) (a : Nat) : (State.debugRead s p a).pending = s.pending := by
  unfold State.debugRead; (try dsimp only); all_goals ((repeat' split) <;> (try simp only [Prod.ext_iff] at *) <;> (try casesm* _ ∧ _) <;> (try subst_vars) <;> ((repeat' split) <;> simp_all))

@[simp] theorem State.debugWrite_pending (s : State) (p : PtnId) (a : Nat) (v : W64) : (State.debugWrite s p a v).pending = s.pending := by
  unfold State.debugWrite; (try dsimp only); all_goals ((repeat' split) <;> simp_all)

@[simp] theorem State.debugReg_pending (s : State) (p : PtnId) (a : Nat) (write : Option W64) : (State.debugReg s p a write).pending = s.pending := by
  unfold State.debugReg; (try dsimp only); all_goals ((repeat' split) <;> simp_all)

@[simp] theorem State.debugAccess_pending (s : State) (p : PtnId) (mc : Nat) (a : Nat) (write : Option W64) (z0 : Nat) : (State.debugAccess s p mc a write z0).pending = s.pending := by
  unfold State.debugAccess; (try dsimp only); all_goals ((repeat' split) <;> simp_all)

theorem execSafelightDebugAccess_pending (scopeBit : Fin 5) (p : PtnId) (mc : McId) (addr : W64) (write : Option W64) (s : State) : Keeps (execSafelightDebugAccess scopeBit p mc addr write s) s := by
  unfold execSafelightDebugAccess; (try dsimp only); all_goals ((repeat' split) <;> simp_all)

@[simp] theorem State.poolRead_pending (s : State) (p : PtnId) (m : Model) (off : Nat) (n : Nat) : (State.poolRead s p m off n).1.pending = s.pending := by
  unfold State.poolRead; (try dsimp only); all_goals ((repeat' split) <;> simp_all)

@[simp] theorem State.poolWrite_pending (s : State) (p : PtnId) (m : Model) (off : Nat) (bs : List Byte) : (State.poolWrite s p m off bs).1.pending = s.pending := by
  unfold State.poolWrite; (try dsimp only); all_goals ((repeat' split) <;> simp_all)

@[simp] theorem State.kvRead_pending (s : State) (p : PtnId) (m : Model) (pages : List Nat) (w : Nat) (n : Nat) : (State.kvRead s p m pages w n).1.pending = s.pending := by
  unfold State.kvRead; (try dsimp only); all_goals ((repeat' split) <;> simp_all)

@[simp] theorem State.kvLayer_pending (s : State) (p : PtnId) (m : Model) (pages : List Nat) (w : Nat) (n : Nat) : (State.kvLayer s p m pages w n).1.pending = s.pending := by
  unfold State.kvLayer; (try dsimp only); all_goals ((repeat' split) <;> simp_all)

@[simp] theorem State.kvAll_pending (s : State) (p : PtnId) (m : Model) (pages : List (List Nat)) (n : Nat) : (State.kvAll s p m pages n).1.pending = s.pending := by
  unfold State.kvAll; (try dsimp only); all_goals ((repeat' split) <;> simp_all)

@[simp] theorem State.kvWrite_pending (s : State) (p : PtnId) (m : Model) (pages : List Nat) (w : Nat) (n : Nat) (r : Nat) (k : Short) (v : Short) : (State.kvWrite s p m pages w n r k v).1.pending = s.pending := by
  unfold State.kvWrite; (try dsimp only); all_goals ((repeat' split) <;> simp_all)

@[simp] theorem State.kvPut_pending (s : State) (p : PtnId) (m : Model) (pages : List (List Nat)) (p0 : Nat) (rows : Nat) (new : KvNew) : (State.kvPut s p m pages p0 rows new).1.pending = s.pending := by
  unfold State.kvPut; (try dsimp only); all_goals ((repeat' split) <;> simp_all)

@[simp] theorem State.netPass_pending (s : State) (p : PtnId) (t : Stream) (m : Model) (c : CmdRec) (pages : List (List Nat)) (chunk : Bool) (seq : List W32) (n : Nat) (rows : List Nat) : (State.netPass s p t m c pages chunk seq n rows).1.pending = s.pending := by
  unfold State.netPass; dsimp only
  refine (Acc.bind_pending _ _ fun s w => ?_).trans (by simp)
  split
  · rfl
  · refine (Acc.bind_pending _ _ fun s kv => ?_).trans (by simp)
    simp

@[simp] theorem State.pass_pending (s : State) (p : PtnId) (t : Stream) (model : Nat) (pages : List (List Nat)) (chunk : Bool) (seq : List W32) (n : Nat) (rows : List Nat) : (State.pass s p t model pages chunk seq n rows).1.pending = s.pending := by
  unfold State.pass; (try dsimp only); all_goals ((repeat' split) <;> simp_all)

@[simp] theorem State.draft_pending (p : PtnId) (t : Stream) (z0 : Nat) (z1 : Nat) (z2 : List W32) (z3 : State) : (State.draft p t z0 z1 z2 z3).1.pending = z3.pending := by
  fun_induction State.draft <;> (try simp only [Prod.ext_iff] at *) <;> (try casesm* _ ∧ _) <;> (try subst_vars) <;> ((repeat' split) <;> simp_all)

@[simp] theorem State.mirage_pending (s : State) (p : PtnId) (t : Stream) : (State.mirage s p t).1.pending = s.pending := by
  unfold State.mirage; (try dsimp only); all_goals ((repeat' split) <;> simp_all)

@[simp] theorem State.readContact_pending (s : State) (p : PtnId) (r : Train) : (s.readContact p r).1.pending = s.pending := by
  unfold State.readContact; extract_lets d n one
  have h1 : ∀ s a k, (one s a k).1.pending = s.pending := by intro s a k; simp only [one]; split <;> simp
  clear_value one
  split
  · exact fst_pending ‹_› (h1 _ _ _)
  · have e1 := fst_pending ‹_› (h1 _ _ _)
    split
    · exact (fst_pending ‹_› (h1 _ _ _)).trans e1
    · have e2 := fst_pending ‹_› (h1 _ _ _)
      split
      · exact (fst_pending ‹_› (h1 _ _ _)).trans (e2.trans e1)
      · exact (fst_pending ‹_› (h1 _ _ _)).trans (e2.trans e1)

@[simp] theorem State.addRun_pending (s : State) (p : PtnId) (r : Train) : (State.addRun s p r).pending = s.pending := by
  unfold State.addRun; (try dsimp only); all_goals ((repeat' split) <;> simp_all)

@[simp] theorem State.scaleEv_pending (s : State) (h : Hdr) (d : ContactDesc) : (s.scaleEv h d).pending = s.pending := by simp [State.scaleEv]

@[simp] theorem State.startBasic_pending (s : State) (h : Hdr) (b : StepBlock) (eval : Bool) : (s.startBasic h b eval).pending = s.pending := by
  unfold State.startBasic; extract_lets p hd x sets r0
  split
  · have e := fst_pending ‹_› (State.readContact_pending _ _ _); simp [e]
  · have e := fst_pending ‹_› (State.readContact_pending _ _ _)
    extract_lets buf r1 s1
    have e1 : (s1).pending = s.pending := by simp [s1, e]
    clear_value s1
    split <;> simp [e1]

@[simp] theorem State.startContact_pending (s : State) (h : Hdr) (e : ProgBlock) (eval : Bool) : (s.startContact h e eval).pending = s.pending := by
  unfold State.startContact; extract_lets p hd im r0 f
  have hf : ∀ s' r c, (f s' r c).pending = s'.pending := by intro s' r c; simp [f]
  clear_value f
  split
  · have e := fst_pending ‹_› (State.readContact_pending _ _ _); rw [hf]; exact e
  · have e := fst_pending ‹_› (State.readContact_pending _ _ _)
    extract_lets x buf r1
    split
    · rw [hf]; exact e
    · simp [e]

theorem execDistillStep_pending (h : Hdr) (b : StepBlock) (x : ProgBlock) (s : State) : Keeps (execDistillStep h b x s) s := by
  unfold execDistillStep; (try rw [keeps_next]); (try dsimp only); (repeat' split) <;> (try rw [keeps_next]) <;> (first | (first | apply State.issue_pending | apply State.streamIssue_pending | apply State.atOnce_pending | apply State.queued_pending | apply State.queuedDone_pending | apply State.seqStep_pending | apply State.onQp_pending | apply State.onGroup_pending | apply State.inRound_pending) | skip) <;> (try intros) <;> (try dsimp only) <;> ((repeat' split) <;> (try simp only [Prod.ext_iff] at *) <;> (try casesm* _ ∧ _) <;> (try subst_vars) <;> (try simp_all) <;> (repeat' (first | rw [foldl_pending] | rw [foldl_fst_pending])) <;> (try intros) <;> (try dsimp only) <;> ((repeat' split) <;> simp_all))

theorem execEval_pending (h : Hdr) (b : StepBlock) (x : ProgBlock) (s : State) : Keeps (execEval h b x s) s := by
  unfold execEval; (try rw [keeps_next]); (try dsimp only); (repeat' split) <;> (try rw [keeps_next]) <;> (first | (first | apply State.issue_pending | apply State.streamIssue_pending | apply State.atOnce_pending | apply State.queued_pending | apply State.queuedDone_pending | apply State.seqStep_pending | apply State.onQp_pending | apply State.onGroup_pending | apply State.inRound_pending) | skip) <;> (try intros) <;> (try dsimp only) <;> ((repeat' split) <;> (try simp only [Prod.ext_iff] at *) <;> (try casesm* _ ∧ _) <;> (try subst_vars) <;> (try simp_all) <;> (repeat' (first | rw [foldl_pending] | rw [foldl_fst_pending])) <;> (try intros) <;> (try dsimp only) <;> ((repeat' split) <;> simp_all))

@[simp] theorem State.writeTokens_pending (s : State) (p : PtnId) (r : Train) (os : List (Nat × TokenOut)) : (State.writeTokens s p r os).1.pending = s.pending := by
  induction os generalizing s with
  | nil => rfl
  | cons n ns ih =>
    unfold State.writeTokens; dsimp only
    split
    · rename_i h1; exact fst_pending h1 (ite_acc_pending (by simp) rfl)
    · rename_i s1 _ h1
      have e1 : s1.pending = s.pending := fst_pending h1 (ite_acc_pending (by simp) rfl)
      split
      · rename_i h2; exact fst_pending h2 (ite_acc_pending (by simp [e1]) e1)
      · rename_i h2; rw [ih]; exact fst_pending h2 (ite_acc_pending (by simp [e1]) e1)

@[simp] theorem State.failBlock_pending (s : State) (p : PtnId) (h : Hdr) (r : Train) (c : Status) : (State.failBlock s p h r c).pending = s.pending := by
  unfold State.failBlock; (try dsimp only); all_goals ((repeat' split) <;> simp_all)

@[simp] theorem State.foldLate_pending (s : State) (p : PtnId) (r : Train) : (s.foldLate p r).1.pending = s.pending := by
  unfold State.foldLate; dsimp only
  split
  · rfl
  · split
    · exact fst_pending ‹_› (State.nets_pending _ _ _ _)
    · have e := fst_pending ‹_› (State.nets_pending _ _ _ _)
      simp [e]

@[simp] theorem State.blockDone_pending (s : State) (p : PtnId) (h : Hdr) (block : Nat) : (s.blockDone p h block).pending = s.pending := by
  unfold State.blockDone; extract_lets s1
  have e1 : s1.pending = s.pending := by simp [s1]
  clear_value s1
  split
  · exact e1
  · split
    · split <;> simp [e1]
    · split
      · split
        · have e := fst_pending ‹_› (State.foldLate_pending _ _ _); simp [e, e1]
        · have e := fst_pending ‹_› (State.foldLate_pending _ _ _)
          split <;> simp [e, e1]
      · exact e1

@[simp] theorem State.finaliseRank_pending (s : State) (p : PtnId) (h : Hdr) (r : Train) (block : Nat) : (State.finaliseRank s p h r block).pending = s.pending := by
  unfold State.finaliseRank; (try dsimp only); all_goals ((repeat' split) <;> simp_all)

@[simp] theorem State.blockLogits_pending (s : State) (p : PtnId) (r : Train) (block : Nat) : (State.blockLogits s p r block).1.pending = s.pending := by
  unfold State.blockLogits; (try dsimp only); all_goals ((repeat' split) <;> (try simp only [Prod.ext_iff] at *) <;> (try casesm* _ ∧ _) <;> (try subst_vars) <;> ((repeat' split) <;> simp_all))

@[simp] theorem State.finalise_pending (s : State) (p : PtnId) (h : Hdr) (r : Train) (block : Nat) : (State.finalise s p h r block).pending = s.pending := by
  unfold State.finalise; (try dsimp only); all_goals ((repeat' split) <;> (try simp only [Prod.ext_iff] at *) <;> (try casesm* _ ∧ _) <;> (try subst_vars) <;> ((repeat' split) <;> simp_all))

theorem execContactFinalise_pending (p : PtnId) (q : QueueId) (block : Nat) (s : State) : Keeps (execContactFinalise p q block s) s := by
  unfold execContactFinalise; (try dsimp only); all_goals ((repeat' split) <;> simp_all)

theorem execFwdMb_pending (h : Hdr) (x : ProgBlock) (s : State) : Keeps (execFwdMb h x s) s := by
  unfold execFwdMb; extract_lets i y bytes rm starts wait
  refine keeps_ite ?_ (keeps_ite (by simp) ?_)
  · rw [keeps_next]
    have hw : ∀ z ∈ wait, z.pending = s.pending := by
      intro z hz; simp only [wait, rm] at hz
      split at hz
      · rename_i z' h1
        simp only [Option.mem_def, Option.some.injEq] at hz; subst hz
        split
        · exact State.room_pending h1
        · rfl
      · cases hz
    clear_value wait
    cases wait with
    | none => rfl
    | some z => exact hw z rfl
  · rw [keeps_next]; apply State.queued_pending; intro s
    extract_lets hd seed s1 mb s2
    have e2 : s2.pending = s.pending := by simp [s2, s1]
    clear_value s2
    split
    · rename_i h1
      have e1 := (State.room_pending h1).trans e2
      dsimp only
      split <;> simpa using e1
    · rename_i h1
      simpa using (State.room_pending h1).trans e2
    · rename_i h1
      simpa using (State.room_pending h1).trans e2

theorem execBwdMb_pending (h : Hdr) (x : ProgBlock) (s : State) : Keeps (execBwdMb h x s) s := by
  unfold execBwdMb; (try rw [keeps_next]); (try dsimp only); (repeat' split) <;> (try rw [keeps_next]) <;> (first | (first | apply State.issue_pending | apply State.streamIssue_pending | apply State.atOnce_pending | apply State.queued_pending | apply State.queuedDone_pending | apply State.seqStep_pending | apply State.onQp_pending | apply State.onGroup_pending | apply State.inRound_pending) | skip) <;> (try intros) <;> (try dsimp only) <;> ((repeat' split) <;> (try simp only [Prod.ext_iff] at *) <;> (try casesm* _ ∧ _) <;> (try subst_vars) <;> (try simp_all) <;> (repeat' (first | rw [foldl_pending] | rw [foldl_fst_pending])) <;> (try intros) <;> (try dsimp only) <;> ((repeat' split) <;> simp_all))

theorem execMbRelease_pending (h : Hdr) (ids : List W32) (s : State) : Keeps (execMbRelease h ids s) s := by
  unfold execMbRelease; rw [keeps_next, State.pumpTrain_pending]
  refine State.atOnce_pending _ _ _ _ fun s => ?_
  split
  · rfl
  · refine foldl_fst_pending _ (fun a id => ?_) _ _
    (repeat' split) <;> simp

theorem execStashFill_pending (p : PtnId) (mb : W32) (s : State) : Keeps (execStashFill p mb s) s := by
  unfold execStashFill; rw [keeps_next]
  split
  · split
    · rfl
    · split <;> (rename_i h1; simpa using State.room_pending h1)
  · rfl

theorem execStashFillComplete_pending (p : PtnId) (mb : W32) (s : State) : Keeps (execStashFillComplete p mb s) s := by
  unfold execStashFillComplete; (try dsimp only); all_goals ((repeat' split) <;> (try simp only [Prod.ext_iff] at *) <;> (try casesm* _ ∧ _) <;> (try subst_vars) <;> ((repeat' split) <;> simp_all))

theorem execUpdate_pending (h : Hdr) (model : W16) (set : W16) (adamw : Bool) (group : W32) (opt : Opt) (s : State) : Keeps (execUpdate h model set adamw group opt s) s := by
  unfold execUpdate; (try rw [keeps_next]); (first | apply State.issue_pending | apply State.streamIssue_pending | apply State.atOnce_pending | apply State.queued_pending | apply State.queuedDone_pending | apply State.seqStep_pending | apply State.onQp_pending | apply State.onGroup_pending | apply State.inRound_pending); intros; (try dsimp only); all_goals ((repeat' split) <;> simp_all)

@[simp] theorem State.updateAlone_pending (s : State) (p : PtnId) (h : Hdr) (r : Train) (set : Nat) (im : Image) (w : WSet) : (State.updateAlone s p h r set im w).pending = s.pending := by
  unfold State.updateAlone; (try dsimp only); all_goals ((repeat' split) <;> simp_all)

@[simp] theorem State.clearBad_pending (s : State) (p : PtnId) : (State.clearBad s p).pending = s.pending := by
  unfold State.clearBad; (try dsimp only); all_goals ((repeat' split) <;> simp_all)

@[simp] theorem State.closingStrips_pending (s : State) (us : List Nat) : (State.closingStrips s us).pending = s.pending := by
  unfold State.closingStrips; (try rw [keeps_next]); (try dsimp only); ((repeat' split) <;> (try simp only [Prod.ext_iff] at *) <;> (try casesm* _ ∧ _) <;> (try subst_vars) <;> (try simp_all) <;> (repeat' (first | rw [foldl_pending] | rw [foldl_fst_pending])) <;> (try intros) <;> (try dsimp only) <;> ((repeat' split) <;> simp_all))

@[simp] theorem State.updateGroup_pending (s : State) (p : PtnId) (h : Hdr) (r : Train) (set : Nat) (im : Image) (w : WSet) (g : Group) : (State.updateGroup s p h r set im w g).pending = s.pending := by
  unfold State.updateGroup; (try dsimp only); all_goals ((repeat' split) <;> simp_all)

theorem execUpdateBufferAcquire_pending (p : PtnId) (model : W16) (set : W16) (s : State) : Keeps (execUpdateBufferAcquire p model set s) s := by
  unfold execUpdateBufferAcquire; (try dsimp only); all_goals ((repeat' split) <;> simp_all)

theorem execBudgetSet_pending (h : Hdr) (recs : List BudgetRec) (s : State) : Keeps (execBudgetSet h recs s) s := by
  unfold execBudgetSet; (try rw [keeps_next]); (first | apply State.issue_pending | apply State.streamIssue_pending | apply State.atOnce_pending | apply State.queued_pending | apply State.queuedDone_pending | apply State.seqStep_pending | apply State.onQp_pending | apply State.onGroup_pending | apply State.inRound_pending); intros; (try dsimp only); all_goals ((repeat' split) <;> simp_all)

theorem execBudgetRead_pending (h : Hdr) (first : W16) (count : W16) (s : State) : Keeps (execBudgetRead h first count s) s := by
  unfold execBudgetRead; (try rw [keeps_next]); (first | apply State.issue_pending | apply State.streamIssue_pending | apply State.atOnce_pending | apply State.queued_pending | apply State.queuedDone_pending | apply State.seqStep_pending | apply State.onQp_pending | apply State.onGroup_pending | apply State.inRound_pending); intros; (try dsimp only); all_goals ((repeat' split) <;> simp_all)

theorem execBudgetRefill_pending (p : PtnId) (tag : W32) (s : State) : Keeps (execBudgetRefill p tag s) s := by
  unfold execBudgetRefill; (try dsimp only); all_goals ((repeat' split) <;> simp_all)

@[simp] theorem State.updServe_pending (s : State) (p : PtnId) (f : Serve → Serve) : (State.updServe s p f).pending = s.pending := by
  unfold State.updServe; (try dsimp only); all_goals ((repeat' split) <;> simp_all)

@[simp] theorem State.updStream_pending (s : State) (p : PtnId) (id : Nat) (f : Stream → Stream) : (State.updStream s p id f).pending = s.pending := by
  unfold State.updStream; (try dsimp only); all_goals ((repeat' split) <;> simp_all)

@[simp] theorem State.updModel_pending (s : State) (p : PtnId) (h : Nat) (f : Model → Model) : (State.updModel s p h f).pending = s.pending := by
  unfold State.updModel; (try dsimp only); all_goals ((repeat' split) <;> simp_all)

theorem State.takePages_pending {s t : State} {p : PtnId} {model n : Nat} {ps ps' : List (List Nat)} (e : s.takePages p model n ps = some (t, ps')) : t.pending = s.pending := by
  unfold State.takePages at e
  split at e
  · cases e
  · obtain ⟨_, _, h⟩ := Option.map_eq_some_iff.mp e
    cases h; simp

theorem State.takeBoth_pending {s u : State} {p : PtnId} {t : Stream} {n d : Nat} {a b : List (List Nat)} (e : s.takeBoth p t n d = some (u, a, b)) : u.pending = s.pending := by
  unfold State.takeBoth at e
  split at e
  · cases e
  · have h1 := State.takePages_pending ‹_›
    split at e
    · cases e; exact h1
    · obtain ⟨x, hx, h⟩ := Option.map_eq_some_iff.mp e
      cases h; exact (State.takePages_pending hx).trans h1

@[simp] theorem State.closeStream_pending (s : State) (p : PtnId) (t : Stream) (failed : Option Status) (nowUs : Option Nat) : (State.closeStream s p t failed nowUs).pending = s.pending := by
  unfold State.closeStream; (try dsimp only); all_goals ((repeat' split) <;> simp_all)

@[simp] theorem State.openStream_pending (s : State) (h : Hdr) (i : Nat) (r : GenReq) (prog : List Byte) : (s.openStream h i r prog).1.pending = s.pending := by
  unfold State.openStream; extract_lets p x n
  split
  · rfl
  · split
    · exact fst_pending ‹_› (State.pRead_pending _ _ _ _ _)
    · have e1 := fst_pending ‹_› (State.pRead_pending _ _ _ _ _)
      split
      · exact e1
      · have e2 := State.takeBoth_pending ‹_›
        simp [e1, e2]

theorem execGenSubmit_pending (h : Hdr) (program entry : W16) (reqs : List GenReq) (s : State) : Keeps (execGenSubmit h program entry reqs s) s := by
  unfold execGenSubmit; rw [keeps_next]
  refine State.queued_pending _ _ _ _ _ _ _ fun s => ?_
  refine (foldl_pending _ (fun s e => ?_) _ _).trans (by simp)
  split
  · rw [State.closeItem_pending]; exact fst_pending ‹_› (State.openStream_pending _ _ _ _ _)
  · exact fst_pending ‹_› (State.openStream_pending _ _ _ _ _)

theorem execGenCancel_pending (h : Hdr) (seq : W32) (item : W16) (s : State) : Keeps (execGenCancel h seq item s) s := by
  unfold execGenCancel; (try rw [keeps_next]); (first | apply State.issue_pending | apply State.streamIssue_pending | apply State.atOnce_pending | apply State.queued_pending | apply State.queuedDone_pending | apply State.seqStep_pending | apply State.onQp_pending | apply State.onGroup_pending | apply State.inRound_pending); intros; (try dsimp only); all_goals ((repeat' split) <;> simp_all)

@[simp] theorem State.seat_pending (s : State) (p : PtnId) (t : Stream) : (s.seat p t).pending = s.pending := by
  unfold State.seat; dsimp only
  split
  · simp
  · rename_i h
    obtain ⟨_, _, h⟩ := List.exists_of_findSome?_eq_some h
    obtain ⟨_, he, hx⟩ := Option.map_eq_some_iff.mp h
    cases hx; simp [State.takeBoth_pending he]

theorem execGenStep_pending (p : PtnId) (model : W16) (s : State) : Keeps (execGenStep p model s) s := by
  unfold execGenStep; (try dsimp only); all_goals ((repeat' split) <;> simp_all)

@[simp] theorem State.switchStream_pending (s : State) (p : PtnId) (t : Stream) : (State.switchStream s p t).pending = s.pending := by
  unfold State.switchStream; (try dsimp only); all_goals ((repeat' split) <;> simp_all)

@[simp] theorem State.monitor_pending (s : State) (p : PtnId) (id : Nat) (nowUs : Nat) : (State.monitor s p id nowUs).pending = s.pending := by
  unfold State.monitor; (try dsimp only); all_goals ((repeat' split) <;> simp_all)

@[simp] theorem State.commitStream_pending (s : State) (p : PtnId) (t : Stream) (nowUs : Nat) : (State.commitStream s p t nowUs).pending = s.pending := by
  unfold State.commitStream; (try dsimp only); all_goals ((repeat' split) <;> (try simp only [Prod.ext_iff] at *) <;> (try casesm* _ ∧ _) <;> (try subst_vars) <;> ((repeat' split) <;> simp_all))

theorem execStepCommit_pending (p : PtnId) (model : W16) (failed : Option Status) (nowUs : Nat) (s : State) : Keeps (execStepCommit p model failed nowUs s) s := by
  unfold execStepCommit; (try rw [keeps_next]); (try dsimp only); ((repeat' split) <;> (try simp only [Prod.ext_iff] at *) <;> (try casesm* _ ∧ _) <;> (try subst_vars) <;> (try simp_all) <;> (repeat' (first | rw [foldl_pending] | rw [foldl_fst_pending])) <;> (try intros) <;> (try dsimp only) <;> ((repeat' split) <;> simp_all))

@[simp] theorem State.runChunk_pending (s : State) (p : PtnId) (t : Stream) (n : Nat) (nowUs : Nat) : (State.runChunk s p t n nowUs).pending = s.pending := by
  unfold State.runChunk; (try dsimp only); all_goals ((repeat' split) <;> (try simp only [Prod.ext_iff] at *) <;> (try casesm* _ ∧ _) <;> (try subst_vars) <;> ((repeat' split) <;> simp_all))

theorem execChunkComplete_pending (p : PtnId) (stream : Nat) (failed : Option Status) (nowUs : Nat) (s : State) : Keeps (execChunkComplete p stream failed nowUs s) s := by
  unfold execChunkComplete; rw [keeps_next]; dsimp only
  split
  · rfl
  · split
    · rfl
    · split
      · simp
      · split
        · rfl
        · split
          · simp
          · rename_i h; simp [State.takePages_pending h]

@[simp] theorem State.i3cBad_pending (s : State) (n : Nat) : (State.i3cBad s n).pending = s.pending := by
  first
  | (unfold State.i3cBad; (try dsimp only); all_goals ((repeat' split) <;> simp_all); done)
  | (unfold State.i3cBad; (try dsimp only); all_goals ((repeat' split) <;> (try simp only [Prod.ext_iff] at *) <;> (try casesm* _ ∧ _) <;> (try subst_vars) <;> ((repeat' split) <;> simp_all)); done)
  | (unfold State.i3cBad; (try rw [keeps_next]); (first | apply State.issue_pending | apply State.streamIssue_pending | apply State.atOnce_pending | apply State.queued_pending | apply State.queuedDone_pending | apply State.seqStep_pending | apply State.onQp_pending | apply State.onGroup_pending | apply State.inRound_pending); intros; (try dsimp only); all_goals ((repeat' split) <;> simp_all); done)
  | (unfold State.i3cBad; (try rw [keeps_next]); (first | apply State.issue_pending | apply State.streamIssue_pending | apply State.atOnce_pending | apply State.queued_pending | apply State.queuedDone_pending | apply State.seqStep_pending | apply State.onQp_pending | apply State.onGroup_pending | apply State.inRound_pending); intros; (try dsimp only); all_goals ((repeat' split) <;> (try simp only [Prod.ext_iff] at *) <;> (try casesm* _ ∧ _) <;> (try subst_vars) <;> ((repeat' split) <;> simp_all)); done)
  | (unfold State.i3cBad; (try rw [keeps_next]); (try dsimp only); ((repeat' split) <;> (try simp only [Prod.ext_iff] at *) <;> (try casesm* _ ∧ _) <;> (try subst_vars) <;> (try simp_all) <;> (repeat' (first | rw [foldl_pending] | rw [foldl_fst_pending])) <;> (try intros) <;> (try dsimp only) <;> ((repeat' split) <;> simp_all)); done)
  | (unfold State.i3cBad; (try rw [keeps_next]); (try dsimp only); (repeat' split) <;> (try rw [keeps_next]) <;> (first | (first | apply State.issue_pending | apply State.streamIssue_pending | apply State.atOnce_pending | apply State.queued_pending | apply State.queuedDone_pending | apply State.seqStep_pending | apply State.onQp_pending | apply State.onGroup_pending | apply State.inRound_pending) | skip) <;> (try intros) <;> (try dsimp only) <;> ((repeat' split) <;> (try simp only [Prod.ext_iff] at *) <;> (try casesm* _ ∧ _) <;> (try subst_vars) <;> (try simp_all) <;> (repeat' (first | rw [foldl_pending] | rw [foldl_fst_pending])) <;> (try intros) <;> (try dsimp only) <;> ((repeat' split) <;> simp_all)))

@[simp] theorem State.flashStart_pending (s : State) (off : Nat) (bs : List Byte) : (State.flashStart s off bs).pending = s.pending := by
  first
  | (unfold State.flashStart; (try dsimp only); all_goals ((repeat' split) <;> simp_all); done)
  | (unfold State.flashStart; (try dsimp only); all_goals ((repeat' split) <;> (try simp only [Prod.ext_iff] at *) <;> (try casesm* _ ∧ _) <;> (try subst_vars) <;> ((repeat' split) <;> simp_all)); done)
  | (unfold State.flashStart; (try rw [keeps_next]); (first | apply State.issue_pending | apply State.streamIssue_pending | apply State.atOnce_pending | apply State.queued_pending | apply State.queuedDone_pending | apply State.seqStep_pending | apply State.onQp_pending | apply State.onGroup_pending | apply State.inRound_pending); intros; (try dsimp only); all_goals ((repeat' split) <;> simp_all); done)
  | (unfold State.flashStart; (try rw [keeps_next]); (first | apply State.issue_pending | apply State.streamIssue_pending | apply State.atOnce_pending | apply State.queued_pending | apply State.queuedDone_pending | apply State.seqStep_pending | apply State.onQp_pending | apply State.onGroup_pending | apply State.inRound_pending); intros; (try dsimp only); all_goals ((repeat' split) <;> (try simp only [Prod.ext_iff] at *) <;> (try casesm* _ ∧ _) <;> (try subst_vars) <;> ((repeat' split) <;> simp_all)); done)
  | (unfold State.flashStart; (try rw [keeps_next]); (try dsimp only); ((repeat' split) <;> (try simp only [Prod.ext_iff] at *) <;> (try casesm* _ ∧ _) <;> (try subst_vars) <;> (try simp_all) <;> (repeat' (first | rw [foldl_pending] | rw [foldl_fst_pending])) <;> (try intros) <;> (try dsimp only) <;> ((repeat' split) <;> simp_all)); done)
  | (unfold State.flashStart; (try rw [keeps_next]); (try dsimp only); (repeat' split) <;> (try rw [keeps_next]) <;> (first | (first | apply State.issue_pending | apply State.streamIssue_pending | apply State.atOnce_pending | apply State.queued_pending | apply State.queuedDone_pending | apply State.seqStep_pending | apply State.onQp_pending | apply State.onGroup_pending | apply State.inRound_pending) | skip) <;> (try intros) <;> (try dsimp only) <;> ((repeat' split) <;> (try simp only [Prod.ext_iff] at *) <;> (try casesm* _ ∧ _) <;> (try subst_vars) <;> (try simp_all) <;> (repeat' (first | rw [foldl_pending] | rw [foldl_fst_pending])) <;> (try intros) <;> (try dsimp only) <;> ((repeat' split) <;> simp_all)))

theorem State.onI3c_pending (s : State) (f : State → State) (hf : ∀ s, (f s).pending = s.pending) : Keeps (s.onI3c f) s := by
  unfold State.onI3c; simp; split <;> simp [hf]

theorem execI3cRegRead_pending (addr : W64) (s : State) : Keeps (execI3cRegRead addr s) s := by
  unfold execI3cRegRead; (try rw [keeps_next]); (first | apply State.issue_pending | apply State.streamIssue_pending | apply State.atOnce_pending | apply State.queued_pending | apply State.queuedDone_pending | apply State.seqStep_pending | apply State.onQp_pending | apply State.onGroup_pending | apply State.inRound_pending | apply State.onI3c_pending); intros; (try dsimp only); all_goals ((repeat' split) <;> simp_all)

theorem execI3cRegWrite_pending (addr : W64) (v : RegVal) (s : State) : Keeps (execI3cRegWrite addr v s) s := by
  unfold execI3cRegWrite; (try rw [keeps_next]); (first | apply State.issue_pending | apply State.streamIssue_pending | apply State.atOnce_pending | apply State.queued_pending | apply State.queuedDone_pending | apply State.seqStep_pending | apply State.onQp_pending | apply State.onGroup_pending | apply State.inRound_pending | apply State.onI3c_pending); intros; (try dsimp only); all_goals ((repeat' split) <;> simp_all)

theorem execFlashRead_pending (off : W32) (len : W16) (s : State) : Keeps (execFlashRead off len s) s := by
  unfold execFlashRead; (try rw [keeps_next]); (first | apply State.issue_pending | apply State.streamIssue_pending | apply State.atOnce_pending | apply State.queued_pending | apply State.queuedDone_pending | apply State.seqStep_pending | apply State.onQp_pending | apply State.onGroup_pending | apply State.inRound_pending | apply State.onI3c_pending); intros; (try dsimp only); all_goals ((repeat' split) <;> simp_all)

theorem execFlashWrite_pending (off : W32) (bytes : List Byte) (s : State) : Keeps (execFlashWrite off bytes s) s := by
  unfold execFlashWrite; (try rw [keeps_next]); (first | apply State.issue_pending | apply State.streamIssue_pending | apply State.atOnce_pending | apply State.queued_pending | apply State.queuedDone_pending | apply State.seqStep_pending | apply State.onQp_pending | apply State.onGroup_pending | apply State.inRound_pending | apply State.onI3c_pending); intros; (try dsimp only); all_goals ((repeat' split) <;> simp_all)

theorem execFlashErase_pending (off : W32) (s : State) : Keeps (execFlashErase off s) s := by
  refine State.onI3c_pending _ _ fun s => ?_
  split
  · rfl
  · simp

theorem execI3cStatus_pending (s : State) : Keeps (execI3cStatus s) s := by
  first
  | (unfold execI3cStatus; (try dsimp only); all_goals ((repeat' split) <;> simp_all); done)
  | (unfold execI3cStatus; (try dsimp only); all_goals ((repeat' split) <;> (try simp only [Prod.ext_iff] at *) <;> (try casesm* _ ∧ _) <;> (try subst_vars) <;> ((repeat' split) <;> simp_all)); done)
  | (unfold execI3cStatus; (try rw [keeps_next]); (first | apply State.issue_pending | apply State.streamIssue_pending | apply State.atOnce_pending | apply State.queued_pending | apply State.queuedDone_pending | apply State.seqStep_pending | apply State.onQp_pending | apply State.onGroup_pending | apply State.inRound_pending | apply State.onI3c_pending); intros; (try dsimp only); all_goals ((repeat' split) <;> simp_all); done)
  | (unfold execI3cStatus; (try rw [keeps_next]); (first | apply State.issue_pending | apply State.streamIssue_pending | apply State.atOnce_pending | apply State.queued_pending | apply State.queuedDone_pending | apply State.seqStep_pending | apply State.onQp_pending | apply State.onGroup_pending | apply State.inRound_pending | apply State.onI3c_pending); intros; (try dsimp only); all_goals ((repeat' split) <;> (try simp only [Prod.ext_iff] at *) <;> (try casesm* _ ∧ _) <;> (try subst_vars) <;> ((repeat' split) <;> simp_all)); done)
  | (unfold execI3cStatus; (try rw [keeps_next]); (try dsimp only); ((repeat' split) <;> (try simp only [Prod.ext_iff] at *) <;> (try casesm* _ ∧ _) <;> (try subst_vars) <;> (try simp_all) <;> (repeat' (first | rw [foldl_pending] | rw [foldl_fst_pending])) <;> (try intros) <;> (try dsimp only) <;> ((repeat' split) <;> simp_all)); done)
  | (unfold execI3cStatus; (try rw [keeps_next]); (try dsimp only); (repeat' split) <;> (try rw [keeps_next]) <;> (first | (first | apply State.issue_pending | apply State.streamIssue_pending | apply State.atOnce_pending | apply State.queued_pending | apply State.queuedDone_pending | apply State.seqStep_pending | apply State.onQp_pending | apply State.onGroup_pending | apply State.inRound_pending | apply State.onI3c_pending) | skip) <;> (try intros) <;> (try dsimp only) <;> ((repeat' split) <;> (try simp only [Prod.ext_iff] at *) <;> (try casesm* _ ∧ _) <;> (try subst_vars) <;> (try simp_all) <;> (repeat' (first | rw [foldl_pending] | rw [foldl_fst_pending])) <;> (try intros) <;> (try dsimp only) <;> ((repeat' split) <;> simp_all)))

theorem execFlashOperationComplete_pending (s : State) : Keeps (execFlashOperationComplete s) s := by
  unfold execFlashOperationComplete; (try dsimp only); all_goals ((repeat' split) <;> simp_all)

@[simp] theorem State.takeAddr_pending (s : State) (addr : BitVec 7) : Keeps (State.takeAddr s addr) s := by
  first
  | (unfold State.takeAddr; (try dsimp only); all_goals ((repeat' split) <;> simp_all); done)
  | (unfold State.takeAddr; (try dsimp only); all_goals ((repeat' split) <;> (try simp only [Prod.ext_iff] at *) <;> (try casesm* _ ∧ _) <;> (try subst_vars) <;> ((repeat' split) <;> simp_all)); done)
  | (unfold State.takeAddr; (try rw [keeps_next]); (first | apply State.issue_pending | apply State.streamIssue_pending | apply State.atOnce_pending | apply State.queued_pending | apply State.queuedDone_pending | apply State.seqStep_pending | apply State.onQp_pending | apply State.onGroup_pending | apply State.inRound_pending | apply State.onI3c_pending); intros; (try dsimp only); all_goals ((repeat' split) <;> simp_all); done)
  | (unfold State.takeAddr; (try rw [keeps_next]); (first | apply State.issue_pending | apply State.streamIssue_pending | apply State.atOnce_pending | apply State.queued_pending | apply State.queuedDone_pending | apply State.seqStep_pending | apply State.onQp_pending | apply State.onGroup_pending | apply State.inRound_pending | apply State.onI3c_pending); intros; (try dsimp only); all_goals ((repeat' split) <;> (try simp only [Prod.ext_iff] at *) <;> (try casesm* _ ∧ _) <;> (try subst_vars) <;> ((repeat' split) <;> simp_all)); done)
  | (unfold State.takeAddr; (try rw [keeps_next]); (try dsimp only); ((repeat' split) <;> (try simp only [Prod.ext_iff] at *) <;> (try casesm* _ ∧ _) <;> (try subst_vars) <;> (try simp_all) <;> (repeat' (first | rw [foldl_pending] | rw [foldl_fst_pending])) <;> (try intros) <;> (try dsimp only) <;> ((repeat' split) <;> simp_all)); done)
  | (unfold State.takeAddr; (try rw [keeps_next]); (try dsimp only); (repeat' split) <;> (try rw [keeps_next]) <;> (first | (first | apply State.issue_pending | apply State.streamIssue_pending | apply State.atOnce_pending | apply State.queued_pending | apply State.queuedDone_pending | apply State.seqStep_pending | apply State.onQp_pending | apply State.onGroup_pending | apply State.inRound_pending | apply State.onI3c_pending) | skip) <;> (try intros) <;> (try dsimp only) <;> ((repeat' split) <;> (try simp only [Prod.ext_iff] at *) <;> (try casesm* _ ∧ _) <;> (try subst_vars) <;> (try simp_all) <;> (repeat' (first | rw [foldl_pending] | rw [foldl_fst_pending])) <;> (try intros) <;> (try dsimp only) <;> ((repeat' split) <;> simp_all)))

theorem execSetdasa_pending (addr : BitVec 7) (s : State) : Keeps (execSetdasa addr s) s := by
  unfold execSetdasa; (try dsimp only); all_goals ((repeat' split) <;> simp_all)

theorem execEntdaa_pending (addr : BitVec 7) (s : State) : Keeps (execEntdaa addr s) s := by
  unfold execEntdaa; (try dsimp only); all_goals ((repeat' split) <;> simp_all)

@[simp] theorem State.scan_pending (s : State) (ir : BitVec 3) (v : W64) : Keeps (State.scan s ir v) s := by
  unfold State.scan; (try dsimp only); all_goals ((repeat' split) <;> simp_all)

@[simp] theorem State.boundary_pending (s : State) (ir : BitVec 3) : Keeps (s.boundary ir) s := ⟨_, rfl, rfl⟩

theorem execBypass_pending (s : State) : Keeps (execBypass s) s := by
  unfold execBypass; (try dsimp only); all_goals ((repeat' split) <;> simp_all)

theorem execIdcode_pending (s : State) : Keeps (execIdcode s) s := by
  unfold execIdcode; (try dsimp only); all_goals ((repeat' split) <;> simp_all)

theorem execSamplePreload_pending (s : State) : Keeps (execSamplePreload s) s := State.boundary_pending _ _

theorem execExtest_pending (s : State) : Keeps (execExtest s) s := by
  unfold execExtest; split
  · simp
  · exact State.boundary_pending _ _

theorem execTableOp_pending (h : Hdr) (reqs : List TeReq) (s : State) : Keeps (execTableOp h reqs s) s := by
  unfold execTableOp; (try rw [keeps_next]); (try dsimp only); (repeat' split) <;> (try rw [keeps_next]) <;> (first | (first | apply State.issue_pending | apply State.streamIssue_pending | apply State.atOnce_pending | apply State.queued_pending | apply State.queuedDone_pending | apply State.seqStep_pending | apply State.onQp_pending | apply State.onGroup_pending | apply State.inRound_pending | apply State.onI3c_pending) | skip) <;> (try intros) <;> (try dsimp only) <;> ((repeat' split) <;> (try simp only [Prod.ext_iff] at *) <;> (try casesm* _ ∧ _) <;> (try subst_vars) <;> (try simp_all) <;> (repeat' (first | rw [foldl_pending] | rw [foldl_fst_pending])) <;> (try intros) <;> (try dsimp only) <;> ((repeat' split) <;> simp_all))

end Sys2Proof.Machine
end

