-- ==== Sys2Proof/Laws/Threads.lean ====
section
/-! SUPPORT. What the shared issue operations of a scalar-core thread do, said once each, and what a write of a register or predicate leaves. -/

namespace Sys2Proof.Machine

/-! ## Registers and predicates -/

theorem Thread.get_set_same (x : Thread) (r : BitVec 5) (v : W32) (h : Tab.wf 0 x.g = true) : (x.set r v).get r = if r = 0 then 0 else v := by
  unfold Thread.set Thread.get
  split
  · rfl
  · exact Tab.get_put_same _ _ h

theorem Thread.get_set_other (x : Thread) (r r' : BitVec 5) (v : W32) (h : r' ≠ r) : (x.set r v).get r' = x.get r' := by
  unfold Thread.set Thread.get
  split
  · rfl
  · split
    · rfl
    · exact Tab.get_put_ne _ _ _ _ fun e => h (BitVec.eq_of_toNat_eq e)

/-- A write to G0 is discarded. -/
theorem Thread.set_zero (x : Thread) (v : W32) : x.set 0 v = x := rfl
theorem Thread.get_zero (x : Thread) : x.get 0 = 0 := rfl
theorem Thread.pred_zero (x : Thread) : x.pred 0 = true := rfl
theorem Thread.setPred_zero (x : Thread) (v : Bool) : x.setPred 0 v = x := rfl

@[simp] theorem Thread.get_next (x : Thread) (r : BitVec 5) : x.next.get r = x.get r := rfl
@[simp] theorem Thread.pred_next (x : Thread) (k : Nat) : x.next.pred k = x.pred k := rfl
@[simp] theorem Thread.set_k (x : Thread) (r : BitVec 5) (v : W32) : (x.set r v).k = x.k := by unfold Thread.set; split <;> rfl
@[simp] theorem Thread.set_b (x : Thread) (r : BitVec 5) (v : W32) : (x.set r v).b = x.b := by unfold Thread.set; split <;> rfl
@[simp] theorem Thread.set_loads (x : Thread) (r : BitVec 5) (v : W32) : (x.set r v).loads = x.loads := by unfold Thread.set; split <;> rfl
@[simp] theorem Thread.set_wait (x : Thread) (r : BitVec 5) (v : W32) : (x.set r v).wait = x.wait := by unfold Thread.set; split <;> rfl
@[simp] theorem Thread.set_launch (x : Thread) (r : BitVec 5) (v : W32) : (x.set r v).launch = x.launch := by unfold Thread.set; split <;> rfl
@[simp] theorem Thread.set_pc (x : Thread) (r : BitVec 5) (v : W32) : (x.set r v).pc = x.pc := by unfold Thread.set; split <;> rfl
@[simp] theorem Thread.set_pred (x : Thread) (r : BitVec 5) (v : W32) (k : Nat) : (x.set r v).pred k = x.pred k := by simp [Thread.pred]
@[simp] theorem Thread.setPred_get (x : Thread) (k : Nat) (v : Bool) (r : BitVec 5) : (x.setPred k v).get r = x.get r := by unfold Thread.setPred; split <;> rfl
@[simp] theorem Thread.setPred_b (x : Thread) (k : Nat) (v : Bool) : (x.setPred k v).b = x.b := by unfold Thread.setPred; split <;> rfl
@[simp] theorem Thread.setPred_loads (x : Thread) (k : Nat) (v : Bool) : (x.setPred k v).loads = x.loads := by unfold Thread.setPred; split <;> rfl
@[simp] theorem Thread.setPred_wait (x : Thread) (k : Nat) (v : Bool) : (x.setPred k v).wait = x.wait := by unfold Thread.setPred; split <;> rfl
@[simp] theorem Thread.setPred_launch (x : Thread) (k : Nat) (v : Bool) : (x.setPred k v).launch = x.launch := by unfold Thread.setPred; split <;> rfl
@[simp] theorem Thread.setPred_pc (x : Thread) (k : Nat) (v : Bool) : (x.setPred k v).pc = x.pc := by unfold Thread.setPred; split <;> rfl

/-! ## Issue -/

theorem issues_some {s : State} {t : ThreadId} {w : IWord} {op : Nat} {regs : IWord → List (BitVec 5)} {l : Launch} (h : s.issues t w op regs = some l) :
    s.launch? (s.th t.val).launch = some l ∧ s.canIssue t (regs (l.word w)) = true ∧ wordCheck op (l.word w) l.code.length = none := by
  unfold State.issues at h
  split at h
  · cases h
  · split at h
    · cases h; rename_i h1 h2; simp at h2; exact ⟨h1, h2.1, h2.2⟩
    · cases h

theorem alu_wrote {s : State} {t : ThreadId} {w : IWord} {op : Nat} {regs : IWord → List (BitVec 5)} {l : Launch} {f : Launch → IWord → Thread → W32 × Ev}
    (h : s.issues t w op (fun e => e.d :: regs e) = some l) (hp : (s.th t.val).pred (l.word w).pred.toNat = true) :
    s.alu t w op regs f = s.wrote t (l.word w).d (f l (l.word w) (s.th t.val)).1 (f l (l.word w) (s.th t.val)).2 := by
  obtain ⟨h1, h2, h3⟩ := issues_some h
  simp [State.alu, h1, h2, h3, hp, State.wrote]

theorem alu_idle {s : State} {t : ThreadId} {w : IWord} {op : Nat} {regs : IWord → List (BitVec 5)} {l : Launch} {f : Launch → IWord → Thread → W32 × Ev}
    (h : s.issues t w op (fun e => e.d :: regs e) = some l) (hp : (s.th t.val).pred (l.word w).pred.toNat = false) :
    s.alu t w op regs f = s.updTh t.val fun x => (if (l.word w).mz then x.set (l.word w).d 0 else x).next := by
  obtain ⟨h1, h2, h3⟩ := issues_some h
  simp [State.alu, h1, h2, h3, hp]

theorem issue_run {s : State} {t : ThreadId} {w : IWord} {op : Nat} {regs : IWord → List (BitVec 5)} {l : Launch} {f : Launch → IWord → State}
    (h : s.issues t w op regs = some l) : s.issue t w op regs f = f l (l.word w) := by
  obtain ⟨h1, h2, h3⟩ := issues_some h
  simp [State.issue, h1, h2, h3]

theorem pred_run {s : State} {t : ThreadId} {w : IWord} {op : Nat} {regs : IWord → List (BitVec 5)} {l : Launch} {f : IWord → Thread → Bool}
    (h : s.issues t w op regs = some l) (hp : (s.th t.val).pred (l.word w).pred.toNat = true) :
    s.predOp t w op regs f = s.wroteK t ((l.word w).d.toNat % 8) (f (l.word w) (s.th t.val)) := by
  obtain ⟨h1, h2, h3⟩ := issues_some h
  simp [State.predOp, h1, h2, h3, hp, State.wroteK]

theorem pred_idle {s : State} {t : ThreadId} {w : IWord} {op : Nat} {regs : IWord → List (BitVec 5)} {l : Launch} {f : IWord → Thread → Bool}
    (h : s.issues t w op regs = some l) (hp : (s.th t.val).pred (l.word w).pred.toNat = false) :
    s.predOp t w op regs f = s.updTh t.val fun x => (if (l.word w).mz then x.setPred ((l.word w).d.toNat % 8) false else x).next := by
  obtain ⟨h1, h2, h3⟩ := issues_some h
  simp [State.predOp, h1, h2, h3, hp]

theorem streams_some {s : State} {t : ThreadId} {w : IWord} {op : Nat} {l : Launch} {d : SDesc} (h : s.streams t w op = some (l, d)) :
    s.issues t w op (fun e => [e.d, e.a]) = some l ∧ (s.th t.val).pred (l.word w).pred.toNat = true ∧
    s.unitFree t (op = 0x41 && (l.word w).group) = true ∧ descPlace l ((s.th t.val).get (l.word w).a).toNat = none ∧
    (s.mc (mcOf t)).bad 1 (((s.th t.val).get (l.word w).a).toNat / 8) 8 = false ∧
    d = SDesc.parse ((s.mc (mcOf t)).ocRead ((s.th t.val).get (l.word w).a).toNat 64) := by
  unfold State.streams at h
  split at h
  · cases h
  · rename_i hi
    dsimp only at h
    split at h
    · rename_i hc
      cases h
      simp only [Bool.and_eq_true, Option.isNone_iff_eq_none, Bool.not_eq_true'] at hc
      exact ⟨hi, hc.1.1.1, hc.1.1.2, hc.1.2, hc.2, rfl⟩
    · cases h

theorem stream_run {s : State} {t : ThreadId} {w : IWord} {op : Nat} {l : Launch} {d : SDesc} {f : Launch → IWord → SDesc → State}
    (h : s.streams t w op = some (l, d)) : s.streamIssue t w op f = f l (l.word w) d := by
  obtain ⟨hi, hp, hu, hd, hb, rfl⟩ := streams_some h
  obtain ⟨h1, h2, h3⟩ := issues_some hi
  simp [State.streamIssue, State.issue, h1, h2, h3, hp, hu, hd, hb]

end Sys2Proof.Machine
end

