-- ==== Sys2Proof/Tests/Slice0.lean ====
section
/-! SUPPORT. Tests: the checks of WellFormed refuse an ill-formed term each; for every statement with hypotheses a small state and operands that meet them (test_meets_…); and a few results worked out by hand from the rules. -/

set_option Elab.async false

namespace Sys2Proof.Tests

open Sys2Proof.Machine

/-! ## Helpers -/

/-- What a run leaves, read by `f`. -/
def left {α : Type} (r : Res State) (f : State → α) : Option α := match r with | .next s => some (f s) | _ => none

def isOk {α β : Type} (r : Except α β) : Bool := match r with | .ok _ => true | .error _ => false
/-- An access that succeeds, and what holds of its answer. -/
def okAnd {α : Type} (r : Acc α) (f : State → α → Bool) : Bool := match r with | (s, .ok a) => f s a | _ => false
/-- A header of partition 1, queue 0. -/
def hdr : Hdr := { ptn := 1, seq := 1 }
/-- The steward's header, for partition 1. -/
def shdr : Hdr := { ptn := 31, steward := true, seq := 1, target := 1 }

/-- Partition 1, ACTIVE with core group 0, its windows 0 to 3 private and 8 shared, nothing running. -/
def ptn1 : Ptn :=
  { st := 1, cgs := 1, qEnable := 3
    mem := { dataSlots := 7, keyLoaded := true, keyLabel := 5
             wins := [(0, { valid := true, dev := 0 }), (1, { valid := true, dev := 1 }), (2, { valid := true, dev := 2 }), (3, { valid := true, dev := 3 })] } }

/-- The module running, with partition 1 as `x`, both Uapra ports UP. -/
def base (x : Ptn) : State :=
  { phase := .ready, ptns := [(1, x)], ups := [(0, { st := 2, credits := 1000 }), (1, { st := 2, credits := 1000 })] }

def idleS : State := base ptn1
/-- With a SHARE of queue 0's own: its record stays listed whatever a command charges. -/
def shared (s : State) : State := s.updPtn 1 fun x => { x with jobs := [(0, { share := 1 })] }

/-! ## WellFormed: one ill-formed term for each check -/

def ep : Endpoint := { node := 5, kind := 1, ptn := 2 }
def badEp : Endpoint := { node := 5, kind := 3 }

theorem test_wf_counts : [Instr.regRead hdr [], .regWrite hdr [], .regRead hdr (List.replicate 65 0), .acctRead hdr 0 0, .acctRead hdr 0 2049,
    .mbRelease hdr [], .budgetSet hdr [], .budgetRead hdr 0 1025, .faultLogRead shdr 0 0, .flashRead 0 0, .reduce hdr 0 0 0 0 0,
    .genSubmit hdr 0xFFFF 0 [], .tableOp hdr [], .data 0 {} (List.replicate 16385 0), .flashWrite 0 [0]].all (fun c => !c.wf) = true := by decide +kernel

theorem test_wf_lengths : [Instr.attestQuote hdr [0] 0, .ckEnd 0 {} 0 0 [0], .ckAck 0 {} 0 0 [0], .negEnd 0 {} 0 [0], .dataIn hdr ep 0 65, .dataOut hdr ep 0 65,
    .sharedLoad shdr ep 65 [], .memGrant shdr 0 2 true false [1], .keyExchange hdr 1 0 0 (List.replicate 65 0),
    .split 1 0 { partMc := [0] }].all (fun c => !c.wf) = true := by decide +kernel

theorem test_wf_ranges : [Instr.keyExchange hdr 5 0 0 [], .keyExchange hdr 1 16 0 [], .looseGrant shdr 256, .looseRelease shdr 256, .memGrant shdr 2048 1 false false [],
    .memGrant shdr 0 1 false true [], .memRelease shdr 0 0, .sharedMap shdr 2048, .modelLoad hdr 0 64 8 0, .routeSet shdr 0 8190 2 0, .routeSet shdr 0 0 1 2,
    .partnerSet hdr 3 false ep 0 0, .partnerSet hdr 1 true ep 0 0, .safelightUnlock shdr 3 {}, .flashErase 256, .flashWrite 1 (List.replicate 256 0)].all (fun c => !c.wf) = true := by decide +kernel

theorem test_wf_fields : [Instr.dataIn hdr badEp 0 64, .ckptSave hdr badEp true false 0, .ckptSave hdr ep false false 0, .ckptRestore hdr badEp 0, .negativeShip hdr 0 0 badEp,
    .progRun hdr { srStream := 0x01000000 }, .fwdMb hdr { srStream := 0x02000000 }, .bwdMb hdr { contact := { taps := 9 } }, .distillStep hdr { contact := { family := 3 } } {},
    .eval hdr { contact := { rankLoss := 3 } } {}, .groupSet hdr { members := [] }, .groupSet hdr { members := [(0x1FFF, 0)] }, .tableOp hdr [{ op := 5 }],
    .genSubmit hdr 0xFFFF 0 [{ rsvBits := 1 }], .run 1 0 0 0 { rsv := 1 } {} {}, .run 1 0 0 0 {} { rsvBits := 1 } {}, .add 0 { type := 10 },
    .safelightUnlock shdr 1 {}].all (fun c => !c.wf) = true := by decide +kernel

theorem test_wf_admits : [Instr.regRead hdr [0], .dataIn hdr ep 0 64, .memGrant shdr 0 1 false false [], .memGrant shdr 0 1 true true [7], .partnerSet hdr 0 true ep 0 0,
    .add 0 { type := 3 }, .groupSet hdr { members := [(1, 0), (2, 0)] }, .flashErase 65536, .echo hdr []].all Instr.wf = true := by decide +kernel

/-! ## Scalar cores -/

/-- A program of partition 1, queue 0, whose command runs on core group 0. -/
def runCmd : CmdRec := { hdr := hdr, opcode := 0x703, started := true, items := [{}] }
def runPtn : Ptn := { ptn1 with jobs := [(0, { st := .running, cgs := 1, footprint := 1 })], flow := { cmds := [runCmd], nextNum := 1 } }
def launch0 : Launch :=
  { ptn := 1, seq := 1, code := List.replicate 8 {}, lr := { ocBase := 0, ocKib := 16 }, mcs := [0], slots := List.replicate 16 {}, threads := [0, 1], ended := [1] }

/-- Thread 0 of matrix core 0 as `x`, working for that launch, with the core as `m`. -/
def withTh (m : MCore) (x : Thread) : State := { base runPtn with mcs := [(0, m)], ths := [(0, { x with running := true })], launches := [launch0], nextLaunch := 1 }

/-- G2 and G3 hold a and b; K1 is false. -/
def th2 (a b : W32) : Thread := { g := [(2, a), (3, b)], b := [0xFFFFFFFF], pc := 2 }
/-- D = G1, A = G2, B = G3. -/
def wd (ty : BitVec 4) : IWord := { type := ty, d := 1, a := 2, b := 3 }

/-- G1 after a word on G2 = a, G3 = b. -/
def g1 (c : ThreadId → IWord → Instr) (ty : BitVec 4) (a b : W32) : Option W32 := left (exec (c 0 (wd ty)) (withTh {} (th2 a b))) fun s => (s.th 0).get 1
/-- K1 after a comparison. -/
def k1 (c : ThreadId → IWord → Instr) (ty : BitVec 4) (a b : W32) : Option Bool := left (exec (c 0 (wd ty)) (withTh {} (th2 a b))) fun s => (s.th 0).pred 1

theorem test_meets_IntegerResults : ([0x02, 0x03, 0x04, 0x05, 0x06, 0x07, 0x08, 0x09, 0x0A, 0x0B, 0x0C].all fun op =>
    ((withTh {} (th2 1 2)).issues 0 (wd 2) op regsDAB).isSome && ((withTh {} (th2 1 2)).issues 0 (wd 3) op regsDAB).isSome) &&
    ((withTh {} (th2 1 2)).issues 0 (wd 4) 0x0D regsDAB).isSome &&
    ((withTh {} (th2 1 2)).issues 0 (wd 9) 0x01 (fun e => e.d :: if e.i then [] else [e.a])).isSome && ((withTh {} (th2 1 2)).th 0).pred 0 = true := by decide +kernel
theorem test_meets_FloatResults : ([0x10, 0x11, 0x12, 0x13, 0x14, 0x16, 0x17].all fun op =>
    ((withTh {} (th2 1 2)).issues 0 (wd 7) op regsDAB).isSome && ((withTh {} (th2 1 2)).issues 0 (wd 8) op regsDAB).isSome) &&
    ([0x15, 0x18, 0x19, 0x1A, 0x1B].all fun op => ((withTh {} (th2 1 2)).issues 0 (wd 8) op regsDA).isSome) = true := by decide +kernel
theorem test_meets_ComparesAndPredicates : ([0x20, 0x21, 0x22, 0x23, 0x24, 0x29, 0x2A].all fun op => [2, 3, 7, 8].all fun ty =>
      ((withTh {} (th2 1 2)).issues 0 (wd ty) op regsAB).isSome && (Ty.ofCode (wd ty).ty).isSome) &&
    ([0x26, 0x27, 0x28].all fun op => ((withTh {} (th2 1 2)).issues 0 (wd 0) op (fun _ => [])).isSome) &&
    ((withTh {} (th2 1 2)).issues 0 (wd 8) 0x25 regsDAB).isSome = true := by decide +kernel
/-- An inactive lane: the predicate is K2, which is false. -/
theorem test_meets_InactiveLanes : (let s := withTh {} (th2 1 2)
    let w := fun ty => ({ wd ty with pred := 2 } : IWord)
    (s.th 0).pred 2 = false && (s.issues 0 (w 2) 0x02 regsDAB).isSome && (s.issues 0 (w 8) 0x10 regsDAB).isSome && (s.issues 0 (w 8) 0x15 regsDA).isSome &&
    (s.issues 0 (w 8) 0x20 regsAB).isSome && (s.issues 0 (w 0) 0x26 (fun _ => [])).isSome && (s.issues 0 (w 0) 0x50 (fun _ => [])).isSome) = true := by decide +kernel
theorem test_meets_RegisterInstructionFrame : (left (exec (.add 0 (wd 2)) (withTh {} (th2 1 2))) fun _ => ()).isSome = true ∧
    (let s := withTh { localUe := [(2, 0)] } (th2 1 2)
     (s.launch? (s.th 0).launch).isSome && (wordCheck 0x02 (launch0.word (wd 2)) 8).isNone && s.turn 0 (regsDAB (wd 2)) && s.regsBad 0 (regsDAB (wd 2))) = true := by decide +kernel
/-- binary32 to Q8 in GIVEN mode, and to int32. -/
theorem test_meets_CvtResult : ([0x29006, 0x29002].all fun imm =>
    let w : IWord := { wd 8 with imm := imm }
    ((withTh {} (th2 0x3F800000 0)).issues 0 w 0x30 (fun e => [e.d, e.a, e.b])).isSome && (Ty.ofCode w.cvtTarget).isSome) = true := by decide +kernel

theorem test_add_wraps : g1 .add 2 0xFFFFFFFF 2 = some 1 := by decide +kernel
theorem test_sub_order : g1 .sub 3 5 7 = some 0xFFFFFFFE := by decide +kernel
theorem test_mul_low_word : g1 .mul 2 0x10001 0x10000 = some 0x10000 := by decide +kernel
theorem test_shl_distance_mod_32 : g1 .shl 3 1 33 = some 2 := by decide +kernel
theorem test_sra_sign : g1 .sra 2 0x80000000 4 = some 0xF8000000 := by decide +kernel
theorem test_imin_signed : g1 .imin 2 0xFFFFFFFF 1 = some 0xFFFFFFFF := by decide +kernel
theorem test_imin_unsigned : g1 .imin 3 0xFFFFFFFF 1 = some 1 := by decide +kernel
theorem test_scl_fields : g1 .scl 6 0x1234ABCD 0x7F = some 0x12347FCD := by decide +kernel
/-- 1 + 1 = 2 in binary32, and binary16 65504 + 65504 overflows to infinity. -/
theorem test_fadd : g1 .fadd 8 0x3F800000 0x3F800000 = some 0x40000000 ∧ g1 .fadd 7 0x7BFF 0x7BFF = some 0x7C00 := by decide +kernel
/-- 1 / 3 to nearest even. -/
theorem test_fdiv : g1 .fdiv 8 0x3F800000 0x40400000 = some 0x3EAAAAAB := by decide +kernel
theorem test_fsqrt : g1 .fsqrt 8 0x40800000 0 = some 0x40000000 := by decide +kernel
/-- R41: NaN is ignored. -/
theorem test_fmax_nan : g1 .fmax 8 0x7FC00000 0xBF800000 = some 0xBF800000 := by decide +kernel
theorem test_exp2 : g1 .exp2 8 0x40400000 0 = some 0x41000000 := by decide +kernel
theorem test_log2 : g1 .log2 8 0x41000000 0 = some 0x40400000 := by decide +kernel
theorem test_clt_signed : k1 .clt 2 0xFFFFFFFF 0 = some true ∧ k1 .clt 3 0xFFFFFFFF 0 = some false := by decide +kernel
theorem test_cun : k1 .cun 8 0x7FC00000 0 = some true := by decide +kernel
/-- −2.5 in binary32 to int32, ties to even: −2; a D of G0 is discarded. -/
theorem test_cvt_int : left (exec (.cvt 0 { wd 8 with imm := 0x29002 }) (withTh {} (th2 0xC0200000 0))) (fun s => (s.th 0).get 1) = some 0xFFFFFFFE := by decide +kernel
theorem test_g0_discards : left (exec (.add 0 { wd 2 with d := 0 }) (withTh {} (th2 1 2))) (fun s => ((s.th 0).get 0, (s.th 0).pc)) = some (0, 3) := by decide +kernel

/-- The addresses of a load or store: entry 5 of the accumulator file, operand-cache byte 128, partition address 4 GiB − 1 + 1. -/
def ldw (space : BitVec 5) (imm : W32) : IWord := { type := 8, d := 1, a := 0, b := space <<< 3, imm := imm }
theorem test_meets_LoadResults : (let s := withTh {} (th2 1 2)
    [(0x38 : Nat), 0x39].all fun op => [ldw 2 5, ldw 0 128].all fun w => (s.issues 0 w op (fun e => [e.d, e.a])).any fun l =>
      (s.placeCheck l .b32 ((l.word w).place (s.th 0)) (op = 0x39)).isNone) = true := by decide +kernel
theorem test_meets_LoadReturn : left (exec (.loadReturn 0 0) (withTh {} { th2 1 2 with loads := [⟨3, 9⟩] })) (fun s => ((s.th 0).get 3, (s.th 0).loads)) = some (9, []) := by decide +kernel
theorem test_ld_entry : left (exec (.ld 0 (ldw 2 5)) (withTh { acc := [(5, { sum := 7, comp := 1 })] } (th2 1 2))) (fun s => (s.th 0).loads) = some [⟨1, 7⟩] := by decide +kernel
theorem test_st_cache : left (exec (.st 0 { ldw 0 128 with d := 2 }) (withTh {} (th2 0x01020304 2))) (fun s => (s.mc 0).ocRead 128 4) = some [4, 3, 2, 1] := by decide +kernel
theorem test_meets_Prom : (let s := withTh {} (th2 1 2)
    (s.issues 0 { ldw 2 5 with d := 2 } 0x3A (fun e => [e.d, e.a])).isSome && !(s.mc 0).tileHeld 5) = true := by decide +kernel
/-- 1 promoted into an entry that holds 2. -/
theorem test_prom : left (exec (.prom 0 { ldw 2 5 with d := 2 }) (withTh { acc := [(5, { sum := 0x40000000 })] } (th2 0x3F800000 0))) (fun s => (s.mc 0).entry 5) =
    some { sum := 0x40400000 } := by decide +kernel

theorem test_meets_ThreadControl : (let s := withTh {} (th2 1 2)
    ([0x00, 0x52, 0x56, 0x53, 0x54, 0x45, 0x50].all fun op => (s.issues 0 { wd 0 with imm := 3 } op (fun _ => [])).isSome) &&
    (s.issues 0 { wd 0 with imm := 3 } 0x55 (fun e => [e.a])).isSome) = true := by decide +kernel
theorem test_meets_TewaitWaits : left (exec (.tewait 0 (wd 0)) (withTh {} { th2 1 2 with teOut := 2 })) (fun s => (s.th 0).wait) = some (.te 0) := by decide +kernel
theorem test_br : left (exec (.br 0 { wd 0 with imm := 6 }) (withTh {} (th2 1 2))) (fun s => (s.th 0).pc) = some 6 := by decide +kernel
theorem test_meets_BarRelease : left (exec (.barRelease 0 0) (withTh {} { th2 1 2 with wait := .bar })) (fun s => (s.th 0).wait) = some .none := by decide +kernel
theorem test_end : left (exec (.endThread 0 (wd 0)) (withTh {} (th2 1 2))) (fun s => ((s.th 0).running, s.launches.map (·.ended))) = some (false, [[1, 0]]) := by decide +kernel

/-- The launch's partition with semaphore 3 as `m`. -/
def withSem (m : Sem) : State := { withTh {} (th2 1 2) with ptns := [(1, { runPtn with sems := [(3, m)] })] }
def sw : IWord := { wd 0 with imm := 3 }
theorem test_swait_takes : left (exec (.swait 0 sw) (withSem { count := 2 })) (fun s => ((s.sem 1 3).count, (s.sem 1 3).bal 0, (s.th 0).pc)) = some (1, 1, 3) := by decide +kernel
theorem test_swait_waits : left (exec (.swait 0 sw) (withSem {})) (fun s => ((s.sem 1 3).waiters, (s.th 0).wait)) = some ([(0, 0)], .sem 3) := by decide +kernel
theorem test_spost_overflow : left (exec (.spost 0 sw) (withSem { count := 0xFFFFFFFF })) (fun s => ((s.sem 1 3).count, (s.sem 1 3).ovf)) = some (0xFFFFFFFF, true) := by decide +kernel
theorem test_meets_SemaphoreAcquire : left (exec (.semaphoreAcquire 1 3) { withSem { count := 1, waiters := [(0, 0)] } with
    ths := [(0, { th2 1 2 with running := true, wait := .sem 3 })] }) (fun s => ((s.sem 1 3).count, (s.sem 1 3).waiters, (s.th 0).wait)) = some (0, [], .none) := by decide +kernel
/-- A thread that a stop bath has saved while it waits is served where it is saved. -/
theorem test_meets_SemaphoreSaved : left (exec (.semaphoreAcquire 1 3) { withSem { count := 1, waiters := [(0, 0)] } with
    ths := [], ptns := [(1, ({ runPtn with sems := [(3, { count := 1, waiters := [(0, 0)] })] } : Ptn).updJob 0 fun j => { j with st := .stopped, saved := [{ mc := 0, ths := [(0, { th2 1 2 with running := true, wait := .sem 3 })] }] })] })
    (fun s => ((s.sem 1 3).count, (s.job 1 0).saved.map fun c => (c.ths.get {} 0).wait)) = some (0, [.none]) := by decide +kernel

/-! ## Stream unit -/

/-- A descriptor at operand-cache byte 512: `n` elements of `st` at byte 1024 to `dt` at byte 2048, scales at 1792. -/
def descOc (st dt n : Nat) : MCore :=
  { oc := Tab.putList 0 [] 512 (leBytes 64 (1024 + st <<< 50 + 2048 <<< 128 + dt <<< 178 + 1792 <<< 192 + n <<< 256 + 16 <<< 288)) }
def sTh : State := withTh (descOc 8 6 16) (th2 512 0)
theorem test_meets_Scvt : ((sTh.streams 0 { wd 0 with imm := 0x28006 + 0x1000 } 0x40).any fun e => let m := IWord.mode e.1 { wd 0 with imm := 0x29006 }
    (sTh.scvtCheck e.1 e.2 m).isNone && !(sTh.mc 0).anyHeld (e.2.srcRanges ++ e.2.dstRanges) && decide (e.2.dstSpace ≠ 2) &&
    okAnd (sTh.streamSource e.1 0 e.2) fun u es => okAnd (u.streamReads e.1 0 e.2.dstRanges) fun v old =>
      let o := e.2.convertAll m 0 0 false (old.getD 0 []) (old.getD 1 []) es
      okAnd (v.streamWrites e.1 0 (e.2.dstRanges.zip [o.arr, o.sc])) fun _ _ => true) = true := by decide +kernel
theorem test_meets_Sred : ((sTh.streams 0 (wd 0) 0x41).any fun e => (sTh.sredCheck e.1 e.2 (wd 0)).isNone && !(sTh.mc 0).anyHeld e.2.srcRanges && !(wd 0).cont &&
    okAnd (sTh.streamSource e.1 0 e.2) fun _ _ => true) = true := by decide +kernel
theorem test_meets_Smove : ((sTh.streams 0 (wd 0) 0x42).any fun e => let src : SRange := ⟨0, e.2.srcAddr, e.2.length, false, 1⟩; let dst : SRange := ⟨0, e.2.dstAddr, e.2.length, true, 1⟩
    !e.2.codesBad false && e.2.srcSpace = 0 && e.2.dstSpace = 0 && (sTh.rangeCheck e.1 [src, dst]).isNone &&
    okAnd (sTh.streamRead e.1 0 src) fun u bs => okAnd (u.streamWrite e.1 0 dst bs) fun _ _ => true) = true := by decide +kernel
/-- ATX clears a tile; it stores one to the Erg and loads one from there, in the binary32 form. -/
def atxOc : MCore := { oc := Tab.putList 0 [] 512 (leBytes 64 (0x10000 + 1 <<< 48 + 0x20000 <<< 128 + 1 <<< 176 + 1 <<< 256 + 1 <<< 288)) }
theorem test_meets_Atx : ((sTh.streams 0 { wd 0 with imm := 4 } 0x43).any fun e => !e.2.maskBad e.1 && !e.2.shapeBad && !bitAt (sTh.mc 0).tiles.toNat 0) &&
    (let s := withTh (atxOc) (th2 512 0)
     (s.streams 0 { wd 0 with imm := 9 } 0x43).any fun e => !e.2.maskBad e.1 && !e.2.shapeBad && e.2.srcSpace = 1 && e.2.dstSpace = 1 &&
       (s.rangeCheck e.1 [⟨1, e.2.dstAddr, formBytes 1, true, 4⟩]).isNone && (s.rangeCheck e.1 [⟨1, e.2.srcAddr, formBytes 1, false, 4⟩]).isNone && !(s.mc 0).bad 0 0 4096 && okAnd (s.streamRead e.1 0 ⟨1, e.2.srcAddr, formBytes 1, false, 4⟩) fun _ _ => true) = true := by decide +kernel
theorem test_meets_StreamDone : left (exec (.streamDone 0) (withTh {} { th2 1 2 with wait := .stream (some 4) 77 false })) (fun s => ((s.th 0).get 4, (s.th 0).wait)) =
    some (77, .none) := by decide +kernel
/-- Fifteen zeros and one 1 sum to 1. -/
theorem test_sred_sum : left (exec (.sred 0 (wd 0)) { sTh with mcs := [(0, (descOc 8 6 16).ocWrite 1032 [0, 0, 0x80, 0x3F])] }) (fun s => (s.th 0).wait) =
    some (.stream (some 1) 0x3F800000 false) := by decide +kernel
theorem test_smove : left (exec (.smove 0 (wd 0)) { sTh with mcs := [(0, (descOc 0 0 4).ocWrite 1024 [1, 2, 3, 4])] }) (fun s => (s.mc 0).ocRead 2048 4) = some [1, 2, 3, 4] := by decide +kernel

/-! ## Table engines -/

/-- A POOL request (sum) of one binary32 row at a time, and engine 0 holding it. -/
def poolReq : TeReq := { op := 1, rowElems := 4, tableAddr := 0x10000, indexAddr := 0x20000, dataAddr := 0x30000, auxAddr := 0x40000, tableRows := 2 }
def teS (w : TeWork) : State := { withTh {} { th2 1 2 with teOut := 1 } with tes := [(0, { reqs := [w] })] }
theorem test_meets_TeOperations : ([0, 1, 2, 3, 4].all fun op => ((teS { req := { poolReq with op := op }, ptn := 1, seq := 1, thread := some (0, 0) }).teTurn 0 0 op.toNat).isSome) = true := by decide +kernel
/-- A request descriptor at byte 512: POOL, binary32, one bag. -/
def tereqOc : MCore := { oc := Tab.putList 0 [] 512 (leBytes 64 (1 + 8 <<< 4 + 4 <<< 32 + 0x10000 <<< 64 + 0x20000 <<< 128 + 0x30000 <<< 192 + 0x40000 <<< 256 + 2 <<< 384 + 1 <<< 416)) }
theorem test_meets_Tereq : (let s := withTh tereqOc (th2 512 0)
    (s.issues 0 (wd 0) 0x44 (fun e => [e.a])).any fun l => (s.teFor 0 0).isSome && l.ocOk 512 64 false && (TeReq.parse ((s.mc 0).ocRead 512 64)).check.isNone) = true := by decide +kernel
theorem test_tereq : left (exec (.tereq 0 (wd 0)) (withTh tereqOc (th2 512 0))) (fun s => ((s.te 0).reqs.map fun w => w.req.op, (s.th 0).teOut)) = some ([1], 1) := by decide +kernel
theorem test_meets_TeRequestComplete : left (exec (.teRequestComplete 0 0) (teS { req := poolReq, ptn := 1, seq := 1, thread := some (0, 0), done := true }))
    (fun s => ((s.te 0).reqs, (s.th 0).teOut)) = some ([], 0) ∧
    -- a request of an earlier launch leaves the count of the thread alone
    left (exec (.teRequestComplete 0 0) (teS { req := poolReq, ptn := 1, seq := 1, thread := some (0, 7), done := true })) (fun s => (s.th 0).teOut) = some 1 := by decide +kernel

/-! ## Sequencer programs -/

/-- A run of 1 row, 1 column and depth 32 on a Q6 stream and a Q6 weight operand, into tile 0. -/
def runD : RunDesc := { kDepth := 31, tileEnd := true, wTensor := 1 }
def sOp : TensorDesc := { type := 5, shape := 1, rows := 1, cols := 32, addr := 0x1000, scaleAddr := 0x1800 }
def wOp : TensorDesc := { type := 5, shape := 3, rows := 32, cols := 1, addr := 0x2000, scaleAddr := 0x2800 }
def splitD : SplitDesc := { parts := 1, partMc := [0, 1, 0, 0, 0, 0, 0, 0] }

/-- An image with one step `st`, one kernel that ends at once, one launch of it on core 0, and one plan. -/
def image1 (st : SeqStep) : Image :=
  { steps := [st, { sop := 11 }], kernels := [[{ op := 0x56 }]], launches := [{ kernel := 0, ocKib := 4, cores := [{ core := 0, mask := 1 }] }]
    plans := [[.run 0 runD, .postSem 0 3, .waitSem 0 3, .split splitD]], entries := [{}], tensors := [sOp, wOp] }

/-- The program stands at step 0, with `r` of its run. -/
def seqS (st : SeqStep) (r : ProgRun := {}) : State :=
  let run : ProgRun := { r with prog := 0x8000, coreMap := [(0, 0), (1, 1)] }
  base { runPtn with progs := [{ handle := 0x8000, image := image1 st }], flow := { cmds := [{ runCmd with prog := some run }], nextNum := 1 } }

/-- Step of the program after a row. -/
def stepOf (r : Res State) : Option Nat := (left r fun s => ((s.running? 1 0).bind (·.prog)).map (·.step)).join

theorem test_meets_SequencerSteps : (((seqS { sop := 4 }).atStep 1 0 (·.sop = 4)).isSome && ((seqS { sop := 5, a := 1 }).atStep 1 0 (fun z => z.sop = 5 && z.a = 1)).isSome &&
    ((seqS { sop := 6 }).atStep 1 0 (·.sop = 6)).isSome && ((seqS { sop := 7 }).atStep 1 0 (·.sop = 7)).isSome && ((seqS { sop := 8 }).atStep 1 0 (·.sop = 8)).isSome &&
    ((seqS { sop := 9 }).atStep 1 0 (·.sop = 9)).isSome && ((seqS { sop := 10 }).atStep 1 0 (·.sop = 10)).isSome) = true := by decide +kernel
theorem test_brt : stepOf (exec (.brt 1 0 7) (seqS { sop := 5, a := 7 } { flag := true })) = some 7 ∧ stepOf (exec (.brt 1 0 7) (seqS { sop := 5, a := 7 })) = some 1 := by decide +kernel
/-- A counter of 2 falls to 1 and the loop goes on; from 1 it falls to 0 and the program goes on. -/
theorem test_decb : stepOf (exec (.decb 1 0 3 0) (seqS { sop := 9, a := 3 } { counters := [(3, 2)] })) = some 0 ∧
    stepOf (exec (.decb 1 0 3 0) (seqS { sop := 9, a := 3 } { counters := [(3, 1)] })) = some 1 := by decide +kernel
theorem test_cmp_imm : (left (exec (.cmp 1 0 { imm := 0 }) (seqS { sop := 4 })) fun s => ((s.running? 1 0).bind (·.prog)).map (·.flag)) = some (some true) := by decide +kernel

theorem test_meets_Plan : ((seqS { sop := 1 }).atStep 1 0 (fun z => z.sop = 1 && z.a = 0 && bitAt z.fl.toNat 0 == false)).isSome = true := by decide +kernel
theorem test_meets_Launch : (((seqS { sop := 2 }).atStep 1 0 (fun z => z.sop = 2 && z.a = 0 && bitAt z.fl.toNat 0 == false)).any fun (c, r, im) =>
    let s := seqS { sop := 2 }
    let l := s.makeLaunch c r im 0
    !l.mcs.any (s.mcRetired ·) && (l.mcs.all fun m => decide (m ∈ mcsOf (s.job 1 0).cgs)) && (dispatchCheck c.numMode.smode l.params l.code).isNone && !s.ocConflict l) = true := by decide +kernel
theorem test_meets_Wait : ((seqS { sop := 3, fl := 2 }).atStep 1 0 (fun z => z.sop = 3 && z.a = 0 && bitAt z.fl.toNat 1 == true)).isSome = true := by decide +kernel
theorem test_launch_starts : left (exec (.launch 1 0 0 false) (seqS { sop := 2 })) (fun s => (s.launches.length, (s.th 0).running)) = some (1, true) := by decide +kernel
def launchedS : State := { seqS { sop := 2 } { step := 1, started := [(0, 0)] } with launches := [{ launch0 with threads := [0], ended := [0] }], nextLaunch := 1 }
theorem test_meets_LaunchComplete : ((launchedS.launch? 0).any fun l => l.failed.isNone && (l.threads.all fun t => decide (t ∈ l.ended)) &&
    (launchedS.cmdOf l.hdr).any fun c => c.prog.isSome && ((launchedS.ptn l.ptn).imageOf c).isSome) = true := by decide +kernel
theorem test_launch_complete : left (exec (.launchComplete 0) launchedS) (fun s => s.launches.length) = some 0 := by decide +kernel
def endS : State := seqS { sop := 11 }
theorem test_meets_ProgramEnd : ((endS.running? 1 0).any fun c => c.prog.any fun r => ((endS.ptn 1).imageOf c).any fun im =>
    !r.ended && r.endCode.isNone && (im.steps.getD r.step {}).sop = 11 && (endS.resolve r im).isSome && r.started.isEmpty && r.plans.isEmpty) = true := by decide +kernel
/-- A program that ends with an item open: the item fails, and the command is reported on Uapra port 0 with STATUS 1 (items failed). -/
theorem test_program_end : left (exec (.programEnd 1 0) endS) (fun s => ((s.ptn 1).flow.cmds.length, ((s.up 0).unacked.map fun m => (m.status, m.itemCount)))) =
    some (0, [(1, 1)]) := by decide +kernel

/-- A plan with every record still to do. -/
def planS : State := seqS { sop := 11 } { plans := [{ plan := 0, left := [0, 1, 2, 3] }] }
/-- RUN: on a program's operands, and of the firmware's, with no program. -/
def basicS : State := base runPtn
def okRun (s : State) (basic : Bool) : Bool := (s.running? 1 0).any fun c =>
  let im := (s.ptn 1).imageOf c
  let ops := runOperands im runD sOp wOp
  let s := if basic then s.updMc 0 (·.closeTile runD) else s
  c.prog.isNone == basic && decide (0 ∈ mcsOf (s.job 1 0).cgs) && s.arrayGo 1 0 0 && !s.teTouches 0 (runTiles runD) && (s.mc 0).inOrder runD sOp wOp && !s.mcRetired 0 && (s.takeRecord c.hdr 0 (fun k => .run k runD)).any fun u =>
    (u.issueCheck 1 0 basic runD ops.1 ops.2 []).isNone && !(u.mc 0).entriesBad runD &&
    (match u.fetchS c.hdr 0 basic runD ops.1 [] (c.passesFor im ops.1 runD) with
      | (v, .ok _) => (match v.fetchW c.hdr 0 basic runD ops.2 [] (c.passesFor im ops.2 runD) with | (_, .ok _) => true | _ => false)
      | _ => false)
theorem test_meets_Run : okRun planS false && okRun basicS true = true := by decide +kernel
/-- Operands of zeros add nothing to an entry that holds 1, and the run holds tile 0. -/
theorem test_run_zero : left (exec (.run 1 0 0 0 runD sOp wOp) { planS with mcs := [(0, { acc := [(0, { sum := 0x3F800000 })] })] }) (fun s => ((s.mc 0).entry 0, (s.mc 0).tiles)) =
    some ({ sum := 0x3F800000 }, 1) := by decide +kernel
theorem test_meets_RunRelease : left (exec (.runRelease 0) { planS with mcs := [(0, { tiles := 1 })] }) (fun s => (s.mc 0).tiles) = some 0 := by decide +kernel
def splitS : State := seqS { sop := 11 } { plans := [{ plan := 0, left := [3] }] }
theorem test_meets_Split : ((splitS.running? 1 0).any fun c => c.prog.any fun r => (splitS.ptn 1).imageOf c = some (image1 { sop := 11 }) && decide (0 < r.plans.length) &&
    ((r.plans.getD 0 {}).left.find? fun i => decide (((image1 { sop := 11 }).plans.getD 0 [])[i]? = some (PlanRec.split splitD)) && !r.behind (image1 { sop := 11 }) ((splitD.partMc.take (SplitParts.count splitD)).map (·.toNat)) 0 i) = some 3 &&
    !splitS.mcRetired 0 && !splitS.mcRetired 1) = true := by decide +kernel
theorem test_split : left (exec (.split 1 0 splitD) splitS) (fun s => ((s.running? 1 0).bind (·.prog)).map fun r => (r.splits.map (·.mcs), r.plans.map (·.left))) =
    some (some ([[0, 1]], [[]])) := by decide +kernel
/-- Part 0 may hand tile 0 to part 1, in chain mode and in tree mode: the split is in progress, the hand-off is due, and neither core's tile is held. -/
def handS (d : SplitDesc) : State := seqS { sop := 11 } { splits := [{ desc := d, mcs := [0, 1] }] }
def treeD : SplitDesc := { splitD with mode := 1 }
theorem test_meets_SplitHandoff : ([splitD, treeD].all fun d => ((handS d).running? 1 0).any fun c => c.prog.any fun r => r.splits = [{ desc := d, mcs := [0, 1] }] &&
    decide (0 + 1 < SplitParts.count d) && r.partRun { desc := d, mcs := [0, 1] } 0 && r.partRun { desc := d, mcs := [0, 1] } 1 && !(handS d).linkDown (dieOfMc 0) (dieOfMc 1) &&
    !((handS d).mc 0).carriedBad d && !((handS d).mc 1).carriedBad d && ((handS d).job 1 0).st = .running && [0, 1].all fun m => decide (m ∈ mcsOf ((handS d).job 1 0).cgs) && ((handS d).mc m).tiles &&& ({ desc := d, mcs := [0, 1] } : SplitRun).tiles = 0) = true := by decide +kernel
def semPlanS (m : Sem) (k : Nat) : State := (seqS { sop := 11 } { plans := [{ plan := 0, left := [k] }] }).updSem 1 3 fun _ => m
theorem test_meets_WaitSem : left (exec (.waitSem 1 0 0 3) (semPlanS { count := 1 } 2)) (fun s => ((s.sem 1 3).count, (s.sem 1 3).bal 0)) = some (0, 1) := by decide +kernel
/-- Without a free semaphore the record stays, and its core waits; a later SEMAPHORE_ACQUIRE serves it. -/
theorem test_wait_sem : left (exec (.waitSem 1 0 0 3) (semPlanS {} 2)) (fun s => ((s.sem 1 3).waiters, ((s.running? 1 0).bind (·.prog)).map fun r => r.plans.map (·.left))) = some ([(0, 65536)], some [[2]]) := by decide +kernel
theorem test_meets_SemaphoreServes : left (exec (.semaphoreAcquire 1 3) (semPlanS { count := 1, waiters := [(0, 65536)] } 2))
    (fun s => ((s.sem 1 3).count, (s.sem 1 3).waiters, ((s.running? 1 0).bind (·.prog)).map fun r => r.plans.map (·.left))) = some (0, [], some [[]]) := by decide +kernel
theorem test_meets_PostSem : left (exec (.postSem 1 0 0 3) (semPlanS {} 1)) (fun s => (s.sem 1 3).count) = some 1 := by decide +kernel

/-! ## Commands at once, registers, partitions and memory -/

/-- STATUS, result block and items of the messages sent on Uapra port 0. -/
def sent (s : State) : List (Status × W16) := (s.up 0).unacked.map fun m => (m.status, m.itemCount)

theorem test_meets_SimpleCommands : ([0x100, 0xF05, 0x120, 0x121].all fun op => (idleS.runsNow hdr op).isSome) = true := by decide +kernel
theorem test_nop : left (exec (.nop hdr) idleS) sent = some [(0, 1)] := by decide +kernel
/-- The result block of ECHO stands 56 bytes after the header: 32 of the contact sheet, 16 of counters and 8 of the one item (R333). -/
theorem test_echo : left (exec (.echo hdr [1, 2, 3]) idleS) (fun s => (s.up 0).unacked.map fun m => m.body.drop 56) = some [[1, 2, 3]] := by decide +kernel
theorem test_acct_clear : left (exec (.acctClear hdr false 7) (base { ptn1 with accts := [{ tag := 7, mcNs := 9 }, { tag := 8, mcNs := 5 }] }))
    (fun s => (s.ptn 1).accts.map fun a => (a.tag, a.mcNs)) = some [(7, 0), (8, 5)] := by decide +kernel

/-- A state in which partition 2 is FREE and core group 1 is held by nobody. -/
theorem test_meets_PtnCreate : ((idleS.runsNow { shdr with target := 2 } 0x101).any fun u => (u.ptn 2).st = 0 && !bitAt u.saf.psRetired.toNat 2 && (u.cgCheck 2 2 1).isNone) = true := by decide +kernel
theorem test_ptn_create : left (exec (.ptnCreate { shdr with target := 2 } 2 1 99) idleS) (fun s => ((s.ptn 2).st, (s.ptn 2).cgs, (s.ptn 2).mem.keyLabel, (s.ptn 2).flow.createMen, s.saf.nextMen)) =
    some (1, 2, 99, 1, 3) := by decide +kernel
theorem test_meets_CgAlloc : ((idleS.runsNow shdr 0x103).any fun u => (u.ptn 1).st = 1 && (u.cgCheck 1 2 2).isNone) = true := by decide +kernel
def twoCgs : Ptn := { ptn1 with cgs := 3 }
theorem test_meets_CgRelease : (((base twoCgs).runsNow shdr 0x104).any fun u => let x := u.ptn 1
    x.areaSlices.all (fun k => !bitAt 2 (k / 8)) && x.st = 1 && (2 : W32) &&& ~~~(x.cgs &&& ~~~x.releasing) = 0 && decide (2 ≠ x.cgs &&& ~~~x.releasing) &&
    decide (x.ergUsed - 1 * 8 * popcount x.qEnable.toNat 8 * (384 * 1024) ≤ x.ergHeld - 1 * 8 * sliceBytes)) = true := by decide +kernel
theorem test_meets_CgReleaseEffect : (let s := base { twoCgs with releasing := 2 }
    bitAt (s.ptn 1).releasing.toNat 1 && (s.ptn 1).cgQuiet 1) = true := by decide +kernel
theorem test_cg_release_effect : left (exec (.cgReleaseEffect 1 1) (base { twoCgs with releasing := 2 })) (fun s => ((s.ptn 1).cgs, (s.ptn 1).releasing)) = some (1, 0) := by decide +kernel
theorem test_meets_PtnDestroy : ((idleS.runsNow shdr 0x102).any fun u => (u.ptn 1).st = 1 && (u.ptn 1).flow.cmds.all (·.isOver)) = true := by decide +kernel
theorem test_ptn_destroy : left (exec (.ptnDestroy shdr) idleS) (fun s => (s.ptn 1).st) = some 0 := by decide +kernel
theorem test_meets_PartitionReset : ((idleS.runsNow shdr 0x105).any fun u => decide ((u.ptn 1).st ≠ 0)) = true := by decide +kernel
theorem test_ptn_reset : left (exec (.ptnReset shdr) (base { runPtn with sems := [(3, { count := 2 })] })) (fun s => ((s.ptn 1).st, (s.ptn 1).sems, (s.job 1 0).st, (s.ptn 1).flow.rstCause)) =
    some (2, [], .idle, 0x10) := by decide +kernel
theorem test_meets_PartitionResetComplete : left (exec (.partitionResetComplete 1) (base { ptn1 with st := 2 })) (fun s => (s.ptn 1).st) = some 1 := by decide +kernel

theorem test_meets_LooseGrant : ((idleS.runsNow shdr 0x201).any fun u => (u.ptn 1).st = 1 && (u.cgOwner 2).isNone && (u.looseOwner 16).isNone) = true := by decide +kernel
theorem test_loose_grant : left (exec (.looseGrant shdr 16) idleS) (fun s => (s.ptn 1).mem.loose) = some 0x10000 := by decide +kernel
theorem test_meets_LooseRelease : (((base { ptn1 with mem := { ptn1.mem with loose := 0x10000 } }).runsNow shdr 0x202).any fun u => (u.ptn 1).st = 1 && bitAt (u.ptn 1).mem.loose.toNat 16 && !decide (16 ∈ (u.ptn 1).areaSlices) &&
    decide ((u.ptn 1).ergUsed ≤ (u.ptn 1).ergHeld - sliceBytes)) = true := by decide +kernel
theorem test_meets_MemGrant : ((idleS.runsNow shdr 0x203).any fun u => (u.ptn 1).st = 1 && !((u.ptn 1).mem.wins.get {} 9).valid && decide ((u.ptn 1).mem.dataSlots ≠ 0) &&
    !decide (40 ∈ u.usedGranules)) = true := by decide +kernel
/-- A named granule, and the lowest free one: 0 to 3 are mapped already. -/
theorem test_mem_grant : left (exec (.memGrant shdr 9 1 true false [40]) idleS) (fun s => (s.ptn 1).mem.wins.get {} 9) = some { valid := true, dev := 40 } ∧
    left (exec (.memGrant shdr 9 1 false false []) idleS) (fun s => (s.ptn 1).mem.wins.get {} 9) = some { valid := true, dev := 4 } := by decide +kernel
theorem test_meets_MemRelease : ((idleS.runsNow shdr 0x204).any fun u => (u.ptn 1).st = 1 && (u.ptn 1).winPrivate 3 && !decide (3 ∈ (u.ptn 1).areaGranules)) = true := by decide +kernel
theorem test_mem_release : left (exec (.memRelease shdr 3 1) idleS) (fun s => ((s.ptn 1).mem.wins.get {} 3).valid) = some false := by decide +kernel

/-- A shared region of one granule, 100, in each of its states; Qorea port 0 reaches node 5. -/
def sharedS (st : BitVec 2) (fill : W64) : State := { idleS with mod := { base := 100, gib := 1, sharedSlots := 8, state := st, fill := fill, node := 1 }, qps := [(0, { st := 2, peer := 5, routes := 0x20 })] }
theorem test_meets_SharedLoad : (((sharedS 0 0).runsNow shdr 0x207).any fun u => decide (u.mod.state ≠ 2) && decide (u.mod.fill.toNat + 64 ≤ u.mod.gib.toNat * gib) && decide (u.portsTo 5 0 ≠ []) && u.dieLinks = 0) = true := by decide +kernel
theorem test_shared_load : left (exec (.sharedLoad shdr { node := 5, kind := 2 } 64 (List.replicate 64 7)) (sharedS 0 0)) (fun s => (s.mod.state, s.mod.fill)) = some (1, 64) := by decide +kernel
theorem test_meets_SharedSeal : (((sharedS 1 0).runsNow shdr 0x208).any fun u => u.mod.state = 1) = true := by decide +kernel
theorem test_meets_SharedMap : (((sharedS 2 64).runsNow shdr 0x205).any fun u => (u.ptn 1).st = 1 && u.mod.state = 2 && !((u.ptn 1).mem.wins.get {} 8).valid) = true := by decide +kernel
theorem test_shared_map : left (exec (.sharedMap shdr 8) (sharedS 2 64)) (fun s => (s.ptn 1).mem.wins.get {} 8) = some { valid := true, ro := true, shared := true, dev := 100 } := by decide +kernel
def mappedS : State := { sharedS 2 64 with ptns := [(1, { ptn1 with mem := { ptn1.mem with wins := [(8, { valid := true, ro := true, shared := true, dev := 100 })] } })] }
theorem test_meets_SharedUnmap : ((mappedS.runsNow shdr 0x206).any fun u => (u.ptn 1).st = 1 && u.mod.state = 2 && (u.ptn 1).sharedMapped) = true := by decide +kernel
theorem test_meets_SharedClear : (((sharedS 2 64).runsNow shdr 0x209).any fun u => decide (u.mod.state ≠ 0) && u.mappers.isEmpty) = true := by decide +kernel
theorem test_shared_clear_mapped : left (exec (.sharedClear shdr) mappedS) (fun s => s.mod.state) = some 2 := by decide +kernel
theorem test_slot_wheel : left (exec .slotWheelBoundary (base { ptn1 with mem := { ptn1.mem with sharePending := some 6 } })) (fun s => (s.ptn 1).mem.sharedShare) = some 6 := by decide +kernel

/-! ## Registers -/

theorem test_meets_RegisterReads : ((idleS.runsNow hdr 0x110).isSome && (regBlock 0x1000).isNone && (regBlock 0xF0000110000).isSome && (regBlock 0xF0001000000).isSome) = true := by decide +kernel
/-- A partition reads its own block, and not the next one: E_ACCESS. -/
theorem test_reg_read : ((base ptn1).regBad hdr 0xF0000110000 false, (base ptn1).regBad hdr 0xF0000120000 false, (base ptn1).regBad hdr 0xF0000110004 false) =
    (none, some St.eAccess, some St.eAlign) := by decide +kernel
theorem test_ptn_state_register : (base ptn1).peek 0xF0000110000 = 0x101 := by decide +kernel
theorem test_meets_PartitionRegisters : (((idleS.runsNow { hdr with expert := true } 0x111).any fun u => let x := u.ptn 1
    x.train.mbs.isEmpty && decide (x.ergUsed ≤ x.ergHeld) && x.spillFits && decide (u.slotSum (some 1) + 7 ≤ 224) && (u.sem 1 5).waiters.isEmpty && bitAt x.qEnable.toNat 1) &&
    (idleS.runsNow shdr 0x111).isSome) = true := by decide +kernel
theorem test_q_cfg : left (exec (.ptnQCfgWrite hdr 1 1 0x01020003) idleS) (fun s => ((s.job 1 1).cfg, (s.ptn 1).qEnable)) = some (some (3, 2), 3) := by decide +kernel
/-- SLICE_US of 99 is out of range; 100 is not. -/
theorem test_sched_cfg : left (exec (.ptnSchedCfgWrite hdr 1 99) idleS) (fun s => (s.ptn 1).sliceUs) = some 0x3E8 ∧
    left (exec (.ptnSchedCfgWrite hdr 1 100) idleS) (fun s => (s.ptn 1).sliceUs) = some 100 := by decide +kernel
/-- RND = 1 needs the expert level. -/
theorem test_num_mode_expert : left (exec (.ptnNumModeWrite hdr 1 3) idleS) (fun s => (s.ptn 1).numMode.rnd) = some 0 ∧
    left (exec (.ptnNumModeWrite { hdr with expert := true } 1 3) idleS) (fun s => (s.ptn 1).numMode.rnd) = some 1 := by decide +kernel
theorem test_meets_ModuleRegisters : ((idleS.runsNow { shdr with expert := true } 0x111).any fun u => u.mod.state = 0 && decide (16 + (u.slotSum none - u.mod.sharedSlots.toNat) ≤ 224) &&
    (u.ptn 1).mem.wins.all (fun e => !decide (200 ≤ e.2.dev.toNat)) && resFits ((u.qp 0).res.put {} 1 (QRes.ofWord 1)) 31) = true := by decide +kernel
theorem test_meets_RegWrite : (idleS.runsNow hdr 0x111).isSome && (idleS.regBad hdr 0xF0000110308 true).isNone = true := by decide +kernel
theorem test_sr_seed : left (exec (.regWrite hdr [(0xF0000110308, ⟨0xABCD, 0⟩), (0xF0000110000, ⟨0, 0⟩)]) idleS) (fun s => ((s.ptn 1).srSeed, (s.ptn 1).st)) = some (0xABCD, 1) := by decide +kernel
theorem test_saf_status : left (exec (.safStatusClear shdr 3 false true) { idleS with saf := { faultPend := true, alertPend := true } }) (fun s => (s.saf.faultPend, s.saf.alertPend)) =
    some (false, true) := by decide +kernel
theorem test_qlnk_enable : left (exec (.qlnkEnable shdr 0 0) { idleS with qps := [(0, { st := 2 })] }) (fun s => ((s.qp 0).st, (s.qp 0).downCause)) = some (0, 4) := by decide +kernel
/-- Limits of 999 and 1,851 W keep the field, 1,000 and 1,850 W do not. -/
theorem test_pwr_cfg : [999, 1000, 1850, 1851].map (fun v : W64 => left (exec (.pwrCfgWrite shdr v) { idleS with pwr := { limitW := 1234 } }) fun s => s.pwr.limitW) =
    [some 1234, some 1000, some 1850, some 1234] := by decide +kernel
theorem test_meets_RegistersUnchanged : ((idleS.regBad hdr 0xF0000120000 true).isSome && resFits ((idleS.qp 0).res.put {} 1 (QRes.ofWord 33)) 31 == false &&
    !(base { ptn1 with sems := [(5, { waiters := [(0, 0)] })] } |>.sem 1 5).waiters.isEmpty) = true := by decide +kernel
/-- With a thread waiting, the COUNT that stands may be written and OVF cleared; another COUNT is E_BUSY. -/
theorem test_sem_waiting : let s := base { ptn1 with sems := [(5, { ovf := true, waiters := [(0, 0)] })] }
    (((s.putSem 1 5 false 0x1000000000000 false).1.sem 1 5).ovf, (s.putSem 1 5 true 1 false).2, ((s.putSem 1 5 true 1 false).1.sem 1 5).count) = (false, some St.eBusy, 0) := by decide +kernel
theorem test_meets_RetiredUnitRegisters : ({ idleS with mcs := [(65, { strip := { retired := true } })] } : State).peek 0xF0000040108 = 2 := by decide +kernel
theorem test_meets_MaximumAndMinimum : ((b16.decode 0x7E00).isNan && !(b16.decode 0x8000).isNan && (b32.decode 0x7F800001).isNan && (a20.decode 0x7F801).isNan && !(a20.decode 0).isNan) = true := by decide +kernel

/-! ## Sideband, security, power and resets -/

/-- The module running, nothing in it; and with the pin and flash state of a host that owns the flash. -/
def readyS : State := { phase := .ready }
def ownS : State := { phase := .standby, pins := { rstN := false }, i3c := { owned := true } }

theorem test_meets_I3cTarget : (readyS.phase ≠ .off) ∧ readyS.i3cReadable 0xF0000040000 = true ∧ readyS.i3cReadable 0xF0000110000 = false ∧ State.i3cWritable 0xF0000040008 = false ∧
    readyS.i3c.dyn = none ∧ ({ readyS with i3c := { dyn := some 9 } } : State).i3c.dyn ≠ none := by decide +kernel
theorem test_i3c_status : left (exec .i3cStatus { readyS with i3c := { err := true, owned := true } }) (fun s => (s.i3c.read, s.i3c.err)) = some ([6], false) := by decide +kernel
theorem test_meets_BootFlash : ownS.phase ≠ .off ∧ ownS.pins.rstN = false ∧ ownS.i3c.owned = true ∧ ownS.i3c.busy = false ∧ readyS.i3c.owned = false ∧
    ({ ownS with i3c := { op := some (256, [1]) } } : State).i3c.op = some (256, [1]) ∧ ({ ownS with flashBusy := true } : State).i3c.op = none := by decide +kernel
theorem test_flash_write : left (exec .flashOperationComplete { ownS with i3c := { owned := true, busy := true, op := some (256, [1, 2]) } }) (fun s => (s.flashAt 257, s.i3c.busy)) =
    some (2, false) := by decide +kernel
theorem test_idcode : left (exec .idcode readyS) (fun s => (s.pins.jtag, s.pins.tdo)) = some (1, 0x1AD90A5F) := by decide +kernel
/-- Safelight is open for partition 1, with every scope. -/
def slS : State := { base { ptn1 with flow := { createMen := 3 } } with sec := { unlock := some { ptns := [(1, 3)], mask := 2, scope := 31 } } }
theorem test_meets_JtagPort : slS.slOpen 1 = true ∧ slS.slOpen 2 = false ∧ bitAt (31 : BitVec 5).toNat 4 = true ∧ bitAt (0 : BitVec 5).toNat 4 = false ∧
    (slS.debugWin 1 0x10000000000 false false = true) ∧ (slS.debugWin 1 0x10000000000 false true = true) ∧ (regBlock 0xF0000110308).isSome = true ∧
    readyS.pins.rstN = true ∧ ownS.pins.rstN = false := by decide +kernel
theorem test_meets_JtagShared : (let s : State := { slS with ptns := [(1, { ptn1 with flow := { createMen := 3 }, mem := { wins := [(8, { valid := true, ro := true, shared := true, dev := 100 })] } })] }
    s.slOpen 1 && (s.ptn 1).sharedMapped && s.debugWin 1 (0x10000000000 + 8 * 2 ^ 30) true false) = true := by decide +kernel
theorem test_debug_register : left (exec (.safelightDebugAccess 3 1 0 0xF0000110308 (some 77)) slS) (fun s => (s.ptn 1).srSeed) = some 77 := by decide +kernel
theorem test_meets_QuotesAndKeys : ((idleS.startsNow hdr 0x130 (.attestQuote hdr [] true)).isSome && ([0, 1, 2, 3, 4].all fun m => (idleS.startsNow hdr 0x131 (.keyExchange hdr m 0 1 [])).isSome)) = true ∧
    ((base { ptn1 with tkeys := [(1, { key := some [1], pend := some 5 })] }).tkey 1 1).pend = some 5 := by decide +kernel
/-- The generator of P-256 is a valid peer key. -/
theorem test_meets_KeyComplete : (P256.ofBytes (beBytes 32 0x6B17D1F2E12C4247F8BCE6E563A440F277037D812DEB33A0F4A13945D898C296 ++
    beBytes 32 0x4FE342E2FE1A7F9B8EE7EB4A7C0F9E162BCE33576B315ECECBB6406837BF51F5)).isSome = true := by decide +kernel
/-- Not a point of the curve: COMPLETE fails. -/
theorem test_meets_KeyFails : (P256.ofBytes (List.replicate 64 0)).isNone = true := by decide +kernel
theorem test_meets_Safelight : (readyS.runsNow shdr 0xF04).isSome = true ∧ ({} : Token).magic = 0x4B535141 ∧ ({} : Token).durationS ≠ 0 ∧ (1 : W32).toNat ≤ 86400 := by decide +kernel
theorem test_safelight_lock : left (exec (.safelightUnlock shdr 2 {}) slS) (fun s => s.sec.unlock.isSome) = some false := by decide +kernel
theorem test_meets_LogAndTelemetry : ([0xF02, 0xF03, 0x802, 0x803].all fun op => (readyS.runsNow shdr op).isSome) = true := by decide +kernel
theorem test_fault_log_clear : left (exec (.faultLogClear shdr 4) { readyS with saf := { log := [{ men := 4 }, { men := 5 }] } }) (fun s => s.saf.log.map (·.men)) = some [5] := by decide +kernel
theorem test_pwr_limit : left (exec (.pwrLimit shdr 1000) readyS) (fun s => s.pwr.limitW) = some 1000 ∧ left (exec (.pwrLimit shdr 999) readyS) (fun s => s.pwr.limitW) = some 0x73A := by decide +kernel

/-! ## Faults -/

def faultR (sev : Byte) : FRec := { cls := 1, severity := sev, ptnMask := 2 }
def fullLog (sev : Byte) : State := { readyS with saf := { log := List.replicate 512 { severity := sev } } }
theorem test_meets_FaultRecording : readyS.saf.stewRestart = false ∧ (fullLog 1).saf.log.length = 512 ∧ ((fullLog 1).saf.log.any fun x => x.severity = 1) = true ∧
    ((fullLog 2).saf.log.any fun x => x.severity = 1) = false ∧ bitAt (faultR 2).ptnMask.toNat 1 = true ∧ bitAt (faultR 2).ptnMask.toNat 0 = false := by decide +kernel
theorem test_record_fault : (let t := (base ptn1).recordFault (faultR 2)
    (t.saf.nextMen, t.saf.faultPend, (t.ptn 1).flow.lastMen, (t.ptn 1).flow.faultEvents)) = (2, true, 1, 1) := by decide +kernel
theorem test_full_log_loses : ((fullLog 2).recordFault (faultR 1)).saf.logLost = 1 := by decide +kernel
theorem test_meets_StewardRestart : left (exec .stewardRestartComplete { readyS with saf := { stewRestart := true, deferred := [(faultR 2, [])] } }) (fun s => (s.saf.stewRestart, s.saf.nextMen)) =
    some (false, 2) := by decide +kernel
theorem test_meets_PlatformFaults : readyS.powered = true ∧ bitAt ({ readyS with phase := .starting, pwr := { rails := 4 } } : State).pwr.rails.toNat 2 = true ∧
    readyS.pwr.avs.get 0 1 < 2 ∧ 2 ≤ ({ readyS with pwr := { avs := [(1, 2)] } } : State).pwr.avs.get 0 1 ∧ readyS.pwr.trans = none ∧
    allBelow 100 [99 * 16] = true ∧ atLeast 115 [115 * 16] = true ∧ atLeast 100 [100 * 16] = true ∧ atLeast 115 [100 * 16] = false := by decide +kernel
theorem test_temp_high : left (exec (.tempSample { dies := [100 * 16, 20 * 16] } 0) readyS) (fun s => s.saf.log.map fun r => (r.severity, r.cause)) = some [(1, 0x0705)] := by decide +kernel
theorem test_input_low : left (exec (.inputLow 9) readyS) (fun s => s.saf.log.map fun r => (r.severity, r.cause, r.stamp)) = some [(1, 0x0707, 9)] := by decide +kernel
theorem test_meets_DutyControl : readyS.phase = .ready ∧ readyS.pwr.st.toNat < 2 ∧ 4 ≤ readyS.pwr.duty.toNat ∧ readyS.pwr.duty.toNat ≤ 16 := by decide +kernel
/-- 1,851 W is above the reset limit of 1,850 W: DUTY falls by one; 1,850 W is not. -/
theorem test_duty : left (exec (.dutyControl { powerW := 1851 } 0) readyS) (fun s => s.pwr.duty) = some 15 ∧ left (exec (.dutyControl { powerW := 1850 } 0) readyS) (fun s => s.pwr.duty) = some 16 := by decide +kernel

/-! ## Power states, pins, resets -/

theorem test_meets_CgL1 : (let s : State := { idleS with pwr := { cg := 0 } }
    s.cgOwner 0 = some 1 ∧ s.inL0 0 = true ∧ (queueIds.all fun q => !bitAt (s.job 1 q).cgs.toNat 0) = true ∧ s.unclean 1 0 = [] ∧ (s.mc 7).strip.st = .idle) := by decide +kernel
theorem test_cg_l1 : left (exec (.cgL1Entry 0) { idleS with pwr := { cg := 0 } }) (fun s => (s.ptn 1).l1) = some 1 := by decide +kernel
theorem test_meets_ModuleL1 : left (exec .moduleL1Entry readyS) (fun s => s.pwr.st) = some 1 := by decide +kernel
theorem test_meets_PwrState : ((readyS.runsNow shdr 0x801).any fun u => !u.l2Busy && !u.l3Busy && (u.cmdOf shdr).isSome && ptnIds.all fun p => (u.ptn p).cgs &&& 2 = 0) = true := by decide +kernel
theorem test_meets_L2L3 : (let s : State := { readyS with pwr := { due := some 2 } }
    s.l2Busy = false ∧ ({ readyS with pwr := { due := some 3 } } : State).l3Busy = false ∧ ({ base runPtn with pwr := { due := some 2 } } : State).l2Busy = true ∧
    ({ base runPtn with pwr := { due := some 3 } } : State).l3Busy = true) := by decide +kernel
def l3S : State := { phase := .standby, pwr := { st := 3, wakeQp := 1 } }
theorem test_meets_Wake : l3S.inL3 = true ∧ l3S.pins.pwrgd = true ∧ l3S.pins.lockout = false ∧ bitAt l3S.pwr.wakeQp.toNat 0 = true ∧ bitAt l3S.pwr.uapWake.toNat 1 = true ∧
    ({ l3S with pwr := { st := 2, wakeQp := 1 } } : State).inL3 = false ∧ l3S.pwr.wakeNEn = true ∧ l3S.pwr.wakeN = false ∧ l3S.pwr.trans = none := by decide +kernel
theorem test_wake_l2 : left (exec .wakeNInput { readyS with pwr := { st := 2 } }) (fun s => (s.pwr.lastWake, s.pwr.trans.map (·.target))) = some (3, some 0) := by decide +kernel
theorem test_meets_Transition : left (exec (.regulatorTransitionComplete 0 true true) { readyS with pwr := { st := 2, trans := some { target := 0, module := true } } }) (fun s => (s.pwr.st, s.pwr.trans.isSome)) =
    some (0, false) := by decide +kernel
theorem test_meets_PinsAndInputs : readyS.pins.pwrgd = true ∧ readyS.inL3 = false ∧ l3S.inL3 = true ∧ l3S.pwr.wakeHeld = none ∧ readyS.pins.stby12 = true ∧ readyS.pins.rstN = true ∧ ownS.i3c.op = none ∧
    ({ phase := .off, pins := { pwrgd := false } } : State).pins.lockout = false := by decide +kernel
theorem test_pwrgd : left (exec .pwrgdInFall readyS) (fun s => (s.phase, s.pins.pwrgd)) = some (.off, false) ∧
    left (exec .pwrgdInRise { phase := .off, pins := { pwrgd := false } }) (fun s => (s.phase, s.pwr.boot)) = some (.starting, some (0, 1)) := by decide +kernel
theorem test_rst_n : left (exec .modRstNRise { ownS with pwr := { boot := some (0, 1) } }) (fun s => (s.phase, s.i3c.owned)) = some (.starting, false) := by decide +kernel
theorem test_meets_ModuleResets : readyS.phase = .ready ∧ readyS.pins.pwrgd = true ∧ readyS.pins.rstN = true ∧ readyS.pins.lockout = false := by decide +kernel
/-- A warm reset keeps device memory above the Ergs and the fault log, and clears partitions. -/
theorem test_warm_begins : (let t := ({ base ptn1 with mem := { bytes := [(lpBase + 5, 7)] }, saf := { log := [{ men := 4 }] } } : State).beginReset 1 2 .none
    (t.ptns, t.mem.bytes, t.saf.log.map (·.men))) = ([], [(lpBase + 5, 7)], [4]) := by decide +kernel

/-! ## Strips and detected faults -/

def stripS (x : Strip) : State := { base ptn1 with mcs := [(0, { strip := x })], tes := [(0, { strip := x })], pwr := { cg := 0 } }
theorem test_meets_Strips : (stripS {}).mcRetired 0 = false ∧ (stripS {}).inL0 0 = true ∧ ((stripS { st := .due }).mc 0).boundary = true ∧ (stripS { st := .due }).stopAsked 0 = false ∧
    ((stripS { st := .first }).mc 0).strip.active = true ∧ ((stripS {}).te 0).strip.retired = false := by decide +kernel
theorem test_meets_StripNow : (idleS.startsNow hdr 0xF01 (.stripNow hdr 1 false true false)).isSome = true := by decide +kernel
/-- A strip fails, and the second passes: the unit stays in service with one failure counted, and a correctable STRIP_FAIL is recorded. -/
theorem test_strip_passes_again : left (exec (.stripEnd 0 none 0) (stripS { st := .second 4 })) (fun s => (s.mcRetired 0, (s.mc 0).strip.strips, s.saf.log.map fun r => (r.severity, r.cause, r.detail))) =
    some (false, 1, [(1, 0x0101, 4)]) := by decide +kernel
theorem test_strip_fails_twice : left (exec (.stripEnd 0 (some 5) 0) (stripS { st := .second 4 })) (fun s => (s.mcRetired 0, s.saf.log.map fun r => (r.severity, r.cause))) = some (true, [(2, 0x0102)]) := by decide +kernel
theorem test_strip_start : left (exec (.stripStart 0) (stripS { st := .due })) (fun s => (s.mc 0).strip.st) = some .first := by decide +kernel
theorem test_meets_Heartbeat : (stripS {}).mcRetired 0 = false ∧ (stripS {}).inL0 0 = true ∧ (stripS {}).launches = [] := by decide +kernel
theorem test_heartbeat : left (exec (.heartbeatMissed false 0 0) (stripS {})) (fun s => (s.mcRetired 0, s.saf.log.map (·.cause))) = some (true, [0x0601]) := by decide +kernel
theorem test_meets_Lockstep : bitAt readyS.saf.psRetired.toNat 1 = false ∧ (idleS.ptn 2).st = 0 ∧ (idleS.ptn 1).st ≠ 0 ∧ readyS.saf.deferred = [] := by decide +kernel
theorem test_lockstep_twice : left (exec (.psLockstepMismatch 1 0 true) idleS) (fun s => (s.saf.psRetired, (s.ptn 1).st)) = some (2, 2) := by decide +kernel
theorem test_meets_DescCrc : ((base runPtn).running? 1 0).isSome = true := by decide +kernel
theorem test_desc_crc : left (exec (.descCrcMismatch 1 0 0 false 3 0) (base runPtn)) (fun s => s.saf.log.map fun r => (r.cause, r.unit, r.ptnMask)) = some [(0x0203, 3, 2)] := by decide +kernel
theorem test_meets_DieLink : bitAt readyS.dieLinks.toNat 1 = false ∧ (ptnIds.all fun p => !readyS.spansDies p 0 1) = true ∧ bitAt ({ readyS with dieLinks := 2 } : State).dieLinks.toNat 1 = true := by decide +kernel
theorem test_die_link : left (exec (.dieLinkDown 1 0 0) readyS) (fun s => (s.dieLinks, s.saf.log.map (·.cause))) = some (2, [0x0401]) := by decide +kernel
theorem test_meets_PatrolScrub : isMem 8 = true ∧ isMem (lpBase + 64) = true ∧ isMem 0xF0000000000 = false ∧ (1 : Nat) ∉ readyS.mem.ue := by decide +kernel
theorem test_scrub_corrects : left (exec (.patrolScrub 0 false true false 0) readyS) (fun s => (s.mem.erg.get {} 0).ce) = some 1 := by decide +kernel

/-! ## Packets of Uapra -/

/-- A packet: VERSION 1, partition and queue, opcode, SEQ, flags, a parameter block, and its CRC. -/
def packetOf (pq : Byte) (op seq flags : Nat) (block : List Byte) : List Byte :=
  let b := [1, pq] ++ leBytes 2 op ++ leBytes 4 seq ++ leBytes 4 (36 + block.length) ++ leBytes 4 flags ++ List.replicate 16 0 ++ block
  b ++ leBytes 4 (crc32c b).toNat

/-- CRC-32C of the nine digits: the check value of the code (R316). -/
theorem test_crc32c : crc32c [0x31, 0x32, 0x33, 0x34, 0x35, 0x36, 0x37, 0x38, 0x39] = 0xE3069283 := by decide +kernel

def nopPkt : List Byte := packetOf 1 0x100 1 0 (List.replicate 8 0)
theorem test_meets_PacketArrival : ((idleS.admits 0).any fun z =>
    let h := Hdr.parse nopPkt 0
    (wireCheck nopPkt).isNone && (z.ptn h.ptn).st = 1 && !h.steward && (z.chanCheck h 1).isNone && seqAfter (z.lastSeq h) h.seq &&
    (match (z.setSeq h).cmdCheck h 0x100 (List.replicate 8 0) with | .ok c => decide (c = .nop h) | .error _ => false)) = true := by decide +kernel
/-- Each check refuses: the length, the CRC, VERSION, FREE, a queue that is off, a repeated SEQ, an opcode, a level, a block. -/
theorem test_meets_PacketChecks : (let s : State := { idleS with ptns := [(1, { ptn1 with jobs := [(1, { lastSeq := some 1 })] })] }
    [nopPkt ++ [0], nopPkt.set 35 0xAA, packetOf 2 0x100 1 0 [], packetOf 0xE1 0x100 1 0 [], packetOf 0x21 0x100 1 0 [], packetOf 1 0x999 1 0 [],
     packetOf 1 0x703 1 0 [], packetOf 1 0x403 1 0 [0, 0, 0, 0]].map fun b => left (exec (.packetArrival 0 b) s) fun t => (t.up 0).unacked.map (·.status)) =
    [some [St.eLength], some [St.eCrc], some [St.ePtnFree], some [St.eQueueOff], some [St.eSeqReplay], some [St.eOpcode], some [St.eLevel], some [St.eParam]] := by decide +kernel
theorem test_meets_StewardInRestart : (let s : State := { idleS with saf := { stewRestart := true } }
    (s.admits 0).any fun z => let h := Hdr.parse (packetOf 0 0xF02 1 0x20 []) 0
      h.steward && (wireCheck (packetOf 0 0xF02 1 0x20 [])).isNone && (z.chanCheck h 1).isNone && seqAfter (z.lastSeq h) h.seq && z.saf.stewRestart) = true := by decide +kernel
theorem test_packet_accepted : left (exec (.packetArrival 0 nopPkt) idleS) (fun t => ((t.ptn 1).flow.cmds.map (·.cmd), (t.job 1 0).lastSeq)) =
    some ([some (.nop (Hdr.parse nopPkt 0))], some 1) := by decide +kernel

def upS (x : UPort) : State := { idleS with ups := [(0, { x with st := 2 }), (1, { st := 2 })] }
theorem test_meets_UapraLinks : ((upS { unacked := [{}] }).up 0).isUp = true ∧ ((upS { unacked := [{}] }).up 0).unacked ≠ [] ∧ ((upS { attempts := 7 }).up 0).attempts < 8 ∧
    8 ≤ ((upS { attempts := 8 }).up 0).attempts ∧ (readyS.up 0).isUp = false ∧ readyS.phase = .ready ∧ (readyS.up (otherUp 0)).isUp = false ∧ ({} : LinkFrame).intact = true := by decide +kernel
/-- Credits stop at 64. -/
theorem test_credits : left (exec (.uapraFrame 0 { credits := 63 }) (upS { credits := 2 })) (fun s => (s.up 0).credits) = some 64 := by decide +kernel
theorem test_uapra_down : left (exec (.uapraFrameRetry 0) (upS { unacked := [{ seq := 3 }], attempts := 8 })) (fun s => ((s.up 0).st, s.saf.log.map (·.cause))) = some (0, [0x0402]) := by decide +kernel
theorem test_retrain : left (exec (.uapraRetrain 0 true) readyS) (fun s => ((s.up 0).st, (s.up 0).rstCause, (s.up 0).credits)) = some (2, 0x21, 64) := by decide +kernel

/-! ## Qorea -/

/-- Port 0 as `x`, NODE 3. -/
def qS (x : QPort) : State := { idleS with mod := { node := 3 }, qps := [(0, x)] }
theorem test_meets_QoreaPorts : ((qS { st := 2 }).qp 0).st = 2 ∧ ((qS { st := 2, fseqTx := 1 }).qp 0).outstanding = true ∧ ((qS { st := 2 }).qp 0).outstanding = false ∧
    ((qS { st := 1, attempts := 2, degradeEn := true }).qp 0).atStep4 = false ∧ (0x0F : BitVec 8).toNat % 16 = 15 ∧ (0xF0 : BitVec 8).toNat / 16 = 15 ∧ (qS {}).mod.node ≠ 0x1FFF ∧
    readyS.mod.node = 0x1FFF ∧ ({ good := false } : Flit).good = false ∧ ({} : Flit).fkind = 0 := by decide +kernel
/-- In order; out of order, which is NAKed; and the eighth bad flit. -/
theorem test_flits : [qS { st := 2 }, qS { st := 2, fseqRx := 4 }, qS { st := 2, fseqRx := 4, nakSent := 7 }].map (fun s => left (exec (.flitReceive 0 { ackSeq := 0xFFF }) s)
    fun t => ((t.qp 0).st, (t.qp 0).fseqRx, (t.qp 0).discarding)) = [some (2, 1, false), some (2, 4, true), some (0, 0, false)] := by decide +kernel
theorem test_lanes : left (exec (.trainingStepTimeout 0 0xF0) (qS { st := 1, attempts := 2, degradeEn := true })) (fun s => ((s.qp 0).half, (s.qp 0).laneSet)) = some (true, true) := by decide +kernel
theorem test_trained : left (exec (.linkTrained 0 9) (qS { st := 1 })) (fun s => ((s.qp 0).st, (s.qp 0).peer, s.saf.nextMen)) = some (2, 9, 2) ∧
    left (exec (.linkTrained 0 9) { qS { st := 1 } with mod := {} }) (fun s => ((s.qp 0).st, (s.qp 0).atStep4)) = some (1, true) := by decide +kernel
theorem test_ack : left (exec (.ack 0 1 0 7) (qS { st := 2, flight := [{ srcPtn := 1, vl := 2, pktNum := 7 }, { srcPtn := 1, vl := 3, pktNum := 8 }] })) (fun s => (s.qp 0).flight.map (·.pktNum)) = some [8] := by decide +kernel

/-- Port 0 is UP and reaches node 5. -/
def netS (x : Ptn) : State := { base x with mod := { node := 3 }, qps := [(0, { st := 2, peer := 5, routes := 0x20 })] }
theorem test_meets_TransferCommands : ((netS ptn1).startsNow hdr 0x210 (.dataIn hdr ep 0 64)).isSome = true ∧ ((netS ptn1).startsNow hdr 0x211 (.dataOut hdr ep 0 64)).isSome = true ∧
    (netS ptn1).portsTo ep.node 0 ≠ [] ∧ idleS.portsTo ep.node 0 = [] := by decide +kernel
/-- An open DATA_IN of 64 bytes to LPDDR5X window 0, and the same as a DATA_OUT. -/
def xferS (dir : BitVec 2) : State := { netS runPtn with xfers := [{ id := 1, ptn := 1, hdr := hdr, dir := dir, ep := ep, addr := 0x10000000000, bytes := 64 }], nextXfer := 2 }
def dataH (num off : W64) : QHdr := { dstPtn := 1, srcNode := 5, srcPtn := 2, xfer := 1, offset := off, pktNum := num }
theorem test_meets_Transfers : ((xferS 0).xfers.find? fun x => x.dir = 0 && x.ptn = 1 && x.id = 1 && x.ep.node = 5).isSome = true ∧
    okAnd ((xferS 0).pWrite 1 (Who.firmware.via 0) 0x10000000000 [7]) (fun _ _ => true) = true ∧ (xferS 0).noSlot 1 0x10000000000 16 = false ∧
    okAnd ((xferS 0).pRead 1 (Who.firmware.via 0) 0x10000000000 16) (fun _ _ => true) = true ∧
    isOk ((xferS 0).pWrite 1 (Who.firmware.via 0) 0x1FF00000000 [7]).2 = false ∧ ((xferS 1).job 1 0).st = .running ∧ (dataH 1 0).offset.toNat + 16 ≤ 64 := by decide +kernel
theorem test_data : left (exec (.data 0 (dataH 1 32) (List.replicate 16 7)) (xferS 0)) (fun s => s.xfers.map fun x => (x.moved, x.seen.length)) = some [(16, 1)] := by decide +kernel
/-- The last bytes close the transfer; bytes beyond its end are dropped. -/
theorem test_data_ends : left (exec (.data 0 (dataH 1 0) (List.replicate 64 7)) (xferS 0)) (fun s => (s.xfers.length, (s.qp 0).dropped)) = some (0, 0) ∧
    left (exec (.data 0 (dataH 1 8) (List.replicate 64 7)) (xferS 0)) (fun s => (s.xfers.length, (s.qp 0).dropped)) = some (1, 1) := by decide +kernel
theorem test_data_stranger : left (exec (.data 0 { dataH 1 0 with srcNode := 6 } [1]) (xferS 0)) (fun s => (s.qp 0).dropped) = some 1 := by decide +kernel
theorem test_read : left (exec (.read 0 (dataH 1 0) 16) (xferS 1)) (fun s => ((s.qp 0).flight ++ (s.qp 0).queue).map fun k => (k.kind, k.dstNode)) = some [(1, 5)] := by decide +kernel

/-! ## Groups -/

/-- Partition 1 of node 3 is member 0, partition 2 of node 5 member 1. -/
def gBlock : GroupBlock := { group := 9, self := 0, epoch := 1, bucketLog2 := 20, members := [(3, 1), (5, 2)] }
def grp : Group := { block := gBlock, epoch := 1, maxEpoch := 1 }
def gS (g : Group) : State := netS { ptn1 with groups := [g] }
theorem test_meets_RouteSet : ((netS ptn1).runsNow shdr 0x503).isSome = true := by decide +kernel
theorem test_route_set : left (exec (.routeSet shdr 1 6 2 1) (netS ptn1)) (fun s => (s.qp 0).routes) = some 0xE0 := by decide +kernel
theorem test_meets_GroupSet : (((netS ptn1).startsNow hdr 0x501 (.groupSet hdr gBlock)).any fun u => (u.startCheck hdr (.groupSet hdr gBlock)).isNone && !groupBad u 1 gBlock &&
      ((u.ptn 1).group? 9).isNone && (u.ptn 1).ergFits (4 * 2 ^ 20)) = true ∧
    (((gS grp).startsNow hdr 0x501 (.groupSet hdr { gBlock with epoch := 2 })).any fun u => !groupBad u 1 { gBlock with epoch := 2 } && ((u.ptn 1).group? 9).isSome) = true ∧
    (let g : Group := { grp with rounds := [{}] }; ((gS g).startsNow hdr 0x501 (.groupSet hdr { gBlock with epoch := 2 })).any fun u => decide (((u.ptn 1).group? 9).map (·.rounds) ≠ some [])) = true := by decide +kernel
theorem test_group_set : left (exec (.groupSet hdr gBlock) (shared (netS ptn1))) (fun s => ((s.ptn 1).groups.map (·.st), ((s.qp 0).flight ++ (s.qp 0).queue).map (·.kind))) = some ([.forming], [0x10]) := by decide +kernel
theorem test_meets_GroupLeave : (((gS grp).startsNow hdr 0x502 (.groupLeave hdr 9)).any fun u => (u.startCheck hdr (.groupLeave hdr 9)).isNone && ((u.ptn 1).group? 9).isSome) = true := by decide +kernel
def reduceI : Instr := .reduce { hdr with expert := true } 9 false 2 0x10000000000 0x10000000100
theorem test_meets_Reduce : ([GroupSt.forming, .active, .restoring].all fun st => ((gS { grp with st := st }).startsNow { hdr with expert := true } 0x504 reduceI).any fun u =>
    let z := u.open' { hdr with expert := true } 1
    ((z.ptn 1).group? 9).any (fun y => decide (y.st = st)) && (z.cmdOf hdr).isSome) = true := by decide +kernel
/-- The round of a REDUCE of two elements: this member owns bucket 0 and holds its own report. -/
theorem test_reduce : left (exec reduceI (gS { grp with st := .active })) (fun s => (s.ptn 1).groups.map fun g => (g.opened, g.rounds.map fun r => r.buckets.map fun b => (b.len, b.exps.length))) =
    some [(1, [[(2, 1)]])] := by decide +kernel
theorem test_meets_GroupTimeout : ((gS grp).ptn 1).group? 9 = some grp ∧ grp.st = .forming := by decide +kernel
theorem test_group_timeout : left (exec (.groupTimeout 1 9) (gS { grp with st := .active, rounds := [{}] })) (fun s => (s.ptn 1).groups.map (·.st)) = some [.restoring] := by decide +kernel

/-- A round of a REDUCE: one bucket of two elements, 1 and 2, at its owner. -/
def rnd (k : Bucket) : Round := { hdr := hdr, work := .reduce false 2 0 0x10000000100, buckets := [{ k with len := 2, vals := [0x3F800000, 0x40000000] }], expSent := true }
def roundS (k : Bucket) : State := { netS { runPtn with groups := [{ grp with st := .active, opened := 1, rounds := [rnd k] }] } with nextXfer := 1 }
/-- The buckets of partition 1's open rounds. -/
def bucket0 (s : State) : List Bucket := (s.ptn 1).groups.flatMap fun g => g.rounds.flatMap (·.buckets)
def gH : GHdr := { group := 9 }
def gQ : QHdr := { dstPtn := 1, srcNode := 5, srcPtn := 2, pktNum := 4 }
def g2 (round : W64) : GHdr := { group := 9, round := round }
theorem test_meets_GroupPackets : ((gS grp).fromMember 0 gQ gH).map (·.2) = some 1 ∧ ((roundS {}).fromMember 0 gQ gH).map (·.2) = some 1 ∧ ((roundS {}).inOpen gQ gH).isSome = true ∧
    ((roundS {}).inOpen gQ gH).map (fun x => (x.1.owns 0, 1 % x.1.n)) = some (true, 1) ∧ ((gS grp).ptn 1).group? 9 ≠ none ∧ (roundS {}).roundWaits 1 (rnd {}) = false ∧ ({ gH with epoch := 2 } : GHdr).epoch ≠ grp.epoch := by decide +kernel
theorem test_meets_MemberPackets : (let g : Group := { grp with block := { gBlock with self := 1, members := [(5, 2), (3, 1)] }, st := .active, opened := 1, rounds := [rnd {}] }
    let s := netS { runPtn with groups := [g] }
    (s.fromMember 0 gQ gH).map (·.2) = some 0 ∧ (s.inOpen gQ gH).isSome = true ∧ g.owns 0 = false) := by decide +kernel
theorem test_meets_BucketClose : ([({ scale := some (28, 0), count := [(0, 2), (1, 2)] } : Bucket), { scale := some (28, 0), count := [(0, 2), (1, 2)], out := some [0, 0] }].all fun k =>
    ((roundS k).ptn 1).groups.all fun g => g.owns 0 && (g.rounds.find? (State.closable g 0)).isSome) = true ∧ ((roundS {}).job 1 0).st = .running := by decide +kernel
theorem test_join : left (exec (.join 0 gQ gH 0) (gS grp)) (fun s => (s.ptn 1).groups.map fun g => (g.st, g.joined)) = some [(.active, [1])] := by decide +kernel
/-- The largest exponents are 1 here and 1 there, and N is 2: F = 30 - 1 - 1 = 28, and this member's integers are 2^28 and 2^29 (R377). -/
theorem test_exp_scale : left (exec (.exp 0 gQ gH 0 1 false) (roundS { exps := [(0, 1, false)] })) (fun s => (bucket0 s).map fun b => (b.scale.map (·.1), b.acc.get 0 0, b.acc.get 0 1)) =
    some [(some 28, 0x10000000, 0x20000000)] := by decide +kernel
theorem test_exp_held : left (exec (.exp 0 gQ (g2 2) 0 1 false) (roundS {})) (fun s => (s.ptn 1).groups.map fun g => g.heldExps.length) = some [1] := by decide +kernel
theorem test_grad : left (exec (.grad 0 gQ gH 0 [5, 6]) (roundS { scale := some (28, 0), acc := [(0, 1)] })) (fun s => (s.ptn 1).groups.map fun g => g.rounds.map fun r => r.buckets.map (·.acc)) =
    some [[[[(0, 6), (1, 6)]]]] := by decide +kernel
/-- 2^28 + 2^28 at F = 28 is 2. -/
theorem test_bucket_close : left (exec (.bucketClose 1 9 0) (roundS { scale := some (28, 0), acc := [(0, 0x20000000), (1, 0x20000000)], count := [(0, 2), (1, 2)] }))
    (fun s => (s.ptn 1).groups.map fun g => g.rounds.map fun r => r.buckets.map (·.out)) = some [[[some [0x40000000, 0x40000000]]]] := by decide +kernel
theorem test_param : left (exec (.bucketClose 1 9 0) (roundS { scale := some (28, 0), count := [(0, 2), (1, 2)], out := some [0x40000000, 0x40400000] }))
    (fun s => (s.ptn 1).groups.map fun g => (g.rounds.length, g.nRounds)) = some [(0, 1)] := by decide +kernel
theorem test_stale : left (exec (.abort 0 gQ { gH with epoch := 2 }) (roundS {})) (fun s => ((s.ptn 1).groups.map fun g => (g.st, g.stale), (s.qp 0).dropped)) = some ([(.active, 1)], 1) := by decide +kernel

/-! ## Models and programs -/

def hdrX : Hdr := { hdr with expert := true }
/-- Bytes at the start of LPDDR5X window 0 of partition 1. -/
def lpS (x : Ptn) (b : List Byte) : State := { base x with mem := { bytes := b.zipIdx.map (fun e => (lpBase + e.2, e.1)) |>.filter (fun e => e.2 ≠ 0), granKey := [(0, some (1, 5))] } }
def lpA : W64 := 0x10000000000
/-- A model image of 128 bytes with no tensor and no layer. -/
def imgM : List Byte :=
  [0x41, 0x51, 0x4C, 0x52, 1, 0, 1, 0, 2, 0, 0, 0, 0, 0, 0, 0, 128] ++ List.replicate 7 0 ++ [4] ++ List.replicate 39 0 ++
  [1, 0, 0, 0, 0, 0, 0, 0, 128] ++ List.replicate 7 0 ++ [2, 0, 0, 0, 0, 0, 0, 0, 128] ++ List.replicate 39 0
/-- A program image: no tensor, no kernel, one step END and one entry. -/
def imgP : List Byte :=
  [0x41, 0x51, 0x4C, 0x52, 1, 0, 2, 0, 4, 0, 0, 0, 0, 0, 0, 0, 208] ++ List.replicate 47 0 ++
  [1, 0, 0, 0, 0, 0, 0, 0, 128] ++ List.replicate 7 0 ++ [3, 0, 0, 0, 0, 0, 0, 0, 128] ++ List.replicate 7 0 ++ [6, 0, 0, 0, 1, 0, 0, 0, 128] ++ List.replicate 7 0 ++
  [7, 0, 0, 0, 1, 0, 0, 0, 192] ++ List.replicate 7 0 ++ [11] ++ List.replicate 63 0 ++ [0, 0, 0, 0, 1] ++ List.replicate 11 0

theorem test_meets_ModelLoad : (let s := lpS ptn1 imgM
    let i := Instr.modelLoad hdr lpA 128 0 0
    (s.startsNow hdr 0x220 i).any fun u => (u.startCheck hdr i).isNone && isOk (u.pRead 1 Who.firmware lpA.toNat 128).2 && isOk (Image.load 1 128 imgM false 0) && decide (fld imgM 32 8 = 0) &&
      isOk (u.newModel hdr lpA.toNat 128 0 0 imgM (Image.read imgM)) && !isOk (Image.load 1 128 imgP false 0) && !isOk (u.pRead 1 Who.firmware 0x1FF00000000 128).2) = true := by decide +kernel
theorem test_image : Image.load 1 128 imgM false 0 = .ok { kind := 1, vocab := 4, order := [1, 2] } ∧ Image.load 1 127 imgM false 0 = .error St.eImage := by decide +kernel
theorem test_model_load : left (exec (.modelLoad hdr lpA 128 0 0) (shared (lpS ptn1 imgM))) (fun s => (s.ptn 1).models.map fun m => (m.handle, m.bytes, m.image.vocab)) = some [(0, 128, 4)] := by decide +kernel
/-- Model 0: one trainable tensor of two elements, its set holding 1 and 2. -/
def t2 : TensorDesc := { type := 8, rows := 1, cols := 2, trainable := true }
def set2 : WSet := { buf0 := [(0, 0x3F800000), (1, 0x40000000)], master := [(0, 0x3F800000), (1, 0x40000000)] }
def mdl : Model := { image := { kind := 1, vocab := 4, tensors := [t2] }, sets := [set2], addr := 0x10000000000, bytes := 64 }
def mPtn : Ptn := { ptn1 with models := [mdl], train := { stashMib := 1 } }
def mS : State := { base mPtn with mem := { granKey := [(0, some (1, 5))] } }
def vSrv : Serve := { variants := [{ model := 0, tag := 7, version := 3 }] }
theorem test_meets_Unload : ([mS, base { mPtn with serve := vSrv }].map fun s => (s.startsNow hdr 0x221 (.modelUnload hdr 0)).map fun u =>
    ((u.startCheck hdr (.modelUnload hdr 0)).isNone, ((u.ptn 1).model? 0).isSome, (u.ptn 1).modelInUse hdr 0)) = [some (true, true, false), some (true, true, true)] := by decide +kernel
theorem test_meets_Variants : ((mS.startsNow hdr 0x222 (.variantLoad hdr 0 7 lpA 4)).any fun u => (u.startCheck hdr (.variantLoad hdr 0 7 lpA 4)).isNone && okAnd (u.pRead 1 Who.firmware lpA.toNat 4) (fun v b =>
      ((v.ptn 1).takeGranules (ceilDiv b.length gib) (granulesOf lpA.toNat 4)).any fun area => okAnd (v.fillGranules 1 area b) fun _ _ => true) &&
      !isOk (u.loadVariant 1 0 7 0x1FF00000000 4).2) = true ∧
    ([mS, base { mPtn with serve := vSrv }].map fun s => (s.startsNow hdr 0x223 (.variantUnload hdr 0 7)).map fun u =>
      ((u.startCheck hdr (.variantUnload hdr 0 7)).isNone, ((u.ptn 1).serve.variant? 0 7).isSome)) = [some (true, false), some (true, true)] := by decide +kernel
theorem test_variant_unload : left (exec (.variantUnload hdr 0 7) (shared (base { mPtn with serve := vSrv }))) (fun s => (s.ptn 1).serve.variants.length) = some 0 := by decide +kernel

def prog1 : Program := { handle := 0x8000, image := { steps := [{ sop := 11 }], entries := [{}], order := [1, 3, 6, 7] } }
def pPtn : Ptn := { ptn1 with progs := [prog1] }
def pb : ProgBlock := {}
theorem test_meets_Programs : (((lpS ptn1 imgP).startsNow hdrX 0x701 (.progLoad hdrX lpA 208)).any fun u => (u.startCheck hdrX (.progLoad hdrX lpA 208)).isNone &&
      isOk (u.pRead 1 Who.firmware lpA.toNat 208).2 && isOk (Image.load 2 208 imgP false 0) && !isOk (Image.load 2 208 imgM false 0) && (freeHandle 0x8000 ((u.ptn 1).progs.map (·.handle))).isSome) = true ∧
    (((base pPtn).startsNow hdrX 0x702 (.progUnload hdrX 0x8000)).any fun u => (u.startCheck hdrX (.progUnload hdrX 0x8000)).isNone && ((u.ptn 1).prog? 0x8000).isSome && !(u.ptn 1).progInUse 0x8000) = true ∧
    (((base pPtn).startsNow hdrX 0x703 (.progRun hdrX pb)).any fun u => (u.startCheck hdrX (.progRun hdrX pb)).isNone && ((u.open' hdrX 1).mapCores 1 0 prog1.image false []).isSome && (u.slicesCheck hdrX pb.program.toNat).isNone && (u.cmdOf hdrX).isSome) = true := by decide +kernel
theorem test_meets_ProgramInUse : ({ pPtn with flow := { cmds := [{ runCmd with prog := some { prog := 0x8000 } }] } } : Ptn).progInUse 0x8000 = true := by decide +kernel
theorem test_prog_load : left (exec (.progLoad hdrX lpA 208) (shared (lpS ptn1 imgP))) (fun s => (s.ptn 1).progs.map (·.handle)) = some [0x8000] := by decide +kernel
/-- The stream number is SEQ, or SR_STREAM with bit 31 set (R47). -/
theorem test_sr_stream : [({} : ProgBlock), { srStream := 0x80000007 }].map (fun e => left (exec (.progRun hdrX e) (base pPtn)) fun s => (s.ptn 1).flow.cmds.map fun c => c.prog.map (·.srStream)) =
    [some [some 1], some [some 7]] := by decide +kernel
def teR : TeReq := { tableAddr := 0x1000, indexAddr := 0x2000, dataAddr := 0x3000 }
theorem test_meets_TableOp : ((idleS.startsNow hdr 0x230 (.tableOp hdr [teR])).any fun u => (u.startCheck hdr (.tableOp hdr [teR])).isNone && ((u.open' hdr 1).cmdOf hdr).isSome &&
    decide ((tesOf (u.job 1 0).cgs).filter (fun n => !u.teRetired n) ≠ []) && (tableOpBad teR).isNone) = true := by decide +kernel
theorem test_table_op : left (exec (.tableOp hdr [teR, teR]) idleS) (fun s => ((s.te 0).reqs.map (·.item), (s.te 1).reqs.map (·.item))) = some ([0], [1]) := by decide +kernel

/-! ## Training -/

/-- A RANK step over one micro-batch of 64 tokens, one list. -/
def cd : ContactDesc := { family := 2, vocab := 1, tokens := 64, tableAddr := 0x10000000000 }
def sb : StepBlock := { teacher := 0, contact := cd }
def goodContact (z : State) (r : Train) (im : Option Image) : Bool := (z.cmdOf hdr).isSome && okAnd (z.readContact 1 r) fun v r =>
  let x := v.ptn 1
  let buf := x.contactBuf r im
  !x.tapsBad { r with buf := buf, slices := (x.placeBuf r (x.job 0).cgs buf).getD [] } im
theorem test_meets_Steps : ((mS.startsNow hdr 0x301 (.distillStep hdr sb {})).any fun u => let i := Instr.distillStep hdr sb {}
      (u.startCheck hdr i).isNone && (u.basicCheck hdr sb false).isNone && goodContact (u.open' hdr ((u.ptn 1).itemsOf i)) (basicRun hdr sb false 1) none) = true ∧
    ((mS.startsNow hdr 0x306 (.eval hdr sb {})).any fun u => let i := Instr.eval hdr sb {}
      (u.startCheck hdr i).isNone && (u.basicCheck hdr sb true).isNone && goodContact (u.open' hdr ((u.ptn 1).itemsOf i)) (basicRun hdr sb true 1) none) = true ∧
    (((base { mPtn with train := {} }).startsNow hdr 0x301 (.distillStep hdr sb {})).any fun u => u.basicCheck hdr sb false = some St.eStashFull) = true := by decide +kernel
/-- Which sets a program reads is a free value, so this model has none. -/
def xPtn : Ptn := { mPtn with models := [{ mdl with sets := [] }], progs := [prog1] }
def xb : ProgBlock := { contact := cd, mbId := 4 }
theorem test_meets_ExpertSteps : ([(0x301, Instr.distillStep hdrX {} xb, false), (0x306, .eval hdrX {} xb, true)].all fun e => ((base xPtn).startsNow hdrX e.1 e.2.1).any fun u =>
    !(base xPtn).versionWaits hdrX xb.program.toNat && (u.startCheck hdrX e.2.1).isNone && (u.expertCheck hdrX xb e.2.2).isNone &&
    goodContact (u.open' hdrX ((u.ptn 1).itemsOf e.2.1)) { queue := 0, seq := 1, expert := true, eval := e.2.2, contact := xb.contact, opt := xb.opt, versions := some [] } (some prog1.image)) = true ∧
    xPtn.progVersions 0x8000 = [] := by decide +kernel
theorem test_meets_FwdMb : (((base xPtn).startsNow hdrX 0x302 (.fwdMb hdrX xb)).any fun u => (u.startCheck hdrX (.fwdMb hdrX xb)).isNone && ((u.open' hdrX 1).cmdOf hdrX).isSome &&
      (u.slicesCheck hdrX xb.program.toNat).isNone && decide (((u.open' hdrX 1).ptn 1).train = xPtn.train)) = true ∧
    (((base xPtn).ptn 1).train.mbs.any fun m => m.expert && m.id = 4) = false ∧ (base xPtn).versionWaits hdrX xb.program.toNat = false := by decide +kernel
/-- A stash of any size that the region holds fits at once and passes the check. -/
theorem test_meets_FwdMbStash (n : Nat) : let b := n % (xPtn.train.stashMib.toNat * mib + 1)
    xPtn.train.fits b = true ∧ xPtn.stashCheck 1 b = none := by
  have h : n % (xPtn.train.stashMib.toNat * mib + 1) ≤ xPtn.train.stashMib.toNat * mib := Nat.le_of_lt_succ (Nat.mod_lt _ (Nat.succ_pos _))
  generalize n % (xPtn.train.stashMib.toNat * mib + 1) = b at h ⊢
  exact ⟨decide_eq_true (Nat.le_trans (Nat.le_of_eq (Nat.zero_add b)) h), Ptn.stashCheck_none (by decide) h (by decide)⟩
def mb4 : Mb := { id := 4, expert := true, queue := 0, seq := 9, done := some 1 }
def bPtn : Ptn := { xPtn with train := { stashMib := 1, mbs := [mb4] } }
theorem test_meets_BwdMb : (((base bPtn).startsNow hdrX 0x303 (.bwdMb hdrX { xb with contact := {} })).any fun u => (u.startCheck hdrX (.bwdMb hdrX { xb with contact := {} })).isNone && (u.slicesCheck hdrX xb.program.toNat).isNone) = true ∧
    (((base bPtn).ptn 1).train.mbs.find? fun m => m.expert && m.id = 4) = some mb4 ∧ mb4.place = .resident ∧ mb4.done.isSome = true ∧ mb4.bwdRunning = false ∧ mb4.failed = none ∧
    ({ mb4 with failed := some 5 } : Mb).failed = some 5 := by decide +kernel
theorem test_bwd_mb : left (exec (.bwdMb hdrX xb) (base bPtn)) (fun s => (s.ptn 1).train.mbs.map (·.bwdRunning)) = some [true] := by decide +kernel
theorem test_meets_MbRelease : ((base bPtn).runsNow hdrX 0x304).isSome = true := by decide +kernel
theorem test_mb_release : left (exec (.mbRelease hdrX [4, 5]) (base bPtn)) (fun s => ((s.ptn 1).train.mbs.length, (s.up 0).unacked.map fun m => m.itemCount)) = some (0, [2]) := by decide +kernel
theorem test_meets_Update : ((mS.startsNow hdrX 0x305 (.update hdrX 0 0 true 0xFFFFFFFF {})).any fun u => (u.startCheck hdrX (.update hdrX 0 0 true 0xFFFFFFFF {})).isNone &&
    (((u.ptn 1).set? 0 0).any fun w => !w.invalid) && ((u.open' hdrX 1).cmdOf hdrX).isSome) = true := by decide +kernel
theorem test_update_invalid : left (exec (.update hdrX 0 0 true 0xFFFFFFFF {}) (base { mPtn with models := [{ mdl with sets := [{ invalid := true }] }] })) sent = some [(St.eBusy, 0)] := by decide +kernel

/-- An expert contact command at work: 64 tokens in one row block; and an update of set 0. -/
def trainS (r : Train) (t : Trainer) : State := base { runPtn with models := [mdl], train := { t with runs := [{ r with seq := 1 }] } }
def ctr : Train := { expert := true, contact := { family := 0, vocab := 4, tokens := 64 } }
theorem test_meets_ContactFinalise : ((trainS ctr {}).running? 1 0).isSome = true ∧ (let z := (trainS ctr {}).pumpRun 1 hdr
    (z.runOf hdr).any fun r => decide ((z.job 1 0).st = .running) && decide (r.contact.family ≠ 2) && decide (0 < r.blockCount) && decide (0 ∉ r.blocks) && r.expert && !z.starved 1 && r.inTurn ((z.ptn 1).lanesOf r) 0) = true ∧
    (let z := (trainS { ctr with expert := false, mbCount := 1, mbTokens := 64, fwdOpen := true } {}).pumpRun 1 hdr
     (z.runOf hdr).any fun r => decide (r.contact.family ≠ 2) && decide (r.mbCount ≠ 0) && r.fwdOpen && r.mbOf 0 = r.nextFwd && decide (0 ∉ r.blocks) && r.inTurn ((z.ptn 1).lanesOf r) 0) = true := by decide +kernel
def spilled : Mb := { mb4 with place := .spilled, bytes := 64 }
theorem test_meets_Stash : (let s := trainS {} { stashMib := 1, mbs := [spilled] }
    (s.ptn 1).fillOrder = [spilled] ∧ (s.job 1 spilled.queue).st ≠ .stopped ∧ (match s.place 1 64 with | .room _ => true | _ => false) = true) ∧
    (let s := trainS {} { stashMib := 1, mbs := [{ spilled with place := .filling }] }
     s.starved 1 = false ∧ okAnd (s.mbStash 1 { spilled with place := .filling }) (fun _ _ => true) = true) := by decide +kernel
theorem test_stash : left (exec (.stashFill 1 4) (trainS {} { stashMib := 1, mbs := [spilled] })) (fun s => (s.ptn 1).train.mbs.map (·.place)) = some [.filling] ∧
    left (exec (.stashFillComplete 1 4) (trainS {} { stashMib := 1, mbs := [{ spilled with place := .filling }] })) (fun s => (s.ptn 1).train.mbs.map (·.place)) = some [.resident] := by decide +kernel
def updR (g : W32) : Train := { student := 0, group := g, contact := { family := 2 }, leftUpd := [0] }
theorem test_meets_UpdateBuffer : ([0xFFFFFFFF, 9].all fun g => let s := (trainS (updR g) {}).flushFolds 1
    (s.updateRun 1 0 0).any (fun r => (s.cmdOf (Hdr.ofTrain 1 r)).isSome && !s.bwdSuspect 1 hdr r) && ((s.ptn 1).set? 0 0).any (fun w => !w.writing && !w.invalid && !(s.ptn 1).refersTo 0 0 w.targetVersion)) = true ∧
    ((trainS {} { mbs := [{ mb4 with versions := [(0, 0, 0)] }] }).ptn 1).refersTo 0 0 set2.targetVersion = true := by decide +kernel
theorem test_update_waits : left (exec (.updateBufferAcquire 1 0 0) (trainS (updR 0xFFFFFFFF) { mbs := [{ mb4 with versions := [(0, 0, 0)] }] })) (fun s => (s.cmdOf hdr).map (·.sheet.waited)) = some (some true) := by decide +kernel
/-- SGD as AdamW with B1 = 0, C1 = 1, B2 = 1, C2 = 0, EPS = 1, LR_T = 1, WD = 0, GRAD_SCALE = 1: with g = 2, v = 0, the step is 2 / (0 + 1), and w = 5 becomes 3 (R196). -/
theorem test_adamw : (optStep { gradScale := 0x3F800000, b1 := 0, c1 := 0x3F800000, b2 := 0x3F800000, c2 := 0, eps := 0x3F800000, lrT := 0x3F800000, wd := 0 } true
    0x40000000 0x40A00000 0 0).run'.1 = (0x40400000, 0x40000000, 0) := by decide +kernel

/-! ## Serving -/

/-- A model with vocabulary 4, and a request of one prompt token. -/
def gReq : GenReq := { model := 0, draft := 0xFFFF, fallback := 0xFFFF, maxTokens := 2, promptAddr := 0x10000000000, promptLen := 1, stopToken := 0xFFFFFFFF }
theorem test_meets_GenSubmit : ((mS.startsNow hdr 0x401 (.genSubmit hdr 0xFFFF 0xFFFF [gReq])).any fun u => (u.startCheck hdr (.genSubmit hdr 0xFFFF 0xFFFF [gReq])).isNone &&
    ((u.open' hdr 1).cmdOf hdr).any fun c => !c.hdr.expert) = true := by decide +kernel
theorem test_gen_submit : left (exec (.genSubmit hdr 0xFFFF 0xFFFF [gReq, { gReq with model := 7 }, { gReq with maxTokens := 0 }]) mS)
    (fun s => ((s.ptn 1).serve.streams.map fun t => (t.id, t.item, t.toFill), (s.cmdOf hdr).map fun c => c.items.map (·.failed))) = some ([(0, 0, 1)], some [none, some St.eGenDesc, some St.eGenDesc]) := by decide +kernel
/-- A stream of an open GEN_SUBMIT on queue 0. -/
def strm (t : Stream) : Stream := { t with queue := 0, seq := 1, req := gReq, toFill := 1, prompt := [2] }
def srvS (t : Stream) (v : Serve) : State := { base { runPtn with models := [mdl], serve := { v with streams := [strm t] } } with mem := { granKey := [(0, some (1, 5))] } }
theorem test_meets_GenCancel : (((srvS {} {}).runsNow { hdr with seq := 2 } 0x402).any fun u => (u.cmdOf { hdr with seq := 2 }).isSome &&
    ((u.ptn 1).serve.streams.find? fun t => t.queue = 0 && t.seq = 1 && t.item = 0).isSome) = true := by decide +kernel
theorem test_gen_cancel : [false, true].map (fun b => left (exec (.genCancel { hdr with seq := 2 } 1 0) (srvS { seated := b } {})) fun s => (s.ptn 1).serve.streams.map (·.cancelled)) = [some [], some [true]] := by decide +kernel
theorem test_meets_Budgets : (idleS.runsNow hdr 0x403).isSome = true ∧ (idleS.runsNow hdr 0x404).isSome = true := by decide +kernel
/-- INTERVAL_US of 1,000 to 60,000,000, and a record without TOKENS removes the tag. -/
theorem test_budget_set : left (exec (.budgetSet hdr [⟨1, 5, 1000⟩, ⟨2, 5, 999⟩, ⟨3, 5, 60000000⟩, ⟨4, 5, 60000001⟩, ⟨1, 0, 0⟩]) idleS) (fun s => (s.ptn 1).serve.budgets.map fun b => (b.tag, b.balance)) = some [(3, 5)] := by decide +kernel
theorem test_budget_refill : left (exec (.budgetRefill 1 3) (srvS {} { budgets := [{ tag := 3, tokens := 5, balance := -2 }] })) (fun s => (s.ptn 1).serve.budgets.map (·.balance)) = some [3] := by decide +kernel
theorem test_meets_GenStep : (let s := srvS { filled := 1 } {}
    ((s.ptn 1).model? 0).isSome && !decide (0 ∈ (s.ptn 1).serve.inStep) && !s.storeFull (some 1) && decide (s.readyStreams 1 0 ≠ [])) = true ∧ (srvS {} {}).readyStreams 1 0 = [] := by decide +kernel
theorem test_gen_step : left (exec (.genStep 1 0) (srvS { filled := 1 } {})) (fun s => ((s.ptn 1).serve.inStep, (s.ptn 1).serve.streams.map (·.seated))) = some ([0], [true]) ∧
    left (exec (.genStep 1 0) (srvS { filled := 0 } {})) (fun s => (s.ptn 1).serve.inStep) = some [] := by decide +kernel
theorem test_meets_StepCommit : (let s := srvS { filled := 1, seated := true } { inStep := [0] }
    decide (0 ∈ (s.ptn 1).serve.inStep) && (s.ptn 1).serve.streams.all fun t => t.seated && decide ((s.job 1 t.queue).st = .running) && !s.starved 1) = true := by decide +kernel
theorem test_step_fails : left (exec (.stepCommit 1 0 (some St.eHwFault) 9) (srvS { filled := 1, seated := true } { inStep := [0] })) (fun s => (s.ptn 1).serve.streams.length) = some 0 := by decide +kernel
/-- A chunk of 64 positions of 200, with pages; and of a model with a layer and no pool, without. -/
def chunkS (m : Model) : State := base { runPtn with models := [m], serve := { streams := [{ strm { chunkMax := 64 } with toFill := 200 }] } }
theorem test_meets_ChunkComplete : ((chunkS mdl).chunkHead 1).any (fun t => let s := chunkS mdl
      t.versions.isNone && !(s.ptn 1).writingAny ((s.ptn 1).genVersions t) && !s.starved 1 && (s.takePages 1 0 64 t.pages).isSome && decide (t.filled + 64 < t.toFill) &&
      okAnd (s.pass 1 t t.model t.pages true (t.known.take 64) 64 []) fun _ _ => true) = true ∧
    (let s := chunkS { mdl with image := { mdl.image with layers := [{ kind := 3, tensors := List.replicate 9 0 }] } }
     (s.chunkHead 1).any fun t => !s.starved 1 && (s.takePages 1 0 64 t.pages).isNone) = true := by decide +kernel
theorem test_chunk : left (exec (.chunkComplete 1 0 none 9) (base { runPtn with models := [mdl], serve := { streams := [{ strm { chunkMax := 64 } with toFill := 200 }] } }))
    (fun s => (s.ptn 1).serve.streams.map (·.filled)) = some [64] := by decide +kernel
/-- The depth halves after a step that accepts nothing, and doubles, to at most MAX, at the 64th step without one (R210). -/
theorem test_depth : (nextDepth 4 10 8 4 0, nextDepth 4 62 8 4 1, nextDepth 4 63 8 4 1, nextDepth 0 63 8 0 0, nextDepth 6 63 8 6 2) = ((2, 0), (4, 63), (8, 0), (1, 0), (8, 0)) := by decide +kernel

/-! ## Slices, stop baths, restores -/

def jobs2 (a b : Job) : Ptn := { runPtn with jobs := [(0, { a with cgs := 1, footprint := 1 }), (1, { b with footprint := 1 })] }
theorem test_meets_SliceEnd : ((base (jobs2 { st := .running } {})).job 1 0).st = .running ∧ ((base (jobs2 { st := .running } {})).ptn 1).inHolder 0 = false ∧
    (((base runPtn).charge 1 0 7).running? 1 0).any (fun c => !c.np) = true ∧
    (((base { runPtn with flow := { cmds := [{ runCmd with opcode := 0x230 }] } }).running? 1 0).any fun c => c.np) = true := by decide +kernel
theorem test_slice_end : [(5, 3), (3, 5)].map (fun (v : BitVec 128 × BitVec 128) => left (exec (.sliceEnd 1 0 0) (base (jobs2 { st := .running, vt := v.1 } { st := .ready, vt := v.2 }))) fun s => (s.job 1 0).st) =
    [some .stopping, some .running] := by decide +kernel
theorem test_meets_Candidates : (jobs2 { st := .running, vt := 5 } { st := .ready, vt := 3 }).candidates = [1] ∧ (jobs2 { st := .running, share := 0 } { st := .ready }).candidates = [1] ∧
    (jobs2 { st := .running } { st := .ready, share := 0 }).candidates = [1] := by decide +kernel
def stopS : State := { base (jobs2 { st := .stopping } { st := .ready }) with mcs := (List.range 8).map fun n => (n, { boundary := true, acc := if n = 0 then [(3, { sum := 1 })] else [] }) }
theorem test_meets_StopBath : (stopS.job 1 0).st = .stopping ∧ stopS.drained 1 0 = true ∧ ((stopS.charge 1 0 9).running? 1 0).isSome = true := by decide +kernel
/-- Queue 0 stops with its eight cores saved, and queue 1 runs. -/
theorem test_stop_bath : left (exec (.stopBathHandover 1 0 9) stopS) (fun s => ((s.job 1 0).st, (s.job 1 0).saved.length, (s.job 1 1).st, (s.job 1 0).preempts)) = some (.stopped, 8, .running, 1) := by decide +kernel
theorem test_meets_Restore : (let s := base (jobs2 { st := .restoring } {})
    (s.job 1 0).st = .restoring ∧ s.tes = []) := by decide +kernel
theorem test_restore : left (exec (.restoreComplete 1 0 9 4) (base { jobs2 { st := .restoring, saved := [{ mc := 0, acc := [(3, { sum := 1 })] }] } {} with
    flow := { cmds := [{ runCmd with switching := true }], nextNum := 1 } })) (fun s => ((s.job 1 0).st, (s.mc 0).acc.length, (s.cmdOf hdr).map fun c => (c.switching, c.switchUs))) =
    some (.running, 1, some (false, 4)) := by decide +kernel

/-! ## The Fixer -/

/-- Partition 1 with the Fixer's port 0, which reaches node 5. -/
def fixS (f : FixP) : State := { netS { mPtn with fix := { f with ports := 1 } } with mem := { granKey := [(0, some (1, 5))] } }
def store : Endpoint := { node := 5, kind := 2 }
theorem test_meets_CkptSave : (((fixS {}).fenced hdr 0x601).startsNow hdr 0x601 (.ckptSave hdr store true false 0)).any (fun u => (u.saveBusy 1 false).isNone) = true ∧
    (fixS {}).fixerFull 1 = false ∧ endpointBad store false = false ∧
    (((fixS {}).fenced hdr 0x601).startsNow hdr 0x601 (.ckptSave hdr store false true 100)).any (fun u => u.saveBusy 1 true = some St.eParam) = true := by decide +kernel
theorem test_ckpt_save_busy : left (exec (.ckptSave hdr store true false 0) { fixS {} with ptns := [(1, { mPtn with train := { mbs := [mb4] } })] }) sent = some [(St.eBusy, 0)] := by decide +kernel
theorem test_meets_CkptRestore : (((fixS {}).fenced hdr 0x602).startsNow hdr 0x602 (.ckptRestore hdr store 3)).any (fun u => !u.restoreBusy 1 && ((u.open' hdr 1).askRestore 1 { hdr := hdr, source := store, num := 3 } 0 160).2) = true ∧
    ((fixS {}).updPtn 1 fun x => { x with train := { mbs := [mb4] } }).restoreBusy 1 = true := by decide +kernel
theorem test_ckpt_restore : left (exec (.ckptRestore hdr store 3) (fixS {})) (fun s => ((s.ptn 1).fix.restore.map fun r => (r.num, r.want), ((s.qp 0).flight ++ (s.qp 0).queue).map (·.kind))) =
    some (some (3, 160), [0x23]) := by decide +kernel
def peer5 : Endpoint := { node := 5, kind := 1, ptn := 2 }
theorem test_meets_PartnerSet : ([0, 1, 2].all fun r => ((fixS {}).startsNow hdr 0x603 (.partnerSet hdr r false peer5 lpA 0x80000000)).isSome) = true ∧ endpointBad peer5 true = false ∧
    ((fixS {}).ptn 1).areaOk lpA.toNat 0x80000000 = true ∧ endpointBad { peer5 with node := 0x1FFF } true = false ∧ ((fixS {}).ptn 1).fix.hello = none := by decide +kernel
theorem test_partner_hold : left (exec (.partnerSet hdr 1 false peer5 lpA 0x80000000) (shared (fixS {}))) (fun s => (s.ptn 1).fix.hold.map fun a => (a.addr, a.bytes)) = some (some (0x10000000000, 0x80000000)) := by decide +kernel
/-- A HOLD area of 1 GiB is not a multiple of 2 GiB: E_PARAM. -/
theorem test_partner_size : left (exec (.partnerSet hdr 1 false peer5 lpA 0x40000000) (fixS {})) sent = some [(St.eParam, 0)] := by decide +kernel
theorem test_meets_ShipRoute : ([fixS {}, base mPtn].map fun s => (s.fixSend 1 peer5 0x27 0 0 false []).2) = [true, false] := by decide +kernel
theorem test_meets_NegativeShip : ((fixS {}).startsNow hdr 0x604 (.negativeShip hdr 0 0 peer5)).any (fun u => ((u.ptn 1).model? 0).isSome && (((u.ptn 1).set? 0 0).any fun w => !w.invalid) &&
    isOk ((u.open' hdr 1).pRead 1 Who.fixer 0x10000000000 64).2) = true ∧ ((fixS {}).ptn 1).fix.ship = none ∧ (((fixS {}).ptn 1).set? 0 0).any (fun w => !w.writing) = true ∧ endpointBad peer5 false = false ∧
    ([peer5, { peer5 with node := 9 }].map fun e => ((fixS {}).fixSend 1 e 0x27 0 0 false [1]).2) = [true, false] := by decide +kernel
theorem test_meets_FixerTimeouts : (let f : FixP := { copies := [{ hdr := hdr }], restore := some { hdr := hdr }, hello := some (hdr, peer5, false) }
    (((fixS f).ptn 1).fix.copies.find? fun c => c.partner = false).isSome && ((fixS f).ptn 1).fix.restore.isSome && ((fixS f).ptn 1).fix.hello.isSome) = true := by decide +kernel
/-- The open SOURCE command of partition 1 waits for HELLO_ACK. -/
def runFix (f : FixP) : State := { netS { runPtn with fix := { f with ports := 1 } } with mem := { granKey := [(0, some (1, 5))] }, pins := { feedId := 1 } }
theorem test_hello_timeout : left (exec (.helloTimeout 1) (runFix { hello := some (hdr, peer5, false) })) sent = some [(1, 1)] := by decide +kernel

/-- A partition that holds for partition 2 of node 5. -/
def holdA : AreaRole := { src := peer5, addr := 0x10000000000, bytes := 0x80000000 }
theorem test_meets_HoldPackets : roleOf (some holdA) gQ = some holdA ∧ roleOf none gQ = none ∧ pktTag gQ ∉ (holdA.start gQ.xfer).seen ∧ ((runFix {}).qp 0).st = 2 ∧ (runFix {}).roleWaits gQ true = false ∧ (runFix {}).roleWaits gQ false = false ∧
    ([true, false].all fun b => !(runFix {}).noSlot 1 (State.roleRoom b (holdA.start gQ.xfer)).1 1) = true := by decide +kernel
theorem test_meets_CkRead : (let a : AreaRole := { holdA with half1 := { num := 3, total := 64, complete := true } }
    (a.half 3).complete = true ∧ (a.half 3).num = 3 ∧ isOk ((runFix { hold := some a }).pRead 1 (Who.fixer.via 0) (a.base 3 + 8) 8).2 = true ∧ (runFix { hold := some a }).noSlot 1 (a.base 3 + 8) 8 = false ∧ 8 + 8 ≤ (a.half 3).total) := by decide +kernel
theorem test_ck_data_dropped : left (exec (.ckData 0 gQ [1]) (runFix {})) (fun s => (s.qp 0).dropped) = some 1 := by decide +kernel
theorem test_hello : [none, some holdA].map (fun a => left (exec (.hello 0 gQ 2 64) (runFix { hold := a })) fun s => ((s.qp 0).flight ++ (s.qp 0).queue).map fun k => (k.kind, (k.payload.drop 4).take 4)) =
    [some [(0x26, [3, 0, 0, 0])], some [(0x26, [0, 0, 0, 0])]] := by decide +kernel
theorem test_meets_HelloAck : ((runFix { hello := some (hdr, peer5, false) }).ptn 1).fix.hello = some (hdr, peer5, false) ∧ peer5.node = gQ.srcNode ∧ peer5.ptn = gQ.srcPtn ∧ (2 : BitVec 4) ≠ 1 := by decide +kernel
/-- The peer's feed is 2 and ours is 1: independent. The same feed fails without OVERRIDE. -/
theorem test_hello_ack : [(2, false), (1, false), (1, true)].map (fun (e : BitVec 4 × Bool) => left (exec (.helloAck 0 gQ e.1 0 64) (runFix { hello := some (hdr, peer5, e.2) })) fun s =>
    ((s.ptn 1).fix.partner.valid, (s.ptn 1).fix.partner.nonIndep)) = [some (true, false), some (false, false), some (true, true)] := by decide +kernel
theorem test_meets_Acks : (((runFix { copies := [{ hdr := hdr, num := 3, dest := peer5, partner := true }] }).ptn 1).fix.copies.find? fun c => c.num = 3 && c.dest.node = 5 && (!c.partner || c.dest.ptn = 2)).isSome = true ∧
    ((runFix { ship := some { dest := peer5 } }).ptn 1).fix.ship.isSome = true ∧ ((runFix {}).ptn 1).fix.hello = none ∧ ((runFix {}).ptn 1).fix.ship = none ∧ ((runFix {}).ptn 1).fix.restore = none := by decide +kernel
theorem test_ck_ack : left (exec (.ckAck 0 gQ 3 0 []) (runFix { copies := [{ hdr := hdr, num := 3, dest := peer5, partner := true }] })) (fun s => ((s.ptn 1).fix.lastDurable, (s.ptn 1).fix.acked)) = some (3, 2) := by decide +kernel
theorem test_neg_ack : left (exec (.negAck 0 gQ 1) (runFix { ship := some { hdr := hdr, dest := peer5 } })) (fun s => ((s.ptn 1).fix.ship.isSome, (s.up 0).unacked.map (·.status))) = some (false, [1]) := by decide +kernel
theorem test_meets_CkRdata : (let r : Restore := { hdr := hdr, source := store, num := 3 }
    ((runFix { restore := some r }).ptn 1).fix.restore = some r ∧ r.source.node = gQ.srcNode ∧ r.source.kind ≠ 1 ∧ gQ.offset.toNat + [(0 : Byte)].length ≤ r.want) := by decide +kernel
/-- A header that is none: E_IMAGE once its 160 bytes are in. -/
theorem test_ck_rdata : left (exec (.ckRdata 0 gQ (List.replicate 160 7)) (runFix { restore := some { hdr := hdr, source := store, num := 3 } })) (fun s => (s.ptn 1).fix.restore.isSome) = some false := by decide +kernel

end Sys2Proof.Tests
end

section
/-! PROOFS. The register map: what an address names, who may reach it, what a write of each register does where the rules allow it and where they turn it away, and the statements about registers and the I3C target that follow. -/

namespace Sys2Proof.Machine

/-! ## Addresses (R229) -/

theorem blkIn_instance {base stride n i o : Nat} (hi : i < n) (ho : o < stride) : blkIn (base + stride * i + o) base stride n = some (i, o) := by
  have hs : stride * i + stride ≤ stride * n := by
    rw [← Nat.mul_succ]; exact Nat.mul_le_mul_left _ hi
  unfold blkIn
  rw [if_pos ⟨by omega, by omega⟩, show base + stride * i + o - base = o + stride * i by omega,
    Nat.add_mul_div_left _ _ (by omega), Nat.add_mul_mod_self_left, Nat.div_eq_of_lt ho, Nat.mod_eq_of_lt ho, Nat.zero_add]

theorem blkIn_outside {a base stride n : Nat} (h : a < base ∨ base + stride * n ≤ a) : blkIn a base stride n = none :=
  if_neg (by omega)

theorem ptnAddr_toNat (p : PtnId) {off : Nat} (ho : off < 0x10000) : (ptnAddr p off).toNat = 0xF0000100000 + 0x10000 * p.val + off := by
  have hp := p.isLt
  rw [ptnAddr, BitVec.toNat_ofNat, Nat.mod_eq_of_lt (by omega)]

theorem qlnkAddr_toNat (k : QpId) {off : Nat} (ho : off < 0x1000) : (qlnkAddr k off).toNat = 0xF0005000000 + 0x1000 * k.val + off := by
  have hk := k.isLt
  rw [qlnkAddr, BitVec.toNat_ofNat, Nat.mod_eq_of_lt (by omega)]

theorem regBlock_ptnAddr (p : PtnId) {off : Nat} (ho : off < 0x10000) : regBlock (ptnAddr p off).toNat = some (.ptn p, off) := by
  have hp := p.isLt
  rw [ptnAddr_toNat p ho, regBlock, blkIn_outside (by omega), blkIn_instance hp ho]
  simp only [Fin.ofNat_val_eq_self]

theorem regBlock_qlnkAddr (k : QpId) {off : Nat} (ho : off < 0x1000) : regBlock (qlnkAddr k off).toNat = some (.qlnk k, off) := by
  have hk := k.isLt
  rw [qlnkAddr_toNat k ho, regBlock, blkIn_outside (by omega), blkIn_outside (by omega), blkIn_outside (by omega),
    blkIn_outside (by omega), blkIn_outside (by omega), blkIn_outside (by omega), blkIn_instance hk ho]
  simp only [Fin.ofNat_val_eq_self]

theorem uapRst_toNat (k : UpId) : (BitVec.ofNat 64 (0xF0006000008 + 0x1000 * k.val)).toNat = 0xF0006000008 + 0x1000 * k.val := by
  have hk := k.isLt
  rw [BitVec.toNat_ofNat, Nat.mod_eq_of_lt (by omega)]

theorem regBlock_uapRst (k : UpId) : regBlock (BitVec.ofNat 64 (0xF0006000008 + 0x1000 * k.val)).toNat = some (.uap k, 8) := by
  rw [uapRst_toNat]
  fin_cases k <;> rfl

theorem regBlock_modMemCfg : regBlock (0xF0000000400 : W64).toNat = some (.mod, 0x400) := by decide +kernel
theorem regBlock_modSharedLabel : regBlock (0xF0000000408 : W64).toNat = some (.mod, 0x408) := by decide +kernel
theorem regBlock_modFabric : regBlock (0xF0000000500 : W64).toNat = some (.mod, 0x500) := by decide +kernel
theorem regBlock_pwrCfg : regBlock (0xF0000020010 : W64).toNat = some (.pwr, 0x10) := by decide +kernel
theorem regBlock_pwrWakeQp : regBlock (0xF0000020018 : W64).toNat = some (.pwr, 0x18) := by decide +kernel
theorem regBlock_safStatus : regBlock (0xF0000040000 : W64).toNat = some (.saf, 0) := by decide +kernel

theorem regIdx_instance {o n i : Nat} (hi : i < n) : regIdx (o + 8 * i) o n = some i := by
  rw [regIdx, if_pos ⟨by omega, by omega⟩, Nat.add_sub_cancel_left, Nat.mul_div_cancel_left _ (by omega)]

theorem regIdx_outside {off o n : Nat} (h : off < o ∨ o + 8 * n ≤ off) : regIdx off o n = none := if_neg (by omega)

/-! ## Who may reach what (R329) -/

/-- The second condition of R329: what an access that its sender may make answers. -/
def alignment (a : Nat) : Option Status := if a % 8 = 0 then none else some St.eAlign

/-- The blocks that a partition's commands may reach, and whether to read or to write. -/
def State.ptnReaches (s : State) (h : Hdr) (write : Bool) : Blk → Bool
  | .ptn p => p = h.ptn
  | .sec => !write
  | .mc n => !write && bitAt (s.ptn h.ptn).cgs.toNat (n / 8)
  | .te n => !write && bitAt (s.ptn h.ptn).cgs.toNat (n / 2)
  | _ => false

theorem firstBroken_eq (ok : Bool) (a : Nat) :
    (if !ok then some St.eAccess else if a % 8 ≠ 0 then some St.eAlign else none) = if ok then alignment a else some St.eAccess := by
  cases ok <;> simp [alignment]

section Access
variable {s u : State} {h : Hdr} {a : Nat} {w : Bool} {b : Blk} {o : Nat}

theorem regBad_outside (hb : regBlock a = none) : s.regBad h a w = some St.eAccess := by
  rw [State.regBad, hb]

theorem regBad_inside (hb : regBlock a = some (b, o)) :
    s.regBad h a w = if h.steward || s.ptnReaches h w b then alignment a else some St.eAccess := by
  rw [State.regBad, hb]
  cases b <;> exact firstBroken_eq _ a

theorem regBad_steward (hb : regBlock a = some (b, o)) (hs : h.steward = true) : s.regBad h a w = alignment a := by
  rw [regBad_inside hb, hs, Bool.true_or, if_pos rfl]

theorem regBad_reached (hb : regBlock a = some (b, o)) (hr : s.ptnReaches h w b = true) : s.regBad h a w = alignment a := by
  rw [regBad_inside hb, hr, Bool.or_true, if_pos rfl]

theorem regBad_unreached (hb : regBlock a = some (b, o)) (hs : h.steward = false) (hr : s.ptnReaches h w b = false) :
    s.regBad h a w = some St.eAccess := by
  rw [regBad_inside hb, hs, hr]; rfl

/-- A unit of a partition's core groups: its partition reads it, and writes it never. -/
theorem regBad_unit {held : Bool} (hb : regBlock a = some (b, o)) (hs : h.steward = false) (hr : s.ptnReaches h w b = (!w && held)) :
    s.regBad h a w = if w = true ∨ held = false then some St.eAccess else alignment a := by
  rw [regBad_inside hb, hs, hr]
  cases w <;> cases held <;> rfl

theorem alignment_of_dvd (ha : a % 8 = 0) : alignment a = none := if_pos ha

/-! ## REG_READ and REG_WRITE -/

theorem regRead_run (hu : s.runsNow h 0x110 = some u) (addrs : List W64) :
    exec (.regRead h addrs) s = .next (u.replied h
      (addrs.map fun a => match u.regBad h a.toNat false with | some c => failedItem c | none => doneItem)
      (addrs.flatMap fun a => leBytes 8 (if (u.regBad h a.toNat false).isSome then 0 else (u.peek a.toNat).toNat))) := by
  show Host.Outcome.next (s.atOnce h 0x110 _) = _
  rw [atOnce_run hu]
  simp only [List.map_map, List.flatMap_map]
  rfl

theorem regWrite_run (hu : s.runsNow h 0x111 = some u) (ws : List (W64 × RegVal)) :
    s.regWrite h ws = (regPuts h ws u).1.replied h (regPuts h ws u).2 [] := atOnce_run hu

/-- A write that breaks no condition of R329 is the write of the register its address names. -/
theorem regPut_admitted {a : W64} (hb : s.regBad h a.toNat true = none) (hk : regBlock a.toNat = some (b, o)) (x : RegVal) :
    s.regPut h a x = s.putBlk b o h.expert x := by
  rw [State.regPut, hb, hk]

theorem regPut_turnedAway {a : W64} {c : Status} (hb : s.regBad h a.toNat true = some c) (x : RegVal) : s.regPut h a x = (s, some c) := by
  rw [State.regPut, hb]

/-- A REG_WRITE of one register does what that register's write does. -/
theorem regWrite_one {a : W64} (hu : s.runsNow h 0x111 = some u) (hb : u.regBad h a.toNat true = none) (hk : regBlock a.toNat = some (b, o)) (x : RegVal) :
    s.regWrite h [(a, x)] = (u.putBlk b o h.expert x).1.replied h
      [match (u.putBlk b o h.expert x).2 with | some c => failedItem c | none => doneItem] [] := by
  rw [regWrite_run hu, ← regPut_admitted hb hk]
  rfl

/-- The steward's write of one register that the register allows. -/
theorem regWrite_steward {a : W64} {x : RegVal} {t : State} (hu : s.runsNow h 0x111 = some u) (hs : h.steward = true)
    (hk : regBlock a.toNat = some (b, o)) (ha : a.toNat % 8 = 0) (hput : u.putBlk b o h.expert x = (t, none)) :
    (.next (s.regWrite h [(a, x)]) : Res State) = .next (t.replied h [doneItem] []) := by
  rw [regWrite_one hu ((regBad_steward hk hs).trans (alignment_of_dvd ha)) hk, hput]

/-- A write of one register of a partition's block, by the steward or by the partition, that the register allows. -/
theorem regWrite_ptn {p : PtnId} {off : Nat} {x : RegVal} {t : State} (hu : s.runsNow h 0x111 = some u) (hr : h.steward = true ∨ p = h.ptn)
    (ho : off < 0x10000) (ha : off % 8 = 0) (hput : u.putPtn p h.expert off x.v.toNat (x.anew.getLsbD 0) = (t, none)) :
    (.next (s.regWrite h [(ptnAddr p off, x)]) : Res State) = .next (t.replied h [doneItem] []) := by
  have hk := regBlock_ptnAddr p ho
  have hal : alignment (ptnAddr p off).toNat = none := alignment_of_dvd (by rw [ptnAddr_toNat p ho]; omega)
  have hb : u.regBad h (ptnAddr p off).toNat true = none := by
    rcases hr with hs | rfl
    · exact (regBad_steward hk hs).trans hal
    · exact (regBad_reached hk (decide_eq_true rfl)).trans hal
  rw [regWrite_one hu hb hk]
  simp only [State.putBlk, hput]

/-- The steward's write of one register of a Qorea port's block that the register allows. -/
theorem regWrite_qlnk {k : QpId} {off : Nat} {x : RegVal} {t : State} (hu : s.runsNow h 0x111 = some u) (hs : h.steward = true)
    (ho : off < 0x1000) (ha : off % 8 = 0) (hput : u.putQlnk k off x.v.toNat = (t, none)) :
    (.next (s.regWrite h [(qlnkAddr k off, x)]) : Res State) = .next (t.replied h [doneItem] []) :=
  regWrite_steward hu hs (regBlock_qlnkAddr k ho) (by rw [qlnkAddr_toNat k ho]; omega) hput

end Access

namespace State

/-! ## Registers of a partition's block: which offset is which -/

section Offsets
variable (s : State) (p : PtnId) (e : Bool) (v : Nat)

theorem putPtn_qCfg (q : QueueId) (a : Bool) : s.putPtn p e (0x108 + 8 * q.val) v a = s.putQCfg p q v := by
  have hq := q.isLt
  unfold putPtn
  split
  case h_10 => rw [regIdx_instance hq]; simp only [Fin.ofNat_val_eq_self]
  all_goals omega

theorem putPtn_sem (m : SemId) (a : Bool) : s.putPtn p e (0x2000 + 8 * m.val) v a = s.putSem p m e v a := by
  have hm := m.isLt
  unfold putPtn
  split
  case h_10 => rw [regIdx_outside (by omega), regIdx_instance hm]; simp only [Fin.ofNat_val_eq_self]
  all_goals omega

/-- Offsets of the writable registers of a partition's block that stand alone. -/
def ptnWritable : List Nat := [0x100, 0x208, 0x210, 0x300, 0x308, 0x310, 0x318, 0x328, 0x448]

theorem putPtn_readOnly {off : Nat} (h : off ∉ ptnWritable) (hq : regIdx off 0x108 8 = none) (hs : regIdx off 0x2000 256 = none) (a : Bool) :
    s.putPtn p e off v a = (s, none) := by
  unfold putPtn
  split
  case h_10 => rw [hq, hs]
  all_goals exact absurd (by decide) h

/-- Offsets of the registers of a partition's block that only read and stand alone (R7). -/
def ptnReadOnly : List Nat := [0x000, 0x008, 0x200, 0x218, 0x220, 0x320, 0x330, 0x440, 0x460, 0x468, 0x470, 0x478, 0x480]

theorem ptnReadOnly_not_writable : ∀ off ∈ ptnReadOnly, off ∉ ptnWritable ∧ regIdx off 0x108 8 = none ∧ regIdx off 0x2000 256 = none := by
  decide

theorem putBlk_srSeed (w : RegVal) : s.putBlk (.ptn p) 0x308 e w = (s.updPtn p fun x => { x with srSeed := w.v }, none) := by
  show (s.updPtn p fun x => { x with srSeed := BitVec.ofNat 64 w.v.toNat }, none) = _
  rw [BitVec.ofNat_toNat, BitVec.setWidth_eq]

/-! ## Registers of a port's block -/

theorem putQlnk_res (k : QpId) : s.putQlnk k (0x100 + 8 * p.val) v = s.putRes k p v := by
  have hp := p.isLt
  unfold putQlnk
  split
  case h_3 => rw [regIdx_instance hp]; simp only [Fin.ofNat_val_eq_self]
  all_goals omega

theorem putQlnk_route (k : QpId) (i : Fin 128) : s.putQlnk k (0x800 + 8 * i.val) v = s.putRoute k i.val v := by
  have hi := i.isLt
  unfold putQlnk
  split
  case h_3 => rw [regIdx_outside (by omega), regIdx_instance hi]
  all_goals omega

theorem putBlk_fixPorts (w : RegVal) : s.putBlk .fix (0x100 + 8 * p.val) e w =
    (s.updPtn p fun x => { x with fix := { x.fix with ports := BitVec.ofNat 48 w.v.toNat } }, none) := by
  simp only [putBlk, regIdx_instance p.isLt, Fin.ofNat_val_eq_self]

end Offsets

/-! ## What each write does where the rules allow it -/

section Writes
variable {s : State} {p : PtnId} {q : QueueId} {m : SemId} {k : QpId} {t : Trainer} {e a : Bool} {v : Nat}

theorem putNumMode_admitted (h : bits v 1 2 ≠ 1 ∨ e = true ∨ (s.ptn p).numMode.rnd = 1) :
    s.putNumMode p e v = (s.updPtn p fun y => { y with numMode := {
      sat := bitAt v 0, rnd := if bits v 1 2 ≥ 2 then (s.ptn p).numMode.rnd else BitVec.ofNat 2 (bits v 1 2)
      smode := if bits v 8 2 = 3 then (s.ptn p).numMode.smode else BitVec.ofNat 2 (bits v 8 2), given := BitVec.ofNat 8 (bits v 16 8) } }, none) := by
  have notDenied : (decide (bits v 1 2 = 1) && !e && decide ((s.ptn p).numMode.rnd ≠ 1)) = false := by
    rcases h with h | h | h <;> simp [h]
  simp only [putNumMode, notDenied, Bool.or_false, decide_eq_true_eq, Bool.false_eq_true, if_false]

theorem putTrainer_admitted (hm : (s.ptn p).train.mbs = []) (he : ({ s.ptn p with train := t } : Ptn).ergFits 0 = true)
    (hs : ({ s.ptn p with train := t } : Ptn).spillFits = true) :
    s.putTrainer p t = (s.updPtn p fun y => Ptn.trim { y with train := t } 0, none) := by
  simp only [putTrainer, hm, he, hs, List.isEmpty_nil, Bool.not_true, Bool.or_self, Bool.false_eq_true, if_false]

theorem putTrainer_busy (hm : (s.ptn p).train.mbs ≠ []) : s.putTrainer p t = (s, some St.eBusy) := by
  rw [putTrainer, List.isEmpty_eq_false_iff.mpr hm]; rfl

theorem putStashCfg_small (hv : bits v 0 16 ≤ 16384) : s.putStashCfg p v = s.putTrainer p { (s.ptn p).train with
    stashMib := BitVec.ofNat 16 (bits v 0 16), spillGib := BitVec.ofNat 11 (bits v 32 11), stashQ6 := bitAt v 48 } := by
  simp only [putStashCfg, decide_eq_false (Nat.not_lt.mpr hv), Bool.false_and, Bool.false_eq_true, if_false]

theorem putStashCfg_busy (hm : (s.ptn p).train.mbs ≠ []) : s.putStashCfg p v = (s, some St.eBusy) := by
  simp only [putStashCfg, List.isEmpty_eq_false_iff.mpr hm, Bool.and_false, Bool.false_eq_true, if_false, putTrainer_busy hm]

/-- The enable bits after a write of queue q's Q_CFG (R288). -/
def qEnableAfter (x : Byte) (q : QueueId) (on : Bool) : Byte :=
  if on then x ||| BitVec.ofNat 8 (2 ^ q.val) else x &&& ~~~BitVec.ofNat 8 (2 ^ q.val)

theorem putQCfg_admitted
    (hoff : bitAt v 24 = false → bitAt (s.ptn p).qEnable.toNat q = true → ∀ c ∈ (s.ptn p).flow.cmds, c.hdr.queue = q → c.immediate = true)
    (hon : bitAt v 24 = true → bitAt (s.ptn p).qEnable.toNat q = false →
      Ptn.ergFits { s.ptn p with qEnable := qEnableAfter (s.ptn p).qEnable q (bitAt v 24) } 0 = true) :
    s.putQCfg p q v = (s.updPtn p fun y => Ptn.updJob (Ptn.trim { y with qEnable := qEnableAfter (s.ptn p).qEnable q (bitAt v 24) } 0) q
      fun j => { j with cfg := some (BitVec.ofNat 16 (bits v 0 16), BitVec.ofNat 6 (bits v 16 6)) }, none) := by
  have noneQueued : (!bitAt v 24 && bitAt (s.ptn p).qEnable.toNat q && (s.ptn p).flow.cmds.any fun c => decide (c.hdr.queue = q) && !c.immediate) = false := by
    refine Bool.eq_false_iff.mpr fun hbusy => ?_
    simp only [Bool.and_eq_true, Bool.not_eq_true', List.any_eq_true, decide_eq_true_eq] at hbusy
    obtain ⟨⟨hv, hen⟩, c, hc, hq, himm⟩ := hbusy
    exact absurd (hoff hv hen c hc hq) (Bool.eq_false_iff.mp himm)
  have areasFree : (bitAt v 24 && !bitAt (s.ptn p).qEnable.toNat q && !Ptn.ergFits { s.ptn p with qEnable := qEnableAfter (s.ptn p).qEnable q (bitAt v 24) } 0) = false := by
    refine Bool.eq_false_iff.mpr fun hfull => ?_
    simp only [Bool.and_eq_true, Bool.not_eq_true'] at hfull
    obtain ⟨⟨hv, hen⟩, hno⟩ := hfull
    exact Bool.eq_false_iff.mp hno (hon hv hen)
  simp only [qEnableAfter] at areasFree ⊢
  simp only [putQCfg, noneQueued, areasFree, Bool.false_eq_true, if_false]

theorem putSchedCfg_admitted (hv : 100 ≤ bits v 0 16) :
    s.putSchedCfg p v = (s.updPtn p fun y => { y with sliceUs := BitVec.ofNat 16 (bits v 0 16) }, none) := if_neg (Nat.not_lt.mpr hv)

theorem putServeCfg_admitted (hms : bits v 0 13 ≤ 4096) (hch : 1 ≤ bits v 16 6) (hch' : bits v 16 6 ≤ 32)
    (hdi : bits v 48 4 ≤ min (bits v 52 4) 8) :
    s.putServeCfg p v = (s.updPtn p fun y => { y with serve := { y.serve with
      maxStreams := BitVec.ofNat 13 (bits v 0 13), chunkMax := BitVec.ofNat 6 (bits v 16 6), slackUs := BitVec.ofNat 12 (bits v 32 12)
      depthInit := BitVec.ofNat 4 (bits v 48 4), depthMax := BitVec.ofNat 4 (min (bits v 52 4) 8) } }, none) := by
  simp only [putServeCfg, gt_iff_lt, Nat.not_lt.mpr hms, Nat.not_lt.mpr hch', Nat.not_lt.mpr hdi, Nat.ne_of_gt hch,
    decide_false, Bool.or_self, Bool.false_eq_true, if_false]

theorem putReplyCfg_admitted (hv : bits v 0 2 ≠ 3) :
    s.putReplyCfg p v = (s.updFlow p fun f => { f with eventPort := BitVec.ofNat 2 (bits v 0 2) }, none) := if_neg hv

theorem putMemSlots_admitted (he : e = true) (hsum : bits v 0 8 + s.slotSum (some p) ≤ 224) (hfix : bits v 8 8 ≤ bits v 0 8) :
    s.putMemSlots p e v = (s.updPMem p fun m => { m with
      dataSlots := BitVec.ofNat 8 (bits v 0 8), fixSlots := BitVec.ofNat 8 (bits v 8 8), lend := bitAt v 24, borrow := bitAt v 25 }, none) := by
  simp only [putMemSlots, he, decide_eq_false (Nat.not_lt.mpr hsum), decide_eq_false (Nat.not_lt.mpr hfix), Bool.not_true, Bool.or_self, Bool.false_eq_true, if_false]

/-- Only what a semaphore update makes of the semaphore that stands counts. -/
theorem updSem_congr {f g : Sem → Sem} (h : f (s.sem p m) = g (s.sem p m)) : s.updSem p m f = s.updSem p m g := by
  have hj : ({ s.ptn p with sems := (s.ptn p).sems.upd {} m f } : Ptn) = { s.ptn p with sems := (s.ptn p).sems.upd {} m g } := by
    unfold Tab.upd; rw [show f ((s.ptn p).sems.get {} m) = g ((s.ptn p).sems.get {} m) from h]
  show ({ s with ptns := Tab.put {} s.ptns p _ } : State) = { s with ptns := Tab.put {} s.ptns p _ }
  exact congrArg (fun x => ({ s with ptns := Tab.put {} s.ptns p x } : State)) hj

theorem putSem_standing (h : bits v 0 32 = (s.sem p m).count.toNat) :
    s.putSem p m e v a = (s.updSem p m fun z => { z with ovf := z.ovf && !bitAt v 48 || a }, none) := if_pos h

theorem putSem_expert (he : e = true) (hw : (s.sem p m).waiters = []) :
    s.putSem p m e v a = (s.updSem p m fun z => { z with ovf := z.ovf && !bitAt v 48 || a, count := BitVec.ofNat 32 (bits v 0 32) }, none) := by
  by_cases h : bits v 0 32 = (s.sem p m).count.toNat
  · rw [putSem_standing h, updSem_congr]
    rw [h, BitVec.ofNat_toNat, BitVec.setWidth_eq]
  · simp only [putSem, h, he, hw, List.isEmpty_nil, Bool.not_true, Bool.false_eq_true, if_false]

theorem putMemCfg_admitted (he : e = true ∨ bitAt v 32 = s.mod.lendEn)
    (hslots : bits v 24 8 + (s.slotSum none - s.mod.sharedSlots.toNat) ≤ 224)
    (hmove : bits v 0 11 ≠ s.mod.base.toNat ∨ bits v 11 11 ≠ s.mod.gib.toNat → bits v 0 11 + bits v 11 11 ≤ 1120 ∧ s.mod.state = 0 ∧
      ∀ (p : PtnId) x, x ∈ (s.ptn p).mem.wins → x.2.valid = true → x.2.shared = false →
        ¬(bits v 0 11 ≤ x.2.dev.toNat ∧ x.2.dev.toNat < bits v 0 11 + bits v 11 11)) :
    s.putMemCfg e v = (State.reshare { s with mod := { s.mod with
      base := BitVec.ofNat 11 (bits v 0 11), gib := BitVec.ofNat 11 (bits v 11 11), sharedSlots := BitVec.ofNat 8 (bits v 24 8), lendEn := bitAt v 32 } }, none) := by
  have allowed : (!e && decide (bitAt v 32 ≠ s.mod.lendEn)) = false := by
    rcases he with h | h <;> simp [h]
  unfold putMemCfg
  dsimp only
  rw [if_neg, if_neg, if_neg (Nat.not_lt.mpr hslots), allowed]
  · rfl
  · intro h
    simp only [Bool.and_eq_true, Bool.or_eq_true, decide_eq_true_eq] at h
    have := (hmove h.1).1
    omega
  · intro h
    simp only [Bool.and_eq_true, Bool.or_eq_true, decide_eq_true_eq, List.any_eq_true, List.mem_flatMap, List.mem_map, List.mem_filter, Bool.not_eq_true'] at h
    obtain ⟨moved, hst | ⟨_, ⟨p, _, x, ⟨hx, hval, hsh⟩, rfl⟩, hin⟩⟩ := h
    · exact hst (hmove moved).2.1
    · exact (hmove moved).2.2 p x hx hval hsh hin

theorem putSharedLabel_empty (h : s.mod.state = 0) :
    s.putSharedLabel v = ({ s with mod := { s.mod with label := BitVec.ofNat 64 v } }, none) := if_neg (not_not.mpr h)

theorem ofNat_bits_node (v : Nat) : BitVec.ofNat 13 (bits v 0 13) = 0x1FFF ↔ bits v 0 13 = 0x1FFF := by
  have h : bits v 0 13 < 2 ^ 13 := Nat.mod_lt _ (by decide)
  rw [← BitVec.toNat_inj, BitVec.toNat_ofNat, Nat.mod_eq_of_lt h]
  rfl

theorem putFabric_unset (h : bits v 0 13 = 0x1FFF) :
    s.putFabric v = ({ s with mod := { s.mod with node := BitVec.ofNat 13 (bits v 0 13) } }, none) :=
  congrArg (·, none) (if_pos ((ofNat_bits_node v).mpr h))

theorem putFabric_set (h : bits v 0 13 ≠ 0x1FFF) :
    s.putFabric v = ((qpIds.foldl (fun (w : State) k => w.updQp k fun x => { x with atStep4 := false })
      ({ s with mod := { s.mod with node := BitVec.ofNat 13 (bits v 0 13) } } : State)).drainQps, none) :=
  congrArg (·, none) (if_neg (mt (ofNat_bits_node v).mp h))

theorem putQlnkCfg_eq : s.putQlnkCfg k v =
    (let z := s.updQp k fun x => { x with enable := bitAt v 0, degradeEn := bitAt v 1 }
     if bitAt v 0 = false then z.qpDown k 4 none else if (s.qp k).st = 0 then z.updQp k (·.retrain 1 0) else z, none) := by
  simp only [putQlnkCfg, Bool.not_eq_true']

/-- The two W1C bits that the row of SAF_STATUS carries are those the hardware sets (R8). -/
theorem safAnew_bits (nf na : Bool) : (BitVec.ofNat 2 (b2n nf + 2 * b2n na)).getLsbD 0 = nf ∧ (BitVec.ofNat 2 (b2n nf + 2 * b2n na)).getLsbD 1 = na := by
  cases nf <;> cases na <;> decide

theorem putBlk_safStatus (s : State) (e : Bool) (nf na : Bool) (x : W64) : s.putBlk .saf 0 e ⟨x, BitVec.ofNat 2 (b2n nf + 2 * b2n na)⟩ = s.putSafStatus x.toNat nf na := by
  obtain ⟨hf, ha⟩ := safAnew_bits nf na
  show s.putSafStatus _ _ _ = _
  rw [hf, ha]

theorem putRes_admitted
    (h : resFits ((s.qp k).res.put {} p (QRes.ofWord v)) ((List.range 32).filter fun c => (s.cgOwner c).isNone).length = true) :
    s.putRes k p v = ((s.updQp k fun x => { x with res := (s.qp k).res.put {} p (QRes.ofWord v) }).giveQp k [], none) := by
  simp only [putRes, h, Bool.not_true, Bool.false_eq_true, if_false]

/-! ## What the rules turn away, and registers that only read -/

theorem putSchedCfg_short (hv : bits v 0 16 < 100) : s.putSchedCfg p v = (s, some St.eParam) := if_pos hv

theorem putReplyCfg_reserved (hv : bits v 0 2 = 3) : s.putReplyCfg p v = (s, some St.eParam) := if_pos hv

theorem putMemSlots_outOfBounds (he : e = true) (h : bits v 0 8 + s.slotSum (some p) > 224 ∨ bits v 8 8 > bits v 0 8) :
    s.putMemSlots p e v = (s, some St.eSlots) := by
  simp only [putMemSlots, he, Bool.not_true, Bool.false_eq_true, if_false, Bool.or_eq_true, decide_eq_true_eq, if_pos h]

theorem putSharedLabel_inUse (h : s.mod.state ≠ 0) : s.putSharedLabel v = (s, some St.eSharedState) := if_pos h

theorem putRes_outOfBounds
    (h : resFits ((s.qp k).res.put {} p (QRes.ofWord v)) ((List.range 32).filter fun c => (s.cgOwner c).isNone).length = false) :
    s.putRes k p v = (s, some St.eParam) := by
  simp only [putRes, h, Bool.not_false, if_true]

/-- Another COUNT for a semaphore with waiters: E_BUSY, and only a post of the same cycle sets OVF (R8, R306). -/
theorem putSem_waiting (he : e = true) (hw : (s.sem p m).waiters ≠ [])
    (hc : bits v 0 32 ≠ (s.sem p m).count.toNat) :
    s.putSem p m e v a = (s.updSem p m fun z => { z with ovf := z.ovf || a }, some St.eBusy) := by
  simp only [putSem, hc, he, List.isEmpty_eq_false_iff.mpr hw, Bool.not_true, Bool.not_false, Bool.false_eq_true, if_false, if_true]

/-- An update that leaves no reset semaphore reads back. -/
theorem sem_updSem_same (f : Sem → Sem) (h : f (s.sem p m) ≠ {}) : (s.updSem p m f).sem p m = f (s.sem p m) := by
  have hput : ((s.ptn p).sems.upd {} m f).get {} m = f (s.sem p m) := Tab.get_put_eq _ _ _ h
  have hptn : (s.updSem p m f).ptn p = { s.ptn p with sems := (s.ptn p).sems.upd {} m f } := by
    refine ptn_updPtn_same s p _ fun hd => h ?_
    rw [← hput, show (s.ptn p).sems.upd {} m f = [] from congrArg Ptn.sems hd]; rfl
  rw [sem, hptn, hput]

end Writes

/-! ## The I3C target (R497) -/

section I3c
variable {s : State} (hs : s.phase ≠ .off)
include hs

theorem onI3c_powered (f : State → State) : s.onI3c f = .next (f s) := congrArg _ (if_neg hs)

theorem i3cRegRead_allowed {a : W64} (ha : s.i3cReadable a.toNat = true) :
    exec (.i3cRegRead a) s = .next { s with i3c := { s.i3c with read := leBytes 8 (s.peek a.toNat).toNat } } := by
  show execI3cRegRead a s = _
  rw [execI3cRegRead, onI3c_powered hs, if_pos ha]

theorem i3cRegRead_refused {a : W64} (ha : s.i3cReadable a.toNat = false) :
    exec (.i3cRegRead a) s = .next (s.i3cBad 8) := by
  show execI3cRegRead a s = _
  rw [execI3cRegRead, onI3c_powered hs, if_neg (Bool.eq_false_iff.mp ha)]

/-- A register that I3C may write is written as a basic-level REG_WRITE writes it. -/
theorem i3cRegWrite_allowed {a : W64} {b : Blk} {o : Nat} (hk : regBlock a.toNat = some (b, o))
    (hw : i3cWritable a.toNat = true) {w : RegVal} {t : State} {c : Option Status} (hput : s.putBlk b o false w = (t, c)) :
    exec (.i3cRegWrite a w) s = .next { t with i3c := { t.i3c with read := [] } } := by
  show execI3cRegWrite a w s = _
  rw [execI3cRegWrite, onI3c_powered hs, hk]
  dsimp only
  rw [if_pos hw, hput]

theorem i3cRegWrite_refused {a : W64} (hw : i3cWritable a.toNat = false) (w : RegVal) :
    exec (.i3cRegWrite a w) s = .next (s.i3cBad 0) := by
  show execI3cRegWrite a w s = _
  rw [execI3cRegWrite, onI3c_powered hs]
  cases regBlock a.toNat with
  | none => rfl
  | some e => dsimp only; rw [if_neg (Bool.eq_false_iff.mp hw)]

theorem i3cStatus_run : exec .i3cStatus s = .next { s with i3c := { s.i3c with
    err := false, read := [BitVec.ofNat 8 (b2n s.i3c.busy + 2 * b2n s.i3c.err + 4 * b2n s.i3c.owned)] } } := by
  show execI3cStatus s = _
  rw [execI3cStatus, onI3c_powered hs]

theorem takeAddr_free (hd : s.i3c.dyn = none) (d : BitVec 7) :
    s.takeAddr d = .next { s with i3c := { s.i3c with dyn := some d } } := by
  rw [takeAddr, onI3c_powered hs, hd]
  rfl

theorem takeAddr_held (hd : s.i3c.dyn ≠ none) (d : BitVec 7) : s.takeAddr d = .next s := by
  have hkeep : some (s.i3c.dyn.getD d) = s.i3c.dyn := by
    obtain ⟨x, hx⟩ := Option.ne_none_iff_exists'.mp hd
    rw [hx]; rfl
  rw [takeAddr, onI3c_powered hs, hkeep]

end I3c

end State
end Sys2Proof.Machine

/-! ## The statements -/

section
open Sys2Proof Sys2Proof.Machine Sys2Proof.Machine.State

/-- Settles O27: one inversion of R329's conditions gives every clause about who may reach what. -/
theorem registerReads : Obligations.RegisterReads := by
  refine ⟨fun s u h addrs hu => ⟨fun hok => ?_, regRead_run hu addrs⟩, fun s h a w => ⟨regBad_outside, ?_, ?_, ?_, ?_, ?_, ?_⟩⟩
  · rw [regRead_run hu addrs]
    congr 2
    · exact List.map_congr_left fun a ha => by rw [hok a ha]
    · exact List.flatMap_congr fun a ha => by rw [hok a ha]; rfl
  · exact fun b o hb hs => regBad_steward hb hs
  · intro p o hb hs
    by_cases hp : p = h.ptn
    · rw [if_neg (not_not.mpr hp)]; exact regBad_reached hb (decide_eq_true hp)
    · rw [if_pos hp]; exact regBad_unreached hb hs (decide_eq_false hp)
  · rintro b o hb hs (rfl | rfl | rfl | rfl | rfl | ⟨rfl, rfl⟩ | ⟨k, rfl⟩ | ⟨k, rfl⟩ | ⟨k, rfl⟩ | ⟨k, rfl⟩) <;> exact regBad_unreached hb hs rfl
  · exact fun o hb hs => regBad_reached hb rfl
  · exact fun n o hb hs => regBad_unit hb hs rfl
  · exact fun n o hb hs => regBad_unit hb hs rfl

/-- Settles O28: each row is a REG_WRITE of one register of the partition's block, which the register allows. -/
theorem partitionRegisters : Obligations.PartitionRegisters := by
  intro s u h p v hu hr
  refine ⟨fun hv => ?_, fun hm hv he hs => ?_, fun hm he hs => ?_, fun q hoff hon => ?_, fun hv => ?_, fun hms hch hch' hdi => ?_, fun hv => ?_,
    fun he hsum hfix => ?_, fun anew => ⟨fun m he hw => ?_, fun m hc => ?_, ?_⟩⟩
  · exact regWrite_ptn (off := 0x300) hu hr (by decide) rfl (putNumMode_admitted hv)
  · exact regWrite_ptn (off := 0x310) hu hr (by decide) rfl ((putStashCfg_small hv).trans (putTrainer_admitted hm he hs))
  · exact regWrite_ptn (off := 0x318) hu hr (by decide) rfl (putTrainer_admitted hm he hs)
  · exact regWrite_ptn hu hr (by omega) (by omega) ((putPtn_qCfg u p _ _ q _).trans (putQCfg_admitted hoff hon))
  · exact regWrite_ptn (off := 0x100) hu hr (by decide) rfl (putSchedCfg_admitted hv)
  · exact regWrite_ptn (off := 0x328) hu hr (by decide) rfl (putServeCfg_admitted hms hch hch' hdi)
  · exact regWrite_ptn (off := 0x448) hu hr (by decide) rfl (putReplyCfg_admitted hv)
  · exact regWrite_ptn (off := 0x210) hu hr (by decide) rfl (putMemSlots_admitted he hsum hfix)
  · exact regWrite_ptn hu hr (by omega) (by omega) ((putPtn_sem u p _ _ m _).trans (putSem_expert he hw))
  · exact regWrite_ptn hu hr (by omega) (by omega) ((putPtn_sem u p _ _ m _).trans (putSem_standing hc))
  · exact regWrite_ptn (off := 0x208) hu hr (by decide) rfl rfl

/-- Settles O29: each row is the steward's REG_WRITE of one register, which the register allows; the writes of a REG_WRITE follow one another. -/
theorem moduleRegisters : Obligations.ModuleRegisters := by
  refine ⟨?_, ?_, ?_, fun h s => rfl, fun h s w ws => rfl⟩
  · intro s u h v hu hs
    refine ⟨fun he hslots hmove => ?_, fun h0 => ?_, ⟨fun hn => ?_, fun hn => ?_⟩, fun k => ?_, fun k p hfit => ?_, fun k h0 => ?_, fun k h0 => ?_, ?_, fun nf na => ?_⟩
    · exact regWrite_steward hu hs regBlock_modMemCfg rfl (putMemCfg_admitted he hslots hmove)
    · refine regWrite_steward hu hs regBlock_modSharedLabel rfl ((putSharedLabel_empty h0).trans ?_)
      rw [BitVec.ofNat_toNat, BitVec.setWidth_eq]
    · exact regWrite_steward hu hs regBlock_modFabric rfl (putFabric_unset hn)
    · exact regWrite_steward hu hs regBlock_modFabric rfl (putFabric_set hn)
    · exact regWrite_qlnk (off := 0x10) hu hs (by decide) rfl putQlnkCfg_eq
    · exact regWrite_qlnk hu hs (by omega) (by omega) ((putQlnk_res u p _ k).trans (putRes_admitted hfit))
    · exact regWrite_qlnk (off := 0x18) hu hs (by decide) rfl (congrArg (·, none) (if_pos h0))
    · exact regWrite_steward hu hs (regBlock_uapRst k) (by rw [uapRst_toNat]; omega) (congrArg (·, none) (if_pos h0))
    · exact regWrite_steward hu hs regBlock_pwrCfg rfl rfl
    · exact regWrite_steward hu hs regBlock_safStatus rfl (putBlk_safStatus u _ nf na v)
  · exact fun s u h hu => ⟨fun a v b o hb hk => congrArg _ (regWrite_one hu hb hk _), fun ws => congrArg _ (regWrite_run hu ws)⟩
  · exact fun s w e => ⟨fun p => putBlk_srSeed s p e w, rfl, fun p => putBlk_fixPorts s p e w, fun k i => putQlnk_route s w.v.toNat k i⟩

/-- Settles O30: a refused access is not carried out, a register that turns a value away answers the state it had, and the other offsets write nothing. -/
theorem registersUnchanged : Obligations.RegistersUnchanged := by
  refine ⟨fun s h a w c hb => regPut_turnedAway hb w, ?_, ?_⟩
  · intro s p w e
    refine ⟨fun hm => ⟨putStashCfg_busy hm, putTrainer_busy hm⟩, putSchedCfg_short, putReplyCfg_reserved, putMemSlots_outOfBounds, fun m he hw hc ha => ?_,
      putSharedLabel_inUse, fun k hfit => (putQlnk_res s p _ k).trans (putRes_outOfBounds hfit)⟩
    have hput : s.putBlk (.ptn p) (0x2000 + 8 * m.val) e w = (s.updSem p m fun z => { z with ovf := z.ovf || w.anew.getLsbD 0 }, some St.eBusy) :=
      (putPtn_sem s p e _ m _).trans (putSem_waiting he hw hc)
    dsimp only
    rw [hput, ha]
    refine ⟨rfl, (sem_updSem_same _ fun hd => hw (congrArg Sem.waiters hd)).trans ?_⟩
    rw [Bool.or_false]
  · intro s off e w
    refine ⟨fun h => if_neg h, fun h1 h2 => (if_neg h1).trans (if_neg h2), fun h1 h2 h3 => (if_neg h1).trans ((if_neg h2).trans (if_neg h3)), ?_, fun p hoff => ?_⟩
    · rintro b (rfl | rfl | ⟨k, rfl⟩ | ⟨k, rfl⟩ | ⟨k, rfl⟩ | ⟨k, rfl⟩) <;> rfl
    · obtain ⟨hw, hq, hs⟩ := ptnReadOnly_not_writable off hoff
      exact putPtn_readOnly s p e _ hw hq hs _

/-- Settles O31: the target answers while its domain is powered, and its three writable registers are written as REG_WRITE writes them. -/
theorem i3cTarget : Obligations.I3cTarget := by
  intro s hs
  refine ⟨fun a ha => i3cRegRead_allowed hs ha, fun a ha => i3cRegRead_refused hs ha, fun w => ⟨?_, ?_, ?_, fun a ha => i3cRegWrite_refused hs ha w⟩,
    i3cStatus_run hs, fun d => ⟨fun hd => ?_, fun hd => ?_⟩⟩
  · exact i3cRegWrite_allowed hs regBlock_pwrCfg rfl rfl
  · exact i3cRegWrite_allowed hs regBlock_pwrWakeQp rfl rfl
  · exact i3cRegWrite_allowed hs regBlock_safStatus rfl rfl
  · exact ⟨takeAddr_free hs hd d, takeAddr_free hs hd d⟩
  · exact ⟨takeAddr_held hs hd d, takeAddr_held hs hd d⟩

end
end

section
/-! PROOFS. The faults that the module detects and the two Uapra links: what each event does in the states where it applies, said once for each event, and the two statements that follow. -/

namespace Sys2Proof.Machine
open State

/-! ## Missing heartbeats (R435) -/

namespace State

/-- The unit that a heartbeat event names. -/
def hungUnit (te : Bool) (m : McId) : Nat := if te then 256 + m.val % 64 else m.val

/-- The open items that unit u computes. -/
def computedBy (s : State) (u : Nat) : List Mark := ptnIds.flatMap fun p => (s.ptn p).flow.cmds.flatMap fun c =>
  ((List.range c.items.length).filter fun i => !(c.items.getD i {}).closed && decide (u ∈ (c.items.getD i {}).units)).map fun i =>
    { ptn := p, queue := c.hdr.queue, seq := c.hdr.seq, item := i }

/-- The items that a hung unit was computing fail. -/
def failComputed (s : State) (u : Nat) : State := (s.computedBy u).foldl (fun z k => z.closeItem k.hdr k.item (some (s.hangCode k u))) s

/-- The launches that run on a hung core. -/
def launchesOn (s : State) (te : Bool) (m : McId) : List Launch := s.launches.filter fun l => !te && s.onCores l && decide (m.val ∈ l.mcs)

/-- Launches halt; the items that fail with them join those of `a`. -/
def haltLaunches (a : State × List Mark) (ls : List Launch) : State × List Mark :=
  ls.foldl (fun a l => let h := a.1.haltLaunch l St.eHwFault; (h.1, a.2 ++ h.2)) a

/-- Requests fail; the items that fail with them join those of `a`. -/
def failReqs (a : State × List Mark) (rs : List TeWork) : State × List Mark :=
  rs.foldl (fun a w => match w.thread.bind fun t => a.1.launch? t.2 with
    | some l => let h := a.1.haltLaunch l St.eHwFault; (h.1, a.2 ++ h.2)
    | none => (a.1.closeItem w.hdr w.item (some St.eHwFault), a.2 ++ [{ ptn := w.ptn, queue := w.queue, seq := w.seq, item := w.item }])) a

def dropReqs (s : State) (te : Bool) (m : McId) : State := if te then s.updTe (m.val % 64) fun e => { e with reqs := [] } else s

/-- What fails with a hung unit: the items it computed, the launches on a core, the requests at an engine. -/
def failHung (s : State) (te : Bool) (m : McId) : State × List Mark :=
  let z := s.failComputed (hungUnit te m)
  let a := haltLaunches (z, s.computedBy (hungUnit te m)) (z.launchesOn te m)
  let w := if te then failReqs a (z.te (m.val % 64)).reqs else a
  (w.1.dropReqs te m, w.2)

/-- With no launch on the core and no request at the engine, only the items that the unit computed fail. -/
theorem failHung_atRest {s : State} {te : Bool} {m : McId} (hcore : (s.failComputed (hungUnit te m)).launchesOn te m = [])
    (hengine : te = true → ((s.failComputed (hungUnit te m)).te (m.val % 64)).reqs = []) :
    s.failHung te m = ((s.failComputed (hungUnit te m)).dropReqs te m, s.computedBy (hungUnit te m)) := by
  rw [failHung, hcore]
  cases te with
  | false => rfl
  | true => rw [hengine rfl]; rfl

/-- A hung unit becomes suspect and is retired, and its hang is recorded; `ms` are the items that failed with it. -/
def retireHung (s : State) (te : Bool) (m : McId) (stamp : W64) (ms : List Mark) : State :=
  let u := hungUnit te m
  let a := s.suspectAll u
  let t := a.1.retire u
  ((t.1.faultWith (t.1.unitRec u 6 2 (if te then 0x0602 else 0x0601) 0 stamp) (ms ++ a.2 ++ t.2)).endWaiters u (some St.eHwFault)).reportAll

theorem heartbeatMissed_serving {s : State} {te : Bool} {m : McId} {stamp : W64} (hserves : (unitStrip s (hungUnit te m)).retired = false)
    (hl0 : s.inL0 (cgOfUnit (hungUnit te m)) = true) :
    exec (.heartbeatMissed te m stamp) s = .next ((s.failHung te m).1.retireHung te m stamp (s.failHung te m).2) := by
  have hruns : ¬((unitStrip s (hungUnit te m)).retired || !s.inL0 (cgOfUnit (hungUnit te m))) = true := by simp [hserves, hl0]
  show execHeartbeatMissed te m stamp s = _
  rw [execHeartbeatMissed]
  refine congrArg _ ((if_neg hruns).trans ?_)
  simp only [retireHung, failHung]
  rfl

/-! ## Sequencer pairs and the steward's pair (R430, R431) -/

/-- The record of a sequencer pair's mismatch; `mask` names the partition where it is live. -/
def psRec (p : PtnId) (mask : W32) (stamp : W64) : FRec :=
  { cls := 2, severity := 2, unitKind := 3, die := BitVec.ofNat 8 (p.val / 8), unit := BitVec.ofNat 16 p.val, cause := 0x0201, ptnMask := mask, stamp := stamp }

/-- What waits for the record of a sequencer pair's mismatch: while the steward restarts, the partition's open items. -/
def heldByRestart (s : State) (p : PtnId) : List Mark := if s.saf.stewRestart then s.allOpen p else []

section Lockstep
variable {s : State} {p : PtnId} {stamp : W64} (hpair : bitAt s.saf.psRetired.toNat p.val = false)
include hpair

theorem psLockstepMismatch_free (hfree : (s.ptn p).st = 0) :
    exec (.psLockstepMismatch p stamp false) s = .next (s.faultWith (psRec p 0 stamp) (s.heldByRestart p)) := by
  show execPsLockstepMismatch p stamp false s = _
  simp only [execPsLockstepMismatch, hpair, hfree, ne_eq, not_true_eq_false, decide_false, Bool.false_eq_true, if_false]
  rfl

theorem psLockstepMismatch_live (hlive : (s.ptn p).st ≠ 0) (within1s : Bool) :
    let z := s.faultWith (psRec p (ptnBit p) stamp) (s.heldByRestart p)
    exec (.psLockstepMismatch p stamp within1s) s = .next
      (State.resetPtn (if within1s then { z with saf := { z.saf with psRetired := z.saf.psRetired ||| ptnBit p } } else z) p 0x11) := by
  show execPsLockstepMismatch p stamp within1s s = _
  simp only [execPsLockstepMismatch, hpair, hlive, ne_eq, not_false_eq_true, decide_true, Bool.false_eq_true, if_false, if_true]
  rfl

end Lockstep

/-- The steward's return with nothing deferred records nothing. -/
theorem stewardBack_nothing {s : State} (h : s.saf.deferred = []) :
    s.stewardBack = { s with saf := { s.saf with stewRestart := false, deferred := [] } } := by
  rw [stewardBack, h]
  rfl

section Steward
variable {s : State} {stamp : W64} (hready : s.phase = .ready)
include hready

theorem stewardLockstepMismatch_first : exec (.stewardLockstepMismatch stamp false) s = .next (State.recordFault { s with saf := { s.saf with stewRestart := true } }
    { cls := 2, severity := 2, unitKind := 4, die := 1, unit := 0, cause := 0x0202, stamp := stamp }) := by
  show execStewardLockstepMismatch stamp false s = _
  rw [execStewardLockstepMismatch, if_neg (not_not_intro hready)]
  rfl

theorem stewardLockstepMismatch_second : exec (.stewardLockstepMismatch stamp true) s = .next ((s.stewardBack.recordFault
    { cls := 2, severity := 2, unitKind := 4, die := 1, unit := 0, cause := 0x0202, stamp := stamp }).warmBegin 0x04 .none) := by
  show execStewardLockstepMismatch stamp true s = _
  rw [execStewardLockstepMismatch, if_neg (not_not_intro hready)]
  rfl

end Steward

/-! ## Descriptors and windows (R432, R434) -/

theorem failByFault_running {s : State} {p : PtnId} {q : QueueId} {c : CmdRec} (hc : s.running? p q = some c) (item : Nat) (r : FRec) :
    s.failByFault p q item r =
      (s.closeItem c.hdr item (some St.eHwFault)).faultWith r [{ ptn := p, queue := q, seq := c.hdr.seq, item := item }] := by
  rw [failByFault, hc]

/-! ## Links between dies (R18) -/

end State

def dieOfUnit (u : Nat) : Nat := if u < 256 then dieOfMc u else dieOfTe (u - 256)

/-- A unit of die d computes the item. -/
def Item.onDie (i : Item) (d : Nat) : Bool := i.units.any fun u => decide (dieOfUnit u = d)

/-- What holds on the lower and on the higher of two dies holds on both. -/
theorem onBothDies (f : Nat → Bool) (a b : Nat) : (f (min a b) && f (max a b)) = (f a && f b) := by
  rcases Nat.le_total a b with h | h
  · rw [Nat.min_eq_left h, Nat.max_eq_right h]
  · rw [Nat.min_eq_right h, Nat.max_eq_left h, Bool.and_comm]

namespace State

/-- The partitions in use with slices on both dies. -/
def linkPtns (s : State) (lo hi : Nat) : List PtnId := ptnIds.filter fun p => (s.ptn p).st ≠ 0 && s.spansDies p lo hi

/-- The open items of those partitions that units of both dies compute. -/
def linkMarks (s : State) (lo hi : Nat) : List Mark := (s.linkPtns lo hi).flatMap fun p => (s.ptn p).flow.cmds.flatMap fun c =>
  ((List.range c.items.length).filter fun i => !(c.items.getD i {}).closed && (c.items.getD i {}).onDie lo && (c.items.getD i {}).onDie hi).map fun i =>
    { ptn := p, queue := c.hdr.queue, seq := c.hdr.seq, item := i }

theorem mem_linkMarks (s : State) (a b : Nat) (m : Mark) : m ∈ s.linkMarks (min a b) (max a b) ↔
    m.ptn ∈ s.linkPtns (min a b) (max a b) ∧ m.event = none ∧ ∃ c ∈ (s.ptn m.ptn).flow.cmds, m.queue = c.hdr.queue ∧ m.seq = c.hdr.seq ∧
      m.item < c.items.length ∧ (c.items.getD m.item {}).closed = false ∧ (c.items.getD m.item {}).onDie a = true ∧ (c.items.getD m.item {}).onDie b = true := by
  simp only [linkMarks, List.mem_flatMap, List.mem_map, List.mem_filter, List.mem_range, Bool.and_assoc, onBothDies, Bool.and_eq_true, Bool.not_eq_true']
  constructor
  · rintro ⟨p, hp, c, hc, i, ⟨hi, hopen, ha, hb⟩, rfl⟩
    exact ⟨hp, rfl, c, hc, rfl, rfl, hi, hopen, ha, hb⟩
  · rintro ⟨hp, hevent, c, hc, hqueue, hseq, hi, hopen, ha, hb⟩
    refine ⟨m.ptn, hp, c, hc, m.item, ⟨hi, hopen, ha, hb⟩, ?_⟩
    cases m
    simp only at hevent hqueue hseq
    rw [hevent, hqueue, hseq]

section DieLink
variable {s : State} {a b : DieId} {stamp : W64}

/-- A link goes down once: its bit is set, the items across it fail, and one record names the partitions across it. -/
theorem dieLinkDown_up (hab : a ≠ b) (hup : bitAt s.dieLinks.toNat (4 * min a.val b.val + max a.val b.val) = false) :
    let k := 4 * min a.val b.val + max a.val b.val
    let ms := s.linkMarks (min a.val b.val) (max a.val b.val)
    exec (.dieLinkDown a b stamp) s = .next
      ((ms.foldl (fun z m => z.closeItem m.hdr m.item (some St.eLinkDown)) ({ s with dieLinks := s.dieLinks ||| BitVec.ofNat 16 (2 ^ k) } : State)).faultWith
        { cls := 4, severity := 2, unitKind := 7, die := BitVec.ofNat 8 a.val, unit := BitVec.ofNat 16 k, cause := 0x0401
          ptnMask := (s.linkPtns (min a.val b.val) (max a.val b.val)).foldl (fun m p => m ||| ptnBit p) 0, stamp := stamp } ms) := by
  show execDieLinkDown a b stamp s = _
  rw [execDieLinkDown]
  dsimp only
  rw [if_neg (by simp [hab, hup])]
  rfl

theorem dieLinkDown_same (h : a = b ∨ bitAt s.dieLinks.toNat (4 * min a.val b.val + max a.val b.val) = true) :
    exec (.dieLinkDown a b stamp) s = .next s :=
  congrArg _ (if_pos (by simpa using h))

end DieLink

/-! ## The patrol scrub (R263, R264) -/

/-- A change of the ECC counters of the group of slices or of the channel that a device address belongs to. -/
def updEcc (s : State) (d : Nat) (f : Ecc → Ecc) : State := s.updMem fun m =>
  if d < ergTop then { m with erg := m.erg.upd {} (d / sliceBytes / 64) f } else { m with memc := m.memc.upd {} (Mem.channel d) f }

/-- The end of a pass over the memory is counted where the scrub stands. -/
def countPass (s : State) (d : Nat) (pass : Bool) : State := if pass then s.updEcc d fun e => { e with passes := satInc e.passes } else s

section Scrub
variable {s : State} {addr : W64} {single pass : Bool} {stamp : W64}

theorem patrolScrub_outside (h : isMem (addr.toNat / 8 * 8) = false) (double : Bool) : exec (.patrolScrub addr double single pass stamp) s = .next s := by
  show execPatrolScrub addr double single pass stamp s = _
  rw [execPatrolScrub, if_pos (by rw [h]; rfl)]

variable (hmem : isMem (addr.toNat / 8 * 8) = true)
include hmem

theorem patrolScrub_inside (double : Bool) : let d := addr.toNat / 8 * 8
    let z := s.countPass d pass
    exec (.patrolScrub addr double single pass stamp) s = .next (
      if double || decide (d ∈ z.mem.ue) then (z.updMem fun m => { m with ue := insNat d m.ue }).noteUe (z.ownersOf d) d (some stamp)
      else if single then z.updEcc d fun e => { e with ce := satInc e.ce } else z) := by
  show execPatrolScrub addr double single pass stamp s = _
  rw [execPatrolScrub, if_neg (by rw [hmem]; exact Bool.false_ne_true)]
  rfl

theorem patrolScrub_double : let z := s.countPass (addr.toNat / 8 * 8) pass
    exec (.patrolScrub addr true single pass stamp) s = .next
      ((z.updMem fun m => { m with ue := insNat (addr.toNat / 8 * 8) m.ue }).noteUe (z.ownersOf (addr.toNat / 8 * 8)) (addr.toNat / 8 * 8) (some stamp)) :=
  patrolScrub_inside hmem true

/-- A word without an uncorrectable error: a single-bit error is counted. -/
theorem patrolScrub_correctable (hue : addr.toNat / 8 * 8 ∉ (s.countPass (addr.toNat / 8 * 8) pass).mem.ue) :
    exec (.patrolScrub addr false single pass stamp) s = .next (
      if single then (s.countPass (addr.toNat / 8 * 8) pass).updEcc (addr.toNat / 8 * 8) fun e => { e with ce := satInc e.ce }
      else s.countPass (addr.toNat / 8 * 8) pass) :=
  (patrolScrub_inside hmem false).trans (congrArg _ (if_neg (by simpa using hue)))

end Scrub

/-! ## Uapra links (R20, R312, R340, R341, R487) -/

section Uapra
variable {s : State} {k : UpId}

theorem uapraFrame_intact {f : LinkFrame} (hup : (s.up k).isUp = true) (hf : f.intact = true) :
    exec (.uapraFrame k f) s = .next ((s.wakeL2 1 (BitVec.ofNat 6 (48 + k.val))).updUp k fun x => UPort.drain { x with
      unacked := x.unacked.drop f.acks, attempts := if f.acks = 0 then x.attempts else 0, credits := min 64 (x.credits + f.credits), rxSeq := x.rxSeq + 1 }) := by
  show execUapraFrame k f s = _
  rw [execUapraFrame, if_neg (by simp [hup, hf])]

/-- The port has a frame that waits for its acknowledgement. -/
theorem uapraFrameRetry_waiting (hup : (s.up k).isUp = true) (hwaits : (s.up k).unacked ≠ []) :
    exec (.uapraFrameRetry k) s = .next (
      if (s.up k).attempts < 8 then
        (if (s.up k).bufUe then (s.updUp k fun x => { x with bufUe := false }).notePort 9 (if k = 0 then 0 else 3) k.val (ptnMask ((s.up k).unacked.map (·.ptn))) else s).updUp k
          fun x => { x with attempts := x.attempts + 1, retries := satInc x.retries }
      else s.upDown k) := by
  show execUapraFrameRetry k s = _
  rw [execUapraFrameRetry]
  dsimp only
  rw [if_neg (by simp [hup, hwaits])]

theorem uapraRetrain_down (hdown : (s.up k).isUp = false) (hready : s.phase = .ready) (up : Bool) :
    exec (.uapraRetrain k up) s = .next (if up then (s.upLinkReset k 0x21).upUp k else s.upLinkReset k 0x21) := by
  show execUapraRetrain k up s = _
  rw [execUapraRetrain, if_neg (by simp [hdown, hready])]

/-- A port that comes up is unlike an unused one, so that it reads back whatever the table of the ports holds. -/
theorem up_updUp_up {f : UPort → UPort} (hf : (f (s.up k)).st = 2) : ((s.updUp k f).up k).st = 2 := by
  have hused : f (s.up k) ≠ {} := fun h => absurd (hf.symm.trans (congrArg UPort.st h)) (by decide)
  rw [up_updUp_same s k f hused, hf]

theorem up_setHeld (s : State) (k : UpId) (ms : List Held) : ({ s with held := ms } : State).up k = s.up k := rfl

theorem up_upUp_st (s : State) (k : UpId) : ((s.upUp k).up k).st = 2 := by
  rw [upUp, up_setHeld]
  exact up_updUp_up rfl

/-- With the other port down too, a port's messages are held. -/
theorem upMove_bothDown (hother : (s.up (otherUp k)).isUp = false) (old : UPort) :
    s.upMove k old = { s with held := s.held ++ ((sortMsgs old.unacked).map Msg.again ++ old.unsent).map fun m => { ports := if k = 0 then 1 else 2, msg := m } } :=
  if_neg (Bool.eq_false_iff.mp hother)

end Uapra

end State
end Sys2Proof.Machine

/-! ## The statements -/

section
open Sys2Proof Sys2Proof.Machine Sys2Proof.Machine.State

/-- Settles O44: the hypotheses of each clause pick one branch of the event's meaning; the items that a link between two dies fails are `linkMarks`. -/
theorem detectedFaults : Obligations.DetectedFaults := by
  refine ⟨fun s te m stamp => ?_, fun s p stamp hpair => ?_, fun s stamp hready => ?_, fun s p q item m stamp c hc => ?_, fun s a b stamp => ?_, fun s addr stamp => ?_⟩
  · intro u hserves hl0 open' z hcore hengine
    refine (heartbeatMissed_serving hserves hl0).trans ?_
    rw [failHung_atRest hcore hengine]
    rfl
  · exact ⟨psLockstepMismatch_free hpair, fun hlive => ⟨psLockstepMismatch_live hpair hlive false, psLockstepMismatch_live hpair hlive true⟩⟩
  · refine ⟨stewardLockstepMismatch_first hready, fun hnothing => ?_⟩
    rw [stewardLockstepMismatch_second hready, stewardBack_nothing hnothing]
  · exact ⟨fun te => congrArg _ (failByFault_running hc _ _), congrArg _ (failByFault_running hc _ _)⟩
  · exact ⟨fun hab hup => ⟨s.linkMarks (min a.val b.val) (max a.val b.val), mem_linkMarks s a.val b.val, dieLinkDown_up hab hup⟩, dieLinkDown_same⟩
  · exact ⟨fun hout double single pass => patrolScrub_outside hout double, fun hmem pass =>
      ⟨fun single => patrolScrub_double hmem, fun hue => ⟨patrolScrub_correctable hmem hue, patrolScrub_correctable hmem hue⟩⟩⟩

/-- Settles O46: the hypotheses of each clause pick one branch of the event's meaning, and a port that comes up reads back as up. -/
theorem uapraLinks : Obligations.UapraLinks := by
  refine ⟨fun s k f hup hf => uapraFrame_intact hup hf, fun s k hup hwaits => ⟨fun hleft => ?_, fun hspent => ?_⟩,
    fun s k hdown hready => ⟨uapraRetrain_down hdown hready true, uapraRetrain_down hdown hready false⟩,
    fun s k => ⟨rfl, up_upUp_st s k⟩, fun s k => rfl, fun s k old hother => upMove_bothDown hother old⟩
  · rw [uapraFrameRetry_waiting hup hwaits, if_pos hleft]
  · rw [uapraFrameRetry_waiting hup hwaits, if_neg (by omega)]

end
end

section
/-! PROOFS. The long number formats: a code rounds back to itself, exact values are ordered, and the statement about the maximum and the minimum that follows (R39 to R41). -/

namespace Sys2Proof.Machine

namespace XVal

/-! ## The order of exact values -/

theorem signed_not (s : Bool) (m : Nat) : signed (!s) m = -signed s m := by cases s <;> simp [signed]

theorem up_neg (i k : Int) : up (-i) k = -up i k := Int.neg_mul _ _

/-- The first finite value less the second, in units of the smaller of their two steps. -/
def gap (s : Bool) (m : Nat) (e : Int) (t : Bool) (n : Nat) (f : Int) : Int :=
  up (signed s m) (e - min e f) - up (signed t n) (f - min e f)

theorem gap_swap (s : Bool) (m : Nat) (e : Int) (t : Bool) (n : Nat) (f : Int) : gap t n f s m e = -gap s m e t n f := by
  rw [gap, gap, Int.min_comm, Int.neg_sub]

theorem cmp_num (s : Bool) (m : Nat) (e : Int) (t : Bool) (n : Nat) (f : Int) : cmp (.num s m e) (.num t n f) = (gap s m e t n f).sign := by
  have hsum : up (signed s m) (e - min e f) + up (signed (!t) n) (f - min e f) = gap s m e t n f := by
    rw [signed_not, up_neg]; rfl
  simp only [cmp, sub, neg, add, hsum]
  rcases Int.lt_trichotomy (gap s m e t n f) 0 with h | h | h
  · rw [if_neg (by omega), Int.sign_eq_neg_one_of_neg h]
    simp [h, h.ne]
  · simp [h]
  · rw [if_neg (by omega), Int.sign_eq_one_of_pos h]
    simp [h.ne', h.le]

variable {a b : XVal}

theorem cmp_swap (ha : a.isNan = false) (hb : b.isNan = false) : cmp b a = -cmp a b := by
  cases a with
  | nan => cases ha
  | inf s =>
    cases b with
    | nan => cases hb
    | inf t => cases s <;> cases t <;> rfl
    | num t n f => cases s <;> rfl
  | num s m e =>
    cases b with
    | nan => cases hb
    | inf t => cases t <;> rfl
    | num t n f => rw [cmp_num, cmp_num, gap_swap, Int.sign_neg]

theorem cmp_self (ha : a.isNan = false) : cmp a a = 0 := by
  have := cmp_swap ha ha
  omega

theorem le_of_cmp (ha : a.isNan = false) (hb : b.isNan = false) (h : cmp a b ≤ 0) : a.le b = true := by simp [le, ha, hb, h]

theorem le_of_cmp_swap (ha : a.isNan = false) (hb : b.isNan = false) (h : 0 ≤ cmp a b) : b.le a = true :=
  le_of_cmp hb ha (by rw [cmp_swap ha hb]; omega)

theorem le_self (ha : a.isNan = false) : a.le a = true := le_of_cmp ha ha (cmp_self ha).le

/-! ## maximumNumber and minimumNumber (R41) -/

theorem maxNum_nan_left (ha : a.isNan = true) : a.maxNum b = b := if_pos ha
theorem minNum_nan_left (ha : a.isNan = true) : a.minNum b = b := if_pos ha

theorem maxNum_nan_right (ha : a.isNan = false) (hb : b.isNan = true) : a.maxNum b = a := by simp [maxNum, ha, hb]
theorem minNum_nan_right (ha : a.isNan = false) (hb : b.isNan = true) : a.minNum b = a := by simp [minNum, ha, hb]

/-- The maximum of two numbers is one of them, and the other is not above it. -/
theorem maxNum_cases (ha : a.isNan = false) (hb : b.isNan = false) :
    a.maxNum b = a ∧ b.le a = true ∨ a.maxNum b = b ∧ a.le b = true := by
  simp only [maxNum, ha, hb, Bool.false_eq_true, if_false]
  rcases Int.lt_trichotomy (cmp a b) 0 with h | h | h
  · exact .inr ⟨by rw [if_neg (by omega), if_pos h], le_of_cmp ha hb h.le⟩
  · rw [if_neg (by omega), if_neg (by omega)]
    cases a.sign
    · exact .inl ⟨rfl, le_of_cmp_swap ha hb h.ge⟩
    · exact .inr ⟨rfl, le_of_cmp ha hb h.le⟩
  · exact .inl ⟨if_pos h, le_of_cmp_swap ha hb h.le⟩

/-- The minimum of two numbers is one of them, and the other is not below it. -/
theorem minNum_cases (ha : a.isNan = false) (hb : b.isNan = false) :
    a.minNum b = a ∧ a.le b = true ∨ a.minNum b = b ∧ b.le a = true := by
  simp only [minNum, ha, hb, Bool.false_eq_true, if_false]
  rcases Int.lt_trichotomy (cmp a b) 0 with h | h | h
  · exact .inl ⟨if_pos h, le_of_cmp ha hb h.le⟩
  · rw [if_neg (by omega), if_neg (by omega)]
    cases a.sign
    · exact .inr ⟨rfl, le_of_cmp_swap ha hb h.ge⟩
    · exact .inl ⟨rfl, le_of_cmp ha hb h.le⟩
  · exact .inr ⟨by rw [if_neg (by omega), if_pos h], le_of_cmp_swap ha hb h.le⟩

theorem cmp_zeros (s t : Bool) (e : Int) : cmp (.num s 0 e) (.num t 0 e) = 0 := by
  cases s <;> cases t <;> simp [cmp_num, gap, up, signed]

theorem maxNum_zeros (s : Bool) (e : Int) : (num s 0 e).maxNum (.num (!s) 0 e) = .num false 0 e := by
  cases s <;> simp [maxNum, isNan, cmp_zeros, sign]

theorem minNum_zeros (s : Bool) (e : Int) : (num s 0 e).minNum (.num (!s) 0 e) = .num true 0 e := by
  cases s <;> simp [minNum, isNan, cmp_zeros, sign]

end XVal

/-! ## Codes of a long format (R39, R40) -/

/-- A value on the grid below its first doubling keeps its code. -/
theorem roundCode_subnormal {f m : Nat} (hm : m < 2 ^ f) (qmin : Int) : roundCode f qmin m qmin = m := by
  rcases Nat.eq_zero_or_pos m with rfl | hpos
  · rfl
  have hlog : m.log2 < f := (Nat.log2_lt hpos.ne').mpr hm
  have hq : max qmin (m.log2 + qmin - f) = qmin := max_eq_left (by omega)
  simp [roundCode, hpos.ne', hq]

/-- A value on the grid with its leading bit at place f keeps its exponent and its fraction. -/
theorem roundCode_normal {f fr k : Nat} (hfr : fr < 2 ^ f) (qmin : Int) : roundCode f qmin (2 ^ f + fr) (qmin + k) = k * 2 ^ f + (2 ^ f + fr) := by
  have hpos : 0 < 2 ^ f := Nat.two_pow_pos f
  have hlog : (2 ^ f + fr).log2 = f := (Nat.log2_eq_iff (by omega)).mpr ⟨by omega, by rw [Nat.pow_succ]; omega⟩
  have hq : max qmin ((f : Int) + (qmin + k) - f) = qmin + k := by omega
  rw [roundCode, if_neg (by omega), hlog, hq]
  simp

namespace LFmt
variable {g : LFmt} {a b : Nat}

theorem withSign_bitAt_mod (ha : a < 2 ^ (g.sbit + 1)) : g.withSign (bitAt a g.sbit) (a % 2 ^ g.sbit) = a := by
  have hq : a / 2 ^ g.sbit < 2 := Nat.div_lt_of_lt_mul (by rwa [Nat.pow_succ] at ha)
  have hbit : b2n (bitAt a g.sbit) = a / 2 ^ g.sbit := by
    rw [bitAt, Nat.shiftRight_eq_div_pow, Nat.mod_eq_of_lt hq]
    interval_cases a / 2 ^ g.sbit <;> rfl
  rw [withSign, hbit, Nat.mul_comm, Nat.div_add_mod]

theorem round_num {s : Bool} {m : Nat} {e : Int} (h : roundCode g.f g.qmin m e < g.inf) :
    (g.round (.num s m e)).1 = g.withSign s (roundCode g.f g.qmin m e) := by
  rw [round, if_neg (Nat.not_le.mpr h)]
  split
  · rename_i hflush
    rw [of_decide_eq_true (Bool.and_eq_true_iff.mp hflush).1]
  · rfl

/-- What a finite code decodes to rounds to the code's magnitude. -/
theorem decode_finite (h : a % 2 ^ g.sbit < g.inf) :
    ∃ m e, g.decode a = .num (bitAt a g.sbit) m e ∧ roundCode g.f g.qmin m e = a % 2 ^ g.sbit := by
  have hfr : a % 2 ^ g.sbit % 2 ^ g.f < 2 ^ g.f := Nat.mod_lt _ (Nat.two_pow_pos _)
  have hsplit := Nat.div_add_mod (a % 2 ^ g.sbit) (2 ^ g.f)
  unfold decode
  dsimp only
  rw [if_neg (Nat.not_le.mpr h), Nat.shiftRight_eq_div_pow]
  generalize a % 2 ^ g.sbit % 2 ^ g.f = fr at hfr hsplit ⊢
  rcases Nat.eq_zero_or_pos (a % 2 ^ g.sbit / 2 ^ g.f) with hec | hec
  · rw [hec] at hsplit ⊢
    rw [if_pos rfl]
    exact ⟨_, _, rfl, by rw [roundCode_subnormal hfr]; omega⟩
  · obtain ⟨k, hk⟩ := Nat.exists_eq_add_of_lt hec
    rw [if_neg hec.ne']
    refine ⟨_, _, rfl, ?_⟩
    rw [hk] at hsplit ⊢
    rw [show g.qmin + ((0 + k + 1 : Nat) : Int) - 1 = g.qmin + k by omega, roundCode_normal hfr, ← hsplit]
    ring

/-- Rounding gives back the code of a number (R39). -/
theorem round_decode (ha : a < 2 ^ (g.sbit + 1)) (hn : (g.decode a).isNan = false) : (g.round (g.decode a)).1 = a := by
  rcases Nat.lt_or_ge (a % 2 ^ g.sbit) g.inf with h | h
  · obtain ⟨m, e, hdec, hcode⟩ := decode_finite h
    rw [hdec, round_num (hcode.trans_lt h), hcode, withSign_bitAt_mod ha]
  · have hinf : a % 2 ^ g.sbit = g.inf := by
      by_contra hne
      simp [decode, h, hne, XVal.isNan] at hn
    have hdec : g.decode a = .inf (bitAt a g.sbit) := by simp [decode, hinf]
    rw [hdec, round, ← hinf, withSign_bitAt_mod ha]

theorem round_nan {x : XVal} (hn : x.isNan = true) : (g.round x).1 = g.qnan := by
  cases x with
  | nan => rfl
  | inf s => cases hn
  | num s m e => cases hn

/-- Zero and its negative, in a format whose infinity is not their code. -/
theorem decode_zeros (hg : 0 < g.inf) : g.decode 0 = .num false 0 g.qmin ∧ g.decode (2 ^ g.sbit) = .num true 0 g.qmin := by
  have h : ¬0 ≥ g.inf := Nat.not_le.mpr hg
  constructor
  · simp [decode, bitAt, h]
  · simp [decode, bitAt, h, Nat.shiftRight_eq_div_pow]

/-! ## Maximum and minimum (R41) -/

theorem fmax_of_maxNum {c : Nat} (hc : c < 2 ^ (g.sbit + 1)) (hn : (g.decode c).isNan = false) (h : (g.decode a).maxNum (g.decode b) = g.decode c) :
    g.fmax a b = c := by rw [fmax, h, round_decode hc hn]

theorem fmin_of_minNum {c : Nat} (hc : c < 2 ^ (g.sbit + 1)) (hn : (g.decode c).isNan = false) (h : (g.decode a).minNum (g.decode b) = g.decode c) :
    g.fmin a b = c := by rw [fmin, h, round_decode hc hn]

theorem fmax_fmin_bothNan (hx : (g.decode a).isNan = true) (hy : (g.decode b).isNan = true) : g.fmax a b = g.qnan ∧ g.fmin a b = g.qnan :=
  ⟨by rw [fmax, XVal.maxNum_nan_left hx, round_nan hy], by rw [fmin, XVal.minNum_nan_left hx, round_nan hy]⟩

theorem fmax_fmin_nanLeft (hb : b < 2 ^ (g.sbit + 1)) (hx : (g.decode a).isNan = true) (hy : (g.decode b).isNan = false) :
    g.fmax a b = b ∧ g.fmin a b = b :=
  ⟨fmax_of_maxNum hb hy (XVal.maxNum_nan_left hx), fmin_of_minNum hb hy (XVal.minNum_nan_left hx)⟩

theorem fmax_fmin_nanRight (ha : a < 2 ^ (g.sbit + 1)) (hx : (g.decode a).isNan = false) (hy : (g.decode b).isNan = true) :
    g.fmax a b = a ∧ g.fmin a b = a :=
  ⟨fmax_of_maxNum ha hx (XVal.maxNum_nan_right hx hy), fmin_of_minNum ha hx (XVal.minNum_nan_right hx hy)⟩

section Numbers
variable (ha : a < 2 ^ (g.sbit + 1)) (hb : b < 2 ^ (g.sbit + 1)) (hx : (g.decode a).isNan = false) (hy : (g.decode b).isNan = false)
include ha hb hx hy

/-- The maximum of two numbers is one of the codes, at or above both. -/
theorem fmax_bounds : (g.fmax a b = a ∨ g.fmax a b = b) ∧ (g.decode a).le (g.decode (g.fmax a b)) = true ∧ (g.decode b).le (g.decode (g.fmax a b)) = true := by
  rcases XVal.maxNum_cases hx hy with ⟨h, hle⟩ | ⟨h, hle⟩
  · rw [fmax_of_maxNum ha hx h]
    exact ⟨.inl rfl, XVal.le_self hx, hle⟩
  · rw [fmax_of_maxNum hb hy h]
    exact ⟨.inr rfl, hle, XVal.le_self hy⟩

/-- The minimum of two numbers is one of the codes, at or below both. -/
theorem fmin_bounds : (g.fmin a b = a ∨ g.fmin a b = b) ∧ (g.decode (g.fmin a b)).le (g.decode a) = true ∧ (g.decode (g.fmin a b)).le (g.decode b) = true := by
  rcases XVal.minNum_cases hx hy with ⟨h, hle⟩ | ⟨h, hle⟩
  · rw [fmin_of_minNum ha hx h]
    exact ⟨.inl rfl, XVal.le_self hx, hle⟩
  · rw [fmin_of_minNum hb hy h]
    exact ⟨.inr rfl, hle, XVal.le_self hy⟩

end Numbers

/-- +0 is above −0 in either order. -/
theorem fmax_fmin_zeros (hg : 0 < g.inf) :
    g.fmax 0 (2 ^ g.sbit) = 0 ∧ g.fmax (2 ^ g.sbit) 0 = 0 ∧ g.fmin 0 (2 ^ g.sbit) = 2 ^ g.sbit ∧ g.fmin (2 ^ g.sbit) 0 = 2 ^ g.sbit := by
  obtain ⟨hplus, hminus⟩ := decode_zeros hg
  have hplusNum : (g.decode 0).isNan = false := by rw [hplus]; rfl
  have hminusNum : (g.decode (2 ^ g.sbit)).isNan = false := by rw [hminus]; rfl
  have hlt : 2 ^ g.sbit < 2 ^ (g.sbit + 1) := Nat.pow_lt_pow_right (by decide) (Nat.lt_succ_self _)
  have hpos := Nat.two_pow_pos (g.sbit + 1)
  refine ⟨fmax_of_maxNum hpos hplusNum ?_, fmax_of_maxNum hpos hplusNum ?_, fmin_of_minNum hlt hminusNum ?_, fmin_of_minNum hlt hminusNum ?_⟩ <;>
    rw [hplus, hminus]
  · exact XVal.maxNum_zeros false _
  · exact XVal.maxNum_zeros true _
  · exact XVal.minNum_zeros false _
  · exact XVal.minNum_zeros true _

end LFmt
end Sys2Proof.Machine

/-! ## The statement -/

section
open Sys2Proof Sys2Proof.Machine

/-- Settles O59: a number's code rounds back to itself, so the maximum and the minimum of two codes are those of their values. -/
theorem maximumAndMinimum : Obligations.MaximumAndMinimum := by
  intro g hg
  have hinf : 0 < g.inf := by rcases hg with rfl | rfl | rfl <;> decide
  refine ⟨fun a b ha hb => ⟨LFmt.fmax_fmin_bothNan, LFmt.fmax_fmin_nanLeft hb, LFmt.fmax_fmin_nanRight ha, fun hx hy => ?_⟩, LFmt.fmax_fmin_zeros hinf⟩
  obtain ⟨hmax, hmaxA, hmaxB⟩ := LFmt.fmax_bounds ha hb hx hy
  exact ⟨hmax, hmaxA, hmaxB, LFmt.fmin_bounds ha hb hx hy⟩

end
end

section
/-! PROOFS. CVT and the two stream instructions that convert and reduce: what each does where its checks pass, and the statements that follow (R43, R121, R125 to R127, R508). -/

namespace Sys2Proof.Machine

section Conversion
variable {s : State} {t : ThreadId} {w : IWord} {l : Launch}

/-- CVT from one type to another: a short result carries its scale code in [15:8] (R121). -/
theorem cvtValue_types {e : IWord} {ty tgt : Ty} (hty : Ty.ofCode e.ty = some ty) (htgt : Ty.ofCode e.cvtTarget = some tgt) (src idx : W32) :
    let m := IWord.mode l e
    let v := regValue ty src.toNat
    let k := if tgt.isShort then (if m.smode = 2 then bits src.toNat 8 8 else m.given.toNat) else 0
    let r := convert tgt m.sat (if m.rnd = 1 then some (srWord l.srSeed.toNat l.srStream.toNat idx.toNat) else none) k v
    cvtValue l e src idx = (BitVec.ofNat 32 (if tgt.isShort then r.1 + k * 256 else r.1), r.2, v) := by
  simp only [cvtValue, hty, htgt]
  cases tgt.isShort <;> rfl

/-- CVT of an active lane writes what `cvtValue` gives, and counts its event and its value. -/
theorem execCvt_active (hl : s.issues t w 0x30 (fun e => [e.d, e.a, e.b]) = some l) (hp : (s.th t.val).pred (l.word w).pred.toNat = true) :
    let r := cvtValue l (l.word w) ((s.th t.val).get (l.word w).a) ((s.th t.val).get (l.word w).b)
    exec (.cvt t w) s = .next ((s.wrote t (l.word w).d r.1 r.2.1).addSheet l.hdr (·.addAmax r.2.2)) := by
  show Host.Outcome.next (s.issue t w 0x30 _ _) = _
  rw [issue_run hl]
  exact congrArg _ (if_pos hp)

end Conversion

section Streams
variable {s u v z : State} {t : ThreadId} {w : IWord} {l : Launch} {d : SDesc} {es : List SElem}

/-- The arrays, scales and counts that SCVT makes of the elements `es` over arrays that held `old`. -/
def scvtOut (l : Launch) (d : SDesc) (e : IWord) (old : List (List Byte)) (es : List SElem) : ConvOut :=
  d.convertAll (IWord.mode l e) l.srSeed.toNat l.srStream.toNat e.mz (old.getD 0 []) (old.getD 1 []) es

/-- SCVT's converted sums written to accumulator entries: those of active lanes, or of all under MZ (R122). -/
def State.scvtSums (s : State) (n : Nat) (d : SDesc) (e : IWord) (o : ConvOut) (es : List SElem) : State :=
  s.updMc n (·.putSums d.dstAddr (fun i => e.mz || (es[i]?).any (·.active)) ((chunks 4 d.length o.arr).map leNat))

/-- Where the converted elements go: accumulator entries, or the destination's arrays. -/
def State.scvtWrite (s : State) (l : Launch) (n : Nat) (d : SDesc) (e : IWord) (o : ConvOut) (es : List SElem) : Acc Unit :=
  if d.dstSpace = 2 then (s.scvtSums n d e o es, .ok ()) else s.streamWrites l n (d.dstRanges.zip [o.arr, o.sc])

theorem scvtWrite_ok {n : Nat} {e : IWord} {o : ConvOut} (harrays : d.dstSpace ≠ 2 → v.streamWrites l n (d.dstRanges.zip [o.arr, o.sc]) = (z, .ok ()))
    (hsums : d.dstSpace = 2 → z = v.scvtSums n d e o es) : v.scvtWrite l n d e o es = (z, .ok ()) := by
  rw [State.scvtWrite]
  split
  · rename_i hacc; rw [hsums hacc]
  · rename_i hmem; exact harrays hmem

/-- SCVT past its checks, with its source and destination read and its results written (R126). -/
theorem execScvt_run {old : List (List Byte)} (hd : s.streams t w 0x40 = some (l, d)) (hcheck : s.scvtCheck l d (IWord.mode l (l.word w)) = none)
    (hheld : (s.mc (mcOf t)).anyHeld (d.srcRanges ++ d.dstRanges) = false) (hsrc : s.streamSource l (mcOf t) d = (u, .ok es))
    (hold : u.streamReads l (mcOf t) d.dstRanges = (v, .ok old))
    (hwrite : v.scvtWrite l (mcOf t) d (l.word w) (scvtOut l d (l.word w) old es) es = (z, .ok ())) :
    let o := scvtOut l d (l.word w) old es
    exec (.scvt t w) s = .next ((z.addSheet l.hdr fun sh =>
      { o.vals.foldl Sheet.addAmax (sh.addEv o.ev) with empty := sh.empty || o.vals.isEmpty }).streamWait t none 0) := by
  show Host.Outcome.next (s.streamIssue t w 0x40 _) = _
  rw [stream_run hd]
  simp only [hcheck, hheld, hsrc, hold, Bool.false_eq_true, if_false]
  rw [State.scvtWrite, State.scvtSums, scvtOut] at hwrite
  rw [hwrite]
  rfl

/-- How many accumulator entries hold a reduction's state, and their range where SRED uses it (R127). -/
def redEntries (e : IWord) : Nat := if e.rop < 2 then 1 else 3
def redRange (d : SDesc) (e : IWord) : List SRange := if e.toAcc || e.cont then [⟨2, d.accEntry, redEntries e, true, 1⟩] else []

/-- SRED's reduction of the elements `es`, going on from the state entries under CONT. -/
def State.sredOut (s : State) (n : Nat) (d : SDesc) (e : IWord) (es : List SElem) : RedOut :=
  reduce e.rop e.sample (if e.cont then some ((s.mc n).acc.getList {} d.accEntry (redEntries e)) else none)
    (es.map fun x => if x.active then some (redValue d.sTy x.v) else none)

/-- The state entries written where TOACC is set. -/
def State.sredKept (s : State) (n : Nat) (d : SDesc) (e : IWord) (state : List Entry) : State :=
  if e.toAcc then s.updMc n fun m => ({ m with acc := m.acc.putList {} d.accEntry state } : MCore).mend 0 d.accEntry (redEntries e) else s

/-- The values that SRED of integers converts to binary32 first (R96). -/
def redInts (d : SDesc) (es : List SElem) : List XVal := if d.sTy.intRange.isSome then (es.filter (·.active)).map (·.v) else []

/-- SRED past its checks, with its source read, and its state entries too under CONT (R127). -/
theorem execSred_run (hd : s.streams t w 0x41 = some (l, d)) (hcheck : s.sredCheck l d (l.word w) = none)
    (hheld : (s.mc (mcOf t)).anyHeld (d.srcRanges ++ redRange d (l.word w)) = false)
    (hstate : (l.word w).cont = true → (s.mc (mcOf t)).bad 0 d.accEntry (redEntries (l.word w)) = false)
    (hsrc : s.streamSource l (mcOf t) d = (u, .ok es)) :
    let o := u.sredOut (mcOf t) d (l.word w) es
    exec (.sred t w) s = .next (((u.sredKept (mcOf t) d (l.word w) o.state).addSheet l.hdr fun sh =>
      { (redInts d es ++ o.vals).foldl Sheet.addAmax (sh.addEv o.ev) with empty := sh.empty || o.empty }).streamWait t
        (some (l.word w).d) o.res (l.word w).group) := by
  have hgood : ((l.word w).cont && (s.mc (mcOf t)).bad 0 d.accEntry (redEntries (l.word w))) = false := by
    cases hcont : (l.word w).cont with
    | false => rfl
    | true => exact hstate hcont
  show Host.Outcome.next (s.streamIssue t w 0x41 _) = _
  rw [stream_run hd]
  rw [redRange] at hheld
  rw [redEntries] at hheld hgood
  simp only [hcheck, hheld, hgood, hsrc, Bool.false_eq_true, if_false]
  rfl

/-- The end of a stream writes its result and lets the thread go on (R127). -/
theorem execStreamDone_waiting {r : Option (BitVec 5)} {x : W32} {g : Bool} (hwait : (s.th t.val).wait = .stream r x g) :
    exec (.streamDone t) s = .next (s.updTh t.val fun y => { (match r with | some n => y.set n x | none => y) with wait := .none }) := by
  show execStreamDone t s = _
  rw [execStreamDone, hwait] <;> rfl

end Streams
end Sys2Proof.Machine

/-! ## The statements -/

section
open Sys2Proof Sys2Proof.Machine

/-- Settles O11: CVT writes `cvtValue`, which under the two types is the conversion of A. -/
theorem cvtResult : Obligations.CvtResult := by
  intro s t w l ty tgt e x m v scale word hl hp hty htgt k r
  rw [execCvt_active hl hp, cvtValue_types hty htgt]

/-- Settles O16: the hypotheses take SCVT and SRED past each check to their results. -/
theorem streamConversionAndReduction : Obligations.StreamConversionAndReduction :=
  ⟨fun _ _ _ _ _ _ _ _ _ _ hd hcheck hheld hsrc hold harrays hsums => execScvt_run hd hcheck hheld hsrc hold (scvtWrite_ok harrays hsums),
    fun _ _ _ _ _ _ _ hd hcheck hheld hstate hsrc => execSred_run hd hcheck hheld hstate hsrc,
    fun _ _ _ _ _ hwait => execStreamDone_waiting hwait⟩

end
end

section
/-! PROOFS. The program commands and TABLE_OP: what each does once it starts and its acceptance checks pass, and the statement that follows (R267, R325, R332, R348, R511). -/

namespace Sys2Proof.Machine

/-! ## Commands that start -/

section Starting
variable {s u v : State} {h : Hdr} {op : W16} {cmd : Instr}

theorem queuedDone_rejected {f : State → State × Except Status (Item × List Byte)} {code : Status} (hu : s.startsNow h op cmd = some u)
    (hcheck : u.startCheck h cmd = none) (hf : f u = (v, .error code)) : s.queuedDone h op cmd f = v.reject h op code := by
  rw [queuedDone_run hu, hcheck, hf]

theorem queuedDone_finished {f : State → State × Except Status (Item × List Byte)} {it : Item} {r : List Byte} (hu : s.startsNow h op cmd = some u)
    (hcheck : u.startCheck h cmd = none) (hf : f u = (v, .ok (it, r))) : s.queuedDone h op cmd f = v.finished h it r := by
  rw [queuedDone_run hu, hcheck, hf]

theorem queued_passed {check : State → Option Status} {items : State → Nat} {f : State → State} (hu : s.startsNow h op cmd = some u)
    (hcheck : check u = none) : s.queued h op cmd check items f = (f (u.open' h (items u))).settle h := by
  rw [queued_run hu, hcheck]

end Starting

/-! ## PROG_LOAD (R325, R348) -/

section ProgLoad
variable {s u z : State} {h : Hdr} {a n : W64} {b : List Byte} {c : Status}
variable (hu : s.startsNow h 0x701 (.progLoad h a n) = some u) (hcheck : u.startCheck h (.progLoad h a n) = none)
include hu hcheck

/-- An image shorter than its header is no image. -/
theorem progLoad_short (hn : n.toNat < 64) : exec (.progLoad h a n) s = .next (u.reject h 0x701 St.eImage) := by
  refine congrArg _ (queuedDone_rejected hu hcheck ?_)
  rw [if_pos hn]

theorem progLoad_unreadable (hn : 64 ≤ n.toNat) (hread : u.pRead h.ptn Who.firmware a.toNat n.toNat = (z, .error c)) :
    exec (.progLoad h a n) s = .next (z.finished h (failedItem c) (loadResult 0 0 [])) := by
  refine congrArg _ (queuedDone_finished hu hcheck ?_)
  rw [if_neg (Nat.not_lt.mpr hn), hread]

theorem progLoad_badImage (hn : 64 ≤ n.toNat) (hread : u.pRead h.ptn Who.firmware a.toNat n.toNat = (z, .ok b))
    (hload : Image.load 2 n.toNat b false 0 = .error c) : exec (.progLoad h a n) s = .next (z.reject h 0x701 c) := by
  refine congrArg _ (queuedDone_rejected hu hcheck ?_)
  simp only [if_neg (Nat.not_lt.mpr hn), hread, hload]

theorem progLoad_loaded {im : Image} {k : Nat} (hn : 64 ≤ n.toNat) (hread : u.pRead h.ptn Who.firmware a.toNat n.toNat = (z, .ok b))
    (hload : Image.load 2 n.toNat b false 0 = .ok im) (hfree : freeHandle 0x8000 ((z.ptn h.ptn).progs.map (·.handle)) = some k) :
    exec (.progLoad h a n) s = .next ((z.updPtn h.ptn fun x => { x with progs := x.progs ++ [{ handle := k, image := im, hash := sha256 b, bytes := n.toNat }] }).finished
      h doneItem (loadResult k 0 (sha256 b))) := by
  refine congrArg _ (queuedDone_finished hu hcheck ?_)
  simp only [if_neg (Nat.not_lt.mpr hn), hread, hload, hfree]

end ProgLoad

/-! ## PROG_UNLOAD -/

section ProgUnload
variable {s u : State} {h : Hdr} {k : W16}
variable (hu : s.startsNow h 0x702 (.progUnload h k) = some u) (hcheck : u.startCheck h (.progUnload h k) = none)
include hu hcheck

theorem progUnload_unknown (hprog : (u.ptn h.ptn).prog? k.toNat = none) : exec (.progUnload h k) s = .next (u.reject h 0x702 St.eHandle) := by
  refine congrArg _ (queuedDone_rejected hu hcheck ?_)
  simp only [hprog, Option.isNone_none, if_true]

theorem progUnload_inUse (hprog : ((u.ptn h.ptn).prog? k.toNat).isSome = true) (huse : (u.ptn h.ptn).progInUse k.toNat = true) :
    exec (.progUnload h k) s = .next (u.reject h 0x702 St.eBusy) := by
  refine congrArg _ (queuedDone_rejected hu hcheck ?_)
  simp only [Option.isNone_eq_false_iff.mpr hprog, huse, Bool.false_eq_true, if_false, if_true]

theorem progUnload_removed (hprog : ((u.ptn h.ptn).prog? k.toNat).isSome = true) (huse : (u.ptn h.ptn).progInUse k.toNat = false) :
    exec (.progUnload h k) s = .next ((u.updPtn h.ptn fun x => { x with progs := x.progs.filter fun p => p.handle ≠ k.toNat }).finished h doneItem []) := by
  refine congrArg _ (queuedDone_finished hu hcheck ?_)
  simp only [Option.isNone_eq_false_iff.mpr hprog, huse, Bool.false_eq_true, if_false]

end ProgUnload

/-! ## PROG_RUN (R47, R511) -/

theorem progRun_run {s u : State} {h : Hdr} {e : ProgBlock} (hu : s.startsNow h 0x703 (.progRun h e) = some u)
    (hcheck : u.startCheck h (.progRun h e) = none) (hslices : u.slicesCheck h e.program.toNat = none) :
    exec (.progRun h e) s =
      .next (((u.open' h ((u.ptn h.ptn).entryItems e)).startProg h e.program.toNat e.entry.toNat e.srStream e.binds).settle h) := by
  refine congrArg _ (queued_passed hu ?_)
  rw [hcheck, hslices]
  rfl

/-- The stream number of a run: SR_STREAM where its bit 31 is set, else the command's SEQ, 24 bits of it (R47). -/
def streamNumber (sr seq : W32) : W32 := BitVec.ofNat 32 ((if sr.getLsbD 31 then sr else seq).toNat % 2 ^ 24)

theorem streamNumber_eq (sr seq : W32) :
    (BitVec.ofNat 32 (if sr.getLsbD 31 then bits sr.toNat 0 24 else bits seq.toNat 0 24) : W32) = streamNumber sr seq := by
  rw [streamNumber]
  cases sr.getLsbD 31 <;> rfl

/-- A program whose cores the grant has starts at its entry's first step. -/
theorem startProg_mapped {s : State} {h : Hdr} {prog entry : Nat} {sr : W32} {binds : List W64} {pr : Program} {e : EntryRec} {m : List (Nat × Nat)} {c : CmdRec}
    (hprog : (s.ptn h.ptn).prog? prog = some pr) (hentry : pr.image.entries[entry]? = some e)
    (hmap : s.mapCores h.ptn h.queue pr.image e.fixed binds = some m) (hc : s.cmdOf h = some c) :
    s.startProg h prog entry sr binds = ((s.updCmd h fun k => { k with
      ergKept := pr.image.longBytes
      prog := some { prog := prog, entry := entry, step := e.first, coreMap := m, binds := binds, srStream := streamNumber sr c.hdr.seq } }).updPtn
        h.ptn (·.trim 0)).stageCmd h := by
  have hget : pr.image.entries.getD entry {} = e := by rw [List.getD_eq_getElem?_getD, hentry]; rfl
  simp only [State.startProg, hprog, hget, hmap, hc, streamNumber_eq]

/-! ## TABLE_OP (R265, R267, R332) -/

/-- The engines in service of the job's core groups. -/
def State.engines (s : State) (h : Hdr) : List Nat := (tesOf (s.job h.ptn h.queue).cgs).filter fun n => !s.teRetired n

/-- Request e.1 of a TABLE_OP, its item e.2, joins the requests of the engine whose turn it is (log entry 27). -/
def State.handReq (s : State) (h : Hdr) (seq : W32) (es : List Nat) (e : TeReq × Nat) : State :=
  s.updTe (es.getD (e.2 % es.length) 0) fun x => { x with reqs := x.reqs ++ [{ req := e.1, ptn := h.ptn, queue := h.queue, seq := seq, item := e.2 }] }

theorem getElem?_mod_length {es : List Nat} (hne : es ≠ []) (i : Nat) : es[i % es.length]? = some (es.getD (i % es.length) 0) := by
  have hlt : i % es.length < es.length := Nat.mod_lt _ (List.length_pos_iff.mpr hne)
  rw [List.getD_eq_getElem?_getD, List.getElem?_eq_getElem hlt]
  rfl

/-- TABLE_OP of well-formed requests, with places for them at the engines, hands each of them to an engine. -/
theorem tableOp_run {s u : State} {h : Hdr} {rs : List TeReq} {c : CmdRec} (hu : s.startsNow h 0x230 (.tableOp h rs) = some u)
    (hcheck : u.startCheck h (.tableOp h rs) = none) (hroom : ∀ n ∈ s.engines h, (s.te n).reqs.length + ceilDiv rs.length (s.engines h).length ≤ 4096)
    (hc : (u.open' h rs.length).cmdOf h = some c) (hne : (u.open' h rs.length).engines h ≠ []) (hgood : ∀ r ∈ rs, tableOpBad r = none) :
    exec (.tableOp h rs) s =
      .next ((rs.zipIdx.foldl (fun v e => v.handReq h c.hdr.seq ((u.open' h rs.length).engines h) e) (u.open' h rs.length)).settle h) := by
  have hplaces : ¬((s.engines h).any fun n => decide (4096 < (s.te n).reqs.length + ceilDiv rs.length (s.engines h).length)) = true := by
    simpa using hroom
  refine (if_neg hplaces).trans (congrArg _ ((queued_passed hu hcheck).trans ?_))
  refine congrArg (State.settle · h) (List.foldl_ext _ _ _ fun v e he => ?_)
  have hturn := getElem?_mod_length hne e.2
  rw [State.engines] at hturn
  simp only [hgood e.1 (List.fst_mem_of_mem_zipIdx he), hturn, hc]
  rfl

end Sys2Proof.Machine

/-! ## The statement -/

section
open Sys2Proof Sys2Proof.Machine

/-- Settles O52: each clause is one outcome of a command that starts and passes its checks. -/
theorem programCommands : Obligations.ProgramCommands := by
  refine ⟨fun s u h a n hu hcheck => ⟨progLoad_short hu hcheck, fun hn => ⟨fun z c => progLoad_unreadable hu hcheck hn,
      fun z b hread => ⟨fun c => progLoad_badImage hu hcheck hn hread, fun im k => progLoad_loaded hu hcheck hn hread⟩⟩⟩,
    fun s u h k hu hcheck => ⟨progUnload_unknown hu hcheck, progUnload_inUse hu hcheck, progUnload_removed hu hcheck⟩,
    fun s u h e => progRun_run, fun s h prog entry sr binds pr e m c => startProg_mapped, ?_⟩
  intro s u h rs hu hcheck z es now hroom c hc hne hgood
  exact tableOp_run hu hcheck hroom hc hne hgood

end
end

section
/-! PROOFS. Loads, stores and promotion: what each does at each kind of place once it issues and its checks pass, and the two statements that follow (R79, R92, R118, R131, R132, R134, R137). -/

namespace Sys2Proof.Machine

variable {s u : State} {t : ThreadId} {w : IWord} {l : Launch} {ty : Ty}

/-! ## LD and the return of a load (R131, R132) -/

section Loads
variable (hl : s.issues t w 0x38 (fun e => [e.d, e.a]) = some l) (hp : (s.th t.val).pred (l.word w).pred.toNat = true) (hroom : (s.th t.val).loads.length < 8)
  (hty : (Ty.ofCode (l.word w).ty).getD .int8 = ty)
include hl hp hroom hty

/-- With its checks passed and no stall, LD of an entry has the entry's SUM outstanding. -/
theorem execLd_acc {n : Nat} (hplace : (l.word w).place (s.th t.val) = .acc n)
    (hcheck : s.placeCheck l ty (.acc n) false = none) (hbad : (s.mc (mcOf t)).placeBad (.acc n) = none)
    (hheld : (s.mc (mcOf t)).tileHeld n = false) :
    exec (.ld t w) s = .next (s.updTh t.val fun x => (x.pushLoad (l.word w).d ((s.mc (mcOf t)).entry n).sum).next) := by
  refine congrArg _ ((issue_run hl).trans ?_)
  simp only [hp, Nat.not_le.mpr hroom, hty, hplace, hcheck, hbad, hheld, Bool.not_true, Bool.false_eq_true, if_false]

theorem execLd_oc {a n b : Nat} (hplace : (l.word w).place (s.th t.val) = .oc a n b)
    (hcheck : s.placeCheck l ty (.oc a n b) false = none) (hbad : (s.mc (mcOf t)).placeBad (.oc a n b) = none) :
    exec (.ld t w) s = .next (s.updTh t.val fun x =>
      (x.pushLoad (l.word w).d (loadForm ty ((s.mc (mcOf t)).ocRead a n) b)).next) := by
  refine congrArg _ ((issue_run hl).trans ?_)
  simp only [hp, Nat.not_le.mpr hroom, hty, hplace, hcheck, hbad, Bool.not_true, Bool.false_eq_true, if_false]

/-- LD of partition bytes that a read answers: no place of the partition lies in a local memory of the core. -/
theorem execLd_ptn {a n b : Nat} {bs : List Byte} (hplace : (l.word w).place (s.th t.val) = .ptn a n b)
    (hcheck : s.placeCheck l ty (.ptn a n b) false = none)
    (hread : s.pRead l.ptn (Who.scalar (mcOf t)) a n = (u, .ok bs)) :
    exec (.ld t w) s = .next (u.updTh t.val fun x => (x.pushLoad (l.word w).d (loadForm ty bs b)).next) := by
  have hbad : (s.mc (mcOf t)).placeBad (.ptn a n b) = none := rfl
  refine congrArg _ ((issue_run hl).trans ?_)
  simp only [hp, Nat.not_le.mpr hroom, hty, hplace, hcheck, hbad, hread, Bool.not_true, Bool.false_eq_true, if_false]

end Loads

theorem execLoadReturn_outstanding {k : Fin 8} {o : Load} (ho : (s.th t.val).loads[k.val]? = some o) :
    exec (.loadReturn t k) s = .next (s.updTh t.val fun x => { x.set o.d o.v with loads := x.loads.eraseIdx k.val }) := by
  simp only [exec, execLoadReturn, ho]

/-! ## ST (R132, R134) -/

section Stores
variable (hl : s.issues t w 0x39 (fun e => [e.d, e.a]) = some l) (hp : (s.th t.val).pred (l.word w).pred.toNat = true)
  (hty : (Ty.ofCode (l.word w).ty).getD .int8 = ty)
include hl hp hty

/-- With its check passed and no stall, ST leaves G[D] in the entry with COMP 0. -/
theorem execSt_acc {n : Nat} (hplace : (l.word w).place (s.th t.val) = .acc n)
    (hcheck : s.placeCheck l ty (.acc n) true = none) (hheld : (s.mc (mcOf t)).tileHeld n = false) :
    exec (.st t w) s = .next ((s.updMc (mcOf t) fun m => m.setEntry n (Entry.loaded ((s.th t.val).get (l.word w).d).toNat 0)).nextPc t) := by
  refine congrArg _ ((issue_run hl).trans ?_)
  simp only [hp, hty, hplace, hcheck, hheld, Bool.not_true, Bool.false_eq_true, if_false]

theorem execSt_oc {a n b : Nat} (hplace : (l.word w).place (s.th t.val) = .oc a n b)
    (hcheck : s.placeCheck l ty (.oc a n b) true = none) :
    exec (.st t w) s = .next ((s.updMc (mcOf t) fun m =>
      m.ocWrite a (storeForm ty (m.ocRead a n) b ((s.th t.val).get (l.word w).d))).nextPc t) := by
  refine congrArg _ ((issue_run hl).trans ?_)
  simp only [hp, hty, hplace, hcheck, Bool.not_true, Bool.false_eq_true, if_false]

/-- The bytes that ST changes in part are read first: those of a packed element. -/
theorem execSt_ptn {a n b : Nat} {old : List Byte} {v : State} (hplace : (l.word w).place (s.th t.val) = .ptn a n b)
    (hcheck : s.placeCheck l ty (.ptn a n b) true = none)
    (hold : (if ty = .q4 || ty = .q6
      then s.pRead l.ptn (Who.scalar (mcOf t)) a n else (s, .ok [])) = (u, .ok old))
    (hwrite : u.pWrite l.ptn (Who.scalar (mcOf t)) a (storeForm ty old b ((s.th t.val).get (l.word w).d)) = (v, .ok ())) :
    exec (.st t w) s = .next (v.nextPc t) := by
  refine congrArg _ ((issue_run hl).trans ?_)
  simp only [hp, hty, hplace, hcheck, hold, hwrite, Bool.not_true, Bool.false_eq_true, if_false]

end Stores

/-! ## PROM (R137) -/

theorem execProm_run (hl : s.issues t w 0x3A (fun e => [e.d, e.a]) = some l) (hp : (s.th t.val).pred (l.word w).pred.toNat = true) {n : Nat}
    (hn : n = ((s.th t.val).get (l.word w).a).toNat + (l.word w).immN) (hfile : n < 32768) (hheld : (s.mc (mcOf t)).tileHeld n = false)
    (hbad : (s.mc (mcOf t)).bad 0 n 1 = false) :
    let r := ((s.mc (mcOf t)).entry n).promote (b32.decode ((s.th t.val).get (l.word w).d).toNat)
    exec (.prom t w) s = .next (((s.updMc (mcOf t) fun m => m.setEntry n r.1).nextPc t).addSheet l.hdr (·.addEv r.2)) := by
  subst hn
  refine congrArg _ ((issue_run hl).trans ?_)
  simp only [hp, Nat.not_le.mpr hfile, hheld, hbad, Bool.not_true, Bool.false_eq_true, if_false]

end Sys2Proof.Machine

/-! ## The statements -/

section
open Sys2Proof Sys2Proof.Machine

/-- Settles O12: LD by the kind of its place, each with its checks passed, and the return of an outstanding load. -/
theorem loadResults : Obligations.LoadResults := by
  refine ⟨fun s t w l => ?_, fun s t k l => execLoadReturn_outstanding⟩
  intro e x ty m hl hp hroom hcheck hbad
  refine ⟨fun n hplace hheld => ?_, fun a n b hplace => ?_, fun a n b bs hplace hread => ?_⟩ <;> rw [hplace] at hcheck hbad
  · exact execLd_acc hl hp hroom rfl hplace hcheck hbad hheld
  · exact execLd_oc hl hp hroom rfl hplace hcheck hbad
  · exact execLd_ptn hl hp hroom rfl hplace hcheck hread

/-- Settles O13: ST by the kind of its place, where a packed element in the partition takes its neighbours' bits from a read, and PROM. -/
theorem storeResults : Obligations.StoreResults := by
  intro s t w l e x ty m hp
  refine ⟨fun hl hcheck => ⟨fun n hplace hheld => ?_, fun a n b hplace => ?_, fun a n b u hplace hq4 hq6 hwrite => ?_,
    fun a n b old u hplace hpacked hread hwrite => ?_⟩, fun hl hfile hheld hbad => execProm_run hl hp rfl hfile hheld hbad⟩ <;> rw [hplace] at hcheck
  · exact execSt_acc hl hp rfl hplace hcheck hheld
  · exact execSt_oc hl hp rfl hplace hcheck
  · exact execSt_ptn hl hp rfl hplace hcheck (if_neg (by simpa using ⟨hq4, hq6⟩)) hwrite
  · exact execSt_ptn hl hp rfl hplace hcheck ((if_pos (by simpa using hpacked)).trans hread) hwrite

end
end

section
/-! PROOFS. The records of plans: what a RUN, a SPLIT, a hand-off of a split and a semaphore record do once they are due, and the statement that follows (R56 to R79, R87, R103 to R108, R513). -/

namespace Sys2Proof.Machine

/-! ## What the records of a command leave of the matrix cores -/

@[simp] theorem State.setChan_mcs (s : State) (h : Hdr) (f : List CmdRec → List CmdRec) : (s.setChan h f).mcs = s.mcs := by
  unfold State.setChan
  split <;> rfl

@[simp] theorem State.mc_updCmd (s : State) (h : Hdr) (f : CmdRec → CmdRec) (n : Nat) : (s.updCmd h f).mc n = s.mc n := by
  simp only [State.mc, State.updCmd, State.setChan_mcs]

@[simp] theorem State.mc_addSheet (s : State) (h : Hdr) (f : Sheet → Sheet) (n : Nat) : (s.addSheet h f).mc n = s.mc n := s.mc_updCmd h _ n
@[simp] theorem State.mc_addUnits (s : State) (h : Hdr) (items units : List Nat) (n : Nat) : (s.addUnits h items units).mc n = s.mc n := s.mc_updCmd h _ n

/-- A core with a run in flight reads back as it was written. -/
theorem State.mc_updMc_flight {s : State} {n : Nat} {f : MCore → MCore} (h : (f (s.mc n)).flight ≠ []) : (s.updMc n f).mc n = f (s.mc n) :=
  s.mc_updMc_same n f fun e => h (by rw [e])

/-! ## RUN (R56 to R65, R74, R76, R79, R87) -/

/-- The weight tile of a run: fetched, or with KEEP_W the one in the array. -/
def MCore.runTile (m : MCore) (d : RunDesc) (we : Option Elem) : WTile := match we with | none => m.active | some e => runWeights d e

theorem arrayWork_core (s : State) (h : Hdr) (item mc : Nat) (basic : Bool) (plan : Option Nat) (d : RunDesc) (st wt : TensorDesc) (x : Elem) (we : Option Elem) :
    let m := s.mc mc
    let m' := (s.arrayWork h item mc basic plan d st wt x we).mc mc
    m'.acc = (runPromoted d x (m.runTile d we) (if d.accInit then initEntries d m.acc else m.acc)).1 ∧ m'.active = m.runTile d we ∧
      m'.tiles = m.tiles ||| runTiles d ∧ m'.flight = m.flight ++ [(runTiles d, plan)] := by
  intro m m'
  have hcore : m' = _ := (State.mc_addSheet _ _ _ _).trans ((State.mc_addUnits _ _ _ _ _).trans (State.mc_updMc_flight (by simp)))
  rw [hcore]
  exact ⟨rfl, rfl, rfl, rfl⟩

theorem doRun_fetched {s v z : State} {h : Hdr} {item mc : Nat} {basic : Bool} {plan : Option Nat} {d : RunDesc} {st wt : TensorDesc} {binds : List W64}
    {ks kw : Nat} {x : Elem} {we : Option Elem} (hs : s.fetchS h mc basic d st binds ks = (v, .ok x)) (hw : v.fetchW h mc basic d wt binds kw = (z, .ok we))
    (hbad : (z.mc mc).entriesBad d = false) : s.doRun h item mc basic plan d st wt binds ks kw = z.arrayWork h item mc basic plan d st wt x we := by
  simp only [State.doRun, hs, hw, hbad, Bool.false_eq_true, if_false]

/-- The bindings of a program's run; a run of the firmware's has none. -/
def CmdRec.bindings (c : CmdRec) : List W64 := match c.prog with | some r => r.binds | none => []

/-- A core whose turn has come takes the run, once its checks pass. -/
theorem execRun_taken {s w u : State} {p : PtnId} {q : QueueId} {item : W16} {mc : McId} {d : RunDesc} {st wt : TensorDesc} {c : CmdRec}
    {im : Option Image} {ops : TensorDesc × TensorDesc} {binds : List W64} (him : (s.ptn p).imageOf c = im) (hops : runOperands im d st wt = ops)
    (hbinds : c.bindings = binds)
    (hw : (if c.prog.isNone then s.updMc mc.val (·.closeTile d) else s) = w)
    (hc : s.running? p q = some c) (hheld : mc.val ∈ mcsOf (s.job p q).cgs) (hgo : w.arrayGo p q mc.val = true)
    (hte : w.teTouches mc.val (runTiles d) = false) (horder : c.prog.isNone = true → (w.mc mc.val).inOrder d st wt = true)
    (hserves : w.mcRetired mc.val = false) (hturn : w.takeRecord c.hdr mc.val (fun k => .run k d) = some u)
    (hcheck : u.issueCheck p mc.val c.prog.isNone d ops.1 ops.2 binds = none) :
    exec (.run p q item mc d st wt) s = .next (u.doRun c.hdr item.toNat mc.val c.prog.isNone (c.planOf im mc.val) d ops.1 ops.2 binds
      (c.passesFor im ops.1 d) (c.passesFor im ops.2 d)) := by
  have hwait : (!w.arrayGo p q mc.val || w.teTouches mc.val (runTiles d) || (c.prog.isNone && !(w.mc mc.val).inOrder d st wt)) = false := by
    simpa [hgo, hte] using horder
  subst him hops hbinds
  refine congrArg Host.Outcome.next ?_
  simp only [hc, hheld, decide_true, Bool.and_true, hw, hwait, hserves, hturn, Bool.false_eq_true, if_false]
  split
  · rename_i e he
    exact absurd (he.symm.trans hcheck) nofun
  · rfl

/-! ## SPLIT (R107, R108, R346) -/

/-- A search of 0 to n - 1 finds the first place that answers. -/
theorem findSome?_range_first {α : Type} {f : Nat → Option α} {n k : Nat} {b : α} (hk : k < n) (hf : f k = some b) (hbefore : ∀ j < k, f j = none) :
    (List.range n).findSome? f = some b := by
  refine List.findSome?_eq_some_iff.mpr ⟨List.range k, k, (List.range n).drop (k + 1), ?_, hf, fun j hj => hbefore j (List.mem_range.mp hj)⟩
  calc List.range n = (List.range n).take k ++ (List.range n).drop k := (List.take_append_drop k _).symm
    _ = List.range k ++ k :: (List.range n).drop (k + 1) := by
      rw [List.take_range, Nat.min_eq_left hk.le, List.drop_eq_getElem_cons (by simpa using hk), List.getElem_range]

/-- The matrix core that a logical core of a program is. -/
def ProgRun.physical (r : ProgRun) (n : Nat) : Nat := ((r.coreMap.find? (·.1 = n)).map (·.2)).getD n

/-- The records of the k-th plan started. -/
def ProgRun.planRecs (r : ProgRun) (im : Image) (k : Nat) : List PlanRec := im.plans.getD (r.plans.getD k {}).plan []

/-- The first SPLIT record of this descriptor left in the k-th plan started that no record of its cores stands before. -/
def ProgRun.splitPlace (r : ProgRun) (im : Image) (d : SplitDesc) (k : Nat) : Option Nat :=
  (r.plans.getD k {}).left.find? fun i => decide ((r.planRecs im k)[i]? = some (PlanRec.split d)) && !r.behind im (recCores (.split d)) k i

/-- The split at record i of the k-th plan, as it joins the splits in progress. -/
def ProgRun.newSplit (r : ProgRun) (im : Image) (d : SplitDesc) (k i : Nat) : SplitRun :=
  { desc := d, mcs := (recCores (.split d)).map r.physical, plan := k, recs := (recCores (.split d)).map (SplitParts.places (r.planRecs im k) i) }

theorem execSplit_due {s : State} {p : PtnId} {q : QueueId} {d : SplitDesc} {c : CmdRec} {r : ProgRun} {im : Image} {k i : Nat}
    (hc : s.running? p q = some c) (hprog : c.prog = some r) (him : (s.ptn p).imageOf c = some im) (hk : k < r.plans.length)
    (hi : r.splitPlace im d k = some i) (hbefore : ∀ j < k, r.splitPlace im d j = none)
    (hserve : ((recCores (.split d)).map r.physical).any (s.mcRetired ·) = false) :
    let u := s.updCmd c.hdr fun c => { c with prog := some { r with plans := (r.take k i).plans, splits := r.splits ++ [r.newSplit im d k i] } }
    exec (.split p q d) s =
      .next (if splitAligned (r.planRecs im k) i d then u else u.addSheet c.hdr fun sh => { sh with splitUnaligned := true }) := by
  intro u
  have hserve' (v : State) (hv : ∀ n, v.mc n = s.mc n) : ¬((recCores (.split d)).map r.physical).any (v.mcRetired ·) = true := by
    simpa only [State.mcRetired, hv, Bool.not_eq_true] using hserve
  refine congrArg Host.Outcome.next ?_
  simp only [hc, hprog, him]
  rw [findSome?_range_first (b := (k, i, r.planRecs im k)) hk ?hit ?before]
  case hit => exact congrArg (Option.map fun i => (k, i, r.planRecs im k)) hi
  case before => exact fun j hj => congrArg (Option.map fun i => (j, i, r.planRecs im j)) (hbefore j hj)
  refine if_neg (hserve' _ fun n => ?_)
  split
  · exact s.mc_updCmd _ _ n
  · exact (State.mc_addSheet _ _ _ n).trans (s.mc_updCmd _ _ n)

/-! ## Hand-offs (R103, R105) -/

/-- The part that a hand-off from or to `part` concerns besides it: the next one in chain mode, the one merged into it in tree mode. -/
def SplitRun.other (x : SplitRun) (part level : Nat) : Nat := if x.desc.mode = 0 then part + 1 else part + 2 ^ (level - 1)

/-- A hand-off of the split is due: it is one of the split's and not made, the runs before it are done, and so are the earlier hand-offs of its parts. -/
structure SplitRun.Due (x : SplitRun) (r : ProgRun) (part level : Nat) : Prop where
  listed : ∃ g ∈ x.handoffs, g.1 = (part, level)
  undone : (part, level) ∉ x.done
  partRun : r.partRun x part = true
  otherRun : x.desc.mode ≠ 0 → r.partRun x (x.other part level) = true
  earlier : ∀ g ∈ x.handoffs, g.1.2 < level ∨ x.desc.mode = 0 ∧ g.1.1 < part → g.2.1 = part ∨ g.2.1 = x.other part level ∨ g.2.2 = part → g.1 ∈ x.done

theorem mem_handoffs_chain {x : SplitRun} (hmode : x.desc.mode = 0) {g : (Nat × Nat) × Nat × Nat} :
    g ∈ x.handoffs ↔ ∃ p, p + 1 < SplitParts.count x.desc ∧ ((p, 0), p + 1, p) = g := by
  simp only [SplitRun.handoffs, hmode, if_true, List.mem_map, List.mem_range, Nat.lt_sub_iff_add_lt]

theorem mem_handoffs_tree {x : SplitRun} (hmode : x.desc.mode ≠ 0) {g : (Nat × Nat) × Nat × Nat} :
    g ∈ x.handoffs ↔ ∃ l < 3, ∃ p < SplitParts.count x.desc, (p % 2 ^ (l + 1) = 0 ∧ p + 2 ^ l < SplitParts.count x.desc) ∧ ((p, l + 1), p, p + 2 ^ l) = g := by
  simp only [SplitRun.handoffs, hmode, if_false, List.mem_flatMap, List.mem_filterMap, List.mem_range, Option.ite_none_right_eq_some, Bool.and_eq_true,
    decide_eq_true_eq, Option.some.injEq]

/-- In chain mode a part hands its tiles on once they have come to it. -/
theorem SplitRun.due_chain {x : SplitRun} {r : ProgRun} {part level : Nat} (hmode : x.desc.mode = 0) (hlevel : level = 0)
    (hother : x.other part level < SplitParts.count x.desc) (hundone : (part, level) ∉ x.done) (hrun : r.partRun x part = true)
    (hcame : part = 0 ∨ (part - 1, 0) ∈ x.done) : x.Due r part level where
  listed := ⟨_, (mem_handoffs_chain hmode).mpr ⟨part, (if_pos hmode : x.other part level = part + 1) ▸ hother, rfl⟩, hlevel ▸ rfl⟩
  undone := hundone
  partRun := hrun
  otherRun := fun h => absurd hmode h
  earlier := by
    intro g hg hbefore hparts
    obtain ⟨p, -, rfl⟩ := (mem_handoffs_chain hmode).mp hg
    simp only [SplitRun.other, hmode, if_true, hlevel, Nat.not_lt_zero, true_and, false_or] at hbefore hparts
    have hp : p = part - 1 := by omega
    exact hp ▸ hcame.resolve_left (by omega)

/-- In tree mode two parts merge once both have merged the lower levels. -/
theorem SplitRun.due_tree {x : SplitRun} {r : ProgRun} {part level : Nat} (hmode : x.desc.mode ≠ 0) (hlevel : 0 < level) (htop : level ≤ 3)
    (hpart : part % 2 ^ level = 0) (hother : x.other part level < SplitParts.count x.desc) (hundone : (part, level) ∉ x.done)
    (hrun : r.partRun x part = true) (hrun' : r.partRun x (x.other part level) = true)
    (hlower : ∀ g ∈ x.handoffs, g.1.2 < level → g.2.1 = part ∨ g.2.1 = x.other part level ∨ g.2.2 = part → g.1 ∈ x.done) : x.Due r part level where
  listed := by
    cases level with
    | zero => exact absurd hlevel (Nat.lt_irrefl 0)
    | succ l =>
      rw [SplitRun.other, if_neg hmode] at hother
      exact ⟨_, (mem_handoffs_tree hmode).mpr ⟨l, htop, part, Nat.lt_of_le_of_lt (Nat.le_add_right _ _) hother, ⟨hpart, hother⟩, rfl⟩, rfl⟩
  undone := hundone
  partRun := hrun
  otherRun := fun _ => hrun'
  earlier := fun g hg hbefore => hlower g hg (hbefore.resolve_right fun h => hmode h.1)

theorem updFirst_singleton {α : Type} [DecidableEq α] (x : α) (f : α → α) : updFirst (fun y => decide (y = x)) f [x] = [f x] := if_pos (decide_eq_true rfl)

section Handoff
variable {s : State} {p : PtnId} {q : QueueId} {part level : Nat} {c : CmdRec} {r : ProgRun} {x : SplitRun}

/-- The test under which SPLIT_HANDOFF picks a split of a program whose job holds the cores `held`. -/
theorem SplitRun.Due.ready {held : List Nat} (hdue : x.Due r part level)
    (hcores : ∀ m, m = x.mcs.getD part 0 ∨ m = x.mcs.getD (x.other part level) 0 → m ∈ held ∧ (s.mc m).tiles &&& x.tiles = 0) :
    ((x.handoffs.any fun g => g.1 = (part, level)) && !decide ((part, level) ∈ x.done) && r.partRun x part &&
      (x.desc.mode = 0 || r.partRun x (x.other part level)) &&
      (x.handoffs.all fun g => !(decide (g.1.2 < level) || (x.desc.mode = 0 && decide (g.1.1 < part))) || decide (g.1 ∈ x.done) ||
        !(g.2.1 = part || g.2.1 = x.other part level || g.2.2 = part)) &&
      ([x.mcs.getD part 0, x.mcs.getD (x.other part level) 0].all fun m => decide (m ∈ held) && (s.mc m).tiles &&& x.tiles = 0)) = true := by
  simp only [Bool.and_eq_true]
  refine ⟨⟨⟨⟨⟨?_, ?_⟩, hdue.partRun⟩, ?_⟩, ?_⟩, ?_⟩
  · simpa using hdue.listed
  · simpa using hdue.undone
  · simpa [or_iff_not_imp_left] using hdue.otherRun
  · rw [List.all_eq_true]
    intro g hg
    have hearlier := hdue.earlier g hg
    simp only [Bool.or_eq_true, Bool.not_eq_true', Bool.or_eq_false_iff, Bool.and_eq_false_iff, decide_eq_true_eq, decide_eq_false_iff_not]
    tauto
  · simpa using hcores

/-- The hand-off is noted in the only split in progress. -/
def State.notedHandoff (s : State) (c : CmdRec) (r : ProgRun) (x : SplitRun) (part level : Nat) : State :=
  s.updCmd c.hdr fun c => { c with prog := some { r with splits := [{ x with done := x.done ++ [(part, level)] }] } }

variable (hc : s.running? p q = some c) (hprog : c.prog = some r) (hsplits : r.splits = [x]) (hst : (s.job p q).st = .running) (hdue : x.Due r part level)
  (hcores : ∀ m, m = x.mcs.getD part 0 ∨ m = x.mcs.getD (x.other part level) 0 → m ∈ mcsOf (s.job p q).cgs ∧ (s.mc m).tiles &&& x.tiles = 0)
  (hlink : s.linkDown (dieOfMc (x.mcs.getD part 0)) (dieOfMc (x.mcs.getD (x.other part level) 0)) = false)
  (hbad : (s.mc (x.mcs.getD part 0)).carriedBad x.desc = false)
include hc hprog hsplits hst hdue hcores hlink hbad

/-- A hand-off that is due, between cores whose tiles are free and can be read, moves the tiles or merges them by the split's mode. -/
theorem execSplitHandoff_due (hbad' : x.desc.mode ≠ 0 → (s.mc (x.mcs.getD (x.other part level) 0)).carriedBad x.desc = false) :
    let a := x.mcs.getD part 0
    let b := x.mcs.getD (x.other part level) 0
    let u := s.notedHandoff c r x part level
    let v := if x.desc.mode = 0 then u.moveTiles x.desc a b else (u.mergeTiles x.desc a b).1.addSheet c.hdr (·.addEv (u.mergeTiles x.desc a b).2)
    exec (.splitHandoff p q part level) s = .next (v.addUnits c.hdr (v.workItems c.hdr 0) [a, b]) := by
  intro a b u v
  refine congrArg Host.Outcome.next ?_
  simp only [hc, hprog, hst, hsplits]
  rw [if_pos (by simp), List.find?_cons_of_pos ?ready]
  case ready => exact hdue.ready hcores
  simp only [updFirst_singleton]
  refine (if_neg (Bool.eq_false_iff.mp hlink)).trans ((if_neg (Bool.eq_false_iff.mp hbad)).trans ((if_neg fun h => ?_).trans rfl))
  simp only [Bool.and_eq_true, Bool.not_eq_true', decide_eq_false_iff_not] at h
  exact Bool.eq_false_iff.mp (hbad' h.1) h.2

theorem execSplitHandoff_chain (hmode : x.desc.mode = 0) :
    let a := x.mcs.getD part 0
    let b := x.mcs.getD (x.other part level) 0
    let v := (s.notedHandoff c r x part level).moveTiles x.desc a b
    exec (.splitHandoff p q part level) s = .next (v.addUnits c.hdr (v.workItems c.hdr 0) [a, b]) := by
  simpa only [if_pos hmode] using execSplitHandoff_due hc hprog hsplits hst hdue hcores hlink hbad fun h => absurd hmode h

theorem execSplitHandoff_tree (hmode : x.desc.mode ≠ 0) (hbad' : (s.mc (x.mcs.getD (x.other part level) 0)).carriedBad x.desc = false) :
    let a := x.mcs.getD part 0
    let b := x.mcs.getD (x.other part level) 0
    let m := (s.notedHandoff c r x part level).mergeTiles x.desc a b
    let v := m.1.addSheet c.hdr (·.addEv m.2)
    exec (.splitHandoff p q part level) s = .next (v.addUnits c.hdr (v.workItems c.hdr 0) [a, b]) := by
  simpa only [if_neg hmode] using execSplitHandoff_due hc hprog hsplits hst hdue hcores hlink hbad fun _ => hbad'

end Handoff

/-! ## Semaphore records (R513) -/

section Semaphores
variable {s u : State} {p : PtnId} {q : QueueId} {mc : McId} {n : SemId} {c : CmdRec}
variable (hc : s.running? p q = some c) (hst : (s.job p q).st = .running) (hbound : (s.mc mc.val).boundary = true)
include hc hst hbound

theorem execWaitSem_due (hfirst : ∀ w ∈ (s.sem p n).waiters, ¬(w.1 = q ∧ w.2 = 65536 + mc.val))
    (hturn : s.takeRecord c.hdr mc.val (fun k => .waitSem k n) = some u) :
    exec (.waitSem p q mc n) s = .next (if (s.sem p n).count ≠ 0 ∧ (s.sem p n).waiters = [] then u.semTake p q n
      else (s.updSem p n fun m => { m with waiters := m.waiters ++ [(q, 65536 + mc.val)] }).updPtn p (·.holderStart q n)) := by
  have hfirst' : ((s.sem p n).waiters.any fun w => w.1 = q && w.2 = 65536 + mc.val) = false := by simpa using hfirst
  refine congrArg Host.Outcome.next ?_
  simp [hc, hst, hbound, hfirst', hturn]

theorem execPostSem_due (hturn : s.takeRecord c.hdr mc.val (fun k => .postSem k n) = some u) :
    exec (.postSem p q mc n) s = .next (u.semPost p q n) := by
  refine congrArg Host.Outcome.next ?_
  simp [hc, hst, hbound, hturn]

end Semaphores

end Sys2Proof.Machine

/-! ## The statement -/

section
open Sys2Proof Sys2Proof.Machine

/-- Settles O21: each record, once it is due, is carried out as its lemma says; a hand-off is due by the rule of its mode. -/
theorem planRecords : Obligations.PlanRecords := by
  refine ⟨?run, fun s mc => rfl, ?split, ?sem, ?handoff⟩
  case run =>
    intro s u v z p q item mc d st wt c x we im basic ops binds w hc hheld hgo hte horder hserves hturn hcheck hs hw hbad
    have htaken := execRun_taken (item := item) rfl rfl rfl rfl hc hheld hgo hte horder hserves hturn hcheck
    refine ⟨_, htaken.trans (congrArg _ (doRun_fetched hs hw hbad)), rfl, ?_⟩
    exact arrayWork_core z c.hdr item.toNat mc.val basic (c.planOf im mc.val) d ops.1 ops.2 x we
  case split =>
    intro s p q d c r im k i phys cores recs place hc hprog him hk hi hbefore hserve
    exact execSplit_due hc hprog him hk hi hbefore hserve
  case sem =>
    intro s u p q mc n c hc hst hbound
    refine ⟨fun hfirst hturn => ⟨fun hfree hnone => ?_, fun hwaits => ?_⟩, fun hturn => execPostSem_due hc hst hbound hturn⟩
    · exact (execWaitSem_due hc hst hbound hfirst hturn).trans (congrArg _ (if_pos ⟨hfree, hnone⟩))
    · exact (execWaitSem_due hc hst hbound hfirst hturn).trans (congrArg _ (if_neg fun h => hwaits.elim h.1 (absurd h.2)))
  case handoff =>
    intro s p q part level c r x hc hprog hsplits hst hundone hrun other a b hlast hcores hlink hbad u
    refine ⟨fun hmode hlevel hcame => ?_, fun hmode hlevel htop hpart hother hbad' hlower => ?_⟩
    · have hdue := SplitRun.due_chain hmode hlevel hlast hundone hrun hcame
      exact execSplitHandoff_chain hc hprog hsplits hst hdue hcores hlink hbad hmode
    · have hdue := SplitRun.due_tree hmode hlevel htop hpart hlast hundone hrun hother hlower
      exact execSplitHandoff_tree hc hprog hsplits hst hdue hcores hlink hbad hmode hbad'

end
end

section
/-! PROOFS. The moves of the stream unit: what SMOVE and ATX do where their checks pass, and the statement that follows (R91 to R94, R125, R507, R508). -/

/-! ## The fields of ATX: its form, its tile and its range in memory -/

namespace Sys2Proof.IWord
open Sys2Proof.Machine
variable (e : IWord)

/-- The form of the tile in memory is IMM[2:0], IMM[3] says that the tile is stored, and IMM[6:4] is its number. -/
def atxForm : Nat := bits e.immN 0 3
def atxStores : Bool := bitAt e.immN 3
def atxTile : Nat := bits e.immN 4 3

/-- The alignment of a tile in memory: the bytes of its form's elements, 1 for 48-bit entries. -/
def atxAlign : Nat := match e.atxForm with | 1 => 4 | 2 => 2 | 3 => 4 | _ => 1

/-- The memory range of the tile: the destination of a store, the source of a load. -/
def atxRange (d : SDesc) : SRange :=
  if e.atxStores then ⟨d.dstSpace, d.dstAddr, formBytes e.atxForm, true, e.atxAlign⟩
  else ⟨d.srcSpace, d.srcAddr, formBytes e.atxForm, false, e.atxAlign⟩

end Sys2Proof.IWord

namespace Sys2Proof.Machine

variable {s u v : State} {t : ThreadId} {w : IWord} {l : Launch} {d : SDesc} {bs : List Byte}

/-! ## SMOVE -/

/-- SMOVE past its checks writes to the destination the bytes it read from the source. -/
theorem execSmove_run (hd : s.streams t w 0x42 = some (l, d)) (hcodes : d.codesBad false = false) (hsrc : d.srcSpace ≠ 2) (hdst : d.dstSpace ≠ 2)
    (hrange : s.rangeCheck l [⟨d.srcSpace, d.srcAddr, d.length, false, 1⟩, ⟨d.dstSpace, d.dstAddr, d.length, true, 1⟩] = none)
    (hread : s.streamRead l (mcOf t) ⟨d.srcSpace, d.srcAddr, d.length, false, 1⟩ = (u, .ok bs))
    (hwrite : u.streamWrite l (mcOf t) ⟨d.dstSpace, d.dstAddr, d.length, true, 1⟩ bs = (v, .ok ())) :
    exec (.smove t w) s = .next (v.streamWait t none 0) := by
  refine congrArg Host.Outcome.next ((stream_run hd).trans ?_)
  simp only [hcodes, hsrc, hdst, decide_false, Bool.or_self, Bool.false_eq_true, if_false, hrange, hread, hwrite]

/-! ## ATX: its checks and its move -/

theorem atxRange_store {e : IWord} (hstore : e.atxStores = true) :
    e.atxRange d = ⟨d.dstSpace, d.dstAddr, formBytes e.atxForm, true, e.atxAlign⟩ := if_pos hstore

theorem atxRange_load {e : IWord} (hload : e.atxStores = false) :
    e.atxRange d = ⟨d.srcSpace, d.srcAddr, formBytes e.atxForm, false, e.atxAlign⟩ := if_neg (by simp [hload])

/-- R508 for ATX: form 4 clears a tile and touches no memory, so only the other forms have a range to check. -/
def State.atxCheck (s : State) (l : Launch) (d : SDesc) (e : IWord) : Option SFail :=
  if d.maskBad l then some (St.eLocalRange, none)
  else if d.shapeBad || (e.atxForm ≠ 4 && (e.atxRange d).space ≠ 1) then some (St.eStreamDesc, none)
  else if e.atxForm = 4 then none else s.rangeCheck l [e.atxRange d]

/-- The entries of a tile in the form of a store: each one's bytes, events and value (R91). -/
def State.atxStored (s : State) (n : Nat) (e : IWord) : List (List Byte × Ev × XVal) :=
  ((s.mc n).acc.getList {} (4096 * e.atxTile) 4096).map (formStore e.atxForm)

/-- The tile's entries replaced: each is written, so none stays uncorrectable (R92). -/
def State.atxFilled (s : State) (n : Nat) (e : IWord) (es : List Entry) : State :=
  s.updMc n fun m => ({ m with acc := m.acc.putList {} (4096 * e.atxTile) es } : MCore).mend 0 (4096 * e.atxTile) 4096

/-- ATX past its checks: it waits while a run holds the tile, stops the launch at a tile it cannot read, and else stores the tile or fills it. -/
def State.atxMove (s : State) (t : ThreadId) (l : Launch) (d : SDesc) (e : IWord) : State :=
  if bitAt (s.mc (mcOf t)).tiles.toNat e.atxTile then s
  else if e.atxStores && (s.mc (mcOf t)).bad 0 (4096 * e.atxTile) 4096 then s.localStop t l 0
  else if e.atxStores then
    match s.streamWrite l (mcOf t) (e.atxRange d) ((s.atxStored (mcOf t) e).flatMap (·.1)) with
    | (u, .error c) => u.threadFault t c
    | (u, .ok _) => (u.addSheet l.hdr fun sh => (s.atxStored (mcOf t) e).foldl (fun sh x => (sh.addEv x.2.1).addAmax x.2.2) sh).streamWait t none 0
  else
    match (if e.atxForm = 4 then (s, .ok []) else s.streamRead l (mcOf t) (e.atxRange d)) with
    | (u, .error c) => u.threadFault t c
    | (u, .ok bs) => (u.atxFilled (mcOf t) e (formLoad e.atxForm bs)).streamWait t none 0

theorem execAtx_checked (hd : s.streams t w 0x43 = some (l, d)) (hcheck : s.atxCheck l d (l.word w) = none) :
    exec (.atx t w) s = .next (s.atxMove t l d (l.word w)) := by
  have hrun : exec (.atx t w) s = .next (match s.atxCheck l d (l.word w) with
      | some f => s.streamFail t l f
      | none => s.atxMove t l d (l.word w)) := congrArg Host.Outcome.next (stream_run hd)
  rw [hrun, hcheck]

section Checks
variable {e : IWord} (hmask : d.maskBad l = false) (hshape : d.shapeBad = false)
include hmask hshape

theorem atxCheck_memory (hform : e.atxForm ≠ 4) (hspace : (e.atxRange d).space = 1) (hrange : s.rangeCheck l [e.atxRange d] = none) :
    s.atxCheck l d e = none := by
  simp [State.atxCheck, hmask, hshape, hform, hspace, hrange]

theorem atxCheck_clear (hform : e.atxForm = 4) : s.atxCheck l d e = none := by
  simp [State.atxCheck, hmask, hshape, hform]

end Checks

section Moves
variable {e : IWord} (hfree : bitAt (s.mc (mcOf t)).tiles.toNat e.atxTile = false)
include hfree

/-- A store of a readable tile whose write goes through counts every entry's events and value. -/
theorem atxMove_store (hstore : e.atxStores = true) (hgood : (s.mc (mcOf t)).bad 0 (4096 * e.atxTile) 4096 = false)
    (hwrite : s.streamWrite l (mcOf t) (e.atxRange d) ((s.atxStored (mcOf t) e).flatMap (·.1)) = (u, .ok ())) :
    s.atxMove t l d e =
      (u.addSheet l.hdr fun sh => (s.atxStored (mcOf t) e).foldl (fun sh x => (sh.addEv x.2.1).addAmax x.2.2) sh).streamWait t none 0 := by
  simp only [State.atxMove, hfree, hstore, hgood, hwrite, Bool.and_false, Bool.false_eq_true, if_false, if_true]

theorem atxMove_load (hload : e.atxStores = false) (hform : e.atxForm ≠ 4) (hread : s.streamRead l (mcOf t) (e.atxRange d) = (u, .ok bs)) :
    s.atxMove t l d e = (u.atxFilled (mcOf t) e (formLoad e.atxForm bs)).streamWait t none 0 := by
  simp only [State.atxMove, hfree, hload, hform, hread, Bool.false_and, Bool.false_eq_true, if_false]

theorem atxMove_clear (hload : e.atxStores = false) (hform : e.atxForm = 4) :
    s.atxMove t l d e = (s.atxFilled (mcOf t) e (formLoad 4 [])).streamWait t none 0 := by
  simp only [State.atxMove, hfree, hload, hform, Bool.false_and, Bool.false_eq_true, if_false, if_true]

end Moves
end Sys2Proof.Machine

/-! ## The statement -/

section
open Sys2Proof Sys2Proof.Machine

/-- Settles O17: the hypotheses take SMOVE past its checks, and ATX past its own to the store, the load or the clearing of its tile. -/
theorem streamMoves : Obligations.StreamMoves := by
  refine ⟨fun _ _ _ _ _ _ _ _ hd hcodes hsrc hdst hrange hread hwrite => execSmove_run hd hcodes hsrc hdst hrange hread hwrite,
    fun s u t w l d bs hd hmask hshape hfree => ⟨?store, ?load, ?clear⟩⟩
  case store =>
    intro hstore hform hspace r es hrange hgood hwrite
    have hr : (l.word w).atxRange d = r := atxRange_store hstore
    rw [← hr] at hrange hwrite
    have hcheck := atxCheck_memory hmask hshape hform (hr ▸ hspace) hrange
    exact (execAtx_checked hd hcheck).trans (congrArg _ (atxMove_store hfree hstore hgood hwrite))
  case load =>
    intro hload hform hspace r hrange hread
    have hr : (l.word w).atxRange d = r := atxRange_load hload
    rw [← hr] at hrange hread
    have hcheck := atxCheck_memory hmask hshape hform (hr ▸ hspace) hrange
    exact (execAtx_checked hd hcheck).trans (congrArg _ (atxMove_load hfree hload hform hread))
  case clear =>
    intro hload hform
    exact (execAtx_checked hd (atxCheck_clear hmask hshape hform)).trans (congrArg _ (atxMove_clear hfree hload hform))

end
end

section
/-! PROOFS. The instructions of a scalar core that compute in registers and predicates: what each writes, what an inactive lane does, what they leave alone, and the statements that follow (R111, R118 to R123, R433). -/

namespace Sys2Proof.Machine

/-! ## Bits put into a number -/

theorem bitAt_eq_testBit (v i : Nat) : bitAt v i = v.testBit i := by
  rw [bitAt, Nat.shiftRight_eq_div_pow, Nat.testBit_eq_decide_div_mod_eq]

theorem putBits_eq (v lo w x : Nat) : putBits v lo w x = 2 ^ lo * (2 ^ w * (v / 2 ^ lo / 2 ^ w) + x % 2 ^ w) + v % 2 ^ lo := by
  have hlow : v = 2 ^ lo * (v / 2 ^ lo) + v % 2 ^ lo := (Nat.div_add_mod _ _).symm
  have hfield : 2 ^ lo * (v / 2 ^ lo) = 2 ^ lo * (2 ^ w * (v / 2 ^ lo / 2 ^ w)) + 2 ^ lo * (v / 2 ^ lo % 2 ^ w) := by
    rw [← Nat.mul_add, Nat.div_add_mod]
  rw [putBits, bits, Nat.shiftRight_eq_div_pow, Nat.shiftLeft_eq, Nat.shiftLeft_eq, Nat.mul_add, Nat.mul_comm (_ % 2 ^ w), Nat.mul_comm (x % 2 ^ w)]
  omega

theorem testBit_putBits (v lo w x i : Nat) :
    (putBits v lo w x).testBit i = if i < lo then v.testBit i else if i < lo + w then x.testBit (i - lo) else v.testBit i := by
  rw [putBits_eq, Nat.testBit_two_pow_mul_add _ (Nat.mod_lt _ (Nat.two_pow_pos lo)), Nat.testBit_two_pow_mul_add _ (Nat.mod_lt _ (Nat.two_pow_pos w))]
  by_cases hlo : i < lo
  · simp only [hlo, if_true, Nat.testBit_mod_two_pow, decide_true, Bool.true_and]
  · by_cases hw : i - lo < w
    · have hin : i < lo + w := by omega
      simp only [hlo, hin, hw, if_true, if_false, Nat.testBit_mod_two_pow, decide_true, Bool.true_and]
    · have hout : ¬ i < lo + w := by omega
      have hi : i - lo - w + (lo + w) = i := by omega
      simp only [hlo, hout, hw, if_false, Nat.div_div_eq_div_mul, ← Nat.pow_add, Nat.testBit_div_two_pow, hi]

/-- A write of one predicate leaves the others. -/
theorem Thread.setPred_pred_other (x : Thread) {j k : Nat} (v : Bool) (hj : j < 8) (hjk : j ≠ k) : (x.setPred k v).pred j = x.pred j := by
  unfold Thread.setPred
  split
  · rfl
  · have hmask : ∀ y : Nat, (y % 2 ^ 8).testBit j = y.testBit j := fun y => by simp only [Nat.testBit_mod_two_pow, hj, decide_true, Bool.true_and]
    have houtside : j < k ∨ ¬ j < k + 1 := by omega
    simp only [Thread.pred, bitAt_eq_testBit, BitVec.toNat_ofNat, hmask, testBit_putBits]
    rcases houtside with h | h <;> simp only [h, if_true, if_false, ite_self]

/-- SCL leaves B[7:0] in bits [15:8] and the rest of A (R118). -/
theorem scl_fields (a b : W32) :
    let r : W32 := BitVec.ofNat 32 (putBits a.toNat 8 8 b.toNat)
    r.extractLsb' 0 8 = a.extractLsb' 0 8 ∧ r.extractLsb' 8 8 = b.extractLsb' 0 8 ∧ r.extractLsb' 16 16 = a.extractLsb' 16 16 := by
  intro r
  have hbit : ∀ i, r.getLsbD i = (decide (i < 32) && if i < 8 then a.getLsbD i else if i < 16 then b.getLsbD (i - 8) else a.getLsbD i) := fun i => by
    rw [BitVec.getLsbD_ofNat, testBit_putBits]
    rfl
  refine ⟨BitVec.eq_of_getLsbD_eq fun i hi => ?low, BitVec.eq_of_getLsbD_eq fun i hi => ?scale, BitVec.eq_of_getLsbD_eq fun i hi => ?high⟩
  case low =>
    have h32 : i < 32 := by omega
    simp only [BitVec.getLsbD_extractLsb', Nat.zero_add, hbit, hi, h32, decide_true, Bool.true_and, if_true]
  case scale =>
    have h32 : 8 + i < 32 := by omega
    have h8 : ¬ 8 + i < 8 := by omega
    have h16 : 8 + i < 16 := by omega
    simp only [BitVec.getLsbD_extractLsb', Nat.zero_add, hbit, hi, h32, h8, h16, decide_true, Bool.true_and, if_true, if_false, Nat.add_sub_cancel_left]
  case high =>
    have h32 : 16 + i < 32 := by omega
    have h8 : ¬ 16 + i < 8 := by omega
    have h16 : ¬ 16 + i < 16 := by omega
    simp only [BitVec.getLsbD_extractLsb', hbit, hi, h32, h8, h16, decide_true, Bool.true_and, if_false]

/-! ## What an issue writes -/

section Issues
variable {s : State} {t : ThreadId} {w : IWord} {op : Nat} {l : Launch}

theorem intOp_wrote {f : Nat → W32 → W32 → W32} (hl : s.issues t w op regsDAB = some l) (hp : (s.th t.val).pred (l.word w).pred.toNat = true) :
    s.intOp t w op f = s.wrote t (l.word w).d (f (l.word w).ty ((s.th t.val).get (l.word w).a) ((l.word w).opB (s.th t.val))) {} :=
  alu_wrote hl hp

/-- A shift's distance is B[4:0]. -/
theorem toNat_and_31 (b : W32) : (b &&& 31).toNat = b.toNat % 32 := by
  rw [BitVec.toNat_and]
  exact Nat.and_two_pow_sub_one_eq_mod b.toNat 5

theorem fltOp_wrote {f : LFmt → Nat → Nat → Nat × Ev} (hl : s.issues t w op regsDAB = some l) (hp : (s.th t.val).pred (l.word w).pred.toNat = true) :
    let g := fltOf (l.word w).ty
    let r := f g (fltIn g ((s.th t.val).get (l.word w).a)) (fltIn g ((l.word w).opB (s.th t.val)))
    s.fltOp t w op f = s.wrote t (l.word w).d (fltOut r) r.2 :=
  alu_wrote hl hp

theorem flt1_wrote {f : LFmt → Nat → Nat × Ev} (hl : s.issues t w op regsDA = some l) (hp : (s.th t.val).pred (l.word w).pred.toNat = true) :
    let g := fltOf (l.word w).ty
    let r := f g (fltIn g ((s.th t.val).get (l.word w).a))
    s.flt1 t w op f = s.wrote t (l.word w).d (fltOut r) r.2 :=
  alu_wrote hl hp

theorem cmpOp_wrote {r : Rel} {ty : Ty} (hty : Ty.ofCode (l.word w).ty = some ty) (hl : s.issues t w op regsAB = some l)
    (hp : (s.th t.val).pred (l.word w).pred.toNat = true) :
    s.cmpOp t w op r = s.wroteK t ((l.word w).d.toNat % 8)
      (r.holds (regValue ty ((s.th t.val).get (l.word w).a).toNat) (regValue ty ((l.word w).opB (s.th t.val)).toNat)) :=
  (pred_run hl hp).trans (by rw [hty])

end Issues

/-! ## The forms of the register instructions -/

section Forms
variable {t : ThreadId} {w : IWord} {op : Nat} {c : Instr}

/-- The arithmetic instructions of two sources, each with its operation. -/
def twoSource (t : ThreadId) (w : IWord) : List (Nat × Instr) :=
  [(0x02, .add t w), (0x03, .sub t w), (0x04, .mul t w), (0x05, .and t w), (0x06, .or t w), (0x07, .xor t w), (0x08, .shl t w), (0x09, .shr t w),
    (0x0A, .sra t w), (0x0B, .imin t w), (0x0C, .imax t w), (0x0D, .scl t w), (0x10, .fadd t w), (0x11, .fsub t w), (0x12, .fmul t w), (0x13, .ffma t w),
    (0x14, .fdiv t w), (0x16, .fmax t w), (0x17, .fmin t w)]
/-- Those of source A alone. -/
def oneSource (t : ThreadId) (w : IWord) : List (Nat × Instr) :=
  [(0x15, .fsqrt t w), (0x18, .fabs t w), (0x19, .fneg t w), (0x1A, .exp2 t w), (0x1B, .log2 t w)]
def comparisons (t : ThreadId) (w : IWord) : List (Nat × Instr) :=
  [(0x20, .ceq t w), (0x21, .cne t w), (0x22, .clt t w), (0x23, .cle t w), (0x24, .cun t w), (0x29, .cgt t w), (0x2A, .cge t w)]
def predicateLogic (t : ThreadId) (w : IWord) : List (Nat × Instr) := [(0x26, .kand t w), (0x27, .kor t w), (0x28, .knot t w)]

theorem exec_twoSource : ∀ e ∈ twoSource t w, ∃ f, ∀ s, exec e.2 s = .next (s.alu t w e.1 regsAB f) := by
  simp only [twoSource, List.forall_mem_cons, List.not_mem_nil, false_imp_iff, implies_true, and_true]
  refine ⟨?_, ?_, ?_, ?_, ?_, ?_, ?_, ?_, ?_, ?_, ?_, ?_, ?_, ?_, ?_, ?_, ?_, ?_, ?_⟩ <;> exact ⟨_, fun _ => rfl⟩

theorem exec_oneSource : ∀ e ∈ oneSource t w, ∃ f, ∀ s, exec e.2 s = .next (s.alu t w e.1 regsA f) := by
  simp only [oneSource, List.forall_mem_cons, List.not_mem_nil, false_imp_iff, implies_true, and_true]
  refine ⟨?_, ?_, ?_, ?_, ?_⟩ <;> exact ⟨_, fun _ => rfl⟩

theorem exec_comparison : ∀ e ∈ comparisons t w, ∃ f, ∀ s, exec e.2 s = .next (s.predOp t w e.1 regsAB f) := by
  simp only [comparisons, List.forall_mem_cons, List.not_mem_nil, false_imp_iff, implies_true, and_true]
  refine ⟨?_, ?_, ?_, ?_, ?_, ?_, ?_⟩ <;> exact ⟨_, fun _ => rfl⟩

theorem exec_predicateLogic : ∀ e ∈ predicateLogic t w, ∃ f, ∀ s, exec e.2 s = .next (s.predOp t w e.1 (fun _ => []) f) := by
  simp only [predicateLogic, List.forall_mem_cons, List.not_mem_nil, false_imp_iff, implies_true, and_true]
  refine ⟨?_, ?_, ?_⟩ <;> exact ⟨_, fun _ => rfl⟩

end Forms

/-! ## An inactive lane (R122) -/

section Inactive
variable {s : State} {t : ThreadId} {w : IWord} {op : Nat} {l : Launch} {c : Instr}

theorem exec_alu_idle {regs : IWord → List (BitVec 5)} (hc : ∃ f, ∀ s, exec c s = .next (s.alu t w op regs f))
    (hl : s.issues t w op (fun e => e.d :: regs e) = some l) (hp : (s.th t.val).pred (l.word w).pred.toNat = false) :
    exec c s = .next (s.updTh t.val fun x => (if (l.word w).mz then x.set (l.word w).d 0 else x).next) := by
  obtain ⟨f, hf⟩ := hc
  rw [hf, alu_idle hl hp]

theorem exec_predOp_idle {regs : IWord → List (BitVec 5)} (hc : ∃ f, ∀ s, exec c s = .next (s.predOp t w op regs f))
    (hl : s.issues t w op regs = some l) (hp : (s.th t.val).pred (l.word w).pred.toNat = false) :
    exec c s = .next (s.updTh t.val fun x => (if (l.word w).mz then x.setPred ((l.word w).d.toNat % 8) false else x).next) := by
  obtain ⟨f, hf⟩ := hc
  rw [hf, pred_idle hl hp]

end Inactive

theorem State.updTh_congr {s : State} {t : Nat} {f g : Thread → Thread} (h : f (s.th t) = g (s.th t)) : s.updTh t f = s.updTh t g :=
  congrArg (fun x => ({ s with ths := s.ths.put {} t x } : State)) h

/-- BR goes where its lane says. -/
theorem execBr_run {s : State} {t : ThreadId} {w : IWord} {l : Launch} (hl : s.issues t w 0x50 (fun _ => []) = some l) :
    exec (.br t w) s = .next (if (s.th t.val).pred (l.word w).pred.toNat then s.updTh t.val fun x => { x with pc := bits (l.word w).immN 0 16 }
      else s.nextPc t) := by
  refine congrArg _ ((issue_run hl).trans ?_)
  split
  · exact State.updTh_congr (if_pos ‹_›)
  · exact State.updTh_congr (if_neg ‹_›)

/-! ## What a register instruction leaves (R111, R118, R122) -/

/-- Thread y is thread x but for G[d], K[d mod 8] and the program counter. -/
structure Thread.KeptBut (x y : Thread) (d : BitVec 5) : Prop where
  get : ∀ r, r ≠ d → y.get r = x.get r
  pred : ∀ k, k < 8 → k ≠ d.toNat % 8 → y.pred k = x.pred k
  b : y.b = x.b
  loads : y.loads = x.loads
  wait : y.wait = x.wait
  launch : y.launch = x.launch

theorem Thread.keptBut_refl (x : Thread) (d : BitVec 5) : x.KeptBut x d := ⟨fun _ _ => rfl, fun _ _ _ => rfl, rfl, rfl, rfl, rfl⟩
theorem Thread.keptBut_next (x : Thread) (d : BitVec 5) : x.KeptBut x.next d := ⟨fun _ _ => rfl, fun _ _ _ => rfl, rfl, rfl, rfl, rfl⟩

theorem Thread.keptBut_set (x : Thread) (d : BitVec 5) (v : W32) : x.KeptBut (x.set d v).next d :=
  ⟨fun r hr => x.get_set_other d r v hr, fun k _ _ => x.set_pred d v k, x.set_b d v, x.set_loads d v, x.set_wait d v, x.set_launch d v⟩

theorem Thread.keptBut_setPred (x : Thread) (d : BitVec 5) (v : Bool) : x.KeptBut (x.setPred (d.toNat % 8) v).next d :=
  ⟨fun r _ => x.setPred_get _ v r, fun _ hk hne => x.setPred_pred_other v hk hne, x.setPred_b _ v, x.setPred_loads _ v, x.setPred_wait _ v,
    x.setPred_launch _ v⟩

/-- State u is state s but for the threads and the commands of partition p: what an instruction that counts for a command of p may change beside its thread. -/
structure State.KeptBeside (s u : State) (p : PtnId) : Prop where
  mem : u.mem = s.mem
  mcs : u.mcs = s.mcs
  tes : u.tes = s.tes
  launches : u.launches = s.launches
  ups : u.ups = s.ups
  qps : u.qps = s.qps
  mod : u.mod = s.mod
  saf : u.saf = s.saf
  others : ∀ r, r ≠ p → u.ptn r = s.ptn r
  own : (s.ptn p).st = 1 → (u.ptn p).st = 1 ∧ (u.ptn p).sems = (s.ptn p).sems ∧ (u.ptn p).jobs = (s.ptn p).jobs ∧ (u.ptn p).mem = (s.ptn p).mem

theorem State.KeptBeside.refl (s : State) (p : PtnId) : s.KeptBeside s p :=
  ⟨rfl, rfl, rfl, rfl, rfl, rfl, rfl, rfl, fun _ _ => rfl, fun h => ⟨h, rfl, rfl, rfl⟩⟩

theorem State.KeptBeside.updTh {s u : State} {p : PtnId} (h : s.KeptBeside u p) (n : Nat) (f : Thread → Thread) : s.KeptBeside (u.updTh n f) p :=
  ⟨h.mem, h.mcs, h.tes, h.launches, h.ups, h.qps, h.mod, h.saf, h.others, h.own⟩

theorem State.KeptBeside.addSheet {s u : State} {l : Launch} (h : s.KeptBeside u l.ptn) (f : Sheet → Sheet) : s.KeptBeside (u.addSheet l.hdr f) l.ptn where
  mem := h.mem
  mcs := h.mcs
  tes := h.tes
  launches := h.launches
  ups := h.ups
  qps := h.qps
  mod := h.mod
  saf := h.saf
  others r hr := (u.ptn_updPtn_other l.ptn r _ hr).trans (h.others r hr)
  own hst := by
    obtain ⟨hst', hsems, hjobs, hmem⟩ := h.own hst
    have hread : (u.addSheet l.hdr f).ptn l.ptn = _ := u.ptn_updPtn_same l.ptn _ fun e => by
      have h0 : (u.ptn l.ptn).st = 0 := congrArg Ptn.st e
      rw [hst'] at h0
      exact absurd h0 (by decide)
    rw [hread]
    exact ⟨hst', hsems, hjobs, hmem⟩

/-- The launch that a thread works for; where there is none, the empty one. -/
def State.launchOf (s : State) (t : ThreadId) : Launch := (s.launch? (s.th t.val).launch).getD {}

theorem launchOf_some {s : State} {t : ThreadId} {l : Launch} (hl : s.launch? (s.th t.val).launch = some l) : s.launchOf t = l := by
  rw [State.launchOf, hl, Option.getD_some]

/-- What an instruction of thread t may change in registers, with d the register that its word names. -/
structure State.RegisterStep (s u : State) (t : ThreadId) (d : BitVec 5) : Prop where
  others : ∀ n, n ≠ t.val → u.th n = s.th n
  self : (s.th t.val).KeptBut (u.th t.val) d
  beside : s.KeptBeside u (s.launchOf t).ptn

section Frame
variable {s : State} {t : ThreadId} {d : BitVec 5} {l : Launch}

theorem State.RegisterStep.refl (s : State) (t : ThreadId) (d : BitVec 5) : s.RegisterStep s t d :=
  ⟨fun _ _ => rfl, Thread.keptBut_refl _ d, .refl s _⟩

/-- The program counter of a thread that goes on is not 0, so the thread reads back as it was written. -/
theorem State.th_updTh_next (s : State) (n : Nat) (f : Thread → Thread) : (s.updTh n fun x => (f x).next).th n = (f (s.th n)).next :=
  s.th_updTh_same n _ fun e => Nat.succ_ne_zero _ (congrArg Thread.pc e)

theorem State.RegisterStep.of_next {f : Thread → Thread} (h : (s.th t.val).KeptBut (f (s.th t.val)).next d) :
    s.RegisterStep (s.updTh t.val fun x => (f x).next) t d where
  others n hn := s.th_updTh_other t.val n _ hn
  self := by rwa [s.th_updTh_next]
  beside := (State.KeptBeside.refl s _).updTh _ _

theorem State.RegisterStep.addSheet {u : State} (h : s.RegisterStep u t d) (hl : s.launch? (s.th t.val).launch = some l) (f : Sheet → Sheet) :
    s.RegisterStep (u.addSheet l.hdr f) t d where
  others := h.others
  self := h.self
  beside := by
    have hbeside := h.beside
    rw [launchOf_some hl] at hbeside ⊢
    exact hbeside.addSheet f

theorem State.RegisterStep.threadEv {u : State} (h : s.RegisterStep u t d) (e : Ev) : s.RegisterStep (u.threadEv t e) t d := by
  rw [State.threadEv, State.launch?, h.beside.launches, h.self.launch]
  cases hl : s.launches.find? (·.id = (s.th t.val).launch) with
  | none => exact h
  | some l => exact h.addSheet hl _

theorem State.registerStep_wrote (s : State) (t : ThreadId) (d : BitVec 5) (v : W32) (e : Ev) : s.RegisterStep (s.wrote t d v e) t d :=
  (State.RegisterStep.of_next (Thread.keptBut_set _ d v)).threadEv e

/-- An inactive lane keeps G[D] or clears it. -/
theorem State.registerStep_idle (s : State) (t : ThreadId) (d : BitVec 5) (mz : Bool) : s.RegisterStep (s.updTh t.val fun x => (if mz then x.set d 0 else x).next) t d := by
  cases mz
  · exact .of_next (f := id) (Thread.keptBut_next _ d)
  · exact .of_next (Thread.keptBut_set _ d 0)

end Frame

/-! ## The registers a word names (R433) -/

section Named
variable {s : State} {t : ThreadId} {l : Launch}

theorem regsAB_subset (e : IWord) : regsAB e ⊆ [e.a, e.b] := by
  unfold regsAB
  split
  · exact List.cons_subset_cons _ (List.nil_subset _)
  · exact List.Subset.refl _

theorem regsA_subset (e : IWord) : regsA e ⊆ [e.a, e.b] := List.cons_subset_cons _ (List.nil_subset _)

/-- The source of MOV. -/
theorem movRegs_subset (e : IWord) : (if e.i then [] else [e.a]) ⊆ [e.a, e.b] := by
  split
  · exact List.nil_subset _
  · exact List.cons_subset_cons _ (List.nil_subset _)

theorem regsBad_subset {rs all : List (BitVec 5)} (hsub : rs ⊆ all) (hgood : s.regsBad t all = false) : s.regsBad t rs = false := by
  simp only [State.regsBad, List.any_eq_false] at hgood ⊢
  exact fun r hr => hgood r (hsub hr)

theorem noIssue_readable {rs : List (BitVec 5)} {bad : Bool} (hgood : s.regsBad t rs = false) (hstop : (!s.canIssue t rs || bad) = true) :
    s.noIssue t l rs bad = s := by
  rw [State.canIssue, hgood, Bool.not_false, Bool.and_true] at hstop
  refine if_neg fun h => ?_
  obtain ⟨hturn, hbad⟩ := Bool.and_eq_true_iff.mp h
  rw [hturn, (Bool.not_eq_true' _).mp hbad] at hstop
  exact absurd hstop Bool.false_ne_true

theorem noIssue_unreadable {rs : List (BitVec 5)} (hturn : s.turn t rs = true) : s.noIssue t l rs false = s.localStop t l 2 :=
  if_pos (by rw [hturn]; rfl)

end Named

/-! ## The step of each form -/

/-- What an arithmetic instruction does once it issues (R122). -/
def State.aluDone (s : State) (t : ThreadId) (f : Launch → IWord → Thread → W32 × Ev) (l : Launch) (e : IWord) : State :=
  if (s.th t.val).pred e.pred.toNat then s.wrote t e.d (f l e (s.th t.val)).1 (f l e (s.th t.val)).2
  else s.updTh t.val fun x => (if e.mz then x.set e.d 0 else x).next

/-- What a comparison or a predicate instruction does once it issues. -/
def State.predDone (s : State) (t : ThreadId) (f : IWord → Thread → Bool) (_ : Launch) (e : IWord) : State :=
  s.updTh t.val fun x => (if (s.th t.val).pred e.pred.toNat then x.setPred (e.d.toNat % 8) (f e (s.th t.val))
    else if e.mz then x.setPred (e.d.toNat % 8) false else x).next

theorem alu_eq_issue (s : State) (t : ThreadId) (w : IWord) (op : Nat) (regs : IWord → List (BitVec 5)) (f : Launch → IWord → Thread → W32 × Ev) :
    s.alu t w op regs f = s.issue t w op (fun e => e.d :: regs e) (s.aluDone t f) := rfl

theorem predOp_eq_issue (s : State) (t : ThreadId) (w : IWord) (op : Nat) (regs : IWord → List (BitVec 5)) (f : IWord → Thread → Bool) :
    s.predOp t w op regs f = s.issue t w op regs (s.predDone t f) := rfl

section Steps
variable {s : State} {t : ThreadId} {w : IWord} {op : Nat}

/-- No register that the word names stands in a word with an uncorrectable error. -/
def State.namesReadable (s : State) (t : ThreadId) (w : IWord) : Prop :=
  let e := (s.launchOf t).word w
  s.regsBad t [e.d, e.a, e.b] = false

variable (hgood : s.namesReadable t w)
include hgood

theorem issue_registerStep {regs : IWord → List (BitVec 5)} {f : Launch → IWord → State} (hsub : ∀ e, regs e ⊆ [e.d, e.a, e.b])
    (hf : ∀ l, s.launch? (s.th t.val).launch = some l → s.RegisterStep (f l (l.word w)) t ((s.launchOf t).word w).d) :
    s.RegisterStep (s.issue t w op regs f) t ((s.launchOf t).word w).d := by
  unfold State.issue
  split
  · exact .refl s t _
  · rename_i l hl
    dsimp only
    split
    · rename_i hstop
      rw [State.namesReadable, launchOf_some hl] at hgood
      rw [noIssue_readable (regsBad_subset (hsub _) hgood) hstop]
      exact .refl s t _
    · exact hf l hl

theorem alu_registerStep {regs : IWord → List (BitVec 5)} {f : Launch → IWord → Thread → W32 × Ev} (hsub : ∀ e, regs e ⊆ [e.a, e.b]) :
    s.RegisterStep (s.alu t w op regs f) t ((s.launchOf t).word w).d := by
  rw [alu_eq_issue]
  refine issue_registerStep hgood (fun e => List.cons_subset_cons _ (hsub e)) fun l hl => ?_
  rw [launchOf_some hl, State.aluDone]
  split
  · exact s.registerStep_wrote t _ _ _
  · exact s.registerStep_idle t _ _

theorem predOp_registerStep {regs : IWord → List (BitVec 5)} {f : IWord → Thread → Bool} (hsub : ∀ e, regs e ⊆ [e.d, e.a, e.b]) :
    s.RegisterStep (s.predOp t w op regs f) t ((s.launchOf t).word w).d := by
  rw [predOp_eq_issue]
  refine issue_registerStep hgood hsub fun l hl => ?_
  rw [launchOf_some hl]
  refine .of_next ?_
  split
  · exact Thread.keptBut_setPred _ _ _
  · split
    · exact Thread.keptBut_setPred _ _ _
    · exact Thread.keptBut_next _ _

theorem nop_registerStep : s.RegisterStep (s.issue t w 0x00 (fun _ => []) fun _ _ => s.nextPc t) t ((s.launchOf t).word w).d :=
  issue_registerStep hgood (fun _ => List.nil_subset _) fun _ _ => .of_next (f := id) (Thread.keptBut_next _ _)

theorem sel_registerStep : s.RegisterStep (s.issue t w 0x25 (fun e => e.d :: regsAB e) fun _ e =>
    s.updTh t.val fun x => (x.set e.d (if x.pred e.pred.toNat then x.get e.a else e.opB x)).next) t ((s.launchOf t).word w).d := by
  refine issue_registerStep hgood (fun e => List.cons_subset_cons _ (regsAB_subset e)) fun l hl => ?_
  rw [launchOf_some hl]
  exact .of_next (Thread.keptBut_set _ _ _)

theorem cvt_registerStep : s.RegisterStep (s.issue t w 0x30 (fun e => [e.d, e.a, e.b]) fun l e =>
    let x := s.th t.val
    if x.pred e.pred.toNat then
      let r := cvtValue l e (x.get e.a) (x.get e.b)
      (s.wrote t e.d r.1 r.2.1).addSheet l.hdr (·.addAmax r.2.2)
    else s.updTh t.val fun x => (if e.mz then x.set e.d 0 else x).next) t ((s.launchOf t).word w).d := by
  refine issue_registerStep hgood (fun _ => List.Subset.refl _) fun l hl => ?_
  rw [launchOf_some hl]
  dsimp only
  split
  · exact (s.registerStep_wrote t _ _ _).addSheet hl _
  · exact s.registerStep_idle t _ _

end Steps

/-- Every register instruction of a scalar core. -/
def registerInstrs (t : ThreadId) (w : IWord) : List Instr :=
  [.nopInstruction t w, .mov t w, .add t w, .sub t w, .mul t w, .and t w, .or t w, .xor t w, .shl t w, .shr t w, .sra t w, .imin t w,
    .imax t w, .scl t w, .fadd t w, .fsub t w, .fmul t w, .ffma t w, .fdiv t w, .fsqrt t w, .fmax t w, .fmin t w, .fabs t w, .fneg t w, .exp2 t w,
    .log2 t w, .ceq t w, .cne t w, .clt t w, .cle t w, .cun t w, .cgt t w, .cge t w, .sel t w, .kand t w, .kor t w, .knot t w, .cvt t w]

/-- Each register instruction, by its form. -/
theorem exec_registerStep {s : State} {t : ThreadId} {w : IWord} (hgood : s.namesReadable t w) :
    ∀ c ∈ registerInstrs t w, ∃ u, exec c s = .next u ∧ s.RegisterStep u t ((s.launchOf t).word w).d := by
  have two : ∀ {op f}, s.RegisterStep (s.alu t w op regsAB f) t ((s.launchOf t).word w).d := alu_registerStep hgood regsAB_subset
  have one : ∀ {op f}, s.RegisterStep (s.alu t w op regsA f) t ((s.launchOf t).word w).d := alu_registerStep hgood regsA_subset
  have compare : ∀ {op f}, s.RegisterStep (s.predOp t w op regsAB f) t ((s.launchOf t).word w).d :=
    predOp_registerStep hgood fun e => List.subset_cons_of_subset _ (regsAB_subset e)
  have logic : ∀ {op f}, s.RegisterStep (s.predOp t w op (fun _ => []) f) t ((s.launchOf t).word w).d := predOp_registerStep hgood fun _ => List.nil_subset _
  simp only [registerInstrs, List.forall_mem_cons, List.not_mem_nil, false_imp_iff, implies_true, and_true]
  exact ⟨⟨_, rfl, nop_registerStep hgood⟩, ⟨_, rfl, alu_registerStep hgood movRegs_subset⟩, ⟨_, rfl, two⟩, ⟨_, rfl, two⟩, ⟨_, rfl, two⟩, ⟨_, rfl, two⟩, ⟨_, rfl, two⟩,
    ⟨_, rfl, two⟩, ⟨_, rfl, two⟩, ⟨_, rfl, two⟩, ⟨_, rfl, two⟩, ⟨_, rfl, two⟩, ⟨_, rfl, two⟩, ⟨_, rfl, two⟩, ⟨_, rfl, two⟩, ⟨_, rfl, two⟩, ⟨_, rfl, two⟩,
    ⟨_, rfl, two⟩, ⟨_, rfl, two⟩, ⟨_, rfl, one⟩, ⟨_, rfl, two⟩, ⟨_, rfl, two⟩, ⟨_, rfl, one⟩, ⟨_, rfl, one⟩, ⟨_, rfl, one⟩, ⟨_, rfl, one⟩,
    ⟨_, rfl, compare⟩, ⟨_, rfl, compare⟩, ⟨_, rfl, compare⟩, ⟨_, rfl, compare⟩, ⟨_, rfl, compare⟩, ⟨_, rfl, compare⟩, ⟨_, rfl, compare⟩,
    ⟨_, rfl, sel_registerStep hgood⟩, ⟨_, rfl, logic⟩, ⟨_, rfl, logic⟩, ⟨_, rfl, logic⟩, ⟨_, rfl, cvt_registerStep hgood⟩⟩

/-! ## A register that cannot be read (R433) -/

section Unreadable
variable {s : State} {t : ThreadId} {w : IWord} {op : Nat} {l : Launch} {c : Instr} {regs : IWord → List (BitVec 5)}
variable (hl : s.launch? (s.th t.val).launch = some l) (hword : wordCheck op (l.word w) l.code.length = none)
include hl hword

theorem issue_unreadable {f : Launch → IWord → State} (hturn : s.turn t (regs (l.word w)) = true) (hbad : s.regsBad t (regs (l.word w)) = true) :
    s.issue t w op regs f = s.localStop t l 2 := by
  simp only [State.issue, hl, hword, State.canIssue, hturn, hbad, Option.isSome_none, Bool.not_true, Bool.and_false, Bool.not_false, Bool.true_or, if_true,
    noIssue_unreadable hturn]

theorem exec_alu_unreadable (hc : ∃ f, ∀ s, exec c s = .next (s.alu t w op regs f)) (hturn : s.turn t ((l.word w).d :: regs (l.word w)) = true)
    (hbad : s.regsBad t ((l.word w).d :: regs (l.word w)) = true) : exec c s = .next (s.localStop t l 2) := by
  obtain ⟨f, hf⟩ := hc
  rw [hf, alu_eq_issue, issue_unreadable hl hword hturn hbad]

theorem exec_predOp_unreadable (hc : ∃ f, ∀ s, exec c s = .next (s.predOp t w op regs f)) (hturn : s.turn t (regs (l.word w)) = true)
    (hbad : s.regsBad t (regs (l.word w)) = true) : exec c s = .next (s.localStop t l 2) := by
  obtain ⟨f, hf⟩ := hc
  rw [hf, predOp_eq_issue, issue_unreadable hl hword hturn hbad]

end Unreadable
end Sys2Proof.Machine

section
open Sys2Proof Sys2Proof.Machine

/-- Settles O6: each instruction is an integer operation that issues, so it writes what the operation gives. -/
theorem integerResults : Obligations.IntegerResults := by
  intro s t w l e x a b lt hp
  have hshift : (b &&& 31).toNat = b.toNat % 32 := toNat_and_31 b
  refine ⟨fun h => congrArg _ (alu_wrote h hp), fun h => congrArg _ (intOp_wrote h hp), fun h => congrArg _ (intOp_wrote h hp),
    fun h => congrArg _ (intOp_wrote h hp), fun h => congrArg _ (intOp_wrote h hp), fun h => congrArg _ (intOp_wrote h hp),
    fun h => congrArg _ (intOp_wrote h hp), ?shl, ?shr, ?sra, fun h => congrArg _ (intOp_wrote h hp), fun h => congrArg _ (intOp_wrote h hp), ?scl⟩
  case shl =>
    intro h
    rw [BitVec.shiftLeft_eq', hshift]
    exact congrArg _ (intOp_wrote h hp)
  case shr =>
    intro h
    rw [BitVec.ushiftRight_eq', hshift]
    exact congrArg _ (intOp_wrote h hp)
  case sra =>
    intro h
    rw [hshift]
    exact congrArg _ (intOp_wrote h hp)
  case scl => exact fun h => ⟨_, congrArg _ (intOp_wrote h hp), scl_fields a b⟩

/-- Settles O7: each instruction is a floating operation that issues, so it writes and counts what the operation gives. -/
theorem floatResults : Obligations.FloatResults := by
  intro s t w l e x g a b d leaves hp
  exact ⟨fun h => congrArg _ (fltOp_wrote h hp), fun h => congrArg _ (fltOp_wrote h hp), fun h => congrArg _ (fltOp_wrote h hp),
    fun h => congrArg _ (alu_wrote h hp), fun h => congrArg _ (fltOp_wrote h hp), fun h => congrArg _ (flt1_wrote h hp),
    fun h => congrArg _ (fltOp_wrote h hp), fun h => congrArg _ (fltOp_wrote h hp), fun h => congrArg _ (flt1_wrote h hp),
    fun h => congrArg _ (flt1_wrote h hp), fun h => congrArg _ (flt1_wrote h hp), fun h => congrArg _ (flt1_wrote h hp)⟩

/-- Settles O8: a comparison writes its relation, a predicate instruction its logic, and SEL the source that the predicate names. -/
theorem comparesAndPredicates : Obligations.ComparesAndPredicates := by
  intro s t w l e x k ka kb
  refine ⟨?compare, ?logic, fun h => congrArg _ (issue_run h)⟩
  case compare =>
    intro ty hty hp a b
    exact ⟨fun h => congrArg _ (cmpOp_wrote hty h hp), fun h => congrArg _ (cmpOp_wrote hty h hp), fun h => congrArg _ (cmpOp_wrote hty h hp),
      fun h => congrArg _ (cmpOp_wrote hty h hp), fun h => congrArg _ (cmpOp_wrote hty h hp), fun h => congrArg _ (cmpOp_wrote hty h hp),
      fun h => congrArg _ (cmpOp_wrote hty h hp)⟩
  case logic =>
    intro hp
    exact ⟨fun h => congrArg _ (pred_run h hp), fun h => congrArg _ (pred_run h hp), fun h => congrArg _ (pred_run h hp)⟩

/-- Settles O9: an inactive lane of each form of instruction, by the lemma of its form. -/
theorem inactiveLanes : Obligations.InactiveLanes := by
  intro s t w l e idle idleK hp
  exact ⟨fun op c hc hl => exec_alu_idle (exec_twoSource (op, c) hc) hl hp, fun op c hc hl => exec_alu_idle (exec_oneSource (op, c) hc) hl hp,
    fun op c hc hl => exec_predOp_idle (exec_comparison (op, c) hc) hl hp, fun op c hc hl => exec_predOp_idle (exec_predicateLogic (op, c) hc) hl hp,
    fun hl => (execBr_run hl).trans (congrArg _ (if_neg (Bool.eq_false_iff.mp hp)))⟩

/-- Settles O10: a register instruction whose registers can be read is a register step, by its form; one whose registers cannot be read stops its launch. -/
theorem registerInstructionFrame : Obligations.RegisterInstructionFrame := by
  refine ⟨?frame, ?unreadable⟩
  case frame =>
    intro s u t w c hc l d hgood hu
    obtain ⟨v, hv, hstep⟩ := exec_registerStep (s := s) hgood c hc
    obtain rfl : v = u := Host.Outcome.next.inj (hv.symm.trans hu)
    obtain ⟨hothers, hself, hbeside⟩ := hstep
    exact ⟨hothers, hself.get, hself.pred, hself.b, hself.loads, hself.wait, hself.launch, hbeside.mem, hbeside.mcs, hbeside.tes, hbeside.launches, hbeside.ups,
      hbeside.qps, hbeside.mod, hbeside.saf, hbeside.others, fun hst => (hbeside.own hst).2⟩
  case unreadable =>
    intro s t w l hl e stops
    refine ⟨fun op c hc hword hturn hbad => ?two, fun op c hc hword hturn hbad => exec_alu_unreadable hl hword (exec_oneSource (op, c) hc) hturn hbad,
      fun op c hc hword hturn hbad => exec_predOp_unreadable hl hword (exec_comparison (op, c) hc) hturn hbad⟩
    case two =>
      rcases List.mem_append.mp (show (op, c) ∈ twoSource t w ++ [(0x25, .sel t w)] from hc) with hc | hc
      · exact exec_alu_unreadable hl hword (exec_twoSource (op, c) hc) hturn hbad
      · obtain ⟨rfl, rfl⟩ := Prod.mk.inj (List.mem_singleton.mp hc)
        exact congrArg _ (issue_unreadable (regs := regsDAB) hl hword hturn hbad)

end
end

section
/-! PROOFS. The control of a thread and the semaphores: what each control instruction does once it issues, what the release of a barrier leaves, who takes a semaphore, and the statements that follow (R116, R118, R123, R138, R139, R303 to R305). -/

namespace Sys2Proof.Machine

/-! ## SUMRY and TEWAIT -/

section Control
variable {s : State} {t : ThreadId} {w : IWord} {l : Launch}

theorem execSumry_active (hl : s.issues t w 0x55 (fun e => [e.a]) = some l) (hp : (s.th t.val).pred (l.word w).pred.toNat = true) :
    exec (.sumry t w) s = .next ((s.updLaunch l.id fun y => { y with
      slots := updNth (·.add (BitVec.ofNat 2 (bits (l.word w).immN 4 2)) ((s.th t.val).get (l.word w).a)) y.slots (bits (l.word w).immN 0 4) }).nextPc t) := by
  refine congrArg _ ((issue_run hl).trans ?_)
  simp only [hp, Bool.not_true, Bool.false_eq_true, if_false]

/-- TEWAIT goes on, or waits for its number of requests. -/
theorem execTewait_run (hl : s.issues t w 0x45 (fun _ => []) = some l) :
    exec (.tewait t w) s = .next (if (s.th t.val).pred (l.word w).pred.toNat = false ∨ (s.th t.val).teOut ≤ bits (l.word w).immN 0 12 then s.nextPc t
      else s.updTh t.val fun x => { x.next with wait := .te (bits (l.word w).immN 0 12) }) := by
  refine congrArg _ ((issue_run hl).trans ?_)
  split
  · rename_i hgo
    exact State.updTh_congr (if_pos (by simpa using hgo))
  · rename_i hwait
    exact State.updTh_congr (if_neg (by simpa using hwait))

end Control

/-! ## The release of a barrier (R118) -/

/-- Threads of a list that `p` holds of are changed by `f`. -/
def State.updThs (s : State) (p : Nat → Bool) (f : Thread → Thread) (ts : List Nat) : State := ts.foldl (fun z t => if p t then z.updTh t f else z) s

section Barrier
variable {s : State} {p : Nat → Bool} {f : Thread → Thread} {ts : List Nat} {t : Nat}

theorem State.updThs_cons (s : State) (p : Nat → Bool) (f : Thread → Thread) (a : Nat) (ts : List Nat) :
    s.updThs p f (a :: ts) = (if p a then s.updTh a f else s).updThs p f ts := rfl

/-- What no update of a thread changes, none of the list changes. -/
theorem State.updThs_frame {β : Type} (g : State → β) (hg : ∀ z n, g (State.updTh z n f) = g z) (s : State) : g (s.updThs p f ts) = g s := by
  induction ts generalizing s with
  | nil => rfl
  | cons a ts ih =>
    rw [State.updThs_cons, ih]
    split
    · exact hg s a
    · rfl

theorem State.th_updThs_outside (ht : t ∉ ts) (s : State) : (s.updThs p f ts).th t = s.th t := by
  induction ts generalizing s with
  | nil => rfl
  | cons a ts ih =>
    obtain ⟨hne, hts⟩ := not_or.mp (mt List.mem_cons.mpr ht)
    rw [State.updThs_cons, ih hts]
    split
    · exact s.th_updTh_other a t f hne
    · rfl

/-- A change that does nothing a second time reaches each thread of the list, however often it is listed. -/
theorem State.th_updThs_inside (hf : ∀ x, f (f x) = f x) (hp : p t = true) (ht : t ∈ ts) (s : State) (hne : f (s.th t) ≠ {}) :
    (s.updThs p f ts).th t = f (s.th t) := by
  induction ts generalizing s with
  | nil => cases ht
  | cons a ts ih =>
    rw [State.updThs_cons]
    by_cases ha : t = a
    · subst ha
      have hread : (s.updTh t f).th t = f (s.th t) := s.th_updTh_same t f hne
      rw [if_pos hp]
      by_cases hts : t ∈ ts
      · rw [ih hts _ (by rwa [hread, hf]), hread, hf]
      · rw [State.th_updThs_outside hts, hread]
    · have hts : t ∈ ts := (List.mem_cons.mp ht).resolve_left ha
      have hread : (if p a then s.updTh a f else s).th t = s.th t := by
        split
        · exact s.th_updTh_other a t f ha
        · rfl
      rw [ih hts _ (by rwa [hread]), hread]

end Barrier

/-- A thread that waits no more. -/
def Thread.goOn (x : Thread) : Thread := { x with wait := .none }

/-- A thread of the launch that waits at its barrier. -/
def State.atBarrier (s : State) (id t : Nat) : Bool := decide ((s.th t).launch = id) && decide ((s.th t).wait = .bar)

theorem atBarrier_iff {s : State} {id t : Nat} : s.atBarrier id t = true ↔ (s.th t).launch = id ∧ (s.th t).wait = .bar := by
  rw [State.atBarrier, Bool.and_eq_true, decide_eq_true_eq, decide_eq_true_eq]

theorem execBarRelease_full {s : State} {id : Nat} {mc : McId} {l : Launch} (hl : s.launch? id = some l)
    (hall : ∀ t ∈ l.threadsOn mc.val, t ∈ l.ended ∨ (s.th t).launch = id ∧ (s.th t).wait = .bar) :
    exec (.barRelease id mc) s = .next (s.updThs (s.atBarrier id) Thread.goOn (l.threadsOn mc.val)) := by
  have hfull : ((l.threadsOn mc.val).all fun t => decide (t ∈ l.ended) || s.atBarrier id t) = true := by
    simp only [List.all_eq_true, Bool.or_eq_true, decide_eq_true_eq, atBarrier_iff]
    exact hall
  show execBarRelease id mc s = _
  rw [execBarRelease, hl]
  exact congrArg _ (if_pos hfull)

/-! ## Semaphores (R303 to R305) -/

section Semaphores
variable {s : State} {p : PtnId} {n : SemId}

theorem execSwait_run {t : ThreadId} {w : IWord} {l : Launch} (hl : s.issues t w 0x53 (fun _ => []) = some l) (hn : n = Fin.ofNat 256 (l.word w).immN) :
    exec (.swait t w) s = .next (if (s.sem l.ptn n).count ≠ 0 ∧ (s.sem l.ptn n).waiters = [] then (s.semTake l.ptn l.queue n).nextPc t
      else ((s.updSem l.ptn n fun m => { m with waiters := m.waiters ++ [(l.queue, t.val)] }).updTh t.val fun x => { x.next with wait := .sem n }).updPtn l.ptn
        (·.holderStart l.queue n)) := by
  subst hn
  refine congrArg _ ((issue_run hl).trans ?_)
  simp only [Bool.and_eq_true, decide_eq_true_eq, List.isEmpty_iff]

/-- What a post makes of its semaphore (R303). -/
theorem semPost_eq (s : State) (p : PtnId) (q : QueueId) (n : SemId) :
    s.semPost p q n = (s.updSem p n fun m => if m.count = 0xFFFFFFFF then { m.addBal q (-1) with ovf := true }
      else { m.addBal q (-1) with count := m.count + 1 }).updPtn p Ptn.holderCheck := by
  simp only [State.semPost, Sem.addBal_count]

theorem Sem.addBal_balance_ne_nil (m : Sem) (q : QueueId) (i : Int) : (m.addBal q i).balance ≠ [] := by
  unfold Sem.addBal
  split
  · rename_i hlisted
    cases hm : m.balance with
    | nil => rw [hm] at hlisted; cases hlisted
    | cons e es =>
      unfold updFirst
      split <;> exact List.cons_ne_nil _ _
  · exact List.append_ne_nil_of_right_ne_nil _ (List.cons_ne_nil _ _)

/-- An update that leaves a semaphore with a balance leaves the jobs of its partition. -/
theorem job_updSem {f : Sem → Sem} (hf : (f (s.sem p n)).balance ≠ []) (q : QueueId) : (s.updSem p n f).job p q = s.job p q := by
  have hsem : f (s.sem p n) ≠ {} := fun e => hf (congrArg Sem.balance e)
  have hread : (s.updSem p n f).ptn p = { s.ptn p with sems := (s.ptn p).sems.upd {} n f } := by
    refine s.ptn_updPtn_same p _ fun e => hsem ?_
    have hsems : ((s.ptn p).sems.upd {} n f).get {} n = f (s.sem p n) := Tab.get_put_eq _ _ _ hsem
    rw [← hsems, show (s.ptn p).sems.upd {} n f = [] from congrArg Ptn.sems e]
    rfl
  rw [State.job, hread]
  rfl

/-- The semaphore after the waiter has taken it: its count has fallen, its job holds one more, and it waits no more. -/
def State.takenBy (s : State) (p : PtnId) (n : SemId) (w : QueueId × Nat) : State :=
  (s.semTake p w.1 n).updSem p n fun m => { m with waiters := m.waiters.erase w }

theorem job_takenBy (s : State) (p : PtnId) (n : SemId) (w : QueueId × Nat) (q : QueueId) : (s.takenBy p n w).job p q = s.job p q := by
  have hbal : ((s.sem p n).addBal w.1 1).balance ≠ [] := Sem.addBal_balance_ne_nil _ _ _
  have hsem : (s.semTake p w.1 n).sem p n = _ := State.sem_updSem_same (fun m => { m.addBal w.1 1 with count := m.count - 1 }) fun e => hbal (congrArg Sem.balance e)
  have htake : (s.semTake p w.1 n).job p q = s.job p q := job_updSem hbal q
  rw [State.takenBy, job_updSem (by rw [hsem]; exact hbal), htake]

theorem execSemaphoreAcquire_first {w : QueueId × Nat} (hw : (s.sem p n).waiters.find? (s.stillWaits p n) = some w) (hc : (s.sem p n).count ≠ 0) :
    exec (.semaphoreAcquire p n) s = .next (((s.takenBy p n w).serve p n w).updPtn p Ptn.holderScan) := by
  show execSemaphoreAcquire p n s = _
  unfold execSemaphoreAcquire
  dsimp only
  rw [hw]
  exact congrArg _ (if_neg hc)

section Serve
variable {w : QueueId × Nat}

theorem serve_thread (hw : w.2 < 65536) (hsaved : ∀ c ∈ (s.job p w.1).saved, c.mc ≠ w.2 / 256) : s.serve p n w = s.updTh w.2 Thread.goOn := by
  have hany : ((s.job p w.1).saved.any (·.mc = w.2 / 256)) = false := by simpa using hsaved
  rw [State.serve, if_neg (Nat.not_le.mpr hw), hany]
  rfl

theorem serve_saved (hw : w.2 < 65536) (hsaved : ∃ c ∈ (s.job p w.1).saved, c.mc = w.2 / 256) :
    s.serve p n w = s.updJob p w.1 fun j => { j with
      saved := updFirst (fun c => c.mc = w.2 / 256) (fun c => { c with ths := c.ths.upd {} (w.2 % 256) Thread.goOn }) j.saved } := by
  have hany : ((s.job p w.1).saved.any (·.mc = w.2 / 256)) = true := by simpa using hsaved
  rw [State.serve, if_neg (Nat.not_le.mpr hw), hany]
  rfl

theorem serve_plan (hw : 65536 ≤ w.2) {c : CmdRec} {r : ProgRun} {k i : Nat} (hplan : s.planWaits p w.1 n (w.2 - 65536) = some (c, r, k, i)) :
    s.serve p n w = s.updCmd c.hdr fun c => { c with prog := some (r.take k i) } := by
  rw [State.serve, if_pos hw, hplan]

end Serve
end Semaphores
end Sys2Proof.Machine

/-! ## The statements -/

section
open Sys2Proof Sys2Proof.Machine

/-- Settles O14: each control instruction issues and does its own effect; the release of a barrier changes the waiting threads alone. -/
theorem threadControl : Obligations.ThreadControl := by
  refine ⟨?instructions, ?barrier⟩
  case instructions =>
    intro s t w l e x
    refine ⟨fun h => congrArg _ (issue_run h), fun h hp => (execBr_run h).trans (congrArg _ (if_pos hp)), fun h => congrArg _ (issue_run h),
      execSumry_active, fun h hgo => (execTewait_run h).trans (congrArg _ (if_pos hgo)), fun h hp hout => ?_, fun h => congrArg _ (issue_run h)⟩
    refine (execTewait_run h).trans (congrArg _ (if_neg fun hgo => hgo.elim (fun hp' => ?_) (Nat.not_le.mpr hout)))
    exact Bool.false_ne_true (hp'.symm.trans hp)
  case barrier =>
    intro s id mc l hl hall
    refine ⟨_, execBarRelease_full hl hall, fun t ht => State.th_updThs_outside ht s, fun t hlaunch hwait ht hpc => ?_,
      State.updThs_frame State.mem (fun _ _ => rfl) s, State.updThs_frame State.mcs (fun _ _ => rfl) s, State.updThs_frame State.ptns (fun _ _ => rfl) s,
      State.updThs_frame State.launches (fun _ _ => rfl) s⟩
    exact State.th_updThs_inside (f := Thread.goOn) (fun _ => rfl) (atBarrier_iff.mpr ⟨hlaunch, hwait⟩) ht s fun h => hpc (congrArg Thread.pc h)

/-- Settles O15: SWAIT and SPOST issue, and the first waiter that can be served takes the semaphore and goes on where it waits. -/
theorem semaphores : Obligations.Semaphores := by
  refine ⟨?instructions, ?service⟩
  case instructions =>
    intro s t w l e n m
    refine ⟨fun h hc hw => (execSwait_run h rfl).trans (congrArg _ (if_pos ⟨hc, hw⟩)), fun h hwait => ?_, fun h => congrArg _ ((issue_run h).trans ?_)⟩
    · exact (execSwait_run h rfl).trans (congrArg _ (if_neg fun hfree => hwait.elim hfree.1 (absurd hfree.2)))
    · rw [semPost_eq]
  case service =>
    intro s p n w m taken hw hc
    have hfirst : exec (.semaphoreAcquire p n) s = .next ((taken.serve p n w).updPtn p Ptn.holderScan) := execSemaphoreAcquire_first hw hc
    have hsame : (taken.job p w.1).saved = (s.job p w.1).saved := congrArg Job.saved (job_takenBy s p n w w.1)
    refine ⟨fun hthread hsaved => ?_, fun hthread hsaved => ?_, fun hplan c r k i hwaits => ?_⟩
    · rw [hfirst, serve_thread hthread (by rwa [hsame])]
      rfl
    · rw [hfirst, serve_saved hthread (by rwa [hsame])]
      rfl
    · rw [hfirst, serve_plan hplan hwaits]

end
end

section
/-! PROOFS. Launches and plans of a sequencer program: what PLAN, LAUNCH and WAIT do at their step, how a launch leaves and how a program ends, and the statement that follows (R112, R116, R134, R138 to R141, R347, R514). -/

namespace Sys2Proof.Machine

/-! ## LAUNCH (R116, R134) -/

/-- The program after its LAUNCH of index a has started launch l: summaries of an earlier launch of the index are readable no more. -/
def ProgRun.launched (r : ProgRun) (a : Nat) (l : Launch) : ProgRun :=
  { r with step := r.step + 1, readable := r.readable.filter (fun e => e.1 ≠ a), started := r.started ++ [(a, l.id)] }

theorem execLaunch_starts {s : State} {p : PtnId} {q : QueueId} {a : W16} {b : Bool} {c : CmdRec} {r : ProgRun} {im : Image} {l : Launch}
    (hstep : s.atStep p q (fun z => z.sop = 2 && z.a = a && bitAt z.fl.toNat 0 == b) = some (c, r, im)) (hl : l = s.makeLaunch c r im a.toNat)
    (hcores : ∀ m ∈ l.mcs, m ∈ mcsOf (s.job p q).cgs) (hserve : l.mcs.any (s.mcRetired ·) = false)
    (hcheck : dispatchCheck c.numMode.smode l.params l.code = none) (hfree : s.ocConflict l = false) :
    let z := (s.beginLaunch l).addUnits c.hdr (List.range c.items.length) l.mcs
    exec (.launch p q a b) s = .next (if b then z.enterWait c (r.launched a.toNat l) im false a.toNat else z.setProg c (r.launched a.toNat l)) := by
  subst hl
  have hheld : ((s.makeLaunch c r im a.toNat).mcs.all fun m => decide (m ∈ mcsOf (s.job p q).cgs)) = true := by simpa using hcores
  refine congrArg _ ((atStep_run hstep).trans ?_)
  simp only [hheld, hserve, hcheck, hfree, Bool.not_true, Bool.or_self, Bool.false_eq_true, if_false]
  rfl

/-! ## The end of a launch (R138, R139) -/

theorem execLaunchComplete_ended {s : State} {id : Nat} {l : Launch} {c : CmdRec} {r : ProgRun} {im : Image} (hl : s.launch? id = some l) (hgood : l.failed = none)
    (hended : ∀ t ∈ l.threads, t ∈ l.ended) {u : State}
    (hu : u = ({ s with launches := s.launches.filter fun o => o.id ≠ id } : State).updCmd l.hdr
      fun c => { c with prog := c.prog.map fun r => { r with arrived := r.arrived ++ [(l.id, l.slots)] } })
    (hc : u.cmdOf l.hdr = some c) (hprog : c.prog = some r) (him : (u.ptn l.ptn).imageOf c = some im) :
    exec (.launchComplete id) s = .next (u.setProg c ((u.resolve r im).getD r)) := by
  subst hu
  have hall : (l.threads.all fun t => decide (t ∈ l.ended)) = true := by simpa using hended
  refine congrArg Host.Outcome.next ?_
  simp only [hl, hgood, hall, hc, hprog, him, Option.isNone_none, Option.isSome_none, Bool.not_true, Bool.and_false, Bool.false_eq_true, if_false]

/-! ## The end of a program (R514) -/

theorem execProgramEnd_quiet {s : State} {p : PtnId} {q : QueueId} {c : CmdRec} {r : ProgRun} {im : Image} (hc : s.running? p q = some c)
    (hprog : c.prog = some r) (him : (s.ptn p).imageOf c = some im) (hst : (s.job p q).st = .running) (hopen : r.ended = false) (hcode : r.endCode = none)
    (hend : (im.steps.getD r.step {}).sop = 11) (hwait : (s.resolve r im).isSome = true) (hlaunches : ∀ e ∈ r.started, s.launchOver e.2 = true)
    (hplans : ∀ x ∈ r.plans, s.planOver r im x.plan = true) :
    let u : State := { s with launches := s.launches.filter fun l => !decide (l.id ∈ r.started.map Prod.snd) }
    exec (.programEnd p q) s =
      .next ((((u.setProg c { r with ended := true, waiting := none }).failOpen c.hdr St.eItemOpen).mbEnd c.hdr).settle c.hdr) := by
  have hstarted : (r.started.all fun e : Nat × Nat => s.launchOver e.2) = true := List.all_eq_true.mpr hlaunches
  have hover : (r.plans.all fun x => s.planOver r im x.plan) = true := List.all_eq_true.mpr hplans
  refine congrArg Host.Outcome.next ?_
  simp only [hc, hprog, him, hst, hopen, hcode, hend, hwait, hstarted, hover, ne_eq, not_true_eq_false, decide_true, decide_false, Option.isSome_none, Bool.or_false,
    Bool.and_self, Bool.not_true, Bool.or_self, Bool.false_eq_true, if_false, Option.getD_none]

end Sys2Proof.Machine

/-! ## The statement -/

section
open Sys2Proof Sys2Proof.Machine

/-- Settles O20: PLAN and WAIT are their steps; LAUNCH, the end of a launch and the end of a program go past their checks. -/
theorem launchesAndPlans : Obligations.LaunchesAndPlans := by
  refine ⟨?steps, ?complete, ?ends⟩
  case steps =>
    intro s p q c r im a b go
    exact ⟨fun h => congrArg _ (atStep_run h), fun h hcores hserve hcheck hfree => execLaunch_starts h rfl hcores hserve hcheck hfree,
      fun h => congrArg _ (atStep_run h)⟩
  case complete =>
    intro s id l c r im hl hgood hended u hc hprog him
    exact execLaunchComplete_ended hl hgood hended rfl hc hprog him
  case ends =>
    intro s p q c r im hc hprog him hst hopen hcode hend hwait hlaunches hplans u
    exact execProgramEnd_quiet hc hprog him hst hopen hcode hend hwait hlaunches hplans

end
end

section
/-! PROOFS. Slices, stop baths and restores: what the end of a slice, of a stop bath and of a restore do, what a scheduling decision and the search for holder runs leave of a job and of its command, and the statement that follows (R142, R273, R291 to R302, R305, R309). -/

namespace Sys2Proof.Machine

/-! ## The end of a slice (R293, R302) -/

section Slices
variable {s : State} {p : PtnId} {q : QueueId} {ns : Nat} {c : CmdRec}
variable (hst : (s.job p q).st = .running) (hholder : (s.ptn p).inHolder q = false) (hc : (s.charge p q ns).running? p q = some c)
include hst hholder hc

theorem execSliceEnd_preemptible (hnp : c.np = false) :
    exec (.sliceEnd p q ns) s = .next ((s.charge p q ns).updPtn p fun x => (x.latch.sliceCompare q).schedule) := by
  have hrun : ((s.ptn p).job q).st = .running := hst
  refine congrArg Host.Outcome.next ?_
  simp only [hrun, hholder, hc, hnp, ne_eq, not_true_eq_false, decide_false, Bool.or_self, Bool.false_eq_true, if_false]

theorem execSliceEnd_overruns (hnp : c.np = true) (hfirst : (s.job p q).overrunning = false) :
    let v := (s.charge p q ns).updJob p q fun j => { j with overrunning := true, overruns := satInc j.overruns }
    exec (.sliceEnd p q ns) s =
      .next (State.updCmd { v with fresh := v.fresh + 1 } c.hdr fun c => { c with overrunUs := BitVec.ofNat 32 (Config.free v.fresh 0) }) := by
  have hrun : ((s.ptn p).job q).st = .running := hst
  have hfirst' : ((s.ptn p).job q).overrunning = false := hfirst
  refine congrArg Host.Outcome.next ?_
  simp only [hrun, hholder, hc, hnp, hfirst', ne_eq, not_true_eq_false, decide_false, Bool.or_self, Bool.false_eq_true, if_false, if_true]

end Slices

/-- Job c goes before job q: it is of a higher tier, or of its tier with a smaller virtual time (R293). -/
def Ptn.ahead (x : Ptn) (c q : QueueId) : Prop :=
  ((x.job c).share ≠ 0 ∧ (x.job q).share = 0) ∨ (((x.job c).share = 0 ↔ (x.job q).share = 0) ∧ (x.job c).vt.toNat < (x.job q).vt.toNat)

section Compare
variable {x : Ptn} {q c : QueueId} {r : List QueueId}

/-- The order of tiers, where `a` and `b` say that a job is of the lower one, and within a tier of virtual times. -/
theorem tierBefore_iff {a b : Prop} [Decidable a] [Decidable b] {m n : Nat} :
    (decide (b2n a < b2n b) || decide (b2n a = b2n b) && decide (m < n)) = true ↔ (¬ a ∧ b) ∨ ((a ↔ b) ∧ m < n) := by
  by_cases ha : a <;> by_cases hb : b <;> simp [ha, hb, b2n]

theorem ahead_iff : (decide (b2n ((x.job c).share = 0) < b2n ((x.job q).share = 0)) ||
    decide (b2n ((x.job c).share = 0) = b2n ((x.job q).share = 0)) && decide ((x.job c).vt.toNat < (x.job q).vt.toNat)) = true ↔ x.ahead c q :=
  tierBefore_iff

theorem sliceCompare_ahead (hc : x.candidates = c :: r) (h : x.ahead c q) : x.sliceCompare q = x.updJob q fun j => { j with st := .stopping, stopFor := some c } := by
  rw [Ptn.sliceCompare, hc]
  exact if_pos (ahead_iff.mpr h)

theorem sliceCompare_behind (hc : x.candidates = c :: r) (h : ¬ x.ahead c q) : x.sliceCompare q = x := by
  rw [Ptn.sliceCompare, hc]
  exact if_neg (mt ahead_iff.mp h)

theorem not_ahead (h : ((x.job c).share = 0 ∧ (x.job q).share ≠ 0) ∨ (((x.job c).share = 0 ↔ (x.job q).share = 0) ∧ (x.job q).vt.toNat ≤ (x.job c).vt.toNat)) :
    ¬ x.ahead c q := by
  rintro (⟨hc, hq⟩ | ⟨htier, hvt⟩)
  · exact h.elim (fun h => hc h.1) fun h => hc (h.1.mpr hq)
  · exact h.elim (fun h => h.2 (htier.mp h.1)) fun h => Nat.not_lt.mpr h.2 hvt

end Compare

/-! ## What a job's updates leave of jobs -/

theorem job_updJob_other {x : Ptn} {q h : QueueId} (f : Job → Job) (hne : q ≠ h) : (x.updJob h f).job q = x.job q :=
  Tab.get_put_ne _ _ _ _ fun e => hne (Fin.ext e)

theorem job_updJob_same {x : Ptn} {q : QueueId} {f : Job → Job} (hst : (f (x.job q)).st ≠ .idle) : (x.updJob q f).job q = f (x.job q) :=
  Tab.get_put_eq _ _ _ fun e => hst (congrArg Job.st e)

/-! ## What a scheduling decision leaves of the commands -/

@[simp] theorem Ptn.updJob_holders (x : Ptn) (q : QueueId) (f : Job → Job) : (x.updJob q f).holders = x.holders := rfl

/-- Operations that each leave the commands leave them together. -/
theorem foldl_flow {α : Type} {op : Ptn → α → Ptn} (hop : ∀ x a, (op x a).flow = x.flow) (as : List α) (x : Ptn) : (as.foldl op x).flow = x.flow :=
  List.foldlRecOn (motive := fun y => y.flow = x.flow) as op rfl fun y hy a _ => (hop y a).trans hy

theorem Ptn.flow_of_grant {x y : Ptn} {q : QueueId} (h : x.grant q = some y) : y.flow = x.flow := by
  obtain ⟨m, _, rfl⟩ := Option.map_eq_some_iff.mp h
  rfl

theorem Ptn.feedHolder_flow (x : Ptn) (h : HolderRun) : (x.feedHolder h).flow = x.flow := by
  unfold Ptn.feedHolder
  split
  · rfl
  · dsimp only
    split <;> rfl

theorem Ptn.dropKept_flow (x : Ptn) : x.dropKept.flow = x.flow :=
  foldl_flow (fun _ _ => by split <;> rfl) _ _

theorem Ptn.grantKept_flow (x : Ptn) : x.grantKept.flow = x.flow := by
  refine foldl_flow (fun y q => ?_) _ _
  split
  · rfl
  · cases h : y.grant q with
    | none => rfl
    | some z => exact Ptn.flow_of_grant h

theorem Ptn.grants_flow (qs : List QueueId) (x : Ptn) : (Ptn.grants qs x).flow = x.flow := by
  induction qs generalizing x with
  | nil => rfl
  | cons q qs ih =>
    unfold Ptn.grants
    split
    · rename_i y hy
      exact (ih y).trans (Ptn.flow_of_grant hy)
    · rfl

@[simp] theorem Ptn.schedule_flow (x : Ptn) : x.schedule.flow = x.flow := by
  unfold Ptn.schedule
  dsimp only
  rw [Ptn.grants_flow, Ptn.grantKept_flow, Ptn.dropKept_flow, foldl_flow Ptn.feedHolder_flow]
  rfl

/-! ## The command that a queue runs, through changes of its counters -/

/-- A change of the first entry that `p` holds of, which `f` leaves as the search sees it, leaves what is found. -/
theorem find?_updFirst_isSome {α : Type} {p is : α → Bool} {f : α → α} (hf : ∀ a, is (f a) = is a) (l : List α) :
    ((updFirst p f l).find? is).isSome = (l.find? is).isSome := by
  induction l with
  | nil => rfl
  | cons a l ih =>
    unfold updFirst
    split
    · simp only [List.find?_cons, hf]
      cases is a <;> rfl
    · simp only [List.find?_cons]
      cases is a
      · exact ih
      · rfl

/-- The command is what queue q runs, as `Ptn.runs?` sees it. -/
def CmdRec.runsIn (q : QueueId) (c : CmdRec) : Bool := c.hdr.queue = q && c.started && !c.immediate && !c.isOver

theorem Ptn.runs?_eq (x : Ptn) (q : QueueId) : x.runs? q = x.flow.cmds.find? (·.runsIn q) := rfl

theorem Ptn.runs?_congr {x y : Ptn} (h : y.flow = x.flow) (q : QueueId) : y.runs? q = x.runs? q := by
  rw [Ptn.runs?_eq, Ptn.runs?_eq, h]

/-- A partition with a command is not the empty one. -/
theorem Ptn.ne_default_of_runs {x : Ptn} {q : QueueId} (h : (x.runs? q).isSome = true) : x ≠ {} := by
  rintro rfl
  cases h

/-! ## What the search for holder runs leaves of a stopped job (R305) -/

/-- Job q is stopped with these saved cores and this count of pre-emptions, and its command is not over. -/
structure Ptn.Stopped (x : Ptn) (q : QueueId) (saved : List SavedCore) (n : W32) : Prop where
  st : (x.job q).st = .stopped
  cgs : (x.job q).cgs = 0
  saved : (x.job q).saved = saved
  preempts : (x.job q).preempts = n
  runs : (x.runs? q).isSome = true

section Stopped
variable {x y : Ptn} {q : QueueId} {saved : List SavedCore} {n : W32}

theorem Ptn.Stopped.congr (h : x.Stopped q saved n) (hjob : y.job q = x.job q) (hruns : (y.runs? q).isSome = (x.runs? q).isSome) : y.Stopped q saved n := by
  obtain ⟨hst, hcgs, hsaved, hpreempts, hrun⟩ := h
  rw [← hjob] at hst hcgs hsaved hpreempts
  exact ⟨hst, hcgs, hsaved, hpreempts, hruns.trans hrun⟩

theorem Ptn.Stopped.updCmds (h : x.Stopped q saved n) {is : CmdRec → Bool} {f : CmdRec → CmdRec} (hf : ∀ c, (f c).runsIn q = c.runsIn q) :
    ({ x with flow := { x.flow with cmds := updFirst is f x.flow.cmds } } : Ptn).Stopped q saved n :=
  h.congr rfl (find?_updFirst_isSome hf _)

/-- The core groups of a pre-emption may be reserved for any job, the stopped one too. -/
theorem Ptn.Stopped.keepFor (h : x.Stopped q saved n) (o : Option QueueId) (m : BitVec 32) : (x.keepFor o m).Stopped q saved n := by
  unfold Ptn.keepFor
  split
  · rename_i k
    split
    · by_cases hq : q = k
      · subst hq
        have hjob : (x.updJob q fun j => { j with kept := j.kept ||| m }).job q = _ := job_updJob_same (by rw [h.st]; decide)
        obtain ⟨hst, hcgs, hsaved, hpreempts, hrun⟩ := h
        exact ⟨by rw [hjob]; exact hst, by rw [hjob]; exact hcgs, by rw [hjob]; exact hsaved, by rw [hjob]; exact hpreempts, hrun⟩
      · exact h.congr (job_updJob_other _ hq) rfl
    · exact h
  · exact h

/-- A holder run stops a running job, not this one. -/
theorem Ptn.Stopped.holderStart (h : x.Stopped q saved n) (w : QueueId) (k : SemId) : (x.holderStart w k).Stopped q saved n := by
  unfold Ptn.holderStart
  dsimp only
  split
  · split
    · exact h
    · rename_i hgo
      have hrun : (x.job w).st = .running := by
        by_contra hw
        simp [hw] at hgo
      have hne : q ≠ w := by
        rintro rfl
        rw [h.st] at hrun
        cases hrun
      split
      · exact h.congr (job_updJob_other (x := { x with holders := _ }) _ hne) rfl
      · refine Ptn.Stopped.updCmds ?_ fun _ => rfl
        exact h.congr (job_updJob_other (x := { x with holders := _ }) _ hne) rfl
  · exact h

theorem Ptn.stopped_updJob (saved : List SavedCore) (hruns : (x.runs? q).isSome = true) :
    (x.updJob q (·.stopped saved)).Stopped q saved (satInc (x.job q).preempts) := by
  have hread : (x.updJob q (·.stopped saved)).job q = (x.job q).stopped saved := job_updJob_same JobSt.noConfusion
  exact ⟨by rw [hread]; rfl, by rw [hread]; rfl, by rw [hread]; rfl, by rw [hread]; rfl, hruns⟩

theorem Ptn.Stopped.holderScan (h : x.Stopped q saved n) : x.holderScan.Stopped q saved n :=
  List.foldlRecOn (motive := fun y : Ptn => y.Stopped q saved n) x.sems _ h fun _ hy e _ =>
    List.foldlRecOn (motive := fun y : Ptn => y.Stopped q saved n) e.2.waiters _ hy fun _ hz w _ => hz.holderStart w.1 _

end Stopped

@[simp] theorem Ptn.keepFor_holders (x : Ptn) (o : Option QueueId) (m : BitVec 32) : (x.keepFor o m).holders = x.holders := by
  unfold Ptn.keepFor
  split
  · split <;> rfl
  · rfl

/-! ## Stop baths (R298) -/

/-- The cores of a job are left: no threads, and idle. -/
def State.leaveCores (s : State) (cgs : BitVec 32) : State := (mcsOf cgs).foldl (fun v m => (v.clearThreads m).updMc m MCore.idle) s

/-- The save areas of a job's cores in service. -/
def State.savedCores (s : State) (p : PtnId) (q : QueueId) : List SavedCore := ((mcsOf (s.job p q).cgs).filter fun m => !s.mcRetired m).map s.saveCore

/-- A command's stop bath is counted. -/
def CmdRec.preempted (c : CmdRec) : CmdRec := { c with preempts := satInc c.preempts }

theorem CmdRec.runsIn_preempted (q : QueueId) (c : CmdRec) : c.preempted.runsIn q = c.runsIn q := rfl

/-- The end of a holder run whose holder job q is, and the holder runs that follow from what it holds. -/
def Ptn.bathDone (x : Ptn) (q : QueueId) : Ptn := (if x.holders.any fun h => h.holder = q && h.running then x.endHolder q else x).holderScan

/-- The stop bath of job q, whose command is c, after its charge. -/
def State.stopBath (s : State) (p : PtnId) (q : QueueId) (c : CmdRec) : State :=
  let j := s.job p q
  (((s.leaveCores j.cgs).updCmd c.hdr CmdRec.preempted).updPtn p fun x => (x.updJob q (·.stopped (s.savedCores p q))).keepFor j.stopFor j.cgs).updPtn p
    fun x => (x.bathDone q).schedule

@[simp] theorem State.leaveCores_ptns (s : State) (cgs : BitVec 32) : (s.leaveCores cgs).ptns = s.ptns :=
  List.foldlRecOn (motive := fun v : State => v.ptns = s.ptns) (mcsOf cgs) _ rfl fun _ hv _ _ => hv

@[simp] theorem State.setChan_ths (s : State) (h : Hdr) (f : List CmdRec → List CmdRec) : (s.setChan h f).ths = s.ths := by
  unfold State.setChan
  split <;> rfl

theorem stopBath_ths (s : State) (p : PtnId) (q : QueueId) (c : CmdRec) : (s.stopBath p q c).ths = (s.leaveCores (s.job p q).cgs).ths := State.setChan_ths _ _ _
theorem stopBath_mcs (s : State) (p : PtnId) (q : QueueId) (c : CmdRec) : (s.stopBath p q c).mcs = (s.leaveCores (s.job p q).cgs).mcs := State.setChan_mcs _ _ _

section StopBath
variable {s : State} {p : PtnId} {q : QueueId} {ns : Nat} {c : CmdRec}

/-- An update that leaves the partition a command reads back. -/
theorem ptn_updPtn_runs {f : Ptn → Ptn} (h : ((f (s.ptn p)).runs? q).isSome = true) : (s.updPtn p f).ptn p = f (s.ptn p) :=
  s.ptn_updPtn_same p f (Ptn.ne_default_of_runs h)

theorem Ptn.bathDone_eq {x : Ptn} (hholders : ∀ h ∈ x.holders, ¬(h.holder = q ∧ h.running = true)) : x.bathDone q = x.holderScan := by
  have hnone : (x.holders.any fun h => h.holder = q && h.running) = false := by simpa using hholders
  rw [Ptn.bathDone, hnone]
  rfl

/-- A counted stop bath leaves the jobs and holder runs of a partition, and that a queue runs a command. -/
theorem ptn_updCmd_preempted (h : Hdr) (hc : (s.running? p q).isSome = true) :
    ((s.updCmd h CmdRec.preempted).ptn p).jobs = (s.ptn p).jobs ∧ ((s.updCmd h CmdRec.preempted).ptn p).holders = (s.ptn p).holders ∧
      ((s.updCmd h CmdRec.preempted).running? p q).isSome = true := by
  unfold State.updCmd State.setChan
  split
  · exact ⟨rfl, rfl, hc⟩
  · by_cases hp : p = h.ptn
    · subst hp
      have hruns : ((updFirst (·.is h.queue h.seq) CmdRec.preempted (s.ptn h.ptn).flow.cmds).find? (·.runsIn q)).isSome = true :=
        (find?_updFirst_isSome (CmdRec.runsIn_preempted q) _).trans hc
      have hread : (s.updFlow h.ptn fun x => { x with cmds := updFirst (·.is h.queue h.seq) CmdRec.preempted x.cmds }).ptn h.ptn = _ :=
        ptn_updPtn_runs (q := q) hruns
      rw [State.running?, hread]
      exact ⟨rfl, rfl, hruns⟩
    · have hread : (s.updFlow h.ptn fun x => { x with cmds := updFirst (·.is h.queue h.seq) CmdRec.preempted x.cmds }).ptn p = s.ptn p :=
        s.ptn_updPtn_other h.ptn p _ hp
      rw [State.running?, hread]
      exact ⟨rfl, rfl, hc⟩

/-- What a stop bath leaves of its partition, where no holder run ends with it: job q stopped with its state saved, and then a scheduling decision. -/
theorem ptn_stopBath (hc : (s.running? p q).isSome = true) (hholders : ∀ h ∈ (s.ptn p).holders, ¬(h.holder = q ∧ h.running = true)) :
    ∃ w : Ptn, (s.stopBath p q c).ptn p = w.schedule ∧ w.Stopped q (s.savedCores p q) (satInc (s.job p q).preempts) := by
  have hleft : (s.leaveCores (s.job p q).cgs).ptn p = s.ptn p := by rw [State.ptn, State.leaveCores_ptns]; rfl
  obtain ⟨hjobs, hhold, hruns⟩ := ptn_updCmd_preempted (s := s.leaveCores (s.job p q).cgs) (p := p) (q := q) c.hdr (by rw [State.running?, hleft]; exact hc)
  rw [hleft] at hjobs hhold
  dsimp only [State.stopBath]
  generalize (s.leaveCores (s.job p q).cgs).updCmd c.hdr CmdRec.preempted = v at hjobs hhold hruns ⊢
  have hjob : (v.ptn p).job q = s.job p q := by rw [Ptn.job, hjobs]; rfl
  have hbath := (Ptn.stopped_updJob (s.savedCores p q) hruns).keepFor (s.job p q).stopFor (s.job p q).cgs
  have hdone := Ptn.bathDone_eq (x := ((v.ptn p).updJob q (·.stopped (s.savedCores p q))).keepFor (s.job p q).stopFor (s.job p q).cgs) (q := q)
    (by rw [Ptn.keepFor_holders, Ptn.updJob_holders, hhold]; exact hholders)
  rw [hjob] at hbath
  refine ⟨_, ?_, hbath.holderScan⟩
  rw [ptn_updPtn_runs (q := q) (by rw [ptn_updPtn_runs hbath.runs, Ptn.runs?_congr (Ptn.schedule_flow _), hdone]; exact hbath.holderScan.runs),
    ptn_updPtn_runs hbath.runs, hdone]

theorem execStopBathHandover_drained (hst : (s.job p q).st = .stopping) (hdrained : s.drained p q = true) (hc : (s.charge p q ns).running? p q = some c)
    (hgoes : (((s.charge p q ns).stopBath p q c).running? p q).isSome = true) :
    exec (.stopBathHandover p q ns) s = .next ((s.charge p q ns).stopBath p q c) := by
  have hleft : ((s.charge p q ns).leaveCores ((s.charge p q ns).job p q).cgs).running? p q = some c := by
    rw [State.running?, State.ptn, State.leaveCores_ptns]
    exact hc
  rw [State.leaveCores] at hleft
  have hgo : ¬(decide ((s.job p q).st ≠ .stopping) || !s.drained p q) = true := by simp [hst, hdrained]
  refine congrArg Host.Outcome.next ((if_neg hgo).trans ?_)
  dsimp only
  rw [hleft]
  exact if_neg (by rw [Option.isNone_iff_eq_none, ← ne_eq, ← Option.isSome_iff_ne_none]; exact hgoes)

end StopBath

/-! ## Restores (R273, R299, R309) -/

section Restores
variable {s : State} {p : PtnId} {q : QueueId} {ns us : Nat} {c : CmdRec}

/-- No table engine works on a request of the job. -/
theorem teBusy_none (h : ∀ e ∈ s.tes, ∀ w ∈ e.2.reqs, ¬(w.ptn = p ∧ w.queue = q)) :
    (s.tes.any fun e => e.2.reqs.any fun w => w.ptn = p && w.queue = q) = false := by
  simpa using h

theorem execRestoreComplete_restoring (hst : (s.job p q).st = .restoring) (hte : ∀ e ∈ s.tes, ∀ w ∈ e.2.reqs, ¬(w.ptn = p ∧ w.queue = q))
    (hc : ((s.charge p q ns).restore p q).running? p q = some c) :
    exec (.restoreComplete p q ns us) s = .next ((((s.charge p q ns).restore p q).stageCmd c.hdr).updCmd c.hdr (·.countSwitch us)) := by
  refine congrArg Host.Outcome.next ?_
  simp [hst, teBusy_none hte, hc]

theorem execRestoreComplete_running (hst : (s.job p q).st = .running) (hc : (s.charge p q ns).running? p q = some c) :
    exec (.restoreComplete p q ns us) s = .next ((s.charge p q ns).updCmd c.hdr (·.countSwitch us)) := by
  refine congrArg Host.Outcome.next ?_
  simp [hst, hc]

end Restores
end Sys2Proof.Machine

/-! ## The statement -/

section
open Sys2Proof Sys2Proof.Machine

/-- Settles O56: the ends of a slice and of a restore go past their checks; a stop bath leaves its job stopped through the search for holder runs, and its command keeps the queue from going on. -/
theorem slicesAndRestores : Obligations.SlicesAndRestores := by
  refine ⟨?slices, ?compare, ?bath, ?restores, ?switch⟩
  case slices =>
    intro s p q ns hst hholder z
    exact ⟨fun c hc hnp => execSliceEnd_preemptible hst hholder hc hnp, fun c hc hnp hfirst => execSliceEnd_overruns hst hholder hc hnp hfirst⟩
  case compare =>
    intro x q c r hc
    exact ⟨sliceCompare_ahead hc, fun h => sliceCompare_behind hc (not_ahead h)⟩
  case bath =>
    intro s p q ns hst hdrained z j hholders _ c hc saved v
    obtain ⟨w, hptn, hw⟩ := ptn_stopBath (c := c) (Option.isSome_of_eq_some hc) hholders
    have hgoes : ((z.stopBath p q c).running? p q).isSome = true := by
      rw [State.running?, hptn, Ptn.runs?_congr (Ptn.schedule_flow w)]
      exact hw.runs
    exact ⟨_, execStopBathHandover_drained hst hdrained hc hgoes, stopBath_ths z p q c, stopBath_mcs z p q c, w, hptn, hw.st, hw.cgs, hw.saved, hw.preempts⟩
  case restores =>
    intro s p q ns us _ hte z
    exact ⟨fun hst c hc => execRestoreComplete_restoring hst hte hc, fun hst c hc => execRestoreComplete_running hst hc⟩
  case switch =>
    intro c us
    refine ⟨fun h => ?_, fun h => if_neg (Bool.eq_false_iff.mp h)⟩
    rw [CmdRec.countSwitch, if_pos h]
    exact ⟨rfl, rfl⟩

end
end

section
/-! PROOFS. The training commands: the outcomes of each once it starts, and the statement that follows (R143, R144, R162, R182, R186 to R190, R193, R198, R412). -/

namespace Sys2Proof.Machine

theorem queued_rejected {s u : State} {h : Hdr} {op : W16} {cmd : Instr} {check : State → Option Status} {items : State → Nat} {f : State → State} {code : Status}
    (hu : s.startsNow h op cmd = some u) (hcheck : check u = some code) : s.queued h op cmd check items f = u.reject h op code := by
  rw [queued_run hu, hcheck]

/-! ## DISTILL_STEP and EVAL (R143, R144, R162, R198) -/

/-- What DISTILL_STEP and EVAL do alike. -/
def State.stepCommand (s : State) (h : Hdr) (op : W16) (i : Instr) (b : StepBlock) (e : ProgBlock) (eval : Bool) : Res State :=
  if h.expert && s.versionWaits h e.program.toNat then .next s
  else .next (s.queued h op i (fun s => (s.startCheck h i).or (if h.expert then s.expertCheck h e eval else s.basicCheck h b eval))
    (fun s => (s.ptn h.ptn).itemsOf i) fun s => if h.expert then s.startContact h e eval else s.startBasic h b eval)

theorem exec_distillStep (s : State) (h : Hdr) (b : StepBlock) (e : ProgBlock) :
    exec (.distillStep h b e) s = s.stepCommand h 0x301 (.distillStep h b e) b e false := rfl

theorem exec_eval (s : State) (h : Hdr) (b : StepBlock) (e : ProgBlock) : exec (.eval h b e) s = s.stepCommand h 0x306 (.eval h b e) b e true := rfl

/-- The number of a model's weight sets. -/
def Ptn.setCount (x : Ptn) (m : Nat) : Nat := ((x.model? m).map fun y => y.sets.length).getD 0

/-- A basic command's record with its contact buffer placed, and with the size of what the command makes of its models' weights. -/
def Ptn.withBuffer (x : Ptn) (q : QueueId) (r : Train) : Train :=
  let buf := x.contactBuf r none
  { r with buf := buf, made := x.madeBytes r, slices := (x.placeBuf r (x.job q).cgs buf).getD [] }

/-- The record of an expert command before its descriptor's memory is read. -/
def expertRun (h : Hdr) (e : ProgBlock) (eval : Bool) (vs : List (Nat × Nat × W64)) : Train :=
  { queue := h.queue, seq := h.seq, expert := true, eval := eval, contact := e.contact, opt := e.opt, versions := some vs }

/-- An expert command's record with its contact buffer placed, and with the dimensions of its taps. -/
def Ptn.withExpertBuffer (x : Ptn) (q : QueueId) (im : Option Image) (r : Train) : Train :=
  let buf := x.contactBuf r im
  { r with buf := buf, tapCols := x.tapDims r im, slices := (x.placeBuf r (x.job q).cgs buf).getD [] }

section Steps
variable {z v : State} {h : Hdr} {b : StepBlock} {e : ProgBlock} {eval : Bool} {c : CmdRec} {r : Train}

section Basic
variable (hc : z.cmdOf h = some c) (hread : z.readContact h.ptn (basicRun c.hdr b eval ((z.ptn h.ptn).setCount b.student.toNat)) = (v, .ok r))
include hc hread

theorem startBasic_goesOn (htaps : (z.ptn h.ptn).tapsBad ((z.ptn h.ptn).withBuffer h.queue r) none = false) :
    z.startBasic h b eval = ((((v.addRun h.ptn ((z.ptn h.ptn).withBuffer h.queue r)).scaleEv h b.contact).updPtn h.ptn (·.trim 0)).stageCmd h).pumpTrain h.ptn := by
  rw [Ptn.setCount] at hread
  simp only [State.startBasic, hc, hread]
  exact if_neg (Bool.eq_false_iff.mp htaps)

theorem startBasic_badTaps (htaps : (z.ptn h.ptn).tapsBad ((z.ptn h.ptn).withBuffer h.queue r) none = true) :
    z.startBasic h b eval = ((v.addRun h.ptn ((z.ptn h.ptn).withBuffer h.queue r)).failOpen h St.eTargets).pumpTrain h.ptn := by
  rw [Ptn.setCount] at hread
  simp only [State.startBasic, hc, hread]
  exact if_pos htaps

end Basic

theorem startContact_starts {im : Option Image} (him : ((z.ptn h.ptn).prog? e.program.toNat).map (·.image) = im) (hc : z.cmdOf h = some c)
    (hread : z.readContact h.ptn (expertRun c.hdr e eval ((z.ptn h.ptn).progVersions e.program.toNat)) = (v, .ok r))
    (htaps : (v.ptn h.ptn).tapsBad ((v.ptn h.ptn).withExpertBuffer h.queue im r) im = false) :
    z.startContact h e eval =
      (((v.addRun h.ptn ((v.ptn h.ptn).withExpertBuffer h.queue im r)).scaleEv h e.contact).refreshLoss h).startProg h e.program.toNat e.entry.toNat e.srStream e.binds := by
  subst him
  rw [expertRun] at hread
  simp only [State.startContact, hc, hread]
  exact if_neg (Bool.eq_false_iff.mp htaps)

variable {s u : State} {op : W16} {i : Instr} (hu : s.startsNow h op i = some u) (hstart : u.startCheck h i = none)
include hu hstart

theorem stepCommand_basic (hlevel : h.expert = false) (hcheck : u.basicCheck h b eval = none) :
    s.stepCommand h op i b e eval = .next (((u.open' h ((u.ptn h.ptn).itemsOf i)).startBasic h b eval).settle h) := by
  have hpass : (u.startCheck h i).or (if h.expert then u.expertCheck h e eval else u.basicCheck h b eval) = none := by
    rw [hstart, hlevel]; exact hcheck
  rw [State.stepCommand, queued_passed hu hpass, hlevel]
  rfl

theorem stepCommand_basicRejected {code : Status} (hlevel : h.expert = false) (hcheck : u.basicCheck h b eval = some code) :
    s.stepCommand h op i b e eval = .next (u.reject h op code) := by
  have hfail : (u.startCheck h i).or (if h.expert then u.expertCheck h e eval else u.basicCheck h b eval) = some code := by
    rw [hstart, hlevel]; exact hcheck
  rw [State.stepCommand, queued_rejected hu hfail, hlevel]
  rfl

theorem stepCommand_expert (hlevel : h.expert = true) (hwrite : s.versionWaits h e.program.toNat = false) (hcheck : u.expertCheck h e eval = none) :
    s.stepCommand h op i b e eval = .next (((u.open' h ((u.ptn h.ptn).itemsOf i)).startContact h e eval).settle h) := by
  have hpass : (u.startCheck h i).or (if h.expert then u.expertCheck h e eval else u.basicCheck h b eval) = none := by
    rw [hstart, hlevel]; exact hcheck
  rw [State.stepCommand, queued_passed hu hpass, hlevel, hwrite]
  rfl

end Steps

/-! ## FWD_MB (R182, R183, R186) -/

theorem place_fits {s : State} {p : PtnId} {n : Nat} (h : (s.ptn p).train.fits n = true) : s.place p n = .room s :=
  State.place_room (of_decide_eq_true h)

theorem updFirst_ne_nil {α : Type} {is : α → Bool} {f : α → α} {l : List α} (h : l ≠ []) : updFirst is f l ≠ [] := by
  cases l with
  | nil => exact absurd rfl h
  | cons a l => unfold updFirst; split <;> exact List.cons_ne_nil _ _

/-- A change of a command's record leaves its partition's training as it was. -/
theorem train_updCmd {s : State} {h : Hdr} {c : CmdRec} (hc : s.cmdOf h = some c) (f : CmdRec → CmdRec) : ((s.updCmd h f).ptn h.ptn).train = (s.ptn h.ptn).train := by
  unfold State.updCmd State.setChan
  split
  · rfl
  · rename_i hown
    have hcmds : (s.ptn h.ptn).flow.cmds ≠ [] := by
      rw [State.cmdOf, State.chan, if_neg hown] at hc
      exact List.ne_nil_of_mem (List.mem_of_find?_eq_some hc)
    have hread : (s.updFlow h.ptn fun x => { x with cmds := updFirst (·.is h.queue h.seq) f x.cmds }).ptn h.ptn = _ :=
      s.ptn_updPtn_same h.ptn _ fun e => updFirst_ne_nil hcmds (congrArg (·.flow.cmds) e)
    rw [hread]

/-- A program of a FWD_MB or BWD_MB starts; where it cannot, its micro-batch's command is over at once. -/
def State.startMb (s : State) (h : Hdr) (e : ProgBlock) : State :=
  let w := s.startProg h e.program.toNat e.entry.toNat e.srStream e.binds
  if (w.cmdOf h).any (·.isOver) then w.mbEnd h else w

/-- The micro-batch that a FWD_MB opens, of `n` bytes, which are free from `seed` on. -/
def CmdRec.newMb (c : CmdRec) (id : W32) (vs : List (Nat × Nat × W64)) (n seed : Nat) : Mb :=
  { id := id, expert := true, queue := c.hdr.queue, seq := c.hdr.seq, versions := vs, bytes := n
    stash := (List.range n).map fun k => BitVec.ofNat 8 (Config.free seed (1 + k)) }

/-- The loss block of a FWD_MB, in which nothing took part (R336). -/
def fwdMbLosses (vs : List (Nat × Nat × W64)) : List Byte := ({} : Losses).bytes 0 ((vs.head?.map (·.2.2)).getD 0)

/-- A stash that fits finds room after the reply's result block is written and a free value is drawn. -/
theorem place_setResult_fits {z : State} {h : Hdr} {c : CmdRec} {n : Nat} (hc : z.cmdOf h = some c) (hroom : (z.ptn h.ptn).train.fits n = true) (r : List Byte) :
    (State.setResult { z with fresh := z.fresh + 1 } h r).place h.ptn n = .room (State.setResult { z with fresh := z.fresh + 1 } h r) :=
  place_fits ((congrArg (·.fits n) (train_updCmd (s := { z with fresh := z.fresh + 1 }) hc _)).trans hroom)

section FwdMb
variable {s u : State} {h : Hdr} {e : ProgBlock} {n : Nat} {c : CmdRec}

theorem fwdMb_opens (hu : s.startsNow h 0x302 (.fwdMb h e) = some u) (hstart : u.startCheck h (.fwdMb h e) = none) (hroom : (s.ptn h.ptn).train.fits (s.expertStash h.ptn) = true)
    (hroom' : ((u.open' h ((u.ptn h.ptn).entryItems e)).ptn h.ptn).train.fits (s.expertStash h.ptn) = true) (hwrite : s.versionWaits h e.program.toNat = false)
    (hid : ((s.ptn h.ptn).train.mbs.any fun m => m.expert && m.id = e.mbId) = false) (hstash : (s.ptn h.ptn).stashCheck 1 (s.expertStash h.ptn) = none)
    (hslices : u.slicesCheck h e.program.toNat = none) (hc : (u.open' h ((u.ptn h.ptn).entryItems e)).cmdOf h = some c) :
    let z := u.open' h ((u.ptn h.ptn).entryItems e)
    let vs := (s.ptn h.ptn).progVersions e.program.toNat
    exec (.fwdMb h e) s = .next ((((State.setResult { z with fresh := z.fresh + 1 } h (fwdMbLosses vs)).updTrain h.ptn fun t =>
      { t with mbs := t.mbs ++ [c.newMb e.mbId vs (s.expertStash h.ptn) z.fresh] }).startMb h e).settle h) := by
  intro z vs
  have hplace := place_setResult_fits hc hroom' (fwdMbLosses vs)
  rw [fwdMbLosses] at hplace
  show execFwdMb h e s = _
  simp only [execFwdMb, place_fits hroom, hwrite, hid, hstash, Option.isSome_none, Bool.false_eq_true, if_false]
  refine congrArg _ ((queued_passed hu ?_).trans (congrArg (State.settle · h) ?_))
  · rw [hstart, hslices]; rfl
  · simp only [hc, vs, hplace]
    rfl

end FwdMb

/-! ## BWD_MB (R186, R189) -/

section BwdMb
variable {s u : State} {h : Hdr} {e : ProgBlock} {m : Mb}

/-- A micro-batch's backward runs, and the command's items are as suspect as its forward. -/
def State.openBwd (z : State) (h : Hdr) (m : Mb) : State :=
  (z.updPtn h.ptn fun x => { x with train := x.train.updMb m fun k => { k with bwdRunning := true } }).updCmd h
    fun c => { c with items := c.items.map fun i => { i with suspect := i.suspect || m.suspect } }

variable (hu : s.startsNow h 0x303 (.bwdMb h e) = some u) (hstart : u.startCheck h (.bwdMb h e) = none)
  (hm : ((s.ptn h.ptn).train.mbs.find? fun m => m.expert && m.id = e.mbId) = some m) (hplace : m.place = .resident) (hdone : m.done.isSome = true)
  (hfirst : m.bwdRunning = false) (hslices : u.slicesCheck h e.program.toNat = none)
include hu hstart hm hplace hdone hfirst hslices

theorem bwdMb_run : exec (.bwdMb h e) s = .next (State.settle (match m.failed with
    | some c => (((u.open' h ((u.ptn h.ptn).entryItems e)).openBwd h m).failOpen h c).mbEnd h
    | none => ((u.open' h ((u.ptn h.ptn).entryItems e)).openBwd h m).startMb h e) h) := by
  have hpass : (u.startCheck h (.bwdMb h e)).or (if m.done.isNone || m.bwdRunning then some St.eBusy else u.slicesCheck h e.program.toNat) = none := by
    rw [hstart, hfirst, Option.isNone_eq_false_iff.mpr hdone, hslices]; rfl
  show execBwdMb h e s = _
  rw [execBwdMb, hm]
  refine (if_neg ?_).trans (congrArg _ ((queued_passed hu hpass).trans (congrArg (State.settle · h) ?_)))
  · simp [hplace]
  · dsimp only
    cases m.failed <;> rfl

theorem bwdMb_failed {c : Status} (hfail : m.failed = some c) :
    exec (.bwdMb h e) s = .next (((((u.open' h ((u.ptn h.ptn).entryItems e)).openBwd h m).failOpen h c).mbEnd h).settle h) := by
  rw [bwdMb_run hu hstart hm hplace hdone hfirst hslices, hfail]

theorem bwdMb_starts (hfail : m.failed = none) :
    exec (.bwdMb h e) s = .next ((((u.open' h ((u.ptn h.ptn).entryItems e)).openBwd h m).startMb h e).settle h) := by
  rw [bwdMb_run hu hstart hm hplace hdone hfirst hslices, hfail]

end BwdMb

/-! ## MB_RELEASE (R186) -/

/-- The pending micro-batch of an expert program's identifier. -/
def State.pendingMb (s : State) (h : Hdr) (id : W32) : Option Mb := (s.ptn h.ptn).train.mbs.find? fun m => m.expert && m.id = id

/-- A pending micro-batch is discarded. -/
def State.discardMb (s : State) (h : Hdr) (m : Mb) : State := s.updTrain h.ptn fun t => { t with mbs := dropFirst (fun b => b = m) t.mbs }

/-- One identifier of a MB_RELEASE, after those before it and their items. -/
def releaseMb (h : Hdr) (a : State × List Item) (id : W32) : State × List Item := match a.1.pendingMb h id with
  | none => (a.1, a.2 ++ [failedItem St.eParam])
  | some m => (a.1.discardMb h m, a.2 ++ [doneItem])

theorem mbRelease_run {s u : State} {h : Hdr} {ids : List W32} (hu : s.runsNow h 0x304 = some u) (hne : ids ≠ []) (hlen : ids.length ≤ 256) :
    let r := ids.foldl (releaseMb h) (u, [])
    exec (.mbRelease h ids) s = .next ((r.1.replied h r.2 []).pumpTrain h.ptn) := by
  have hids : ¬(decide (ids = []) || decide (ids.length > 256)) = true := by
    simp only [hne, Nat.not_lt.mpr hlen, decide_false, Bool.or_self, Bool.false_eq_true, not_false_eq_true]
  refine congrArg _ (congrArg (State.pumpTrain · h.ptn) ((atOnce_run hu).trans ?_))
  rw [if_neg hids]
  rfl

theorem mbRelease_one {s u : State} {h : Hdr} {id : W32} {m : Mb} (hu : s.runsNow h 0x304 = some u) (hm : u.pendingMb h id = some m) :
    exec (.mbRelease h [id]) s = .next (((u.discardMb h m).replied h [doneItem] []).pumpTrain h.ptn) := by
  rw [mbRelease_run hu (List.cons_ne_nil _ _) (Nat.le_of_ble_eq_true rfl), List.foldl_cons, List.foldl_nil, releaseMb, hm]
  rfl

/-! ## UPDATE (R190, R412) -/

section Update
variable {s u : State} {h : Hdr} {m k : W16} {adamw : Bool} {g : W32} {o : Opt} {w : WSet}
variable (hu : s.startsNow h 0x305 (.update h m k adamw g o) = some u) (hstart : u.startCheck h (.update h m k adamw g o) = none)
  (hset : (u.ptn h.ptn).set? m.toNat k.toNat = some w)
include hu hstart hset

theorem update_invalid (hw : w.invalid = true) : exec (.update h m k adamw g o) s = .next (u.reject h 0x305 St.eBusy) := by
  refine congrArg _ (queued_rejected hu ?_)
  simp only [hstart, hset, hw, Option.none_or, if_true]

theorem update_opens {c : CmdRec} (hw : w.invalid = false) (hg : g = 0xFFFFFFFF ∨ ((u.ptn h.ptn).group? g).isSome = true) (hc : (u.open' h 1).cmdOf h = some c) :
    exec (.update h m k adamw g o) s = .next (((((u.open' h 1).addRun h.ptn {
      queue := c.hdr.queue, seq := c.hdr.seq, student := m.toNat, adamw := adamw, group := g, opt := o, contact := { family := 2 }, leftUpd := [k.toNat] }).refreshLoss h).settle h)) := by
  have hheld : ¬(decide (g ≠ 0xFFFFFFFF) && ((u.ptn h.ptn).group? g).isNone) = true := by
    simpa [Option.isSome_iff_ne_none, or_iff_not_imp_left] using hg
  refine congrArg _ ((queued_passed hu ?_).trans ?_)
  · simp only [hstart, hset, hw, Option.none_or, Bool.false_eq_true, if_false, if_neg hheld]
  · simp only [hc]

end Update

end Sys2Proof.Machine

/-! ## The statement -/

section
open Sys2Proof Sys2Proof.Machine

/-- Settles O53: each clause is one outcome of a command that starts; DISTILL_STEP and EVAL share theirs. -/
theorem trainingCommands : Obligations.TrainingCommands := by
  refine ⟨?steps, ?fwd, ?bwd, ?release, ?update⟩
  case steps =>
    intro s u h b e c starts
    have hsteps : ∀ i op eval, exec i s = s.stepCommand h op i b e eval → starts i op eval := by
      intro i op eval hexec hu hstart z x hc
      rw [hexec]
      refine ⟨fun hlevel hcheck v r hread => ?basic, fun hlevel code hcheck => stepCommand_basicRejected hu hstart hlevel hcheck, fun hlevel hwrite hcheck => ?expert⟩
      case basic =>
        rw [stepCommand_basic hu hstart hlevel hcheck]
        exact ⟨fun htaps => congrArg (fun y : State => Host.Outcome.next (y.settle h)) (startBasic_goesOn hc hread htaps),
          fun htaps => congrArg (fun y : State => Host.Outcome.next (y.settle h)) (startBasic_badTaps hc hread htaps)⟩
      case expert =>
        intro im v r hread y buf k htaps
        rw [stepCommand_expert hu hstart hlevel hwrite hcheck]
        exact congrArg (fun y : State => Host.Outcome.next (y.settle h)) (startContact_starts rfl hc hread htaps)
    exact ⟨hsteps _ _ _ (exec_distillStep s h b e), hsteps _ _ _ (exec_eval s h b e)⟩
  case fwd =>
    intro s u h e hu hstart y n z hroom hroom' hwrite hid hstash hslices c hc
    exact fwdMb_opens hu hstart hroom hroom' hwrite hid hstash hslices hc
  case bwd =>
    intro s u h e m hu hstart hm hplace hdone hfirst hslices
    exact ⟨fun c => bwdMb_failed hu hstart hm hplace hdone hfirst hslices, bwdMb_starts hu hstart hm hplace hdone hfirst hslices⟩
  case release =>
    intro s u h ids hu hne hlen find drop
    refine ⟨?_, mbRelease_run hu hne hlen⟩
    rintro id m rfl hm
    exact mbRelease_one hu hm
  case update =>
    intro s u h m k adamw g o w hu hstart hset
    exact ⟨update_invalid hu hstart hset, fun hw hg c => update_opens hu hstart hset hw hg⟩

end
end

section
/-! PROOFS. The events of the contact path and of the stash, an update item's buffer, and the optimiser: the outcomes of each, and the statement that follows (R152, R159, R183 to R185, R190 to R193, R196, R428). -/

namespace Sys2Proof.Machine

/-! ## CONTACT_FINALISE (R152, R159) -/

/-- A row block is due: it is not final, its command carries it, and its turn in its lane has come. -/
structure BlockDue (r : Train) (lanes b : Nat) : Prop where
  inBatch : b < r.blockCount
  notFinal : b ∉ r.blocks
  carried : r.expert = true ∨ r.contact.family ≠ 2 ∧ r.mbCount ≠ 0 ∧ r.fwdOpen = true ∧ r.mbOf b = r.nextFwd
  turn : r.contact.family = 0 → r.inTurn lanes b = true

theorem contactFinalise_due {s : State} {p : PtnId} {q : QueueId} {b : Nat} {c : CmdRec} {r : Train} (hc : s.running? p q = some c)
    (hr : (s.pumpRun p c.hdr).runOf c.hdr = some r) (hst : ((s.pumpRun p c.hdr).job p q).st = .running) (hserved : (s.pumpRun p c.hdr).starved p = false)
    (hdue : BlockDue r (((s.pumpRun p c.hdr).ptn p).lanesOf r) b) :
    exec (.contactFinalise p q b) s = .next ((((s.pumpRun p c.hdr).finalise p c.hdr r b).refreshLoss c.hdr).pumpTrain p) := by
  obtain ⟨hin, hopen, hcarried, hturn⟩ := hdue
  refine congrArg Host.Outcome.next ?_
  simp only [hc, hr]
  refine if_neg ?_
  rcases hcarried with hexpert | ⟨hfam, hmb, hfwd, hmine⟩
  · simpa [hst, hserved, Nat.not_le.mpr hin, hopen, hexpert] using hturn
  · simpa [hst, hserved, Nat.not_le.mpr hin, hopen, hmb, hfwd, hmine] using ⟨fun _ => hfam, hturn⟩

/-! ## Fills (R183, R185) -/

section Fills
variable {s v : State} {p : PtnId} {m : Mb}

theorem stashFill_first {ms : List Mb} (hm : (s.ptn p).fillOrder = m :: ms) (hst : (s.job p m.queue).st ≠ .stopped) (hroom : s.place p m.bytes = .room v) :
    exec (.stashFill p m.id) s = .next (v.updTrain p fun t => t.updMb m fun m => { m with place := .filling }) := by
  refine congrArg Host.Outcome.next ?_
  simp only [hm, hst, hroom, ne_eq, not_true_eq_false, decide_false, Bool.or_self, Bool.false_eq_true, if_false]

theorem stashFillComplete_read {id : W32} {b : List Byte} (hm : ((s.ptn p).train.mbs.find? fun m => m.id = id && m.place = .filling) = some m)
    (hst : (s.job p m.queue).st ≠ .stopped) (hserved : s.starved p = false) (hread : s.mbStash p m = (v, .ok b)) :
    exec (.stashFillComplete p id) s = .next ((v.updTrain p fun t => t.updMb m fun m => { m with place := .resident, stash := b }).pumpTrain p) := by
  refine congrArg Host.Outcome.next ?_
  simp only [hm, hst, hserved, hread, decide_false, Bool.or_self, Bool.false_eq_true, if_false]

end Fills

/-! ## UPDATE_BUFFER_ACQUIRE (R190, R193, R381, R428) -/

section Acquire
variable {s s0 : State} {p : PtnId} {m k : W16} {r : Train} {c : CmdRec} {y : Model} {w : WSet}

/-- The item of an update is suspect where a backward item of its step is (R428). -/
def State.markUpdate (s : State) (p : PtnId) (h : Hdr) (r : Train) (k : Nat) : State :=
  if s.bwdSuspect p h r then s.updCmd h fun c => { c with items := updNth (fun i => { i with suspect := true }) c.items (r.updItem k) } else s

variable (hs : s0.flushFolds p = s) (hr : s.updateRun p m.toNat k.toNat = some r) (hc : s.cmdOf (Hdr.ofTrain p r) = some c)
  (hy : (s.ptn p).model? r.student = some y) (hw : (s.ptn p).set? r.student k.toNat = some w) (hfree : w.writing = false) (hst : (s.job p r.queue).st = .running)
include hs hr hc hy hw hfree hst

/-- What an update item does whose set no update writes and whose job runs. -/
theorem updateBufferAcquire_run : exec (.updateBufferAcquire p m k) s0 = .next (
    if w.invalid then s.endUpdate p c.hdr (r.updItem k.toNat) (some k.toNat) 0 (some St.eBusy)
    else if (s.ptn p).refersTo r.student k.toNat w.targetVersion then s.addSheet c.hdr fun c => { c with waited := true }
    else if r.group = 0xFFFFFFFF then ((s.markUpdate p c.hdr r k.toNat).clearBad p).updateAlone p c.hdr r k.toNat y.image w
    else match (s.ptn p).group? r.group with
      | none => s.endUpdate p c.hdr (r.updItem k.toNat) (some k.toNat) 0 (some St.eParam)
      | some g => s.updateGroup p c.hdr r k.toNat y.image w g) := by
  subst hs
  refine congrArg Host.Outcome.next ?_
  simp only [hr, hc, hy, hw, hfree, hst, ne_eq, not_true_eq_false, decide_false, Bool.or_self, Bool.false_eq_true, if_false]
  rfl

theorem updateBufferAcquire_invalid (hbad : w.invalid = true) :
    exec (.updateBufferAcquire p m k) s0 = .next (s.endUpdate p c.hdr (r.updItem k.toNat) (some k.toNat) 0 (some St.eBusy)) := by
  rw [updateBufferAcquire_run hs hr hc hy hw hfree hst, if_pos hbad]

variable (hgood : w.invalid = false)
include hgood

theorem updateBufferAcquire_waits (href : (s.ptn p).refersTo r.student k.toNat w.targetVersion = true) :
    exec (.updateBufferAcquire p m k) s0 = .next (s.addSheet c.hdr fun c => { c with waited := true }) := by
  rw [updateBufferAcquire_run hs hr hc hy hw hfree hst, if_neg (Bool.eq_false_iff.mp hgood), if_pos href]

variable (href : (s.ptn p).refersTo r.student k.toNat w.targetVersion = false)
include href

theorem updateBufferAcquire_alone (hg : r.group = 0xFFFFFFFF) :
    exec (.updateBufferAcquire p m k) s0 = .next (((s.markUpdate p c.hdr r k.toNat).clearBad p).updateAlone p c.hdr r k.toNat y.image w) := by
  rw [updateBufferAcquire_run hs hr hc hy hw hfree hst, if_neg (Bool.eq_false_iff.mp hgood), if_neg (Bool.eq_false_iff.mp href), if_pos hg]

theorem updateBufferAcquire_group {g : Group} (hg : r.group ≠ 0xFFFFFFFF) (hgroup : (s.ptn p).group? r.group = some g) :
    exec (.updateBufferAcquire p m k) s0 = .next (s.updateGroup p c.hdr r k.toNat y.image w g) := by
  rw [updateBufferAcquire_run hs hr hc hy hw hfree hst, if_neg (Bool.eq_false_iff.mp hgood), if_neg (Bool.eq_false_iff.mp href), if_neg hg, hgroup]

end Acquire

/-! ## The optimiser (R196) -/

/-- The first moment after a step of AdamW, from the scaled gradient. -/
def adamM (o : Opt) (gs m : Nat) : Nat := (b32.fadd (b32.fmul o.b1.toNat m).1 (b32.fmul o.c1.toNat gs).1).1

/-- The second moment. -/
def adamV (o : Opt) (gs v : Nat) : Nat := (b32.fadd (b32.fmul o.b2.toNat v).1 (b32.fmul o.c2.toNat (b32.fmul gs gs).1).1).1

/-- The master weight, from the new moments. -/
def adamW (o : Opt) (w m v : Nat) : Nat :=
  (b32.fsub (b32.fsub w (b32.fmul o.lrT.toNat (b32.fdiv m (b32.fadd (b32.fsqrt v).1 o.eps.toNat).1).1).1).1 (b32.fmul o.wd.toNat w).1).1

theorem optStep_adamw (o : Opt) (g w m v : Nat) :
    let gs := (b32.fmul g o.gradScale.toNat).1
    (optStep o true g w m v).run'.1 = (adamW o w (adamM o gs m) (adamV o gs v), adamM o gs m, adamV o gs v) := rfl

end Sys2Proof.Machine

/-! ## The statement -/

section
open Sys2Proof Sys2Proof.Machine

/-- Settles O54: the hypotheses of each clause pick one branch of the event's meaning; the optimiser's step is its three formulas. -/
theorem trainingEvents : Obligations.TrainingEvents := by
  refine ⟨?finalise, ?fill, ?fillEnd, ?acquire, fun o g w m v => ?adamw, fun w half => ⟨rfl, rfl, rfl⟩⟩
  case finalise =>
    intro s p q b c r hc z hr hst hserved hin hopen hcarried hturn
    exact contactFinalise_due hc hr hst hserved ⟨hin, hopen, hcarried, hturn⟩
  case fill =>
    intro s v p m ms hm hst hroom
    exact stashFill_first hm hst hroom
  case fillEnd =>
    intro s v p id m b hm hst hserved hread
    exact stashFillComplete_read hm hst hserved hread
  case acquire =>
    intro s0 p m k r c y w s hr x hc hy hw hfree hst run item
    refine ⟨updateBufferAcquire_invalid rfl hr hc hy hw hfree hst, fun hgood => ⟨updateBufferAcquire_waits rfl hr hc hy hw hfree hst hgood, fun href => ⟨?_, fun hg g => ?_⟩⟩⟩
    · exact updateBufferAcquire_alone rfl hr hc hy hw hfree hst hgood href
    · exact updateBufferAcquire_group rfl hr hc hy hw hfree hst hgood href hg
  case adamw =>
    have hstep := optStep_adamw o g w m v
    exact ⟨congrArg (·.2.1) hstep, congrArg (·.2.2) hstep, congrArg (·.1) hstep⟩

end
end

section
/-! PROOFS. The model and variant commands: what each does once it starts and its acceptance checks pass, and the statement that follows (R171, R191, R204, R214, R325, R328, R344, R346, R348). -/

namespace Sys2Proof.Machine

/-! ## A model as it becomes resident (R191, R325, R348) -/

/-- The lowest free handle is used by none of the handles that are in use. -/
theorem freeHandle_not_mem {base k : Nat} {used : List Nat} (h : freeHandle base used = some k) : k ∉ used := by
  simpa using List.find?_some h

/-- A weight set begins at version 0, its first version buffer and its master weights alike. -/
theorem Image.mem_sets {im : Image} {two sharedW : Bool} {own shared : List Byte} {w : WSet} (hw : w ∈ im.sets two own shared sharedW) :
    w.buf0 = w.master ∧ w.version = 0 := by
  obtain ⟨i, -, rfl⟩ := List.mem_map.mp hw
  exact ⟨rfl, rfl⟩

/-- The model that becomes resident under handle `k`, with its pool and its areas in the granules given, and what making its turned copies counts (R50). -/
def State.residentModel (s : State) (a n : Nat) (fl : W32) (b : List Byte) (im : Image) (k : Nat) (pool areas : List Nat) : Model × Ev :=
  let shared := if fl.getLsbD 2 || im.tensors.any (·.shared) then s.sharedBytes else []
  let own := match im.weights with | some w => (b.drop w.1).take w.2 | none => []
  let turned := if fl.getLsbD 0 then im.turnedCopies own shared (fl.getLsbD 2) else ([], {})
  ({ handle := k, image := im, hash := sha256 b, flags := fl, addr := a, bytes := n, version := BitVec.ofNat 64 (fld b 32 8),
     sets := im.sets (fl.getLsbD 1) own shared (fl.getLsbD 2), pool := pool, areas := areas, turned := turned.1 }, turned.2)

/-- A model that `newModel` makes has the lowest free handle, and granules for its pool and its areas were free. -/
theorem newModel_ok {s : State} {h : Hdr} {a n kv : Nat} {fl : W32} {b : List Byte} {im : Image} {m : Model} {ev : Ev}
    (hnew : s.newModel h a n fl kv b im = .ok (m, ev)) :
    ∃ k pool areas, freeHandle 0 ((s.ptn h.ptn).models.map (·.handle)) = some k ∧
      (s.ptn h.ptn).takeGranules kv (granulesOf a n) = some pool ∧
      (s.ptn h.ptn).takeGranules (ceilDiv (im.areaBytes (fl.getLsbD 1) (fl.getLsbD 0)) gib) (granulesOf a n ++ pool) = some areas ∧
      s.residentModel a n fl b im k pool areas = (m, ev) := by
  rw [State.newModel] at hnew
  -- With the numeral 2^30 in place, the kernel counts it down when it compares two matches on `takeGranules`.
  obtain ⟨g, hg⟩ : ∃ g, gib = g := ⟨_, rfl⟩
  rw [hg] at hnew ⊢
  dsimp only at hnew
  split at hnew
  case h_1 => exact nomatch hnew
  case h_2 k hk =>
    split at hnew
    case h_1 => exact nomatch hnew
    case h_2 pool hpool =>
      split at hnew
      case h_1 => exact nomatch hnew
      case h_2 areas hareas => exact ⟨k, pool, areas, hk, hpool, hareas, Except.ok.inj hnew⟩

theorem newModel_hash {s : State} {h : Hdr} {a n kv : Nat} {fl : W32} {b : List Byte} {im : Image} {m : Model} {ev : Ev}
    (hnew : s.newModel h a n fl kv b im = .ok (m, ev)) : m.hash = sha256 b := by
  obtain ⟨k, pool, areas, -, -, -, hm⟩ := newModel_ok hnew
  cases hm
  rfl

/-! ## MODEL_LOAD (R325, R348) -/

/-- An image that is no negative, or that refers to no shared region, needs no measurement of one (R416). -/
theorem sharedDiffers_of_own {s : State} {im : Image} {ver : Nat} (hown : ver = 0 ∨ im.tensors.any (·.shared) = false) : s.sharedDiffers im ver = (s, false) := by
  unfold State.sharedDiffers
  refine if_neg fun hboth => ?_
  obtain ⟨hver, hshared⟩ := Bool.and_eq_true_iff.mp hboth
  rcases hown with hzero | hnone
  · exact of_decide_eq_true hver hzero
  · exact Bool.false_ne_true (hnone.symm.trans hshared)

section ModelLoad
variable {s u z : State} {h : Hdr} {a n : W64} {fl : W32} {kv : W16} {b : List Byte} {c : Status}
variable (hu : s.startsNow h 0x220 (.modelLoad h a n fl kv) = some u) (hcheck : u.startCheck h (.modelLoad h a n fl kv) = none)
include hu hcheck

theorem modelLoad_short (hn : n.toNat < 64) : exec (.modelLoad h a n fl kv) s = .next (u.reject h 0x220 St.eImage) := by
  refine congrArg _ (queuedDone_rejected hu hcheck ?_)
  rw [if_pos hn]

theorem modelLoad_unreadable (hn : 64 ≤ n.toNat) (hread : u.pRead h.ptn Who.firmware a.toNat n.toNat = (z, .error c)) :
    exec (.modelLoad h a n fl kv) s = .next (z.finished h (failedItem c) (loadResult 0 0 [])) := by
  refine congrArg _ (queuedDone_finished hu hcheck ?_)
  rw [if_neg (Nat.not_lt.mpr hn), hread]

theorem modelLoad_badImage (hn : 64 ≤ n.toNat) (hread : u.pRead h.ptn Who.firmware a.toNat n.toNat = (z, .ok b))
    (hload : Image.load 1 n.toNat b (fl.getLsbD 2) z.mod.fill.toNat = .error c) : exec (.modelLoad h a n fl kv) s = .next (z.reject h 0x220 c) := by
  refine congrArg _ (queuedDone_rejected hu hcheck ?_)
  simp only [if_neg (Nat.not_lt.mpr hn), hread, hload]

theorem modelLoad_loaded {im : Image} {m : Model} {ev : Ev} (hn : 64 ≤ n.toNat) (hread : u.pRead h.ptn Who.firmware a.toNat n.toNat = (z, .ok b))
    (hload : Image.load 1 n.toNat b (fl.getLsbD 2) z.mod.fill.toNat = .ok im) (hown : fld b 32 8 = 0 ∨ im.tensors.any (·.shared) = false)
    (hnew : z.newModel h a.toNat n.toNat fl kv.toNat b im = .ok (m, ev)) :
    exec (.modelLoad h a n fl kv) s = .next (((z.updPtn h.ptn fun x => { x with models := x.models ++ [m] }).addSheet h (·.addEv ev)).finished
      h doneItem (loadResult m.handle 0 (sha256 b))) := by
  rw [← newModel_hash hnew]
  refine congrArg _ (queuedDone_finished hu hcheck ?_)
  simp only [if_neg (Nat.not_lt.mpr hn), hread, hload, sharedDiffers_of_own hown, hnew]
  rfl

end ModelLoad

/-! ## MODEL_UNLOAD (R328) -/

section ModelUnload
variable {s u : State} {h : Hdr} {m : W16}
variable (hu : s.startsNow h 0x221 (.modelUnload h m) = some u) (hcheck : u.startCheck h (.modelUnload h m) = none)
  (hmodel : ((u.ptn h.ptn).model? m.toNat).isSome = true)
include hu hcheck hmodel

theorem modelUnload_inUse (huse : (u.ptn h.ptn).modelInUse h m.toNat = true) : exec (.modelUnload h m) s = .next (u.reject h 0x221 St.eBusy) := by
  refine congrArg _ (queuedDone_rejected hu hcheck ?_)
  simp only [Option.isNone_eq_false_iff.mpr hmodel, huse, Bool.false_eq_true, if_false, if_true]

theorem modelUnload_removed (huse : (u.ptn h.ptn).modelInUse h m.toNat = false) :
    exec (.modelUnload h m) s = .next ((u.updPtn h.ptn (·.dropModel m.toNat)).finished h doneItem []) := by
  refine congrArg _ (queuedDone_finished hu hcheck ?_)
  simp only [Option.isNone_eq_false_iff.mpr hmodel, huse, Bool.false_eq_true, if_false]

end ModelUnload

theorem Ptn.dropModel_models (x : Ptn) (k : Nat) : (x.dropModel k).models = x.models.filter fun y => y.handle ≠ k := rfl

/-! ## VARIANT_LOAD (R214) -/

/-- What follows an access that went well. -/
theorem Acc.bind_of_ok {α β : Type} {a : Acc α} {s : State} {x : α} (f : State → α → Acc β) (ha : a = (s, .ok x)) : Acc.bind a f = f s x := by
  rw [ha]; rfl

/-- A variant whose bytes are read and written into granules that are free becomes the current one of its model and tag. -/
theorem loadVariant_ok {u v z : State} {p : PtnId} {model addr bytes : Nat} {tag : W32} {b : List Byte} {area : List Nat}
    (hread : u.pRead p Who.firmware addr bytes = (v, .ok b)) (hfree : (v.ptn p).takeGranules (ceilDiv b.length gib) (granulesOf addr bytes) = some area)
    (hfill : v.fillGranules p area b = (z, .ok ())) :
    let ver : W64 := BitVec.ofNat 64 (Config.free z.fresh 0)
    u.loadVariant p model tag addr bytes = (State.updPtn { z with fresh := z.fresh + 1 } p fun x => { x with serve := { x.serve.retireVariant model tag with
        variants := (x.serve.retireVariant model tag).variants ++ [{ model := model, tag := tag, version := ver, addr := addr, bytes := bytes, hash := sha256 b, area := area }] } },
      .ok (Config.free z.fresh 1 % 2 ^ 16, ver, sha256 b)) := by
  have hneed : v.need ((v.ptn p).takeGranules (ceilDiv b.length gib) (granulesOf addr bytes)) St.eLpFull = (v, .ok area) := by
    rw [hfree]; rfl
  exact (Acc.bind_of_ok _ hread).trans ((Acc.bind_of_ok _ hneed).trans (Acc.bind_of_ok _ hfill))

section VariantLoad
variable {s u v : State} {h : Hdr} {m : W16} {tag : W32} {a n : W64}
variable (hu : s.startsNow h 0x222 (.variantLoad h m tag a n) = some u) (hcheck : u.startCheck h (.variantLoad h m tag a n) = none)
  (hmodel : ((u.ptn h.ptn).model? m.toNat).isSome = true)
include hu hcheck hmodel

theorem variantLoad_loaded {k : Nat} {ver : W64} {hash : List Byte} (hload : u.loadVariant h.ptn m.toNat tag a.toNat n.toNat = (v, .ok (k, ver, hash))) :
    exec (.variantLoad h m tag a n) s = .next (v.finished h doneItem (loadResult k ver hash)) := by
  refine congrArg _ (queuedDone_finished hu hcheck ?_)
  simp only [Option.isNone_eq_false_iff.mpr hmodel, hload, Bool.false_eq_true, if_false]

theorem variantLoad_failed {code : Status} (hload : u.loadVariant h.ptn m.toNat tag a.toNat n.toNat = (v, .error code)) :
    exec (.variantLoad h m tag a n) s = .next (v.finished h (failedItem code) (loadResult 0 0 [])) := by
  refine congrArg _ (queuedDone_finished hu hcheck ?_)
  simp only [Option.isNone_eq_false_iff.mpr hmodel, hload, Bool.false_eq_true, if_false]

end VariantLoad

/-! ## VARIANT_UNLOAD -/

section VariantUnload
variable {s u : State} {h : Hdr} {m : W16} {tag : W32}
variable (hu : s.startsNow h 0x223 (.variantUnload h m tag) = some u) (hcheck : u.startCheck h (.variantUnload h m tag) = none)
  (hmodel : ((u.ptn h.ptn).model? m.toNat).isSome = true)
include hu hcheck hmodel

theorem variantUnload_retired (hcur : ((u.ptn h.ptn).serve.variant? m.toNat tag).isSome = true) :
    exec (.variantUnload h m tag) s = .next ((u.updPtn h.ptn fun x => { x with serve := x.serve.retireVariant m.toNat tag }).finished h doneItem []) := by
  refine congrArg _ (queuedDone_finished hu hcheck ?_)
  simp only [Option.isNone_eq_false_iff.mpr hmodel, Option.isNone_eq_false_iff.mpr hcur, Bool.false_eq_true, if_false]

theorem variantUnload_unknown (hcur : (u.ptn h.ptn).serve.variant? m.toNat tag = none) :
    exec (.variantUnload h m tag) s = .next (u.reject h 0x223 St.eNoVariant) := by
  refine congrArg _ (queuedDone_rejected hu hcheck ?_)
  simp only [Option.isNone_eq_false_iff.mpr hmodel, hcur, Option.isNone_none, Bool.false_eq_true, if_false, if_true]

end VariantUnload

end Sys2Proof.Machine

/-! ## The statement -/

section
open Sys2Proof Sys2Proof.Machine

/-- Settles O51: each clause is one outcome of a command that starts and passes its checks; what a loaded model holds is read off `newModel_ok`. -/
theorem modelCommands : Obligations.ModelCommands := by
  refine ⟨?load, ?unload, ?variantLoad, ?variantUnload, ?resident⟩
  case load =>
    intro s u h a n fl kv hu hcheck run
    exact ⟨modelLoad_short hu hcheck,
      fun hn z b hread => ⟨fun c => modelLoad_badImage hu hcheck hn hread, fun im m ev => modelLoad_loaded hu hcheck hn hread⟩,
      fun hn z c => modelLoad_unreadable hu hcheck hn⟩
  case unload =>
    intro s u h m hu hcheck hmodel
    exact ⟨fun huse => ⟨modelUnload_removed hu hcheck hmodel huse, Ptn.dropModel_models _ _⟩, modelUnload_inUse hu hcheck hmodel⟩
  case variantLoad =>
    intro s u h m tag a n hu hcheck hmodel
    exact ⟨fun v z b area hread hfree hfill => variantLoad_loaded hu hcheck hmodel (loadVariant_ok hread hfree hfill), fun v code => variantLoad_failed hu hcheck hmodel⟩
  case variantUnload =>
    intro s u h m tag hu hcheck hmodel
    exact ⟨variantUnload_retired hu hcheck hmodel, variantUnload_unknown hu hcheck hmodel⟩
  case resident =>
    intro s h a n fl kv b im m ev hnew
    obtain ⟨k, pool, areas, hfree, -, -, hm⟩ := newModel_ok hnew
    cases hm
    refine ⟨rfl, rfl, rfl, rfl, rfl, fun y hy hsame => ?_, fun w => Image.mem_sets⟩
    exact freeHandle_not_mem hfree (List.mem_map.mpr ⟨y, hy, hsame⟩)

end
end

section
/-! PROOFS. Generation and serving: the outcome of each command, of a refill, of a step and of a chunk in the states where it applies, and the statement that follows (R199, R200, R204, R207, R210 to R212, R216 to R218, R225, R327). -/

namespace Sys2Proof.Machine

/-- A command at once whose items and result block are known is replied to. -/
theorem atOnce_replied {s u v : State} {h : Hdr} {op : W16} {f : State → State × Except Status (List Item × List Byte)} {items : List Item} {r : List Byte}
    (hu : s.runsNow h op = some u) (hf : f u = (v, .ok (items, r))) : s.atOnce h op f = v.replied h items r := by
  rw [atOnce_run hu, hf]

/-- A list of 1 to 256 records is not refused for its length. -/
theorem count_allowed {α : Type} {rs : List α} [Decidable (rs = [])] (hne : rs ≠ []) (hlen : rs.length ≤ 256) :
    ¬(decide (rs = []) || decide (rs.length > 256)) = true := by
  simp only [hne, Nat.not_lt.mpr hlen, decide_false, Bool.or_self, Bool.false_eq_true, not_false_eq_true]

/-! ## GEN_SUBMIT and GEN_CANCEL (R199, R200, R204, R225) -/

/-- What stands in the result block of a GEN_SUBMIT for a request until its stream closes. -/
def openResult : List Byte := List.replicate 20 0 ++ leBytes 4 0xFFFFFFFF ++ List.replicate 8 0

/-- The step kernels that a GEN_SUBMIT names: an expert's program and entry. -/
def State.stepKernels (s : State) (h hd : Hdr) (program entry : W16) : List Byte :=
  if hd.expert && program ≠ 0xFFFF then (((s.ptn h.ptn).prog? program.toNat).map fun q => q.hash ++ leBytes 2 entry.toNat).getD [] else []

/-- Request k.1 of a GEN_SUBMIT, its item k.2: a stream opens, or the item fails. -/
def State.submit (s : State) (h hd : Hdr) (prog : List Byte) (k : GenReq × Nat) : State :=
  match s.openStream hd k.2 k.1 prog with
  | (s, .error code) => s.closeItem h k.2 (some code)
  | (s, .ok _) => s

theorem genSubmit_opens {s u : State} {h : Hdr} {p e : W16} {rs : List GenReq} {c : CmdRec} (hu : s.startsNow h 0x401 (.genSubmit h p e rs) = some u)
    (hcheck : u.startCheck h (.genSubmit h p e rs) = none) (hne : rs ≠ []) (hlen : rs.length ≤ 256) (hc : (u.open' h rs.length).cmdOf h = some c) :
    let z := u.open' h rs.length
    exec (.genSubmit h p e rs) s = .next ((rs.zipIdx.foldl (fun v k => v.submit h c.hdr (z.stepKernels h c.hdr p e) k)
      ((z.setResult h (List.replicate rs.length openResult).flatten).stageCmd h)).settle h) := by
  refine congrArg _ ((queued_passed hu ((if_neg (count_allowed hne hlen)).trans hcheck)).trans ?_)
  rw [hc]
  rfl

/-- The request that a GEN_CANCEL names is cancelled; unless a step has seated it, its stream closes now. -/
def State.cancel (s : State) (p : PtnId) (t : Stream) : State :=
  let v := s.updStream p t.id fun t => { t with cancelled := true }
  if t.seated then v else v.closeStream p { t with cancelled := true } none none

theorem genCancel_found {s u : State} {h : Hdr} {seq : W32} {i : W16} {c : CmdRec} {t : Stream} (hu : s.runsNow h 0x402 = some u) (hc : u.cmdOf h = some c)
    (hfind : ((u.ptn h.ptn).serve.streams.find? fun t => t.queue = c.hdr.queue && t.seq = seq && t.item = i.toNat) = some t) :
    exec (.genCancel h seq i) s = .next ((u.cancel h.ptn t).replied h [doneItem] []) := by
  refine congrArg _ (atOnce_replied hu ?_)
  simp only [hc, hfind, State.cancel]
  cases t.seated
  · rfl
  · rfl

/-! ## Budgets (R217, R218, R327) -/

/-- One record of a BUDGET_SET, after those before it and their items. -/
def Serve.applyBudget (a : Serve × List Item) (b : BudgetRec) : Serve × List Item := ((a.1.setBudget b).1, a.2 ++ [(a.1.setBudget b).2])

theorem budgetSet_applies {s u : State} {h : Hdr} {rs : List BudgetRec} (hu : s.runsNow h 0x403 = some u) (hne : rs ≠ []) (hlen : rs.length ≤ 256) :
    let r := rs.foldl Serve.applyBudget ((u.ptn h.ptn).serve, [])
    exec (.budgetSet h rs) s = .next ((u.updPtn h.ptn fun x => Ptn.wake { x with serve := r.1.markHeld } x).replied h r.2 []) := by
  exact congrArg _ (atOnce_replied hu (if_neg (count_allowed hne hlen)))

theorem budgetRead_answers {s u : State} {h : Hdr} {first n : W16} (hu : s.runsNow h 0x404 = some u) (hn : n ≠ 0) (hmax : n.toNat ≤ 1024) :
    let bs := (u.ptn h.ptn).serve.budgets
    exec (.budgetRead h first n) s =
      .next (u.replied h [doneItem] (leBytes 4 bs.length ++ leBytes 4 0 ++ ((bs.drop first.toNat).take n.toNat).flatMap Budget.bytes)) := by
  have hcount : ¬(decide (n = 0) || decide (n.toNat > 1024)) = true := by
    simp only [hn, Nat.not_lt.mpr hmax, decide_false, Bool.or_self, Bool.false_eq_true, not_false_eq_true]
  exact congrArg _ (atOnce_replied hu (if_neg hcount))

/-! ## GEN_STEP (R204, R210, R211, R216) -/

/-- The ready streams that a step of the model seats, up to MAX_STREAMS. -/
def State.toSeat (s : State) (p : PtnId) (m : W16) : List Stream := (s.readyStreams p m.toNat).take (max 1 (s.ptn p).serve.maxStreams.toNat)

/-- A step forms where a stream of the model is seated, and its customers' experts are staged. -/
def State.formStep (s : State) (p : PtnId) (m : W16) : State :=
  if (s.ptn p).serve.streams.any fun t => t.seated && t.model = m.toNat then
    (s.updServe p fun v => { v with inStep := v.inStep ++ [m.toNat] }).updPtn p fun x => x.stage (x.expertSet m.toNat)
  else s

section GenStep
variable {s : State} {p : PtnId} {m : W16}
variable (hmodel : ((s.ptn p).model? m.toNat).isSome = true) (hidle : m.toNat ∉ (s.ptn p).serve.inStep) (hstore : s.storeFull (some p) = false)
include hmodel hidle hstore

theorem genStep_run : exec (.genStep p m) s =
    .next (if s.toSeat p m = [] then s else ((s.toSeat p m).foldl (fun w t => w.seat p t) s).formStep p m) := by
  have hgoes : ¬(((s.ptn p).model? m.toNat).isNone || decide (m.toNat ∈ (s.ptn p).serve.inStep) || s.storeFull (some p)) = true := by
    simp only [Option.isNone_eq_false_iff.mpr hmodel, hidle, hstore, decide_false, Bool.or_self, Bool.false_eq_true, not_false_eq_true]
  exact congrArg _ (if_neg hgoes)

theorem genStep_idle (hnone : s.toSeat p m = []) : exec (.genStep p m) s = .next s := by
  rw [genStep_run hmodel hidle hstore, if_pos hnone]

theorem genStep_seats (hready : s.toSeat p m ≠ []) : exec (.genStep p m) s = .next (((s.toSeat p m).foldl (fun w t => w.seat p t) s).formStep p m) := by
  rw [genStep_run hmodel hidle hstore, if_neg hready]

end GenStep

/-! ## STEP_COMMIT (R207, R210, R225) -/

/-- The streams seated in the model's step, in the order of their seating. -/
def State.seatedIn (s : State) (p : PtnId) (m : W16) : List Stream :=
  ((s.ptn p).serve.streams.filter fun t => t.seated && t.model = m.toNat).foldl (fun a t => insSeat t a) []

/-- The model is in no step any more. -/
def State.leaveStep (s : State) (p : PtnId) (m : W16) : State := s.updServe p fun v => { v with inStep := v.inStep.filter (· ≠ m.toNat) }

/-- A stream of a step that failed leaves its seat and closes, its item with the step's code. -/
def State.failSeat (s : State) (p : PtnId) (c : Status) (now : Nat) (t : Stream) : State :=
  (s.updStream p t.id fun t => { t with seated := false }).closeStream p { t with seated := false } (some c) (some now)

section StepCommit
variable {s : State} {p : PtnId} {m : W16} {now : Nat}
variable (hin : m.toNat ∈ (s.ptn p).serve.inStep) (hrun : ∀ t ∈ s.seatedIn p m, (s.job p t.queue).st = .running)
  (hslot : s.starved p = false) (hstore : s.storeFull (some p) = false)
include hin hrun hslot hstore

/-- Nothing holds the end of the step back. -/
theorem stepCommit_goes : ¬(!decide (m.toNat ∈ (s.ptn p).serve.inStep) || ((s.seatedIn p m).any fun t => (s.job p t.queue).st ≠ .running) || s.starved p ||
    s.storeFull (some p)) = true := by
  have hjobs : ((s.seatedIn p m).any fun t => (s.job p t.queue).st ≠ .running) = false :=
    List.any_eq_false.mpr fun t ht => by simp only [hrun t ht, ne_eq, not_true_eq_false, decide_false, Bool.false_eq_true, not_false_eq_true]
  simp only [hin, hjobs, hslot, hstore, decide_true, Bool.not_true, Bool.or_self, Bool.false_eq_true, not_false_eq_true]

theorem stepCommit_commits : exec (.stepCommit p m none now) s = .next ((s.seatedIn p m).foldl (fun w t => w.commitStream p t now) (s.leaveStep p m)) :=
  congrArg _ (if_neg (stepCommit_goes hin hrun hslot hstore))

theorem stepCommit_fails (c : Status) : exec (.stepCommit p m (some c) now) s = .next ((s.seatedIn p m).foldl (fun w t => w.failSeat p c now t) (s.leaveStep p m)) :=
  congrArg _ (if_neg (stepCommit_goes hin hrun hslot hstore))

end StepCommit

/-! ## CHUNK_COMPLETE (R192, R204, R212, R218) -/

/-- The weight versions of a stream's command: those it has sampled, or those that it samples now. -/
def Ptn.sampled (x : Ptn) (t : Stream) : List (Nat × Nat × W64) := t.versions.getD (x.genVersions t)

/-- Every stream of the command keeps the versions sampled. -/
def State.keepVersions (s : State) (p : PtnId) (t : Stream) (vs : List (Nat × Nat × W64)) : State :=
  s.updServe p fun v => { v with streams := v.streams.map fun u => if u.queue = t.queue && u.seq = t.seq then { u with versions := some vs } else u }

/-- A chunk of n positions in pages that it takes; its stream closes where the pool is short. -/
def State.placeChunk (s : State) (p : PtnId) (t : Stream) (n now : Nat) : State :=
  match s.takePages p t.model (t.filled + n) t.pages with
  | none => s.closeStream p t (some St.eKvFull) (some now)
  | some (v, pages) => v.runChunk p { t with pages := pages } n now

section PlaceChunk
variable {s v : State} {p : PtnId} {t : Stream} {n now : Nat} {pages : List (List Nat)}

theorem placeChunk_noPage (htake : s.takePages p t.model (t.filled + n) t.pages = none) :
    s.placeChunk p t n now = s.closeStream p t (some St.eKvFull) (some now) := by
  rw [State.placeChunk, htake]

theorem placeChunk_runs (htake : s.takePages p t.model (t.filled + n) t.pages = some (v, pages)) :
    s.placeChunk p t n now = v.runChunk p { t with pages := pages } n now := by
  rw [State.placeChunk, htake]

end PlaceChunk

section ChunkComplete
variable {s : State} {p : PtnId} {t : Stream} {now : Nat} (hhead : s.chunkHead p = some t) (hstore : s.storeFull (some p) = false)
include hstore

/-- The chunk that ends is the one that runs, and the store takes its messages. -/
theorem chunk_due : ¬(decide (t.id ≠ t.id) || s.storeFull (some p)) = true := by
  simp only [hstore, ne_eq, not_true_eq_false, decide_false, Bool.or_self, Bool.false_eq_true, not_false_eq_true]

include hhead

theorem chunkComplete_failed (c : Status) : exec (.chunkComplete p t.id (some c) now) s = .next (s.closeStream p t (some c) (some now)) := by
  refine congrArg Host.Outcome.next ?_
  simp only [hhead]
  exact if_neg (chunk_due hstore)

variable (hwrite : t.versions = none → (s.ptn p).writingAny ((s.ptn p).sampled t) = false) (hslot : s.starved p = false)

omit hhead hstore in
include hwrite hslot in
/-- Neither an update nor the partition's slots hold the chunk back. -/
theorem chunk_goes : ¬(t.versions.isNone && (s.ptn p).writingAny ((s.ptn p).sampled t) || s.starved p) = true := by
  rw [hslot, Bool.or_false, Bool.and_eq_true, Option.isNone_iff_eq_none]
  rintro ⟨hfirst, hwriting⟩
  exact Bool.false_ne_true ((hwrite hfirst).symm.trans hwriting)

include hwrite hslot

/-- The command's versions sampled, the chunk takes its pages and runs. -/
theorem chunkComplete_goes : exec (.chunkComplete p t.id none now) s = .next ((s.keepVersions p t ((s.ptn p).sampled t)).placeChunk p
    { t with versions := some ((s.ptn p).sampled t) } (min t.chunkMax (t.toFill - t.filled)) now) := by
  refine congrArg Host.Outcome.next ?_
  simp only [hhead]
  exact (if_neg (chunk_due hstore)).trans (if_neg (chunk_goes hwrite hslot))

end ChunkComplete

/-- What a chunk of n more positions leaves of the serving side: its stream further on, its tokens charged but for those charged before, its positions noted. -/
def Serve.fill (v : Serve) (t : Stream) (n : Nat) : Serve :=
  let u : Stream := { t with filled := t.filled + n }
  (Serve.charge { v with streams := updFirst (fun w => w.id = t.id) (fun _ => u) v.streams } t.req.customerTag (t.filled + n - max t.filled t.again)).process u n

/-- A chunk that is not its stream's last. -/
theorem runChunk_passed {s v : State} {p : PtnId} {t : Stream} {n now : Nat} {r : Pass} (hmore : t.filled + n < t.toFill)
    (hpass : s.pass p t t.model t.pages true (t.known.take (t.filled + n)) n [] = (v, .ok r)) :
    let us := v.jobUnits p t.queue
    s.runChunk p t n now = (((((v.updServe p fun v => v.fill t n).addUnits (t.hdr p) [t.item] us).noteTokens (t.hdr p) t.item t.toks.length us).addSheet
      (t.hdr p) fun c => (c.addEv r.ev).addEv {}).monitor p t.id now) := by
  have hlast : decide (t.filled + n = t.toFill) = false := decide_eq_false (Nat.ne_of_lt hmore)
  simp only [State.runChunk, hlast, Bool.false_and, Bool.false_eq_true, if_false, hpass]
  rfl

/-! ## The speculation depth (R210) -/

section NextDepth
variable {depth since mx d a : Nat}

theorem nextDepth_halves (hd : 0 < d) : nextDepth depth since mx d 0 = (depth / 2, 0) := by
  simp only [nextDepth, hd, decide_true, Bool.and_self, if_true]

/-- A step that proposed nothing, or of whose drafts one at least was accepted. -/
theorem nextDepth_accepted (ha : d = 0 ∨ a ≠ 0) :
    nextDepth depth since mx d a = if since + 1 ≥ 64 then (min mx (max 1 (2 * depth)), 0) else (depth, since + 1) := by
  refine if_neg ?_
  rw [Bool.and_eq_true, decide_eq_true_eq, decide_eq_true_eq]
  omega

end NextDepth

end Sys2Proof.Machine

/-! ## The statement -/

section
open Sys2Proof Sys2Proof.Machine

/-- Settles O55: each clause is one outcome of a serving command or event where it applies. -/
theorem serving : Obligations.Serving := by
  refine ⟨?submit, ?cancel, ?budgetSet, ?budgetRead, ?refill, ?step, ?commit, ?chunk, ?pass, ?depth⟩
  case submit =>
    intro s u h p e rs hu hcheck hne hlen z c hc prog
    exact genSubmit_opens hu hcheck hne hlen hc
  case cancel =>
    intro s u h seq i c t hu hc hfind v
    exact genCancel_found hu hc hfind
  case budgetSet =>
    intro s u h rs hu hne hlen
    exact budgetSet_applies hu hne hlen
  case budgetRead =>
    intro s u h first n hu hn hmax
    exact budgetRead_answers hu hn hmax
  case refill =>
    intro s p tag
    rfl
  case step =>
    intro s p m x hmodel hidle hstore ts w
    exact ⟨genStep_idle hmodel hidle hstore, genStep_seats hmodel hidle hstore⟩
  case commit =>
    intro s p m now x ts z hin hrun hslot hstore
    exact ⟨stepCommit_commits hin hrun hslot hstore, stepCommit_fails hin hrun hslot hstore⟩
  case chunk =>
    intro s p t now hhead hstore
    refine ⟨chunkComplete_failed hhead hstore, ?_⟩
    intro x vs n z hwrite hslot
    rw [chunkComplete_goes hhead hstore hwrite hslot]
    exact ⟨fun htake => congrArg _ (placeChunk_noPage htake), fun v pages htake => congrArg _ (placeChunk_runs htake)⟩
  case pass =>
    intro s v p t n now r hmore hpass us z
    exact runChunk_passed hmore hpass
  case depth =>
    intro depth since mx d
    refine ⟨nextDepth_halves, fun a ha => ?_⟩
    rw [nextDepth_accepted ha]
    exact ⟨fun hfew => if_neg (Nat.not_le.mpr hfew), fun hmany => if_pos hmany⟩

end
end

section
/-! PROOFS. Device memory keeps its canonical form at every step: the laws of the single commands gathered into one of `exec`, and the two statements that follow (R228, R237, R486). -/

namespace Sys2Proof.Machine

theorem KeepsMem.safe {r : Res State} {s : State} (h : KeepsMem r s) (hm : Mem.wf s.mem = true) : SafeMem r := by
  obtain ⟨t, rfl, ht⟩ := h
  exact ⟨t, rfl, ht ▸ hm⟩

/-- No command takes memory out of canonical form: one that does not reach memory leaves it as it was, and each of the others has its own law. -/
theorem exec_memWf (c : Instr) (s : State) (hm : Mem.wf s.mem = true) : SafeMem (exec c s) :=
  match c with
  | .packetArrival port bytes => (execPacketArrival_mem port bytes s).safe hm
  | .uapraFrame port f => (execUapraFrame_mem port f s).safe hm
  | .uapraFrameRetry port => (execUapraFrameRetry_mem port s).safe hm
  | .uapraRetrain port up => (execUapraRetrain_mem port up s).safe hm
  | .nop h => (execNop_mem h s).safe hm
  | .ptnCreate h cgMask qEnable keyLabel => execPtnCreate_memWf h cgMask qEnable keyLabel s hm
  | .ptnDestroy h => (execPtnDestroy_mem h s).safe hm
  | .cgAlloc h cgMask => execCgAlloc_memWf h cgMask s hm
  | .cgRelease h cgMask => (execCgRelease_mem h cgMask s).safe hm
  | .cgReleaseEffect p cg => (execCgReleaseEffect_mem p cg s).safe hm
  | .ptnReset h => (execPtnReset_mem h s).safe hm
  | .regRead h addrs => (execRegRead_mem h addrs s).safe hm
  | .regWrite h writes => execRegWrite_memWf h writes s hm
  | .acctRead h first count => (execAcctRead_mem h first count s).safe hm
  | .acctClear h all tag => (execAcctClear_mem h all tag s).safe hm
  | .attestQuote h nonce chain => (execAttestQuote_mem h nonce chain s).safe hm
  | .keyExchange h mode slot srcSlot data => (execKeyExchange_mem h mode slot srcSlot data s).safe hm
  | .looseGrant h slice => execLooseGrant_memWf h slice s hm
  | .looseRelease h slice => (execLooseRelease_mem h slice s).safe hm
  | .memGrant h w count named keep granules => execMemGrant_memWf h w count named keep granules s hm
  | .memRelease h w count => (execMemRelease_mem h w count s).safe hm
  | .sharedMap h w => (execSharedMap_mem h w s).safe hm
  | .sharedUnmap h => (execSharedUnmap_mem h s).safe hm
  | .sharedLoad h ep bytes data => execSharedLoad_memWf h ep bytes data s hm
  | .sharedSeal h => (execSharedSeal_mem h s).safe hm
  | .sharedClear h => execSharedClear_memWf h s hm
  | .dataIn h ep addr bytes => (execDataIn_mem h ep addr bytes s).safe hm
  | .dataOut h ep addr bytes => (execDataOut_mem h ep addr bytes s).safe hm
  | .modelLoad h addr bytes flags kvPoolGib => execModelLoad_memWf h addr bytes flags kvPoolGib s hm
  | .modelUnload h handle => (execModelUnload_mem h handle s).safe hm
  | .variantLoad h model tag addr bytes => execVariantLoad_memWf h model tag addr bytes s hm
  | .variantUnload h model tag => (execVariantUnload_mem h model tag s).safe hm
  | .tableOp h reqs => (execTableOp_mem h reqs s).safe hm
  | .distillStep h b x => execDistillStep_memWf h b x s hm
  | .fwdMb h x => execFwdMb_memWf h x s hm
  | .bwdMb h x => execBwdMb_memWf h x s hm
  | .mbRelease h ids => execMbRelease_memWf h ids s hm
  | .update h model set adamw group opt => (execUpdate_mem h model set adamw group opt s).safe hm
  | .eval h b x => execEval_memWf h b x s hm
  | .genSubmit h program entry reqs => execGenSubmit_memWf h program entry reqs s hm
  | .genCancel h seq item => (execGenCancel_mem h seq item s).safe hm
  | .budgetSet h recs => (execBudgetSet_mem h recs s).safe hm
  | .budgetRead h first count => (execBudgetRead_mem h first count s).safe hm
  | .groupSet h g => execGroupSet_memWf h g s hm
  | .groupLeave h group => execGroupLeave_memWf h group s hm
  | .routeSet h portMask first count value => (execRouteSet_mem h portMask first count value s).safe hm
  | .reduce h group outB16 elems src dst => execReduce_memWf h group outB16 elems src dst s hm
  | .ckptSave h store toStore toPartner timeoutMs => (execCkptSave_mem h store toStore toPartner timeoutMs s).safe hm
  | .ckptRestore h source num => (execCkptRestore_mem h source num s).safe hm
  | .partnerSet h role override peer addr bytes => (execPartnerSet_mem h role override peer addr bytes s).safe hm
  | .negativeShip h model set dest => execNegativeShip_memWf h model set dest s hm
  | .progLoad h addr bytes => execProgLoad_memWf h addr bytes s hm
  | .progUnload h handle => (execProgUnload_mem h handle s).safe hm
  | .progRun h x => (execProgRun_mem h x s).safe hm
  | .pwrState h target scope cgMask => (execPwrState_mem h target scope cgMask s).safe hm
  | .telemetryRead h => (execTelemetryRead_mem h s).safe hm
  | .pwrLimit h limitW => (execPwrLimit_mem h limitW s).safe hm
  | .stripNow h cgMask revive cores engines => (execStripNow_mem h cgMask revive cores engines s).safe hm
  | .faultLogRead h firstMen count => (execFaultLogRead_mem h firstMen count s).safe hm
  | .faultLogClear h upToMen => (execFaultLogClear_mem h upToMen s).safe hm
  | .safelightUnlock h mode t => (execSafelightUnlock_mem h mode t s).safe hm
  | .echo h bytes => (execEcho_mem h bytes s).safe hm
  | .ptnNumModeWrite h p v => execPtnNumModeWrite_memWf h p v s hm
  | .ptnStashCfgWrite h p v => execPtnStashCfgWrite_memWf h p v s hm
  | .ptnSpillBaseWrite h p v => execPtnSpillBaseWrite_memWf h p v s hm
  | .ptnQCfgWrite h p q v => execPtnQCfgWrite_memWf h p q v s hm
  | .ptnSchedCfgWrite h p v => execPtnSchedCfgWrite_memWf h p v s hm
  | .ptnServeCfgWrite h p v => execPtnServeCfgWrite_memWf h p v s hm
  | .ptnReplyCfgWrite h p v => execPtnReplyCfgWrite_memWf h p v s hm
  | .ptnMemSlotsWrite h p v => execPtnMemSlotsWrite_memWf h p v s hm
  | .ptnSemCountWrite h p sem v => execPtnSemCountWrite_memWf h p sem v s hm
  | .ptnViolInfoClear h p v => execPtnViolInfoClear_memWf h p v s hm
  | .modMemCfgWrite h v => execModMemCfgWrite_memWf h v s hm
  | .modSharedLabelWrite h v => execModSharedLabelWrite_memWf h v s hm
  | .modFabricWrite h v => execModFabricWrite_memWf h v s hm
  | .qlnkEnable h qp v => execQlnkEnable_memWf h qp v s hm
  | .qlnkResWrite h qp p v => execQlnkResWrite_memWf h qp p v s hm
  | .qoreaLinkReset h qp v => execQoreaLinkReset_memWf h qp v s hm
  | .uapraLinkReset h up v => execUapraLinkReset_memWf h up v s hm
  | .pwrCfgWrite h v => execPwrCfgWrite_memWf h v s hm
  | .safStatusClear h v newFault newAlert => execSafStatusClear_memWf h v newFault newAlert s hm
  | .registerWrite h addr v => execRegisterWrite_memWf h addr v s hm
  | .nopInstruction t w => (execNopInstruction_mem t w s).safe hm
  | .mov t w => (execMov_mem t w s).safe hm
  | .add t w => (execAdd_mem t w s).safe hm
  | .sub t w => (execSub_mem t w s).safe hm
  | .mul t w => (execMul_mem t w s).safe hm
  | .and t w => (execAnd_mem t w s).safe hm
  | .or t w => (execOr_mem t w s).safe hm
  | .xor t w => (execXor_mem t w s).safe hm
  | .shl t w => (execShl_mem t w s).safe hm
  | .shr t w => (execShr_mem t w s).safe hm
  | .sra t w => (execSra_mem t w s).safe hm
  | .imin t w => (execImin_mem t w s).safe hm
  | .imax t w => (execImax_mem t w s).safe hm
  | .scl t w => (execScl_mem t w s).safe hm
  | .fadd t w => (execFadd_mem t w s).safe hm
  | .fsub t w => (execFsub_mem t w s).safe hm
  | .fmul t w => (execFmul_mem t w s).safe hm
  | .ffma t w => (execFfma_mem t w s).safe hm
  | .fdiv t w => (execFdiv_mem t w s).safe hm
  | .fsqrt t w => (execFsqrt_mem t w s).safe hm
  | .fmax t w => (execFmax_mem t w s).safe hm
  | .fmin t w => (execFmin_mem t w s).safe hm
  | .fabs t w => (execFabs_mem t w s).safe hm
  | .fneg t w => (execFneg_mem t w s).safe hm
  | .exp2 t w => (execExp2_mem t w s).safe hm
  | .log2 t w => (execLog2_mem t w s).safe hm
  | .ceq t w => (execCeq_mem t w s).safe hm
  | .cne t w => (execCne_mem t w s).safe hm
  | .clt t w => (execClt_mem t w s).safe hm
  | .cle t w => (execCle_mem t w s).safe hm
  | .cun t w => (execCun_mem t w s).safe hm
  | .cgt t w => (execCgt_mem t w s).safe hm
  | .cge t w => (execCge_mem t w s).safe hm
  | .sel t w => (execSel_mem t w s).safe hm
  | .kand t w => (execKand_mem t w s).safe hm
  | .kor t w => (execKor_mem t w s).safe hm
  | .knot t w => (execKnot_mem t w s).safe hm
  | .cvt t w => (execCvt_mem t w s).safe hm
  | .ld t w => execLd_memWf t w s hm
  | .st t w => execSt_memWf t w s hm
  | .prom t w => (execProm_mem t w s).safe hm
  | .scvt t w => execScvt_memWf t w s hm
  | .sred t w => execSred_memWf t w s hm
  | .smove t w => execSmove_memWf t w s hm
  | .atx t w => execAtx_memWf t w s hm
  | .tereq t w => (execTereq_mem t w s).safe hm
  | .tewait t w => (execTewait_mem t w s).safe hm
  | .br t w => (execBr_mem t w s).safe hm
  | .bar t w => (execBar_mem t w s).safe hm
  | .swait t w => (execSwait_mem t w s).safe hm
  | .spost t w => (execSpost_mem t w s).safe hm
  | .sumry t w => (execSumry_mem t w s).safe hm
  | .endThread t w => (execEndThread_mem t w s).safe hm
  | .loadReturn t k => (execLoadReturn_mem t k s).safe hm
  | .streamDone t => (execStreamDone_mem t s).safe hm
  | .barRelease launch mc => (execBarRelease_mem launch mc s).safe hm
  | .semaphoreAcquire p sem => (execSemaphoreAcquire_mem p sem s).safe hm
  | .gather te k => execGather_memWf te k s hm
  | .pool te k => execPool_memWf te k s hm
  | .scatterAdd te k => execScatterAdd_memWf te k s hm
  | .topk te k => execTopk_memWf te k s hm
  | .lse te k => execLse_memWf te k s hm
  | .teRequestComplete te k => (execTeRequestComplete_mem te k s).safe hm
  | .plan p q a wait => (execPlan_mem p q a wait s).safe hm
  | .launch p q a wait => (execLaunch_mem p q a wait s).safe hm
  | .wait p q a isPlan => (execWait_mem p q a isPlan s).safe hm
  | .cmp p q c => (execCmp_mem p q c s).safe hm
  | .brt p q a => (execBrt_mem p q a s).safe hm
  | .jmp p q a => (execJmp_mem p q a s).safe hm
  | .copy p q a b slotA slotB => (execCopy_mem p q a b slotA slotB s).safe hm
  | .setc p q c imm => (execSetc_mem p q c imm s).safe hm
  | .decb p q c b => (execDecb_mem p q c b s).safe hm
  | .endItem p q b code => (execEndItem_mem p q b code s).safe hm
  | .programEnd p q => execProgramEnd_memWf p q s hm
  | .launchComplete launch => (execLaunchComplete_mem launch s).safe hm
  | .run p q item mc d sd w => execRun_memWf p q item mc d sd w s hm
  | .runRelease mc => (execRunRelease_mem mc s).safe hm
  | .split p q d => (execSplit_mem p q d s).safe hm
  | .splitHandoff p q part level => (execSplitHandoff_mem p q part level s).safe hm
  | .waitSem p q mc sem => (execWaitSem_mem p q mc sem s).safe hm
  | .postSem p q mc sem => (execPostSem_mem p q mc sem s).safe hm
  | .sliceEnd p q ns => (execSliceEnd_mem p q ns s).safe hm
  | .stopBathHandover p q ns => (execStopBathHandover_mem p q ns s).safe hm
  | .restoreComplete p q ns switchUs => (execRestoreComplete_mem p q ns switchUs s).safe hm
  | .stashFill p mb => execStashFill_memWf p mb s hm
  | .updateBufferAcquire p model set => execUpdateBufferAcquire_memWf p model set s hm
  | .contactFinalise p q block => execContactFinalise_memWf p q block s hm
  | .genStep p model => (execGenStep_mem p model s).safe hm
  | .stepCommit p model failed nowUs => execStepCommit_memWf p model failed nowUs s hm
  | .chunkComplete p stream failed nowUs => execChunkComplete_memWf p stream failed nowUs s hm
  | .budgetRefill p tag => (execBudgetRefill_mem p tag s).safe hm
  | .stripDue mc => (execStripDue_mem mc s).safe hm
  | .stripStart mc => (execStripStart_mem mc s).safe hm
  | .stripEnd mc r stamp => (execStripEnd_mem mc r stamp s).safe hm
  | .teStripEnd te r stamp => (execTeStripEnd_mem te r stamp s).safe hm
  | .heartbeatMissed isTe unit stamp => (execHeartbeatMissed_mem isTe unit stamp s).safe hm
  | .psLockstepMismatch p stamp within1s => (execPsLockstepMismatch_mem p stamp within1s s).safe hm
  | .stewardLockstepMismatch stamp within1s => execStewardLockstepMismatch_memWf stamp within1s s hm
  | .stewardRestartComplete => (execStewardRestartComplete_mem s).safe hm
  | .descCrcMismatch p q item isTe unit stamp => (execDescCrcMismatch_mem p q item isTe unit stamp s).safe hm
  | .windowMismatch p q item stamp => (execWindowMismatch_mem p q item stamp s).safe hm
  | .dieLinkDown a b stamp => (execDieLinkDown_mem a b stamp s).safe hm
  | .patrolScrub addr double single passDone stamp => execPatrolScrub_memWf addr double single passDone stamp s hm
  | .slotWheelBoundary => (execSlotWheelBoundary_mem s).safe hm
  | .flitReceive qp f => execFlitReceive_memWf qp f s hm
  | .nak qp fseq stamp => execNak_memWf qp fseq stamp s hm
  | .qoreaSilentTimeout qp stamp => execQoreaSilentTimeout_memWf qp stamp s hm
  | .trainingStepTimeout qp lanes => (execTrainingStepTimeout_mem qp lanes s).safe hm
  | .data qp h bytes => execData_memWf qp h bytes s hm
  | .read qp h len => execRead_memWf qp h len s hm
  | .ack qp p cls pktNum => (execAck_mem qp p cls pktNum s).safe hm
  | .join qp h g roundTotal => execJoin_memWf qp h g roundTotal s hm
  | .exp qp h g bucket e nonfinite => (execExp_mem qp h g bucket e nonfinite s).safe hm
  | .scale qp h g bucket f mark => (execScale_mem qp h g bucket f mark s).safe hm
  | .grad qp h g bucket vals => (execGrad_mem qp h g bucket vals s).safe hm
  | .bucketClose p group bucket => execBucketClose_memWf p group bucket s hm
  | .param qp h g bucket vals => execParam_memWf qp h g bucket vals s hm
  | .absent qp h g => execAbsent_memWf qp h g s hm
  | .abort qp h g => execAbort_memWf qp h g s hm
  | .groupTimeout p group => execGroupTimeout_memWf p group s hm
  | .ckData qp h bytes => execCkData_memWf qp h bytes s hm
  | .ckEnd qp h num total digest => execCkEnd_memWf qp h num total digest s hm
  | .ckAck qp h num status digest => (execCkAck_mem qp h num status digest s).safe hm
  | .ckRead qp h num offset len => execCkRead_memWf qp h num offset len s hm
  | .ckRdata qp h bytes => execCkRdata_memWf qp h bytes s hm
  | .hello qp h feed size => (execHello_mem qp h feed size s).safe hm
  | .helloAck qp h feed status half => (execHelloAck_mem qp h feed status half s).safe hm
  | .helloTimeout p => (execHelloTimeout_mem p s).safe hm
  | .negData qp h bytes => execNegData_memWf qp h bytes s hm
  | .negEnd qp h total sha => execNegEnd_memWf qp h total sha s hm
  | .negAck qp h status => (execNegAck_mem qp h status s).safe hm
  | .copyTimeout p partner => (execCopyTimeout_mem p partner s).safe hm
  | .restoreSourceTimeout p => (execRestoreSourceTimeout_mem p s).safe hm
  | .cgL1Entry cg => (execCgL1Entry_mem cg s).safe hm
  | .moduleL1Entry => (execModuleL1Entry_mem s).safe hm
  | .moduleL2Entry => (execModuleL2Entry_mem s).safe hm
  | .moduleL3Entry => (execModuleL3Entry_mem s).safe hm
  | .avsRetry bus stamp => (execAvsRetry_mem bus stamp s).safe hm
  | .wakeBurst port => (execWakeBurst_mem port s).safe hm
  | .wakeNInput => (execWakeNInput_mem s).safe hm
  | .dutyControl r stamp => (execDutyControl_mem r stamp s).safe hm
  | .tempSample r stamp => execTempSample_memWf r stamp s hm
  | .inputLow stamp => (execInputLow_mem stamp s).safe hm
  | .undervoltageLockout => execUndervoltageLockout_memWf s hm
  | .railFault rail stamp => execRailFault_memWf rail stamp s hm
  | .refLost stamp => execRefLost_memWf stamp s hm
  | .pllUnlock stamp => execPllUnlock_memWf stamp s hm
  | .pwrgdInRise => (execPwrgdInRise_mem s).safe hm
  | .pwrgdInFall => execPwrgdInFall_memWf s hm
  | .modRstNFall => execModRstNFall_memWf s hm
  | .modRstNRise => (execModRstNRise_mem s).safe hm
  | .moduleWarmReset cause => execModuleWarmReset_memWf cause s hm
  | .coldReset cause => execColdReset_memWf cause s hm
  | .safelightChallengeExpiry => (execSafelightChallengeExpiry_mem s).safe hm
  | .safelightExpiry => (execSafelightExpiry_mem s).safe hm
  | .drbgReseed => (execDrbgReseed_mem s).safe hm
  | .i3cRegRead addr => (execI3cRegRead_mem addr s).safe hm
  | .i3cRegWrite addr v => execI3cRegWrite_memWf addr v s hm
  | .flashRead off len => (execFlashRead_mem off len s).safe hm
  | .flashWrite off bytes => (execFlashWrite_mem off bytes s).safe hm
  | .flashErase off => (execFlashErase_mem off s).safe hm
  | .i3cStatus => (execI3cStatus_mem s).safe hm
  | .bypass => (execBypass_mem s).safe hm
  | .idcode => (execIdcode_mem s).safe hm
  | .samplePreload => (execSamplePreload_mem s).safe hm
  | .extest => (execExtest_mem s).safe hm
  | .partitionResetComplete p => (execPartitionResetComplete_mem p s).safe hm
  | .linkTrained qp peerNode => (execLinkTrained_mem qp peerNode s).safe hm
  | .refRestored => (execRefRestored_mem s).safe hm
  | .inputRestored => (execInputRestored_mem s).safe hm
  | .standbyInputLoss => execStandbyInputLoss_memWf s hm
  | .standbyInputReturn => (execStandbyInputReturn_mem s).safe hm
  | .stashFillComplete p mb => execStashFillComplete_memWf p mb s hm
  | .regulatorTransitionComplete bus readbackOk last => execRegulatorTransitionComplete_memWf bus readbackOk last s hm
  | .flashOperationComplete => (execFlashOperationComplete_mem s).safe hm
  | .safelightDebugAccess scopeBit p mc addr write => execSafelightDebugAccess_memWf scopeBit p mc addr write s hm
  | .setdasa addr => (execSetdasa_mem addr s).safe hm
  | .entdaa addr => (execEntdaa_mem addr s).safe hm

/-- A step changes memory only by the command it serves. -/
theorem step_memWf {s t : State} (hm : Mem.wf s.mem = true) (h : step s = .next t) : Mem.wf t.mem = true := by
  unfold step at h
  split at h
  case h_1 => cases h; exact hm
  case h_2 c rest _ => exact (memWf_next t).mp (h ▸ exec_memWf c { s with pending := rest } hm)

end Sys2Proof.Machine

/-! ## The statements -/

section
open Sys2Proof Sys2Proof.Machine

/-- Settles O5: an empty queue idles, and the command at the front of another keeps the form. -/
theorem everyStepKeepsMemoryCanonical : Obligations.EveryStepKeepsMemoryCanonical := fun _ _ => step_memWf

/-- Settles O4: reset memory lists nothing, and every table of an empty memory is empty. -/
theorem resetMemoryCanonical : Obligations.ResetMemoryCanonical := ⟨by decide, rfl⟩

end
end

section
/-! PROOFS. The steward's commands for partitions and their core groups: what each does once it starts and its checks pass, and the statement that follows (R236, R252, R278 to R282). -/

namespace Sys2Proof.Machine

section PartitionCommands
variable {s u : State} {h : Hdr} {mask : W32}

/-! ## PTN_CREATE and CG_ALLOC (R278 to R280) -/

/-- The key label of a partition that is created, and the state that has drawn it: a label of zero is drawn (R252). -/
def State.labelled (u : State) (label : W64) : State × W64 :=
  if label = 0 then (u.draw.1, BitVec.ofNat 64 (leNat (u.draw.2.take 8))) else (u, label)

theorem ptnCreate_creates {q : Byte} {label : W64} (hu : s.runsNow h 0x101 = some u) (hfree : (u.ptn h.target).st = 0)
    (hpair : bitAt u.saf.psRetired.toNat h.target = false) (hmask : mask ≠ 0) (hq : q ≠ 0)
    (hcheck : u.cgCheck h.target mask (popcount q.toNat 8) = none) :
    exec (.ptnCreate h mask q label) s = .next ((((u.labelled label).1.takeMen.updPtn h.target fun _ =>
      Ptn.fresh q (u.labelled label).2 u.saf.nextMen).addCgs h.target mask true).replied h [doneItem] []) := by
  refine congrArg _ (atOnce_replied hu ?_)
  simp only [hfree, hpair, hmask, hq, hcheck, State.labelled, ne_eq, not_true_eq_false, decide_false, Bool.or_self, Bool.false_eq_true, if_false]
  split <;> rfl

theorem cgAlloc_allocates (hu : s.runsNow h 0x103 = some u) (hactive : (u.ptn h.target).st = 1) (hmask : mask ≠ 0)
    (hcheck : u.cgCheck h.target mask (popcount (u.ptn h.target).qEnable.toNat 8) = none) :
    exec (.cgAlloc h mask) s = .next (((u.takeMen.addCgs h.target mask false).updPtn h.target (·.schedule)).replied h [doneItem] []) := by
  refine congrArg _ (atOnce_replied hu ?_)
  simp only [hactive, hmask, hcheck, show (1 : BitVec 2) ≠ 0 by decide, show (1 : BitVec 2) ≠ 2 by decide, decide_false, Bool.or_self, Bool.false_eq_true,
    if_false]

/-! ## CG_RELEASE and its effect (R281) -/

theorem cgRelease_marks (hu : s.runsNow h 0x104 = some u) (hactive : (u.ptn h.target).st = 1) (hmask : mask ≠ 0)
    (hheld : mask &&& ~~~((u.ptn h.target).cgs &&& ~~~(u.ptn h.target).releasing) = 0)
    (hstays : mask ≠ (u.ptn h.target).cgs &&& ~~~(u.ptn h.target).releasing)
    (hareas : ∀ k ∈ (u.ptn h.target).areaSlices, bitAt mask.toNat (k / 8) = false)
    (herg : (u.ptn h.target).ergUsed - popcount mask.toNat 32 * 8 * popcount (u.ptn h.target).qEnable.toNat 8 * (384 * 1024) ≤
      (u.ptn h.target).ergHeld - popcount mask.toNat 32 * 8 * sliceBytes) :
    exec (.cgRelease h mask) s =
      .next ((u.takeMen.updPtn h.target fun x => { x with releasing := x.releasing ||| mask }).replied h [doneItem] []) := by
  have hnoArea : ((u.ptn h.target).areaSlices.any fun k => bitAt mask.toNat (k / 8)) = false :=
    List.any_eq_false.mpr fun k hk => Bool.eq_false_iff.mp (hareas k hk)
  refine congrArg _ (atOnce_replied hu ?_)
  simp only [hactive, hmask, hheld, hstays, hnoArea, gt_iff_lt, Nat.not_lt.mpr herg, ne_eq, not_true_eq_false, decide_false, Bool.or_self,
    Bool.false_eq_true, if_false]

theorem cgReleaseEffect_quiet {r : PtnId} {cg : CgId} (hleaving : bitAt (s.ptn r).releasing.toNat cg = true) (hquiet : (s.ptn r).cgQuiet cg = true) :
    let one : BitVec 32 := BitVec.ofNat 32 (2 ^ cg.val)
    let z := s.updPtn r fun x => { x with
      cgs := x.cgs &&& ~~~one, releasing := x.releasing &&& ~~~one
      jobs := x.jobs.mapVals {} fun j => { j with kept := j.kept &&& ~~~one }
      holders := x.holders.map fun h => { h with reserved := h.reserved &&& ~~~one }
      mem := { x.mem with
        dataSlots := BitVec.ofNat 8 (x.mem.dataSlots.toNat - 7)
        fixSlots := BitVec.ofNat 8 (min x.mem.fixSlots.toNat (x.mem.dataSlots.toNat - 7)) } }
    exec (.cgReleaseEffect r cg) s =
      .next ((State.reserve { z.updPtn r (fun x => (x.trim 0).schedule) with pwr := s.pwr.setCg cg 2 } r true 1).reshare) := by
  refine if_neg ?_
  simp only [hleaving, hquiet, Bool.not_true, Bool.or_self, Bool.false_eq_true, not_false_eq_true]

/-! ## PTN_DESTROY (R282) -/

theorem ptnDestroy_clears (hu : s.runsNow h 0x102 = some u) (hactive : (u.ptn h.target).st = 1) (hanswered : (u.ptn h.target).flow.cmds = []) :
    let v : State := { u.takeMen with
      pwr := u.pwr.setCgs (u.ptn h.target).cgs 2, sec := { u.sec with unlock := u.sec.unlock.map fun k => Unlock.drop k h.target } }
    exec (.ptnDestroy h) s =
      .next ((((v.reserve h.target true (u.ptn h.target).cgCount).updPtn h.target fun _ => {}).reshare).replied h [doneItem] []) := by
  refine congrArg _ (atOnce_replied hu ?_)
  simp [hactive, hanswered]

end PartitionCommands

end Sys2Proof.Machine

/-! ## The statement -/

section
open Sys2Proof Sys2Proof.Machine

/-- Settles O23: each clause is the outcome of a command that starts and passes its checks; a label of zero is drawn. -/
theorem partitionCommands : Obligations.PartitionCommands := by
  intro s u h p
  refine ⟨fun mask q label hu hfree hpair hmask hq hcheck => ?_, fun mask => cgAlloc_allocates, fun mask => cgRelease_marks,
    fun r cg => cgReleaseEffect_quiet, ptnDestroy_clears⟩
  rw [ptnCreate_creates hu hfree hpair hmask hq hcheck, State.labelled]
  exact ⟨fun hlabel => by rw [if_neg hlabel], fun hlabel => by rw [if_pos hlabel]⟩

end
end

section
/-! PROOFS. Loose slices, granules, the shared region and the slot wheel: what each memory command does once it starts and its checks pass, and the two statements that follow (R235 to R245, R255, R510). -/

namespace Sys2Proof.Machine

/-- An ACTIVE partition takes memory commands. -/
theorem State.live_active {u : State} {p : PtnId} (h : (u.ptn p).st = 1) : u.live p = none := by simp [State.live, h]

/-- The windows of a range are all free. -/
theorem windows_free {t : Tab Win} {w n : Nat} (h : ∀ i, i < n → (t.get {} (w + i)).valid = false) :
    ((List.range n).any fun i => (t.get {} (w + i)).valid) = false := by
  simpa using h

/-! ## Loose slices (R235, R236, R239) -/

section LooseSlices
variable {s u : State} {h : Hdr} {n : W16}

theorem looseGrant_grants (hu : s.runsNow h 0x201 = some u) (hactive : (u.ptn h.target).st = 1) (hn : n.toNat ≤ 255)
    (hcg : u.cgOwner (n.toNat / 8) = none) (hloose : u.looseOwner n.toNat = none) :
    let me : Option (PtnId × W64) := some (h.target, (u.ptn h.target).flow.createMen)
    let z := if u.mem.lastHolder.get none n.toNat = me then u else u.updMem (·.zeroSlice n.toNat)
    exec (.looseGrant h n) s = .next (((z.updMem fun m => { m with lastHolder := m.lastHolder.put none n.toNat me }).updPMem h.target
      fun m => { m with loose := m.loose ||| BitVec.ofNat 256 (2 ^ n.toNat) }).replied h [doneItem] []) := by
  refine congrArg _ (atOnce_replied hu ?_)
  simp only [State.live_active hactive, gt_iff_lt, Nat.not_lt.mpr hn, hcg, hloose, Option.isSome_none, Bool.or_self, Bool.false_eq_true, if_false]

theorem looseRelease_releases (hu : s.runsNow h 0x202 = some u) (hactive : (u.ptn h.target).st = 1) (hn : n.toNat ≤ 255)
    (hheld : bitAt (u.ptn h.target).mem.loose.toNat n.toNat = true) (hareas : n.toNat ∉ (u.ptn h.target).areaSlices)
    (herg : (u.ptn h.target).ergUsed ≤ (u.ptn h.target).ergHeld - sliceBytes) :
    exec (.looseRelease h n) s = .next (((u.updPMem h.target fun m => { m with loose := m.loose &&& ~~~BitVec.ofNat 256 (2 ^ n.toNat) }).updPtn
      h.target (·.trim 0)).replied h [doneItem] []) := by
  refine congrArg _ (atOnce_replied hu ?_)
  simp only [State.live_active hactive, gt_iff_lt, Nat.not_lt.mpr hn, hheld, hareas, Nat.not_lt.mpr herg, decide_false, Bool.not_true, Bool.or_self,
    Bool.false_eq_true, if_false]

end LooseSlices

/-! ## Granules (R237 to R239, R510) -/

/-- The free granules, the lowest first (R237). -/
def State.freeGranules (u : State) : List Nat := (List.range 1120).filter fun g => !decide (g ∈ u.usedGranules)

section Granules
variable {s u : State} {h : Hdr} {w n : W16}

section Grant
variable {keep : Bool} {gr : List W16} (hu : s.runsNow h 0x203 = some u) (hactive : (u.ptn h.target).st = 1) (hn : n ≠ 0) (hmax : n.toNat ≤ 1120)
  (hfit : w.toNat + n.toNat ≤ 2048) (hwins : ∀ i, i < n.toNat → ((u.ptn h.target).mem.wins.get {} (w.toNat + i)).valid = false)
  (hslots : keep = true ∨ (u.ptn h.target).mem.dataSlots ≠ 0)
include hslots

/-- A grant needs a slot where it zeroes the granules. -/
theorem grant_served : (!keep && decide ((u.ptn h.target).mem.dataSlots = 0)) = false := by
  rcases hslots with hk | hs
  · rw [hk]; rfl
  · rw [decide_eq_false hs, Bool.and_false]

include hu hactive hn hmax hfit hwins

theorem memGrant_named (hlen : gr.length = n.toNat) (honce : gr.eraseDups.length = n.toNat)
    (hfree : ∀ g ∈ gr, g.toNat < 1120 ∧ g.toNat ∉ u.usedGranules) :
    exec (.memGrant h w n true keep gr) s = .next ((u.grantMem h.target w.toNat (gr.map (·.toNat)) keep).replied h [doneItem] []) := by
  have hdevice : (gr.any fun g => decide (1120 ≤ g.toNat)) = false :=
    List.any_eq_false.mpr fun g hg => by simpa using (hfree g hg).1
  have hunused : (gr.any fun g => decide (g.toNat ∈ u.usedGranules)) = false :=
    List.any_eq_false.mpr fun g hg => by simpa using (hfree g hg).2
  have hn0 : ¬n.toNat = 0 := BitVec.toNat_ne.mp hn
  refine congrArg _ (atOnce_replied hu ?_)
  simp only [State.live_active hactive, hn0, gt_iff_lt, ge_iff_le, Nat.not_lt.mpr hmax, Nat.not_lt.mpr hfit, hlen, honce, hdevice, hunused,
    windows_free hwins, grant_served hslots, List.length_map, Nat.lt_irrefl, ne_eq, not_true_eq_false, decide_false, Bool.not_true, Bool.and_false,
    Bool.or_self, Bool.false_eq_true, if_false, if_true]

/-- Granules that are not named are the lowest free ones; KEEP names its granules. -/
theorem memGrant_lowest (hkeep : keep = false) (hroom : n.toNat ≤ u.freeGranules.length) :
    exec (.memGrant h w n false keep gr) s = .next ((u.grantMem h.target w.toNat (u.freeGranules.take n.toNat) keep).replied h [doneItem] []) := by
  have htaken : (u.freeGranules.take n.toNat).length = n.toNat := List.length_take_of_le hroom
  have hserved := grant_served hslots
  rw [State.freeGranules] at htaken ⊢
  subst hkeep
  have hn0 : ¬n.toNat = 0 := BitVec.toNat_ne.mp hn
  refine congrArg _ (atOnce_replied hu ?_)
  simp only [State.live_active hactive, hn0, gt_iff_lt, Nat.not_lt.mpr hmax, Nat.not_lt.mpr hfit, htaken, windows_free hwins, hserved,
    Nat.lt_irrefl, decide_false, Bool.false_and, Bool.or_self, Bool.false_eq_true, if_false]

end Grant

/-- The windows that a MEM_RELEASE names. -/
def releasedWins (w n : W16) : List Nat := (List.range n.toNat).map (w.toNat + ·)

theorem memRelease_unmaps (hu : s.runsNow h 0x204 = some u) (hactive : (u.ptn h.target).st = 1) (hn : n ≠ 0) (hfit : w.toNat + n.toNat ≤ 2048)
    (hwins : ∀ k ∈ releasedWins w n, (u.ptn h.target).winPrivate k = true ∧ k ∉ (u.ptn h.target).areaGranules) :
    exec (.memRelease h w n) s = .next ((u.updPMem h.target fun m => { m with
      wins := (releasedWins w n).foldl (fun t k => t.put {} k {}) m.wins }).replied h [doneItem] []) := by
  have hprivate : ((releasedWins w n).any fun k => !(u.ptn h.target).winPrivate k) = false :=
    List.any_eq_false.mpr fun k hk => by simpa using (hwins k hk).1
  have hunused : ((releasedWins w n).any fun k => decide (k ∈ (u.ptn h.target).areaGranules)) = false :=
    List.any_eq_false.mpr fun k hk => by simpa using (hwins k hk).2
  rw [releasedWins] at hprivate hunused ⊢
  refine congrArg _ (atOnce_replied hu ?_)
  simp only [State.live_active hactive, hn, gt_iff_lt, Nat.not_lt.mpr hfit, hprivate, hunused, decide_false, Bool.or_self, Bool.false_eq_true, if_false]

end Granules

/-! ## The shared region (R240 to R245) -/

section Shared
variable {s u : State} {h : Hdr}

/-- The region before a load writes: one that is EMPTY is zeroed first. -/
def State.readied (u : State) : State := if u.mod.state = 0 then u.zeroShared else u

/-- The bytes of a load are written after FILL under slot 32. -/
def State.loadShared (u z : State) (n : W64) (data : List Byte) : State :=
  let a := sharedStart z + u.mod.fill.toNat
  z.updMem fun m => (m.ueClear a n.toNat).writeN (sharedKey z) a data

theorem sharedLoad_writes {ep : Endpoint} {n : W64} {data : List Byte} (hu : s.runsNow h 0x207 = some u) (hdata : data.length = n.toNat)
    (hopen : u.mod.state ≠ 2) (hfit : u.mod.fill.toNat + n.toNat ≤ u.mod.gib.toNat * gib) (hroute : u.portsTo ep.node 0 ≠ [])
    (hlinks : u.readied.dieLinks = 0 ∨
      ∀ v ∈ homeDies (sharedStart u.readied + u.mod.fill.toNat) n.toNat, u.readied.linkDown (Who.firmware.die 0) v = false) :
    let v := u.loadShared u.readied n data
    exec (.sharedLoad h ep n data) s = .next
      (State.replied { v with mod := { v.mod with state := 1, fill := BitVec.ofNat 64 (u.mod.fill.toNat + n.toNat) } } h [doneItem] []) := by
  have hpasses : u.loadRefused n.toNat = none := by
    rw [State.loadRefused, if_neg hopen, if_neg (Nat.not_lt.mpr hfit)]
  have hreach : (decide (u.readied.dieLinks ≠ 0) && (homeDies (sharedStart u.readied + u.mod.fill.toNat) n.toNat).any fun v =>
      u.readied.linkDown (Who.firmware.die 0) v) = false := by
    rcases hlinks with h0 | hup
    · rw [h0]; rfl
    · rw [List.any_eq_false.mpr fun v hv => Bool.eq_false_iff.mp (hup v hv), Bool.and_false]
  have hcame : ¬((s.loadRefused n.toNat).isNone && decide (s.portsTo ep.node 0 ≠ []) && decide (data.length ≠ n.toNat)) = true := by
    simp [hdata]
  rw [State.readied] at hreach
  refine (if_neg hcame).trans (congrArg _ (atOnce_replied hu ?_))
  simp only [hpasses, hroute, hreach, Bool.false_eq_true, if_false]
  rfl

theorem sharedSeal_seals (hu : s.runsNow h 0x208 = some u) (hloading : u.mod.state = 1) :
    exec (.sharedSeal h) s = .next (State.replied { u with mod := { u.mod with state := 2, hash := u.measure } } h [doneItem] u.measure) :=
  congrArg _ (atOnce_replied hu (if_neg (not_not.mpr hloading)))

theorem sharedMap_maps {w : W16} (hu : s.runsNow h 0x205 = some u) (hactive : (u.ptn h.target).st = 1) (hfit : w.toNat + u.mod.gib.toNat ≤ 2048)
    (hsealed : u.mod.state = 2) (hwins : ∀ i, i < u.mod.gib.toNat → ((u.ptn h.target).mem.wins.get {} (w.toNat + i)).valid = false) :
    exec (.sharedMap h w) s = .next (((u.updPMem h.target fun m => { m with
      wins := mapWins true true w.toNat ((List.range u.mod.gib.toNat).map (u.mod.base.toNat + ·)) m.wins }).reshare).replied h [doneItem] []) := by
  refine congrArg _ (atOnce_replied hu ?_)
  simp only [State.live_active hactive, gt_iff_lt, Nat.not_lt.mpr hfit, hsealed, windows_free hwins, ne_eq, not_true_eq_false, Bool.false_eq_true, if_false]

theorem sharedUnmap_unmaps (hu : s.runsNow h 0x206 = some u) (hactive : (u.ptn h.target).st = 1) (hsealed : u.mod.state = 2)
    (hmapped : (u.ptn h.target).sharedMapped = true) :
    exec (.sharedUnmap h) s =
      .next (((u.updPMem h.target fun m => { m with wins := m.wins.filter fun e => !e.2.shared }).reshare).replied h [doneItem] []) := by
  refine congrArg _ (atOnce_replied hu ?_)
  simp only [State.live_active hactive, hsealed, hmapped, ne_eq, not_true_eq_false, Bool.not_true, Bool.false_eq_true, if_false]

theorem sharedClear_clears (hu : s.runsNow h 0x209 = some u) (hused : u.mod.state ≠ 0) (hunmapped : u.mappers.isEmpty = true) :
    exec (.sharedClear h) s = .next
      (State.replied { u.zeroShared with mod := { u.zeroShared.mod with state := 0, fill := 0, hash := [] } } h [doneItem] []) := by
  refine congrArg _ (atOnce_replied hu ?_)
  simp only [hused, hunmapped, Bool.not_true, Bool.false_eq_true, if_false]

end Shared

end Sys2Proof.Machine

/-! ## The statements -/

section
open Sys2Proof Sys2Proof.Machine

/-- Settles O25: each clause is the outcome of a command that starts and passes its checks; KEEP is never set where the granules are not named. -/
theorem memoryCommands : Obligations.MemoryCommands := by
  intro s u h p x
  refine ⟨fun n => looseGrant_grants, fun n => looseRelease_releases, fun w n named keep gr hu hactive hn hmax hfit hkeep hwins hslots => ⟨?_, ?_⟩,
    fun w n => memRelease_unmaps⟩
  · rintro rfl hlen honce hfree
    exact memGrant_named hu hactive hn hmax hfit hwins hslots hlen honce hfree
  · rintro rfl free hroom
    exact memGrant_lowest hu hactive hn hmax hfit hwins hslots (Bool.eq_false_iff.mpr fun hk => Bool.false_ne_true (hkeep hk)) hroom

/-- Settles O26: each clause is the outcome of a command that starts and passes its checks, and a wheel boundary visits every partition. -/
theorem sharedRegion : Obligations.SharedRegion := by
  refine ⟨?commands, fun s => rfl⟩
  intro s u h x gb
  exact ⟨fun ep n data => sharedLoad_writes, sharedSeal_seals, fun w => sharedMap_maps, sharedUnmap_unmaps, sharedClear_clears⟩

end
end

section
/-! PROOFS. The table engines: TEREQ with its checks passed, a request whose turn has come, what a request that is done leaves as it completes, and the statement that follows (R265 to R268, R270, R271, R273, R274). -/

namespace Sys2Proof.Machine

/-! ## TEREQ (R265, R267) -/

theorem execTereq_submits {s : State} {t : ThreadId} {w : IWord} {l : Launch} {n a : Nat} (hl : s.issues t w 0x44 (fun e => [e.a]) = some l)
    (hp : (s.th t.val).pred (l.word w).pred.toNat = true) (hte : s.teFor (mcOf t) ((l.word w).immN % 2) = some n)
    (ha : a = ((s.th t.val).get (l.word w).a).toNat) (hregion : l.ocOk a 64 false = true)
    (hfew : (s.th t.val).teOut < 64) (hroom : (s.te n).reqs.length < 4096) (hreadable : (s.mc (mcOf t)).bad 1 (a / 8) ((a + 71) / 8 - a / 8) = false)
    (hcheck : (TeReq.parse ((s.mc (mcOf t)).ocRead a 64)).check = none) :
    exec (.tereq t w) s = .next ((s.updTe n fun e => { e with
      reqs := e.reqs ++ [{ req := TeReq.parse ((s.mc (mcOf t)).ocRead a 64), ptn := l.ptn, queue := l.queue, seq := l.seq, thread := some (t.val, l.id) }] }).updTh
        t.val fun x => { x with pc := x.pc + 1, teOut := x.teOut + 1 }) := by
  subst ha
  refine congrArg _ ((issue_run hl).trans ?_)
  simp only [hp, hte, hregion, ge_iff_le, Nat.not_le.mpr hfew, Nat.not_le.mpr hroom, hreadable, hcheck, decide_false, Bool.not_true, Bool.or_self,
    Bool.false_eq_true, if_false]
  rfl

/-! ## Completion (R265, R273, R274) -/

/-- The engine time of a request is charged to a job that has been stopped, in a free amount (log entry 13). -/
def State.teCharge (s : State) (w : TeWork) : State :=
  if (s.job w.ptn w.queue).st = .stopped then
    ({ s with fresh := s.fresh + 1 } : State).updPtn w.ptn fun x => x.chargeMc w.queue (x.runs? w.queue) (Config.free s.fresh 0)
  else s

/-- A request that did not fail posts its semaphore, where it asks for that. -/
def State.tePost (s : State) (w : TeWork) : State :=
  if w.failed.isNone && w.req.post then s.semPost w.ptn w.queue (Fin.ofNat 256 w.req.sem.toNat) else s

/-- What stands once a request has left its engine, before its thread or item learns of it. -/
def State.teLeave (s : State) (te k : Nat) (w : TeWork) : State :=
  ((s.updTe te fun e => { e with reqs := e.reqs.eraseIdx k }).teCharge w).tePost w

/-- A thread of launch l has one request fewer outstanding, and goes on if it waits for no fewer. -/
def Thread.teLess (l : Nat) (x : Thread) : Thread :=
  if x.launch ≠ l then x else { x with
    teOut := x.teOut - 1, wait := match x.wait with | .te m => if x.teOut - 1 ≤ m then .none else x.wait | y => y }

section Completion
variable {s : State} {te : TeId} {k : Nat} {w : TeWork} (hk : (s.te te.val).reqs[k]? = some w) (hdone : w.done = true)
include hk hdone

theorem teRequestComplete_item (hitem : w.thread = none) :
    exec (.teRequestComplete te k) s = .next (((s.teLeave te.val k w).closeItem w.hdr w.item w.failed).settle w.hdr) := by
  simp only [exec, execTeRequestComplete, hk, hdone, hitem, Bool.not_true, Bool.false_eq_true, if_false, State.teLeave, State.tePost]
  cases w.failed <;> rfl

theorem teRequestComplete_thread {t l : Nat} (hthread : w.thread = some (t, l)) (hgood : w.failed = none) :
    exec (.teRequestComplete te k) s = .next ((s.teLeave te.val k w).updThread w t (Thread.teLess l)) := by
  simp only [exec, execTeRequestComplete, hk, hdone, hthread, hgood, Bool.not_true, Bool.false_eq_true, if_false, State.teLeave, State.tePost]
  rfl

end Completion

end Sys2Proof.Machine

/-! ## The statement -/

section
open Sys2Proof Sys2Proof.Machine

/-- Settles O18: TEREQ issues, the turn of a request picks its operation, and a completion is by the one who issued the request. -/
theorem tableEngineRequests : Obligations.TableEngineRequests := by
  refine ⟨?submit, ?carryOut, ?complete⟩
  case submit =>
    intro s t w l n e x a r hl hp hte hregion hfew hroom hreadable hcheck
    exact execTereq_submits hl hp hte rfl hregion hfew hroom hreadable hcheck
  case carryOut =>
    intro s te k w n
    exact ⟨fun h => congrArg _ (teTurn_run h), fun h => congrArg _ (teTurn_run h), fun h => congrArg _ (teTurn_run h), fun h => congrArg _ (teTurn_run h),
      fun h => congrArg _ (teTurn_run h)⟩
  case complete =>
    intro s te k w hk hdone gone paid u
    exact ⟨teRequestComplete_item hk hdone, fun t l => teRequestComplete_thread hk hdone⟩

end
end

section
/-! PROOFS. Transfers: DATA_IN and DATA_OUT as they start, the DATA and READ packets that arrive for a transfer, and the statement that follows (R275, R326, R365, R366, R369). -/

namespace Sys2Proof.Machine

/-! ## DATA_IN and DATA_OUT (R326, R365) -/

section Commands
variable {s u : State} {h : Hdr} {ep : Endpoint} {a n : W64}

/-- What DATA_IN does once its item is open. -/
def State.startIn (z : State) (h : Hdr) (ep : Endpoint) (a n : W64) : State :=
  if n = 0 then z.closeItem h 0 none
  else if z.portsTo ep.node 0 = [] then z.closeItem h 0 (some St.eParam)
  else (z.openXfer h 0 ep a n).1.sendPkts 0 [(z.openXfer h 0 ep a n).2.readPkt]

/-- What DATA_OUT does once its item is open. -/
def State.startOut (z : State) (h : Hdr) (ep : Endpoint) (a n : W64) : State :=
  if n = 0 then z.closeItem h 0 none
  else if z.portsTo ep.node 0 = [] then z.closeItem h 0 (some St.eParam)
  else (z.openXfer h 1 ep a n).1

theorem dataIn_starts (hu : s.startsNow h 0x210 (.dataIn h ep a n) = some u) :
    exec (.dataIn h ep a n) s = .next (((u.open' h 1).startIn h ep a n).settle h) :=
  congrArg _ (queued_passed hu rfl)

theorem dataOut_starts (hu : s.startsNow h 0x211 (.dataOut h ep a n) = some u) :
    exec (.dataOut h ep a n) s = .next (((u.open' h 1).startOut h ep a n).settle h) :=
  congrArg _ (queued_passed hu rfl)

end Commands

/-! ## Packets that arrive on a port that is up (R366, R369, R510) -/

theorem onQp_up {s : State} {n : QpId} {h : QHdr} {wait : Bool} {f : State → State} (hup : (s.qp n).st = 2) (hwait : wait = false) :
    s.onQp n h wait f = .next ((f s).ackPkt n h) := by
  subst hwait
  exact congrArg _ (if_pos (by simp [hup]))

/-- A packet of a partition's group member that belongs to no transfer has nowhere to go; any other is dropped. -/
def State.unclaimed (s : State) (n : QpId) (h : QHdr) : State := if (s.ptn h.dstPtn).memberNode h.srcNode h.srcPtn then s else s.dropPkt n

section Data
variable {s v : State} {n : QpId} {h : QHdr} {bs : List Byte} {x : Xfer} {c : Status} (hup : (s.qp n).st = 2)
include hup

theorem data_unclaimed (hx : s.xferIn? h = none) : exec (.data n h bs) s = .next ((s.unclaimed n h).ackPkt n h) := by
  have hwait : s.dataWaits h bs.length = false := by rw [State.dataWaits, hx]
  simp only [exec, execData, onQp_up hup hwait, hx, State.unclaimed]

variable (hx : s.xferIn? h = some x)
include hx

theorem data_duplicate (hseen : pktTag h ∈ x.seen) : exec (.data n h bs) s = .next (s.ackPkt n h) := by
  have hwait : s.dataWaits h bs.length = false := by simp only [State.dataWaits, hx, hseen, decide_true, Bool.not_true, Bool.false_and]
  simp only [exec, execData, onQp_up hup hwait, hx, hseen, decide_true, if_true]

variable (hnew : pktTag h ∉ x.seen) (hfit : h.offset.toNat + bs.length ≤ x.bytes) (hslot : s.noSlot h.dstPtn (x.addr + h.offset.toNat) bs.length = false)
include hnew hfit hslot

omit hup hnew hfit in
theorem data_served : s.dataWaits h bs.length = false := by simp only [State.dataWaits, hx, hslot, Bool.and_false]

theorem data_refused (hw : s.pWrite h.dstPtn (Who.firmware.via n) (x.addr + h.offset.toNat) (s.clear h bs) = (v, .error c)) :
    exec (.data n h bs) s = .next (((v.dropPkt n).endXfer x (some c)).ackPkt n h) := by
  simp only [exec, execData, onQp_up hup (data_served hx hslot), hx, hnew, gt_iff_lt, Nat.not_lt.mpr hfit, hw, decide_false, Bool.false_eq_true, if_false]

variable (hw : s.pWrite h.dstPtn (Who.firmware.via n) (x.addr + h.offset.toNat) (s.clear h bs) = (v, .ok ()))
include hw

theorem data_moves (hmore : x.moved + bs.length < x.bytes) : exec (.data n h bs) s = .next (State.ackPkt { v with
    xfers := updFirst (fun y => y.id = x.id) (fun y => { y with moved := x.moved + bs.length, seen := y.seen ++ [pktTag h] }) v.xfers } n h) := by
  simp only [exec, execData, onQp_up hup (data_served hx hslot), hx, hnew, gt_iff_lt, ge_iff_le, Nat.not_lt.mpr hfit, Nat.not_le.mpr hmore, hw,
    decide_false, Bool.false_eq_true, if_false]

theorem data_completes (hall : x.bytes ≤ x.moved + bs.length) : exec (.data n h bs) s = .next ((v.endXfer x none).ackPkt n h) := by
  simp only [exec, execData, onQp_up hup (data_served hx hslot), hx, hnew, gt_iff_lt, ge_iff_le, Nat.not_lt.mpr hfit, hall, hw, decide_false,
    Bool.false_eq_true, if_false, if_true]

end Data

/-! ## READ (R366) -/

/-- The header of the DATA packets that answer a READ of a transfer. -/
def Xfer.answer (x : Xfer) (h : QHdr) (len : Nat) : QPkt :=
  { dstNode := h.srcNode, dstPtn := h.srcPtn, srcPtn := x.ptn, vl := 3, kind := 1, enc := x.ep.enc, keyId := x.ep.keyId,
    last := decide (h.offset.toNat + len = x.bytes), xfer := x.id, offset := h.offset, job := some x.hdr.queue }

/-- A READ of a transfer has been answered with ks packets. -/
def State.readOut (s : State) (x : Xfer) (h : QHdr) (len ks : Nat) : State := { s with
  xfers := updFirst (fun y => y.id = x.id) (fun y => { y with moved := y.moved + len, sent := y.sent + ks, seen := y.seen ++ [pktTag h] }) s.xfers }

section Read
variable {s v : State} {n : QpId} {h : QHdr} {len : Nat} {x : Xfer} {c : Status} {bs : List Byte} (hup : (s.qp n).st = 2)
include hup

theorem read_unclaimed (hx : s.xferOut? h len = none) : exec (.read n h len) s = .next ((s.unclaimed n h).ackPkt n h) := by
  have hwait : s.readWaits h len = false := by rw [State.readWaits, hx]
  simp only [exec, execRead, onQp_up hup hwait, hx, State.unclaimed]

variable (hx : s.xferOut? h len = some x) (hnew : pktTag h ∉ x.seen) (hslot : s.noSlot h.dstPtn (x.addr + h.offset.toNat) len = false)
  (hrun : (s.job h.dstPtn x.hdr.queue).st = .running)
include hx hnew hslot hrun

omit hup hnew in
theorem read_served : s.readWaits h len = false := by
  simp only [State.readWaits, hx, hslot, hrun, ne_eq, not_true_eq_false, decide_false, Bool.or_self, Bool.and_false]

theorem read_refused (hr : s.pRead h.dstPtn (Who.firmware.via n) (x.addr + h.offset.toNat) len = (v, .error c)) :
    exec (.read n h len) s = .next ((v.endXfer x (some c)).ackPkt n h) := by
  simp only [exec, execRead, onQp_up hup (read_served hx hslot hrun), hx, hnew, hr, decide_false, Bool.false_eq_true, if_false]

theorem read_answers (hr : s.pRead h.dstPtn (Who.firmware.via n) (x.addr + h.offset.toNat) len = (v, .ok bs)) :
    let ks := cutPkts (x.answer h len) bs
    let z := v.readOut x h len ks.length
    exec (.read n h len) s = .next ((z.sendAll (z.portsTo h.srcNode 0) x.sent ks).ackPkt n h) := by
  simp only [exec, execRead, onQp_up hup (read_served hx hslot hrun), hx, hnew, hr, decide_false, Bool.false_eq_true, if_false, State.readOut, Xfer.answer]

end Read

end Sys2Proof.Machine

/-! ## The statement -/

section
open Sys2Proof Sys2Proof.Machine

/-- Settles O48: the commands start a transfer or end, and a packet that does not wait is taken by the transfer it names and acknowledged. -/
theorem transfers : Obligations.Transfers := by
  refine ⟨?commands, ?data, ?read⟩
  case commands =>
    intro s u h ep a n z
    refine ⟨fun hu => ?_, fun hu => ?_⟩
    · rw [dataIn_starts hu, State.startIn]
      exact ⟨fun h0 => by rw [if_pos h0], fun h0 hnone => by rw [if_neg h0, if_pos hnone], fun h0 hsome => by rw [if_neg h0, if_neg hsome]⟩
    · rw [dataOut_starts hu, State.startOut]
      exact ⟨fun h0 => by rw [if_pos h0], fun h0 hnone => by rw [if_neg h0, if_pos hnone], fun h0 hsome => by rw [if_neg h0, if_neg hsome]⟩
  case data =>
    intro s n h bs hup find
    refine ⟨data_unclaimed hup, fun x hx => ⟨data_duplicate hup hx, fun hnew hfit hslot => ?_⟩⟩
    exact ⟨fun c hw => data_refused hup hx hnew hfit hslot (Prod.ext rfl hw), fun hw => data_moves hup hx hnew hfit hslot (Prod.ext rfl hw),
      fun hw => data_completes hup hx hnew hfit hslot (Prod.ext rfl hw)⟩
  case read =>
    intro s n h len hup find
    refine ⟨read_unclaimed hup, fun x hx hnew hslot hrun => ?_⟩
    exact ⟨fun c hr => read_refused hup hx hnew hslot hrun (Prod.ext rfl hr), fun bs hr => read_answers hup hx hnew hslot hrun (Prod.ext rfl hr)⟩

end
end

section
/-! PROOFS. The simple commands and the accounts, and the reset of a partition: what each does once it starts, what a reset leaves of the partition, and the two statements that follow (R284, R295, R325, R336, R430, R485). -/

namespace Sys2Proof.Machine

/-! ## NOP, ECHO and the accounts (R295, R325, R336) -/

section SimpleCommands
variable {s u : State} {h : Hdr}

theorem nop_answers (hu : s.runsNow h 0x100 = some u) : exec (.nop h) s = .next (u.replied h [doneItem] []) :=
  congrArg _ (atOnce_replied hu rfl)

theorem echo_answers {bs : List Byte} (hu : s.runsNow h 0xF05 = some u) : exec (.echo h bs) s = .next (u.replied h [doneItem] bs) :=
  congrArg _ (atOnce_replied hu rfl)

theorem acctRead_answers {first n : W16} (hu : s.runsNow h 0x120 = some u) (hn : n ≠ 0) (hmax : n.toNat ≤ 2048) :
    let as := (u.ptn h.ptn).accts
    exec (.acctRead h first n) s =
      .next (u.replied h [doneItem] (leBytes 4 as.length ++ leBytes 4 0 ++ ((as.drop first.toNat).take n.toNat).flatMap Acct.bytes)) := by
  have hcount : ¬(decide (n = 0) || decide (n.toNat > 2048)) = true := by
    simp only [hn, Nat.not_lt.mpr hmax, decide_false, Bool.or_self, Bool.false_eq_true, not_false_eq_true]
  exact congrArg _ (atOnce_replied hu (if_neg hcount))

theorem acctClear_clears {all : Bool} {tag : W32} (hu : s.runsNow h 0x121 = some u) :
    exec (.acctClear h all tag) s = .next ((u.updPtn h.ptn fun x => { x with
      accts := x.accts.map fun a => if all || a.tag = tag then { a with mcNs := 0, overflow := false } else a }).replied h [doneItem] []) :=
  congrArg _ (atOnce_replied hu rfl)

end SimpleCommands

/-! ## The reset of a partition (R284, R384) -/

/-- An entry of a mapped table holds the image of a value. -/
theorem Tab.mem_mapVals {α : Type} [DecidableEq α] {d : α} {f : α → α} {t : Tab α} {e : Nat × α} (he : e ∈ t.mapVals d f) : ∃ v, e.2 = f v := by
  induction t with
  | nil => cases he
  | cons b r ih =>
    obtain ⟨a, v⟩ := b
    rw [Tab.mapVals] at he
    split at he
    · exact ih he
    · rcases List.mem_cons.mp he with rfl | hr
      · exact ⟨v, rfl⟩
      · exact ih hr

/-- A partition in reset; what its commands' ends take as free values comes from `fresh`. -/
def Ptn.wiped (x : Ptn) (cause : Byte) (fresh : Nat) : Ptn := { x with
  st := 2
  jobs := x.jobs.mapVals {} Job.reset
  sems := []
  holders := []
  tkeys := []
  models := x.models.map fun m => { m with pagesUsed := [], sets := m.sets.map fun w => { w with writing := false } }
  train := { x.train with mbs := [], runs := [] }
  serve := { x.serve with streams := [], inStep := [], worked := [], variants := x.serve.variants.filter (·.current) }
  fix := { x.fix with copies := [], restore := none, ship := none, hello := none }
  flow := { x.flow with
    rstCause := cause, rstCount := satInc x.flow.rstCount, resetMark := x.flow.nextNum, cmds := x.flow.cmds.map (CmdRec.onReset x fresh) } }

theorem Ptn.wiped_jobs {x : Ptn} {cause : Byte} {fresh : Nat} {e : Nat × Job} (he : e ∈ (x.wiped cause fresh).jobs) :
    e.2.st = .idle ∧ e.2.vt = 0 ∧ e.2.cgs = 0 := by
  obtain ⟨j, hj⟩ := Tab.mem_mapVals he
  rw [hj]
  exact ⟨rfl, rfl, rfl⟩

/-- Wipes a partition whose work is stopped and whose groups are told. -/
def State.wiped (z : State) (p : PtnId) (cause : Byte) : State :=
  { z.updPtn p (·.wiped cause z.fresh) with fresh := z.fresh + 1 }

theorem State.ptn_wiped (z : State) (p : PtnId) (cause : Byte) : (z.wiped p cause).ptn p = (z.ptn p).wiped cause z.fresh :=
  State.ptn_updPtn_same z p (·.wiped cause z.fresh) fun hfree =>
    have hst : (2 : BitVec 2) = 0 := congrArg Ptn.st hfree
    absurd hst (by decide)

/-- A reset wipes the partition and then reports the commands it has ended. -/
theorem State.resetPtn_eq (s : State) (p : PtnId) (cause : Byte) :
    s.resetPtn p cause =
      ((s.ptn p).flow.cmds.map (·.hdr)).foldl (fun z h => z.tryReport h) (((s.stopWork p).abortGroups p).wiped p cause) := by
  unfold State.resetPtn
  generalize (s.stopWork p).abortGroups p = z
  rfl

/-! ## PTN_RESET and the end of the reset (R284, R430, R485) -/

theorem ptnReset_resets {s u : State} {h : Hdr} (hu : s.runsNow h 0x105 = some u) (hused : (u.ptn h.target).st ≠ 0) :
    exec (.ptnReset h) s = .next (((u.open' h 1).takeMen).resetPtn h.target 0x10) := by
  obtain ⟨rfl, c, hc, hstart⟩ := runsNow_some hu
  show execPtnReset h s = _
  simp only [execPtnReset, hc, hstart, hused, Bool.not_true, Bool.false_eq_true, if_false]

theorem partitionResetComplete_activates {s : State} {p : PtnId} (hresetting : (s.ptn p).st = 2) (hpair : bitAt s.saf.psRetired.toNat p = false) :
    exec (.partitionResetComplete p) s = .next ((s.updPtn p fun x => { x with st := 1 }).finishReset p) := by
  show execPartitionResetComplete p s = _
  simp only [execPartitionResetComplete, hresetting, hpair, decide_true, Bool.not_false, Bool.and_self, if_true]

end Sys2Proof.Machine

/-! ## The statements -/

section
open Sys2Proof Sys2Proof.Machine

/-- Settles O22: each clause is the answer of a command that starts and passes its checks. -/
theorem simpleCommands : Obligations.SimpleCommands := by
  intro s u h
  exact ⟨nop_answers, fun bs => echo_answers, fun first n => acctRead_answers, fun all tag => acctClear_clears⟩

/-- Settles O24: the reset reports its commands from the state in which the partition is wiped. -/
theorem partitionReset : Obligations.PartitionReset := by
  refine ⟨fun s u h => ptnReset_resets, fun s p => partitionResetComplete_activates, fun s p cause => ?_⟩
  refine ⟨((s.stopWork p).abortGroups p).wiped p cause, (s.ptn p).flow.cmds.map (·.hdr), s.resetPtn_eq p cause, ?_⟩
  rw [State.ptn_wiped]
  exact ⟨rfl, rfl, rfl, rfl, rfl, rfl, rfl, rfl, fun e => Ptn.wiped_jobs⟩

end
end

section
/-! PROOFS. The queue of waiting commands: a step serves its front and leaves the rest, whatever the command is, and the three statements that follow (R285, R318, R322, R323). -/

namespace Sys2Proof.Machine

theorem step_idle {s : State} (h : s.pending = []) : step s = .next s := by
  unfold step; rw [h]

theorem step_front {s : State} {c : Instr} {rest : List Instr} (h : s.pending = c :: rest) : step s = exec c { s with pending := rest } := by
  unfold step; rw [h]

/-- One law of the queue for each row of the table. -/
theorem exec_keeps (i : Instr) (s : State) : Keeps (exec i s) s :=
  match i with
  | .packetArrival port bytes => execPacketArrival_pending port bytes s
  | .uapraFrame port f => execUapraFrame_pending port f s
  | .uapraFrameRetry port => execUapraFrameRetry_pending port s
  | .uapraRetrain port up => execUapraRetrain_pending port up s
  | .nop h => execNop_pending h s
  | .ptnCreate h cgMask qEnable keyLabel => execPtnCreate_pending h cgMask qEnable keyLabel s
  | .ptnDestroy h => execPtnDestroy_pending h s
  | .cgAlloc h cgMask => execCgAlloc_pending h cgMask s
  | .cgRelease h cgMask => execCgRelease_pending h cgMask s
  | .cgReleaseEffect p cg => execCgReleaseEffect_pending p cg s
  | .ptnReset h => execPtnReset_pending h s
  | .regRead h addrs => execRegRead_pending h addrs s
  | .regWrite h writes => execRegWrite_pending h writes s
  | .acctRead h first count => execAcctRead_pending h first count s
  | .acctClear h all tag => execAcctClear_pending h all tag s
  | .attestQuote h nonce chain => execAttestQuote_pending h nonce chain s
  | .keyExchange h mode slot srcSlot data => execKeyExchange_pending h mode slot srcSlot data s
  | .looseGrant h slice => execLooseGrant_pending h slice s
  | .looseRelease h slice => execLooseRelease_pending h slice s
  | .memGrant h w count named keep granules => execMemGrant_pending h w count named keep granules s
  | .memRelease h w count => execMemRelease_pending h w count s
  | .sharedMap h w => execSharedMap_pending h w s
  | .sharedUnmap h => execSharedUnmap_pending h s
  | .sharedLoad h ep bytes data => execSharedLoad_pending h ep bytes data s
  | .sharedSeal h => execSharedSeal_pending h s
  | .sharedClear h => execSharedClear_pending h s
  | .dataIn h ep addr bytes => execDataIn_pending h ep addr bytes s
  | .dataOut h ep addr bytes => execDataOut_pending h ep addr bytes s
  | .modelLoad h addr bytes flags kvPoolGib => execModelLoad_pending h addr bytes flags kvPoolGib s
  | .modelUnload h handle => execModelUnload_pending h handle s
  | .variantLoad h model tag addr bytes => execVariantLoad_pending h model tag addr bytes s
  | .variantUnload h model tag => execVariantUnload_pending h model tag s
  | .tableOp h reqs => execTableOp_pending h reqs s
  | .distillStep h b x => execDistillStep_pending h b x s
  | .fwdMb h x => execFwdMb_pending h x s
  | .bwdMb h x => execBwdMb_pending h x s
  | .mbRelease h ids => execMbRelease_pending h ids s
  | .update h model set adamw group opt => execUpdate_pending h model set adamw group opt s
  | .eval h b x => execEval_pending h b x s
  | .genSubmit h program entry reqs => execGenSubmit_pending h program entry reqs s
  | .genCancel h seq item => execGenCancel_pending h seq item s
  | .budgetSet h recs => execBudgetSet_pending h recs s
  | .budgetRead h first count => execBudgetRead_pending h first count s
  | .groupSet h g => execGroupSet_pending h g s
  | .groupLeave h group => execGroupLeave_pending h group s
  | .routeSet h portMask first count value => execRouteSet_pending h portMask first count value s
  | .reduce h group outB16 elems src dst => execReduce_pending h group outB16 elems src dst s
  | .ckptSave h store toStore toPartner timeoutMs => execCkptSave_pending h store toStore toPartner timeoutMs s
  | .ckptRestore h source num => execCkptRestore_pending h source num s
  | .partnerSet h role override peer addr bytes => execPartnerSet_pending h role override peer addr bytes s
  | .negativeShip h model set dest => execNegativeShip_pending h model set dest s
  | .progLoad h addr bytes => execProgLoad_pending h addr bytes s
  | .progUnload h handle => execProgUnload_pending h handle s
  | .progRun h x => execProgRun_pending h x s
  | .pwrState h target scope cgMask => execPwrState_pending h target scope cgMask s
  | .telemetryRead h => execTelemetryRead_pending h s
  | .pwrLimit h limitW => execPwrLimit_pending h limitW s
  | .stripNow h cgMask revive cores engines => execStripNow_pending h cgMask revive cores engines s
  | .faultLogRead h firstMen count => execFaultLogRead_pending h firstMen count s
  | .faultLogClear h upToMen => execFaultLogClear_pending h upToMen s
  | .safelightUnlock h mode t => execSafelightUnlock_pending h mode t s
  | .echo h bytes => execEcho_pending h bytes s
  | .ptnNumModeWrite h p v => execPtnNumModeWrite_pending h p v s
  | .ptnStashCfgWrite h p v => execPtnStashCfgWrite_pending h p v s
  | .ptnSpillBaseWrite h p v => execPtnSpillBaseWrite_pending h p v s
  | .ptnQCfgWrite h p q v => execPtnQCfgWrite_pending h p q v s
  | .ptnSchedCfgWrite h p v => execPtnSchedCfgWrite_pending h p v s
  | .ptnServeCfgWrite h p v => execPtnServeCfgWrite_pending h p v s
  | .ptnReplyCfgWrite h p v => execPtnReplyCfgWrite_pending h p v s
  | .ptnMemSlotsWrite h p v => execPtnMemSlotsWrite_pending h p v s
  | .ptnSemCountWrite h p sem v => execPtnSemCountWrite_pending h p sem v s
  | .ptnViolInfoClear h p v => execPtnViolInfoClear_pending h p v s
  | .modMemCfgWrite h v => execModMemCfgWrite_pending h v s
  | .modSharedLabelWrite h v => execModSharedLabelWrite_pending h v s
  | .modFabricWrite h v => execModFabricWrite_pending h v s
  | .qlnkEnable h qp v => execQlnkEnable_pending h qp v s
  | .qlnkResWrite h qp p v => execQlnkResWrite_pending h qp p v s
  | .qoreaLinkReset h qp v => execQoreaLinkReset_pending h qp v s
  | .uapraLinkReset h up v => execUapraLinkReset_pending h up v s
  | .pwrCfgWrite h v => execPwrCfgWrite_pending h v s
  | .safStatusClear h v newFault newAlert => execSafStatusClear_pending h v newFault newAlert s
  | .registerWrite h addr v => execRegisterWrite_pending h addr v s
  | .nopInstruction t w => execNopInstruction_pending t w s
  | .mov t w => execMov_pending t w s
  | .add t w => execAdd_pending t w s
  | .sub t w => execSub_pending t w s
  | .mul t w => execMul_pending t w s
  | .and t w => execAnd_pending t w s
  | .or t w => execOr_pending t w s
  | .xor t w => execXor_pending t w s
  | .shl t w => execShl_pending t w s
  | .shr t w => execShr_pending t w s
  | .sra t w => execSra_pending t w s
  | .imin t w => execImin_pending t w s
  | .imax t w => execImax_pending t w s
  | .scl t w => execScl_pending t w s
  | .fadd t w => execFadd_pending t w s
  | .fsub t w => execFsub_pending t w s
  | .fmul t w => execFmul_pending t w s
  | .ffma t w => execFfma_pending t w s
  | .fdiv t w => execFdiv_pending t w s
  | .fsqrt t w => execFsqrt_pending t w s
  | .fmax t w => execFmax_pending t w s
  | .fmin t w => execFmin_pending t w s
  | .fabs t w => execFabs_pending t w s
  | .fneg t w => execFneg_pending t w s
  | .exp2 t w => execExp2_pending t w s
  | .log2 t w => execLog2_pending t w s
  | .ceq t w => execCeq_pending t w s
  | .cne t w => execCne_pending t w s
  | .clt t w => execClt_pending t w s
  | .cle t w => execCle_pending t w s
  | .cun t w => execCun_pending t w s
  | .cgt t w => execCgt_pending t w s
  | .cge t w => execCge_pending t w s
  | .sel t w => execSel_pending t w s
  | .kand t w => execKand_pending t w s
  | .kor t w => execKor_pending t w s
  | .knot t w => execKnot_pending t w s
  | .cvt t w => execCvt_pending t w s
  | .ld t w => execLd_pending t w s
  | .st t w => execSt_pending t w s
  | .prom t w => execProm_pending t w s
  | .scvt t w => execScvt_pending t w s
  | .sred t w => execSred_pending t w s
  | .smove t w => execSmove_pending t w s
  | .atx t w => execAtx_pending t w s
  | .tereq t w => execTereq_pending t w s
  | .tewait t w => execTewait_pending t w s
  | .br t w => execBr_pending t w s
  | .bar t w => execBar_pending t w s
  | .swait t w => execSwait_pending t w s
  | .spost t w => execSpost_pending t w s
  | .sumry t w => execSumry_pending t w s
  | .endThread t w => execEndThread_pending t w s
  | .loadReturn t k => execLoadReturn_pending t k s
  | .streamDone t => execStreamDone_pending t s
  | .barRelease launch mc => execBarRelease_pending launch mc s
  | .semaphoreAcquire p sem => execSemaphoreAcquire_pending p sem s
  | .gather te k => execGather_pending te k s
  | .pool te k => execPool_pending te k s
  | .scatterAdd te k => execScatterAdd_pending te k s
  | .topk te k => execTopk_pending te k s
  | .lse te k => execLse_pending te k s
  | .teRequestComplete te k => execTeRequestComplete_pending te k s
  | .plan p q a wait => execPlan_pending p q a wait s
  | .launch p q a wait => execLaunch_pending p q a wait s
  | .wait p q a isPlan => execWait_pending p q a isPlan s
  | .cmp p q c => execCmp_pending p q c s
  | .brt p q a => execBrt_pending p q a s
  | .jmp p q a => execJmp_pending p q a s
  | .copy p q a b slotA slotB => execCopy_pending p q a b slotA slotB s
  | .setc p q c imm => execSetc_pending p q c imm s
  | .decb p q c b => execDecb_pending p q c b s
  | .endItem p q b code => execEndItem_pending p q b code s
  | .programEnd p q => execProgramEnd_pending p q s
  | .launchComplete launch => execLaunchComplete_pending launch s
  | .run p q item mc d sd w => execRun_pending p q item mc d sd w s
  | .runRelease mc => execRunRelease_pending mc s
  | .split p q d => execSplit_pending p q d s
  | .splitHandoff p q part level => execSplitHandoff_pending p q part level s
  | .waitSem p q mc sem => execWaitSem_pending p q mc sem s
  | .postSem p q mc sem => execPostSem_pending p q mc sem s
  | .sliceEnd p q ns => execSliceEnd_pending p q ns s
  | .stopBathHandover p q ns => execStopBathHandover_pending p q ns s
  | .restoreComplete p q ns switchUs => execRestoreComplete_pending p q ns switchUs s
  | .stashFill p mb => execStashFill_pending p mb s
  | .updateBufferAcquire p model set => execUpdateBufferAcquire_pending p model set s
  | .contactFinalise p q block => execContactFinalise_pending p q block s
  | .genStep p model => execGenStep_pending p model s
  | .stepCommit p model failed nowUs => execStepCommit_pending p model failed nowUs s
  | .chunkComplete p stream failed nowUs => execChunkComplete_pending p stream failed nowUs s
  | .budgetRefill p tag => execBudgetRefill_pending p tag s
  | .stripDue mc => execStripDue_pending mc s
  | .stripStart mc => execStripStart_pending mc s
  | .stripEnd mc r stamp => execStripEnd_pending mc r stamp s
  | .teStripEnd te r stamp => execTeStripEnd_pending te r stamp s
  | .heartbeatMissed isTe unit stamp => execHeartbeatMissed_pending isTe unit stamp s
  | .psLockstepMismatch p stamp within1s => execPsLockstepMismatch_pending p stamp within1s s
  | .stewardLockstepMismatch stamp within1s => execStewardLockstepMismatch_pending stamp within1s s
  | .stewardRestartComplete => execStewardRestartComplete_pending s
  | .descCrcMismatch p q item isTe unit stamp => execDescCrcMismatch_pending p q item isTe unit stamp s
  | .windowMismatch p q item stamp => execWindowMismatch_pending p q item stamp s
  | .dieLinkDown a b stamp => execDieLinkDown_pending a b stamp s
  | .patrolScrub addr double single passDone stamp => execPatrolScrub_pending addr double single passDone stamp s
  | .slotWheelBoundary => execSlotWheelBoundary_pending s
  | .flitReceive qp f => execFlitReceive_pending qp f s
  | .nak qp fseq stamp => execNak_pending qp fseq stamp s
  | .qoreaSilentTimeout qp stamp => execQoreaSilentTimeout_pending qp stamp s
  | .trainingStepTimeout qp lanes => execTrainingStepTimeout_pending qp lanes s
  | .data qp h bytes => execData_pending qp h bytes s
  | .read qp h len => execRead_pending qp h len s
  | .ack qp p cls pktNum => execAck_pending qp p cls pktNum s
  | .join qp h g roundTotal => execJoin_pending qp h g roundTotal s
  | .exp qp h g bucket e nonfinite => execExp_pending qp h g bucket e nonfinite s
  | .scale qp h g bucket f mark => execScale_pending qp h g bucket f mark s
  | .grad qp h g bucket vals => execGrad_pending qp h g bucket vals s
  | .bucketClose p group bucket => execBucketClose_pending p group bucket s
  | .param qp h g bucket vals => execParam_pending qp h g bucket vals s
  | .absent qp h g => execAbsent_pending qp h g s
  | .abort qp h g => execAbort_pending qp h g s
  | .groupTimeout p group => execGroupTimeout_pending p group s
  | .ckData qp h bytes => execCkData_pending qp h bytes s
  | .ckEnd qp h num total digest => execCkEnd_pending qp h num total digest s
  | .ckAck qp h num status digest => execCkAck_pending qp h num status digest s
  | .ckRead qp h num offset len => execCkRead_pending qp h num offset len s
  | .ckRdata qp h bytes => execCkRdata_pending qp h bytes s
  | .hello qp h feed size => execHello_pending qp h feed size s
  | .helloAck qp h feed status half => execHelloAck_pending qp h feed status half s
  | .helloTimeout p => execHelloTimeout_pending p s
  | .negData qp h bytes => execNegData_pending qp h bytes s
  | .negEnd qp h total sha => execNegEnd_pending qp h total sha s
  | .negAck qp h status => execNegAck_pending qp h status s
  | .copyTimeout p partner => execCopyTimeout_pending p partner s
  | .restoreSourceTimeout p => execRestoreSourceTimeout_pending p s
  | .cgL1Entry cg => execCgL1Entry_pending cg s
  | .moduleL1Entry => execModuleL1Entry_pending s
  | .moduleL2Entry => execModuleL2Entry_pending s
  | .moduleL3Entry => execModuleL3Entry_pending s
  | .avsRetry bus stamp => execAvsRetry_pending bus stamp s
  | .wakeBurst port => execWakeBurst_pending port s
  | .wakeNInput => execWakeNInput_pending s
  | .dutyControl r stamp => execDutyControl_pending r stamp s
  | .tempSample r stamp => execTempSample_pending r stamp s
  | .inputLow stamp => execInputLow_pending stamp s
  | .undervoltageLockout => execUndervoltageLockout_pending s
  | .railFault rail stamp => execRailFault_pending rail stamp s
  | .refLost stamp => execRefLost_pending stamp s
  | .pllUnlock stamp => execPllUnlock_pending stamp s
  | .pwrgdInRise => execPwrgdInRise_pending s
  | .pwrgdInFall => execPwrgdInFall_pending s
  | .modRstNFall => execModRstNFall_pending s
  | .modRstNRise => execModRstNRise_pending s
  | .moduleWarmReset cause => execModuleWarmReset_pending cause s
  | .coldReset cause => execColdReset_pending cause s
  | .safelightChallengeExpiry => execSafelightChallengeExpiry_pending s
  | .safelightExpiry => execSafelightExpiry_pending s
  | .drbgReseed => execDrbgReseed_pending s
  | .i3cRegRead addr => execI3cRegRead_pending addr s
  | .i3cRegWrite addr v => execI3cRegWrite_pending addr v s
  | .flashRead off len => execFlashRead_pending off len s
  | .flashWrite off bytes => execFlashWrite_pending off bytes s
  | .flashErase off => execFlashErase_pending off s
  | .i3cStatus => execI3cStatus_pending s
  | .bypass => execBypass_pending s
  | .idcode => execIdcode_pending s
  | .samplePreload => execSamplePreload_pending s
  | .extest => execExtest_pending s
  | .partitionResetComplete p => execPartitionResetComplete_pending p s
  | .linkTrained qp peerNode => execLinkTrained_pending qp peerNode s
  | .refRestored => execRefRestored_pending s
  | .inputRestored => execInputRestored_pending s
  | .standbyInputLoss => execStandbyInputLoss_pending s
  | .standbyInputReturn => execStandbyInputReturn_pending s
  | .stashFillComplete p mb => execStashFillComplete_pending p mb s
  | .regulatorTransitionComplete bus readbackOk last => execRegulatorTransitionComplete_pending bus readbackOk last s
  | .flashOperationComplete => execFlashOperationComplete_pending s
  | .safelightDebugAccess scopeBit p mc addr write => execSafelightDebugAccess_pending scopeBit p mc addr write s
  | .setdasa addr => execSetdasa_pending addr s
  | .entdaa addr => execEntdaa_pending addr s

end Sys2Proof.Machine

/-! ## The statements -/

section
open Sys2Proof Sys2Proof.Machine

/-- Settles O1: the command at the front is the one that a step matches on. -/
theorem stepTakesFrontCommand : Obligations.StepTakesFrontCommand := fun _ _ _ => step_front rfl

/-- Settles O2: without a command there is nothing to match on. -/
theorem emptyQueueIdles : Obligations.EmptyQueueIdles := fun _ => step_idle

/-- Settles O3: the step runs the front command on the rest of the queue, and every command completes and keeps the queue it is given. -/
theorem everyStepServesOneCommand : Obligations.EveryStepServesOneCommand := by
  intro s c rest hqueue
  rw [step_front hqueue]
  exact exec_keeps c { s with pending := rest }

end
end

section
/-! PROOFS. Steps of a sequencer program alone: what each leaves of its program when the program stands at it, and the statement that follows (R138, R347, R514). -/

namespace Sys2Proof.Machine

section Steps
variable {s : State} {p : PtnId} {q : QueueId} {c : CmdRec} {r : ProgRun} {im : Image}

/-- A step whose meaning is a sequencer step runs on the command, program and image it stands in. -/
theorem seqStep_at {i : Instr} {is : SeqStep → Bool} {f : State → CmdRec → ProgRun → Image → State} (hat : s.atStep p q is = some (c, r, im))
    (hi : exec i s = .next (s.seqStep p q is f)) : exec i s = .next (f s c r im) :=
  hi.trans (congrArg _ (atStep_run hat))

/-- BRT: the two branches differ in the step alone. -/
theorem setProg_branch (a : Nat) : s.setProg c (if r.flag then { r with step := a } else r.next) =
    s.setProg c { r with step := if r.flag then a else r.step + 1 } := by
  by_cases hf : r.flag
  · rw [if_pos hf, if_pos hf]
  · rw [if_neg hf, if_neg hf]; rfl

/-- DECB: with the counter written, the two branches differ in the step alone. -/
theorem setProg_countdown (k b : Nat) : let v := r.counters.get 0 k - 1
    let n : ProgRun := { r with counters := r.counters.put 0 k v }
    s.setProg c (if v = 0 then n.next else { n with step := b }) =
      s.setProg c { r with step := if v = 0 then r.step + 1 else b, counters := r.counters.put 0 k v } := by
  intro v n
  by_cases hv : v = 0
  · rw [if_pos hv, if_pos hv]; rfl
  · rw [if_neg hv, if_neg hv]

end Steps
end Sys2Proof.Machine

/-! ## The statement -/

section
open Sys2Proof Sys2Proof.Machine

/-- Settles O19: each step runs where its program stands at it, and what it leaves is its definition. -/
theorem sequencerSteps : Obligations.SequencerSteps := by
  intro s p q c r im
  refine ⟨?cmp, ?brt, ?jmp, ?copy, ?setc, ?decb, ?item⟩
  case cmp => intro x a y hat; exact seqStep_at (i := .cmp p q x) hat rfl
  case brt => intro a hat; exact (seqStep_at (i := .brt p q a) hat rfl).trans (congrArg _ (setProg_branch a.toNat))
  case jmp => intro a hat; exact seqStep_at (i := .jmp p q a) hat rfl
  case copy => intro a b sa sb hat; exact seqStep_at (i := .copy p q a b sa sb) hat rfl
  case setc => intro k imm hat; exact seqStep_at (i := .setc p q k imm) hat rfl
  case decb => intro k b hat v; exact (seqStep_at (i := .decb p q k b) hat rfl).trans (congrArg _ (setProg_countdown k.toNat b.toNat))
  case item => intro b code hat; exact seqStep_at (i := .endItem p q b code) hat rfl

end
end

section
/-! PROOFS. The arrival of a packet: the answer of each check of R318, in their order, and the statement that follows (R315 to R320, R431, R472). -/

namespace Sys2Proof.Machine

theorem admits_some {s z : State} {port : UpId} (h : s.admits port = some z) : s.awake = true ∧ (s.up port).isUp = true ∧ z = s.leaveL1 := by
  unfold State.admits at h
  split at h
  next hup => cases h; exact ⟨(Bool.and_eq_true _ _ ▸ hup).1, (Bool.and_eq_true _ _ ▸ hup).2, rfl⟩
  next => cases h

/-! ## Checks 1 to 5: the packet and its partition -/

section Arrival
variable {s z : State} {port : UpId} {bs : List Byte}

theorem packetArrival_wireFails (hz : s.admits port = some z) {c : Status} (hwire : wireCheck bs = some c) :
    exec (.packetArrival port bs) s = .next (z.portReply port (Hdr.parse bs port) (BitVec.ofNat 16 (fld bs 2 2)) c bs) := by
  obtain ⟨hawake, hup, rfl⟩ := admits_some hz
  show execPacketArrival port bs s = _
  simp only [execPacketArrival, hawake, hup, hwire, Bool.not_true, Bool.or_self, Bool.false_eq_true, if_false]

theorem packetArrival_ptnFree (hz : s.admits port = some z) (hwire : wireCheck bs = none) (hchan : (Hdr.parse bs port).steward = false)
    (hfree : (z.ptn (Hdr.parse bs port).ptn).st = 0) :
    exec (.packetArrival port bs) s = .next (z.portReply port (Hdr.parse bs port) (BitVec.ofNat 16 (fld bs 2 2)) St.ePtnFree bs) := by
  obtain ⟨hawake, hup, rfl⟩ := admits_some hz
  show execPacketArrival port bs s = _
  simp only [execPacketArrival, hawake, hup, hwire, hchan, hfree, Bool.not_true, Bool.not_false, Bool.or_self, Bool.true_and, decide_true,
    Bool.false_eq_true, if_true, if_false]

/-- Checks 6 to 12, of a packet that names the steward or a partition in use. -/
def State.judge (z : State) (h : Hdr) (op : Nat) (block : List Byte) (credits : Nat) : State :=
  let refuse := fun (v : State) (c : Status) => v.sendReply h (rejection h (BitVec.ofNat 16 op) c)
  match z.chanCheck h credits with
  | some c => refuse z c
  | none =>
    if !seqAfter (z.lastSeq h) h.seq then refuse z St.eSeqReplay
    else if h.steward && (z.setSeq h).saf.stewRestart then refuse (z.setSeq h) St.eBusy
    else
      match (z.setSeq h).cmdCheck h op block with
      | .error c => refuse (z.setSeq h) c
      | .ok cmd => (z.setSeq h).accept h op cmd credits

theorem packetArrival_judged (hz : s.admits port = some z) (hwire : wireCheck bs = none)
    (hlive : (Hdr.parse bs port).steward = true ∨ (z.ptn (Hdr.parse bs port).ptn).st ≠ 0) :
    exec (.packetArrival port bs) s =
      .next (z.judge (Hdr.parse bs port) (fld bs 2 2) ((bs.take (bs.length - 4)).drop 32) (ceilDiv bs.length 256)) := by
  obtain ⟨hawake, hup, rfl⟩ := admits_some hz
  have hused : (!(Hdr.parse bs port).steward && decide ((s.leaveL1.ptn (Hdr.parse bs port).ptn).st = 0)) = false := by
    rcases hlive with hs | hst
    · simp [hs]
    · simpa using fun _ => hst
  show execPacketArrival port bs s = _
  simp only [execPacketArrival, hawake, hup, hwire, hused, Bool.not_true, Bool.or_self, Bool.false_eq_true, if_false]
  rfl

end Arrival

/-! ## Checks 6 to 12: the channel, SEQ and the command -/

section Judge
variable {z : State} {h : Hdr} {op n : Nat} {block : List Byte} {c : Status}

theorem judge_chanFails (hchan : z.chanCheck h n = some c) : z.judge h op block n = z.sendReply h (rejection h (BitVec.ofNat 16 op) c) := by
  simp only [State.judge, hchan]

theorem judge_seqReplayed (hchan : z.chanCheck h n = none) (hseq : seqAfter (z.lastSeq h) h.seq = false) :
    z.judge h op block n = z.sendReply h (rejection h (BitVec.ofNat 16 op) St.eSeqReplay) := by
  simp only [State.judge, hchan, hseq, Bool.not_false, if_true]

theorem judge_restarting (hchan : z.chanCheck h n = none) (hseq : seqAfter (z.lastSeq h) h.seq = true) (hs : h.steward = true)
    (hrestart : (z.setSeq h).saf.stewRestart = true) :
    z.judge h op block n = (z.setSeq h).sendReply h (rejection h (BitVec.ofNat 16 op) St.eBusy) := by
  simp only [State.judge, hchan, hseq, hs, hrestart, Bool.not_true, Bool.and_self, Bool.false_eq_true, if_true, if_false]

/-- With SEQ taken and no restart in the way, the command's own checks decide. -/
theorem judge_command (hchan : z.chanCheck h n = none) (hseq : seqAfter (z.lastSeq h) h.seq = true)
    (hgo : h.steward = false ∨ (z.setSeq h).saf.stewRestart = false) :
    (∀ c, (z.setSeq h).cmdCheck h op block = .error c → z.judge h op block n = (z.setSeq h).sendReply h (rejection h (BitVec.ofNat 16 op) c)) ∧
    ∀ cmd, (z.setSeq h).cmdCheck h op block = .ok cmd → z.judge h op block n = (z.setSeq h).accept h op cmd n := by
  have hfree : (h.steward && (z.setSeq h).saf.stewRestart) = false := Bool.and_eq_false_iff.mpr hgo
  constructor <;> intro x hx <;> simp only [State.judge, hchan, hseq, hfree, hx, Bool.not_true, Bool.false_eq_true, if_false]

end Judge
end Sys2Proof.Machine

/-! ## The statement -/

section
open Sys2Proof Sys2Proof.Machine

/-- Settles O45: the checks in their order, each with the answer that its failure gives. -/
theorem packetArrival : Obligations.PacketArrival := by
  intro s z port bs hz h op opw n block run
  refine ⟨fun c => packetArrival_wireFails hz, fun hwire => ⟨packetArrival_ptnFree hz hwire, fun hlive => ?_⟩⟩
  rw [show run = .next (z.judge h op block n) from packetArrival_judged hz hwire hlive]
  refine ⟨fun c hchan => congrArg _ (judge_chanFails hchan), fun hchan => ⟨fun hseq => congrArg _ (judge_seqReplayed hchan hseq), fun hseq => ?_⟩⟩
  refine ⟨fun hs hrestart => congrArg _ (judge_restarting hchan hseq hs hrestart), fun hgo => ?_⟩
  obtain ⟨hfails, hpasses⟩ := judge_command (op := op) (block := block) hchan hseq hgo
  exact ⟨fun c hc => congrArg _ (hfails c hc), fun cmd hcmd => congrArg _ (hpasses cmd hcmd)⟩

end
end

section
/-! PROOFS. Qorea ports: what a flit, a NAK, a silent peer, a step of training and an acknowledgement do to a port, and the statement that follows (R350 to R354, R357, R359, R364, R368). -/

namespace Sys2Proof.Machine
namespace State

section Port
variable {s : State} {n : QpId}

/-! ## Flits (R350 to R352, R357) -/

/-- A flit that is not IDLE wakes the module, and its errors are counted. -/
def flitCounted (s : State) (n : QpId) (f : Flit) : State :=
  (if f.fkind ≠ 1 ∧ f.good = true then s.wakeL2 1 (BitVec.ofNat 6 n.val) else s).updQp n fun x => { x with fecCe := satInc x.fecCe f.fecCe, fecUe := satInc x.fecUe f.fecUe }

/-- A good flit's acknowledgement is taken, and what has room now starts. -/
def flitAcked (s : State) (n : QpId) (f : Flit) : State := ((s.flitCounted n f).updQp n (·.takeAck f.ackSeq)).giveQp n []

section Flits
variable {f : Flit} (hup : (s.qp n).st = 2)
include hup

theorem flitReceive_bad (hbad : f.good = false ∨ f.fecUe ≠ 0) : exec (.flitReceive n f) s = .next ((s.flitCounted n f).sendNak n) := by
  have hdrop : (!f.good || decide (f.fecUe ≠ 0)) = true := by simpa using hbad
  show execFlitReceive n f s = _
  simp only [execFlitReceive, hup, hdrop, ne_eq, not_true_eq_false, if_false, if_true, flitCounted, Bool.and_eq_true, decide_eq_true_eq]

section Good
variable (hgood : f.good = true) (hclean : f.fecUe = 0)
include hgood hclean

theorem flitReceive_control (hkind : f.fkind ≠ 0) : exec (.flitReceive n f) s = .next (s.flitAcked n f) := by
  show execFlitReceive n f s = _
  simp only [execFlitReceive, flitAcked, flitCounted, hup, hgood, hclean, hkind, ne_eq, not_true_eq_false, not_false_eq_true, decide_false, Bool.not_true,
    Bool.or_self, Bool.false_eq_true, if_false, if_true, Bool.and_true, and_true, decide_eq_true_eq]

theorem flitReceive_expected (hkind : f.fkind = 0) (hseq : f.fseq = (s.qp n).fseqRx) :
    let v := (s.flitAcked n f).updQp n fun x => { x with fseqRx := x.fseqRx + 1, discarding := false, nakSent := 0 }
    exec (.flitReceive n f) s = .next (if 6 ≤ f.vl.toNat then v.dropPkt n else v) := by
  intro v
  show execFlitReceive n f s = _
  simp only [execFlitReceive, v, flitAcked, flitCounted, hup, hgood, hclean, hkind, hseq, ne_eq, not_true_eq_false, decide_false, Bool.not_true, Bool.or_self,
    Bool.false_eq_true, if_false, if_true, Bool.and_true, and_true, decide_eq_true_eq]

theorem flitReceive_outOfSequence (hkind : f.fkind = 0) (hseq : f.fseq ≠ (s.qp n).fseqRx) :
    exec (.flitReceive n f) s = .next (if (s.qp n).discarding then s.flitAcked n f else (s.flitAcked n f).sendNak n) := by
  show execFlitReceive n f s = _
  simp only [execFlitReceive, flitAcked, flitCounted, hup, hgood, hclean, hkind, hseq, ne_eq, not_true_eq_false, decide_false, Bool.not_true, Bool.or_self,
    Bool.false_eq_true, if_false, Bool.and_true, and_true, decide_eq_true_eq]

end Good

/-! ## NAKs, silence and acknowledgements (R352, R359) -/

theorem nak_replays (q : BitVec 12) (t : W64) :
    let r := if q = (s.qp n).nakFseq ∧ (s.qp n).nakRun ≠ 0 then (s.qp n).nakRun + 1 else 1
    let w := s.wakeL2 1 (BitVec.ofNat 6 n.val)
    let e := if (s.qp n).bufUe then (w.updQp n fun x => { x with bufUe := false }).notePort 8 (BitVec.ofNat 8 (n.val / 12)) n.val (ptnMask ((s.qp n).flight.map (·.srcPtn))) else w
    let v := (e.updQp n fun x => { x.ackTo (q - 1) with retryEvents := satInc x.retryEvents, nakFseq := q, nakRun := r }).giveQp n []
    exec (.nak n q t) s = .next (if 8 ≤ r then v.qpDown n 2 (some t) else v) := by
  intro r w e v
  show execNak n q t s = _
  simp only [execNak, r, w, e, v, hup, ne_eq, not_true_eq_false, if_false, Bool.and_eq_true, decide_eq_true_eq, ge_iff_le]

theorem qoreaSilentTimeout_outstanding (hout : (s.qp n).outstanding = true) (t : W64) :
    exec (.qoreaSilentTimeout n t) s = .next (s.qpDown n 3 (some t)) := by
  show execQoreaSilentTimeout n t s = _
  simp only [execQoreaSilentTimeout, hup, hout, decide_true, Bool.and_self, if_true]

theorem ack_returnsCredit (p : PtnId) (cls : Fin 4) (num : W64) : exec (.ack n p cls num) s = .next (((s.updQp n fun x => { x with
    flight := dropFirst (fun k => k.srcPtn = p && k.pktNum = num && (vlClass k.vl = some cls.val || vlClass k.vl = none)) x.flight }).giveQp n []).finishOuts p) := by
  show execAck n p cls num s = _
  simp only [execAck, hup, ne_eq, not_true_eq_false, if_false]

end Flits

/-! ## Training (R353, R354, R364) -/

section Training
variable (htrains : (s.qp n).st = 1)
include htrains

theorem linkTrained_unset (hnode : s.mod.node = 0x1FFF) (peer : BitVec 13) :
    exec (.linkTrained n peer) s = .next (s.updQp n fun x => { x with atStep4 := true }) := by
  show execLinkTrained n peer s = _
  simp only [execLinkTrained, htrains, hnode, ne_eq, not_true_eq_false, if_false, if_true]

theorem linkTrained_up (hnode : s.mod.node ≠ 0x1FFF) (peer : BitVec 13) :
    exec (.linkTrained n peer) s = .next ((s.updQp n fun x => { x with
      st := 2, peer := peer, downCause := 0, attempts := 0, atStep4 := false, fseqTx := 0, fseqRx := 0, acked := 0xFFF }).takeMen) := by
  show execLinkTrained n peer s = _
  simp only [execLinkTrained, htrains, hnode, ne_eq, not_true_eq_false, if_false]

section Steps
variable {lanes : BitVec 8} (hstep : (s.qp n).atStep4 = false)
include hstep

theorem trainingStep_again (hfew : (s.qp n).attempts < 2) :
    exec (.trainingStepTimeout n lanes) s = .next (s.updQp n fun x => { x with attempts := x.attempts + 1 }) := by
  show execTrainingStepTimeout n lanes s = _
  simp only [execTrainingStepTimeout, htrains, hstep, hfew, ne_eq, not_true_eq_false, decide_false, Bool.or_self, Bool.false_eq_true, if_false, if_true]

/-- After three attempts the port halves its lanes if it may and half of them work, and is down otherwise. -/
theorem trainingStep_last (hmany : 2 ≤ (s.qp n).attempts) :
    let low := decide (lanes.toNat % 16 = 15)
    let high := decide (lanes.toNat / 16 = 15)
    exec (.trainingStepTimeout n lanes) s = .next (if (s.qp n).degradeEn && !(s.qp n).half && (low || high)
      then s.updQp n fun x => { x with attempts := x.attempts + 1, half := true, laneSet := !low } else s.updQp n (·.retrain 0 1)) := by
  intro low high
  show execTrainingStepTimeout n lanes s = _
  simp only [execTrainingStepTimeout, low, high, htrains, hstep, Nat.not_lt.mpr hmany, ne_eq, not_true_eq_false, decide_false, Bool.or_self, Bool.false_eq_true,
    if_false]

end Steps
end Training
end Port
end State
end Sys2Proof.Machine

/-! ## The statement -/

section
open Sys2Proof Sys2Proof.Machine

/-- Settles O47: one law for each kind of flit and for each other event of a port. -/
theorem qoreaPorts : Obligations.QoreaPorts := by
  intro s n
  refine ⟨?flit, ?nak, ?silence, ?steps, ?trained, ?ack⟩
  case flit =>
    intro hup f w c a run
    refine ⟨State.flitReceive_bad hup, fun hgood hclean => ⟨State.flitReceive_control hup hgood hclean, ?_, ?_⟩⟩
    · exact State.flitReceive_expected hup hgood hclean
    · exact State.flitReceive_outOfSequence hup hgood hclean
  case nak => exact State.nak_replays
  case silence => exact State.qoreaSilentTimeout_outstanding
  case steps =>
    intro htrains hstep lanes low high
    refine ⟨State.trainingStep_again htrains hstep, fun hmany hdegrade hhalf hlanes => ?_, fun hmany hfails => ?_⟩
    · rw [State.trainingStep_last htrains hstep hmany, if_pos]
      simpa [hdegrade, hhalf, low, high] using hlanes
    · rw [State.trainingStep_last htrains hstep hmany, if_neg]
      rcases hfails with h | h | ⟨hlow, hhigh⟩
      · simp [h]
      · simp [h]
      · simp [show decide (lanes.toNat % 16 = 15) = false from hlow, show decide (lanes.toNat / 16 = 15) = false from hhigh]
  case trained => exact fun htrains peer => ⟨fun hnode => State.linkTrained_unset htrains hnode peer, fun hnode => State.linkTrained_up htrains hnode peer⟩
  case ack => exact State.ack_returnsCredit

end
end

section
/-! PROOFS. Commands on routes and groups: what each does once it starts and its acceptance checks pass, what the timeout of a group does, and the statement that follows (R367, R370 to R373, R384, R385). -/

namespace Sys2Proof.Machine

/-! ## ROUTE_SET (R367) -/

theorem routeSet_sets {s u : State} {h : Hdr} {m : W64} {first n : W16} {v : Byte} (hu : s.runsNow h 0x503 = some u) (hn : n ≠ 0)
    (hrange : first.toNat + n.toNat ≤ 8191) : let k : BitVec 8192 := BitVec.ofNat 8192 ((2 ^ n.toNat - 1) <<< first.toNat)
    exec (.routeSet h m first n v) s = .next (((qpIds.filter fun q => bitAt m.toNat q.val).foldl (fun z q => z.updQp q fun x => { x with
      routes := if v = 0 then x.routes &&& ~~~k else x.routes ||| k }) u).replied h [doneItem] []) := by
  intro k
  have hvalid : ¬(decide (n = 0) || decide (first.toNat + n.toNat > 8191)) = true := by
    simp only [hn, Nat.not_lt.mpr hrange, decide_false, Bool.or_self, Bool.false_eq_true, not_false_eq_true]
  exact congrArg _ (atOnce_replied hu (if_neg hvalid))

/-! ## GROUP_SET (R370 to R372) -/

section GroupSet
variable {s u : State} {h : Hdr} {g : GroupBlock}
variable (hu : s.startsNow h 0x501 (.groupSet h g) = some u) (hcheck : u.startCheck h (.groupSet h g) = none) (hvalid : groupBad u h.ptn g = false)
include hu hcheck hvalid

theorem groupSet_adds (hnew : (u.ptn h.ptn).group? g.group = none) (hroom : (u.ptn h.ptn).groups.length < 16)
    (herg : (u.ptn h.ptn).ergFits (4 * 2 ^ g.bucketLog2.toNat) = true) :
    exec (.groupSet h g) s = .next ((((u.updPtn h.ptn fun y => { y with groups := y.groups ++ [{ block := g, epoch := g.epoch, maxEpoch := g.epoch }] }).updPtn h.ptn
      (·.trim 0)).joinNow h.ptn g.group).finished h doneItem []) := by
  refine congrArg _ (queuedDone_finished hu hcheck ?_)
  simp only [hvalid, hnew, Nat.not_le.mpr hroom, herg, Bool.not_true, Bool.false_eq_true, if_false]

section Held
variable {y : Group} (hheld : (u.ptn h.ptn).group? g.group = some y)
include hheld

theorem groupSet_same (hsame : g = y.block) : exec (.groupSet h g) s = .next (u.finished h doneItem []) := by
  refine congrArg _ (queuedDone_finished hu hcheck ?_)
  simp only [hvalid, hheld, Bool.false_eq_true, if_false]
  rw [if_pos hsame]

variable (hother : g ≠ y.block)
include hother

theorem groupSet_oldEpoch (hold : g.epoch.toNat ≤ y.epoch.toNat) : exec (.groupSet h g) s = .next (u.reject h 0x501 St.eParam) := by
  refine congrArg _ (queuedDone_rejected hu hcheck ?_)
  simp only [hvalid, hheld, hother, hold, Bool.false_eq_true, if_false, if_true]

theorem groupSet_openRound (hlater : y.epoch.toNat < g.epoch.toNat) (hopen : y.rounds ≠ []) : exec (.groupSet h g) s = .next (u.reject h 0x501 St.eBusy) := by
  have hsome : y.rounds.isEmpty = false := List.isEmpty_eq_false_iff.mpr hopen
  refine congrArg _ (queuedDone_rejected hu hcheck ?_)
  simp only [hvalid, hheld, hother, Nat.not_le.mpr hlater, hsome, Bool.not_false, Bool.false_eq_true, if_false, if_true]

theorem groupSet_reforms (hlater : y.epoch.toNat < g.epoch.toNat) (hclosed : y.rounds = [])
    (herg : (u.ptn h.ptn).ergFits (4 * 2 ^ g.bucketLog2.toNat - 4 * 2 ^ y.block.bucketLog2.toNat) = true) :
    exec (.groupSet h g) s = .next ((((u.updGroup h.ptn g.group fun y => { y with
      block := g, epoch := g.epoch, joined := [], heldExps := [], absents := [], opened := 0, newEpoch := decide (y.maxEpoch.toNat < g.epoch.toNat)
      maxEpoch := if y.maxEpoch.toNat < g.epoch.toNat then g.epoch else y.maxEpoch, st := if y.st = .restoring then .restoring else .forming }).updPtn h.ptn
      (·.trim 0)).joinNow h.ptn g.group).finished h doneItem []) := by
  refine congrArg _ (queuedDone_finished hu hcheck ?_)
  simp only [hvalid, hheld, hother, Nat.not_le.mpr hlater, hclosed, herg, List.isEmpty_nil, Bool.not_true, Bool.false_eq_true, if_false]

end Held
end GroupSet

/-! ## GROUP_LEAVE (R371) -/

section GroupLeave
variable {s u : State} {h : Hdr} {g : W32} {y : Group}
variable (hu : s.startsNow h 0x502 (.groupLeave h g) = some u) (hcheck : u.startCheck h (.groupLeave h g) = none)
  (hheld : (u.ptn h.ptn).group? g = some y)
include hu hcheck hheld

theorem groupLeave_removes (hclosed : y.rounds = []) (hnone : y.waiting = []) :
    exec (.groupLeave h g) s = .next ((u.updPtn h.ptn fun x => { x with groups := x.groups.filter fun z => z.block.group ≠ g }).finished h doneItem []) := by
  refine congrArg _ (queuedDone_finished hu hcheck ?_)
  simp only [hheld, hclosed, hnone, List.isEmpty_nil, Bool.not_true, Bool.false_eq_true, if_false, List.foldl_nil]

theorem groupLeave_openRound (hopen : y.rounds ≠ []) : exec (.groupLeave h g) s = .next (u.reject h 0x502 St.eBusy) := by
  have hsome : y.rounds.isEmpty = false := List.isEmpty_eq_false_iff.mpr hopen
  refine congrArg _ (queuedDone_rejected hu hcheck ?_)
  simp only [hheld, hsome, Bool.not_false, if_true]

end GroupLeave

/-! ## REDUCE and the timeout of a group (R373, R384, R385) -/

section Reduce
variable {s u : State} {h : Hdr} {g : W32} {half : Bool} {n src dst : W64} {y : Group} {c : CmdRec}

/-- The item of a REDUCE goes as the state of its group has it. -/
def State.startReduce (z : State) (h : Hdr) (g : W32) (y : Group) (c : CmdRec) : State :=
  match y.st with
  | .active => z.openReduce h.ptn y c.hdr
  | .forming => z.updGroup h.ptn g fun y => { y with waiting := y.waiting ++ [(c.hdr, 0)] }
  | .restoring => z.closeItem h 0 (some St.eBusy)

theorem reduce_starts (hu : s.startsNow h 0x504 (.reduce h g half n src dst) = some u) (hn : n ≠ 0) (hmax : n.toNat ≤ 2 ^ 32)
    (hgroup : ((u.ptn h.ptn).group? g).isSome = true) (hheld : ((u.open' h 1).ptn h.ptn).group? g = some y) (hc : (u.open' h 1).cmdOf h = some c) :
    exec (.reduce h g half n src dst) s = .next (((u.open' h 1).startReduce h g y c).settle h) := by
  have hnone : ((u.ptn h.ptn).group? g).isNone = false := by rw [Option.isNone_eq_false_iff]; exact hgroup
  have hvalid : ¬(decide (n = 0) || decide (n.toNat > 2 ^ 32) || ((u.ptn h.ptn).group? g).isNone) = true := by
    simp only [hn, Nat.not_lt.mpr hmax, hnone, decide_false, Bool.or_self, Bool.false_eq_true, not_false_eq_true]
  refine congrArg _ ((queued_passed hu (if_neg hvalid)).trans (congrArg (State.settle · h) ?_))
  simp only [hheld, hc]
  rfl

end Reduce

section Timeout
variable {s : State} {p : PtnId} {id : W32} {g : Group} (hheld : (s.ptn p).group? id = some g)
include hheld

theorem groupTimeout_forming (hst : g.st = .forming) : exec (.groupTimeout p id) s =
    .next (g.waiting.foldl (fun z w => z.endUpdate p w.1 w.2 none 0 (some St.eIncomplete)) (s.updGroup p id fun y => { y with waiting := [] })) := by
  show execGroupTimeout p id s = _
  simp only [execGroupTimeout, hheld, hst, if_true]

theorem groupTimeout_openRound (hst : g.st = .active) (hopen : g.rounds ≠ []) : exec (.groupTimeout p id) s = .next (s.abortGroup p g) := by
  have hsome : g.rounds.isEmpty = false := List.isEmpty_eq_false_iff.mpr hopen
  show execGroupTimeout p id s = _
  simp only [execGroupTimeout, hheld, hst, hsome, reduceCtorEq, decide_true, Bool.not_false, Bool.and_self, if_true, if_false]

theorem groupTimeout_quiet (hquiet : g.st = .restoring ∨ g.st = .active ∧ g.rounds = []) : exec (.groupTimeout p id) s = .next s := by
  show execGroupTimeout p id s = _
  rcases hquiet with hst | ⟨hst, hclosed⟩
  · simp only [execGroupTimeout, hheld, hst, reduceCtorEq, decide_false, Bool.false_and, Bool.false_eq_true, if_false]
  · simp only [execGroupTimeout, hheld, hst, hclosed, reduceCtorEq, List.isEmpty_nil, Bool.not_true, Bool.and_false, Bool.false_eq_true, if_false]

end Timeout
end Sys2Proof.Machine

/-! ## The statement -/

section
open Sys2Proof Sys2Proof.Machine

/-- Settles O49: each clause is the outcome of a command that starts, or of the timeout. -/
theorem groupCommands : Obligations.GroupCommands := by
  refine ⟨?route, ?set, ?leave, ?reduce, ?timeout⟩
  case route => exact fun s u h m first n v hu hn hrange => routeSet_sets hu hn hrange
  case set =>
    intro s u h g hu hcheck hvalid x
    refine ⟨groupSet_adds hu hcheck hvalid, fun y hheld => ⟨groupSet_same hu hcheck hvalid hheld, ?_, ?_, ?_⟩⟩
    · exact groupSet_oldEpoch hu hcheck hvalid hheld
    · exact groupSet_openRound hu hcheck hvalid hheld
    · exact groupSet_reforms hu hcheck hvalid hheld
  case leave => exact fun s u h g hu hcheck y hheld => ⟨groupLeave_removes hu hcheck hheld, groupLeave_openRound hu hcheck hheld⟩
  case reduce =>
    intro s u h g half n src dst hu hn hmax hgroup z y c hheld hc
    rw [reduce_starts hu hn hmax hgroup hheld hc, State.startReduce]
    exact ⟨fun hst => by rw [hst], fun hst => by rw [hst], fun hst => by rw [hst]⟩
  case timeout => exact fun s p id g hheld => ⟨groupTimeout_forming hheld, groupTimeout_openRound hheld, groupTimeout_quiet hheld⟩

end
end

section
/-! PROOFS. Packets and rounds of a group: what each packet of a member does, what one of another epoch does, the close of a bucket, the bound of a member's integers, and the statement that follows (R366, R369, R373, R376, R377, R379, R380, R383, R384, R413, R428). -/

namespace Sys2Proof.Machine

/-! ## Which packets are taken (R366, R369, R373) -/

section Taken
variable {s : State} {n : QpId} {h : QHdr} {g : GHdr} {y : Group} {m : Nat}

theorem fromMember_some (hm : s.fromMember n h g = some (y, m)) :
    (s.qp n).st = 2 ∧ (s.ptn h.dstPtn).group? g.group = some y ∧ g.epoch = y.epoch ∧ y.member? h.srcNode h.srcPtn = some m := by
  unfold State.fromMember at hm
  split at hm
  next y' hy =>
    split at hm
    next hup =>
      obtain ⟨m', hm', heq⟩ := Option.map_eq_some_iff.mp hm
      cases heq
      simp only [Bool.and_eq_true, decide_eq_true_eq] at hup
      exact ⟨hup.1, hy, hup.2, hm'⟩
    next => cases hm
  next => cases hm

/-- A packet of a member that waits for nothing does its own work and is acknowledged. -/
theorem onGroup_member {f : State → Group → Nat → State} {wait : Bool} (hm : s.fromMember n h g = some (y, m)) (hwait : wait = false) :
    s.onGroup n h g wait f = .next ((f s y m).ackPkt n h) := by
  obtain ⟨hup, hy, hepoch, hmember⟩ := fromMember_some hm
  simp only [State.onGroup, onQp_up hup hwait, hy, hepoch, hmember, ne_eq, not_true_eq_false, if_false]

/-- A packet of another epoch is dropped and counted, whatever it carries. -/
theorem onGroup_stale {f : State → Group → Nat → State} (hup : (s.qp n).st = 2) (hy : (s.ptn h.dstPtn).group? g.group = some y) (hepoch : g.epoch ≠ y.epoch) :
    s.onGroup n h g false f = .next (((s.dropPkt n).updGroup h.dstPtn g.group fun y => { y with stale := satInc y.stale }).ackPkt n h) := by
  simp only [State.onGroup, onQp_up hup rfl, hy, hepoch, if_true, ne_eq, not_false_eq_true]

variable {z : Group} {r : Round}

theorem inOpen_some (ho : s.inOpen h g = some (z, r)) : s.round? h.dstPtn g.group g.round = some (z, r) ∧ pktTag h ∉ r.seen := by
  unfold State.inOpen at ho
  split at ho
  next z' r' hr =>
    split at ho
    next => cases ho
    next hseen => cases ho; exact ⟨hr, fun hin => hseen (decide_eq_true hin)⟩
  next => cases ho

theorem inRound_open {f : State → Group → Round → State} (ho : s.inOpen h g = some (z, r)) : s.inRound h g f = f (s.noted h g) z r := by
  obtain ⟨hr, hseen⟩ := inOpen_some ho
  simp only [State.inRound, hr, hseen, decide_false, Bool.false_eq_true, if_false]
  rfl

theorem paramWaits_served (ho : s.inOpen h g = some (z, r)) (hserved : s.roundWaits h.dstPtn r = false) : s.paramWaits h g = false := by
  simp only [State.paramWaits, (inOpen_some ho).1, hserved, Bool.and_false]

end Taken

/-! ## JOIN, ABORT and EXP of a later round (R373, R384, R413) -/

section Members
variable {s : State} {n : QpId} {h : QHdr} {g : GHdr} {y : Group} {m : Nat} (hm : s.fromMember n h g = some (y, m))
include hm

theorem join_forming (hst : y.st = .forming) (t : W64) : let z := if m ∈ y.joined then s else s.answerJoin h.dstPtn y m
    exec (.join n h g t) s = .next (((z.updGroup h.dstPtn g.group fun y => { y with joined := if m ∈ y.joined then y.joined else y.joined ++ [m] }).tryActive
      h.dstPtn g.group).ackPkt n h) := by
  intro z
  simp only [exec, execJoin, onGroup_member hm rfl, hst, z, decide_true, Bool.true_or, Bool.not_true, Bool.or_false, decide_eq_true_eq]

theorem exp_held {b : Nat} {e : BitVec 16} {nf : Bool} (hst : y.st = .active) (hlater : y.opened.toNat < g.round.toNat)
    (hnew : (y.heldExps.any fun x => x.1 = g.round && x.2.1 = b && x.2.2.1 = m) = false) :
    exec (.exp n h g b e nf) s = .next ((s.updGroup h.dstPtn g.group fun y => { y with heldExps := y.heldExps ++ [(g.round, b, m, e, nf)] }).ackPkt n h) := by
  simp only [exec, execExp, onGroup_member hm rfl, hst, hlater, hnew, decide_true, Bool.and_self, if_true, Bool.false_eq_true, if_false]

theorem abort_restores : exec (.abort n h g) s = .next ((s.abortGroup h.dstPtn y).ackPkt n h) := by
  simp only [exec, execAbort, onGroup_member hm rfl]

/-! ## Packets of an open round (R376, R377, R379, R380) -/

section Open
variable {z : Group} {r : Round} (ho : s.inOpen h g = some (z, r))
include ho

theorem exp_adds {b : Nat} {e : BitVec 16} {nf : Bool} (hround : y.st ≠ .active ∨ g.round.toNat ≤ y.opened.toNat) (hown : z.owns b = true) :
    exec (.exp n h g b e nf) s = .next (((s.noted h g).addExp h.dstPtn g.group g.round b m e nf).ackPkt n h) := by
  have hnow : (decide (y.st = .active) && decide (y.opened.toNat < g.round.toNat)) = false := by
    rcases hround with hst | hle
    · rw [decide_eq_false hst, Bool.false_and]
    · rw [decide_eq_false (Nat.not_lt.mpr hle), Bool.and_false]
  simp only [exec, execExp, onGroup_member hm rfl, hnow, Bool.false_eq_true, if_false, inRound_open ho, hown, if_true]

theorem scale_converts {b : Nat} {f : BitVec 16} {k : BitVec 2} {bk : Bucket} (hfrom : b % z.n = m) (hb : r.buckets[b]? = some bk) (hscale : bk.scale = none) :
    exec (.scale n h g b f k) s = .next (((s.noted h g).memberScale h.dstPtn g.group g.round b f k).ackPkt n h) := by
  simp only [exec, execScale, onGroup_member hm rfl, inRound_open ho, hfrom, hb, hscale, Option.isSome_none, decide_true, Bool.not_false, Bool.and_self, if_true]

theorem grad_adds {b : Nat} {xs : List W32} (hown : z.owns b = true) :
    exec (.grad n h g b xs) s = .next (((s.noted h g).addGrad h.dstPtn g.group g.round b m h.offset.toNat xs).ackPkt n h) := by
  simp only [exec, execGrad, onGroup_member hm rfl, inRound_open ho, hown, if_true]

end Open
end Members

/-- PARAM of this round brings binary16 patterns. -/
def Round.halfParams (r : Round) (z : Group) : Bool := match r.work with | .update _ _ _ _ _ => z.block.pformat | .reduce x _ _ _ => x

/-- Parameters as the member stores them: those of an update are held as binary32 patterns. -/
def Round.paramsIn (r : Round) (z : Group) (xs : List W32) : List W32 :=
  if !r.work.isReduce && r.halfParams z then xs.map fun v => BitVec.ofNat 32 (b32.round (b16.decode (v.toNat % 2 ^ 16))).1 else xs

theorem param_writes {s : State} {n : QpId} {h : QHdr} {g : GHdr} {y z : Group} {m b : Nat} {r : Round} (hm : s.fromMember n h g = some (y, m))
    (ho : s.inOpen h g = some (z, r)) (hfrom : b % z.n = m) (hserved : s.roundWaits h.dstPtn r = false) (xs : List W32) :
    exec (.param n h g b xs) s = .next (((s.noted h g).memberParam h.dstPtn g.group g.round b
      (h.offset.toNat / (if r.halfParams z then 2 else 4)) (r.paramsIn z xs)).ackPkt n h) := by
  simp only [exec, execParam, onGroup_member hm (paramWaits_served ho hserved), inRound_open ho, hfrom, if_true, Round.halfParams, Round.paramsIn, RoundWork.isReduce]
  rcases r with ⟨num, hdr, item, _ | _, rest⟩ <;> rfl

/-! ## ABSENT (R383) -/

section Absent
variable {s : State} {n : QpId} {h : QHdr} {g : GHdr} {y : Group} {m : Nat} {r : Round}
variable (hm : s.fromMember n h g = some (y, m)) (hr : (y.rounds.find? fun r => r.num = g.round) = some r)
include hm hr

/-- The round leaves the group, which counts it. -/
def State.roundAbsent (s : State) (h : QHdr) (g : GHdr) : State :=
  s.updGroup h.dstPtn g.group fun y => { y with rounds := y.rounds.filter fun q => q.num ≠ g.round, aborts := satInc y.aborts }

theorem absent_reduce {o : Bool} {e src dst : Nat} (hwork : r.work = .reduce o e src dst) :
    exec (.absent n h g) s = .next (((s.roundAbsent h g).endUpdate h.dstPtn r.hdr r.item none 0 (some St.eIncomplete)).ackPkt n h) := by
  simp only [exec, execAbsent, onGroup_member hm rfl, hr, hwork]
  rfl

theorem absent_update {k i : Nat} {a : Bool} {o : Opt} {gr : List W32} (hwork : r.work = .update k i a o gr) :
    exec (.absent n h g) s = .next ((((s.roundAbsent h g).updPtn h.dstPtn fun x => x.updSet k i fun w => { w with writing := false }).endUpdate
      h.dstPtn r.hdr r.item (some i) 0 (some St.eIncomplete)).ackPkt n h) := by
  simp only [exec, execAbsent, onGroup_member hm rfl, hr, hwork]
  rfl

end Absent

/-! ## BUCKET_CLOSE (R376, R380, R428) -/

section Close
variable {s : State} {p : PtnId} {id : W32} {b : Nat} {g : Group} {r : Round} {k : Bucket}
variable (hg : (s.ptn p).group? id = some g) (hown : g.owns b = true) (hr : g.rounds.find? (State.closable g b) = some r) (hk : r.buckets[b]? = some k)
  (hrun : (s.job p r.hdr.queue).st = .running) (hserved : s.roundWaits p r = false)
include hg hown hr hk hrun hserved

theorem bucketClose_works (hout : k.out = none) : exec (.bucketClose p id b) s = .next ((s.closeBucket p g r b k).setScales p id) := by
  show execBucketClose p id b s = _
  simp only [execBucketClose, hg, hown, hr, hk, hrun, hserved, hout, Bool.not_true, Bool.false_eq_true, if_false, ne_eq, not_true_eq_false, decide_false, Bool.or_self]

variable {out : List W32} (hout : k.out = some out)
include hout

theorem bucketClose_reduced (hwork : r.work.isReduce = true) : exec (.bucketClose p id b) s = .next (s.sendParam p g r b out) := by
  show execBucketClose p id b s = _
  simp only [execBucketClose, hg, hown, hr, hk, hrun, hserved, hout, Bool.not_true, Bool.false_eq_true, if_false, ne_eq, not_true_eq_false, decide_false, Bool.or_self]
  cases hw : r.work with
  | update => rw [hw] at hwork; cases hwork
  | reduce => rfl

theorem bucketClose_updated (hwork : r.work.isReduce = false) {c : CmdRec} (hc : s.cmdOf r.hdr = some c) : let it := c.items.getD r.item {}
    exec (.bucketClose p id b) s = .next (if it.suspect then s.failRound p g r St.eHwFault else if it.units = [] then s.sendParam p g r b out else s) := by
  intro it
  have hempty : (!(c.items.getD r.item {}).units.isEmpty) = true ↔ ¬(c.items.getD r.item {}).units = [] := by simp
  show execBucketClose p id b s = _
  simp only [execBucketClose, hg, hown, hr, hk, hrun, hserved, hout, hc, Bool.not_true, Bool.false_eq_true, if_false, ne_eq, not_true_eq_false, decide_false, Bool.or_self]
  cases hw : r.work with
  | update => simp only [it, hempty, ite_not]
  | reduce => rw [hw] at hwork; cases hwork

end Close

/-! ## The integers of a reduction (R377) -/

theorem le_two_pow_clog (n : Nat) : n ≤ 2 ^ clog n := by
  unfold clog
  split
  next h => exact h
  next h => have := Nat.lt_log2_self (n := n - 1); omega

theorem clog_le {n : Nat} (hn : n ≤ 4096) : clog n ≤ 12 := by
  unfold clog
  split
  next => exact Nat.zero_le _
  next h => exact (Nat.log2_lt (by omega)).mpr (by omega)

/-- A number held between two bounds of 32 bits keeps them as a signed word. -/
theorem toInt_clamped {lim : Int} (h0 : 0 ≤ lim) (h31 : lim < 2 ^ 31) (i : Int) :
    (BitVec.ofInt 32 (max (-lim) (min lim i))).toInt ≤ lim ∧ -lim ≤ (BitVec.ofInt 32 (max (-lim) (min lim i))).toInt := by
  have hexact : (BitVec.ofInt 32 (max (-lim) (min lim i))).toInt = max (-lim) (min lim i) := by
    rw [BitVec.toInt_ofInt]
    exact Int.bmod_eq_of_le (by omega) (by omega)
  rw [hexact]
  omega

theorem quant_bounds {n : Nat} (hpos : 0 < n) (hn : n ≤ 4096) (f : BitVec 16) (x : W32) :
    (quant n f x).toInt ≤ 2 ^ (31 - clog n) - 1 ∧ -(2 ^ (31 - clog n) - 1) ≤ (quant n f x).toInt ∧ (n : Int) * (2 ^ (31 - clog n) - 1) < 2 ^ 31 := by
  have hpow : (2 : Int) ^ clog n * 2 ^ (31 - clog n) = 2 ^ 31 := by
    rw [← pow_add, Nat.add_sub_cancel' ((clog_le hn).trans (by decide))]
  have hle : (n : Int) ≤ 2 ^ clog n := by exact_mod_cast le_two_pow_clog n
  have hone : (1 : Int) ≤ 2 ^ (31 - clog n) := one_le_pow₀ (by decide)
  have htop : (2 : Int) ^ (31 - clog n) ≤ 2 ^ 31 := pow_le_pow_right₀ (by decide) (Nat.sub_le _ _)
  have hsum : (n : Int) * 2 ^ (31 - clog n) ≤ 2 ^ 31 := hpow ▸ mul_le_mul_of_nonneg_right hle (by omega)
  obtain ⟨hhi, hlo⟩ := toInt_clamped (lim := 2 ^ (31 - clog n) - 1) (by omega) (by omega) ((b32.decode x.toNat).scale f.toInt).nearestInt
  refine ⟨hhi, hlo, ?_⟩
  rw [mul_sub, mul_one]
  omega

end Sys2Proof.Machine

/-! ## The statement -/

section
open Sys2Proof Sys2Proof.Machine

/-- Settles O50: one law for each packet of a member, for a stale one and for the close of a bucket, and the bound of the integers. -/
theorem groupPackets : Obligations.GroupPackets := by
  refine ⟨?members, ?stale, ?close, ?bound⟩
  case members =>
    intro s n h g y m hm p
    refine ⟨join_forming hm, fun b e nf => exp_held hm, abort_restores hm, fun z r ho => ?_, fun r hr => ?_⟩
    · exact ⟨fun b e nf => exp_adds hm ho, fun b f k bk => scale_converts hm ho, fun b xs => grad_adds hm ho, fun b xs hfrom hserved => param_writes hm ho hfrom hserved xs⟩
    · exact ⟨fun o e src dst => absent_reduce hm hr, fun k i a o gr => absent_update hm hr⟩
  case stale =>
    intro s n h g y t hup hy hepoch v
    refine ⟨?_, ?_, ?_, fun b xs => ?_⟩
    · simp only [exec, execJoin, onGroup_stale hup hy hepoch, v]
    · simp only [exec, execAbort, onGroup_stale hup hy hepoch, v]
    · simp only [exec, execAbsent, onGroup_stale hup hy hepoch, v]
    · simp only [exec, execGrad, onGroup_stale hup hy hepoch, v]
  case close =>
    intro s p id b g r k hg hown hr hk hrun hserved
    refine ⟨bucketClose_works hg hown hr hk hrun hserved, fun out hout => ⟨bucketClose_reduced hg hown hr hk hrun hserved hout, fun hwork c hc => ?_⟩⟩
    exact bucketClose_updated hg hown hr hk hrun hserved hout hwork hc
  case bound => exact fun n f x hpos hn => quant_bounds hpos hn f x

end
end

section
/-! PROOFS. Packets of the Fixer: what each does for the role, the copy, the restore, the HELLO or the shipment that it belongs to, and without one, and the statement that follows (R366, R369, R392, R400, R401, R403, R404, R406 to R408, R411, R415). -/

namespace Sys2Proof.Machine

/-- Bytes of half the area of a role, which HELLO's answer offers; none without a role. -/
def halfOffered (role : Option AreaRole) : Nat := match role with | some a => a.bytes / 2 | none => 0

section Packets
variable {s : State} {n : QpId} {h : QHdr} (hup : (s.qp n).st = 2)

/-! ## The receiver's roles (R400, R408, R415) -/

section Roles
variable {hold : Bool} {a : AreaRole}

theorem roleWaits_unnamed (hrole : roleOf ((s.ptn h.dstPtn).fix.role hold) h = none) : s.roleWaits h hold = false := by rw [State.roleWaits, hrole]

theorem roleWaits_served (hrole : roleOf ((s.ptn h.dstPtn).fix.role hold) h = some a)
    (hslot : s.noSlot h.dstPtn (State.roleRoom hold (a.start h.xfer)).1 1 = false) : s.roleWaits h hold = false := by
  simp only [State.roleWaits, hrole, hslot, Bool.and_false]

/-- Bytes that no role provides for are dropped. -/
theorem roleData_named (bs : List Byte) : s.roleData n h hold bs = if roleOf ((s.ptn h.dstPtn).fix.role hold) h = none then s.dropPkt n else s.roleData n h hold bs := by
  split
  next hrole => rw [State.roleData, hrole]
  next => rfl

theorem roleFin_unnamed (hrole : roleOf ((s.ptn h.dstPtn).fix.role hold) h = none) (num : W32) (total : Nat) (d : List Byte) :
    s.roleFin n h hold num total d =
      (s.fixSend h.dstPtn (replyTo none h) (if hold then 0x22 else 0x29) h.xfer 0 true (State.ackBody hold num 3 [])).1 := by
  rw [State.roleFin, hrole]

theorem roleFin_named (hrole : roleOf ((s.ptn h.dstPtn).fix.role hold) h = some a) (hnew : pktTag h ∉ (a.start h.xfer).seen) (num : W32) (total : Nat) (d : List Byte) :
    let z := a.start h.xfer
    let r := s.roleSize h.dstPtn n hold { z with seen := z.seen ++ [pktTag h], fin := some d } total
    s.roleFin n h hold num total d = r.1.roleEnd h.dstPtn hold r.2 := by
  simp only [State.roleFin, hrole, hnew, decide_false, Bool.false_eq_true, if_false]

include hup

theorem ckData_taken (hwait : s.roleWaits h true = false) (bs : List Byte) :
    exec (.ckData n h bs) s = .next (State.ackPkt (if roleOf (s.ptn h.dstPtn).fix.hold h = none then s.dropPkt n else s.roleData n h true bs) n h) := by
  simp only [exec, execCkData, onQp_up hup hwait]
  exact congrArg (fun v => Host.Outcome.next (State.ackPkt v n h)) (roleData_named bs)

theorem negData_taken (hwait : s.roleWaits h false = false) (bs : List Byte) :
    exec (.negData n h bs) s = .next (State.ackPkt (if roleOf (s.ptn h.dstPtn).fix.neg h = none then s.dropPkt n else s.roleData n h false bs) n h) := by
  simp only [exec, execNegData, onQp_up hup hwait]
  exact congrArg (fun v => Host.Outcome.next (State.ackPkt v n h)) (roleData_named bs)

theorem ckEnd_refused (hrole : roleOf (s.ptn h.dstPtn).fix.hold h = none) (num : W32) (t : W64) (d : List Byte) :
    exec (.ckEnd n h num t d) s =
      .next (State.ackPkt (s.fixSend h.dstPtn (replyTo none h) 0x22 h.xfer 0 true (State.ackBody true num 3 [])).1 n h) := by
  simp only [exec, execCkEnd, onQp_up hup (roleWaits_unnamed (hold := true) hrole), roleFin_unnamed (hold := true) hrole, if_true]

theorem negEnd_refused (hrole : roleOf (s.ptn h.dstPtn).fix.neg h = none) (t : W64) (d : List Byte) :
    exec (.negEnd n h t d) s =
      .next (State.ackPkt (s.fixSend h.dstPtn (replyTo none h) 0x29 h.xfer 0 true (State.ackBody false h.xfer 3 [])).1 n h) := by
  simp only [exec, execNegEnd, onQp_up hup (roleWaits_unnamed (hold := false) hrole), roleFin_unnamed (hold := false) hrole, Bool.false_eq_true, if_false]

theorem ckEnd_taken (hrole : roleOf (s.ptn h.dstPtn).fix.hold h = some a) (hnew : pktTag h ∉ (a.start h.xfer).seen)
    (hslot : s.noSlot h.dstPtn (State.roleRoom true (a.start h.xfer)).1 1 = false) (num : W32) (t : W64) (d : List Byte) :
    let z := a.start h.xfer
    let r := s.roleSize h.dstPtn n true { z with seen := z.seen ++ [pktTag h], fin := some d } t.toNat
    exec (.ckEnd n h num t d) s = .next (State.ackPkt (r.1.roleEnd h.dstPtn true r.2) n h) := by
  simp only [exec, execCkEnd, onQp_up hup (roleWaits_served (hold := true) hrole hslot), roleFin_named (hold := true) hrole hnew]

theorem negEnd_taken (hrole : roleOf (s.ptn h.dstPtn).fix.neg h = some a) (hnew : pktTag h ∉ (a.start h.xfer).seen)
    (hslot : s.noSlot h.dstPtn (State.roleRoom false (a.start h.xfer)).1 1 = false) (t : W64) (d : List Byte) :
    let z := a.start h.xfer
    let r := s.roleSize h.dstPtn n false { z with seen := z.seen ++ [pktTag h], fin := some d } t.toNat
    exec (.negEnd n h t d) s = .next (State.ackPkt (r.1.roleEnd h.dstPtn false r.2) n h) := by
  simp only [exec, execNegEnd, onQp_up hup (roleWaits_served (hold := false) hrole hslot), roleFin_named (hold := false) hrole hnew]

end Roles

include hup

/-- A complete copy is served from its half. -/
theorem ckRead_served {num : W32} {o : W64} {len : Nat} {a : AreaRole} {v : State} {bs : List Byte} (hhold : (s.ptn h.dstPtn).fix.hold = some a)
    (hdone : (a.half num).complete = true) (hnum : (a.half num).num = num) (hfit : o.toNat + len ≤ (a.half num).total)
    (hslot : s.noSlot h.dstPtn (a.base num + o.toNat) len = false)
    (hread : s.pRead h.dstPtn (Who.fixer.via n) (a.base num + o.toNat) len = (v, .ok bs)) :
    exec (.ckRead n h num o len) s = .next (State.ackPkt (v.fixSend h.dstPtn (replyTo none h) 0x24 h.xfer o true bs).1 n h) := by
  have hserved : (s.ptn h.dstPtn).fix.served num o.toNat len = some a := by
    simp only [FixP.served, hhold, Option.filter_some, hdone, hnum, hfit, decide_true, Bool.and_self, if_true]
  have hwait : (some a).any (fun a => s.noSlot h.dstPtn (a.base num + o.toNat) len) = false := hslot
  simp only [exec, execCkRead, hserved, onQp_up hup hwait, hread]

/-! ## The sender's copies, restore, HELLO and shipment (R401, R403, R406, R411, R415) -/

theorem ckRdata_kept {r : Restore} {bs : List Byte} (hr : (s.ptn h.dstPtn).fix.restore = some r) (hnode : r.source.node = h.srcNode)
    (hptn : r.source.kind = 1 → r.source.ptn = h.srcPtn) (hfit : h.offset.toNat + bs.length ≤ r.want) :
    exec (.ckRdata n h bs) s = .next (State.ackPkt (s.restoreStep h.dstPtn { r with
      got := (s.clear h bs).zipIdx.foldl (fun t e => t.put none (h.offset.toNat + e.2) (some e.1)) r.got }) n h) := by
  have hother : (decide (r.source.kind = 1) && decide (r.source.ptn ≠ h.srcPtn)) = false := by simpa using hptn
  simp only [exec, execCkRdata, onQp_up hup rfl, hr, hnode, hother, gt_iff_lt, Nat.not_lt.mpr hfit, ne_eq, not_true_eq_false, decide_false, Bool.or_self, Bool.false_eq_true, if_false]

theorem hello_answered (fd : BitVec 4) (sz : W64) : let role := roleOf (s.ptn h.dstPtn).fix.hold h
    exec (.hello n h fd sz) s = .next (State.ackPkt (s.fixSend h.dstPtn (replyTo role h) 0x26 h.xfer 0 true
      (leBytes 4 s.pins.feedId.toNat ++ leBytes 4 (if role.isSome then 0 else 3) ++ leBytes 8 (halfOffered role))).1 n h) := by
  simp only [exec, execHello, onQp_up hup rfl]
  rfl

section HelloAck
variable {c : Hdr} {peer : Endpoint} {o : Bool} {fd : BitVec 4} {st : W16} {half : W64}
variable (hhello : (s.ptn h.dstPtn).fix.hello = some (c, peer, o)) (hnode : peer.node = h.srcNode) (hptn : peer.ptn = h.srcPtn)
include hhello hnode hptn

theorem helloAck_refused (hno : st ≠ 0 ∨ fd = s.pins.feedId ∧ o = false) :
    exec (.helloAck n h fd st half) s = .next (State.ackPkt (s.endHello h.dstPtn c (some St.eParam)) n h) := by
  have hfails : (decide (st ≠ 0) || decide (fd = s.pins.feedId) && !o) = true := by simpa using hno
  simp only [exec, execHelloAck, onQp_up hup rfl, hhello, hnode, hptn, hfails, ne_eq, not_true_eq_false, decide_false, Bool.or_self, Bool.false_eq_true, if_false, if_true]

theorem helloAck_accepted (hst : st = 0) (hindep : fd ≠ s.pins.feedId ∨ o = true) :
    exec (.helloAck n h fd st half) s = .next (State.ackPkt ((s.updFix h.dstPtn fun f => { f with
      partner := { node := peer.node, ptn := peer.ptn, feed := fd, valid := true, nonIndep := decide (fd = s.pins.feedId), override := o }, peer := peer }).endHello
        h.dstPtn c none) n h) := by
  have hok : (decide (st ≠ 0) || decide (fd = s.pins.feedId) && !o) = false := by simpa [hst, or_iff_not_imp_left] using hindep
  simp only [exec, execHelloAck, onQp_up hup rfl, hhello, hnode, hptn, hok, ne_eq, not_true_eq_false, decide_false, Bool.or_self, Bool.false_eq_true, if_false]

end HelloAck

theorem ckAck_endsCopy {num : W32} {c : Copy}
    (hc : ((s.ptn h.dstPtn).fix.copies.find? fun c => c.num = num && c.dest.node = h.srcNode && (!c.partner || c.dest.ptn = h.srcPtn)) = some c)
    (st : W16) (d : List Byte) :
    exec (.ckAck n h num st d) s = .next (State.ackPkt (s.endCopy h.dstPtn c (if st = 0 then none else some St.eHwFault)) n h) := by
  simp only [exec, execCkAck, onQp_up hup rfl, hc]

theorem negAck_endsShipment {c : Copy} (hc : (s.ptn h.dstPtn).fix.ship = some c) (hnode : c.dest.node = h.srcNode) (hptn : c.dest.ptn = h.srcPtn) (st : W16) :
    exec (.negAck n h st) s = .next (State.ackPkt (((s.updFix h.dstPtn fun f => { f with ship := none }).closeItem c.hdr c.item
      (if st = 0 then none else some St.eHwFault)).settle c.hdr) n h) := by
  simp only [exec, execNegAck, onQp_up hup rfl, hc, hnode, hptn, ne_eq, not_true_eq_false, decide_false, Bool.or_self, Bool.false_eq_true, if_false]

theorem helloAck_unasked (hnone : (s.ptn h.dstPtn).fix.hello = none) (fd : BitVec 4) (st : W16) (half : W64) :
    exec (.helloAck n h fd st half) s = .next (State.ackPkt (s.dropPkt n) n h) := by
  simp only [exec, execHelloAck, onQp_up hup rfl, hnone]

theorem negAck_unasked (hnone : (s.ptn h.dstPtn).fix.ship = none) (st : W16) : exec (.negAck n h st) s = .next (State.ackPkt (s.dropPkt n) n h) := by
  simp only [exec, execNegAck, onQp_up hup rfl, hnone]

theorem ckRdata_unasked (hnone : (s.ptn h.dstPtn).fix.restore = none) (bs : List Byte) : exec (.ckRdata n h bs) s = .next (State.ackPkt (s.dropPkt n) n h) := by
  simp only [exec, execCkRdata, onQp_up hup rfl, hnone]

end Packets
end Sys2Proof.Machine

/-! ## The statement -/

section
open Sys2Proof Sys2Proof.Machine

/-- Settles O58: each packet with the role, copy, restore, HELLO or shipment it belongs to, and without one. -/
theorem fixerPackets : Obligations.FixerPackets := by
  intro s n h hup p f
  refine ⟨ckData_taken hup, negData_taken hup, ?ckEnd, ?negEnd, ?ckRead, ?ckRdata, hello_answered hup, ?helloAck, ?ckAck, ?negAck, ?unasked⟩
  case ckEnd =>
    exact fun num t d => ⟨fun hrole => ckEnd_refused hup hrole num t d, fun a hrole hnew hslot => ckEnd_taken hup hrole hnew hslot num t d⟩
  case negEnd =>
    exact fun t d => ⟨fun hrole => negEnd_refused hup hrole t d, fun a hrole hnew hslot => negEnd_taken hup hrole hnew hslot t d⟩
  case ckRead => exact fun num o len a hhold hdone hnum hfit hslot v bs hread => ckRead_served hup hhold hdone hnum hfit hslot hread
  case ckRdata => exact fun r bs hr hnode hptn hfit => ckRdata_kept hup hr hnode hptn hfit
  case helloAck =>
    exact fun c peer o fd st half hhello hnode hptn => ⟨helloAck_refused hup hhello hnode hptn, helloAck_accepted hup hhello hnode hptn⟩
  case ckAck => exact fun num st d c hc => ckAck_endsCopy hup hc st d
  case negAck => exact fun st c hc hnode hptn => negAck_endsShipment hup hc hnode hptn st
  case unasked => exact ⟨helloAck_unasked hup, negAck_unasked hup, ckRdata_unasked hup⟩

end
end

section
/-! PROOFS. Commands of the Fixer: what each does once it starts, what the end of a wait does, and the statement that follows (R391, R394, R401 to R407, R410, R412, R415, R416). -/

namespace Sys2Proof.Machine

/-! ## CKPT_SAVE and CKPT_RESTORE (R394, R402, R410) -/

section Save
variable {s u : State} {h : Hdr} {store : Endpoint} {a b : Bool} {ms : W16}
variable (hfix : s.fixerFull h.ptn = false) (hu : (s.fenced h 0x601).startsNow h 0x601 (.ckptSave h store a b ms) = some u)
  (hdest : a = true ∨ b = true) (hstore : a = true → endpointBad store false = false ∧ store.kind = 2) (hms : ms = 0 ∨ 100 ≤ ms.toNat ∧ ms.toNat ≤ 60000)

include hdest hstore hms in
/-- A block in range leaves the state of the partition to decide. -/
theorem ckptSave_inRange : ¬((!a && !b || a && (endpointBad store false || decide (store.kind ≠ 2)) ||
    decide (ms ≠ 0) && (decide (ms.toNat < 100) || decide (ms.toNat > 60000))) = true) := by
  have htime : (decide (ms ≠ 0) && (decide (ms.toNat < 100) || decide (ms.toNat > 60000))) = false := by
    rcases hms with h0 | ⟨hlo, hhi⟩
    · simp only [h0, ne_eq, not_true_eq_false, decide_false, Bool.false_and]
    · simp only [Nat.not_lt.mpr hlo, Nat.not_lt.mpr hhi, decide_false, Bool.or_self, Bool.and_false]
  rw [htime]
  cases a
  · simpa using hdest
  · simp [hstore rfl]

include hfix hu hdest hstore hms

theorem ckptSave_saves (hfree : u.saveBusy h.ptn b = none) :
    exec (.ckptSave h store a b ms) s = .next (((u.open' h (b2n a + b2n b)).saveNow h store a b).settle h) := by
  simp only [exec, execCkptSave, hfix, Bool.false_eq_true, if_false]
  exact congrArg _ (queued_passed hu ((if_neg (ckptSave_inRange hdest hstore hms)).trans hfree))

theorem ckptSave_busy {c : Status} (hbusy : u.saveBusy h.ptn b = some c) : exec (.ckptSave h store a b ms) s = .next (u.reject h 0x601 c) := by
  simp only [exec, execCkptSave, hfix, Bool.false_eq_true, if_false]
  exact congrArg _ (queued_rejected hu ((if_neg (ckptSave_inRange hdest hstore hms)).trans hbusy))

end Save

section Restore
variable {s u : State} {h : Hdr} {src : Endpoint} {n : W32}
variable (hfix : s.fixerFull h.ptn = false) (hu : (s.fenced h 0x602).startsNow h 0x602 (.ckptRestore h src n) = some u) (hsrc : endpointBad src false = false)
include hfix hu hsrc

theorem ckptRestore_busy (hbusy : u.restoreBusy h.ptn = true) : exec (.ckptRestore h src n) s = .next (u.reject h 0x602 St.eBusy) := by
  simp only [exec, execCkptRestore, hfix, Bool.false_eq_true, if_false]
  refine congrArg _ (queued_rejected hu ?_)
  simp only [hsrc, hbusy, Bool.false_eq_true, if_false, if_true]

theorem ckptRestore_asks (hfree : u.restoreBusy h.ptn = false) :
    let z := u.open' h 1
    let r : Restore := { hdr := h, source := src, num := n }
    exec (.ckptRestore h src n) s = .next ((if (z.askRestore h.ptn r 0 160).2 then (z.askRestore h.ptn r 0 160).1.setRestore h.ptn (some r)
      else z.closeItem h 0 (some St.eParam)).settle h) := by
  intro z r
  simp only [exec, execCkptRestore, hfix, Bool.false_eq_true, if_false]
  refine congrArg _ ((queued_passed hu ?_).trans (congrArg (State.settle · h) ?_))
  · simp only [hsrc, hfree, Bool.false_eq_true, if_false]
  · simp only [Bool.not_eq_true']
    cases (z.askRestore h.ptn r 0 160).2 <;> rfl

end Restore

/-! ## PARTNER_SET (R406, R407) -/

section Partner
variable {s u : State} {h : Hdr} {role : Byte} {o : Bool} {peer : Endpoint} {a n : W64}

/-- What PARTNER_SET does to the partition once its block is in range. -/
def State.setPartner (z : State) (h : Hdr) (role : Byte) (o : Bool) (peer : Endpoint) (area : Option AreaRole) : State :=
  if role = 1 then (z.updFix h.ptn fun f => { f with hold := area }).closeItem h 0 none
  else if role = 2 then (z.updFix h.ptn fun f => { f with neg := area }).closeItem h 0 none
  else if peer.node = 0x1FFF then (z.updFix h.ptn fun f => { f with partner := {}, peer := { node := 0x1FFF } }).closeItem h 0 none
  else
    let r := z.fixSend h.ptn peer 0x25 0 0 true (leBytes 8 z.pins.feedId.toNat ++ leBytes 8 (z.copySize h.ptn))
    if r.2 then r.1.updFix h.ptn fun f => { f with hello := some (h, peer, o) } else z.closeItem h 0 (some St.eParam)

/-- The area that a role is given. -/
def rolePlace (peer : Endpoint) (a n : W64) : Option AreaRole :=
  if peer.node = 0x1FFF then none else some { src := peer, addr := a.toNat, bytes := n.toNat }

/-- The area of a HOLD or NEG_RECV role that is set, not ended, must be aligned and writable. -/
def areaGiven (u : State) (h : Hdr) (role : Byte) (peer : Endpoint) (a n : W64) : Prop :=
  role ≠ 0 → peer.node ≠ 0x1FFF → (role = 1 → n.toNat % (2 * gib) = 0) ∧ (u.ptn h.ptn).areaOk a.toNat n.toNat = true

theorem partnerSet_sets (hu : s.startsNow h 0x603 (.partnerSet h role o peer a n) = some u) (hover : o = true → role = 0) (hpeer : endpointBad peer true = false)
    (hkind : peer.kind = 1) (hrole : role.toNat ≤ 2) (hhello : role = 0 → (s.ptn h.ptn).fix.hello = none) (harea : areaGiven u h role peer a n) :
    exec (.partnerSet h role o peer a n) s = .next (((u.open' h 1).setPartner h role o peer (rolePlace peer a n)).settle h) := by
  have hturn : (decide (role = 0) && (s.ptn h.ptn).fix.hello.isSome) = false := by
    by_cases h0 : role = 0
    · rw [hhello h0]; exact Bool.and_false _
    · rw [decide_eq_false h0]; exact Bool.false_and _
  have hblock : (decide (role.toNat > 2) || (o && decide (role ≠ 0)) || endpointBad peer true || decide (peer.kind ≠ 1)) = false := by
    have hfor : (o && decide (role ≠ 0)) = false := by cases o <;> simp [hover]
    simp only [gt_iff_lt, Nat.not_lt.mpr hrole, hfor, hpeer, hkind, ne_eq, not_true_eq_false, decide_false, Bool.or_self]
  simp only [exec, execPartnerSet, hturn, Bool.false_eq_true, if_false]
  refine congrArg _ ((queued_passed hu ?_).trans (congrArg (State.settle · h) ?_))
  · simp only [hblock, Bool.false_eq_true, if_false, Bool.and_eq_true, decide_eq_true_eq]
    split
    next hset =>
      obtain ⟨hsize, hok⟩ := harea hset.1 hset.2
      rw [if_neg (fun hbad => hbad.2 (hsize hbad.1)), if_pos hok]
    next => rfl
  · simp only [State.setPartner, rolePlace, Bool.not_eq_true']
    split
    next => rfl
    next =>
      split
      next => rfl
      next =>
        split
        next => rfl
        next => cases ((u.open' h 1).fixSend h.ptn peer 0x25 0 0 true _).2 <;> rfl

end Partner

/-! ## NEGATIVE_SHIP (R415, R416) -/

section Ship
variable {s u v : State} {h : Hdr} {m k : W16} {dest : Endpoint} {y : Model} {w : WSet}
variable (hfix : s.fixerFull h.ptn = false) (hship : (s.ptn h.ptn).fix.ship = none)
  (hwriting : ∀ x, (s.ptn h.ptn).set? m.toNat k.toNat = some x → x.writing = false ∨ x.two = true)
  (hu : s.startsNow h 0x604 (.negativeShip h m k dest) = some u) (hdest : endpointBad dest false = false) (hkind : dest.kind = 1)
  (hmodel : ((u.ptn h.ptn).model? m.toNat).isSome = true) (hset : ∃ x, (u.ptn h.ptn).set? m.toNat k.toNat = some x ∧ x.invalid = false)

/-- The image of a set goes out when it has been read. -/
def State.shipRead (z : State) (h : Hdr) (dest : Endpoint) (y : Model) (w : WSet) : State :=
  match z.pRead h.ptn Who.fixer y.addr y.bytes with
  | (v, .error c) => v.closeItem h 0 (some c)
  | (v, .ok b) => v.ship h w dest (negativeImage b y.image w)

include hfix hship hwriting hu hdest hkind hmodel hset

theorem negativeShip_reads (hy : ((u.open' h 1).ptn h.ptn).model? m.toNat = some y) (hw : ((u.open' h 1).ptn h.ptn).set? m.toNat k.toNat = some w) :
    exec (.negativeShip h m k dest) s = .next (((u.open' h 1).shipRead h dest y w).settle h) := by
  obtain ⟨x, hx, hvalid⟩ := hset
  have hmodel' : ((u.ptn h.ptn).model? m.toNat).isNone = false := by rw [Option.isNone_eq_false_iff]; exact hmodel
  have hbusy : (match (s.ptn h.ptn).set? m.toNat k.toNat with | some w => w.writing && !w.two | none => false) = false := by
    split
    next w hw => rcases hwriting w hw with h | h <;> simp [h]
    next => rfl
  show execNegativeShip h m k dest s = _
  unfold execNegativeShip
  simp only [hfix, hship, Option.isSome_none, Bool.or_self, Bool.false_or]
  rw [if_neg (by rw [Bool.not_eq_true]; exact hbusy)]
  refine congrArg _ ((queued_passed hu ?_).trans (congrArg (State.settle · h) ?_))
  · simp only [hdest, hkind, hmodel', hx, hvalid, ne_eq, not_true_eq_false, decide_false, Bool.or_self, Bool.false_eq_true, if_false]
  · simp only [hy, hw]
    rfl

end Ship

theorem shipRead_unreadable {z v : State} {h : Hdr} {dest : Endpoint} {y : Model} {c : Status} (hread : z.pRead h.ptn Who.fixer y.addr y.bytes = (v, .error c)) (w : WSet) :
    z.shipRead h dest y w = v.closeItem h 0 (some c) := by
  rw [State.shipRead, hread]

theorem shipRead_ships {z v : State} {h : Hdr} {dest : Endpoint} {y : Model} {b : List Byte} (hread : z.pRead h.ptn Who.fixer y.addr y.bytes = (v, .ok b)) (w : WSet) :
    z.shipRead h dest y w = v.ship h w dest (negativeImage b y.image w) := by
  rw [State.shipRead, hread]

/-! ## What is not answered in time (R401, R403, R411, R412) -/

section Timeouts
variable {s : State} {p : PtnId}

theorem copyTimeout_fails {b : Bool} {c : Copy} (hc : ((s.ptn p).fix.copies.find? fun c => c.partner = b) = some c) :
    exec (.copyTimeout p b) s = .next (s.endCopy p c (some St.eHwFault)) := by
  simp only [exec, execCopyTimeout, hc]

theorem restoreSourceTimeout_fails {r : Restore} (hr : (s.ptn p).fix.restore = some r) :
    exec (.restoreSourceTimeout p) s = .next (s.endRestore p r (some St.eHwFault)) := by
  simp only [exec, execRestoreSourceTimeout, hr]

theorem helloTimeout_fails {c : Hdr} {e : Endpoint} {o : Bool} (hh : (s.ptn p).fix.hello = some (c, e, o)) :
    exec (.helloTimeout p) s = .next (s.endHello p c (some St.eParam)) := by
  simp only [exec, execHelloTimeout, hh]

end Timeouts
end Sys2Proof.Machine

/-! ## The statement -/

section
open Sys2Proof Sys2Proof.Machine

/-- Settles O57: each command once it starts, and each wait that ends without an answer. -/
theorem fixerCommands : Obligations.FixerCommands := by
  refine ⟨?save, ?restore, ?partner, ?ship, ?timeouts⟩
  case save =>
    exact fun s u h store a b ms hfix hu hdest hstore hms =>
      ⟨ckptSave_saves hfix hu hdest hstore hms, fun c => ckptSave_busy hfix hu hdest hstore hms⟩
  case restore => exact fun s u h src n hfix hu hsrc => ⟨ckptRestore_busy hfix hu hsrc, ckptRestore_asks hfix hu hsrc⟩
  case partner =>
    intro s u h role o peer a n hu hover hpeer hkind z area
    have hrun := fun hrole hhello harea => partnerSet_sets (a := a) (n := n) hu hover hpeer hkind hrole hhello harea
    refine ⟨?_, ?_, ?_, ?_, ?_, ?_⟩
    · intro hrole hnode hsize hok
      subst hrole
      rw [hrun (by decide) (fun h => absurd h (by decide)) (fun _ _ => ⟨fun _ => hsize, hok⟩), State.setPartner, if_pos rfl, rolePlace, if_neg hnode]
    · intro hrole hnode hok
      subst hrole
      rw [hrun (by decide) (fun h => absurd h (by decide)) (fun _ _ => ⟨fun h => absurd h (by decide), hok⟩), State.setPartner, if_neg (by decide), if_pos rfl,
        rolePlace, if_neg hnode]
    · intro hrole hnode
      subst hrole
      rw [hrun (by decide) (fun h => absurd h (by decide)) (fun _ hset => absurd hnode hset), State.setPartner, if_pos rfl, rolePlace, if_pos hnode]
    · intro hrole hnode
      subst hrole
      rw [hrun (by decide) (fun h => absurd h (by decide)) (fun _ hset => absurd hnode hset), State.setPartner, if_neg (by decide), if_pos rfl, rolePlace,
        if_pos hnode]
    · intro hrole hhello hnode
      subst hrole
      rw [hrun (by decide) (fun _ => hhello) (fun h0 => absurd rfl h0), State.setPartner, if_neg (by decide), if_neg (by decide), if_pos hnode]
    · intro hrole hhello hnode r
      subst hrole
      rw [hrun (by decide) (fun _ => hhello) (fun h0 => absurd rfl h0), State.setPartner, if_neg (by decide), if_neg (by decide), if_neg hnode]
  case ship =>
    intro s u h m k dest y w hfix hship hwriting hu hdest hkind hmodel hset hvalid z hy hw
    rw [negativeShip_reads hfix hship hwriting hu hdest hkind (Option.isSome_iff_exists.mpr ⟨y, hmodel⟩) ⟨w, hset, hvalid⟩ hy hw]
    refine ⟨fun v c hread => by rw [shipRead_unreadable hread], fun v b hread => ?_⟩
    rw [shipRead_ships hread, State.ship]
    intro im v1 r
    exact ⟨fun hno => by rw [if_pos]; rw [Bool.not_eq_true']; exact hno, fun hyes => by rw [if_neg]; rw [Bool.not_eq_true', Bool.not_eq_false]; exact hyes⟩
  case timeouts => exact fun s p => ⟨fun b c => copyTimeout_fails, fun r => restoreSourceTimeout_fails, fun c e o => helloTimeout_fails⟩

end
end

section
/-! PROOFS. The sticky log, telemetry and the power limit: the fields of a block of little-endian numbers, the four steward commands, and the statement that follows (R2, R441, R442, R476, R477). -/

namespace Sys2Proof.Machine

/-! ## Blocks of little-endian fields (R2) -/

theorem length_leBytes (n v : Nat) : (leBytes n v).length = n := by
  induction n generalizing v with
  | zero => rfl
  | succ n ih => rw [leBytes, List.length_cons, ih]

theorem leNat_leBytes (n v : Nat) : leNat (leBytes n v) = v % 256 ^ n := by
  induction n generalizing v with
  | zero => simp [leBytes, leNat, Nat.mod_one]
  | succ n ih => rw [leBytes, leNat, ih, BitVec.toNat_ofNat, show 256 ^ (n + 1) = 256 * 256 ^ n from Nat.pow_succ', Nat.mod_mul]

/-- A field of a block reads its number back, whatever stands before and after it. -/
theorem fld_between {pre post : List Byte} {o n v : Nat} (hpre : pre.length = o) : fld (pre ++ (leBytes n v ++ post)) o n = v % 256 ^ n := by
  rw [fld, List.drop_left' hpre, List.take_left' (length_leBytes n v), leNat_leBytes]

/-- The number of a register fills no more than the bytes its width takes. -/
theorem toNat_mod_bytes {w : Nat} (x : BitVec w) {n : Nat} (hw : w ≤ 8 * n) : x.toNat % 256 ^ n = x.toNat := by
  refine Nat.mod_eq_of_lt (Nat.lt_of_lt_of_le x.isLt ?_)
  calc 2 ^ w ≤ 2 ^ (8 * n) := Nat.pow_le_pow_right (by decide) hw
    _ = 256 ^ n := Nat.pow_mul 2 8 n

/-- A block written from its fields, each with its width. -/
def fieldBlock (fs : List (Nat × Nat)) : List Byte := fs.flatMap fun f => leBytes f.1 f.2

theorem length_fieldBlock (fs : List (Nat × Nat)) : (fieldBlock fs).length = (fs.map Prod.fst).sum := by
  rw [fieldBlock, List.length_flatMap]
  exact congrArg List.sum (List.map_congr_left fun f _ => length_leBytes f.1 f.2)

/-- A field stands at the sum of the widths before it. -/
theorem fld_fieldBlock {fs gs : List (Nat × Nat)} {n v o : Nat} {post : List Byte} (ho : (fs.map Prod.fst).sum = o) :
    fld (fieldBlock (fs ++ (n, v) :: gs) ++ post) o n = v % 256 ^ n := by
  have hsplit : fieldBlock (fs ++ (n, v) :: gs) ++ post = fieldBlock fs ++ (leBytes n v ++ (fieldBlock gs ++ post)) := by
    simp only [fieldBlock, List.flatMap_append, List.flatMap_cons, List.append_assoc]
  rw [hsplit, fld_between ((length_fieldBlock fs).trans ho)]

/-! ## The result block of TELEMETRY_READ (R477) -/

/-- The fields of the block in their order, each with its width; the power state's two upper bytes are reserved. -/
def State.telFields (s : State) : List (Nat × Nat) :=
  let r := s.pwr.tel
  [(2, r.vIn.toNat), (2, r.vStby.toNat), (2, r.powerW), (2, r.pStby.toNat),
   (2, (r.dies.getD 0 0).toNat), (2, (r.dies.getD 1 0).toNat), (2, (r.dies.getD 2 0).toNat), (2, (r.dies.getD 3 0).toNat),
   (2, (r.ergs.getD 0 0).toNat), (2, (r.ergs.getD 1 0).toNat), (2, (r.ergs.getD 2 0).toNat), (2, (r.ergs.getD 3 0).toNat),
   (2, r.lpMax.toNat), (2, r.optMax.toNat), (1, s.pwr.duty.toNat), (1, s.pwr.st.toNat), (2, s.pwr.st.toNat / 256),
   (8, r.energyMj.toNat), (8, s.cgStates.toNat)]

/-- The widths of those fields. -/
def telWidths : List Nat := [2, 2, 2, 2, 2, 2, 2, 2, 2, 2, 2, 2, 2, 2, 1, 1, 2, 8, 8]

theorem telFields_widths (s : State) : s.telFields.map Prod.fst = telWidths := rfl

theorem telemetry_eq (s : State) : s.telemetry = fieldBlock s.telFields ++ List.replicate 16 0 := rfl

/-- The i-th field of the block stands at the sum of the widths before it. -/
theorem fld_telemetry (s : State) {i n v o : Nat} (hget : s.telFields[i]? = some (n, v)) (ho : (telWidths.take i).sum = o) :
    fld s.telemetry o n = v % 256 ^ n := by
  have hlt : i < s.telFields.length := (List.getElem?_eq_some_iff.mp hget).1
  have hsplit : s.telFields = s.telFields.take i ++ (n, v) :: s.telFields.drop (i + 1) := by
    rw [← (List.getElem?_eq_some_iff.mp hget).2, List.cons_getElem_drop_succ, List.take_append_drop]
  rw [telemetry_eq, hsplit]
  exact fld_fieldBlock (by rw [List.map_take, telFields_widths, ho])

theorem fld_telemetry_reg (s : State) {w : Nat} (x : BitVec w) {i n o : Nat} (hw : w ≤ 8 * n) (hget : s.telFields[i]? = some (n, x.toNat))
    (ho : (telWidths.take i).sum = o) : fld s.telemetry o n = x.toNat := by
  rw [fld_telemetry s hget ho, toNat_mod_bytes x hw]

theorem length_telemetry (s : State) : s.telemetry.length = 64 := by
  rw [telemetry_eq, List.length_append, length_fieldBlock, telFields_widths, List.length_replicate]
  rfl

theorem telemetry_reserved (s : State) : s.telemetry.drop 48 = List.replicate 16 0 := by
  rw [telemetry_eq]
  exact List.drop_left' ((length_fieldBlock s.telFields).trans (congrArg List.sum (telFields_widths s)))

/-- The temperatures of die i and of its Erg. -/
theorem fld_telemetry_die (s : State) {i : Nat} (hi : i < 4) : fld s.telemetry (8 + 2 * i) 2 = (s.pwr.tel.dies.getD i 0).toNat ∧
    fld s.telemetry (16 + 2 * i) 2 = (s.pwr.tel.ergs.getD i 0).toNat := by
  have hwidth : 16 ≤ 8 * 2 := by decide
  match i, hi with
  | 0, _ => exact ⟨fld_telemetry_reg s _ (i := 4) hwidth rfl rfl, fld_telemetry_reg s _ (i := 8) hwidth rfl rfl⟩
  | 1, _ => exact ⟨fld_telemetry_reg s _ (i := 5) hwidth rfl rfl, fld_telemetry_reg s _ (i := 9) hwidth rfl rfl⟩
  | 2, _ => exact ⟨fld_telemetry_reg s _ (i := 6) hwidth rfl rfl, fld_telemetry_reg s _ (i := 10) hwidth rfl rfl⟩
  | 3, _ => exact ⟨fld_telemetry_reg s _ (i := 7) hwidth rfl rfl, fld_telemetry_reg s _ (i := 11) hwidth rfl rfl⟩

/-! ## The commands (R442, R476) -/

/-- A command served at once whose action fails answers with the code, in the state the action left. -/
theorem atOnce_rejected {s u : State} {h : Hdr} {op : W16} {f : State → State × Except Status (List Item × List Byte)} {v : State} {c : Status}
    (hu : s.runsNow h op = some u) (hf : f u = (v, .error c)) : s.atOnce h op f = v.reject h op c := by
  rw [atOnce_run hu, hf]

section Commands
variable {s u : State} {h : Hdr}

theorem faultLogRead_answers {m : W64} {n : W16} (hu : s.runsNow h 0xF02 = some u) : exec (.faultLogRead h m n) s = .next (if 1 ≤ n.toNat ∧ n.toNat ≤ 64
    then u.replied h [doneItem] (leBytes 4 u.saf.log.length ++ leBytes 4 u.saf.logLost.toNat ++
      ((u.saf.log.filter fun r => decide (m.toNat ≤ r.men.toNat)).take n.toNat).flatMap FRec.bytes)
    else u.reject h 0xF02 St.eParam) := by
  have hrange : (decide (n = 0) || decide (n.toNat > 64)) = true ↔ ¬(1 ≤ n.toNat ∧ n.toNat ≤ 64) := by
    simp only [Bool.or_eq_true, decide_eq_true_eq, ← BitVec.toNat_inj, show BitVec.toNat (0 : W16) = 0 from rfl]
    omega
  by_cases hn : 1 ≤ n.toNat ∧ n.toNat ≤ 64
  · rw [if_pos hn]
    exact congrArg _ (atOnce_replied hu (if_neg fun hbad => hrange.mp hbad hn))
  · rw [if_neg hn]
    exact congrArg _ (atOnce_rejected hu (if_pos (hrange.mpr hn)))

theorem pwrLimit_answers {w : W16} (hu : s.runsNow h 0x803 = some u) : exec (.pwrLimit h w) s = .next (if 1000 ≤ w.toNat ∧ w.toNat ≤ 1850
    then State.replied { u with pwr := { u.pwr with limitW := BitVec.ofNat 11 w.toNat } } h [doneItem] [] else u.reject h 0x803 St.eParam) := by
  have hrange : (decide (w.toNat < 1000) || decide (w.toNat > 1850)) = true ↔ ¬(1000 ≤ w.toNat ∧ w.toNat ≤ 1850) := by
    simp only [Bool.or_eq_true, decide_eq_true_eq]
    omega
  by_cases hw : 1000 ≤ w.toNat ∧ w.toNat ≤ 1850
  · rw [if_pos hw]
    exact congrArg _ (atOnce_replied hu (if_neg fun hbad => hrange.mp hbad hw))
  · rw [if_neg hw]
    exact congrArg _ (atOnce_rejected hu (if_pos (hrange.mpr hw)))

end Commands

end Sys2Proof.Machine

/-! ## The statement -/

section
open Sys2Proof Sys2Proof.Machine

/-- Settles O36: each command by whether its argument is in range, and the telemetry block from the list of its fields, each read back at the sum of the
widths before it. -/
theorem logAndTelemetry : Obligations.LogAndTelemetry := by
  unfold Obligations.LogAndTelemetry
  refine ⟨fun s u h => ⟨fun m n => faultLogRead_answers, fun m hu => congrArg _ (atOnce_replied hu rfl), fun hu => congrArg _ (atOnce_replied hu rfl),
    fun w => pwrLimit_answers⟩, fun s => ?_⟩
  have hword : 16 ≤ 8 * 2 := by decide
  exact ⟨length_telemetry s, fld_telemetry_reg s _ (i := 0) hword rfl rfl, fld_telemetry_reg s _ (i := 1) hword rfl rfl,
    fld_telemetry s (i := 2) rfl rfl, fld_telemetry_reg s _ (i := 3) hword rfl rfl, fun i hi => fld_telemetry_die s hi,
    fld_telemetry_reg s _ (i := 12) hword rfl rfl, fld_telemetry_reg s _ (i := 13) hword rfl rfl,
    fld_telemetry_reg s s.pwr.duty (i := 14) (by decide) rfl rfl, fld_telemetry_reg s s.pwr.st (i := 15) (by decide) rfl rfl,
    fld_telemetry_reg s s.pwr.tel.energyMj (i := 17) (by decide) rfl rfl, fld_telemetry_reg s s.cgStates (i := 18) (by decide) rfl rfl, telemetry_reserved s⟩

end
end

section
/-! PROOFS. Recording a fault: what sending a message and recording a fault leave of the state, what the sticky log and each partition take of a record, and the statement that follows (R431, R436 to R441, R446). -/

namespace Sys2Proof.Machine

/-! ## What sending leaves of the state (R338 to R341) -/

/-- A message goes to the ports or is held; nothing else of the state changes. -/
theorem deliver_frame (s : State) (ports : BitVec 2) (m : Msg) :
    s.deliver ports m = { s with ups := (s.deliver ports m).ups, held := (s.deliver ports m).held } := by
  unfold State.deliver
  dsimp only
  split
  · rfl
  · split <;> split <;> rfl

@[simp] theorem deliver_saf (s : State) (ports : BitVec 2) (m : Msg) : (s.deliver ports m).saf = s.saf := by rw [deliver_frame]
@[simp] theorem deliver_ptn (s : State) (ports : BitVec 2) (m : Msg) (p : PtnId) : (s.deliver ports m).ptn p = s.ptn p := by rw [deliver_frame]; rfl

/-- An event of a partition takes its next ESN and is sent. -/
theorem sendEvent_eq (s : State) (p : PtnId) (q : QueueId) (kind : Byte) (op : W16) (seq : W32) (body : List Byte) :
    s.sendEvent p q kind op seq body = (s.updFlow p fun f => { f with esn := f.esn + 1 }).deliver (eventPorts (s.ptn p).flow.eventPort)
      { type := 1, queue := q, evKind := kind, opcode := op, seq := seq, body := body, ptn := p, order := (s.ptn p).flow.esn } := rfl

@[simp] theorem sendModule_saf (s : State) (kind : Byte) (men : W64) (body : List Byte) : (s.sendModule kind men body).saf = s.saf := deliver_saf ..
@[simp] theorem sendModule_ptn (s : State) (kind : Byte) (men : W64) (body : List Byte) (p : PtnId) : (s.sendModule kind men body).ptn p = s.ptn p := deliver_ptn ..

/-! ## A partition's side of a fault (R438, R446) -/

theorem ptnFault_eq (s : State) (p : PtnId) (r : FRec) : ∃ ports m, s.ptnFault p r =
    ((s.updFlow p fun f => { f with lastMen := r.men, faultEvents := satInc f.faultEvents }).updFlow p fun f => { f with esn := f.esn + 1 }).deliver ports m :=
  ⟨_, _, rfl⟩

@[simp] theorem ptnFault_saf (s : State) (p : PtnId) (r : FRec) : (s.ptnFault p r).saf = s.saf := by
  obtain ⟨ports, m, heq⟩ := ptnFault_eq s p r
  rw [heq, deliver_saf, State.updFlow_saf, State.updFlow_saf]

theorem ptnFault_ptn_other (s : State) {p q : PtnId} (r : FRec) (hne : q ≠ p) : (s.ptnFault p r).ptn q = s.ptn q := by
  obtain ⟨ports, m, heq⟩ := ptnFault_eq s p r
  rw [heq, deliver_ptn]
  exact (State.ptn_updPtn_other _ p q _ hne).trans (State.ptn_updPtn_other s p q _ hne)

/-- A counter that has counted is not 0. -/
theorem satInc_ne_zero (x : W16) : satInc x ≠ 0 := by
  intro h0
  have hnat : (satInc x).toNat = 0 := congrArg BitVec.toNat h0
  rw [satInc, satAdd, BitVec.toNat_ofNat, Nat.mod_eq_of_lt (by omega)] at hnat
  omega

/-- A partition that has counted a fault is none of the partitions a table leaves out. -/
theorem ptn_counted_ne_default {x : Ptn} {n : W16} (hcount : x.flow.faultEvents = satInc n) : x ≠ {} := fun hx =>
  satInc_ne_zero n (hcount.symm.trans (congrArg (fun y : Ptn => y.flow.faultEvents) hx))

theorem ptnFault_ptn_same (s : State) (p : PtnId) (r : FRec) : ((s.ptnFault p r).ptn p).flow.lastMen = r.men ∧
    ((s.ptnFault p r).ptn p).flow.faultEvents = satInc (s.ptn p).flow.faultEvents := by
  obtain ⟨ports, m, heq⟩ := ptnFault_eq s p r
  have hfirst := State.ptn_updPtn_same s p (fun x => { x with flow := { x.flow with lastMen := r.men, faultEvents := satInc x.flow.faultEvents } })
    (ptn_counted_ne_default rfl)
  have hsecond := State.ptn_updPtn_same (s.updPtn p fun x => { x with flow := { x.flow with lastMen := r.men, faultEvents := satInc x.flow.faultEvents } }) p
    (fun x => { x with flow := { x.flow with esn := x.flow.esn + 1 } }) (ptn_counted_ne_default (by rw [hfirst]))
  have hboth : (s.ptnFault p r).ptn p = _ := (congrArg (State.ptn · p) heq).trans ((deliver_ptn _ ports m p).trans hsecond)
  rw [hboth, hfirst]
  exact ⟨rfl, rfl⟩

/-- The partitions a fault's record names take it in turn. -/
def State.ptnFaults (s : State) (ns : List Nat) (r : FRec) : State := ns.foldl (fun s n => s.ptnFault (Fin.ofNat 32 n) r) s

theorem ptnFaults_append (s : State) (as bs : List Nat) (r : FRec) : s.ptnFaults (as ++ bs) r = (s.ptnFaults as r).ptnFaults bs r := List.foldl_append

@[simp] theorem ptnFaults_saf (s : State) (ns : List Nat) (r : FRec) : (s.ptnFaults ns r).saf = s.saf := by
  induction ns generalizing s with
  | nil => rfl
  | cons n ns ih => exact (ih _).trans (ptnFault_saf s _ r)

theorem ptnFaults_ptn_other (s : State) {ns : List Nat} {p : PtnId} (r : FRec) (hlt : ∀ n ∈ ns, n < 32) (hp : p.val ∉ ns) : (s.ptnFaults ns r).ptn p = s.ptn p := by
  induction ns generalizing s with
  | nil => rfl
  | cons n ns ih =>
    have hne : p ≠ Fin.ofNat 32 n := fun he => hp (by
      rw [he, Fin.val_ofNat, Nat.mod_eq_of_lt (hlt n List.mem_cons_self)]
      exact List.mem_cons_self)
    exact (ih _ (fun m hm => hlt m (List.mem_cons_of_mem n hm)) fun hm => hp (List.mem_cons_of_mem n hm)).trans (ptnFault_ptn_other s r hne)

theorem ptnFaults_ptn_named (s : State) {ns : List Nat} {p : PtnId} (r : FRec) (hlt : ∀ n ∈ ns, n < 32) (hnodup : ns.Nodup) (hp : p.val ∈ ns) :
    ((s.ptnFaults ns r).ptn p).flow.lastMen = r.men ∧ ((s.ptnFaults ns r).ptn p).flow.faultEvents = satInc (s.ptn p).flow.faultEvents := by
  obtain ⟨as, bs, rfl⟩ := List.append_of_mem hp
  obtain ⟨-, hafter, hdisjoint⟩ := List.nodup_append.mp hnodup
  have hself : Fin.ofNat 32 p.val = p := Fin.ext ((Fin.val_ofNat ..).trans (Nat.mod_eq_of_lt p.isLt))
  have hbefore : (s.ptnFaults as r).ptn p = s.ptn p :=
    ptnFaults_ptn_other s r (fun n hn => hlt n (List.mem_append_left _ hn)) fun hm => hdisjoint _ hm _ List.mem_cons_self rfl
  have hrest : (s.ptnFaults (as ++ p.val :: bs) r).ptn p = ((s.ptnFaults as r).ptnFault p r).ptn p := by
    rw [ptnFaults_append, State.ptnFaults, List.foldl_cons, hself]
    exact ptnFaults_ptn_other _ r (fun n hn => hlt n (List.mem_append_right _ (List.mem_cons_of_mem _ hn))) (List.nodup_cons.mp hafter).1
  rw [hrest, ← hbefore]
  exact ptnFault_ptn_same (s.ptnFaults as r) p r

theorem mem_setBits {v w n : Nat} : n ∈ setBits v w ↔ n < w ∧ bitAt v n = true := by rw [setBits, List.mem_filter, List.mem_range]

theorem nodup_setBits (v w : Nat) : (setBits v w).Nodup := List.nodup_range.filter _

/-! ## The sticky log (R439, R441) -/

theorem dropFirst_eq_eraseP {α : Type} (p : α → Bool) (l : List α) : dropFirst p l = l.eraseP p := by
  induction l with
  | nil => rfl
  | cons a l ih => rw [dropFirst, List.eraseP_cons, ih]; cases p a <;> rfl

theorem enter_room {f : Saf} (r : FRec) (hroom : f.log.length < 512) : f.enter r = { f with log := f.log ++ [r] } := if_pos hroom

theorem enter_replaces {f : Saf} (r : FRec) (hfull : 512 ≤ f.log.length) (halert : (f.log.any fun x => x.severity = 1) = true) :
    f.enter r = { f with log := dropFirst (·.severity = 1) f.log ++ [r] } := (if_neg (Nat.not_lt.mpr hfull)).trans (if_pos halert)

theorem enter_loses {f : Saf} (r : FRec) (hfull : 512 ≤ f.log.length) (halert : (f.log.any fun x => x.severity = 1) = false) :
    f.enter r = { f with logLost := satInc f.logLost } := (if_neg (Nat.not_lt.mpr hfull)).trans (if_neg (by rw [halert]; decide))

/-- A record changes the log and the count of lost records only. -/
theorem enter_frame (f : Saf) (r : FRec) : f.enter r = { f with log := (f.enter r).log, logLost := (f.enter r).logLost } := by
  unfold Saf.enter
  split
  · rfl
  · split <;> rfl

/-- What becomes of the log and of the count of lost records rests on nothing else. -/
theorem enter_log_congr {f g : Saf} {r : FRec} (hlog : f.log = g.log) (hlost : f.logLost = g.logLost) :
    (f.enter r).log = (g.enter r).log ∧ (f.enter r).logLost = (g.enter r).logLost := by
  unfold Saf.enter
  rw [hlog]
  split
  · exact ⟨rfl, hlost⟩
  · split
    · exact ⟨rfl, hlost⟩
    · exact ⟨rfl, congrArg satInc hlost⟩

/-- A pin changes neither the log nor the counts. -/
theorem pin_frame (f : Saf) (r : FRec) : f.pin r = { f with faultPend := (f.pin r).faultPend, alertPend := (f.pin r).alertPend } := by
  unfold Saf.pin
  split <;> rfl

theorem pin_fault {f : Saf} {r : FRec} (hsev : r.severity = 2) : f.pin r = { f with faultPend := true } := if_pos hsev
theorem pin_alert {f : Saf} {r : FRec} (hsev : r.severity = 1) : f.pin r = { f with alertPend := true } := if_neg (by rw [hsev]; decide)

/-- The oldest ALERT record makes room. -/
theorem dropFirst_alert {log : List FRec} (halert : (log.any fun x => x.severity = 1) = true) : ∃ as x bs, log = as ++ x :: bs ∧ x.severity = 1 ∧
    (∀ y ∈ as, y.severity ≠ 1) ∧ dropFirst (·.severity = 1) log = as ++ bs := by
  obtain ⟨x, hx, hsev⟩ := List.any_eq_true.mp halert
  obtain ⟨y, as, bs, hbefore, hy, hlog, herase⟩ := List.exists_of_eraseP (p := fun z : FRec => decide (z.severity = 1)) hx hsev
  exact ⟨as, y, bs, hlog, of_decide_eq_true hy, fun z hz hz1 => hbefore z hz (decide_eq_true hz1), (dropFirst_eq_eraseP _ log).trans herase⟩

/-! ## The record of a fault (R431, R436 to R441) -/

theorem recordFault_waits {s : State} (r : FRec) (hrestart : s.saf.stewRestart = true) :
    s.recordFault r = { s with saf := { s.saf with deferred := s.saf.deferred ++ [(r, [])] } } := if_pos hrestart

section Recorded
variable {s : State} (r : FRec) (hrun : s.saf.stewRestart = false)
include hrun

/-- The record under its MEN goes to the log and its pin, to the partitions named, and out on the ports. -/
theorem recordFault_eq : let m : FRec := { r with men := s.saf.nextMen }
    s.recordFault r = (({ s.takeMen with saf := (s.takeMen.saf.enter m).pin m } : State).ptnFaults (setBits r.ptnMask.toNat 32) m).sendModule 0x10 m.men m.bytes := by
  intro m
  unfold State.recordFault
  rw [hrun]
  rfl

theorem recordFault_saf : let m : FRec := { r with men := s.saf.nextMen }
    (s.recordFault r).saf = (s.takeMen.saf.enter m).pin m := by
  intro m
  rw [recordFault_eq r hrun, sendModule_saf, ptnFaults_saf]

theorem recordFault_nextMen : (s.recordFault r).saf.nextMen = s.saf.nextMen + 1 := by
  rw [recordFault_saf r hrun, pin_frame, enter_frame]
  rfl

theorem recordFault_ptn_named {p : PtnId} (hp : bitAt r.ptnMask.toNat p.val = true) : ((s.recordFault r).ptn p).flow.lastMen = s.saf.nextMen ∧
    ((s.recordFault r).ptn p).flow.faultEvents = satInc (s.ptn p).flow.faultEvents := by
  rw [recordFault_eq r hrun, sendModule_ptn]
  exact ptnFaults_ptn_named _ _ (fun n hn => (mem_setBits.mp hn).1) (nodup_setBits _ _) (mem_setBits.mpr ⟨p.isLt, hp⟩)

theorem recordFault_ptn_other {p : PtnId} (hp : bitAt r.ptnMask.toNat p.val = false) : (s.recordFault r).ptn p = s.ptn p := by
  rw [recordFault_eq r hrun, sendModule_ptn]
  exact ptnFaults_ptn_other _ _ (fun n hn => (mem_setBits.mp hn).1) fun hm => Bool.false_ne_true (hp.symm.trans (mem_setBits.mp hm).2)

/-- What the log, the count of lost records and the pins are after a record. -/
theorem recordFault_log : let m : FRec := { r with men := s.saf.nextMen }
    (s.recordFault r).saf.log = (s.saf.enter m).log ∧ (s.recordFault r).saf.logLost = (s.saf.enter m).logLost := by
  intro m
  rw [recordFault_saf r hrun, pin_frame]
  exact enter_log_congr rfl rfl

theorem recordFault_pins : (r.severity = 2 → (s.recordFault r).saf.faultPend = true ∧ (s.recordFault r).saf.alertPend = s.saf.alertPend) ∧
    (r.severity = 1 → (s.recordFault r).saf.alertPend = true ∧ (s.recordFault r).saf.faultPend = s.saf.faultPend) := by
  rw [recordFault_saf r hrun]
  refine ⟨fun hsev => ?_, fun hsev => ?_⟩
  · rw [pin_fault (by exact hsev), enter_frame]
    exact ⟨rfl, rfl⟩
  · rw [pin_alert (by exact hsev), enter_frame]
    exact ⟨rfl, rfl⟩

end Recorded

end Sys2Proof.Machine

/-! ## The statement -/

section
open Sys2Proof Sys2Proof.Machine

/-- Settles O37: the record's way through the log, the pins and the partitions named, each by what that part of the recording does; partitions in ascending
order, each once. -/
theorem faultRecording : Obligations.FaultRecording := by
  unfold Obligations.FaultRecording
  refine ⟨fun s r => recordFault_waits r, fun s r hrun => ?_, fun s hrestart => congrArg _ (if_pos hrestart), fun s hrun =>
    congrArg _ (if_neg (by rw [hrun]; decide))⟩
  intro t m
  obtain ⟨hlog, hlost⟩ := recordFault_log r hrun
  obtain ⟨hfault, halert⟩ := recordFault_pins r hrun
  refine ⟨recordFault_nextMen r hrun, fun hroom => ?room, fun hfull hany => ?replace, fun hfull hany => ?lose, hfault, halert,
    fun p => ⟨recordFault_ptn_named r hrun, recordFault_ptn_other r hrun⟩⟩
  case room =>
    rw [enter_room _ hroom] at hlog hlost
    exact ⟨hlog, hlost⟩
  case replace =>
    obtain ⟨as, x, bs, hsplit, hx, has, hdrop⟩ := dropFirst_alert hany
    rw [enter_replaces _ hfull hany] at hlog hlost
    exact ⟨as, x, bs, hsplit, hx, has, hlog.trans (congrArg (· ++ [m]) hdrop), hlost⟩
  case lose =>
    rw [enter_loses _ hfull hany] at hlog hlost
    exact ⟨hlog, hlost⟩

end
end

section
/-! PROOFS. The registers of the SAF block that name the next MEN and the retired units: what each reads, what a write of it does, and the statement that follows (R444). -/

namespace Sys2Proof.Machine

/-! ## Words of one bit each (R2) -/

/-- The number whose bit i is f i, for the bits below n, as a register word adds it up. -/
def bitSum (f : Nat → Bool) (n : Nat) : Nat := ((List.range n).map fun i => (i, b2n (f i))).foldl (fun a e => a + e.2 <<< e.1) 0

theorem bitSum_succ (f : Nat → Bool) (n : Nat) : bitSum f (n + 1) = 2 ^ n * b2n (f n) + bitSum f n := by
  simp only [bitSum, List.range_succ, List.map_append, List.foldl_append, List.map_cons, List.map_nil, List.foldl_cons, List.foldl_nil, Nat.shiftLeft_eq]
  rw [Nat.add_comm, Nat.mul_comm]

theorem bitSum_lt (f : Nat → Bool) (n : Nat) : bitSum f n < 2 ^ n := by
  induction n with
  | zero => exact Nat.one_pos
  | succ n ih =>
    have hbit : 2 ^ n * b2n (f n) ≤ 2 ^ n := by cases f n <;> simp [b2n]
    rw [bitSum_succ, Nat.pow_succ]
    omega

theorem testBit_bitSum (f : Nat → Bool) {n i : Nat} (hi : i < n) : (bitSum f n).testBit i = f i := by
  induction n with
  | zero => exact absurd hi (Nat.not_lt_zero i)
  | succ n ih =>
    rw [bitSum_succ, Nat.testBit_two_pow_mul_add _ (bitSum_lt f n)]
    split
    case isTrue hlt => exact ih hlt
    case isFalse hge =>
      have heq : i = n := by omega
      rw [heq, Nat.sub_self]
      cases f n <;> rfl

theorem getLsbD_word_bits (f : Nat → Bool) {i : Nat} (hi : i < 64) : (word ((List.range 64).map fun b => (b, b2n (f b)))).getLsbD i = f i := by
  have hword : word ((List.range 64).map fun b => (b, b2n (f b))) = BitVec.ofNat 64 (bitSum f 64) := rfl
  rw [hword, BitVec.getLsbD_ofNat, decide_eq_true hi, Bool.true_and, testBit_bitSum f hi]

/-! ## Reads and writes of the block (R444) -/

/-- The SAF block is the fourth of the module's blocks. -/
theorem regBlock_saf {off : Nat} (ho : off < 0x10000) : regBlock (0xF0000040000 + off) = some (.saf, off) := by
  rw [regBlock, show 0xF0000040000 + off = 0xF0000000000 + 0x10000 * 4 + off from rfl, blkIn_instance (by decide) ho]
  rfl

theorem peek_saf (s : State) {off : Nat} (ho : off < 0x10000) : s.peek (0xF0000040000 + off) = s.readSaf off := by
  rw [State.peek, regBlock_saf ho]; rfl

theorem peek_nextMen (s : State) : s.peek (0xF0000040000 + 0x008) = s.saf.nextMen := peek_saf s (by decide)

theorem readSaf_mcRetired (s : State) {i : Nat} (hi : i < 4) :
    s.readSaf (0x100 + 8 * i) = word ((List.range 64).map fun b => (b, b2n (s.mcRetired (64 * i + b)))) := by
  match i, hi with
  | 0, _ => rfl
  | 1, _ => rfl
  | 2, _ => rfl
  | 3, _ => rfl

theorem peek_mcRetired (s : State) {i b : Nat} (hi : i < 4) (hb : b < 64) : (s.peek (0xF0000040000 + 0x100 + 8 * i)).getLsbD b = s.mcRetired (64 * i + b) := by
  rw [Nat.add_assoc, peek_saf s (by omega), readSaf_mcRetired s hi, getLsbD_word_bits (fun b => s.mcRetired (64 * i + b)) hb]

theorem peek_teRetired (s : State) {n : Nat} (hn : n < 64) : (s.peek (0xF0000040000 + 0x120)).getLsbD n = s.teRetired n := by
  rw [peek_saf s (by decide)]
  exact getLsbD_word_bits s.teRetired hn

/-- A write of the SAF block past its first register changes nothing. -/
theorem regPut_saf (s : State) {h : Hdr} {a : W64} {off : Nat} (v : RegVal) (hs : h.steward = true) (ha : a.toNat = 0xF0000040000 + off) (ho : off < 0x10000)
    (hpos : off ≠ 0) (halign : off % 8 = 0) : s.regPut h a v = (s, none) := by
  have hblock : regBlock a.toNat = some (.saf, off) := by rw [ha, regBlock_saf ho]
  have hok : s.regBad h a.toNat true = none := by rw [regBad_steward hblock hs, alignment_of_dvd (by omega)]
  rw [regPut_admitted hok hblock, State.putBlk]
  exact if_neg hpos

/-- No unit is retired at reset. -/
theorem reset_mcRetired (n : Nat) : State.reset.mcRetired n = false := rfl
theorem reset_teRetired (n : Nat) : State.reset.teRetired n = false := rfl

end Sys2Proof.Machine

/-! ## The statement -/

section
open Sys2Proof Sys2Proof.Machine

/-- Settles O60: each register by what its offset in the SAF block reads, bit by bit for the retired units, and every write by the block's first register alone
taking one. -/
theorem retiredUnitRegisters : Obligations.RetiredUnitRegisters := by
  unfold Obligations.RetiredUnitRegisters
  refine ⟨fun s => ⟨peek_nextMen s, ?taken, ?reply, fun i b => peek_mcRetired s, fun n => peek_teRetired s, ?write⟩, peek_nextMen State.reset, ?tes, ?mcs⟩
  case taken => rw [peek_nextMen, peek_nextMen]; rfl
  case reply =>
    intro h m hs
    rw [peek_nextMen, State.sendReply, if_pos hs]
  case write =>
    rintro h a v hs (ha | ha | ⟨i, hi, ha⟩)
    · exact regPut_saf s v hs ha (by decide) (by decide) (by decide)
    · exact regPut_saf s v hs ha (by decide) (by decide) (by decide)
    · exact regPut_saf s v hs (ha.trans (Nat.add_assoc ..)) (by omega) (by omega) (by omega)
  case tes =>
    refine BitVec.eq_of_getLsbD_eq fun n hn => ?_
    rw [peek_teRetired State.reset hn, reset_teRetired]
    exact BitVec.getLsbD_zero.symm
  case mcs =>
    intro i hi
    refine BitVec.eq_of_getLsbD_eq fun b hb => ?_
    rw [peek_mcRetired State.reset hi hb, reset_mcRetired]
    exact BitVec.getLsbD_zero.symm

end
end

section
/-! PROOFS. The boot flash behind I3C: when an access is made and when it is refused, what the end of an operation leaves in the flash, and the statement that follows (R447, R497, R498). -/

namespace Sys2Proof.Machine

/-! ## Lists written into a table none of whose values is the default -/

theorem get_putList_before {α : Type} [DecidableEq α] {d : α} (t : Tab α) {k j : Nat} (vs : List α) (hj : j < k) : (t.putList d k vs).get d j = t.get d j := by
  induction vs generalizing t k with
  | nil => rfl
  | cons v vs ih => exact (ih (t.put d k v) (by omega)).trans (Tab.get_put_ne t k j v (by omega))

theorem get_putList_after {α : Type} [DecidableEq α] {d : α} (t : Tab α) {k j : Nat} (vs : List α) (hj : k + vs.length ≤ j) : (t.putList d k vs).get d j = t.get d j := by
  induction vs generalizing t k with
  | nil => rfl
  | cons v vs ih =>
    rw [List.length_cons] at hj
    exact (ih (t.put d k v) (by omega)).trans (Tab.get_put_ne t k j v (by omega))

theorem get_putList_written {α : Type} [DecidableEq α] {d v : α} (t : Tab α) (k : Nat) {i : Nat} {vs : List α} (hv : v ≠ d) (hget : vs[i]? = some v) :
    (t.putList d k vs).get d (k + i) = v := by
  induction vs generalizing t k i with
  | nil => exact absurd hget (by simp)
  | cons w vs ih =>
    cases i with
    | zero =>
      have hwv : w = v := by simpa using hget
      rw [Nat.add_zero, Tab.putList, get_putList_before _ vs (Nat.lt_succ_self k), hwv, Tab.get_put_eq t k v hv]
    | succ i =>
      have hrest : vs[i]? = some v := by simpa using hget
      rw [Tab.putList, show k + (i + 1) = k + 1 + i by omega]
      exact ih (t.put d k w) (k + 1) hrest

/-! ## Bytes written into the flash (R447) -/

/-- The state with these bytes written into the flash from an offset on. -/
def State.flashPut (s : State) (o : Nat) (bs : List Byte) : State := { s with flash := s.flash.putList none o (bs.map some) }

/-- A byte of the flash rests on the flash's table and the seed of the saved log alone. -/
theorem flashAt_congr {s t : State} {a : Nat} (hget : t.flash.get none a = s.flash.get none a) (hseed : t.saf.logSeed = s.saf.logSeed) : t.flashAt a = s.flashAt a := by
  unfold State.flashAt
  rw [hget, hseed]

theorem flashAt_of_get {s : State} {a : Nat} {b : Byte} (hget : s.flash.get none a = some b) : s.flashAt a = b := by
  unfold State.flashAt
  rw [hget]

theorem flashAt_flashPut_in (s : State) (o : Nat) {bs : List Byte} {i : Nat} (hi : i < bs.length) : (s.flashPut o bs).flashAt (o + i) = bs.getD i 0 := by
  refine flashAt_of_get (get_putList_written s.flash o (Option.some_ne_none _) ?_)
  rw [List.getElem?_map, List.getElem?_eq_getElem hi, List.getD_eq_getElem?_getD, List.getElem?_eq_getElem hi]
  rfl

theorem flashAt_flashPut_out (s : State) {o a : Nat} {bs : List Byte} (ha : a < o ∨ o + bs.length ≤ a) : (s.flashPut o bs).flashAt a = s.flashAt a := by
  refine flashAt_congr ?_ rfl
  rcases ha with hbefore | hafter
  · exact get_putList_before s.flash _ hbefore
  · exact get_putList_after s.flash _ (by rw [List.length_map]; exact hafter)

/-! ## Accesses of I3C (R497, R498) -/

theorem onI3c_powered {s t : State} {f : State → State} (hpower : s.phase ≠ .off) (hf : f s = t) : s.onI3c f = .next t :=
  congrArg _ ((if_neg hpower).trans hf)

section Access
variable {s : State} (hpower : s.phase ≠ .off)
include hpower

section Free
variable (hrst : s.pins.rstN = false) (howned : s.i3c.owned = true) (hidle : s.i3c.busy = false)
include hrst howned hidle

omit hpower in
theorem flashFree_of_bounds {off n : Nat} (hn : off + n ≤ 67108864) : s.flashFree off n = true := by
  have hbound : off + n ≤ flashBytes := hn
  simp only [State.flashFree, hrst, howned, hidle, decide_eq_true hbound, Bool.not_false, Bool.and_self]

theorem flashRead_answers {o : W32} {n : W16} (hlo : 1 ≤ n.toNat) (hhi : n.toNat ≤ 256) (hfit : o.toNat + n.toNat ≤ 67108864) :
    exec (.flashRead o n) s = .next { s with i3c := { s.i3c with read := (List.range n.toNat).map fun i => s.flashAt (o.toNat + i) } } := by
  simp only [exec, execFlashRead]
  refine onI3c_powered hpower ?_
  refine if_pos ?_
  simp only [flashFree_of_bounds hrst howned hidle hfit, decide_eq_true hlo, decide_eq_true hhi, Bool.and_self]

theorem flashWrite_begins {o : W32} {bs : List Byte} (halign : o.toNat % 256 = 0) (hlen : bs.length = 256) (hfit : o.toNat + 256 ≤ 67108864) :
    exec (.flashWrite o bs) s = .next (s.flashStart o.toNat bs) := by
  simp only [exec, execFlashWrite]
  refine onI3c_powered hpower ?_
  refine if_pos ?_
  simp only [flashFree_of_bounds hrst howned hidle hfit, decide_eq_true halign, decide_eq_true hlen, Bool.and_self]

theorem flashErase_begins {o : W32} (halign : o.toNat % 65536 = 0) (hfit : o.toNat + 65536 ≤ 67108864) :
    exec (.flashErase o) s = .next (s.flashStart o.toNat (List.replicate 65536 0xFF)) := by
  simp only [exec, execFlashErase]
  refine onI3c_powered hpower ?_
  refine if_pos ?_
  simp only [flashFree_of_bounds hrst howned hidle hfit, decide_eq_true halign, Bool.and_self]

end Free

section Refused
variable (htaken : s.pins.rstN = true ∨ s.i3c.owned = false ∨ s.i3c.busy = true)
include htaken

omit hpower in
theorem flashFree_taken (off n : Nat) : s.flashFree off n = false := by
  rcases htaken with h | h | h <;> simp [State.flashFree, h]

theorem flashRead_refused (o : W32) (n : W16) : exec (.flashRead o n) s = .next (s.i3cBad n.toNat) := by
  simp only [exec, execFlashRead]
  refine onI3c_powered hpower ?_
  refine if_neg ?_
  rw [flashFree_taken htaken, Bool.and_false]
  exact Bool.false_ne_true

theorem flashWrite_refused (o : W32) (bs : List Byte) : exec (.flashWrite o bs) s = .next (s.i3cBad 0) := by
  simp only [exec, execFlashWrite]
  refine onI3c_powered hpower ?_
  refine if_neg ?_
  rw [flashFree_taken htaken, Bool.and_false]
  exact Bool.false_ne_true

theorem flashErase_refused (o : W32) : exec (.flashErase o) s = .next (s.i3cBad 0) := by
  simp only [exec, execFlashErase]
  refine onI3c_powered hpower ?_
  refine if_neg ?_
  rw [flashFree_taken htaken, Bool.and_false]
  exact Bool.false_ne_true

end Refused

end Access

/-! ## The end of an operation (R498) -/

theorem flashOperationComplete_i3c {s : State} {o : Nat} {bs : List Byte} (hop : s.i3c.op = some (o, bs)) :
    exec .flashOperationComplete s = .next { s.flashPut o bs with i3c := { s.i3c with busy := false, op := none } } := by
  simp only [exec, execFlashOperationComplete, hop]
  rfl

theorem flashOperationComplete_steward {s : State} (hop : s.i3c.op = none) (hbusy : s.flashBusy = true) :
    exec .flashOperationComplete s = .next { s with flashBusy := false, i3c := { s.i3c with owned := !s.pins.rstN } } := by
  simp only [exec, execFlashOperationComplete, hop, hbusy, if_true]

end Sys2Proof.Machine

/-! ## The statement -/

section
open Sys2Proof Sys2Proof.Machine

/-- Settles O32: each access by whether the flash is free for it, and the end of an operation by what a list written into the flash leaves to be read. -/
theorem bootFlash : Obligations.BootFlash := by
  unfold Obligations.BootFlash
  refine ⟨fun s hpower => ⟨fun hrst howned hidle => ⟨?reads, ?writes, ?erases⟩, fun htaken o n bs => ⟨flashRead_refused hpower htaken o n,
    flashWrite_refused hpower htaken o bs, flashErase_refused hpower htaken o⟩⟩, ?ends, fun s => flashOperationComplete_steward⟩
  case reads => exact fun o n => flashRead_answers hpower hrst howned hidle
  case writes => exact fun o bs => flashWrite_begins hpower hrst howned hidle
  case erases => exact fun o => flashErase_begins hpower hrst howned hidle
  case ends => exact fun s o bs hop => ⟨_, flashOperationComplete_i3c hop, rfl, fun i hi => flashAt_flashPut_in s o hi, fun a ha => flashAt_flashPut_out s ha⟩

end
end

section
/-! PROOFS. Debug accesses of the JTAG port: what an unlock in force lets through, by the bit of its scope, and the statement that follows (R461, R463, R499). -/

namespace Sys2Proof.Machine

section Unlocked
variable {s : State} {k : Unlock} {p : PtnId}

/-- An access within the scope of an unlock that names the partition is made. -/
theorem debugAccess_made {b : Fin 5} {mc : McId} {a : W64} {w : Option W64} (hunlock : s.sec.unlock = some k) (hopen : s.slOpen p = true)
    (hbit : bitAt k.scope.toNat b.val = true) : exec (.safelightDebugAccess b p mc a w) s = .next (s.debugAccess p mc.val a.toNat w b.val) := by
  simp only [exec, execSafelightDebugAccess, hunlock, hopen, hbit, Bool.and_self, if_true]

theorem debugAccess_outOfScope {b : Fin 5} {mc : McId} {a : W64} {w : Option W64} (hunlock : s.sec.unlock = some k) (hbit : bitAt k.scope.toNat b.val = false) :
    exec (.safelightDebugAccess b p mc a w) s = .next s := by
  simp only [exec, execSafelightDebugAccess, hunlock, hbit, Bool.and_false, Bool.false_eq_true, if_false]

/-- An access to a partition that no unlock in force names changes nothing, whether or not there is one. -/
theorem debugAccess_closed {b : Fin 5} {mc : McId} {a : W64} {w : Option W64} (hclosed : s.slOpen p = false) :
    exec (.safelightDebugAccess b p mc a w) s = .next s := by
  simp only [exec, execSafelightDebugAccess, hclosed, Bool.false_and, Bool.false_eq_true, if_false]
  cases s.sec.unlock <;> rfl

/-! ## What an access within each scope does (R463) -/

theorem debugAccess_readsPrivate (mc : Nat) {a : Nat} (hwin : s.debugWin p a false false = true) : s.debugAccess p mc a none 1 = s.debugRead p a :=
  if_pos (by rw [hwin]; rfl)

theorem debugAccess_writesPrivate (mc : Nat) {a : Nat} (v : W64) (hwin : s.debugWin p a false true = true) :
    s.debugAccess p mc a (some v) 2 = s.debugWrite p a v := if_pos hwin

theorem debugAccess_readsShared (mc : Nat) {a : Nat} (hmapped : (s.ptn p).sharedMapped = true) (hwin : s.debugWin p a true false = true) :
    s.debugAccess p mc a none 4 = s.debugRead p a := if_pos (by rw [hmapped, hwin]; rfl)

/-- An aligned register of the partition's own block is exposed. -/
theorem debugReg_own {a o : Nat} (w : Option W64) (halign : a % 8 = 0) (hblock : regBlock a = some (.ptn p, o)) : s.debugReg p a w =
    w.elim (s.debugDone (s.peek a)) fun v => (s.putBlk (.ptn p) o true ⟨v, 0⟩).1.debugDone v := by
  simp only [State.debugReg, hblock, State.debugBlk, halign, ne_eq, not_true_eq_false, decide_false, decide_true, Bool.not_true, Bool.or_self,
    Bool.false_eq_true, if_false]
  cases w <;> rfl

end Unlocked

end Sys2Proof.Machine

/-! ## The statement -/

section
open Sys2Proof Sys2Proof.Machine

/-- Settles O33: the scan registers as the instructions load them, and each debug access by the bit of the scope that lets it through. -/
theorem jtagPort : Obligations.JtagPort := by
  unfold Obligations.JtagPort
  refine fun s => ⟨rfl, rfl, rfl, fun hlow => ?_, fun hhigh => ?_, fun k p mc a hunlock hopen => ?_, fun b p mc a w => debugAccess_closed⟩
  · exact if_neg (by rw [hlow]; exact Bool.false_ne_true)
  · exact if_pos hhigh
  refine ⟨fun b hbit w => debugAccess_outOfScope hunlock hbit, fun hbit hwin => ?readPrivate, fun hbit hwin v => ?writePrivate, fun hbit halign o hblock => ?reg,
    fun hbit hmapped hwin => ?readShared⟩
  case readPrivate => rw [debugAccess_made hunlock hopen hbit]; exact congrArg _ (debugAccess_readsPrivate _ hwin)
  case writePrivate => rw [debugAccess_made hunlock hopen hbit]; exact congrArg _ (debugAccess_writesPrivate _ v hwin)
  case reg =>
    refine ⟨?_, fun v => ?_⟩
    · rw [debugAccess_made hunlock hopen hbit]; exact congrArg _ (debugReg_own none halign hblock)
    · rw [debugAccess_made hunlock hopen hbit]; exact congrArg _ (debugReg_own (some v) halign hblock)
  case readShared => rw [debugAccess_made hunlock hopen hbit]; exact congrArg _ (debugAccess_readsShared _ hmapped hwin)

end
end

section
/-! PROOFS. Quotes and traffic keys: each mode of KEY_EXCHANGE by what the slots hold, and the statement that follows (R449, R458, R459). -/

namespace Sys2Proof.Machine

/-! ## The modes of KEY_EXCHANGE (R459) -/

section Modes
variable {z : State} {h : Hdr} {slot src : Nat} {bs : List Byte}

theorem kxRun_complete {d : Nat} {q : Nat × Nat} (hpend : (z.tkey h.ptn slot).pend = some d) (hpoint : P256.ofBytes bs = some q) :
    z.kxRun h 1 slot src bs = z.kxComplete h slot d bs q := by
  simp only [State.kxRun, hpend, hpoint]

theorem kxRun_incomplete (hmissing : (z.tkey h.ptn slot).pend = none ∨ P256.ofBytes bs = none) :
    z.kxRun h 1 slot src bs = z.closeItem h 0 (some St.eParam) := by
  simp only [State.kxRun]
  rcases hmissing with hnone | hnone
  · rw [hnone]
  · rw [hnone]
    cases (z.tkey h.ptn slot).pend <;> rfl

theorem kxRun_export {kek key : List Byte} (hkek : (z.tkey h.ptn src).key = some kek) (hkey : (z.tkey h.ptn slot).key = some key) :
    z.kxRun h 3 slot src bs = z.answer h (keyWrap kek key) := by
  simp only [State.kxRun, hkek, State.kxExport, hkey]

theorem kxRun_unwrapped (hkek : (z.tkey h.ptn src).key = none) : z.kxRun h 3 slot src bs = z.closeItem h 0 (some St.eParam) ∧
    z.kxRun h 4 slot src bs = z.closeItem h 0 (some St.eParam) := by
  simp only [State.kxRun, hkek, and_self]

end Modes

section Commands
variable {s u : State} {h : Hdr}

theorem attestQuote_answers {nonce : List Byte} {chain : Bool} (hu : s.startsNow h 0x130 (.attestQuote h nonce chain) = some u) :
    exec (.attestQuote h nonce chain) s = .next ((((u.open' h 1).quote h nonce chain).1.answer h ((u.open' h 1).quote h nonce chain).2).settle h) :=
  congrArg _ (queued_passed hu rfl)

/-- KEY_EXCHANGE of a mode and slots in range does what its mode does. -/
theorem keyExchange_runs {mode slot src : Byte} {data : List Byte} (hu : s.startsNow h 0x131 (.keyExchange h mode slot src data) = some u)
    (hmode : mode.toNat ≤ 4) (hslot : slot.toNat ≤ 15) (hsrc : src.toNat ≤ 15) : exec (.keyExchange h mode slot src data) s =
      .next (((u.open' h 1).kxRun h mode.toNat slot.toNat src.toNat (padTo 64 data)).settle h) := by
  refine congrArg _ (queued_passed hu (if_neg ?_))
  simp only [Nat.not_lt.mpr hmode, Nat.not_lt.mpr hslot, Nat.not_lt.mpr hsrc, decide_false, Bool.or_self, Bool.false_eq_true, not_false_eq_true]

end Commands

end Sys2Proof.Machine

/-! ## The statement -/

section
open Sys2Proof Sys2Proof.Machine

/-- Settles O34: the quote as it is put together and signed, and KEY_EXCHANGE by its mode and what the slots hold. -/
theorem quotesAndKeys : Obligations.QuotesAndKeys := by
  unfold Obligations.QuotesAndKeys
  refine fun s u h => ⟨fun nonce chain hu => attestQuote_answers hu, fun mode slot src data hu hmode hslot hsrc => ?_⟩
  intro z t bs run
  have hrun : run = .next ((z.kxRun h mode.toNat slot.toNat src.toNat bs).settle h) := keyExchange_runs hu hmode hslot hsrc
  refine ⟨fun hm => ?generate, fun hm d q hpend hpoint => ?complete, fun hm => ?random, fun hm kek key hkek hkey => ?wraps, fun hm kek hkek => ?unwraps, ?fails⟩
  all_goals rw [hrun]
  case generate => rw [hm]; rfl
  case complete => rw [hm, ← kxRun_complete hpend hpoint]; rfl
  case random => rw [hm]; rfl
  case wraps => rw [hm, ← kxRun_export hkek hkey]; rfl
  case unwraps =>
    rw [hm]
    simp only [State.kxRun, hkek] <;> rfl
  case fails =>
    rintro (⟨hm, hmissing⟩ | ⟨hm | hm, hkek⟩)
    · rw [hm, ← kxRun_incomplete hmissing]; rfl
    · rw [hm, ← (kxRun_unwrapped hkek).1]; rfl
    · rw [hm, ← (kxRun_unwrapped hkek).2]; rfl

end
end

section
/-! PROOFS. Safelight: what a token opens, each mode of SAFELIGHT_UNLOCK, and the statement that follows (R461 to R464). -/

namespace Sys2Proof.Machine

/-! ## What a token opens (R462) -/

/-- Marking the named partitions leaves the security block as it was. -/
theorem slSeen_sec (s : State) (ps : List PtnId) : (ps.foldl (fun (z : State) p => z.updFlow p fun f => { f with slSeen := true }) s).sec = s.sec := by
  induction ps generalizing s with
  | nil => rfl
  | cons p ps ih => exact (ih _).trans (State.updFlow_sec s p _)

/-- The partitions a token's mask names, as they were created. -/
def State.tokenPtns (s : State) (t : Token) : List (Nat × W64) :=
  (ptnIds.filter fun p => bitAt t.ptnMask.toNat p.val).map fun p => (p.val, (s.ptn p).flow.createMen)

theorem openSafelight_sec (s : State) (t : Token) : (s.openSafelight t).sec = { s.sec with
    unlock := some { ptns := s.tokenPtns t, mask := t.ptnMask, scope := BitVec.ofNat 5 t.scope.toNat, remainS := BitVec.ofNat 17 t.durationS.toNat }
    challenge := none } := slSeen_sec _ _

/-! ## SAFELIGHT_UNLOCK (R461 to R463) -/

section Modes
variable {s u : State} {h : Hdr} {t : Token} (hu : s.runsNow h 0xF04 = some u)
include hu

theorem safelight_challenges {d : State} {bs : List Byte} (hdraw : u.draw = (d, bs)) : exec (.safelightUnlock h 0 t) s =
    .next (State.replied { d with sec := { d.sec with challenge := some bs } } h [doneItem] (bs ++ padTo 16 u.sec.ueid)) := by
  refine congrArg _ ((atOnce_replied hu rfl).trans ?_)
  rw [hdraw]

/-- A token of the right form is checked, and then opens its scope. -/
theorem safelight_unlocks (hmagic : t.magic = 0x4B535141) (hpos : t.durationS ≠ 0) (hmax : t.durationS.toNat ≤ 86400) : exec (.safelightUnlock h 1 t) s =
    .next (if u.tokenBad t then u.reject h 0xF04 St.eAccess else (u.openSafelight t).replied h [doneItem] []) := by
  have hform : ¬(decide (t.magic ≠ 0x4B535141) || decide (t.durationS = 0) || decide (t.durationS.toNat > 86400)) = true := by
    simp only [hmagic, hpos, Nat.not_lt.mpr hmax, ne_eq, not_true_eq_false, decide_false, Bool.or_self, Bool.false_eq_true, not_false_eq_true]
  by_cases hbad : u.tokenBad t = true
  · rw [if_pos hbad]
    exact congrArg _ (atOnce_rejected hu ((if_neg hform).trans (if_pos hbad)))
  · rw [if_neg hbad]
    exact congrArg _ (atOnce_replied hu ((if_neg hform).trans (if_neg hbad)))

theorem safelight_malformed (hform : t.magic ≠ 0x4B535141 ∨ t.durationS = 0 ∨ 86400 < t.durationS.toNat) :
    exec (.safelightUnlock h 1 t) s = .next (u.reject h 0xF04 St.eParam) := by
  refine congrArg _ (atOnce_rejected hu (if_pos ?_))
  simpa only [Bool.or_eq_true, decide_eq_true_eq, or_assoc] using hform

theorem safelight_locks : exec (.safelightUnlock h 2 t) s = .next (State.replied { u with sec := { u.sec with unlock := none } } h [doneItem] []) :=
  congrArg _ (atOnce_replied hu rfl)

theorem safelight_otherMode {m : Byte} (hm : 3 ≤ m.toNat) : exec (.safelightUnlock h m t) s = .next (u.reject h 0xF04 St.eParam) := by
  simp only [exec, execSafelightUnlock]
  refine congrArg _ (atOnce_rejected hu ?_)
  split
  case h_4 => rfl
  all_goals omega

end Modes

end Sys2Proof.Machine

/-! ## The statement -/

section
open Sys2Proof Sys2Proof.Machine

/-- Settles O35: SAFELIGHT_UNLOCK by its mode and the token's form, what a token opens, and the expiries. -/
theorem safelight : Obligations.Safelight := by
  unfold Obligations.Safelight
  refine ⟨fun s u h t hu => ⟨fun d bs => safelight_challenges hu, safelight_unlocks hu, safelight_malformed hu, safelight_locks hu, fun m => safelight_otherMode hu⟩,
    fun s t => ?opens, fun s => ⟨rfl, rfl, rfl⟩⟩
  intro v
  have hsec : v.sec = _ := openSafelight_sec s t
  rw [hsec]
  exact ⟨rfl, _, rfl, rfl, rfl⟩

end
end

section
/-! PROOFS. Test strips: what a strip's end decides in each state of its unit, what STRIP_NOW opens, and the statement that follows (R419 to R429, R469). -/

namespace Sys2Proof.Machine

/-! ## A strip falls due, starts and ends (R294, R420, R421, R424) -/

section Core
variable {s : State} {m : McId}

theorem stripDue_marks (hidle : (s.mc m.val).strip.st = .idle) (hservice : s.mcRetired m.val = false) (hawake : s.inL0 (m.val / 8) = true) :
    exec (.stripDue m) s = .next (s.updStrip m.val fun x => { x with st := .due }) := by
  refine congrArg _ (if_pos ?_)
  rw [decide_eq_true hidle, hservice, hawake]
  rfl

theorem stripStart_starts (hdue : (s.mc m.val).strip.st = .due) (hboundary : (s.mc m.val).boundary = true) (hfree : (s.mc m.val).tiles = 0)
    (hgo : s.stopAsked m.val = false) : exec (.stripStart m) s = .next (s.updStrip m.val fun x => { x with st := .first }) := by
  refine congrArg _ (if_pos ?_)
  rw [decide_eq_true hdue, hboundary, decide_eq_true hfree, hgo]
  rfl

theorem teStripEnd_ends {e : TeId} {r : StripResult} {stamp : W64} (hruns : (s.te e.val).strip.retired = false ∨ (s.te e.val).strip.active = true) :
    exec (.teStripEnd e r stamp) s = .next (s.stripResult (256 + e.val) r stamp) := by
  refine congrArg _ (if_neg ?_)
  rcases hruns with hservice | hactive
  · rw [hservice, Bool.false_and]
    exact Bool.false_ne_true
  · rw [hactive, Bool.not_true, Bool.and_false]
    exact Bool.false_ne_true

end Core

/-! ## The result of a strip (R422 to R425, R429) -/

section Result
variable (s : State) (u : Nat) (r : StripResult) (stamp : W64)

/-- Every strip that ends is counted, and a failing one twice. -/
def State.stripCounted : State :=
  s.updStrip u fun x => { x with strips := satInc x.strips, rotation := x.rotation + 1, fails := if r.isSome then satInc x.fails else x.fails }

variable {s u r}

theorem stripResult_second {sig : W32} (hst : (unitStrip s u).st = .second sig) : let m := (s.stripCounted u r).suspectAll u
    (r = none → let v := m.1.updStrip u fun x => { x with st := .idle }
      s.stripResult u r stamp = ((v.faultWith (v.unitRec u 1 1 0x0101 sig stamp) m.2).endWaiters u none).reportAll) ∧
    (r ≠ none → let t := m.1.retire u
      s.stripResult u r stamp = ((t.1.faultWith (t.1.unitRec u 1 2 0x0102 sig stamp) (m.2 ++ t.2)).endWaiters u (some St.eHwFault)).reportAll) := by
  intro m
  unfold State.stripResult
  rw [hst]
  cases r with
  | none => exact ⟨fun _ => rfl, fun hfail => absurd rfl hfail⟩
  | some sig' => exact ⟨fun hpass => absurd hpass (Option.some_ne_none _), fun _ => rfl⟩

theorem stripResult_revive {n : Nat} (hst : (unitStrip s u).st = .revive n) : let z := s.stripCounted u r
    (r ≠ none → s.stripResult u r stamp = (z.updStrip u fun x => { x with st := .idle }).endWaiters u (some St.eHwFault)) ∧
    (r = none → n + 1 < 8 → s.stripResult u r stamp = z.updStrip u fun x => { x with st := .revive (n + 1) }) ∧
    (r = none → 8 ≤ n + 1 → s.stripResult u r stamp = ((z.updStrip u fun x => { x with st := .idle, retired := false }).service u stamp).endWaiters u none) := by
  intro z
  unfold State.stripResult
  rw [hst]
  cases r with
  | none => exact ⟨fun hfail => absurd rfl hfail, fun _ hfew => if_pos hfew, fun _ height => if_neg (Nat.not_lt.mpr height)⟩
  | some sig => exact ⟨fun _ => rfl, fun hpass => absurd hpass (Option.some_ne_none _), fun hpass => absurd hpass (Option.some_ne_none _)⟩

/-- A first strip, or one that nothing had started. -/
theorem stripResult_first (hst : (unitStrip s u).st = .idle ∨ (unitStrip s u).st = .due ∨ (unitStrip s u).st = .first) : let z := s.stripCounted u r
    (r = none → s.stripResult u r stamp = (((z.clearUnit u).updStrip u fun x => { x with st := .idle }).endWaiters u none).reportAll) ∧
    (∀ sig, r = some sig → s.stripResult u r stamp = (z.failWaiters u).updStrip u fun x => { x with st := .second sig }) := by
  intro z
  unfold State.stripResult
  rcases hst with hst | hst | hst
  all_goals
    rw [hst]
    exact ⟨fun hpass => by subst hpass; rfl, fun sig hfail => by subst hfail; rfl⟩

end Result

/-! ## STRIP_NOW (R425, R429) -/

/-- A mask of held core groups that names some kind of unit passes the check. -/
theorem stripNow_admitted {u : State} {h : Hdr} {mask : W32} {cores engines : Bool}
    (hheld : mask &&& ~~~(u.ptn h.ptn).cgs = 0) (hsome : cores = true ∨ engines = true) :
    (if (decide (mask &&& ~~~(u.ptn h.ptn).cgs ≠ 0) || (!cores && !engines)) = true then some St.eParam else none) = none := by
  refine if_neg ?_
  rw [hheld]
  rcases hsome with rfl | rfl
  · exact Bool.false_ne_true
  · cases cores <;> exact Bool.false_ne_true

end Sys2Proof.Machine

/-! ## The statement -/

section
open Sys2Proof Sys2Proof.Machine

/-- Settles O43: the strip's end by the state of its unit, and STRIP_NOW once its units are the partition's. -/
theorem strips : Obligations.Strips := by
  unfold Obligations.Strips
  refine ⟨fun s m => stripDue_marks, fun s m => stripStart_starts, fun s m r stamp hactive => congrArg _ (if_pos hactive), fun s e r stamp => teStripEnd_ends,
    fun s u r stamp => ?results, ?now⟩
  case results =>
    intro z idle
    exact ⟨fun sig => stripResult_second stamp, fun n => stripResult_revive stamp, stripResult_first stamp⟩
  case now =>
    intro s u h mask revive cores engines hu hheld hsome
    exact congrArg _ (queued_passed hu (stripNow_admitted hheld hsome))

end
end

section
/-! PROOFS. Platform faults and the duty of the arrays: what a reading of the sensors, an AVSBus exchange and a comparison of the steward's do, and the two statements that follow (R467, R471, R476, R479, R482, R483). -/

namespace Sys2Proof.Machine

/-! ## What a module event and a record leave of the state -/

@[simp] theorem deliver_pwr (s : State) (ports : BitVec 2) (m : Msg) : (s.deliver ports m).pwr = s.pwr := by rw [deliver_frame]

@[simp] theorem sendEvt_pwr (s : State) (kind : Byte) (body : List Byte) : (s.sendEvt kind body).pwr = s.pwr := deliver_pwr ..

/-- A module event takes a MEN. -/
theorem sendEvt_nextMen (s : State) (kind : Byte) (body : List Byte) : (s.sendEvt kind body).saf.nextMen = s.saf.nextMen + 1 :=
  congrArg Saf.nextMen (deliver_saf ..)

@[simp] theorem ptnFaults_pwr (s : State) (ns : List Nat) (r : FRec) : (s.ptnFaults ns r).pwr = s.pwr := by
  induction ns generalizing s with
  | nil => rfl
  | cons n ns ih => exact (ih _).trans (deliver_pwr ..)

@[simp] theorem recordFault_pwr (s : State) (r : FRec) : (s.recordFault r).pwr = s.pwr := by
  cases hrun : s.saf.stewRestart with
  | true => rw [recordFault_waits r hrun]
  | false =>
    rw [recordFault_eq r hrun]
    exact (deliver_pwr ..).trans (ptnFaults_pwr ..)

@[simp] theorem plat_pwr (s : State) (sev : Byte) (cause : W16) (unit : Nat) (stamp : W64) : (s.plat sev cause unit stamp).pwr = s.pwr := recordFault_pwr ..

/-! ## The duty of the arrays (R476) -/

/-- Where a comparison moves DUTY from d. -/
def dutyStep (hi low : Bool) (d : Nat) : Nat := if hi then max 4 (d - 1) else if low then min 16 (d + 1) else d

theorem dutyStep_bounds {hi low : Bool} {d : Nat} (hlo : 4 ≤ d) (hup : d ≤ 16) : 4 ≤ dutyStep hi low d ∧ dutyStep hi low d ≤ 16 := by
  unfold dutyStep
  split
  · omega
  · split <;> omega

/-- Too much input power or too hot a die. -/
def State.dutyHigh (s : State) (r : Readings) : Bool := decide (s.pwr.limitW.toNat < r.powerW) || hotter 100 r.dies
/-- Enough room below the limit, and every die cool. -/
def State.dutyLow (s : State) (r : Readings) : Bool := decide (r.powerW + 50 < s.pwr.limitW.toNat) && allBelow 95 r.dies

def State.nextDuty (s : State) (r : Readings) : Nat := dutyStep (s.dutyHigh r) (s.dutyLow r) s.pwr.duty.toNat

/-- The comparison keeps the readings and moves DUTY. -/
def State.dutyKept (s : State) (r : Readings) : State :=
  let fell := decide (s.nextDuty r < s.pwr.duty.toNat)
  { s with pwr := { s.pwr with
      duty := BitVec.ofNat 5 (s.nextDuty r), thrPower := fell && decide (s.pwr.limitW.toNat < r.powerW), thrTemp := fell && hotter 100 r.dies, tel := r } }

/-- It sends THROTTLE when DUTY leaves or reaches 16. -/
def State.dutyTold (s : State) (r : Readings) : State :=
  let fell := decide (s.nextDuty r < s.pwr.duty.toNat)
  if s.pwr.duty.toNat ≠ s.nextDuty r && (s.pwr.duty.toNat = 16 || s.nextDuty r = 16) then
    (s.dutyKept r).sendEvt 0x15 (throttleBody (s.nextDuty r) (fell && decide (s.pwr.limitW.toNat < r.powerW)) (fell && hotter 100 r.dies) r.powerW)
  else s.dutyKept r

/-- It records POWER_HIGH when DUTY cannot go lower and the input power is above 1,950 W. -/
def State.dutyCompared (s : State) (r : Readings) (stamp : W64) : State :=
  if decide (s.pwr.duty.toNat = 4) && decide (r.powerW > 1950) then (s.dutyTold r).plat 1 0x0708 0 stamp else s.dutyTold r

section Duty
variable {s : State} {r : Readings} {stamp : W64}

theorem dutyControl_compares (hready : s.phase = .ready) (hawake : s.pwr.st.toNat < 2) : exec (.dutyControl r stamp) s = .next (s.dutyCompared r stamp) := by
  refine congrArg _ (if_neg ?_)
  simp only [hready, ne_eq, not_true_eq_false, decide_false, Nat.not_le.mpr hawake, Bool.or_self, Bool.false_eq_true, not_false_eq_true]

theorem dutyTold_pwr : (s.dutyTold r).pwr = (s.dutyKept r).pwr := by
  unfold State.dutyTold
  dsimp only
  split
  · exact sendEvt_pwr ..
  · rfl

/-- Neither event moves DUTY. -/
theorem dutyCompared_pwr : (s.dutyCompared r stamp).pwr = (s.dutyKept r).pwr := by
  unfold State.dutyCompared
  split
  · exact (plat_pwr ..).trans dutyTold_pwr
  · exact dutyTold_pwr

theorem dutyCompared_calm (hcalm : ¬(s.pwr.duty.toNat = 4 ∧ 1950 < r.powerW)) : s.dutyCompared r stamp = s.dutyTold r :=
  if_neg (by rwa [Bool.and_eq_true, decide_eq_true_eq, decide_eq_true_eq])

theorem dutyKept_duty (hlo : 4 ≤ s.pwr.duty.toNat) (hup : s.pwr.duty.toNat ≤ 16) : (s.dutyKept r).pwr.duty.toNat = s.nextDuty r := by
  have hmax : s.nextDuty r ≤ 16 := (dutyStep_bounds hlo hup).2
  rw [State.dutyKept, BitVec.toNat_ofNat, Nat.mod_eq_of_lt (by omega)]

/-- THROTTLE is sent exactly when DUTY leaves or reaches 16. -/
theorem dutyTold_quiet (hquiet : s.pwr.duty.toNat = s.nextDuty r ∨ s.pwr.duty.toNat ≠ 16 ∧ s.nextDuty r ≠ 16) : s.dutyTold r = s.dutyKept r := by
  refine if_neg ?_
  simp only [Bool.and_eq_true, Bool.or_eq_true, decide_eq_true_eq]
  omega

theorem dutyTold_tells (hmoves : s.pwr.duty.toNat ≠ s.nextDuty r) (hfull : s.pwr.duty.toNat = 16 ∨ s.nextDuty r = 16) :
    (s.dutyTold r).saf.nextMen = s.saf.nextMen + 1 := by
  have hsent : (decide (s.pwr.duty.toNat ≠ s.nextDuty r) && (decide (s.pwr.duty.toNat = 16) || decide (s.nextDuty r = 16))) = true := by
    simp only [Bool.and_eq_true, Bool.or_eq_true, decide_eq_true_eq]
    exact ⟨hmoves, hfull⟩
  rw [State.dutyTold, if_pos hsent, sendEvt_nextMen]
  rfl

end Duty

/-! ## Clocks, rails and AVSBus (R467, R471, R479) -/

/-- A fault of a rail is noted for the rest of the start-up. -/
def State.noteRail (s : State) (rail : Fin 24) : State := { s with pwr := { s.pwr with rails := s.pwr.rails ||| BitVec.ofNat 24 (2 ^ rail.val) } }

/-- The second fault of a rail in this start-up. -/
def State.railAgain (s : State) (rail : Fin 24) : Bool := decide (s.phase = .starting) && bitAt s.pwr.rails.toNat rail.val

section Powered
variable {s : State} {stamp : W64} (hpower : s.powered = true)
include hpower

theorem inputLow_records : exec (.inputLow stamp) s = .next (s.plat 1 0x0707 0 stamp) := congrArg _ (if_pos hpower)

omit stamp in
theorem not_unpowered : ¬(!s.powered) = true := by rw [hpower]; exact Bool.false_ne_true

theorem refLost_resets : exec (.refLost stamp) s =
    .next ((State.plat { s with clk := { s.clk with refOk := false, refLosses := satInc s.clk.refLosses } } 2 0x0701 0 stamp).warmBegin 0x05 .clock) :=
  congrArg _ (if_neg (not_unpowered hpower))

theorem pllUnlock_resets : exec (.pllUnlock stamp) s =
    .next ((State.plat { s with clk := { s.clk with pllLock := false, unlocks := satInc s.clk.unlocks } } 2 0x0702 0 stamp).warmBegin 0x05 .clock) :=
  congrArg _ (if_neg (not_unpowered hpower))

theorem railFault_stops {rail : Fin 24} (hagain : s.railAgain rail = true) : exec (.railFault rail stamp) s =
    .next (State.noteRail { s.plat 2 0x0704 rail.val stamp with phase := .stopped, saf := { (s.plat 2 0x0704 rail.val stamp).saf with faultPend := true } } rail) :=
  congrArg _ ((if_neg (not_unpowered hpower)).trans (congrArg (State.noteRail · rail) (if_pos hagain)))

theorem railFault_resets {rail : Fin 24} (hfirst : s.railAgain rail = false) : exec (.railFault rail stamp) s =
    .next (((s.plat 2 0x0704 rail.val stamp).warmBegin 0x06 .none).noteRail rail) :=
  congrArg _ ((if_neg (not_unpowered hpower)).trans (congrArg (State.noteRail · rail) (if_neg (by rw [← State.railAgain, hfirst]; exact Bool.false_ne_true))))

theorem avsRetry_counts {bus : Fin 5} (hfew : s.pwr.avs.get 0 bus.val < 2) : exec (.avsRetry bus stamp) s =
    .next { s with pwr := { s.pwr with avs := s.pwr.avs.put 0 bus.val (s.pwr.avs.get 0 bus.val + 1) } } := by
  have hcount : s.pwr.avs.get 0 bus.val + 1 < 3 := by omega
  exact congrArg _ ((if_pos hpower).trans (if_pos hcount))

theorem avsRetry_fails {bus : Fin 5} (hmany : 2 ≤ s.pwr.avs.get 0 bus.val) (hstill : s.pwr.trans = none) : exec (.avsRetry bus stamp) s =
    .next (State.plat { s with pwr := { s.pwr with avs := s.pwr.avs.put 0 bus.val 0, trans := none } } 2 0x0703 bus.val stamp) := by
  have hcount : ¬s.pwr.avs.get 0 bus.val + 1 < 3 := by omega
  refine congrArg _ ((if_pos hpower).trans ?_)
  rw [State.avsMiss]
  dsimp only
  rw [if_neg hcount, hstill]

theorem exchange_ends {bus : Fin 5} {last : Bool} (hstill : s.pwr.trans = none) : exec (.regulatorTransitionComplete bus true last) s =
    .next { s with pwr := { s.pwr with avs := s.pwr.avs.put 0 bus.val 0 } } := by
  simp only [exec, execRegulatorTransitionComplete, hpower, hstill, Bool.not_true, Bool.false_eq_true, if_false]

end Powered

/-! ## Temperatures (R479) -/

theorem atLeast_single (lim : Int) (t : BitVec 16) : atLeast lim [t] = decide (lim * 16 ≤ t.toInt) := by
  rw [atLeast, List.any_cons, List.any_nil, Bool.or_false]

section Sensor
variable {s : State} {stamp : W64} {d : Nat} {t : BitVec 16} {ts : List (BitVec 16)}

theorem tempFaults_trip (hhot : 115 * 16 ≤ t.toInt) : s.tempFaults stamp d (t :: ts) = (s.plat 2 0x0706 d stamp).tempFaults stamp (d + 1) ts := by
  rw [State.tempFaults, atLeast_single, if_pos (decide_eq_true hhot)]

theorem tempFaults_high (hhigh : 100 * 16 ≤ t.toInt) (hbelow : t.toInt < 115 * 16) :
    s.tempFaults stamp d (t :: ts) = (s.plat 1 0x0705 d stamp).tempFaults stamp (d + 1) ts := by
  rw [State.tempFaults, atLeast_single, atLeast_single, if_neg (by rw [decide_eq_true_eq]; omega), if_pos (decide_eq_true hhigh)]

theorem tempFaults_cool (hbelow : t.toInt < 100 * 16) : s.tempFaults stamp d (t :: ts) = s.tempFaults stamp (d + 1) ts := by
  rw [State.tempFaults, atLeast_single, atLeast_single, if_neg (by rw [decide_eq_true_eq]; omega), if_neg (by rw [decide_eq_true_eq]; omega)]

end Sensor

/-- Dies that are all below 100 degrees record nothing. -/
theorem tempFaults_allCool (s : State) (stamp : W64) (d : Nat) {ts : List (BitVec 16)} (hcool : allBelow 100 ts = true) : s.tempFaults stamp d ts = s := by
  induction ts generalizing d with
  | nil => rfl
  | cons t ts ih =>
    rw [allBelow, List.all_cons, Bool.and_eq_true] at hcool
    rw [tempFaults_cool (of_decide_eq_true hcool.1)]
    exact ih (d + 1) hcool.2

theorem atLeast_of_allBelow {lo hi : Int} {ts : List (BitVec 16)} (hle : lo ≤ hi) (hcool : allBelow lo ts = true) : atLeast hi ts = false := by
  rw [atLeast, List.any_eq_false]
  intro t ht hhot
  have hbelow := of_decide_eq_true (List.all_eq_true.mp hcool t ht)
  have habove := of_decide_eq_true hhot
  omega

/-- A sample is kept, and ends a thermal hold once every sensor is cool. -/
def State.sampled (s : State) (r : Readings) : State :=
  let kept : State := { s with pwr := { s.pwr with tel := r } }
  if s.pwr.hold = .thermal ∧ hotter 90 (Readings.temps r) = false then { kept with pwr := { kept.pwr with hold := .none } } else kept

theorem tempSample_run {s : State} (r : Readings) (stamp : W64) (hpower : s.powered = true) : exec (.tempSample r stamp) s =
    .next (if atLeast 115 r.dies then ((s.sampled r).tempFaults stamp 0 r.dies).warmBegin 0x07 .thermal else (s.sampled r).tempFaults stamp 0 r.dies) := by
  have hhold : s.sampled r = if (decide (s.pwr.hold = .thermal) && !hotter 90 (Readings.temps r)) = true
      then { s with pwr := { s.pwr with tel := r, hold := .none } } else { s with pwr := { s.pwr with tel := r } } := by
    simp only [State.sampled, Bool.and_eq_true, decide_eq_true_eq, Bool.not_eq_true']
  rw [hhold]
  exact congrArg _ (if_neg (not_unpowered hpower))

end Sys2Proof.Machine

/-! ## The statements -/

section
open Sys2Proof Sys2Proof.Machine

/-- Settles O38: each fault by whether the rails are up and what was counted before, and a sample by its dies in turn. -/
theorem platformFaults : Obligations.PlatformFaults := by
  unfold Obligations.PlatformFaults
  refine fun s stamp hpower => ⟨inputLow_records hpower, refLost_resets hpower, pllUnlock_resets hpower, rfl, fun rail => ?rail,
    fun bus => ⟨avsRetry_counts hpower, avsRetry_fails hpower, exchange_ends hpower⟩, fun r => ?sample,
    fun d t ts => ⟨tempFaults_trip, tempFaults_high, tempFaults_cool⟩⟩
  case rail =>
    intro note z
    refine ⟨fun ⟨hstart, hagain⟩ => railFault_stops hpower (by rw [State.railAgain, hstart, hagain]; rfl), fun hfirst => railFault_resets hpower ?_⟩
    rw [State.railAgain, Bool.and_eq_false_iff, decide_eq_false_iff_not]
    exact hfirst
  case sample =>
    intro kept z
    rw [tempSample_run r stamp hpower]
    refine ⟨fun hcool => ?_, fun htrip => ?_, fun hhigh hno => ?_⟩
    · rw [if_neg (by rw [atLeast_of_allBelow (by decide) hcool]; exact Bool.false_ne_true), tempFaults_allCool _ stamp 0 hcool]
      rfl
    · rw [if_pos htrip]
      rfl
    · rw [if_neg (by rw [hno]; exact Bool.false_ne_true)]
      rfl

/-- Settles O39: the state after a comparison is the readings with DUTY moved a step, then THROTTLE, then POWER_HIGH, and neither event moves DUTY. -/
theorem dutyControl : Obligations.DutyControl := by
  unfold Obligations.DutyControl
  intro s r stamp hready hawake hlo hup hiP hi low
  refine ⟨_, dutyControl_compares hready hawake, ?_⟩
  have hduty := dutyKept_duty (r := r) hlo hup
  obtain ⟨hmin, hmax⟩ := dutyStep_bounds (hi := s.dutyHigh r) (low := s.dutyLow r) hlo hup
  rw [dutyCompared_pwr, hduty]
  refine ⟨rfl, hmin, hmax, fun hhigh => if_pos hhigh, fun hno hcool => ?up, fun hno hwarm => ?same, fun hno hquiet => ?quiet, fun hmoves hfull hno => ?tells⟩
  case up => exact (if_neg (ne_true_of_eq_false hno)).trans (if_pos hcool)
  case same =>
    have hsame : s.nextDuty r = s.pwr.duty.toNat :=
      (if_neg (ne_true_of_eq_false hno)).trans (if_neg (ne_true_of_eq_false hwarm))
    exact BitVec.eq_of_toNat_eq (hduty.trans hsame)
  case quiet =>
    have hstays : s.pwr.duty.toNat = s.nextDuty r ∨ s.pwr.duty.toNat ≠ 16 ∧ s.nextDuty r ≠ 16 := hquiet.imp (fun heq => by rw [← hduty, ← heq]) id
    rw [dutyCompared_calm hno, dutyTold_quiet hstays]
    exact ⟨rfl, rfl, rfl⟩
  case tells =>
    rw [dutyCompared_calm hno]
    exact dutyTold_tells (fun heq => hmoves (BitVec.eq_of_toNat_eq (heq.trans hduty.symm))) hfull

end
end

section
/-! PROOFS. Pins and inputs: what the fall and rise of PWRGD_IN, the lockout, the standby input and MOD_RST_N do, and the statement that follows (R447, R480, R490 to R493, R498). -/

namespace Sys2Proof.Machine

/-! ## Rails off, and a cold start (R480, R490, R491) -/

theorem railsOff_L3 {s : State} (hL3 : s.inL3 = true) : s.railsOff = s := if_pos hL3

theorem railsOff_loses {s : State} (hL3 : s.inL3 = false) : s.railsOff.mem = {} ∧ s.railsOff.phase = .off ∧ s.railsOff.ptns = [] ∧ s.railsOff.ths = [] ∧
    s.railsOff.launches = [] := by
  rw [State.railsOff, hL3]
  exact ⟨rfl, rfl, rfl, rfl, rfl⟩

/-- Only in its standby domain does a module stand in L3. -/
theorem inL3_of_phase {s : State} (hphase : s.phase ≠ .standby) : s.inL3 = false := by
  rw [State.inL3, decide_eq_false hphase, Bool.false_and]

/-- Whether the module stands in L3 rests on its phase and its power state alone. -/
theorem inL3_congr {s t : State} (hphase : t.phase = s.phase) (hst : t.pwr.st = s.pwr.st) : t.inL3 = s.inL3 := by rw [State.inL3, hphase, hst, State.inL3]

/-! ## What a supply that is back does (R474, R490, R491) -/

/-- A supply that is back begins a cold start in the off state, and in module L3 takes up a held wake. -/
def State.supplyBack (s : State) : State :=
  if s.inL3 then (match s.pwr.wakeHeld with | some w => s.leaveL3 w.1 w.2 | none => s) else if s.phase = .off && s.pins.stby12 then s.coldBegin else s

section Supply
variable {s : State}

theorem supplyBack_cold (hoff : s.phase = .off) (hstby : s.pins.stby12 = true) : s.supplyBack = s.coldBegin := by
  have hL3 : s.inL3 = false := inL3_of_phase (by rw [hoff]; decide)
  rw [State.supplyBack, hL3, if_neg Bool.false_ne_true, if_pos (by rw [hoff, hstby]; rfl)]

theorem supplyBack_wakes {w : BitVec 4 × BitVec 6} (hL3 : s.inL3 = true) (hheld : s.pwr.wakeHeld = some w) : s.supplyBack = s.leaveL3 w.1 w.2 := by
  rw [State.supplyBack, if_pos hL3, hheld]

theorem supplyBack_waits (hL3 : s.inL3 = true) (hheld : s.pwr.wakeHeld = none) : s.supplyBack = s := by
  rw [State.supplyBack, if_pos hL3, hheld]

theorem pwrgdInRise_back (hlow : s.pins.pwrgd = false) (hin : s.pins.lockout = false) :
    exec .pwrgdInRise s = .next (State.supplyBack { s with pins := { s.pins with pwrgd := true } }) :=
  congrArg _ ((if_neg (ne_true_of_eq_false hlow)).trans (if_neg (ne_true_of_eq_false hin)))

theorem inputRestored_back (hhigh : s.pins.pwrgd = true) (hout : s.pins.lockout = true) :
    exec .inputRestored s = .next (State.supplyBack { s with pins := { s.pins with in54 := true, lockout := false } }) := by
  refine congrArg _ (if_neg ?_)
  dsimp only
  rw [hhigh, hout]
  exact Bool.false_ne_true

/-! ## The pins that fall (R490, R491, R493) -/

theorem pwrgdInFall_off (hhigh : s.pins.pwrgd = true) : exec .pwrgdInFall s = .next (State.railsOff { s with pins := { s.pins with pwrgd := false } }) :=
  congrArg _ (if_neg (by rw [hhigh]; exact Bool.false_ne_true))

theorem pwrgdInFall_low (hlow : s.pins.pwrgd = false) : exec .pwrgdInFall s = .next s := congrArg _ (if_pos (by rw [hlow]; rfl))

theorem undervoltageLockout_high (hhigh : s.pins.pwrgd = true) :
    exec .undervoltageLockout s = .next (State.railsOff { s with pins := { s.pins with in54 := false, lockout := true } }) := congrArg _ (if_pos hhigh)

theorem undervoltageLockout_low (hlow : s.pins.pwrgd = false) :
    exec .undervoltageLockout s = .next { s with pins := { s.pins with in54 := false, lockout := true } } := congrArg _ (if_neg (ne_true_of_eq_false hlow))

theorem standbyInputLoss_running (hstby : s.pins.stby12 = true) (hrun : s.phase = .ready ∨ s.phase = .starting ∨ s.phase = .stopped) :
    exec .standbyInputLoss s = .next { s with pins := { s.pins with stby12 := false }, fresh := s.fresh + 1,
                                              pwr := { s.pwr with tel := { s.pwr.tel with vStby := BitVec.ofNat 16 (Config.free s.fresh 0) } } } := by
  refine congrArg _ ((if_neg (by rw [hstby]; exact Bool.false_ne_true)).trans (if_neg ?_))
  simp only [State.inL3]
  rcases hrun with h | h | h
  all_goals
    rw [h]
    exact Bool.false_ne_true

theorem standbyInputReturn_cold (hlow : s.pins.stby12 = false) (hoff : s.phase = .off) (hhigh : s.pins.pwrgd = true) (hin : s.pins.lockout = false) :
    exec .standbyInputReturn s = .next (State.coldBegin { s with pins := { s.pins with stby12 := true } }) := by
  refine congrArg _ ((if_neg (ne_true_of_eq_false hlow)).trans ((if_pos hoff).trans (if_pos ?_)))
  dsimp only
  rw [hhigh, hin]
  rfl

end Supply

/-! ## MOD_RST_N (R447, R498) -/

theorem modRstNFall_resets {s : State} (hhigh : s.pins.rstN = true) (hready : s.phase = .ready) : exec .modRstNFall s =
    .next (State.beginReset { s with pins := { s.pins with rstN := false }, i3c := { s.i3c with owned := !s.flashBusy } } 1 0x02 .none) := by
  simp only [exec, execModRstNFall, hhigh, hready, Bool.not_true, Bool.false_eq_true, if_false, State.warmBegin, if_true]

/-- The bytes that an aborted operation leaves: free values. -/
def State.abortedBytes (s : State) (n : Nat) : List Byte := (List.range n).map fun i => BitVec.ofNat 8 (Config.free s.fresh i)

/-- The flash returns to the steward, and a cold start that waited begins. -/
def State.flashBack (s : State) : State :=
  { s with pins := { s.pins with rstN := true }, i3c := { s.i3c with owned := false, busy := false, op := none }
           phase := if s.phase = .standby ∧ s.pwr.boot = some (0, 1) then .starting else s.phase }

theorem flashBack_eq (s : State) : let z : State := { s with pins := { s.pins with rstN := true }, i3c := { s.i3c with owned := false, busy := false, op := none } }
    s.flashBack = if (decide (z.phase = .standby) && decide (z.pwr.boot = some (0, 1))) = true then { z with phase := .starting } else z := by
  intro z
  simp only [State.flashBack, z, Bool.and_eq_true, decide_eq_true_eq]
  split <;> rfl

section Rise
variable {s : State} (hlow : s.pins.rstN = false)
include hlow

theorem modRstNRise_idle (hop : s.i3c.op = none) : exec .modRstNRise s = .next s.flashBack := by
  rw [flashBack_eq]
  simp only [exec, execModRstNRise, hlow, hop, Bool.false_eq_true, if_false]

theorem modRstNRise_aborts {o : Nat} {bs : List Byte} (hop : s.i3c.op = some (o, bs)) :
    exec .modRstNRise s = .next (State.flashBack { s.flashPut o (s.abortedBytes bs.length) with fresh := s.fresh + 1 }) := by
  have hbytes : (List.range bs.length).map (fun i => some (BitVec.ofNat 8 (Config.free s.fresh i))) = (s.abortedBytes bs.length).map some := by
    rw [State.abortedBytes, List.map_map]
    rfl
  rw [flashBack_eq]
  simp only [exec, execModRstNRise, hlow, hop, hbytes, Bool.false_eq_true, if_false]
  rfl

end Rise

theorem abortedBytes_getD (s : State) {n i : Nat} (hi : i < n) : (s.abortedBytes n).getD i 0 = BitVec.ofNat 8 (Config.free s.fresh i) := by
  rw [State.abortedBytes, List.getD_eq_getElem?_getD, List.getElem?_map, List.getElem?_range hi]
  rfl

theorem length_abortedBytes (s : State) (n : Nat) : (s.abortedBytes n).length = n := by rw [State.abortedBytes, List.length_map, List.length_range]

end Sys2Proof.Machine

/-! ## The statement -/

section
open Sys2Proof Sys2Proof.Machine

/-- Settles O41: each pin by the phase the module is in, and the rise of MOD_RST_N by what it leaves in the flash. -/
theorem pinsAndInputs : Obligations.PinsAndInputs := by
  unfold Obligations.PinsAndInputs
  refine fun s => ⟨fun hhigh => ⟨pwrgdInFall_off hhigh, undervoltageLockout_high hhigh⟩, fun hlow => ⟨pwrgdInFall_low hlow, undervoltageLockout_low hlow⟩,
    railsOff_loses, railsOff_L3, fun hlow hin hstby hoff => ?rise, fun hhigh hout hstby hoff => ?restored, fun hL3 hheld hlow hin => ?waits,
    fun w hL3 hheld hlow hin => ?wakes, standbyInputLoss_running, standbyInputReturn_cold, modRstNFall_resets, modRstNRise_idle, fun o bs hlow hop => ?aborts⟩
  case rise =>
    rw [pwrgdInRise_back hlow hin]
    exact congrArg _ (supplyBack_cold hoff hstby)
  case restored =>
    rw [inputRestored_back hhigh hout]
    exact congrArg _ (supplyBack_cold hoff hstby)
  case waits =>
    rw [pwrgdInRise_back hlow hin]
    exact congrArg _ (supplyBack_waits ((inL3_congr rfl rfl).trans hL3) hheld)
  case wakes =>
    rw [pwrgdInRise_back hlow hin]
    exact congrArg _ (supplyBack_wakes ((inL3_congr rfl rfl).trans hL3) hheld)
  case aborts =>
    have hlen := length_abortedBytes s bs.length
    refine ⟨_, modRstNRise_aborts hlow hop, rfl, rfl, rfl, fun i hi => ?_, fun a ha => ?_⟩
    · rw [← abortedBytes_getD s hi]
      exact (flashAt_congr rfl rfl).trans (flashAt_flashPut_in s o (hlen.symm ▸ hi))
    · exact (flashAt_congr rfl rfl).trans (flashAt_flashPut_out s (hlen.symm ▸ ha))

end
end

section
/-! PROOFS. Two statements about power states and module resets that fail: each speaks of every state, also of one whose table lists a key twice, and there the write of
a default, or a value that becomes the default, uncovers the second entry (R470, R471, R482, R484). A table in canonical form (`Tab.wf`) lists each key once. -/

namespace Sys2Proof.Machine

/-! ## The end of a transition (R470) -/

/-- Core group 0 stands twice in the table of supplies, both times in the row of L0. -/
def State.supplyTwice : State := { pwr := { cgSup := [(0, {}), (0, {})] } }

/-- Core group 0 enters L2. -/
def PTrans.enterL2 : PTrans := { target := 2, mask := 1 }

/-- The row of L2 is the table's default, so its write removes the first entry and leaves the second to be read. -/
theorem supplyTwice_uncovered : 0 ∈ State.supplyTwice.transCgs .enterL2 ∧
    (State.supplyTwice.transSupplied .enterL2).pwr.supply 0 = {} ∧ PTrans.enterL2.row = .l2 := by decide +kernel

/-! ## What a warm reset keeps of a port (R484) -/

/-- Qorea port 0 stands twice in the table of ports: UP and never reset, and as a port that was reset once. -/
def State.portTwice : State := { qps := [(0, { st := 2 }), (0, { rstCount := 1 })] }

/-- The port that is UP keeps nothing, so that its entry goes, and the count of the other is read after the reset. -/
theorem portTwice_uncovered : State.portTwice.saf.stewRestart = false ∧ (State.portTwice.qp 0).rstCount = 0 ∧
    ((State.portTwice.beginReset 1 0x02 .none).qp 0).rstCount = 1 := by decide +kernel

end Sys2Proof.Machine

/-! ## The statements -/

section
open Sys2Proof Sys2Proof.Machine

/-- Refutes O40: its last clause, of every state, fails where the table of supplies lists a core group twice. The end of an entry into L2 removes the first entry, since the
row of L2 is the table's default, and the second, of L0, is then the group's supply. -/
theorem not_powerStates : ¬ Obligations.PowerStates := by
  unfold Obligations.PowerStates
  intro hall
  obtain ⟨-, -, -, -, -, -, -, hend⟩ := hall
  obtain ⟨hmoves, hleft, hrow⟩ := supplyTwice_uncovered
  have hsupply := (hend State.supplyTwice .enterL2).1 0 hmoves (by decide)
  rw [hleft, hrow] at hsupply
  exact absurd hsupply (by decide)

/-- Refutes O42: its second clause, of every state, fails where the table of ports lists a port twice. The entry of a port that is UP and was never reset becomes the default
and goes, and the reset count of the second entry is read afterwards. -/
theorem not_moduleResets : ¬ Obligations.ModuleResets := by
  unfold Obligations.ModuleResets
  intro hall
  obtain ⟨-, hwarm, -, -⟩ := hall
  obtain ⟨hrun, hbefore, hafter⟩ := portTwice_uncovered
  obtain ⟨-, -, -, -, -, -, -, hports, -⟩ := hwarm State.portTwice 0x02 .none
  obtain ⟨-, hcount, -⟩ := hports 0
  rw [hrun, if_neg Bool.false_ne_true, hafter, hbefore] at hcount
  exact absurd hcount (by decide)

end
end
